-- ==== Sys2Proof/Word.lean ====
section
/-! DEFINITION. The words the manual treats as bits: bytes, link addresses, part time. -/

namespace Sys2Proof

/-- One byte of the exchange RAM, of a slip or of a link transaction. -/
abbrev Byte := BitVec 8

/-- A 16-bit link address or a two-byte field (little-endian in the exchange RAM). -/
abbrev Half := BitVec 16

/-- Part time: a 32-bit count of milliseconds since the last reset, wrapping (Table 0-4). -/
abbrev Time := BitVec 32

/-- A bay number, 0 to 59 (Table 0-5). -/
abbrev BayNo := Fin 60

end Sys2Proof
end

