-- ==== Sys2Proof/Config.lean ====
section
/-! DEFINITION. What is fixed for every PB660: the constants of the manual, and the values the manual leaves open,
each an opaque constant that no proof can see into. -/

namespace Sys2Proof.Config

/-- The open-slip table of a port holds at most 16 slips (R160). -/
def openSlipCapacity : Nat := 16

/-- The measurement window of a bay holds up to 16 samples (R39). -/
def sampleWindow : Nat := 16

/-- Reconciliation begins once a bay has been READY for 10 s (R40). -/
def reconcileGraceMs : Nat := 10000

/-- The cooling period and the sensor scan run every 1000 ms (R104, R83). -/
def periodMs : Nat := 1000

/-- A chain refresh is taken every 10 ms (R128). -/
def refreshMs : Nat := 10

/-- The activity stretch of a bay lasts 40 ms (R138). -/
def stretchMs : Nat := 40

/-- A fan is STARTING for 5 s (R115). -/
def startingMs : Nat := 5000

/-- The tach reports of a fan check count from 5 s after its start (R119). -/
def checkSpanFromMs : Nat := 5000

/-- A fan check ends 15 s after its start (R120). -/
def checkLengthMs : Nat := 15000

/-- The longest backoff of a retry wait, in seconds (R18). -/
def backoffCapS : Nat := 300

/-- The longest SPIN_UP deadline, in seconds (R69). -/
def deadlineCapS : Nat := 3600

/-- The layout version this manual describes (section 9.2). -/
def layoutVersion : Nat := 1

/-- The length of a version-1 settings image in bytes (section 11.5). -/
def imageLength : Nat := 688

/-- FREE VALUE, log entry 20. What a byte of a published record reads as where Record Layouts names no field for it, or where the
field it belongs to is absent (the slip address of a bay with no operation, the expiry of a timer that does not run).
The argument is the byte's link address. -/
opaque unstatedByte : Nat → BitVec 8

/-- FREE VALUE, log entry 21. What a two-byte rpm field holds for a speed above 65535 rpm: R116 gives the speed 60 × n for any
gate, the layouts give two bytes and state no saturation. The argument is the speed. -/
opaque wideRpm : Nat → BitVec 16

end Sys2Proof.Config
end

