-- ==== Sys2Proof/Syntax.lean ====
section
/-! DEFINITION. The commands the PB660 takes: one constructor of Instr per row of spec/opcode_table.json, in the table's order, with
the row's operands. A slip command carries the fields a reader copies when it takes the slip (R158). -/

namespace Sys2Proof

/-- The two host attachments (Table 0-5). -/
inductive Port where
  | a
  | b
  deriving DecidableEq, Repr

/-- The strapped number of bays (R176). -/
inductive BayCount where
  | c24
  | c36
  | c48
  | c60
  deriving DecidableEq, Repr

/-- The straps as their pins read when a reset is released (R176). -/
structure Straps where
  bays  : BayCount
  portB : Bool
  store : Bool
  deriving DecidableEq, Repr

/-- The composed channels of a light (Table 6-1). -/
inductive Colour where
  | amber
  | blue
  deriving DecidableEq, Repr

/-- A light with composed channels: a bay light or the enclosure light (Table 6-1). -/
inductive LightPlace where
  | bay (n : BayNo)
  | enclosure
  deriving DecidableEq, Repr

/-- What a reader copies from a slip besides its parameters, with the slip's port and address (R158): bit 0 of the flags is
ATTN_ON_END, bit 1 HOLD_AFTER (Table 11-4). -/
structure SlipHead where
  port   : Port
  addr   : Half
  flags  : Byte
  target : Byte
  deriving DecidableEq, Repr

/-- Parameters of SET_BAY (Table 11-7); an absent field is marked unchanged. -/
structure SetBayArgs where
  policy  : Option Byte
  cls     : Option Byte
  zone    : Option Byte
  profile : Option Byte
  shed    : Option Byte
  latch   : Option Byte
  deriving DecidableEq, Repr

/-- Parameters of SET_SCHEDULE (Table 11-7). -/
structure SetScheduleArgs where
  limit   : Option Byte
  stagger : Option Half
  deriving DecidableEq, Repr

/-- Parameters of SET_SUPPLY with a slot target (Table 11-7). -/
structure SetSlotArgs where
  cap12 : Option Half
  cap5  : Option Half
  deriving DecidableEq, Repr

/-- Parameters of SET_SUPPLY with target 0xFE (Table 11-7). -/
structure SetAccountArgs where
  mode      : Option Byte
  reserve12 : Option Half
  reserve5  : Option Half
  shed      : Option Byte
  delay     : Option Byte
  deriving DecidableEq, Repr

/-- Parameters of SET_PROFILE (Table 11-7). -/
structure SetProfileArgs where
  peak12   : Option Half
  steady12 : Option Half
  i5       : Option Half
  spin     : Option Half
  park     : Option Half
  deriving DecidableEq, Repr

/-- One point of a curve as a slip carries it: the temperature byte holds the temperature plus 40 (R185). -/
structure RawPoint where
  t : Byte
  d : Half
  deriving DecidableEq, Repr

/-- Parameters of SET_ZONE with the CURVE part (Table 11-7): all four points are given. -/
structure SetCurveArgs where
  p1 : RawPoint
  p2 : RawPoint
  p3 : RawPoint
  p4 : RawPoint
  deriving DecidableEq, Repr

/-- Parameters of SET_ZONE with the LIMITS part (Table 11-7). -/
structure SetLimitsArgs where
  h          : Option Byte
  ceiling    : Option Byte
  critical   : Option Byte
  v          : Option Byte
  staleFloor : Option Half
  shedTime   : Option Half
  deriving DecidableEq, Repr

/-- Parameters of SET_SENSOR (Table 11-7): zone 0xFF is NONE, the offset is signed. -/
structure SetSensorArgs where
  zone   : Option Byte
  offset : Option Byte
  deriving DecidableEq, Repr

/-- Parameters of SET_FANS (Table 11-7). -/
structure SetFansArgs where
  count    : Option Byte
  maxRpm   : Option Half
  idle     : Option Half
  maxCur   : Option Half
  dmin     : Option Half
  slewUp   : Option Half
  slewDown : Option Half
  reserve  : Option Half
  deriving DecidableEq, Repr

/-- Parameters of SET_LIGHT (Table 11-7). -/
structure SetLightArgs where
  channel  : Byte
  pattern  : Byte
  priority : Byte
  duration : Half
  enable   : Byte
  deriving DecidableEq, Repr

/-- Parameters of SET_PATTERN (Table 11-7): counts of 10 ms steps. -/
structure SetPatternArgs where
  on  : Option Byte
  off : Option Byte
  deriving DecidableEq, Repr

/-- Parameters of SET_ATTENTION (Table 11-7). -/
structure SetAttentionArgs where
  enable : Option Byte
  level  : Option Byte
  auto   : Option Byte
  vector : Option Byte
  deriving DecidableEq, Repr

/-- A live window setting as SET_WINDOWS carries it: a size code and a base address (R182, Table 11-7). -/
structure WindowSetting where
  code : Byte
  base : Half
  deriving DecidableEq, Repr

/-- A link transaction or a reset that falls within start-up, between two of its steps (R179). A read of TAKE, or a write to DONE or to
CONTROL, is a READ or a WRITE at that register's address. -/
inductive StartUpEvent where
  | read (port : Port) (addr : Half) (count : Nat)
  | write (port : Port) (addr : Half) (data : List Byte)
  | status (port : Port) (count : Nat)
  | void (port : Port) (opcode : Byte) (count : Nat)
  | coldReset (straps : Straps)
  | warmReset (straps : Straps)
  deriving DecidableEq, Repr

/-- How one start-up goes (R179): whether the settings memory answered the load's reads, and what is taken within start-up, in the order
in which it is taken: an event numbered k falls after step k + 1 of R179 and before the next. -/
structure StartUpRun where
  answered : Bool
  during   : List (Fin 7 × StartUpEvent)
  deriving DecidableEq, Repr

/-- The commands of the block: one constructor per row of spec/opcode_table.json. -/
inductive Instr where
  /-- COLD_RESET: power-on reset asserted and released; straps as the pins read at the release, and the number of writes a store
  running at the reset had made. -/
  | coldReset (straps : Straps) (storeWrites : Nat)
  /-- WARM_RESET: the reset input asserted and released while the part stays powered. -/
  | warmReset (straps : Straps) (storeWrites : Nat)
  /-- START_UP: the settings load ends, and start-up goes as `run` says. -/
  | startUp (run : StartUpRun)
  /-- READ: a link transaction that begins `count` data bytes from `addr` upward. -/
  | read (port : Port) (addr : Half) (count : Nat)
  /-- WRITE: a link transaction that completes the data bytes `data` from `addr` upward. -/
  | write (port : Port) (addr : Half) (data : List Byte)
  /-- WAITING_ROOM_WAKE: the wake of a reader in WAITING_ROOM after an entry of its table freed. -/
  | waitingRoomWake (port : Port)
  /-- STATUS: a link transaction that clocks `count` bytes. -/
  | status (port : Port) (count : Nat)
  /-- VOID_TRANSACTION: a transaction with an opcode outside Table 11-1, clocking `count` bytes. -/
  | voidTransaction (port : Port) (opcode : Byte) (count : Nat)
  /-- TAKE: a read of the one register byte TAKE. -/
  | take (port : Port)
  /-- DONE: a write of one byte to DONE. -/
  | done (port : Port) (value : Byte)
  /-- PORT_RESET: a write of one byte to CONTROL. -/
  | portReset (port : Port) (value : Byte)
  /-- REGISTER_WRITE_DISCARDED: a write of one byte to TAKE. -/
  | registerWriteDiscarded (port : Port) (value : Byte)
  /-- PRESENCE_ASSERT: a bay's presence input asserts. -/
  | presenceAssert (bay : BayNo)
  /-- PRESENCE_DEASSERT: a bay's presence input deasserts. -/
  | presenceDeassert (bay : BayNo)
  /-- SETTLE_EXPIRY: a bay's settle timer expires. -/
  | settleExpiry (bay : BayNo)
  /-- BOUNCE: a bay's absence timer expires in SETTLING. -/
  | bounce (bay : BayNo)
  /-- SURPRISE_REMOVAL: a bay's absence timer expires in a state from OFF onward. -/
  | surpriseRemoval (bay : BayNo)
  /-- LATCH_OPEN: a bay's latch input has held the open level for the debounce time. -/
  | latchOpen (bay : BayNo)
  /-- LATCH_CLOSE: a bay's latch input has held the closed level for the debounce time. -/
  | latchClose (bay : BayNo)
  /-- SWITCH_TRIP: a bay's switch-trip input asserts. -/
  | switchTrip (bay : BayNo)
  /-- BACKOFF_EXPIRY: a bay's backoff timer expires. -/
  | backoffExpiry (bay : BayNo)
  /-- SPIN_WINDOW_END: a bay's spin timer expires. -/
  | spinWindowEnd (bay : BayNo)
  /-- PARK_WINDOW_END: a bay's park window expires. -/
  | parkWindowEnd (bay : BayNo)
  /-- STAGGER_EXPIRY: the stagger expiry is reached. -/
  | staggerExpiry
  /-- DEADLINE_EXPIRY: a QUEUED bay's SPIN_UP deadline is reached. -/
  | deadlineExpiry (bay : BayNo)
  /-- SUPPLY_INPUT_CHANGE: the present and power-good inputs of a slot now read as given. -/
  | supplyInputChange (slot : Fin 4) (present : Bool) (good : Bool)
  /-- SHED_DELAY_EXPIRY: the shed delay timer expires. -/
  | shedDelayExpiry
  /-- CURRENT_SAMPLE: a sample of one bay's 12 V current, in LU. -/
  | currentSample (bay : BayNo) (sample : Half)
  /-- SENSOR_SCAN: the scan timer's time comes. -/
  | sensorScan
  /-- SENSOR_READ: the read on the sensor bus completes; none when it failed. -/
  | sensorRead (sensor : Fin 8) (result : Option (BitVec 16))
  /-- COOLING_PERIOD: the cooling period expires. -/
  | coolingPeriod
  /-- CRITICAL_TIMER_EXPIRY: a zone's critical timer expires. -/
  | criticalTimerExpiry (zone : Fin 4)
  /-- FAN_PRESENCE_REPORT: the scanner reports a fan's presence, two samples agreeing. -/
  | fanPresenceReport (fan : Fin 6) (present : Bool)
  /-- STARTING_EXPIRY: a fan's STARTING expiry is reached. -/
  | startingExpiry (fan : Fin 6)
  /-- TACH_REPORT: a 500 ms gate of a fan's tachometer counted `pulses` pulses. -/
  | tachReport (fan : Fin 6) (pulses : Nat)
  /-- FAN_CHECK_END: the fan check's 15 s have passed. -/
  | fanCheckEnd
  /-- FLOOR_EXPIRY: a port floor's expiry time is reached. -/
  | floorExpiry (port : Port)
  /-- CHAIN_REFRESH: a chain refresh is taken; bit n of `activity` says the backplane captured activity of bay n. -/
  | chainRefresh (activity : BitVec 60)
  /-- LIGHT_EXPIRY: the expiry of a port's slot of one channel is reached. -/
  | lightExpiry (port : Port) (place : LightPlace) (colour : Colour)
  /-- STORE_SETTINGS_END: the store's final signature write completes. -/
  | storeSettingsEnd
  /-- STORE_WRITE_FAILED: the settings memory fails to take a write of the store, after `writes` writes of it. -/
  | storeWriteFailed (writes : Nat)
  /-- RELOAD_READ_END: the reload's read of the image completes; whether the memory answered. -/
  | reloadReadEnd (answered : Bool)
  /-- POWER_ON taken from a slip. -/
  | powerOn (slip : SlipHead)
  /-- POWER_OFF taken from a slip. -/
  | powerOff (slip : SlipHead)
  /-- PREPARE_REMOVAL taken from a slip. -/
  | prepareRemoval (slip : SlipHead)
  /-- CLEAR_FAULT taken from a slip. -/
  | clearFault (slip : SlipHead)
  /-- SET_BAY taken from a slip. -/
  | setBay (slip : SlipHead) (args : SetBayArgs)
  /-- SPIN_UP taken from a slip, with its deadline in seconds. -/
  | spinUp (slip : SlipHead) (deadline : Half)
  /-- SPIN_DOWN taken from a slip. -/
  | spinDown (slip : SlipHead)
  /-- SET_SCHEDULE taken from a slip. -/
  | setSchedule (slip : SlipHead) (args : SetScheduleArgs)
  /-- SET_SUPPLY_SLOT: SET_SUPPLY with a slot target. -/
  | setSupplySlot (slip : SlipHead) (args : SetSlotArgs)
  /-- SET_SUPPLY_ENCLOSURE: SET_SUPPLY with target 0xFE. -/
  | setSupplyEnclosure (slip : SlipHead) (args : SetAccountArgs)
  /-- SET_PROFILE taken from a slip. -/
  | setProfile (slip : SlipHead) (args : SetProfileArgs)
  /-- SET_ZONE_CURVE: SET_ZONE with a zone target and the CURVE part. -/
  | setZoneCurve (slip : SlipHead) (args : SetCurveArgs)
  /-- SET_ZONE_LIMITS: SET_ZONE with a zone target and the LIMITS part. -/
  | setZoneLimits (slip : SlipHead) (args : SetLimitsArgs)
  /-- SET_ZONE_STALE_TIME: SET_ZONE with target 0xFE, the stale time in seconds. -/
  | setZoneStaleTime (slip : SlipHead) (seconds : Half)
  /-- SET_SENSOR taken from a slip. -/
  | setSensor (slip : SlipHead) (args : SetSensorArgs)
  /-- SET_FLOOR taken from a slip: a duty and an expiry in seconds. -/
  | setFloor (slip : SlipHead) (duty : Half) (expiry : Half)
  /-- SET_FANS taken from a slip. -/
  | setFans (slip : SlipHead) (args : SetFansArgs)
  /-- FAN_CHECK taken from a slip. -/
  | fanCheck (slip : SlipHead)
  /-- SET_LIGHT taken from a slip. -/
  | setLight (slip : SlipHead) (args : SetLightArgs)
  /-- SET_PATTERN taken from a slip. -/
  | setPattern (slip : SlipHead) (args : SetPatternArgs)
  /-- CANCEL taken from a slip, naming the slip to cancel. -/
  | cancel (slip : SlipHead) (named : Half)
  /-- NOTE taken from a slip. -/
  | note (slip : SlipHead)
  /-- SET_ATTENTION taken from a slip. -/
  | setAttention (slip : SlipHead) (args : SetAttentionArgs)
  /-- STORE_SETTINGS taken from a slip. -/
  | storeSettings (slip : SlipHead)
  /-- RELOAD_SETTINGS taken from a slip. -/
  | reloadSettings (slip : SlipHead)
  /-- SET_WINDOWS taken from a slip. -/
  | setWindows (slip : SlipHead) (args : WindowSetting)
  deriving DecidableEq, Repr

end Sys2Proof
end

