-- ==== Sys2Proof/Machine/State.lean ====
section
/-! DEFINITION. The machine's state as plain data: every register, record, queue, timer, setting and pin the manual gives the PB660,
the reasons a step can stop, and the state right after reset. -/

namespace Sys2Proof.Machine

/-- One value for each port. -/
structure PerPort (α : Type) where
  a : α
  b : α
  deriving DecidableEq, Repr

/-- The reasons for which a step would stop with a fault. The manual gives no command of the PB660 that stops the part, so there is
none (log entry 2). -/
inductive Fault where
  deriving DecidableEq, Repr

/-- The reasons for which a step would be refused. -/
inductive Refusal where
  /-- Raised by exec for a command with no meaning yet. Safe: the run stops. No arm of this model raises it. -/
  | notModelled (mnemonic : String)
  deriving DecidableEq, Repr

/-! ### Settings: the live copy (chapter 9) -/

/-- Power-up policies (R9), in code order (Table 11-9). -/
inductive Policy where
  | autoSpin
  | logicOnly
  | manual
  deriving DecidableEq, Repr

/-- The settings fields of a bay record (Table 1-1, R27). -/
structure BaySettings where
  policy       : Policy
  cls          : Fin 4
  zone         : Fin 4
  profile      : Fin 8
  shedEligible : Bool
  /-- latch action: true is STOP, false is REPORT -/
  latchStop    : Bool
  deriving DecidableEq, Repr

/-- The bay timing settings (Table 1-6): ms, ms, a count, seconds. -/
structure Timing where
  settle     : Nat
  debounce   : Nat
  retryLimit : Nat
  retryBase  : Nat
  deriving DecidableEq, Repr

/-- A drive profile (Table 2-8): currents in LU, times in ms. -/
structure Profile where
  peak12   : Nat
  steady12 : Nat
  i5       : Nat
  spin     : Nat
  park     : Nat
  deriving DecidableEq, Repr

/-- The capacities of one supply slot, in LU (Table 2-1). -/
structure SupplySetting where
  cap12 : Nat
  cap5  : Nat
  deriving DecidableEq, Repr

/-- The supply mode (R33). -/
inductive SupplyMode where
  | combined
  | spareOne
  deriving DecidableEq, Repr

/-- The account settings (Table 2-1): reserves in LU, the shed delay in seconds. -/
structure AccountSettings where
  mode      : SupplyMode
  reserve12 : Nat
  reserve5  : Nat
  shed      : Bool
  delay     : Nat
  deriving DecidableEq, Repr

/-- The schedule settings (Table 3-1). -/
structure Schedule where
  limit   : Nat
  stagger : Nat
  deriving DecidableEq, Repr

/-- One point of a zone's curve: a temperature and a duty (Table 4-1). -/
structure CurvePoint where
  t : Int
  d : Nat
  deriving DecidableEq, Repr

/-- A zone's curve (R105). -/
structure Curve where
  p1 : CurvePoint
  p2 : CurvePoint
  p3 : CurvePoint
  p4 : CurvePoint
  deriving DecidableEq, Repr

/-- A zone's limits (Table 4-1): hysteresis, admission ceiling, critical, vacancy weight, stale floor, critical shed time in s. -/
structure ZoneLimits where
  h          : Nat
  ceiling    : Int
  critical   : Int
  v          : Nat
  staleFloor : Nat
  shedTime   : Nat
  deriving DecidableEq, Repr

/-- A zone's settings (Table 4-1). -/
structure ZoneSettings where
  curve  : Curve
  limits : ZoneLimits
  deriving DecidableEq, Repr

/-- A sensor's settings (Table 4-1); zone none is NONE. -/
structure SensorSettings where
  zone   : Option (Fin 4)
  offset : Int
  deriving DecidableEq, Repr

/-- The fan settings (Table 5-1). -/
structure FanSettings where
  count    : Nat
  maxRpm   : Nat
  idle     : Nat
  maxCur   : Nat
  dmin     : Nat
  slewUp   : Nat
  slewDown : Nat
  reserve  : Nat
  deriving DecidableEq, Repr

/-- An entry of the pattern table: on-time and off-time in 10 ms steps (R132). -/
structure Pattern where
  on  : Byte
  off : Byte
  deriving DecidableEq, Repr

/-- The configuration of one attention source (Table 8-4). -/
structure SourceConfig where
  enable : Bool
  level  : Nat
  auto   : Bool
  vector : Byte
  deriving DecidableEq, Repr

/-- The live copy of every setting (section 9.2). -/
structure Settings where
  bays      : Vector BaySettings 60
  timing    : Timing
  profiles  : Vector Profile 8
  supplies  : Vector SupplySetting 4
  account   : AccountSettings
  schedule  : Schedule
  zones     : Vector ZoneSettings 4
  staleTime : Nat
  sensors   : Vector SensorSettings 8
  fans      : FanSettings
  /-- entries 0 and 1 are the fixed DARK and STEADY and hold zeros -/
  patterns  : Vector Pattern 8
  attention : PerPort (Vector SourceConfig 8)
  windows   : PerPort WindowSetting
  deriving DecidableEq, Repr

/-! ### Bays (chapter 1) -/

/-- The nine bay states (Table 1-3), in code order (Table 11-9). -/
inductive BayState where
  | empty
  | settling
  | off
  | logic
  | queued
  | spinningUp
  | ready
  | spinningDown
  | faulted
  deriving DecidableEq, Repr

/-- Reason codes (Table 1-4), in code order (Table 11-9). -/
inductive Reason where
  | reset
  | presence
  | bounce
  | inserted
  | policy
  | command
  | admitted
  | spunUp
  | parked
  | deadline
  | latch
  | trip
  | retry
  | cleared
  | removed
  | shedPower
  | shedThermal
  | rediscovered
  deriving DecidableEq, Repr

/-- Bay flags (Table 1-2). -/
structure BayFlags where
  wait5v       : Bool
  latchOpen    : Bool
  removalReady : Bool
  drawHigh     : Bool
  shedThermal  : Bool
  shedPower    : Bool
  deriving DecidableEq, Repr

/-- Operation kinds that a record can hold (Table 1-7), in code order (Table 11-9). -/
inductive OpKind where
  | settle
  | retryWait
  | spinUp
  | spinDown
  | powerOff
  | prepareRemoval
  | latchStop
  deriving DecidableEq, Repr

/-- Where an operation comes from (R12). -/
inductive Origin where
  | internal
  | slip (p : Port)
  deriving DecidableEq, Repr

/-- The operation record of a bay (R12). -/
structure Operation where
  kind         : OpKind
  origin       : Origin
  slip         : Option Half
  start        : Time
  deadline     : Option Time
  cancelMarked : Bool
  deriving DecidableEq, Repr

/-- The fields of a bay record that are no settings (Table 1-1). -/
structure BayRecord where
  state      : BayState
  reason     : Reason
  flags      : BayFlags
  c12        : Nat
  c5         : Nat
  average    : Nat
  retries    : Nat
  trips      : BitVec 16
  insertions : BitVec 16
  bounces    : BitVec 16
  entered    : Time
  op         : Option Operation
  gen        : Byte
  deriving DecidableEq, Repr

/-- One bay: its record, its timers, and the Load Account's measurement window over it. -/
structure Bay where
  record      : BayRecord
  /-- settle timer (R6): its expiry -/
  settleAt    : Option Time
  /-- absence timer (R6, R7) -/
  absenceAt   : Option Time
  /-- backoff timer (R18) -/
  backoffAt   : Option Time
  /-- spin timer (R62) -/
  spinAt      : Option Time
  /-- park window (R15) -/
  parkAt      : Option Time
  /-- the window of the most recent samples, oldest first (R39) -/
  samples     : List Nat
  /-- reconciliation has begun in the present stay in READY (R40) -/
  reconciling : Bool
  deriving DecidableEq, Repr

/-- The external lines of a bay (Table 0-6): the inputs as they read, and the two switches. -/
structure BayLines where
  presence : Bool
  /-- the latch level last held for the debounce time: true is open -/
  latch    : Bool
  trip     : Bool
  sw5      : Bool
  sw12     : Bool
  deriving DecidableEq, Repr

/-! ### The Load Account (chapter 2) -/

/-- Supply states (R31). -/
inductive SupplyState where
  | absent
  | good
  | failed
  deriving DecidableEq, Repr

/-- A supply record without its capacities (R31). -/
structure Supply where
  present : Bool
  good    : Bool
  state   : SupplyState
  gen     : Byte
  deriving DecidableEq, Repr

/-- The inputs of a supply slot (Table 0-6). -/
structure SupplyLines where
  present : Bool
  good    : Bool
  deriving DecidableEq, Repr

/-- The account's figures, flags and timer (chapter 2). Figures are kept without limit of width (R36). -/
structure Account where
  supplies       : Vector Supply 4
  base12         : Nat
  base5          : Nat
  usable12       : Nat
  usable5        : Nat
  committed12    : Nat
  committed5     : Nat
  fanRes         : Nat
  overCommitted  : Bool
  unresolved     : Bool
  redundancyLost : Bool
  /-- the shed delay timer's expiry while it runs (R43) -/
  shedTimer      : Option Time
  /-- the shed delay has expired during the present spell of over-commit (R47) -/
  delayExpired   : Bool
  deriving DecidableEq, Repr

/-! ### The Spin-Up Scheduler (chapter 3) -/

/-- An entry of the admission queue (Table 3-2). -/
structure QueueEntry where
  bay      : BayNo
  cls      : Fin 4
  enqueued : Time
  slip     : Option Half
  deadline : Option Time
  deriving DecidableEq, Repr

/-- Hold reasons (R61), in code order (Table 11-11). -/
inductive HoldReason where
  | none
  | concurrency
  | stagger
  | thermal
  | overCommitted
  | budget
  deriving DecidableEq, Repr

/-- The scheduler's own state; the spinning count is computed from the bays (R59). -/
structure Scheduler where
  /-- the admission queue, head first (R56) -/
  queue         : List QueueEntry
  lastAdmission : Option Time
  /-- the stagger expiry while it is armed (R60) -/
  staggerAt     : Option Time
  hold          : HoldReason
  gen           : Byte
  deriving DecidableEq, Repr

/-! ### Temperatures and zones (chapter 4) -/

/-- One port's feed entry for a bay (R85). -/
structure FeedEntry where
  value : Nat
  stamp : Option Time
  /-- marked stale at an evaluation (R87) -/
  stale : Bool
  deriving DecidableEq, Repr

/-- What the Thermal Zone Unit keeps for a bay (R85, R89). -/
structure BayFeed where
  entries   : PerPort FeedEntry
  latest    : Option Port
  spinStart : Option Time
  /-- the grace has run out (R89) -/
  graceOut  : Bool
  deriving DecidableEq, Repr

/-- Sensor states (R82), in code order (Table 11-7). -/
inductive SensorState where
  | unused
  | noData
  | ok
  | failed
  deriving DecidableEq, Repr

/-- A sensor record without its settings (R82). -/
structure Sensor where
  state  : SensorState
  raw    : Option Int
  fails  : Nat
  goodAt : Option Time
  gen    : Byte
  deriving DecidableEq, Repr

/-- A scan of the sensor bus under way (R83): the sensors still to be read, the one on the bus first. -/
structure Scan where
  left    : List (Fin 8)
  /-- the result of the read on the bus is to be discarded -/
  discard : Bool
  deriving DecidableEq, Repr

/-- Zone states (R93), in code order (Table 11-14). -/
inductive ZoneState where
  | normal
  | hold
  | critical
  deriving DecidableEq, Repr

/-- Zone conditions (R90), in code order (Table 11-14). -/
inductive ZoneCondition where
  | complete
  | partly
  | blind
  | noSources
  deriving DecidableEq, Repr

/-- The critical timer of a zone (R95). -/
inductive CriticalTimer where
  | stopped
  | running (expiry : Time)
  | spent
  deriving DecidableEq, Repr

/-- A source of a zone, as the hottest is named (R100). -/
inductive Source where
  | sensor (n : Fin 8)
  | bay (n : BayNo)
  deriving DecidableEq, Repr

/-- A zone record without its settings (R100). -/
structure Zone where
  e         : Int
  t         : Option Int
  hottest   : Option Source
  state     : ZoneState
  condition : ZoneCondition
  valid     : Nat
  pending   : Nat
  missing   : Nat
  vacancy   : Nat
  timer     : CriticalTimer
  gen       : Byte
  deriving DecidableEq, Repr

/-! ### Fans (chapter 5) -/

/-- Fan states (Table 5-2), in code order (Table 11-13). -/
inductive FanState where
  | unused
  | absent
  | starting
  | ok
  | failed
  deriving DecidableEq, Repr

/-- A fan record (R114). -/
structure FanRecord where
  state      : FanState
  tach       : Nat
  low        : Nat
  high       : Nat
  weak       : Bool
  lastCheck  : Nat
  entered    : Time
  startingAt : Option Time
  gen        : Byte
  deriving DecidableEq, Repr

/-- A fan: its record, its latest tach report (R116) and its presence input as last reported. -/
structure Fan where
  record  : FanRecord
  latest  : Nat
  present : Bool
  deriving DecidableEq, Repr

/-- A port floor (R108). -/
structure Floor where
  duty   : Nat
  expiry : Option Time
  deriving DecidableEq, Repr

/-- A running fan check (R119). -/
structure FanCheck where
  origin : Port
  slip   : Option Half
  start  : Time
  peaks  : Vector Nat 6
  deriving DecidableEq, Repr

/-- The Fan Controller's state; the PWM output is driven at c (R110, R111). -/
structure FanControl where
  fans        : Vector Fan 6
  c           : Nat
  cprev       : Nat
  draw        : Nat
  dcomp       : Nat
  demands     : Vector Nat 4
  coolingLost : Bool
  floors      : PerPort (Option Floor)
  check       : Option FanCheck
  deriving DecidableEq, Repr

/-! ### Lights (chapter 6) -/

/-- A request in a slot (R129). -/
structure Request where
  pattern  : Fin 8
  priority : Nat
  expiry   : Option Time
  deriving DecidableEq, Repr

/-- A composed channel: its SYSTEM slot and the two port slots (R129). -/
structure Channel where
  system : Option Request
  ports  : PerPort (Option Request)
  deriving DecidableEq, Repr

/-- A bay light: two channels, the activity enable, the start of a running activity stretch (R138, R139). -/
structure BayLight where
  amber   : Channel
  blue    : Channel
  enable  : Bool
  stretch : Option Time
  gen     : Byte
  deriving DecidableEq, Repr

/-- The enclosure light's two channels. -/
structure EnclosureLight where
  amber : Channel
  blue  : Channel
  gen   : Byte
  deriving DecidableEq, Repr

/-- The lit state of every channel as the light chain holds it (R128). -/
structure Chain where
  amber    : BitVec 60
  blue     : BitVec 60
  green    : BitVec 60
  encAmber : Bool
  encBlue  : Bool
  deriving DecidableEq, Repr

/-- The Light Composer's state. -/
structure Lights where
  bays      : Vector BayLight 60
  enclosure : EnclosureLight
  chain     : Chain
  deriving DecidableEq, Repr

/-! ### Links, readers, attention (chapters 7 and 8) -/

/-- Reader states (Table 7-4), in code order. -/
inductive ReaderState where
  | disabled
  | idleLoading
  | parked
  | waitingPost
  | held
  | waitingRoom
  | chainFault
  deriving DecidableEq, Repr

/-- An entry of the open-slip table (R160); `clamped` is the model's own: the CLAMPED flag the slip ends with (R69, R181). -/
structure OpenSlip where
  addr    : Half
  command : Byte
  attn    : Bool
  taken   : Time
  clamped : Bool
  deriving DecidableEq, Repr

/-- A slip reader (R155, R160). -/
structure Reader where
  state   : ReaderState
  cursor  : Half
  watch   : Half
  table   : List OpenSlip
  badWord : Half
  badLink : Half
  gen     : Byte
  deriving DecidableEq, Repr

/-- A window in force: base address and size in bytes (R147). -/
structure Window where
  base : Nat
  size : Nat
  deriving DecidableEq, Repr

/-- A port link: WRITE_DENIED (R151) and the bytes its last transaction drove on data out. -/
structure Link where
  denied : Bool
  out    : List Byte
  deriving DecidableEq, Repr

/-- The pending flags and in-service levels of an Attention Unit; bit n of inService is level n (R170, R172). -/
structure AttentionUnit where
  pending   : Vector Bool 8
  inService : Byte
  gen       : Byte
  deriving DecidableEq, Repr

/-! ### The settings store (chapter 9) -/

/-- The settings origin (R177). -/
inductive SettingsOrigin where
  | image
  | defaults
  deriving DecidableEq, Repr

/-- The cause of an origin DEFAULTS (R177), in code order (Table 11-10). -/
inductive Cause where
  | none
  | badSignature
  | badVersion
  | badLength
  | badChecksum
  | noResponse
  | absent
  deriving DecidableEq, Repr

/-- The store operation (R180, R181); a store holds the image it writes. -/
inductive StoreOp where
  | none
  | storing (port : Port) (slip : Option Half) (image : List Byte)
  | reloading (port : Port) (slip : Option Half)
  deriving DecidableEq, Repr

/-! ### The status area (chapter 8): each record as last published -/

/-- A bay record as published: with the bay's settings fields. -/
structure BaySnap where
  record : BayRecord
  set    : BaySettings
  deriving DecidableEq, Repr

/-- A bay light record as published. -/
structure LightSnap where
  amber  : Channel
  blue   : Channel
  enable : Bool
  gen    : Byte
  deriving DecidableEq, Repr

/-- A supply record as published. -/
structure SupplySnap where
  supply : Supply
  set    : SupplySetting
  deriving DecidableEq, Repr

/-- A zone record as published. -/
structure ZoneSnap where
  zone      : Zone
  set       : ZoneSettings
  staleTime : Nat
  deriving DecidableEq, Repr

/-- A sensor record as published. -/
structure SensorSnap where
  sensor : Sensor
  set    : SensorSettings
  deriving DecidableEq, Repr

/-- The summary fields of the Load Account and the scheduler (section 8.1). -/
structure AccountSummary where
  usable12       : Nat
  usable5        : Nat
  committed12    : Nat
  committed5     : Nat
  fanRes         : Nat
  overCommitted  : Bool
  over12         : Bool
  over5          : Bool
  unresolved     : Bool
  redundancyLost : Bool
  spinning       : Nat
  queued         : Nat
  deriving DecidableEq, Repr

/-- The cooling fields of the summary record (R124); a check as its origin and start. -/
structure CoolingSummary where
  c           : Nat
  cprev       : Nat
  draw        : Nat
  dcomp       : Nat
  demands     : Vector Nat 4
  coolingLost : Bool
  floors      : PerPort (Option Floor)
  check       : Option (Port × Time)
  deriving DecidableEq, Repr

/-- The summary record as published (section 8.1). -/
structure Summary where
  straps  : Straps
  origin  : SettingsOrigin
  cause   : Cause
  account : AccountSummary
  cooling : CoolingSummary
  time    : Time
  gen     : Byte
  deriving DecidableEq, Repr

/-- The queue snapshot as published (R78). -/
structure QueueSnap where
  bays     : List BayNo
  hold     : HoldReason
  schedule : Schedule
  last     : Option Time
  gen      : Byte
  deriving DecidableEq, Repr

/-- The enclosure light record as published (R142). -/
structure EnclosureSnap where
  light    : EnclosureLight
  patterns : Vector Pattern 8
  deriving DecidableEq, Repr

/-- An attention record as published (R175). -/
structure AttentionSnap where
  unit   : AttentionUnit
  config : Vector SourceConfig 8
  deriving DecidableEq, Repr

/-- The status area: every record as last published, none while it has not been published since the reset, and the change bitmaps.
Position p of a bitmap is bit p: bays 0 to 63, then the enclosure positions of Table 8-2 from bit 64. -/
structure Status where
  bays      : Vector (Option BaySnap) 60
  lights    : Vector (Option LightSnap) 60
  fans      : Vector (Option FanRecord) 6
  supplies  : Vector (Option SupplySnap) 4
  zones     : Vector (Option ZoneSnap) 4
  sensors   : Vector (Option SensorSnap) 8
  summary   : Option Summary
  queue     : Option QueueSnap
  enclosure : Option EnclosureSnap
  readers   : PerPort (Option Reader)
  attention : PerPort (Option AttentionSnap)
  bitmaps   : PerPort (BitVec 80)
  deriving DecidableEq, Repr

/-! ### The whole -/

/-- Where the part stands between a reset and its running: the settings load, start-up (inside one step only), running. -/
inductive Phase where
  | loading
  | starting
  | running
  deriving DecidableEq, Repr

/-- Which reset the present run began with. -/
inductive ResetKind where
  | cold
  | warm
  deriving DecidableEq, Repr

/-- Reports that one block has made to another and that the same handling still has to act on. All are empty between steps (the
model's own: log entry 27). -/
structure Reports where
  /-- an admission opportunity (R64) -/
  pass    : Bool
  /-- a WAIT_5V walk (R10) -/
  walk    : Bool
  /-- a shed run in progress (R44) -/
  run     : Bool
  /-- the unfinished thermal list (R48) -/
  thermal : List BayNo
  /-- the handling under way republishes the summary record once, at its end (R167) -/
  summaryHeld : Bool
  deriving DecidableEq, Repr

/-- Memory: (address, byte) pairs, addresses strictly rising, no byte 0 listed. -/
abbrev Memory := List Host.Cell

/-- The state of the PB660. -/
structure State where
  /-- the commands that are waiting, first in first out -/
  pending     : List Instr
  /-- part time (R178) -/
  time        : Time
  phase       : Phase
  resetKind   : ResetKind
  /-- the straps as latched (R176) -/
  straps      : Straps
  /-- whether the part drives the switch enables; false from a warm reset to rediscovery (R30) -/
  driving     : Bool
  settings    : Settings
  origin      : SettingsOrigin
  cause       : Cause
  store       : StoreOp
  /-- the contents of the 8 KiB serial settings memory -/
  settingsMem : Memory
  bays        : Vector Bay 60
  lines       : Vector BayLines 60
  account     : Account
  supplyLines : Vector SupplyLines 4
  scheduler   : Scheduler
  feeds       : Vector BayFeed 60
  sensors     : Vector Sensor 8
  scan        : Scan
  zones       : Vector Zone 4
  fans        : FanControl
  lights      : Lights
  /-- the exchange RAM from 0x2000 to 0x7FFF, the two port windows' bytes -/
  ram         : Memory
  /-- the windows in force (R147) -/
  windows     : PerPort (Option Window)
  readers     : PerPort Reader
  links       : PerPort Link
  attention   : PerPort AttentionUnit
  status      : Status
  /-- the next scan time (R83), cooling period expiry (R104) and chain refresh (R128), while their timers run -/
  scanAt      : Option Time
  coolingAt   : Option Time
  refreshAt   : Option Time
  /-- the model's own: reports inside one handling -/
  reports     : Reports
  /-- the model's own: attention events raised in the present handling and not yet handed to the Attention Units (R166) -/
  late        : List (Port × Fin 8)
  deriving DecidableEq, Repr

/-! ### Reset values -/

/-- The built-in settings of a bay (R29): MANUAL, class 2, profile 0, shed-eligible, REPORT, zone by bay quarter. -/
def BaySettings.default (n : BayNo) : BaySettings :=
  { policy := .manual, cls := 2, zone := ⟨n.val / 15, by omega⟩, profile := 0, shedEligible := true, latchStop := false }

/-- Profile 0, and the profiles 2 to 7 that default to copies of it (Table 2-8). -/
def Profile.default0 : Profile := { peak12 := 250, steady12 := 80, i5 := 90, spin := 12000, park := 4000 }

/-- Profile 1 (Table 2-8). -/
def Profile.default1 : Profile := { peak12 := 200, steady12 := 60, i5 := 70, spin := 8000, park := 3000 }

/-- The default curve of every zone (Table 4-1). -/
def Curve.default : Curve := { p1 := ⟨25, 250⟩, p2 := ⟨35, 400⟩, p3 := ⟨45, 700⟩, p4 := ⟨55, 1000⟩ }

/-- The default limits of every zone (Table 4-1). -/
def ZoneLimits.default : ZoneLimits :=
  { h := 2, ceiling := 50, critical := 60, v := 15, staleFloor := 600, shedTime := 30 }

/-- The default pattern table (Table 6-2), in 10 ms steps. -/
def defaultPatterns : Vector Pattern 8 :=
  #v[⟨0, 0⟩, ⟨0, 0⟩, ⟨50, 50⟩, ⟨10, 10⟩, ⟨10, 90⟩, ⟨25, 25⟩, ⟨100, 100⟩, ⟨5, 195⟩]

/-- The default configuration of an attention source (Table 8-4). -/
def SourceConfig.default : SourceConfig := { enable := false, level := 1, auto := false, vector := 0xF0 }

/-- The built-in defaults of every setting (Table 9-1). -/
def Settings.default : Settings :=
  { bays := Vector.ofFn BaySettings.default
    timing := { settle := 500, debounce := 20, retryLimit := 2, retryBase := 5 }
    profiles := #v[.default0, .default1, .default0, .default0, .default0, .default0, .default0, .default0]
    supplies := #v[⟨4000, 4000⟩, ⟨4000, 4000⟩, ⟨0, 0⟩, ⟨0, 0⟩]
    account := { mode := .spareOne, reserve12 := 200, reserve5 := 100, shed := true, delay := 2 }
    schedule := { limit := 4, stagger := 1500 }
    zones := Vector.replicate 4 { curve := .default, limits := .default }
    staleTime := 60
    sensors := #v[⟨some 0, 0⟩, ⟨some 1, 0⟩, ⟨some 2, 0⟩, ⟨some 3, 0⟩, ⟨none, 0⟩, ⟨none, 0⟩, ⟨none, 0⟩, ⟨none, 0⟩]
    fans := { count := 6, maxRpm := 12000, idle := 30, maxCur := 250, dmin := 400, slewUp := 50, slewDown := 20, reserve := 0 }
    patterns := defaultPatterns
    attention := ⟨Vector.replicate 8 .default, Vector.replicate 8 .default⟩
    windows := ⟨{ code := 2, base := 0x2000 }, { code := 2, base := 0x4000 }⟩ }

/-- No flag set. -/
def BayFlags.clear : BayFlags :=
  { wait5v := false, latchOpen := false, removalReady := false, drawHigh := false, shedThermal := false, shedPower := false }

/-- A bay record at cold reset (R29). -/
def BayRecord.cold : BayRecord :=
  { state := .empty, reason := .reset, flags := .clear, c12 := 0, c5 := 0, average := 0, retries := 0, trips := 0, insertions := 0,
    bounces := 0, entered := 0, op := none, gen := 0 }

/-- A bay at cold reset: its record, no timer running, an empty window (R29, R52). -/
def Bay.cold : Bay :=
  { record := .cold, settleAt := none, absenceAt := none, backoffAt := none, spinAt := none, parkAt := none, samples := [],
    reconciling := false }

/-- A supply record before the first sample (R52). -/
def Supply.cold : Supply := { present := false, good := false, state := .absent, gen := 0 }

/-- The account before start-up: every figure and flag is lost (R52). -/
def Account.cold : Account :=
  { supplies := Vector.replicate 4 .cold, base12 := 0, base5 := 0, usable12 := 0, usable5 := 0, committed12 := 0, committed5 := 0,
    fanRes := 0, overCommitted := false, unresolved := false, redundancyLost := false, shedTimer := none, delayExpired := false }

/-- The scheduler at cold reset (R79). -/
def Scheduler.cold : Scheduler := { queue := [], lastAdmission := none, staggerAt := none, hold := .none, gen := 0 }

/-- A feed entry with its stamp void (R88). -/
def FeedEntry.void : FeedEntry := { value := 0, stamp := none, stale := false }

/-- What the Thermal Zone Unit keeps for a bay at reset (R101). -/
def BayFeed.cold : BayFeed := { entries := ⟨.void, .void⟩, latest := none, spinStart := none, graceOut := false }

/-- A sensor record before its settings are loaded (R101). -/
def Sensor.cold : Sensor := { state := .unused, raw := none, fails := 0, goodAt := none, gen := 0 }

/-- A zone at reset, with E at the first curve temperature (R101). -/
def Zone.cold (c : Curve) : Zone :=
  { e := c.p1.t, t := none, hottest := none, state := .normal, condition := .noSources, valid := 0, pending := 0, missing := 0,
    vacancy := 0, timer := .stopped, gen := 0 }

/-- A fan record before the first presence sample (R125). -/
def FanRecord.cold : FanRecord :=
  { state := .unused, tach := 0, low := 0, high := 0, weak := false, lastCheck := 0, entered := 0, startingAt := none, gen := 0 }

/-- The Fan Controller at reset, over fans whose presence inputs read as given (R125). -/
def FanControl.cold (present : Vector Bool 6) : FanControl :=
  { fans := present.map fun p => { record := .cold, latest := 0, present := p }
    c := 1000, cprev := 1000, draw := 0, dcomp := 0, demands := Vector.replicate 4 0, coolingLost := false, floors := ⟨none, none⟩,
    check := none }

/-- A channel with three empty slots (R143). -/
def Channel.dark : Channel := { system := none, ports := ⟨none, none⟩ }

/-- A bay light at reset (R143). -/
def BayLight.cold : BayLight := { amber := .dark, blue := .dark, enable := true, stretch := none, gen := 0 }

/-- The composer at reset: every slot empty, the chain dark (R143, R128). -/
def Lights.cold : Lights :=
  { bays := Vector.replicate 60 .cold, enclosure := { amber := .dark, blue := .dark, gen := 0 },
    chain := { amber := 0, blue := 0, green := 0, encAmber := false, encBlue := false } }

/-- A reader while the settings load runs (R165, R160); port B's of a part strapped for A only is held the same (log entry 46). -/
def Reader.cold : Reader :=
  { state := .idleLoading, cursor := 0, watch := 0, table := [], badWord := 0, badLink := 0, gen := 0 }

/-- An Attention Unit at reset (R175). -/
def AttentionUnit.cold : AttentionUnit := { pending := Vector.replicate 8 false, inService := 0, gen := 0 }

/-- The status area with nothing published: every byte reads 0x00 (R169). -/
def Status.blank : Status :=
  { bays := Vector.replicate 60 none, lights := Vector.replicate 60 none, fans := Vector.replicate 6 none
    supplies := Vector.replicate 4 none, zones := Vector.replicate 4 none, sensors := Vector.replicate 8 none
    summary := none, queue := none, enclosure := none, readers := ⟨none, none⟩, attention := ⟨none, none⟩, bitmaps := ⟨0, 0⟩ }

/-- What a reset finds outside the part, or leaves standing: the waiting commands, the latched straps, the bays' lines, the supply
and fan presence inputs, the settings memory, and the bytes of the windows. -/
structure Surroundings where
  pending     : List Instr
  straps      : Straps
  lines       : Vector BayLines 60
  supplyLines : Vector SupplyLines 4
  fanPresence : Vector Bool 6
  settingsMem : Memory
  ram         : Memory
  deriving DecidableEq, Repr

/-- The part while the settings load of a reset of the given kind runs (R29, R30, R178): everything it keeps is lost; what stands
outside it stands. The live copy is held at the built-in defaults until start-up sets it. Both readers are IDLE_LOADING (R165, R178), port
B's also where the part is strapped for port A alone, though R147 and R176 hold that port DISABLED through every reset (DESIGN CHOICE, log
entry 46); its reader becomes DISABLED at step 8 of start-up. -/
def State.loading (kind : ResetKind) (w : Surroundings) : State :=
  { pending := w.pending
    time := 0
    phase := .loading
    resetKind := kind
    straps := w.straps
    driving := kind == .cold
    settings := .default
    origin := .defaults
    cause := .none
    store := .none
    settingsMem := w.settingsMem
    bays := Vector.replicate 60 .cold
    lines := w.lines
    account := .cold
    supplyLines := w.supplyLines
    scheduler := .cold
    feeds := Vector.replicate 60 .cold
    sensors := Vector.replicate 8 .cold
    scan := { left := [], discard := false }
    zones := Vector.replicate 4 (.cold .default)
    fans := .cold w.fanPresence
    lights := .cold
    ram := w.ram
    windows := ⟨none, none⟩
    readers := ⟨.cold, .cold⟩
    links := ⟨{ denied := false, out := [] }, { denied := false, out := [] }⟩
    attention := ⟨.cold, .cold⟩
    status := .blank
    scanAt := none
    coolingAt := none
    refreshAt := none
    reports := { pass := false, walk := false, run := false, thermal := [], summaryHeld := false }
    late := [] }

/-- The lines of an empty bay: nothing seated, both switches open. -/
def BayLines.quiet : BayLines := { presence := false, latch := false, trip := false, sw5 := false, sw12 := false }

/-- The machine right after power-on reset is released: the settings load runs (R29, R178). The straps, the inputs and the contents
of the settings memory are outside the part; the values here are log entry 4's. -/
def State.reset : State :=
  State.loading .cold
    { pending := []
      straps := { bays := .c60, portB := true, store := true }
      lines := Vector.replicate 60 .quiet
      supplyLines := Vector.replicate 4 { present := false, good := false }
      fanPresence := Vector.replicate 6 false
      settingsMem := []
      ram := [] }

end Sys2Proof.Machine
end

