-- ==== Sys2Proof/Machine/Operands.lean ====
section
/-! DEFINITION. The pieces every command is made of: part-time arithmetic, one value per port, the named places of State, the outcome
codes, the fields of a copied slip, and each SET command's clamps as a function from a setting to a setting. -/

namespace Sys2Proof.Machine

/-! ### Part time -/

/-- `ms` milliseconds after `t`, in the wrapping count of part time (Table 0-4). -/
def Time.plus (t : Time) (ms : Nat) : Time := t + BitVec.ofNat 32 ms

/-- The milliseconds from `t` to `now`, in the wrapping count. -/
def Time.age (now t : Time) : Nat := (now - t).toNat

/-- The moment `t` has been reached at `now`. Every interval of the part is below 2^31 ms (R130 says so of the longest). -/
def Time.reached (now t : Time) : Bool := decide (Time.age now t < 2 ^ 31)

/-- A timer that runs has reached its expiry. -/
def Time.due (now : Time) : Option Time → Bool
  | none => false
  | some t => Time.reached now t

/-! ### One value for each port -/

/-- The port's value. -/
def PerPort.get {α : Type} (x : PerPort α) : Port → α
  | .a => x.a
  | .b => x.b

/-- The pair with one port's value replaced. -/
def PerPort.put {α : Type} (x : PerPort α) (p : Port) (v : α) : PerPort α :=
  match p with
  | .a => { x with a := v }
  | .b => { x with b := v }

/-- The other port. -/
def Port.other : Port → Port
  | .a => .b
  | .b => .a

/-! ### Named places of State -/

/-- The strapped bay count (R176). -/
def BayCount.toNat : BayCount → Nat
  | .c24 => 24
  | .c36 => 36
  | .c48 => 48
  | .c60 => 60

/-- The bay is within the strapped count (R2). -/
def State.inCount (s : State) (n : BayNo) : Bool := decide (n.val < BayCount.toNat s.straps.bays)

/-- Bay n. -/
def State.bay (s : State) (n : BayNo) : Bay := s.bays[n]

/-- The state with bay n replaced. -/
def State.putBay (s : State) (n : BayNo) (b : Bay) : State := { s with bays := s.bays.set n b }

/-- The settings fields of bay n. -/
def State.baySet (s : State) (n : BayNo) : BaySettings := s.settings.bays[n]

/-- The lines of bay n. -/
def State.line (s : State) (n : BayNo) : BayLines := s.lines[n]

/-- The state with the lines of bay n replaced. -/
def State.putLine (s : State) (n : BayNo) (l : BayLines) : State := { s with lines := s.lines.set n l }

/-- What the Thermal Zone Unit keeps for bay n. -/
def State.feed (s : State) (n : BayNo) : BayFeed := s.feeds[n]

/-- The state with bay n's feed replaced. -/
def State.putFeed (s : State) (n : BayNo) (f : BayFeed) : State := { s with feeds := s.feeds.set n f }

/-- The light of bay n. -/
def State.light (s : State) (n : BayNo) : BayLight := s.lights.bays[n]

/-- The state with the light of bay n replaced. -/
def State.putLight (s : State) (n : BayNo) (l : BayLight) : State :=
  { s with lights := { s.lights with bays := s.lights.bays.set n l } }

/-- The drive profile a bay names at present (R51). -/
def State.profileOf (s : State) (n : BayNo) : Profile := s.settings.profiles[(s.baySet n).profile]

/-- The reader of a port. -/
def State.reader (s : State) (p : Port) : Reader := s.readers.get p

/-- The state with a port's reader replaced. -/
def State.putReader (s : State) (p : Port) (r : Reader) : State := { s with readers := s.readers.put p r }

/-- The bays 0 to 59 in ascending order. -/
def bayNumbers : List BayNo := List.finRange 60

/-- The states in which a drive is powered: the powered states of Table 1-3. -/
def BayState.powered : BayState → Bool
  | .logic | .queued | .spinningUp | .ready | .spinningDown => true
  | _ => false

/-- The states with the 12 V switch closed (Table 1-3). -/
def BayState.spinning : BayState → Bool
  | .spinningUp | .ready | .spinningDown => true
  | _ => false

/-- The states from OFF onward (R4). -/
def BayState.fromOff : BayState → Bool
  | .empty | .settling => false
  | _ => true

/-! ### Outcomes of slips -/

/-- Outcome codes of slips (Table 7-5). -/
inductive SlipOutcome where
  | ok
  | cancelled
  | timedOut
  | superseded
  | shed
  | removed
  | faulted
  | abandoned
  | bayBusy
  | badState
  | badTarget
  | badValue
  | badCommand
  | noBudget
  | busy
  | notFound
  | notCancellable
  deriving DecidableEq, Repr

/-- The byte of an outcome (Table 11-6). -/
def SlipOutcome.code : SlipOutcome → Byte
  | .ok => 0x00
  | .cancelled => 0x01
  | .timedOut => 0x02
  | .superseded => 0x03
  | .shed => 0x04
  | .removed => 0x05
  | .faulted => 0x06
  | .abandoned => 0x07
  | .bayBusy => 0x10
  | .badState => 0x11
  | .badTarget => 0x12
  | .badValue => 0x13
  | .badCommand => 0x14
  | .noBudget => 0x15
  | .busy => 0x16
  | .notFound => 0x17
  | .notCancellable => 0x18

/-- The ATTN_ON_END flag of a slip's flags byte (Table 11-4). -/
def attnOnEnd (h : SlipHead) : Bool := h.flags.getLsbD 0

/-- The HOLD_AFTER bit of a flags byte (Table 11-4). -/
def holdAfter (flags : Byte) : Bool := flags.getLsbD 1

/-- The result flags byte (Table 11-5): CLAMPED, MARKED. -/
def resultFlags (clamped marked : Bool) : Byte := (if clamped then 1 else 0) ||| (if marked then 2 else 0)

/-- The target byte names the enclosure. -/
def enclosureTarget : Byte := 0xFE

/-! ### Bytes -/

/-- The two bytes of a number, the less significant first; the caller gives a number below 65536. -/
def le16 (n : Nat) : List Byte := [BitVec.ofNat 8 n, BitVec.ofNat 8 (n / 256)]

/-- The four bytes of a part time, the least significant first. -/
def le32 (t : Time) : List Byte :=
  [t.extractLsb' 0 8, t.extractLsb' 8 8, t.extractLsb' 16 8, t.extractLsb' 24 8]

/-- A figure published saturated at 65535 (R36). -/
def saturate (n : Nat) : Nat := min n 65535

/-- A flag as a byte. -/
def flagByte (b : Bool) : Byte := if b then 1 else 0

/-- A signed number in one byte. -/
def signed8 (i : Int) : Byte := BitVec.ofInt 8 i

/-- A temperature of −40 to 150 °C as a byte of a slip or of the image carries it (R185). -/
def tempByte (t : Int) : Byte := BitVec.ofInt 8 (t + 40)

/-- The temperature such a byte carries, and whether the byte lay above 190 and was taken as 150 °C (R185). -/
def byteTemp (b : Byte) : Int × Bool := if b.toNat > 190 then (150, true) else ((b.toNat : Int) - 40, false)

/-! ### Clamps -/

/-- A value clamped to a range (Numbers and byte order), and whether that moved it. -/
def clampNat (lo hi v : Nat) : Nat × Bool := (max lo (min hi v), decide (v < lo ∨ hi < v))

/-- A given byte field clamped to a range; an unchanged field keeps its present value and clamps nothing. -/
def givenByte (lo hi : Nat) (now : Nat) : Option Byte → Nat × Bool
  | none => (now, false)
  | some v => clampNat lo hi v.toNat

/-- A given two-byte field clamped to a range; an unchanged field keeps its present value. -/
def givenHalf (lo hi : Nat) (now : Nat) : Option Half → Nat × Bool
  | none => (now, false)
  | some v => clampNat lo hi v.toNat

/-- A given temperature byte; an unchanged field keeps its present value. -/
def givenTemp (now : Int) : Option Byte → Int × Bool
  | none => (now, false)
  | some b => byteTemp b

/-- The policy of a code 0 to 2 (Table 11-9). -/
def Policy.ofCode : Nat → Policy
  | 0 => .autoSpin
  | 1 => .logicOnly
  | _ => .manual

/-- The code of a policy. -/
def Policy.code : Policy → Nat
  | .autoSpin => 0
  | .logicOnly => 1
  | .manual => 2

/-- A number as an index below n; the caller gives one below n. -/
def finOf (n : Nat) [NeZero n] (v : Nat) : Fin n := Fin.ofNat n v

/-- SET_BAY's fields after the command, and whether a value was clamped (R27). -/
def BaySettings.apply (a : SetBayArgs) (b : BaySettings) : BaySettings × Bool :=
  let po := givenByte 0 2 b.policy.code a.policy
  let cl := givenByte 0 3 b.cls.val a.cls
  let zo := givenByte 0 3 b.zone.val a.zone
  let pr := givenByte 0 7 b.profile.val a.profile
  let sh := givenByte 0 1 (if b.shedEligible then 1 else 0) a.shed
  let la := givenByte 0 1 (if b.latchStop then 1 else 0) a.latch
  ({ policy := Policy.ofCode po.1, cls := finOf 4 cl.1, zone := finOf 4 zo.1, profile := finOf 8 pr.1,
     shedEligible := decide (sh.1 = 1), latchStop := decide (la.1 = 1) },
   po.2 || cl.2 || zo.2 || pr.2 || sh.2 || la.2)

/-- SET_PROFILE's profile after the command, and whether a value was clamped (R51). -/
def Profile.apply (a : SetProfileArgs) (p : Profile) : Profile × Bool :=
  let peak := givenHalf 0 65535 p.peak12 a.peak12
  let steady := givenHalf 0 65535 p.steady12 a.steady12
  let i5 := givenHalf 0 65535 p.i5 a.i5
  let spin := givenHalf 1000 30000 p.spin a.spin
  let park := givenHalf 500 10000 p.park a.park
  ({ peak12 := peak.1, steady12 := min steady.1 peak.1, i5 := i5.1, spin := spin.1, park := park.1 },
   spin.2 || park.2 || decide (peak.1 < steady.1))

/-- SET_SUPPLY's capacities of a slot after the command (R50): no clamp. -/
def SupplySetting.apply (a : SetSlotArgs) (c : SupplySetting) : SupplySetting :=
  { cap12 := (givenHalf 0 65535 c.cap12 a.cap12).1, cap5 := (givenHalf 0 65535 c.cap5 a.cap5).1 }

/-- A slot with a capacity above 0 on either rail is fitted (R31). -/
def SupplySetting.fitted (c : SupplySetting) : Bool := !(decide (c.cap12 = 0) && decide (c.cap5 = 0))

/-- SET_SUPPLY's account settings after the command, and whether a value was clamped (R50). -/
def AccountSettings.apply (a : SetAccountArgs) (c : AccountSettings) : AccountSettings × Bool :=
  let mo := givenByte 0 1 (match c.mode with | .combined => 0 | .spareOne => 1) a.mode
  let sh := givenByte 0 1 (if c.shed then 1 else 0) a.shed
  let de := givenByte 0 10 c.delay a.delay
  ({ mode := if mo.1 = 0 then .combined else .spareOne, reserve12 := (givenHalf 0 65535 c.reserve12 a.reserve12).1,
     reserve5 := (givenHalf 0 65535 c.reserve5 a.reserve5).1, shed := decide (sh.1 = 1), delay := de.1 },
   mo.2 || sh.2 || de.2)

/-- SET_SCHEDULE's settings after the command, and whether a value was clamped (R75). -/
def Schedule.apply (a : SetScheduleArgs) (c : Schedule) : Schedule × Bool :=
  let li := givenByte 1 16 c.limit a.limit
  let st := givenHalf 0 10000 c.stagger a.stagger
  ({ limit := li.1, stagger := st.1 }, li.2 || st.2)

/-- One point of a curve with its clamps (R97). -/
def CurvePoint.ofRaw (r : RawPoint) : CurvePoint × Bool :=
  let t := byteTemp r.t
  let d := clampNat 0 1000 r.d.toNat
  ({ t := t.1, d := d.1 }, t.2 || d.2)

/-- The clamped curve SET_ZONE's CURVE part carries, and whether a value was clamped (R97). -/
def Curve.ofRaw (a : SetCurveArgs) : Curve × Bool :=
  let q1 := CurvePoint.ofRaw a.p1
  let q2 := CurvePoint.ofRaw a.p2
  let q3 := CurvePoint.ofRaw a.p3
  let q4 := CurvePoint.ofRaw a.p4
  ({ p1 := q1.1, p2 := q2.1, p3 := q3.1, p4 := q4.1 }, q1.2 || q2.2 || q3.2 || q4.2)

/-- The check of a clamped curve: temperatures strictly increasing, duties never decreasing (R97). -/
def Curve.accepted (c : Curve) : Bool :=
  decide (c.p1.t < c.p2.t) && decide (c.p2.t < c.p3.t) && decide (c.p3.t < c.p4.t) &&
    decide (c.p1.d ≤ c.p2.d) && decide (c.p2.d ≤ c.p3.d) && decide (c.p3.d ≤ c.p4.d)

/-- The limits after SET_ZONE's LIMITS part, and whether a value was clamped (R98). -/
def ZoneLimits.apply (a : SetLimitsArgs) (l : ZoneLimits) : ZoneLimits × Bool :=
  let h := givenByte 0 10 l.h a.h
  let ce := givenTemp l.ceiling a.ceiling
  let cr := givenTemp l.critical a.critical
  let v := givenByte 0 200 l.v a.v
  let sf := givenHalf 0 1000 l.staleFloor a.staleFloor
  let st := givenHalf 0 600 l.shedTime a.shedTime
  ({ h := h.1, ceiling := ce.1, critical := cr.1, v := v.1, staleFloor := sf.1, shedTime := st.1 },
   h.2 || ce.2 || cr.2 || v.2 || sf.2 || st.2)

/-- The check of the limits that result: critical above the admission ceiling (R98). -/
def ZoneLimits.accepted (l : ZoneLimits) : Bool := decide (l.ceiling < l.critical)

/-- The stale time with its clamp (R98). -/
def staleTimeOf (v : Half) : Nat × Bool := clampNat 10 600 v.toNat

/-- A sensor zone byte: 0 to 3, 0xFF for NONE, any other value clamped to 3 (R99). -/
def sensorZoneOf (b : Byte) : Option (Fin 4) × Bool :=
  if b = 0xFF then (none, false) else if b.toNat < 4 then (some (finOf 4 b.toNat), false) else (some 3, true)

/-- A signed offset byte clamped to −10 to +10 °C (R99). -/
def sensorOffsetOf (b : Byte) : Int × Bool :=
  (max (-10) (min 10 b.toInt), decide (b.toInt < -10 ∨ 10 < b.toInt))

/-- SET_SENSOR's settings after the command, and whether a value was clamped (R99). -/
def SensorSettings.apply (a : SetSensorArgs) (c : SensorSettings) : SensorSettings × Bool :=
  let z := match a.zone with
    | none => (c.zone, false)
    | some b => sensorZoneOf b
  let o := match a.offset with
    | none => (c.offset, false)
    | some b => sensorOffsetOf b
  ({ zone := z.1, offset := o.1 }, z.2 || o.2)

/-- SET_FANS's settings after the command, and whether a value was clamped (R122). -/
def FanSettings.apply (a : SetFansArgs) (f : FanSettings) : FanSettings × Bool :=
  let n := givenByte 1 6 f.count a.count
  let rpm := givenHalf 1000 30000 f.maxRpm a.maxRpm
  let idle := givenHalf 0 65535 f.idle a.idle
  let cur := givenHalf 0 65535 f.maxCur a.maxCur
  let dmin := givenHalf 100 600 f.dmin a.dmin
  let up := givenHalf 10 1000 f.slewUp a.slewUp
  let down := givenHalf 10 1000 f.slewDown a.slewDown
  let res := givenHalf 0 1000 f.reserve a.reserve
  ({ count := n.1, maxRpm := rpm.1, idle := min idle.1 cur.1, maxCur := cur.1, dmin := dmin.1, slewUp := up.1, slewDown := down.1,
     reserve := res.1 },
   n.2 || rpm.2 || dmin.2 || up.2 || down.2 || res.2 || decide (cur.1 < idle.1))

/-- SET_PATTERN's entry after the command (R141): no clamp. -/
def Pattern.apply (a : SetPatternArgs) (p : Pattern) : Pattern := { on := a.on.getD p.on, off := a.off.getD p.off }

/-- SET_ATTENTION's configuration after the command, and whether a value was clamped (R174). -/
def SourceConfig.apply (a : SetAttentionArgs) (c : SourceConfig) : SourceConfig × Bool :=
  let en := givenByte 0 1 (if c.enable then 1 else 0) a.enable
  let lv := givenByte 1 7 c.level a.level
  let au := givenByte 0 1 (if c.auto then 1 else 0) a.auto
  let ve := givenByte 0 0xFE c.vector.toNat a.vector
  ({ enable := decide (en.1 = 1), level := lv.1, auto := decide (au.1 = 1), vector := BitVec.ofNat 8 ve.1 },
   en.2 || lv.2 || au.2 || ve.2)

/-- The size in bytes that a size code names (R182); none for a code outside the four. -/
def windowSize (code : Byte) : Option Nat :=
  match code.toNat with
  | 0 => some 2048
  | 1 => some 4096
  | 2 => some 8192
  | 3 => some 16384
  | _ => none

/-- A window setting that is valid on its own terms (R147): base a multiple of the size, wholly within 0x2000 to 0x7FFF. -/
def windowOf (w : WindowSetting) : Option Window :=
  match windowSize w.code with
  | none => none
  | some size =>
    if w.base.toNat % size = 0 ∧ 0x2000 ≤ w.base.toNat ∧ w.base.toNat + size ≤ 0x8000 then
      some { base := w.base.toNat, size := size }
    else none

/-- Two windows share a byte. -/
def Window.overlaps (v w : Window) : Bool := decide (v.base < w.base + w.size) && decide (w.base < v.base + v.size)

/-- An address lies within a window. -/
def Window.holds (w : Window) (a : Nat) : Bool := decide (w.base ≤ a) && decide (a < w.base + w.size)

/-! ### Codes of the tables -/

/-- State codes of Table 11-9. -/
def BayState.code : BayState → Nat
  | .empty => 0
  | .settling => 1
  | .off => 2
  | .logic => 3
  | .queued => 4
  | .spinningUp => 5
  | .ready => 6
  | .spinningDown => 7
  | .faulted => 8

/-- Reason codes of Table 11-9. -/
def Reason.code : Reason → Nat
  | .reset => 0
  | .presence => 1
  | .bounce => 2
  | .inserted => 3
  | .policy => 4
  | .command => 5
  | .admitted => 6
  | .spunUp => 7
  | .parked => 8
  | .deadline => 9
  | .latch => 10
  | .trip => 11
  | .retry => 12
  | .cleared => 13
  | .removed => 14
  | .shedPower => 15
  | .shedThermal => 16
  | .rediscovered => 17

/-- Bits numbered from 0, as a number. -/
def bitsOf : List Bool → Nat
  | [] => 0
  | b :: t => (if b then 1 else 0) + 2 * bitsOf t

/-- The flags byte of Table 11-9. -/
def BayFlags.byte (f : BayFlags) : Byte :=
  BitVec.ofNat 8 (bitsOf [f.wait5v, f.latchOpen, f.removalReady, f.drawHigh, f.shedThermal, f.shedPower])

/-- The bay result of Table 11-7: state, reason and flags. -/
def bayResult (s : State) (n : BayNo) : List Byte :=
  [BitVec.ofNat 8 (s.bay n).record.state.code, BitVec.ofNat 8 (s.bay n).record.reason.code, (s.bay n).record.flags.byte]

/-- Supply state codes (Table 11-7). -/
def SupplyState.code : SupplyState → Nat
  | .absent => 0
  | .good => 1
  | .failed => 2

/-- Sensor state codes (Table 11-7). -/
def SensorState.code : SensorState → Nat
  | .unused => 0
  | .noData => 1
  | .ok => 2
  | .failed => 3

/-- Reader state codes (Table 7-4). -/
def ReaderState.code : ReaderState → Nat
  | .disabled => 0
  | .idleLoading => 1
  | .parked => 2
  | .waitingPost => 3
  | .held => 4
  | .waitingRoom => 5
  | .chainFault => 6

/-- Cause codes (Table 11-10). -/
def Cause.code : Cause → Nat
  | .none => 0
  | .badSignature => 1
  | .badVersion => 2
  | .badLength => 3
  | .badChecksum => 4
  | .noResponse => 5
  | .absent => 6

/-- The six settings fields of a bay in SET_BAY order (Table 11-7). -/
def BaySettings.bytes (b : BaySettings) : List Byte :=
  [BitVec.ofNat 8 b.policy.code, BitVec.ofNat 8 b.cls.val, BitVec.ofNat 8 b.zone.val, BitVec.ofNat 8 b.profile.val,
   flagByte b.shedEligible, flagByte b.latchStop]

/-- A sensor's zone as a byte: 0xFF for NONE (Table 11-7). -/
def sensorZoneByte (z : Option (Fin 4)) : Byte :=
  match z with
  | none => 0xFF
  | some z => BitVec.ofNat 8 z.val

/-- The bytes of a curve as SET_ZONE bytes 5 to 16 (Table 11-7). -/
def Curve.bytes (c : Curve) : List Byte :=
  tempByte c.p1.t :: le16 c.p1.d ++ tempByte c.p2.t :: le16 c.p2.d ++ tempByte c.p3.t :: le16 c.p3.d ++
    tempByte c.p4.t :: le16 c.p4.d

/-- The bytes of the limits as SET_ZONE bytes 6 to 13 (Table 11-7). -/
def ZoneLimits.bytes (l : ZoneLimits) : List Byte :=
  [BitVec.ofNat 8 l.h, tempByte l.ceiling, tempByte l.critical, BitVec.ofNat 8 l.v] ++ le16 l.staleFloor ++ le16 l.shedTime

/-- The seven two-byte fan settings in SET_FANS order (Table 11-7). -/
def FanSettings.bytes (f : FanSettings) : List Byte :=
  le16 f.maxRpm ++ le16 f.idle ++ le16 f.maxCur ++ le16 f.dmin ++ le16 f.slewUp ++ le16 f.slewDown ++ le16 f.reserve

/-- A port's window setting as the image and SET_WINDOWS lay it out: size code, zero, base (Table 11-16). -/
def windowBytes (w : WindowSetting) : List Byte := [w.code, 0] ++ le16 w.base.toNat

end Sys2Proof.Machine
end

