-- ==== Sys2Proof/Machine/Flags.lean ====
section
/-! DEFINITION. What the manual computes from the state: counts, flags, the winner of a light channel, the system requests, the
attention line, the admission test, the figures of the budget. -/

namespace Sys2Proof.Machine

/-! ### Bays -/

/-- A bay's contribution on the 12 V rail (Table 2-3). -/
def Bay.contribution12 (b : Bay) : Nat :=
  match b.record.state with
  | .spinningUp | .ready | .spinningDown => b.record.c12
  | _ => 0

/-- A bay's contribution on the 5 V rail (Table 2-3). -/
def Bay.contribution5 (b : Bay) : Nat :=
  match b.record.state with
  | .logic | .queued | .spinningUp | .ready | .spinningDown => b.record.c5
  | _ => 0

/-- The sum over all bays of their 12 V contributions (R36). -/
def State.sum12 (s : State) : Nat := (s.bays.toList.map Bay.contribution12).sum

/-- The sum over all bays of their 5 V contributions (R36). -/
def State.sum5 (s : State) : Nat := (s.bays.toList.map Bay.contribution5).sum

/-- The spinning count: the number of bays in SPINNING_UP (R59). -/
def State.spinningCount (s : State) : Nat := s.bays.toList.countP fun b => b.record.state == .spinningUp

/-! ### Supplies and the budget -/

/-- The state of a fitted slot from its inputs (R31). -/
def supplyStateOf (present good : Bool) : SupplyState :=
  if present then (if good then .good else .failed) else .absent

/-- The settings of the GOOD slots, in slot order. -/
def State.goodSlots (s : State) : List SupplySetting :=
  (List.finRange 4).filterMap fun i =>
    if s.account.supplies[i].state == .good then some s.settings.supplies[i] else none

/-- The base capacity of one rail from the capacities of the GOOD slots (R33). -/
def baseOf (mode : SupplyMode) (caps : List Nat) : Nat :=
  match mode with
  | .combined => caps.sum
  | .spareOne => if 2 ≤ caps.length then caps.sum - caps.foldl max 0 else caps.sum

/-- base12 (R33). -/
def State.baseCapacity12 (s : State) : Nat := baseOf s.settings.account.mode (s.goodSlots.map (·.cap12))

/-- base5 (R33). -/
def State.baseCapacity5 (s : State) : Nat := baseOf s.settings.account.mode (s.goodSlots.map (·.cap5))

/-- usable12: base12 less reserve12 and the fan reservation, and 0 when that is negative (R35). -/
def State.usableBudget12 (s : State) : Nat := s.baseCapacity12 - s.settings.account.reserve12 - s.account.fanRes

/-- usable5: base5 less reserve5, and 0 when that is negative (R35). -/
def State.usableBudget5 (s : State) : Nat := s.baseCapacity5 - s.settings.account.reserve5

/-- REDUNDANCY_LOST: in SPARE_ONE, fewer than two fitted slots are GOOD (R33). -/
def State.redundancyLostNow (s : State) : Bool :=
  match s.settings.account.mode with
  | .combined => false
  | .spareOne => decide (s.goodSlots.length < 2)

/-- The 5 V fit of a bay (R38). -/
def State.fits5 (s : State) (n : BayNo) : Bool := decide (s.account.committed5 + (s.profileOf n).i5 ≤ s.account.usable5)

/-! ### The admission test -/

/-- The stagger condition (R60): no admission yet, an interval of 0, or the stagger expiry reached. -/
def State.staggerHolds (s : State) : Bool :=
  s.scheduler.lastAdmission.isNone || decide (s.settings.schedule.stagger = 0) || s.scheduler.staggerAt.isNone ||
    Time.due s.time s.scheduler.staggerAt

/-- A zone is in HOLD or CRITICAL (R61). -/
def State.thermalHold (s : State) : Bool := s.zones.toList.any fun z => z.state != .normal

/-- The admission test on the bay at the head: the first condition that fails, or NONE when all five hold (R61). -/
def State.admissionTest (s : State) (head : BayNo) : HoldReason :=
  if ¬ s.spinningCount < s.settings.schedule.limit then .concurrency
  else if ¬ s.staggerHolds = true then .stagger
  else if s.thermalHold = true then .thermal
  else if s.account.overCommitted = true then .overCommitted
  else if ¬ s.account.committed12 + (s.profileOf head).peak12 ≤ s.account.usable12 then .budget
  else .none

/-! ### Lights -/

/-- The slots of a channel in slot order: SYSTEM 0, PORT_A 1, PORT_B 2 (R129). -/
def Channel.slots (c : Channel) : List (Option Request) := [c.system, c.ports.a, c.ports.b]

/-- The priority of a slot: 0 when it is empty (R129). -/
def slotPriority : Option Request → Nat
  | none => 0
  | some r => r.priority

/-- The winner of a channel (R131): the non-empty slot of greatest priority, the higher slot winning between equals. -/
def Channel.winner (c : Channel) : Option (Fin 3) :=
  if c.ports.b.isSome = true ∧ slotPriority c.ports.a ≤ slotPriority c.ports.b ∧
      slotPriority c.system ≤ slotPriority c.ports.b then some 2
  else if c.ports.a.isSome = true ∧ slotPriority c.system ≤ slotPriority c.ports.a then some 1
  else if c.system.isSome = true then some 0
  else none

/-- The request of the winner. -/
def Channel.shown (c : Channel) : Option Request :=
  match c.winner with
  | none => none
  | some 0 => c.system
  | some 1 => c.ports.a
  | some 2 => c.ports.b

/-- The AMBER system request of a bay (Table 6-3). -/
def systemAmber (r : BayRecord) : Option Request :=
  if r.state = .faulted then some { pattern := 1, priority := 5, expiry := none }
  else if r.flags.latchOpen = true ∧ r.state.powered = true then some { pattern := 3, priority := 4, expiry := none }
  else if r.flags.shedPower = true ∨ r.flags.shedThermal = true then some { pattern := 4, priority := 3, expiry := none }
  else if r.flags.drawHigh = true then some { pattern := 2, priority := 3, expiry := none }
  else none

/-- The BLUE system request of a bay (Table 6-3). -/
def systemBlue (r : BayRecord) : Option Request :=
  if r.flags.removalReady = true ∧ r.state = .off then some { pattern := 1, priority := 4, expiry := none }
  else if r.state = .queued then some { pattern := 2, priority := 2, expiry := none }
  else if r.state = .spinningUp ∨ r.state = .spinningDown then some { pattern := 3, priority := 2, expiry := none }
  else none

/-- A condition of R136 holds: the enclosure AMBER light is to be lit. -/
def State.enclosureFault (s : State) : Bool :=
  (bayNumbers.any fun n => s.inCount n && (s.bay n).record.state == .faulted) ||
    (s.fans.fans.toList.any fun f => f.record.state == .failed || f.record.state == .absent) ||
    s.fans.coolingLost ||
    (s.account.supplies.toList.any fun u => u.state == .failed) ||
    (s.zones.toList.any fun z => z.state == .critical) ||
    s.account.overCommitted ||
    (s.origin == .defaults)

/-- The enclosure AMBER system request (R136). -/
def State.enclosureAmber (s : State) : Option Request :=
  if s.enclosureFault then some { pattern := 1, priority := 5, expiry := none } else none

/-- The lit state of a winning pattern entry at part time t (R133). -/
def patternLit (table : Vector Pattern 8) (entry : Fin 8) (t : Time) : Bool :=
  if entry = 0 then false
  else if entry = 1 then true
  else
    let on := table[entry].on.toNat * 10
    let off := table[entry].off.toNat * 10
    if on = 0 then false else if off = 0 then true else decide (t.toNat % (on + off) < on)

/-- The lit state of a composed channel at part time t (R133). -/
def Channel.lit (c : Channel) (table : Vector Pattern 8) (t : Time) : Bool :=
  match c.shown with
  | none => false
  | some r => patternLit table r.pattern t

/-! ### Attention -/

/-- The highest in-service level, 0 when the set is empty (section 8.3); bit n of the set is level n. -/
def highestLevel (set : Byte) : Nat :=
  if set.getLsbD 7 then 7 else if set.getLsbD 6 then 6 else if set.getLsbD 5 then 5 else if set.getLsbD 4 then 4
  else if set.getLsbD 3 then 3 else if set.getLsbD 2 then 2 else if set.getLsbD 1 then 1 else 0

/-- Source i of port p meets the three conditions of R171: enabled, pending, at a level above the highest in service. -/
def State.eligible (s : State) (p : Port) (i : Fin 8) : Bool :=
  (s.settings.attention.get p)[i].enable && (s.attention.get p).pending[i] &&
    decide (highestLevel (s.attention.get p).inService < (s.settings.attention.get p)[i].level)

/-- The port's attention line is asserted (R171); it is released through the settings load. -/
def State.attentionLine (s : State) (p : Port) : Bool :=
  s.phase != .loading && (List.finRange 8).any fun i => s.eligible p i

/-- The source TAKE picks (R172): of the eligible ones that of greatest level, among equal levels that of higher number. -/
def State.takeChoice (s : State) (p : Port) : Option (Fin 8) :=
  (List.finRange 8).foldl (fun best i =>
    if s.eligible p i then
      match best with
      | none => some i
      | some j => if (s.settings.attention.get p)[j].level ≤ (s.settings.attention.get p)[i].level then some i else some j
    else best) none

/-- The link status byte of a port (Table 11-2). -/
def State.linkStatus (s : State) (p : Port) : Byte :=
  BitVec.ofNat 8 (bitsOf [s.phase == .loading, (s.links.get p).denied, s.attentionLine p])

/-- The PWM output's duty: the commanded duty, full while a reset's load runs (R110, R111, R125). -/
def State.pwm (s : State) : Nat := if s.phase = .loading then 1000 else s.fans.c

end Sys2Proof.Machine
end

