-- ==== Sys2Proof/Machine/Ops.lean ====
section
/-! DEFINITION. The operations every command shares: memory, change bitmaps, publication of each record, attention events, the light
slots the part writes itself, the admission queue as a list, and the ends of slips. -/

namespace Sys2Proof.Machine

/-! ### Memory -/

/-- What an address that no entry lists reads as: the RAM is set to 0x00 at cold reset (R146). -/
def Memory.unlisted : Byte := 0

/-- The byte at an address. -/
def Memory.read : Memory → Nat → Byte
  | [], _ => Memory.unlisted
  | (k, v) :: m, a => if k = a then v else Memory.read m a

/-- The memory with one byte written; the canonical form lists no byte that an unlisted address reads as. -/
def Memory.write (m : Memory) (a : Nat) (v : Byte) : Memory :=
  match m with
  | [] => if v = Memory.unlisted then [] else [(a, v)]
  | (k, w) :: t =>
    if v = Memory.unlisted then (if k = a then Memory.write t a v else (k, w) :: Memory.write t a v)
    else if k < a then (k, w) :: Memory.write t a v
    else if k = a then (a, v) :: t
    else (a, v) :: (k, w) :: t

/-- The memory with a run of bytes written from an address upward. -/
def Memory.writeRun (m : Memory) (a : Nat) : List Byte → Memory
  | [] => m
  | v :: t => Memory.writeRun (Memory.write m a v) (a + 1) t

/-- The memory with every byte of a range set to 0x00. -/
def Memory.clear (m : Memory) (base size : Nat) : Memory :=
  m.filter fun c => !(decide (base ≤ c.1) && decide (c.1 < base + size))

/-- The canonical form: addresses strictly rising, and no entry equal to what an unlisted address reads as. -/
abbrev Memory.wf (m : Memory) : Prop :=
  m.Pairwise (fun c d => c.1 < d.1) ∧ ∀ c ∈ m, c.2 ≠ Memory.unlisted

/-- The two-byte word at an address, low byte first. -/
def Memory.read16 (m : Memory) (a : Nat) : Half := Memory.read m (a + 1) ++ Memory.read m a

/-! ### Publication (R166, R168) -/

/-- Sets one position in both ports' change bitmaps (R168). -/
def State.mark (pos : Nat) (s : State) : State :=
  { s with status := { s.status with
      bitmaps := ⟨s.status.bitmaps.a ||| BitVec.twoPow 80 pos, s.status.bitmaps.b ||| BitVec.twoPow 80 pos⟩ } }

/-- The bitmap position of enclosure position k (Table 8-2). -/
def enclosurePosition (k : Nat) : Nat := 64 + k

/-- Publication is made from the end of the settings load on, in start-up too; through the load nothing is published (R169). -/
def State.publishing (s : State) : Bool := s.phase != .loading

/-- The generation that a publication writes, given what was published before: a first publication since the reset writes the record's
own, which is 0, and each later one the next (R166, R169). -/
def nextGen {α : Type} (old : Option α) (g : Byte) : Byte := if old.isSome then g + 1 else g

/-- Republishes bay n's record if a field other than the measured average has changed (R1). -/
def State.pubBay (n : BayNo) (s : State) : State :=
  let r := (s.bay n).record
  let old := s.status.bays[n]
  if s.publishing = false ∨
      old.map (fun p => ({ p.record with average := r.average }, p.set)) = some (r, s.baySet n) then s
  else
    let r' := { r with gen := nextGen old r.gen }
    State.mark n.val
      { s with
        bays := s.bays.set n { s.bay n with record := r' }
        status := { s.status with bays := s.status.bays.set n (some { record := r', set := s.baySet n }) } }

/-- The light record of bay n as it would be published. -/
def State.lightSnap (s : State) (n : BayNo) : LightSnap :=
  { amber := (s.light n).amber, blue := (s.light n).blue, enable := (s.light n).enable, gen := (s.light n).gen }

/-- A light record with no slot set: what start-up leaves to its step 7 to publish first (R144). -/
def LightSnap.dark : LightSnap := { amber := .dark, blue := .dark, enable := true, gen := 0 }

/-- Republishes bay n's light record if it has changed (R142); in start-up a light is published as its slots are set (R144). -/
def State.pubLight (n : BayNo) (s : State) : State :=
  let old := s.status.lights[n]
  if s.publishing = false ∨ s.inCount n = false ∨ s.lightSnap n = old.getD .dark then s
  else
    let t := s.putLight n { s.light n with gen := nextGen old (s.light n).gen }
    State.mark n.val { t with status := { t.status with lights := t.status.lights.set n (some (t.lightSnap n)) } }

/-- Republishes fan i's record if it has changed (R118). -/
def State.pubFan (i : Fin 6) (s : State) : State :=
  let f := s.fans.fans[i]
  let old := s.status.fans[i]
  if s.publishing = false ∨ old = some f.record then s
  else
    let r := { f.record with gen := nextGen old f.record.gen }
    State.mark (enclosurePosition i.val)
      { s with
        fans := { s.fans with fans := s.fans.fans.set i { f with record := r } }
        status := { s.status with fans := s.status.fans.set i (some r) } }

/-- Republishes supply record i if it has changed (R31). -/
def State.pubSupply (i : Fin 4) (s : State) : State :=
  let u := s.account.supplies[i]
  let old := s.status.supplies[i]
  if s.publishing = false ∨ old = some { supply := u, set := s.settings.supplies[i] } then s
  else
    let u' := { u with gen := nextGen old u.gen }
    State.mark (enclosurePosition (6 + i.val))
      { s with
        account := { s.account with supplies := s.account.supplies.set i u' }
        status := { s.status with supplies := s.status.supplies.set i (some { supply := u', set := s.settings.supplies[i] }) } }

/-- Republishes zone record i if it has changed (R100). -/
def State.pubZone (i : Fin 4) (s : State) : State :=
  let z := s.zones[i]
  let old := s.status.zones[i]
  if s.publishing = false ∨
      old = some { zone := z, set := s.settings.zones[i], staleTime := s.settings.staleTime } then s
  else
    let z' := { z with gen := nextGen old z.gen }
    State.mark (enclosurePosition (10 + i.val))
      { s with
        zones := s.zones.set i z'
        status := { s.status with
          zones := s.status.zones.set i
            (some { zone := z', set := s.settings.zones[i], staleTime := s.settings.staleTime }) } }

/-- Republishes sensor record i, changed or not (R99). -/
def State.republishSensor (i : Fin 8) (s : State) : State :=
  if s.publishing = false then s
  else
    let u := { s.sensors[i] with gen := nextGen s.status.sensors[i] s.sensors[i].gen }
    State.mark (enclosurePosition 14)
      { s with
        sensors := s.sensors.set i u
        status := { s.status with sensors := s.status.sensors.set i (some { sensor := u, set := s.settings.sensors[i] }) } }

/-- Republishes sensor record i if its state, its last good raw value or a setting has changed (R82). -/
def State.pubSensor (i : Fin 8) (s : State) : State :=
  let u := s.sensors[i]
  if (s.status.sensors[i]).map (fun p => (p.sensor.state, p.sensor.raw, p.set)) = some (u.state, u.raw, s.settings.sensors[i]) then s
  else s.republishSensor i

/-- The account and scheduler fields of the summary as they now stand, figures saturated at 65535 (R36, R78). -/
def State.accountSummary (s : State) : AccountSummary :=
  { usable12 := saturate s.account.usable12
    usable5 := saturate s.account.usable5
    committed12 := saturate s.account.committed12
    committed5 := saturate s.account.committed5
    fanRes := saturate s.account.fanRes
    overCommitted := s.account.overCommitted
    over12 := s.account.overCommitted && decide (s.account.usable12 < s.account.committed12)
    over5 := s.account.overCommitted && decide (s.account.usable5 < s.account.committed5)
    unresolved := s.account.unresolved
    redundancyLost := s.account.redundancyLost
    spinning := s.spinningCount
    queued := s.scheduler.queue.length }

/-- The cooling fields of the summary as they now stand (R124). -/
def State.coolingSummary (s : State) : CoolingSummary :=
  { c := s.fans.c, cprev := s.fans.cprev, draw := s.fans.draw, dcomp := s.fans.dcomp, demands := s.fans.demands,
    coolingLost := s.fans.coolingLost, floors := s.fans.floors,
    check := s.fans.check.map fun k => (k.origin, k.start) }

/-- The summary record as it would now be published, with this generation. -/
def State.summarySnap (s : State) (gen : Byte) : Summary :=
  { straps := s.straps, origin := s.origin, cause := s.cause, account := s.accountSummary, cooling := s.coolingSummary,
    time := s.time, gen := gen }

/-- Republishes the summary record (section 8.1), unless the handling under way does so once at its end (R167): start-up, whose step 7
publishes it first, is one such handling (R179). -/
def State.pubSummary (s : State) : State :=
  if s.publishing = false ∨ s.reports.summaryHeld = true ∨ (s.phase = .starting ∧ s.status.summary = none) then s
  else
    State.mark (enclosurePosition 15)
      { s with status := { s.status with
          summary := some (s.summarySnap (match s.status.summary with | none => 0 | some u => u.gen + 1)) } }

/-- Republishes the summary record if a field of it other than the publication time has changed (section 8.1). -/
def State.pubSummaryIfChanged (s : State) : State :=
  if s.status.summary.map (fun u => (u.account, u.cooling, u.origin, u.cause, u.straps)) =
      some (s.accountSummary, s.coolingSummary, s.origin, s.cause, s.straps) then s
  else s.pubSummary

/-- Republishes the summary record if a field of the account or the scheduler has changed (R37). -/
def State.pubSummaryIfAccount (s : State) : State :=
  if s.status.summary.map (·.account) = some s.accountSummary then s else s.pubSummary

/-- The handling that begins here republishes the summary record once, at its end (R167). -/
def State.holdSummary (s : State) : State := { s with reports := { s.reports with summaryHeld := true } }

/-- The end of such a handling, which began with the summary held or not: the record is republished if a field of it has changed. -/
def State.releaseSummary (held : Bool) (s : State) : State :=
  ({ s with reports := { s.reports with summaryHeld := held } }).pubSummaryIfChanged

/-- One handling that changes fields of two owners of the summary record: the record is republished once, after all have changed (R167). -/
def State.withOneSummary (act : State → State) (s : State) : State :=
  (act s.holdSummary).releaseSummary s.reports.summaryHeld

/-- Republishes the queue snapshot (R78). -/
def State.pubQueue (s : State) : State :=
  if s.publishing = false then s
  else
    let g := nextGen s.status.queue s.scheduler.gen
    State.mark (enclosurePosition 15)
      { s with
        scheduler := { s.scheduler with gen := g }
        status := { s.status with
          queue := some { bays := s.scheduler.queue.map (·.bay), hold := s.scheduler.hold, schedule := s.settings.schedule,
                          last := s.scheduler.lastAdmission, gen := g } } }

/-- Republishes the enclosure light record if it has changed (R142); in start-up as its slots are set (R144). -/
def State.pubEnclosure (s : State) : State :=
  let old := s.status.enclosure
  let dark : EnclosureSnap := { light := { amber := .dark, blue := .dark, gen := 0 }, patterns := s.settings.patterns }
  if s.publishing = false ∨ ({ light := s.lights.enclosure, patterns := s.settings.patterns } : EnclosureSnap) = old.getD dark then s
  else
    let l := { s.lights.enclosure with gen := nextGen old s.lights.enclosure.gen }
    State.mark (enclosurePosition 15)
      { s with
        lights := { s.lights with enclosure := l }
        status := { s.status with enclosure := some { light := l, patterns := s.settings.patterns } } }

/-- Republishes a port's reader record (R160, R164). -/
def State.republishReader (p : Port) (s : State) : State :=
  if s.publishing = false then s
  else
    let r := { s.reader p with gen := nextGen (s.status.readers.get p) (s.reader p).gen }
    State.mark (enclosurePosition 15)
      { s with
        readers := s.readers.put p r
        status := { s.status with readers := s.status.readers.put p (some r) } }

/-- Republishes a port's reader record if it has changed (R160). -/
def State.pubReader (p : Port) (s : State) : State :=
  if s.status.readers.get p = some (s.reader p) then s else s.republishReader p

/-- Republishes a port's attention record, changed or not (R175). -/
def State.republishAttention (p : Port) (s : State) : State :=
  if s.publishing = false then s
  else
    let u := { s.attention.get p with gen := nextGen (s.status.attention.get p) (s.attention.get p).gen }
    State.mark (enclosurePosition 15)
      { s with
        attention := s.attention.put p u
        status := { s.status with
          attention := s.status.attention.put p (some { unit := u, config := s.settings.attention.get p }) } }

/-- Republishes a port's attention record if it has changed (R175). -/
def State.pubAttention (p : Port) (s : State) : State :=
  if s.status.attention.get p = some { unit := s.attention.get p, config := s.settings.attention.get p } then s
  else s.republishAttention p

/-! ### Attention events (Table 8-3, R170) -/

/-- Source LOAD_DONE. -/
def srcLoadDone : Fin 8 := 0
/-- Source SLIP_ENDED. -/
def srcSlipEnded : Fin 8 := 1
/-- Source CHAIN_FAULT. -/
def srcChainFault : Fin 8 := 2
/-- Source BAY_CHANGE. -/
def srcBayChange : Fin 8 := 3
/-- Source BAY_FAULT. -/
def srcBayFault : Fin 8 := 4
/-- Source POWER. -/
def srcPower : Fin 8 := 5
/-- Source THERMAL. -/
def srcThermal : Fin 8 := 6
/-- Source FAN. -/
def srcFan : Fin 8 := 7

/-- A port's Attention Unit latches an event: the pending flag of an enabled source is set (R170). -/
def State.latchEvent (p : Port) (i : Fin 8) (s : State) : State :=
  if (s.settings.attention.get p)[i].enable = true ∧ (s.attention.get p).pending[i] = false then
    let u := s.attention.get p
    ({ s with attention := s.attention.put p { u with pending := u.pending.set i true } }).pubAttention p
  else s

/-- Raises an event to one port. It reaches the port's Attention Unit at the end of the handling, after every record the handling
republishes (R166). -/
def State.raise (p : Port) (i : Fin 8) (s : State) : State := { s with late := s.late ++ [(p, i)] }

/-- Raises an event to both ports. -/
def State.raiseBoth (i : Fin 8) (s : State) : State := (s.raise .a i).raise .b i

/-- Raises an event to both ports if there is one to raise. -/
def State.raiseOpt (e : Option (Fin 8)) (s : State) : State :=
  match e with
  | none => s
  | some i => s.raiseBoth i

/-- Hands the events a handling raised to the Attention Units, in the order they were raised (R166, R170). -/
def State.deliver (s : State) : State :=
  s.late.foldl (fun t e => t.latchEvent e.1 e.2) { s with late := [] }

/-! ### Light slots the part writes (R134 to R137) -/

/-- Derives bay n's SYSTEM slots from its record; the light record is republished if a slot changed (R134, R135). -/
def State.deriveLights (n : BayNo) (s : State) : State :=
  if s.inCount n = false then s
  else
    let l := s.light n
    let r := (s.bay n).record
    (s.putLight n { l with amber := { l.amber with system := systemAmber r }, blue := { l.blue with system := systemBlue r } }).pubLight n

/-- The enclosure AMBER SYSTEM slot set from the conditions of R136; the record is republished if the slot changed (R137). -/
def State.lightEnclosure (s : State) : State :=
  let e := s.lights.enclosure
  ({ s with lights := { s.lights with
      enclosure := { e with amber := { e.amber with system := s.enclosureAmber } } } }).pubEnclosure

/-- A handling that may have changed a condition of R136 evaluates the slot (R137). Within start-up, one handling, step 6 alone does so
(R144, R179). -/
def State.evalEnclosure (s : State) : State := if s.phase = .starting then s else s.lightEnclosure

/-! ### Slips (R153, R154, R160) -/

/-- Sixteen bytes of result data: the bytes given, unused ones 0x00 (R154). -/
def resultBytes (r : List Byte) : List Byte := (r ++ List.replicate 16 0).take 16

/-- The slip's end fields written in the order of R154; with no result data, offsets 4 to 19 keep what they held. -/
def writeEnd (addr : Nat) (o : SlipOutcome) (flags : Byte) (result : Option (List Byte)) (now : Time) (m : Memory) : Memory :=
  let m1 := match result with
    | none => m
    | some r => Memory.writeRun m (addr + 4) (resultBytes r)
  Memory.write (Memory.writeRun m1 (addr + 20) ([o.code, flags, 0, 0] ++ le32 now)) addr 3

/-- Ends a slip at its address: writes its end fields and raises SLIP_ENDED if it asked for it (R154). -/
def State.endAt (p : Port) (addr : Half) (attn : Bool) (o : SlipOutcome) (flags : Byte) (result : Option (List Byte)) (s : State) : State :=
  let t := { s with ram := writeEnd addr.toNat o flags result s.time s.ram }
  if attn then t.raise p srcSlipEnded else t

/-- Ends a slip as part of the dispatch that takes it. -/
def State.endTaken (h : SlipHead) (o : SlipOutcome) (clamped marked : Bool) (result : Option (List Byte)) (s : State) : State :=
  s.endAt h.port h.addr (attnOnEnd h) o (resultFlags clamped marked) result

/-- The open slip at an address of a port's table. -/
def State.findOpen (s : State) (p : Port) (addr : Half) : Option OpenSlip :=
  (s.reader p).table.find? fun e => e.addr == addr

/-- Removes an address from a port's open-slip table and republishes the reader record (R160). -/
def State.dropOpen (p : Port) (addr : Half) (s : State) : State :=
  (s.putReader p { s.reader p with table := (s.reader p).table.filter fun e => e.addr != addr }).pubReader p

/-- Ends an open slip: its end fields are written, its entry leaves the table (R154). -/
def State.endOpen (p : Port) (addr : Half) (o : SlipOutcome) (clamped : Bool) (result : Option (List Byte)) (s : State) : State :=
  match s.findOpen p addr with
  | none => s
  | some e => (s.endAt p addr e.attn o (resultFlags (e.clamped || clamped) false) result).dropOpen p addr

/-- A slip kept open by its owning block enters its port's table (R158, R160). -/
def State.keepOpen (h : SlipHead) (command : Byte) (clamped : Bool) (s : State) : State :=
  s.putReader h.port
    { s.reader h.port with
      table := (s.reader h.port).table ++
        [{ addr := h.addr, command := command, attn := attnOnEnd h, taken := s.time, clamped := clamped }] }

/-- Ends the slip of an operation that has ended, with the bay result (R12, section 1.12). -/
def State.endOpSlip (op : Option Operation) (o : SlipOutcome) (result : List Byte) (s : State) : State :=
  match op with
  | some { origin := .slip p, slip := some addr, .. } => s.endOpen p addr o false (some result)
  | _ => s

end Sys2Proof.Machine
end

