-- ==== Sys2Proof/Machine/Account.lean ====
section
/-! DEFINITION. The Load Account (chapter 2): handling a change of the figures, over-commit, supply records, the fan reservation. -/

namespace Sys2Proof.Machine

/-- The account's figures as the supplies, settings and bays now give them (R33, R35, R36). -/
def State.figures (s : State) : Account :=
  { s.account with
    base12 := s.baseCapacity12, base5 := s.baseCapacity5
    usable12 := s.usableBudget12, usable5 := s.usableBudget5
    committed12 := s.sum12, committed5 := s.sum5
    redundancyLost := s.redundancyLostNow }

/-- OVER_COMMITTED holds of these figures (R42). -/
def Account.exceeded (f : Account) : Bool := decide (f.usable12 < f.committed12) || decide (f.usable5 < f.committed5)

/-- A committed or usable figure differs (R47). -/
def Account.moved (old new : Account) : Bool :=
  !(decide (old.committed12 = new.committed12) && decide (old.committed5 = new.committed5) &&
    decide (old.usable12 = new.usable12) && decide (old.usable5 = new.usable5))

/-- The shed delay timer as it starts now: none when the delay is 0, whose expiry is taken at once (R43). -/
def State.shedTimerStart (s : State) : Option Time :=
  if s.settings.account.delay = 0 then none else some (Time.plus s.time (s.settings.account.delay * 1000))

/-- A shed run may start again: the delay has expired in this spell, no timer runs, shed is ON (R47). -/
def State.rerunReady (s : State) : Bool :=
  s.account.overCommitted && s.account.delayExpired && s.account.shedTimer.isNone && s.settings.account.shed

/-- The account with over-commit evaluated on figures f (R42, R43): entry starts the shed delay timer when shed is ON, exit stops it
and clears UNRESOLVED, anything else leaves them. -/
def State.evaluated (s : State) (f : Account) : Account :=
  if f.exceeded = true then
    if s.account.overCommitted = true then { f with overCommitted := true }
    else
      { f with
        overCommitted := true
        shedTimer := if s.settings.account.shed then s.shedTimerStart else none
        delayExpired := s.settings.account.shed && decide (s.settings.account.delay = 0) }
  else { f with overCommitted := false, unresolved := false, shedTimer := none, delayExpired := false }

/-- What the account tells its neighbours of a change from its present figures to a (R37), and the shed run that R43 or R47 starts. -/
def State.accountReports (s : State) (a : Account) : Reports :=
  let old := s.account
  { s.reports with
    pass := s.reports.pass || decide (a.committed12 < old.committed12) || decide (old.usable12 < a.usable12) ||
      (old.overCommitted && !a.overCommitted)
    walk := s.reports.walk || decide (a.committed5 < old.committed5) || decide (old.usable5 < a.usable5)
    run := s.reports.run ||
      (a.overCommitted && !old.overCommitted && a.delayExpired) ||
      (a.overCommitted && s.rerunReady && Account.moved old a) }

/-- POWER is due: over-commit was entered or cleared, or REDUNDANCY_LOST was set or cleared (R42, R33). -/
def State.powerDue (s : State) (a : Account) : Bool :=
  (s.account.overCommitted != a.overCommitted) || (s.account.redundancyLost != a.redundancyLost)

/-- The account handles a change of its figures to its end (R37): figures, over-commit, the enclosure light, the summary record, what
the neighbours are told, POWER. -/
def State.accountUpdate (s : State) : State :=
  let a := s.evaluated s.figures
  let t := ({ s with account := a, reports := s.accountReports a }).evalEnclosure.pubSummaryIfAccount
  if s.powerDue a then t.raiseBoth srcPower else t

/-- A report of the fan reservation (R34): the figure is replaced; a report equal to it changes nothing. -/
def State.reportReservation (f : Nat) (s : State) : State :=
  if s.account.fanRes = f then s else ({ s with account := { s.account with fanRes := f } }).accountUpdate

/-- Supply record i with its inputs taken, or as a slot not fitted (R31). -/
def State.sampledSupply (s : State) (i : Fin 4) : Supply :=
  let old := s.account.supplies[i]
  let l := s.supplyLines[i]
  if s.settings.supplies[i].fitted then
    { old with present := l.present, good := l.good, state := supplyStateOf l.present l.good }
  else { old with present := false, good := false, state := .absent }

/-- Sets supply record i from its inputs and settings. -/
def State.sampleSupply (i : Fin 4) (s : State) : State :=
  { s with account := { s.account with supplies := s.account.supplies.set i (s.sampledSupply i) } }

/-- Supply record i takes its inputs (R31, R32): it is republished, and a change of state recomputes the budget and raises POWER. -/
def State.takeSupply (i : Fin 4) (s : State) : State :=
  let t := (s.sampleSupply i).pubSupply i
  if s.account.supplies[i].state = (s.sampledSupply i).state then t
  else t.accountUpdate.raiseBoth srcPower

end Sys2Proof.Machine
end

