-- ==== Sys2Proof/Machine/Bays.lean ====
section
/-! DEFINITION. The Bay Supervisor's shared work (chapter 1): a change of state with its capture and switches, the admission queue's
joins and leaves, operation records, policy moves and the WAIT_5V walk, stops and latch stops. -/

namespace Sys2Proof.Machine

/-! ### A change of state -/

/-- The flags after a change from `old` to `st` for cause `why` (Table 1-2). -/
def flagsEntering (old st : BayState) (why : Reason) (f : BayFlags) : BayFlags :=
  match st with
  | .empty => .clear
  | .logic =>
    { wait5v := false, latchOpen := f.latchOpen, removalReady := false, drawHigh := false
      shedThermal := decide (why = .shedThermal) || (decide (why = .shedPower) && f.shedThermal)
      shedPower := decide (why = .shedPower) || (decide (why = .shedThermal) && f.shedPower) }
  | _ =>
    { f with removalReady := f.removalReady && decide (old ≠ .off), drawHigh := f.drawHigh && decide (old ≠ .ready) }

/-- c12 and c5 on entering a state, from the present profile (R11). -/
def capture (st : BayState) (p : Profile) (r : BayRecord) : Nat × Nat :=
  match st with
  | .empty | .settling | .off | .faulted => (0, 0)
  | .logic => (0, p.i5)
  | .queued => (r.c12, r.c5)
  | .spinningUp => (p.peak12, r.c5)
  | .ready => (p.steady12, r.c5)
  | .spinningDown => (r.c12, r.c5)

/-- The bay after it enters a state at `now` (R5, R6, R11): reason, time, captures, flags, and the timers that run in that state. -/
def Bay.entering (st : BayState) (why : Reason) (now : Time) (timing : Timing) (p : Profile) (b : Bay) : Bay :=
  let c := capture st p b.record
  { b with
    record := { b.record with
      state := st, reason := why, entered := now, c12 := c.1, c5 := c.2, average := 0,
      flags := flagsEntering b.record.state st why b.record.flags }
    settleAt := if st = .settling then some (Time.plus now timing.settle) else none
    absenceAt := if st.fromOff then b.absenceAt else none
    backoffAt := none
    spinAt := if st = .spinningUp then some (Time.plus now p.spin) else none
    parkAt := if st = .spinningDown then some (Time.plus now p.park) else none
    samples := []
    reconciling := false }

/-- The lines after the switch enables follow a state (Table 1-3); a switch clears its trip indication when released (R17). -/
def BayLines.follow (st : BayState) (l : BayLines) : BayLines :=
  { l with sw5 := st.powered, sw12 := st.spinning, trip := l.trip && st.powered }

/-- What the Thermal Zone Unit notes of a state change: a new spin start on entry to SPINNING_UP (R89). -/
def BayFeed.follow (st : BayState) (now : Time) (f : BayFeed) : BayFeed :=
  if st = .spinningUp then { f with spinStart := some now, graceOut := false } else f

/-- Reports of a state change: leaving SPINNING_UP is an admission opportunity (R59); entering a candidate state starts a shed run
again where R47 says so. -/
def State.changeReports (s : State) (old st : BayState) : Reports :=
  { s.reports with
    pass := s.reports.pass || (decide (old = .spinningUp) && decide (st ≠ .spinningUp))
    run := s.reports.run || (st.powered && s.rerunReady) }

/-- Bay n enters a state (R4, R5, R11): its record, switches, spin start, activity stretch (R138) and the reports of the change. -/
def State.enter (n : BayNo) (st : BayState) (why : Reason) (s : State) : State :=
  let b := s.bay n
  let l := s.light n
  { s with
    bays := s.bays.set n (b.entering st why s.time s.settings.timing (s.profileOf n))
    lines := s.lines.set n ((s.line n).follow st)
    feeds := s.feeds.set n ((s.feed n).follow st s.time)
    lights := { s.lights with bays := s.lights.bays.set n { l with stretch := none } }
    reports := s.changeReports b.record.state st }

/-- The handling of a changed bay to its end (R5): the bay record, its lights, the account, then the attention event. -/
def State.bayChanged (n : BayNo) (e : Option (Fin 8)) (s : State) : State :=
  (((s.pubBay n).deriveLights n).accountUpdate).raiseOpt e

/-- Bay n with its operation record set. -/
def State.setOp (n : BayNo) (o : Option Operation) (s : State) : State :=
  s.putBay n { s.bay n with record := { (s.bay n).record with op := o } }

/-- Bay n with its flags changed. -/
def State.setFlags (n : BayNo) (f : BayFlags → BayFlags) (s : State) : State :=
  s.putBay n { s.bay n with record := { (s.bay n).record with flags := f (s.bay n).record.flags } }

/-- Bay n with its retry count set. -/
def State.setRetries (n : BayNo) (r : Nat) (s : State) : State :=
  s.putBay n { s.bay n with record := { (s.bay n).record with retries := r } }

/-- An operation of internal origin begun now (R12). -/
def State.internalOp (s : State) (k : OpKind) : Operation :=
  { kind := k, origin := .internal, slip := none, start := s.time, deadline := none, cancelMarked := false }

/-- An operation begun now by a slip (R12). -/
def State.slipOp (s : State) (h : SlipHead) (k : OpKind) (deadline : Option Time) : Operation :=
  { kind := k, origin := .slip h.port, slip := some h.addr, start := s.time, deadline := deadline, cancelMarked := false }

/-! ### The admission queue (R55 to R58) -/

/-- A queue with an entry added at the tail of its class (R56). -/
def enqueue (e : QueueEntry) (q : List QueueEntry) : List QueueEntry :=
  q.takeWhile (fun x => decide (x.cls ≤ e.cls)) ++ e :: q.dropWhile (fun x => decide (x.cls ≤ e.cls))

/-- The bay at the head. -/
def headBay (q : List QueueEntry) : Option BayNo := q.head?.map (·.bay)

/-- A bay joins the queue (R55); a new head is an admission opportunity (R64). The snapshot is republished. -/
def State.join (e : QueueEntry) (s : State) : State :=
  let q := enqueue e s.scheduler.queue
  ({ s with
    scheduler := { s.scheduler with queue := q }
    reports := { s.reports with pass := s.reports.pass || decide (headBay q ≠ headBay s.scheduler.queue) } }).pubQueue

/-- A bay's entry leaves the queue, if it holds one (R57); the head's leaving is an admission opportunity. -/
def State.leave (n : BayNo) (s : State) : State :=
  if s.scheduler.queue.any (fun x => x.bay == n) then
    ({ s with
      scheduler := { s.scheduler with queue := s.scheduler.queue.filter fun x => x.bay != n }
      reports := { s.reports with pass := s.reports.pass || decide (headBay s.scheduler.queue = some n) } }).pubQueue
  else s

/-- A QUEUED bay's entry moves to the tail of a new class, with its deadline and origin slip kept (R58). The summary record, which gives
the queue's length, moves only with that length (R167). -/
def State.reclass (n : BayNo) (cls : Fin 4) (s : State) : State :=
  match s.scheduler.queue.find? (fun x => x.bay == n) with
  | none => s
  | some e =>
    let q := enqueue { e with cls := cls, enqueued := s.time } (s.scheduler.queue.filter fun x => x.bay != n)
    ({ s with
      scheduler := { s.scheduler with queue := q }
      reports := { s.reports with
        pass := s.reports.pass || decide (headBay s.scheduler.queue = some n) || decide (headBay q = some n) } }).pubQueue.pubSummaryIfAccount

/-- The entry a bay joins with now (Table 3-2). -/
def State.entryOf (s : State) (n : BayNo) (slip : Option Half) (deadline : Option Time) : QueueEntry :=
  { bay := n, cls := (s.baySet n).cls, enqueued := s.time, slip := slip, deadline := deadline }

/-! ### Admission (R61 to R63) -/

/-- Admits the bay at the head (R62): its entry leaves, it enters SPINNING_UP, its deadline becomes absent, the last-admission time is
stamped and the stagger expiry armed; the bay record, the queue snapshot, the summary record, then BAY_CHANGE. -/
def State.admitHead (n : BayNo) (s : State) : State :=
  let s1 := { s with scheduler := { s.scheduler with
      queue := s.scheduler.queue.tail
      lastAdmission := some s.time
      staggerAt := some (Time.plus s.time s.settings.schedule.stagger)
      hold := .none } }
  let s2 := s1.enter n .spinningUp .admitted
  let s3 := s2.setOp n ((s2.bay n).record.op.map fun o => { o with deadline := none })
  (s3.pubQueue).bayChanged n (some srcBayChange)

/-- Publishes the hold reason of the last test of a pass (R63, R78). -/
def State.setHold (h : HoldReason) (s : State) : State :=
  if s.scheduler.hold = h then s else ({ s with scheduler := { s.scheduler with hold := h } }).pubQueue

/-- An admission pass with room for `fuel` admissions (R63). -/
def State.passLoop : Nat → State → State
  | 0, s => s
  | fuel + 1, s =>
    match headBay s.scheduler.queue with
    | none => s.setHold .none
    | some n =>
      match s.admissionTest n with
      | .none => State.passLoop fuel (s.admitHead n)
      | h => s.setHold h

/-- Runs the admission pass that is due, if one is (R63); opportunities that arrive during it are taken into it. -/
def State.runPass (s : State) : State :=
  if s.reports.pass then
    let t := State.passLoop (s.scheduler.queue.length + 1) s
    { t with reports := { t.reports with pass := false } }
  else s

/-! ### Policy (R9, R10) -/

/-- Bay n, in OFF, moves by its policy if the 5 V fit passes, and otherwise waits with WAIT_5V (R9). -/
def State.policyMove (n : BayNo) (s : State) : State :=
  if s.fits5 n then
    match (s.baySet n).policy with
    | .manual => s
    | .logicOnly => (s.enter n .logic .policy).bayChanged n (some srcBayChange)
    | .autoSpin =>
      let t := ((s.enter n .logic .policy).enter n .queued .policy).setOp n (some (s.internalOp .spinUp))
      (t.join (t.entryOf n none none)).bayChanged n (some srcBayChange)
  else if (s.bay n).record.flags.wait5v then s
  else (s.setFlags n fun f => { f with wait5v := true }).bayChanged n (some srcBayChange)

/-- An open latch with action STOP holds a policy move back (R9, R10). -/
def State.latchHolds (s : State) (n : BayNo) : Bool := (s.bay n).record.flags.latchOpen && (s.baySet n).latchStop

/-- Applies bay n's policy when it comes to rest in OFF (R9). -/
def State.applyPolicy (n : BayNo) (s : State) : State :=
  if s.latchHolds n then s
  else match (s.baySet n).policy with
    | .manual => s
    | _ => s.policyMove n

/-- One bay of the WAIT_5V walk (R10): a bay in OFF with WAIT_5V retries its policy move. The admission pass that its join asks for runs
before the walk goes on (DESIGN CHOICE, log entry 34: R10, R63 and R64 do not say when it runs). -/
def State.walkBay (s : State) (n : BayNo) : State :=
  if (s.bay n).record.state = .off ∧ (s.bay n).record.flags.wait5v = true ∧ s.latchHolds n = false then
    (s.policyMove n).runPass
  else s

/-- The WAIT_5V walk, in ascending bay number (R10). -/
def State.wait5vWalk (s : State) : State :=
  bayNumbers.foldl State.walkBay { s with reports := { s.reports with walk := false } }

/-! ### Stops (R14, R15, R21, R25, R26) -/

/-- The operation may be superseded: a SPIN_UP or a SPIN_DOWN (R14). -/
def supersedable (op : Option Operation) : Bool :=
  match op with
  | some o => o.kind == .spinUp || o.kind == .spinDown
  | none => false

/-- What supersede does first (R14): the superseded slip ends SUPERSEDED at once, the queue entry is removed. -/
def State.supersede (n : BayNo) (s : State) : State :=
  if supersedable (s.bay n).record.op then
    (((s.endOpSlip (s.bay n).record.op .superseded (bayResult s n)).leave n).setOp n none)
  else s

/-- A stop takes the bay to OFF at once (R14, R21, R25), out of the queue if it waited there, with REMOVAL_READY for a removal. -/
def State.stopToOff (n : BayNo) (why : Reason) (ready : Bool) (s : State) : State :=
  ((((s.leave n).enter n .off why).setOp n none).setFlags n fun f => { f with removalReady := ready }).bayChanged n (some srcBayChange)

/-- A stop takes the bay into its park window (R15), under a new operation. -/
def State.stopToPark (n : BayNo) (why : Reason) (o : Operation) (s : State) : State :=
  ((s.enter n .spinningDown why).setOp n (some o)).bayChanged n (some srcBayChange)

/-- A latch stop on a powered bay (R21). LATCH_OPEN has just been set and is published with it. -/
def State.latchStop (n : BayNo) (s : State) : State :=
  match (s.bay n).record.op with
  | some { kind := .powerOff, .. } | some { kind := .prepareRemoval, .. } | some { kind := .latchStop, .. } =>
    s.bayChanged n (some srcBayChange)
  | _ =>
    let t := s.supersede n
    match (s.bay n).record.state with
    | .logic | .queued => t.stopToOff n .latch true
    | .ready | .spinningUp => t.stopToPark n .latch (s.internalOp .latchStop)
    | _ => (t.setOp n (some (s.internalOp .latchStop))).bayChanged n (some srcBayChange)

end Sys2Proof.Machine
end

