-- ==== Sys2Proof/Machine/Shed.lean ====
section
/-! DEFINITION. Shedding (R22, R23, R44 to R48), and `settle`: acting on every report one handling has made until none is left. -/

namespace Sys2Proof.Machine

/-- The kinds of shed request (Table 2-5). -/
inductive ShedKind where
  | power12
  | power5
  | thermal12
  deriving DecidableEq, Repr

/-- The reason a shed gives (Table 1-4). -/
def ShedKind.reason : ShedKind → Reason
  | .thermal12 => .shedThermal
  | _ => .shedPower

/-- The operation is one that a shed completes and does not end: a POWER_OFF, PREPARE_REMOVAL or LATCH_STOP (R22, R23). -/
def stopInFlight (op : Option Operation) : Bool :=
  match op with
  | some o => o.kind == .powerOff || o.kind == .prepareRemoval || o.kind == .latchStop
  | none => false

/-- The operation sets REMOVAL_READY when it arrives in OFF (R16, R22, R23). -/
def readiesRemoval (op : Option Operation) : Bool :=
  match op with
  | some o => o.kind == .prepareRemoval || o.kind == .latchStop
  | none => false

/-- The shed flags with the kind's own flag set (Table 1-2). -/
def ShedKind.flag (k : ShedKind) (f : BayFlags) : BayFlags :=
  match k with
  | .thermal12 => { f with shedThermal := true }
  | _ => { f with shedPower := true }

/-- A 12 V shed on bay n (R22): the bay enters LOGIC, and a stop in flight continues to OFF in the same handling. Declined in any other
state. -/
def State.shed12 (k : ShedKind) (n : BayNo) (s : State) : State :=
  if (s.bay n).record.state.spinning then
    let op := (s.bay n).record.op
    let t := (s.enter n .logic k.reason).setOp n none
    if stopInFlight op then
      let u := ((t.enter n .off k.reason).setFlags n fun f => { k.flag f with removalReady := readiesRemoval op }).bayChanged n
        (some srcBayChange)
      u.endOpSlip op .ok (bayResult u n)
    else
      let u := t.bayChanged n (some srcBayChange)
      u.endOpSlip op .shed (bayResult u n)
  else s

/-- A 5 V shed on bay n (R23): the bay goes to OFF with SHED_POWER. Declined in any state that is not powered. -/
def State.shed5 (n : BayNo) (s : State) : State :=
  if (s.bay n).record.state.powered then
    let op := (s.bay n).record.op
    let t := ((s.leave n).enter n .off .shedPower).setOp n none
    let u := (t.setFlags n fun f => { f with shedPower := true, removalReady := readiesRemoval op }).bayChanged n (some srcBayChange)
    u.endOpSlip op (if stopInFlight op then .ok else .shed) (bayResult u n)
  else s

/-- Hands one shed request to the Bay Supervisor. -/
def State.shedBay (k : ShedKind) (n : BayNo) (s : State) : State :=
  match k with
  | .power5 => s.shed5 n
  | k => s.shed12 k n

/-- The second key of the shed order (R45): SPINNING_UP, READY, SPINNING_DOWN, QUEUED, LOGIC. -/
def shedStateRank : BayState → Nat
  | .spinningUp => 4
  | .ready => 3
  | .spinningDown => 2
  | .queued => 1
  | _ => 0

/-- The shed order as one number (R45): class 3 first, then the state's rank, then the highest bay number; greatest first. -/
def State.shedKey (s : State) (n : BayNo) : Nat :=
  ((s.baySet n).cls.val * 8 + shedStateRank (s.bay n).record.state) * 64 + n.val

/-- The first bay of a list in the shed order. -/
def State.firstShed (s : State) (l : List BayNo) : Option BayNo :=
  l.foldl (fun best n =>
    match best with
    | none => some n
    | some m => if s.shedKey m < s.shedKey n then some n else some m) none

/-- The candidates of a shed step (R44). -/
def State.shedCandidates (s : State) (k : ShedKind) : List BayNo :=
  bayNumbers.filter fun n => (s.baySet n).shedEligible &&
    (match k with
     | .power5 => (s.bay n).record.state.powered
     | _ => (s.bay n).record.state.spinning)

/-- The kind of the next power shed (R44). -/
def State.shedKind (s : State) : ShedKind :=
  if s.account.usable5 < s.account.committed5 then .power5 else .power12

/-- The shed run has ended. -/
def State.endRun (s : State) : State := { s with reports := { s.reports with run := false } }

/-- A run that finds no candidate ends with UNRESOLVED set (R46); POWER when that changes it. -/
def State.unresolvable (s : State) : State :=
  if s.account.unresolved then s.endRun
  else
    let t := { s.endRun with account := { s.account with unresolved := true } }
    t.pubSummaryIfAccount.raiseBoth srcPower

/-- One step of a shed run (R44, R49). -/
def State.shedStep (s : State) : State :=
  if s.account.overCommitted = false ∨ s.settings.account.shed = false then s.endRun
  else match s.firstShed (s.shedCandidates s.shedKind) with
    | none => s.unresolvable
    | some n => s.shedBay s.shedKind n

/-- The bays of a zone that a thermal shed takes (R48), in the order of R45. -/
def State.thermalList (s : State) (z : Fin 4) : List BayNo :=
  (bayNumbers.filter fun n => decide ((s.baySet n).zone = z) && (s.baySet n).shedEligible &&
    ((s.bay n).record.state == .spinningUp || (s.bay n).record.state == .ready)).insertionSort
      fun m n => s.shedKey n ≤ s.shedKey m

/-- The next bay of a thermal list is handed to the Bay Supervisor, which declines it once it has left SPINNING_UP and READY (R48). -/
def State.thermalShed (n : BayNo) (s : State) : State :=
  if (s.bay n).record.state = .spinningUp ∨ (s.bay n).record.state = .ready then s.shed12 .thermal12 n else s

/-- One report acted on; none when there is none. The unfinished thermal list comes before the shed run (R46). Admission passes come
before WAIT_5V walks, and both before sheds (DESIGN CHOICE, log entry 33: R37's table does not order its rows). -/
def State.settleStep (s : State) : Option State :=
  if s.reports.pass then some s.runPass
  else if s.reports.walk then some s.wait5vWalk
  else match s.reports.thermal with
    | n :: rest => some (({ s with reports := { s.reports with thermal := rest } }).thermalShed n)
    | [] => if s.reports.run then some s.shedStep else none

/-- Reports acted on, at most `fuel` of them. -/
def State.settleLoop : Nat → State → State
  | 0, s => s
  | fuel + 1, s =>
    match s.settleStep with
    | none => s
    | some t => State.settleLoop fuel t

/-- More reports than one handling can make: each bay moves a few times at most, and each move makes a few reports. -/
def settleFuel : Nat := 4000

/-- Acts on every report the handling has made (R37, R46, R63). -/
def State.settle (s : State) : State := State.settleLoop settleFuel s

/-- A handling taken to its end: every report acted on, then every event handed to the Attention Units (R166). -/
def State.close (s : State) : State := s.settle.deliver

end Sys2Proof.Machine
end

