-- ==== Sys2Proof/Machine/Thermal.lean ====
section
/-! DEFINITION. Temperatures and cooling zones (chapter 4): the drive temperature feed, the board sensors, the zone evaluation. -/

namespace Sys2Proof.Machine

/-! ### The feed (R85 to R88) -/

/-- A feed byte captured at `now` (Table 4-2). -/
def captureFeed (v : Byte) (now : Time) : FeedEntry :=
  if v = 0xFF then .void else { value := min v.toNat 150, stamp := some now, stale := false }

/-- One feed byte of port p for bay n (R85, R86): not taken beyond the strapped count, in EMPTY or in SETTLING. -/
def State.feedByte (p : Port) (n : BayNo) (v : Byte) (s : State) : State :=
  if s.inCount n ∧ (s.bay n).record.state.fromOff then
    let f := s.feed n
    s.putFeed n { f with
      entries := f.entries.put p (captureFeed v s.time)
      latest := if v = 0xFF then f.latest else some p }
  else s

/-- The feed bytes among the stored addresses of a WRITE into port p's window, taken from the RAM as the WRITE left it (R85, R150). -/
def State.feedWrites (p : Port) (stored : List Nat) (s : State) : State :=
  match s.windows.get p with
  | none => s
  | some w =>
    bayNumbers.foldl (fun t n =>
      if stored.contains (w.base + 0x40 + n.val) then t.feedByte p n (Memory.read t.ram (w.base + 0x40 + n.val)) else t) s

/-- Both ports' stamps of bay n are voided, its latest port becomes none (R88). -/
def State.voidBayFeed (n : BayNo) (s : State) : State :=
  s.putFeed n { s.feed n with entries := ⟨.void, .void⟩, latest := none }

/-- Port p's stamps of every bay are voided (R88). -/
def State.voidPortFeed (p : Port) (s : State) : State :=
  { s with feeds := s.feeds.map fun f => { f with entries := f.entries.put p .void } }

/-- An entry marked at an evaluation: stale once its age exceeds the stale time (R87). -/
def FeedEntry.marked (now : Time) (staleMs : Nat) (e : FeedEntry) : FeedEntry :=
  match e.stamp with
  | none => e
  | some t => { e with stale := e.stale || decide (staleMs < Time.age now t) }

/-- A bay's feed marked at an evaluation: stale entries, and a grace that has run out (R87, R89). -/
def BayFeed.marked (now : Time) (staleMs : Nat) (f : BayFeed) : BayFeed :=
  { f with
    entries := ⟨f.entries.a.marked now staleMs, f.entries.b.marked now staleMs⟩
    graceOut := f.graceOut || (match f.spinStart with
      | none => false
      | some t => decide (staleMs < Time.age now t)) }

/-- The entry a bay's drive reading is taken from (R87): of the stamped entries, the latest port's when both are. -/
def BayFeed.chosen (f : BayFeed) : Option FeedEntry :=
  match f.entries.a.stamp.isSome, f.entries.b.stamp.isSome with
  | true, true => some (match f.latest with
      | some .a => f.entries.a
      | _ => f.entries.b)
  | true, false => some f.entries.a
  | false, true => some f.entries.b
  | false, false => none

/-! ### Sources (R89, R90) -/

/-- The class of a source at an evaluation (R89). -/
inductive SourceClass where
  | valid (v : Int)
  | pending
  | missing
  deriving DecidableEq, Repr

/-- A sensor's reading: its raw value plus its offset, clamped to −40 to 125 °C (R84). -/
def sensorReading (raw offset : Int) : Int := max (-40) (min 125 (raw + offset))

/-- The class of an assigned sensor (R84, R89); none for an UNUSED one. -/
def sensorClass (u : Sensor) (c : SensorSettings) : Option SourceClass :=
  match u.state, u.raw with
  | .ok, some raw => some (.valid (sensorReading raw c.offset))
  | .ok, none => some .pending
  | .noData, _ => some .pending
  | .failed, _ => some .missing
  | .unused, _ => none

/-- The class of a bay's drive reading, its feed already marked (R89). -/
def driveClass (f : BayFeed) : SourceClass :=
  match f.chosen with
  | some e => if e.stale then (if f.graceOut then .missing else .pending) else .valid e.value
  | none => if f.graceOut then .missing else .pending

/-- The sources of zone z with their classes: its sensors, then its spinning bays within the count, each in ascending number. -/
def State.sources (s : State) (z : Fin 4) : List (Source × SourceClass) :=
  ((List.finRange 8).filterMap fun i =>
      if s.settings.sensors[i].zone = some z then (sensorClass s.sensors[i] s.settings.sensors[i]).map fun c => (.sensor i, c)
      else none) ++
    (bayNumbers.filterMap fun n =>
      if s.inCount n = true ∧ (s.baySet n).zone = z ∧ (s.bay n).record.state.spinning = true then
        some (.bay n, driveClass (s.feed n))
      else none)

/-- The hottest valid reading and its source; the first named among equals (R91, R100). -/
def hottestOf (l : List (Source × SourceClass)) : Option (Source × Int) :=
  l.foldl (fun best x =>
    match x.2 with
    | .valid v =>
      match best with
      | none => some (x.1, v)
      | some b => if b.2 < v then some (x.1, v) else some b
    | _ => best) none

/-- How many sources are valid, pending, missing. -/
def countClass (l : List (Source × SourceClass)) : Nat × Nat × Nat :=
  (l.countP fun x => match x.2 with | .valid _ => true | _ => false,
   l.countP fun x => x.2 == .pending,
   l.countP fun x => x.2 == .missing)

/-- A zone's condition from its counts (R90). -/
def conditionOf (valid missing : Nat) : ZoneCondition :=
  if 1 ≤ valid then (if missing = 0 then .complete else .partly) else if missing = 0 then .noSources else .blind

/-- The effective temperature after an evaluation with hottest reading t (R92). -/
def effective (e : Int) (h : Nat) : Option Int → Int
  | none => e
  | some t => if e < t then t else if t < e - h then t + h else e

/-- A zone's state from its effective temperature (R93). -/
def zoneStateOf (e : Int) (l : ZoneLimits) : ZoneState :=
  if l.critical ≤ e then .critical else if l.ceiling ≤ e then .hold else .normal

/-- A zone's vacancy (R94). -/
def State.vacancy (s : State) (z : Fin 4) : Nat :=
  bayNumbers.countP fun n => s.inCount n && decide ((s.baySet n).zone = z) && !(s.bay n).record.state.fromOff

/-- The critical timer after an evaluation that takes the zone from `old` to `st` (R95). -/
def criticalTimerOf (now : Time) (shedTime : Nat) (old st : ZoneState) (t : CriticalTimer) : CriticalTimer :=
  if st = .critical then
    if old = .critical then
      match t with
      | .running e => if shedTime = 0 then .stopped else .running e
      | t => t
    else if shedTime = 0 then .stopped else .running (Time.plus now (shedTime * 1000))
  else .stopped

/-- Zone z after an evaluation, the feeds already marked (R91). -/
def State.evaluatedZone (s : State) (z : Fin 4) : Zone :=
  let old := s.zones[z]
  let lim := s.settings.zones[z].limits
  let src := s.sources z
  let n := countClass src
  let hot := hottestOf src
  let e := effective old.e lim.h (hot.map (·.2))
  let st := zoneStateOf e lim
  { old with
    e := e, t := hot.map (·.2), hottest := hot.map (·.1), state := st, condition := conditionOf n.1 n.2.2,
    valid := n.1, pending := n.2.1, missing := n.2.2, vacancy := s.vacancy z,
    timer := criticalTimerOf s.time lim.shedTime old.state st old.timer }

/-- The zone evaluation (R91): all four zones, the records that changed, THERMAL once, the admission opportunity. -/
def State.evaluateZones (s : State) : State :=
  let marked := { s with feeds := s.feeds.map fun (f : BayFeed) => f.marked s.time (s.settings.staleTime * 1000) }
  let zs := Vector.ofFn fun z => marked.evaluatedZone z
  let changed := (List.finRange 4).any fun z => s.zones[z].state != zs[z].state
  let left := (List.finRange 4).any fun z => s.zones[z].state != .normal && s.zones[z].state != zs[z].state
  let t := { marked with zones := zs, reports := { s.reports with pass := s.reports.pass || left } }
  let u := ((((t.pubZone 0).pubZone 1).pubZone 2).pubZone 3).evalEnclosure
  if changed then u.raiseBoth srcThermal else u

/-! ### Board sensors (R82, R83) -/

/-- A sensor after a good read (R83). -/
def Sensor.good (raw : Int) (now : Time) (u : Sensor) : Sensor :=
  { u with state := .ok, raw := some raw, fails := 0, goodAt := some now }

/-- A sensor after a failed read (R83). -/
def Sensor.bad (u : Sensor) : Sensor :=
  let k := min 3 (u.fails + 1)
  { u with fails := k, state := if u.state = .failed ∨ k = 3 then .failed else u.state }

/-- The state with sensor i's record replaced, republished if need be; THERMAL on entry to and exit from FAILED (R83). -/
def State.putSensor (i : Fin 8) (u : Sensor) (s : State) : State :=
  let t := ({ s with sensors := s.sensors.set i u }).pubSensor i
  if (s.sensors[i].state == .failed) != (u.state == .failed) then t.raiseBoth srcThermal else t

/-- The assigned sensors in ascending number (R83). -/
def State.assignedSensors (s : State) : List (Fin 8) :=
  (List.finRange 8).filter fun i => s.settings.sensors[i].zone.isSome

end Sys2Proof.Machine
end

