-- ==== Sys2Proof/Machine/Fans.lean ====
section
/-! DEFINITION. The Fan Controller (chapter 5): the cooling computation stage by stage, the reservation, the tachometer check, the
fan check, the port floors. -/

namespace Sys2Proof.Machine

/-! ### Demand (R105 to R107) -/

/-- The value between two points of a curve (R105). -/
def segment (p q : CurvePoint) (e : Int) : Nat :=
  p.d + (((e - p.t) * ((q.d : Int) - p.d)) / (q.t - p.t)).toNat

/-- A curve's value at an effective temperature (R105). -/
def Curve.value (c : Curve) (e : Int) : Nat :=
  if e ≤ c.p1.t then c.p1.d
  else if c.p4.t ≤ e then c.p4.d
  else if e < c.p2.t then segment c.p1 c.p2 e
  else if e < c.p3.t then segment c.p2 c.p3 e
  else segment c.p3 c.p4 e

/-- A zone's demand (R106), clamped to 0 to 1000. -/
def zoneDemand (set : ZoneSettings) (z : Zone) : Nat :=
  let base := set.curve.value z.e + z.vacancy * set.limits.v
  let d := match z.condition with
    | .complete => base
    | .partly => max base set.limits.staleFloor
    | .blind => set.limits.staleFloor
    | .noSources => set.curve.p1.d + z.vacancy * set.limits.v
  min d 1000

/-- The duty of a port's floor, 0 when it has none. -/
def floorDuty : Option Floor → Nat
  | none => 0
  | some f => f.duty

/-- The four zone demands (R106). -/
def State.zoneDemands (s : State) : Vector Nat 4 := Vector.ofFn fun z => zoneDemand s.settings.zones[z] s.zones[z]

/-- The raw demand (R107): the greatest zone demand and live floor, raised to Dmin. -/
def State.rawDemand (s : State) : Nat :=
  max s.settings.fans.dmin
    (max (s.zoneDemands.toList.foldl max 0) (max (floorDuty s.fans.floors.a) (floorDuty s.fans.floors.b)))

/-! ### Compensation and duty (R109 to R111) -/

/-- Fan position i is configured. -/
def State.configured (s : State) (i : Fin 6) : Bool := decide (i.val < s.settings.fans.count)

/-- k: the number of configured fans in ABSENT or FAILED (R109). -/
def State.fansMissing (s : State) : Nat :=
  (List.finRange 6).countP fun i => s.configured i &&
    (s.fans.fans[i].record.state == .absent || s.fans.fans[i].record.state == .failed)

/-- The compensated demand with n fans turning of a configured count (R109). -/
def compensated (draw count turning : Nat) : Nat :=
  if turning = 0 then 1000 else min 1000 ((draw * count + (turning - 1)) / turning)

/-- The new duty at a period (R110, R111). -/
def nextDuty (f : FanSettings) (emergency : Bool) (dcomp c : Nat) : Nat :=
  if emergency then 1000
  else max f.dmin (min 1000 (if c < dcomp then min dcomp (c + f.slewUp) else max dcomp (c - f.slewDown)))

/-- The period is an emergency (R110): a zone CRITICAL, COOLING_LOST, or a fan check running. -/
def State.emergency (s : State) (coolingLost : Bool) : Bool :=
  (s.zones.toList.any fun z => z.state == .critical) || coolingLost || s.fans.check.isSome

/-! ### Reservation (R112, R113) -/

/-- What one fan is counted at, at duty dr (R112). -/
def fanCurrent (f : FanSettings) (dr : Nat) : FanState → Nat
  | .unused => 0
  | .absent => 0
  | .failed => f.maxCur
  | .starting | .ok => f.idle + ((f.maxCur - f.idle) * dr + 999) / 1000

/-- The fan reservation (R112). -/
def State.fanReservation (s : State) : Nat :=
  (s.fans.fans.toList.map fun x => fanCurrent s.settings.fans (max s.fans.c s.settings.fans.reserve) x.record.state).sum

/-- The controller computes the reservation and reports it to the Load Account (R113), which handles it to its end. -/
def State.reportFans (s : State) : State := (s.reportReservation s.fanReservation).settle

/-! ### Fans -/

/-- The state with fan i replaced. -/
def State.putFan (i : Fin 6) (f : Fan) (s : State) : State :=
  { s with fans := { s.fans with fans := s.fans.fans.set i f } }

/-- A fan entering ABSENT (R115, R116). -/
def Fan.toAbsent (now : Time) (f : Fan) : Fan :=
  { f with
    latest := 0
    record := { f.record with state := .absent, tach := 0, low := 0, high := 0, weak := false, lastCheck := 0, entered := now,
                              startingAt := none } }

/-- A fan entering STARTING with a full 5 s (R115). -/
def Fan.toStarting (now : Time) (f : Fan) : Fan :=
  { f with record := { f.record with state := .starting, low := 0, high := 0, entered := now,
                                     startingAt := some (Time.plus now Config.startingMs) } }

/-- A fan entering OK or FAILED with both counts 0 (R115, R117). -/
def Fan.settled (st : FanState) (now : Time) (f : Fan) : Fan :=
  { f with record := { f.record with state := st, low := 0, high := 0, entered := now, startingAt := none } }

/-- A position made UNUSED (R114). Its last check rpm and its latest tach report go to 0 as on entry to ABSENT (DESIGN CHOICE, log
entry 37: R114 names the tach rpm, the counts and WEAK). -/
def Fan.toUnused (now : Time) (f : Fan) : Fan :=
  { f with
    latest := 0
    record := { f.record with state := .unused, tach := 0, low := 0, high := 0, weak := false, lastCheck := 0, entered := now,
                              startingAt := none } }

/-- The tachometer check of one fan against the limit (R117): its record's tach rpm is set to the latest report. -/
def Fan.checked (limit : Nat) (now : Time) (f : Fan) : Fan :=
  let f := { f with record := { f.record with tach := if f.record.state = FanState.unused then 0 else f.latest } }
  match f.record.state with
  | .ok =>
    if f.latest < limit then
      if f.record.low + 1 = 3 then f.settled .failed now else { f with record := { f.record with low := f.record.low + 1 } }
    else { f with record := { f.record with low := 0 } }
  | .failed =>
    if f.latest < limit then { f with record := { f.record with high := 0 } }
    else if f.record.high + 1 = 5 then f.settled .ok now
    else { f with record := { f.record with high := f.record.high + 1 } }
  | _ => f

/-- The limit of the tachometer check (R117). -/
def State.tachLimit (s : State) : Nat := s.settings.fans.maxRpm * min s.fans.c s.fans.cprev / 2000

/-- Every fan record republished that has changed (R118). -/
def State.pubFans (s : State) : State :=
  (((((s.pubFan 0).pubFan 1).pubFan 2).pubFan 3).pubFan 4).pubFan 5

/-- A fan's change of state between `old` and `new` that raises FAN: into or out of ABSENT or FAILED (R118). -/
def fanEvent (old new : FanState) : Bool :=
  (old != new) && (old == .absent || old == .failed || new == .absent || new == .failed)

/-- Some fan changed between two fan walls in a way that raises FAN (R118). -/
def fansEvent (old new : Vector Fan 6) : Bool :=
  (List.finRange 6).any fun i => fanEvent old[i].record.state new[i].record.state

/-- A fan handled outside a period: replaced, republished, the enclosure light evaluated, FAN raised where R118 says so. -/
def State.fanChanged (i : Fin 6) (f : Fan) (s : State) : State :=
  let t := ((s.putFan i f).pubFan i).evalEnclosure
  if fanEvent s.fans.fans[i].record.state f.record.state then t.raiseBoth srcFan else t

/-! ### The cooling period (R104) -/

/-- Stages 2 to 4: the zone demands, the raw demand, the compensated demand and COOLING_LOST. -/
def State.coolingDemand (s : State) : State :=
  let turning := s.settings.fans.count - s.fansMissing
  { s with fans := { s.fans with
      demands := s.zoneDemands, draw := s.rawDemand, dcomp := compensated s.rawDemand s.settings.fans.count turning,
      coolingLost := decide (turning = 0) } }

/-- Stage 5: the new C. -/
def State.coolingDuty (s : State) : State :=
  { s with fans := { s.fans with c := nextDuty s.settings.fans (s.emergency s.fans.coolingLost) s.fans.dcomp s.fans.c } }

/-- Stages 7 and 8: the tachometer checks, then Cprev. -/
def State.tachChecks (s : State) : State :=
  { s with fans := { s.fans with
      fans := s.fans.fans.map fun (f : Fan) => f.checked s.tachLimit s.time
      cprev := s.fans.c } }

/-- Stage 9: the fan records that changed, and FAN if the period gave cause (R118). -/
def State.coolingPublish (before : FanControl) (s : State) : State :=
  let t := s.evalEnclosure.pubFans
  if fansEvent before.fans s.fans.fans || (before.coolingLost != s.fans.coolingLost) then t.raiseBoth srcFan else t

/-- One expiry of the cooling period, its stages in the order of R104. It is one handling: the summary record, which carries the account's
figures and the cooling fields, is republished once, at stage 9 (R124, R167). -/
def State.coolingStages (s : State) : State :=
  s.withOneSummary fun h =>
    let evaluated := h.evaluateZones.settle
    let driven := (evaluated.coolingDemand.evalEnclosure).coolingDuty
    (driven.reportFans.tachChecks).coolingPublish s.fans

/-! ### The fan check (R119 to R121) -/

/-- A tach report joins the running check's highest rpm when its gate ends from 5 s to 15 s after the start (R119). -/
def FanCheck.report (now : Time) (i : Fin 6) (rpm : Nat) (k : FanCheck) : FanCheck :=
  if Config.checkSpanFromMs ≤ Time.age now k.start ∧ Time.age now k.start ≤ Config.checkLengthMs then
    { k with peaks := k.peaks.set i (max k.peaks[i] rpm) }
  else k

/-- WEAK and the last check rpm of one position at the end of a check (R120). -/
def Fan.judged (maxRpm peak : Nat) (f : Fan) : Fan :=
  let weak := if f.record.state = .ok ∨ f.record.state = .failed then decide (10 * peak < 7 * maxRpm) else f.record.weak
  { f with record := { f.record with weak := weak, lastCheck := if f.record.state = .unused then f.record.lastCheck else peak } }

/-- A two-byte rpm field: free above 65535 rpm (log entry 21). -/
def rpmField (rpm : Nat) : List Byte :=
  if rpm < 65536 then le16 rpm else [(Config.wideRpm rpm).extractLsb' 0 8, (Config.wideRpm rpm).extractLsb' 8 8]

/-- The result data of a FAN_CHECK (Table 11-7): the highest rpm of each position, 0 for an UNUSED one, and the WEAK flags. -/
def State.checkResult (s : State) (k : FanCheck) : List Byte :=
  ((List.finRange 6).flatMap fun i => rpmField (if s.fans.fans[i].record.state = .unused then 0 else k.peaks[i])) ++
    [BitVec.ofNat 8 (bitsOf (s.fans.fans.toList.map fun f => f.record.weak))]

/-- The slip of a check ends, if the check still has it. -/
def State.endCheckSlip (k : FanCheck) (o : SlipOutcome) (result : Option (List Byte)) (s : State) : State :=
  match k.slip with
  | none => s
  | some addr => s.endOpen k.origin addr o false result

end Sys2Proof.Machine
end

