-- ==== Sys2Proof/Machine/Lights.lean ====
section
/-! DEFINITION. The Light Composer's shared work (chapter 6): writing a port's slot, the bytes of a slot, the chain refresh. -/

namespace Sys2Proof.Machine

/-! ### Channels -/

/-- The channel of one colour of a bay light. -/
def BayLight.channel (l : BayLight) : Colour → Channel
  | .amber => l.amber
  | .blue => l.blue

/-- A bay light with one channel replaced. -/
def BayLight.putChannel (l : BayLight) (c : Colour) (x : Channel) : BayLight :=
  match c with
  | .amber => { l with amber := x }
  | .blue => { l with blue := x }

/-- The channel of one colour of the enclosure light. -/
def EnclosureLight.channel (l : EnclosureLight) : Colour → Channel
  | .amber => l.amber
  | .blue => l.blue

/-- The enclosure light with one channel replaced. -/
def EnclosureLight.putChannel (l : EnclosureLight) (c : Colour) (x : Channel) : EnclosureLight :=
  match c with
  | .amber => { l with amber := x }
  | .blue => { l with blue := x }

/-- A channel with a port's slot replaced. -/
def Channel.putPort (c : Channel) (p : Port) (r : Option Request) : Channel := { c with ports := c.ports.put p r }

/-- The composed channel of a light (Table 6-1). -/
def State.channel (s : State) (place : LightPlace) (c : Colour) : Channel :=
  match place with
  | .bay n => (s.light n).channel c
  | .enclosure => s.lights.enclosure.channel c

/-- The state with a composed channel replaced; the light record is republished if it changed (R131, R142). -/
def State.putChannel (place : LightPlace) (c : Colour) (x : Channel) (s : State) : State :=
  match place with
  | .bay n => (s.putLight n ((s.light n).putChannel c x)).pubLight n
  | .enclosure =>
    ({ s with lights := { s.lights with enclosure := s.lights.enclosure.putChannel c x } }).pubEnclosure

/-- A port's slot of a channel written or emptied (R129, R130, R140). -/
def State.putSlot (p : Port) (place : LightPlace) (c : Colour) (r : Option Request) (s : State) : State :=
  s.putChannel place c ((s.channel place c).putPort p r)

/-- A bay's activity enable written; turning it off stops the stretch (R138, R139). -/
def State.putEnable (n : BayNo) (on : Bool) (s : State) : State :=
  let l := s.light n
  (s.putLight n { l with enable := on, stretch := if on then l.stretch else none }).pubLight n

/-- The port's slots of every composed channel emptied (R145). -/
def State.emptyPortSlots (p : Port) (s : State) : State :=
  let t := bayNumbers.foldl (fun t n =>
    let l := t.light n
    (t.putLight n { l with amber := l.amber.putPort p none, blue := l.blue.putPort p none }).pubLight n) s
  let e := t.lights.enclosure
  ({ t with lights := { t.lights with
      enclosure := { e with amber := e.amber.putPort p none, blue := e.blue.putPort p none } } }).pubEnclosure

/-! ### Bytes (Table 11-12) -/

/-- The first byte of a slot: priority, pattern, expiry present; 0 for an empty slot. -/
def slotByte : Option Request → Byte
  | none => 0
  | some r => BitVec.ofNat 8 (r.priority + 16 * r.pattern.val + (if r.expiry.isSome then 128 else 0))

/-- A slot in five bytes, given the four that stand for an absent expiry. -/
def slotBytes (absent : List Byte) (r : Option Request) : List Byte :=
  slotByte r :: (match r with
    | some { expiry := some t, .. } => le32 t
    | _ => absent)

/-- The winner of a channel as a number, 3 for none. -/
def Channel.winnerCode (c : Channel) : Nat :=
  match c.winner with
  | none => 3
  | some i => i.val

/-- The result data of a SET_LIGHT on AMBER or BLUE: the three slots, the winner and the bay's activity enable (Table 11-7). -/
def Channel.result (c : Channel) (enable : Bool) : List Byte :=
  c.slots.flatMap (slotBytes [0, 0, 0, 0]) ++ [BitVec.ofNat 8 (c.winnerCode + (if enable then 128 else 0))]

/-! ### The chain refresh (R128, R133, R138) -/

/-- The stretch of a bay's activity after a refresh at `now` that read `active` (R138). -/
def BayLight.refreshed (now : Time) (ready active : Bool) (l : BayLight) : BayLight :=
  { l with stretch :=
      if active && ready && l.enable then some now
      else match l.stretch with
        | none => none
        | some t => if Time.age now t < Config.stretchMs then some t else none }

/-- GREEN is lit: the stretch is running and the enable is on (R138). -/
def BayLight.green (l : BayLight) : Bool := l.enable && l.stretch.isSome

/-- The bay lights after a refresh that read `activity`; a bay beyond the count is not read (R2, R138). -/
def State.refreshedLights (s : State) (activity : BitVec 60) : Vector BayLight 60 :=
  Vector.ofFn fun n =>
    if s.inCount n then (s.light n).refreshed s.time ((s.bay n).record.state == .ready) activity[n] else s.light n

/-- One bit for each bay within the count; the rest dark (R2, R128). -/
def State.frame (s : State) (lit : BayNo → Bool) : BitVec 60 :=
  BitVec.ofNat 60 (bitsOf (bayNumbers.map fun n => s.inCount n && lit n))

/-- The whole frame a refresh shifts out, from the lights as they stand (R128, R133). -/
def State.chainFrame (s : State) : Chain :=
  { amber := s.frame fun n => (s.light n).amber.lit s.settings.patterns s.time
    blue := s.frame fun n => (s.light n).blue.lit s.settings.patterns s.time
    green := s.frame fun n => (s.light n).green
    encAmber := s.lights.enclosure.amber.lit s.settings.patterns s.time
    encBlue := s.lights.enclosure.blue.lit s.settings.patterns s.time }

/-- A chain refresh: the activity is read, the frame computed, shifted and latched, the next refresh set. -/
def State.refresh (activity : BitVec 60) (s : State) : State :=
  let t := { s with lights := { s.lights with bays := s.refreshedLights activity } }
  { t with
    lights := { t.lights with chain := t.chainFrame }
    refreshAt := some (Time.plus t.time Config.refreshMs) }

end Sys2Proof.Machine
end

