-- ==== Sys2Proof/Machine/Settings.lean ====
section
/-! DEFINITION. The settings image (sections 9.2 and 11.5): its bytes from the live copy, its checks, its values section by section,
and the order in which a store writes it. -/

namespace Sys2Proof.Machine

/-! ### The image of a live copy (Table 11-16) -/

/-- The signature of an image. -/
def imageSignature : List Byte := [0x5A, 0x36, 0x60, 0xC3]

/-- The bay timing settings in six bytes. -/
def Timing.bytes (t : Timing) : List Byte :=
  le16 t.settle ++ [BitVec.ofNat 8 t.debounce, BitVec.ofNat 8 t.retryLimit, BitVec.ofNat 8 t.retryBase, 0]

/-- A drive profile in ten bytes. -/
def Profile.bytes (p : Profile) : List Byte :=
  le16 p.peak12 ++ le16 p.steady12 ++ le16 p.i5 ++ le16 p.spin ++ le16 p.park

/-- A slot's capacities in four bytes. -/
def SupplySetting.bytes (c : SupplySetting) : List Byte := le16 c.cap12 ++ le16 c.cap5

/-- The code of a supply mode (R50). -/
def SupplyMode.code : SupplyMode → Nat
  | .combined => 0
  | .spareOne => 1

/-- The account settings in eight bytes. -/
def AccountSettings.bytes (a : AccountSettings) : List Byte :=
  BitVec.ofNat 8 a.mode.code :: le16 a.reserve12 ++ le16 a.reserve5 ++ [flagByte a.shed, BitVec.ofNat 8 a.delay, 0]

/-- The schedule settings in four bytes. -/
def Schedule.bytes (c : Schedule) : List Byte := [BitVec.ofNat 8 c.limit, 0] ++ le16 c.stagger

/-- A sensor's settings in two bytes. -/
def SensorSettings.bytes (c : SensorSettings) : List Byte := [sensorZoneByte c.zone, signed8 c.offset]

/-- A source configuration in four bytes. -/
def SourceConfig.bytes (c : SourceConfig) : List Byte :=
  [flagByte c.enable, BitVec.ofNat 8 c.level, flagByte c.auto, c.vector]

/-- The eleven sections of the image, in order (section 9.2). -/
def Settings.sections (c : Settings) : List Byte :=
  c.bays.toList.flatMap BaySettings.bytes ++ c.timing.bytes ++ c.profiles.toList.flatMap Profile.bytes ++
    c.supplies.toList.flatMap SupplySetting.bytes ++ c.account.bytes ++ c.schedule.bytes ++
    c.zones.toList.flatMap (fun z => z.curve.bytes ++ z.limits.bytes) ++ le16 c.staleTime ++
    c.sensors.toList.flatMap SensorSettings.bytes ++ ([BitVec.ofNat 8 c.fans.count, 0] ++ c.fans.bytes) ++
    (c.patterns.toList.drop 2).flatMap (fun p => [p.on, p.off]) ++
    c.attention.a.toList.flatMap SourceConfig.bytes ++ c.attention.b.toList.flatMap SourceConfig.bytes ++
    windowBytes c.windows.a ++ windowBytes c.windows.b

/-- The header with a given checksum (section 11.5). -/
def imageHeader (sum : Nat) : List Byte :=
  imageSignature ++ le16 Config.imageLength ++ [BitVec.ofNat 8 Config.layoutVersion, 0] ++ le16 sum ++ List.replicate 6 0

/-- The sum of bytes modulo 65536. -/
def byteSum (l : List Byte) : Nat := (l.foldl (fun t b => t + b.toNat) 0) % 65536

/-- The checksum of an image with these sections (R177): the checksum bytes counted as 0. -/
def imageChecksum (body : List Byte) : Nat := byteSum (imageHeader 0 ++ body)

/-- The whole image of a live copy (R180). -/
def Settings.image (c : Settings) : List Byte := imageHeader (imageChecksum c.sections) ++ c.sections

/-- The length and the checksum of an image as a store's result data (Table 11-7). -/
def storeResult (image : List Byte) : List Byte := (image.drop 4).take 2 ++ (image.drop 8).take 2

/-- The writes of a store in their order (R180): the signature as zeros, every section, the rest of the header, the signature. The zero
bytes 7 and 10 to 15 of the header are written with the length, the version and the checksum, in address order (DESIGN CHOICE, log entry
44: R180 names only the fields that carry a value). -/
def storeWrites (image : List Byte) : List (Nat × Byte) :=
  let at' (from' : Nat) (l : List Byte) : List (Nat × Byte) := l.zipIdx.map fun x => (from' + x.2, x.1)
  at' 0 [0, 0, 0, 0] ++ at' 16 (image.drop 16) ++ at' 4 ((image.drop 4).take 12) ++ at' 0 (image.take 4)

/-- The settings memory after the first k writes of a store. -/
def Memory.afterWrites (m : Memory) (image : List Byte) (k : Nat) : Memory :=
  ((storeWrites image).take k).foldl (fun t w => Memory.write t w.1 w.2) m

/-! ### The checks (R177) -/

/-- The image of the settings memory passes the four checks, in their order; the first that fails names the cause. -/
def checkImage (m : Memory) : Cause :=
  if [Memory.read m 0, Memory.read m 1, Memory.read m 2, Memory.read m 3] ≠ imageSignature then .badSignature
  else if (Memory.read m 6).toNat ≠ Config.layoutVersion then .badVersion
  else if (Memory.read16 m 4).toNat ≠ Config.imageLength then .badLength
  else if byteSum ((List.range Config.imageLength).map fun a => if a = 8 ∨ a = 9 then 0 else Memory.read m a) ≠
      (Memory.read16 m 8).toNat then .badChecksum
  else .none

/-- What a load or a reload finds (R177): ABSENT by the strap, NO_RESPONSE when the memory does not answer, else the checks. -/
def State.imageCause (s : State) (answered : Bool) : Cause :=
  if s.straps.store = false then .absent else if answered = false then .noResponse else checkImage s.settingsMem

/-! ### The values of an image, as the SET commands carry them -/

/-- Bay n's six fields. -/
def imageBay (m : Memory) (n : BayNo) : SetBayArgs :=
  let a := 0x10 + 6 * n.val
  { policy := some (Memory.read m a), cls := some (Memory.read m (a + 1)), zone := some (Memory.read m (a + 2)),
    profile := some (Memory.read m (a + 3)), shed := some (Memory.read m (a + 4)), latch := some (Memory.read m (a + 5)) }

/-- The bay timing settings, clamped to their ranges (Table 1-6), and whether one was clamped. -/
def imageTiming (m : Memory) : Timing × Bool :=
  let se := clampNat 100 2000 (Memory.read16 m 0x178).toNat
  let de := clampNat 5 100 (Memory.read m 0x17A).toNat
  let rl := clampNat 0 7 (Memory.read m 0x17B).toNat
  let rb := clampNat 1 60 (Memory.read m 0x17C).toNat
  ({ settle := se.1, debounce := de.1, retryLimit := rl.1, retryBase := rb.1 }, se.2 || de.2 || rl.2 || rb.2)

/-- Profile i. -/
def imageProfile (m : Memory) (i : Fin 8) : SetProfileArgs :=
  let a := 0x17E + 10 * i.val
  { peak12 := some (Memory.read16 m a), steady12 := some (Memory.read16 m (a + 2)), i5 := some (Memory.read16 m (a + 4)),
    spin := some (Memory.read16 m (a + 6)), park := some (Memory.read16 m (a + 8)) }

/-- The capacities of slot i. -/
def imageSlot (m : Memory) (i : Fin 4) : SetSlotArgs :=
  let a := 0x1CE + 4 * i.val
  { cap12 := some (Memory.read16 m a), cap5 := some (Memory.read16 m (a + 2)) }

/-- The account settings. -/
def imageAccount (m : Memory) : SetAccountArgs :=
  { mode := some (Memory.read m 0x1DE), reserve12 := some (Memory.read16 m 0x1DF), reserve5 := some (Memory.read16 m 0x1E1),
    shed := some (Memory.read m 0x1E3), delay := some (Memory.read m 0x1E4) }

/-- The schedule settings. -/
def imageSchedule (m : Memory) : SetScheduleArgs :=
  { limit := some (Memory.read m 0x1E6), stagger := some (Memory.read16 m 0x1E8) }

/-- Zone z's curve. -/
def imageCurve (m : Memory) (z : Fin 4) : SetCurveArgs :=
  let a := 0x1EA + 20 * z.val
  let point (k : Nat) : RawPoint := { t := Memory.read m (a + k), d := Memory.read16 m (a + k + 1) }
  { p1 := point 0, p2 := point 3, p3 := point 6, p4 := point 9 }

/-- Zone z's limits. -/
def imageLimits (m : Memory) (z : Fin 4) : SetLimitsArgs :=
  let a := 0x1EA + 20 * z.val + 12
  { h := some (Memory.read m a), ceiling := some (Memory.read m (a + 1)), critical := some (Memory.read m (a + 2)),
    v := some (Memory.read m (a + 3)), staleFloor := some (Memory.read16 m (a + 4)), shedTime := some (Memory.read16 m (a + 6)) }

/-- The stale time. -/
def imageStaleTime (m : Memory) : Half := Memory.read16 m 0x23A

/-- Sensor i's settings. -/
def imageSensor (m : Memory) (i : Fin 8) : SetSensorArgs :=
  let a := 0x23C + 2 * i.val
  { zone := some (Memory.read m a), offset := some (Memory.read m (a + 1)) }

/-- The fan settings. -/
def imageFans (m : Memory) : SetFansArgs :=
  { count := some (Memory.read m 0x24C), maxRpm := some (Memory.read16 m 0x24E), idle := some (Memory.read16 m 0x250),
    maxCur := some (Memory.read16 m 0x252), dmin := some (Memory.read16 m 0x254), slewUp := some (Memory.read16 m 0x256),
    slewDown := some (Memory.read16 m 0x258), reserve := some (Memory.read16 m 0x25A) }

/-- Pattern entry i of 2 to 7. -/
def imagePattern (m : Memory) (i : Fin 8) : SetPatternArgs :=
  let a := 0x25C + 2 * (i.val - 2)
  { on := some (Memory.read m a), off := some (Memory.read m (a + 1)) }

/-- Source i of a port. -/
def imageSource (m : Memory) (p : Port) (i : Fin 8) : SetAttentionArgs :=
  let a := (match p with | .a => 0x268 | .b => 0x288) + 4 * i.val
  { enable := some (Memory.read m a), level := some (Memory.read m (a + 1)), auto := some (Memory.read m (a + 2)),
    vector := some (Memory.read m (a + 3)) }

/-- A port's window setting. -/
def imageWindow (m : Memory) (p : Port) : WindowSetting :=
  let a := match p with | .a => 0x2A8 | .b => 0x2AC
  { code := Memory.read m a, base := Memory.read16 m (a + 2) }

/-! ### The live copy that a load sets (R177) -/

/-- A zone of a good image: a part that SET_ZONE would refuse is replaced by that part's built-in default. -/
def imageZone (m : Memory) (z : Fin 4) : ZoneSettings :=
  let c := (Curve.ofRaw (imageCurve m z)).1
  let l := (ZoneLimits.apply (imageLimits m z) .default).1
  { curve := if c.accepted then c else .default, limits := if l.accepted then l else .default }

/-- The live copy from a good image: every value clamped as its SET command clamps it, the windows as stored. -/
def Settings.ofImage (m : Memory) : Settings :=
  { bays := Vector.ofFn fun n => (BaySettings.apply (imageBay m n) (.default n)).1
    timing := (imageTiming m).1
    profiles := Vector.ofFn fun i => (Profile.apply (imageProfile m i) .default0).1
    supplies := Vector.ofFn fun i => SupplySetting.apply (imageSlot m i) ⟨0, 0⟩
    account := (AccountSettings.apply (imageAccount m) Settings.default.account).1
    schedule := (Schedule.apply (imageSchedule m) Settings.default.schedule).1
    zones := Vector.ofFn fun z => imageZone m z
    staleTime := (staleTimeOf (imageStaleTime m)).1
    sensors := Vector.ofFn fun i => (SensorSettings.apply (imageSensor m i) ⟨none, 0⟩).1
    fans := (FanSettings.apply (imageFans m) Settings.default.fans).1
    patterns := Vector.ofFn fun i => if i.val < 2 then ⟨0, 0⟩ else Pattern.apply (imagePattern m i) ⟨0, 0⟩
    attention :=
      ⟨Vector.ofFn fun i => (SourceConfig.apply (imageSource m .a i) .default).1,
       Vector.ofFn fun i => (SourceConfig.apply (imageSource m .b i) .default).1⟩
    windows := ⟨imageWindow m .a, imageWindow m .b⟩ }

/-- The live copy a load of this cause sets. -/
def Settings.loaded (m : Memory) : Cause → Settings
  | .none => Settings.ofImage m
  | _ => Settings.default

end Sys2Proof.Machine
end

