-- ==== Sys2Proof/Machine/SetCommands.lean ====
section
/-! DEFINITION. What each SET command does to the part, apart from its slip: the work that a slip and an applied image share (R181).
Each gives the state after it and whether a value was clamped. -/

namespace Sys2Proof.Machine

/-! ### Bays and profiles -/

/-- What SET_BAY's changed fields do beside being stored: WAIT_5V clears when the policy becomes MANUAL (R27), a QUEUED bay moves
class (R58), a changed class or shed-eligible field starts a shed run again (R47), a QUEUED bay's changed profile gives an admission
opportunity (R64). -/
def State.bayFieldsChanged (n : BayNo) (old new : BaySettings) (s : State) : State :=
  let queued : Bool := (s.bay n).record.state == .queued
  let s1 := if new.policy = .manual ∧ old.policy ≠ .manual then s.setFlags n fun f => { f with wait5v := false } else s
  let s2 := if new.cls ≠ old.cls ∧ queued = true then s1.reclass n new.cls else s1
  { s2 with reports := { s2.reports with
      run := s2.reports.run || ((decide (new.cls ≠ old.cls) || decide (new.shedEligible ≠ old.shedEligible)) && s.rerunReady)
      pass := s2.reports.pass || (decide (new.profile ≠ old.profile) && queued) } }

/-- SET_BAY on bay n (R27). -/
def State.setBay (n : BayNo) (a : SetBayArgs) (s : State) : State × Bool :=
  let old := s.baySet n
  let r := BaySettings.apply a old
  let t := ({ s with settings := { s.settings with bays := s.settings.bays.set n r.1 } }.bayFieldsChanged n old r.1).pubBay n
  (if (t.bay n).record.flags.wait5v = (s.bay n).record.flags.wait5v then t else t.raiseBoth srcBayChange, r.2)

/-- SET_PROFILE on profile i (R51); taken, it is an admission opportunity (R64). -/
def State.setProfile (i : Fin 8) (a : SetProfileArgs) (s : State) : State × Bool :=
  let r := Profile.apply a s.settings.profiles[i]
  ({ s with settings := { s.settings with profiles := s.settings.profiles.set i r.1 }, reports := { s.reports with pass := true } }, r.2)

/-! ### Supplies and schedule -/

/-- SET_SUPPLY on slot i (R50): a slot made fitted is sampled, one made not fitted becomes ABSENT (R31), then the budget. Any change of
the slot's state raises POWER: that of a slot made not fitted by R50, that of a slot made fitted by DESIGN CHOICE (log entry 41: R50 names
POWER for the slot made not fitted alone, and R32 speaks of changes of the inputs). -/
def State.setSlot (i : Fin 4) (a : SetSlotArgs) (s : State) : State :=
  let new := SupplySetting.apply a s.settings.supplies[i]
  if new = s.settings.supplies[i] then s
  else
    let t := { s with settings := { s.settings with supplies := s.settings.supplies.set i new } }
    let u := ((t.sampleSupply i).pubSupply i).accountUpdate
    if s.account.supplies[i].state = (t.sampledSupply i).state then u else u.raiseBoth srcPower

/-- A change of the shed setting (R49): OFF to ON while over-committed starts the delay timer, ON to OFF stops it. -/
def State.shedSwitched (old new : Bool) (s : State) : State :=
  if old = false ∧ new = true ∧ s.account.overCommitted = true then
    let now := decide (s.settings.account.delay = 0)
    { s with
      account := { s.account with shedTimer := s.shedTimerStart, delayExpired := s.account.delayExpired || now }
      reports := { s.reports with run := s.reports.run || now } }
  else if old = true ∧ new = false then { s with account := { s.account with shedTimer := none } }
  else s

/-- SET_SUPPLY on the enclosure (R50). -/
def State.setAccount (a : SetAccountArgs) (s : State) : State × Bool :=
  let r := AccountSettings.apply a s.settings.account
  if r.1 = s.settings.account then (s, r.2)
  else
    ((({ s with settings := { s.settings with account := r.1 } }).shedSwitched s.settings.account.shed r.1.shed).accountUpdate, r.2)

/-- The stagger expiry after a change of the interval (R60): while armed it moves to the last admission plus the new interval, and one
that has so passed is disarmed. -/
def State.movedStagger (s : State) (interval : Nat) : Option Time :=
  match s.scheduler.staggerAt, s.scheduler.lastAdmission with
  | some e, some last =>
    if Time.reached s.time e then some e
    else if Time.reached s.time (Time.plus last interval) then none else some (Time.plus last interval)
  | e, _ => e

/-- SET_SCHEDULE (R75): a changed value moves the stagger expiry, is published, and gives an admission pass. -/
def State.setSchedule (a : SetScheduleArgs) (s : State) : State × Bool :=
  let r := Schedule.apply a s.settings.schedule
  if r.1 = s.settings.schedule then (s, r.2)
  else
    let at' := if r.1.stagger = s.settings.schedule.stagger then s.scheduler.staggerAt else s.movedStagger r.1.stagger
    (({ s with
        settings := { s.settings with schedule := r.1 }
        scheduler := { s.scheduler with staggerAt := at' }
        reports := { s.reports with pass := true } }).pubQueue, r.2)

/-! ### Zones and sensors -/

/-- The four zone records republished where they changed. -/
def State.pubZones (s : State) : State := (((s.pubZone 0).pubZone 1).pubZone 2).pubZone 3

/-- SET_ZONE's CURVE part (R97): none when the check refuses it, and whether a value was clamped. -/
def State.setCurve (z : Fin 4) (a : SetCurveArgs) (s : State) : Option State × Bool :=
  let r := Curve.ofRaw a
  if r.1.accepted then
    (some (({ s with settings := { s.settings with
        zones := s.settings.zones.set z { s.settings.zones[z] with curve := r.1 } } }).pubZone z), r.2)
  else (none, r.2)

/-- SET_ZONE's LIMITS part (R98): none when the check refuses it. -/
def State.setLimits (z : Fin 4) (a : SetLimitsArgs) (s : State) : Option State × Bool :=
  let r := ZoneLimits.apply a s.settings.zones[z].limits
  if r.1.accepted then
    (some (({ s with settings := { s.settings with
        zones := s.settings.zones.set z { s.settings.zones[z] with limits := r.1 } } }).pubZone z), r.2)
  else (none, r.2)

/-- SET_ZONE on the enclosure: the stale time (R98, R100). -/
def State.setStaleTime (v : Half) (s : State) : State × Bool :=
  (({ s with settings := { s.settings with staleTime := (staleTimeOf v).1 } }).pubZones, (staleTimeOf v).2)

/-- A sensor's record after its zone setting changes (R99). A sensor assigned to NONE loses the time of its last good read with the value
(DESIGN CHOICE, log entry 36: R99 names the value and the failure count). -/
def Sensor.reassigned (old new : Option (Fin 4)) (u : Sensor) : Sensor :=
  match old, new with
  | _, none => { u with state := .unused, raw := none, fails := 0, goodAt := none }
  | none, some _ => { u with state := .noData, raw := none, fails := 0, goodAt := none }
  | some _, some _ => u

/-- The scan under way after sensor i's zone setting changed (R83): a read on the bus is to be discarded, a sensor made UNUSED is no
longer read. -/
def Scan.reassigned (i : Fin 8) (unused : Bool) (c : Scan) : Scan :=
  match c.left with
  | [] => c
  | j :: rest =>
    if j = i then { c with discard := true }
    else if unused then { c with left := j :: rest.filter fun k => k != i } else c

/-- SET_SENSOR on sensor i (R99): the record is republished, changed or not. -/
def State.setSensor (i : Fin 8) (a : SetSensorArgs) (s : State) : State × Bool :=
  let old := s.settings.sensors[i]
  let r := SensorSettings.apply a old
  let u := if r.1.zone = old.zone then s.sensors[i] else s.sensors[i].reassigned old.zone r.1.zone
  let t := ({ s with
    settings := { s.settings with sensors := s.settings.sensors.set i r.1 }
    sensors := s.sensors.set i u
    scan := if r.1.zone = old.zone then s.scan else s.scan.reassigned i r.1.zone.isNone }).republishSensor i
  (if (s.sensors[i].state == .failed) != (u.state == .failed) then t.raiseBoth srcThermal else t, r.2)

/-! ### Fans and floors -/

/-- Fan i after the configured count changes from `old` to `new` (R122). -/
def Fan.recounted (old new i : Nat) (now : Time) (f : Fan) : Fan :=
  if new ≤ i ∧ i < old then f.toUnused now
  else if old ≤ i ∧ i < new then (if f.present then f.toStarting now else f.toAbsent now)
  else f

/-- SET_FANS changed something the reservation is computed from (R113, R122). -/
def reservationMoved (old new : FanSettings) (c c' : Nat) : Bool :=
  decide (c ≠ c') || decide (old.count ≠ new.count) || decide (old.idle ≠ new.idle) || decide (old.maxCur ≠ new.maxCur) ||
    decide (old.reserve ≠ new.reserve)

/-- SET_FANS (R122), one handling: the summary record is republished once. -/
def State.setFans (a : SetFansArgs) (s : State) : State × Bool :=
  let old := s.settings.fans
  let r := FanSettings.apply a old
  if r.1 = old then (s, r.2)
  else
    let fans := Vector.ofFn fun (i : Fin 6) => (s.fans.fans[i] : Fan).recounted old.count r.1.count i.val s.time
    let c := max s.fans.c r.1.dmin
    let v := s.withOneSummary fun h =>
      let t := ({ h with
        settings := { h.settings with fans := r.1 }
        fans := { h.fans with fans := fans, c := c } }).pubFans.evalEnclosure
      if reservationMoved old r.1 s.fans.c c then t.reportFans else t
    (if fansEvent s.fans.fans fans then v.raiseBoth srcFan else v, r.2)

/-- The floor a SET_FLOOR gives a port at `now` (R123), and whether the duty was clamped. -/
def floorOf (duty expiry : Half) (now : Time) : Option Floor × Bool :=
  if duty = 0 then (none, false)
  else
    (some { duty := min duty.toNat 1000
            expiry := if expiry = 0 then none else some (Time.plus now (expiry.toNat * 1000)) }, decide (1000 < duty.toNat))

/-- A port's floor written; the summary record is republished if it changed (R123, R124). -/
def State.putFloor (p : Port) (f : Option Floor) (s : State) : State :=
  ({ s with fans := { s.fans with floors := s.fans.floors.put p f } }).pubSummaryIfChanged

/-! ### Patterns, attention, windows -/

/-- SET_PATTERN on entry i (R141). -/
def State.setPattern (i : Fin 8) (a : SetPatternArgs) (s : State) : State :=
  ({ s with settings := { s.settings with
      patterns := s.settings.patterns.set i (Pattern.apply a s.settings.patterns[i]) } }).pubEnclosure

/-- An Attention Unit after the enable of source i is written: turned off, its pending flag clears (R174). -/
def AttentionUnit.afterEnable (i : Fin 8) (enable : Bool) (u : AttentionUnit) : AttentionUnit :=
  if enable then u else { u with pending := u.pending.set i false }

/-- SET_ATTENTION on source i of a port (R174). -/
def State.setSource (p : Port) (i : Fin 8) (a : SetAttentionArgs) (s : State) : State × Bool :=
  let config := s.settings.attention.get p
  let r := SourceConfig.apply a config[i]
  (({ s with
      settings := { s.settings with attention := s.settings.attention.put p (config.set i r.1) }
      attention := s.attention.put p ((s.attention.get p).afterEnable i r.1.enable) }).pubAttention p, r.2)

/-- The bytes a window setting spans; none for a size code outside the four (log entry 28). -/
def windowSpan (w : WindowSetting) : Option Window :=
  match windowSize w.code with
  | none => none
  | some size => some { base := w.base.toNat, size := size }

/-- SET_WINDOWS accepts a setting beside the other port's setting (R182): valid on its own terms, sharing no byte with it. -/
def windowAccepted (w other : WindowSetting) : Bool :=
  match windowOf w, windowSpan other with
  | none, _ => false
  | some _, none => true
  | some v, some o => !v.overlaps o

/-- A port's live window setting written (R182). -/
def State.putWindowSetting (p : Port) (w : WindowSetting) (s : State) : State :=
  { s with settings := { s.settings with windows := s.settings.windows.put p w } }

end Sys2Proof.Machine
end

