-- ==== Sys2Proof/Machine/BaySlips.lean ====
section
/-! DEFINITION. The bay commands as slips (section 1.12, sections 3.5 to 3.8): each is checked under R13, acts, and ends or stays open. -/

namespace Sys2Proof.Machine

/-- The command codes of Table 11-7 that an open slip can carry, and NOTE's neighbours. -/
def cmdPowerOff : Byte := 0x11
/-- PREPARE_REMOVAL. -/
def cmdPrepareRemoval : Byte := 0x12
/-- SPIN_UP. -/
def cmdSpinUp : Byte := 0x20
/-- SPIN_DOWN. -/
def cmdSpinDown : Byte := 0x21
/-- FAN_CHECK. -/
def cmdFanCheck : Byte := 0x52
/-- STORE_SETTINGS. -/
def cmdStore : Byte := 0x80
/-- RELOAD_SETTINGS. -/
def cmdReload : Byte := 0x81

/-- The bay a target byte names, when it is within the strapped count (R158). -/
def State.bayTarget (s : State) (target : Byte) : Option BayNo :=
  if h : target.toNat < 60 then
    if s.inCount ⟨target.toNat, h⟩ then some ⟨target.toNat, h⟩ else none
  else none

/-- The index a target byte names, when it is below n. -/
def targetBelow (n : Nat) (target : Byte) : Option (Fin n) :=
  if h : target.toNat < n then some ⟨target.toNat, h⟩ else none

/-- A slip refused with no result data. -/
def State.refuse (h : SlipHead) (o : SlipOutcome) (s : State) : State := s.endTaken h o false false none

/-- A bay command at its take: BAD_TARGET for a target beyond the strapped count (R158), else the command on its bay. -/
def State.onBay (h : SlipHead) (f : BayNo → State → State) (s : State) : State :=
  match s.bayTarget h.target with
  | none => s.refuse h .badTarget
  | some n => f n s

/-- A bay command ends with the bay result as the bay now stands (section 1.12). -/
def State.endBay (h : SlipHead) (n : BayNo) (o : SlipOutcome) (s : State) : State :=
  s.endTaken h o false false (some (bayResult s n))

/-- Clears WAIT_5V, which raises BAY_CHANGE if it was set (R3, Table 1-2); with REMOVAL_READY set for a removal (R26). -/
def State.restFlags (n : BayNo) (ready : Bool) (s : State) : State :=
  let f := (s.bay n).record.flags
  let g := { f with wait5v := false, removalReady := f.removalReady || ready }
  if g = f then s else (s.setFlags n fun _ => g).bayChanged n (some srcBayChange)

/-! ### POWER_ON, POWER_OFF, PREPARE_REMOVAL, CLEAR_FAULT, SET_BAY -/

/-- POWER_ON on bay n (R24). -/
def State.powerOn (h : SlipHead) (n : BayNo) (s : State) : State :=
  match (s.bay n).record.state with
  | .empty | .settling | .faulted => s.endBay h n .badState
  | .off =>
    if s.fits5 n then ((s.enter n .logic .command).bayChanged n (some srcBayChange)).endBay h n .ok else s.endBay h n .noBudget
  | _ => s.endBay h n .ok

/-- POWER_OFF (`ready` false, R25) or PREPARE_REMOVAL (`ready` true, R26) on bay n. -/
def State.stopBay (h : SlipHead) (kind : OpKind) (command : Byte) (ready : Bool) (n : BayNo) (s : State) : State :=
  let act (t : State) : State :=
    match (s.bay n).record.state with
    | .logic | .queued => ((t.supersede n).stopToOff n .command ready).endBay h n .ok
    | .spinningDown =>
      (((t.supersede n).keepOpen h command false).setOp n (some (s.slipOp h kind none))).bayChanged n none
    | _ => ((t.supersede n).keepOpen h command false).stopToPark n .command (s.slipOp h kind none)
  match (s.bay n).record.state with
  | .empty | .settling | .faulted => s.endBay h n .badState
  | .off => (s.restFlags n ready).endBay h n .ok
  | _ =>
    if (s.bay n).record.op.isNone ∨ supersedable (s.bay n).record.op = true then act s else s.endBay h n .bayBusy

/-- CLEAR_FAULT on bay n (R19): the bay goes to OFF, its policy is applied, then the slip ends. -/
def State.clearFault (h : SlipHead) (n : BayNo) (s : State) : State :=
  match (s.bay n).record.state with
  | .faulted =>
    ((((((s.setRetries n 0).setOp n none).enter n .off .cleared).bayChanged n (some srcBayChange)).applyPolicy n).endBay h n .ok)
  | _ => s.endBay h n .badState

/-- SET_BAY on bay n as a slip (R27): its result data gives the six fields after it. -/
def State.setBaySlip (h : SlipHead) (a : SetBayArgs) (n : BayNo) (s : State) : State :=
  let r := s.setBay n a
  r.1.endTaken h .ok r.2 false (some (0 :: (r.1.baySet n).bytes))

/-! ### SPIN_UP and SPIN_DOWN -/

/-- The deadline a SPIN_UP taken at `now` names (R69). -/
def spinDeadline (seconds : Half) (now : Time) : Option Time :=
  if seconds = 0 then none else some (Time.plus now (min seconds.toNat Config.deadlineCapS * 1000))

/-- The deadline was clamped (R69). -/
def deadlineClamped (seconds : Half) : Bool := decide (Config.deadlineCapS < seconds.toNat)

/-- Queues bay n for a SPIN_UP slip (R68): from OFF through LOGIC, from LOGIC with the SHED flags cleared; the operation is opened,
the slip stays open, the entry joins. -/
def State.queueSpinUp (h : SlipHead) (n : BayNo) (seconds : Half) (s : State) : State :=
  let dl := spinDeadline seconds s.time
  let s1 := if (s.bay n).record.state = .off then s.enter n .logic .command else s
  let s2 := (s1.enter n .queued .command).setFlags n fun f => { f with shedThermal := false, shedPower := false }
  let s3 := (s2.setOp n (some (s.slipOp h .spinUp dl))).keepOpen h cmdSpinUp (deadlineClamped seconds)
  (s3.join (s3.entryOf n (some h.addr) dl)).bayChanged n (some srcBayChange)

/-- SPIN_UP on bay n (R68). -/
def State.spinUp (h : SlipHead) (seconds : Half) (n : BayNo) (s : State) : State :=
  let finish (o : SlipOutcome) : State := s.endTaken h o (deadlineClamped seconds) false (some (bayResult s n))
  match (s.bay n).record.state with
  | .empty | .settling | .faulted => finish .badState
  | .ready => finish .ok
  | .queued | .spinningUp | .spinningDown => finish .bayBusy
  | .off => if (s.bay n).record.op.isSome then finish .bayBusy else if s.fits5 n then s.queueSpinUp h n seconds else finish .noBudget
  | .logic => if (s.bay n).record.op.isSome then finish .bayBusy else s.queueSpinUp h n seconds

/-- SPIN_DOWN on bay n (R76, R77). -/
def State.spinDown (h : SlipHead) (n : BayNo) (s : State) : State :=
  match (s.bay n).record.state with
  | .empty | .settling | .faulted | .queued | .spinningUp => s.endBay h n .badState
  | .off | .logic => s.endBay h n .ok
  | .spinningDown => s.endBay h n .bayBusy
  | .ready =>
    if (s.bay n).record.op.isSome then s.endBay h n .bayBusy
    else (s.keepOpen h cmdSpinDown false).stopToPark n .command (s.slipOp h .spinDown none)

end Sys2Proof.Machine
end

