-- ==== Sys2Proof/Machine/ControlSlips.lean ====
section
/-! DEFINITION. Every other command as a slip: the SET commands of chapters 2 to 6 and 8, FAN_CHECK, CANCEL, NOTE and the commands of
the settings store. Each ends or stays open as its rule says. -/

namespace Sys2Proof.Machine

/-- A slip ends OK with result data, after every report of its handling has been acted on. -/
def State.endSettled (h : SlipHead) (clamped : Bool) (result : State → List Byte) (s : State) : State :=
  s.settle.endTaken h .ok clamped false (some (result s.settle))

/-! ### The Load Account and the scheduler -/

/-- The account's flags as summary byte 18 (Table 11-10). -/
def AccountSummary.flags (a : AccountSummary) : Byte :=
  BitVec.ofNat 8 (bitsOf [a.overCommitted, a.over12, a.over5, a.unresolved, a.redundancyLost])

/-- SET_SUPPLY's result data on the enclosure (Table 11-7). Its four figures are the summary record's, saturated at 65535 (DESIGN CHOICE,
log entry 40: R36 saturates what the summary record publishes, and R50 gives two-byte figures without saying so of them). -/
def State.accountResult (s : State) : List Byte :=
  le16 s.accountSummary.usable12 ++ le16 s.accountSummary.usable5 ++ le16 s.accountSummary.committed12 ++
    le16 s.accountSummary.committed5 ++ [s.accountSummary.flags]

/-- SET_SUPPLY with a slot target (R50). -/
def State.setSlotSlip (h : SlipHead) (a : SetSlotArgs) (s : State) : State :=
  match targetBelow 4 h.target with
  | none => s.refuse h .badTarget
  | some i => (s.setSlot i a).endSettled h false fun t => [BitVec.ofNat 8 t.account.supplies[i].state.code]

/-- SET_SUPPLY with target 0xFE (R50). -/
def State.setAccountSlip (h : SlipHead) (a : SetAccountArgs) (s : State) : State :=
  if h.target = enclosureTarget then (s.setAccount a).1.endSettled h (s.setAccount a).2 State.accountResult
  else s.refuse h .badTarget

/-- SET_SCHEDULE's result data: the settings, the spinning count and the queue length (Table 11-7). -/
def State.scheduleResult (s : State) : List Byte :=
  [0, BitVec.ofNat 8 s.settings.schedule.limit] ++ le16 s.settings.schedule.stagger ++
    [BitVec.ofNat 8 s.spinningCount, BitVec.ofNat 8 s.scheduler.queue.length]

/-- SET_SCHEDULE (R75): the pass is made before the slip ends. -/
def State.setScheduleSlip (h : SlipHead) (a : SetScheduleArgs) (s : State) : State :=
  if h.target = enclosureTarget then (s.setSchedule a).1.endSettled h (s.setSchedule a).2 State.scheduleResult
  else s.refuse h .badTarget

/-- SET_PROFILE (R51): the admission pass follows the slip's end (R64). One that ends BAD_TARGET gives no admission opportunity (DESIGN
CHOICE, log entry 43: Table 3-4 names a SET_PROFILE that is taken, and does not say whether one that changes no profile counts). -/
def State.setProfileSlip (h : SlipHead) (a : SetProfileArgs) (s : State) : State :=
  match targetBelow 8 h.target with
  | none => s.refuse h .badTarget
  | some i =>
    let r := s.setProfile i a
    r.1.endTaken h .ok r.2 false (some ([0, 0] ++ r.1.settings.profiles[i].bytes))

/-! ### Zones and sensors -/

/-- SET_ZONE, CURVE part (R97). -/
def State.setCurveSlip (h : SlipHead) (a : SetCurveArgs) (s : State) : State :=
  match targetBelow 4 h.target with
  | none => s.refuse h .badTarget
  | some z =>
    match s.setCurve z a with
    | (none, c) => s.endTaken h .badValue c false none
    | (some t, c) => t.endTaken h .ok c false (some (0 :: t.settings.zones[z].curve.bytes))

/-- SET_ZONE, LIMITS part (R98). -/
def State.setLimitsSlip (h : SlipHead) (a : SetLimitsArgs) (s : State) : State :=
  match targetBelow 4 h.target with
  | none => s.refuse h .badTarget
  | some z =>
    match s.setLimits z a with
    | (none, c) => s.endTaken h .badValue c false none
    | (some t, c) => t.endTaken h .ok c false (some ([0, 0] ++ t.settings.zones[z].limits.bytes))

/-- SET_ZONE with target 0xFE: the stale time (R98). -/
def State.setStaleTimeSlip (h : SlipHead) (v : Half) (s : State) : State :=
  if h.target = enclosureTarget then
    (s.setStaleTime v).1.endTaken h .ok (s.setStaleTime v).2 false (some (le16 (s.setStaleTime v).1.settings.staleTime))
  else s.refuse h .badTarget

/-- SET_SENSOR (R99). -/
def State.setSensorSlip (h : SlipHead) (a : SetSensorArgs) (s : State) : State :=
  match targetBelow 8 h.target with
  | none => s.refuse h .badTarget
  | some i =>
    let r := s.setSensor i a
    r.1.endTaken h .ok r.2 false
      (some (r.1.settings.sensors[i].bytes ++ [BitVec.ofNat 8 r.1.sensors[i].state.code]))

/-! ### Fans -/

/-- A floor's result data: the duty or 0, expiry present, expiry time, then C and Draw (Table 11-7). -/
def State.floorResult (p : Port) (s : State) : List Byte :=
  (match s.fans.floors.get p with
   | none => [0, 0, 0, 0, 0, 0, 0, 0]
   | some { duty, expiry := none } => le16 duty ++ [0, 0, 0, 0, 0, 0]
   | some { duty, expiry := some t } => le16 duty ++ [1, 0] ++ le32 t) ++ le16 s.fans.c ++ le16 s.fans.draw

/-- SET_FLOOR (R123). -/
def State.setFloorSlip (h : SlipHead) (duty expiry : Half) (s : State) : State :=
  if h.target = enclosureTarget then
    let f := floorOf duty expiry s.time
    let t := s.putFloor h.port f.1
    t.endTaken h .ok f.2 false (some (t.floorResult h.port))
  else s.refuse h .badTarget

/-- SET_FANS's result data: C and N in one word, then the settings (Table 11-7). -/
def State.fansResult (s : State) : List Byte := le16 (s.fans.c + 4096 * s.settings.fans.count) ++ s.settings.fans.bytes

/-- SET_FANS (R122): its effects, the account's among them, come before the slip ends. -/
def State.setFansSlip (h : SlipHead) (a : SetFansArgs) (s : State) : State :=
  if h.target = enclosureTarget then (s.setFans a).1.endSettled h (s.setFans a).2 State.fansResult
  else s.refuse h .badTarget

/-- FAN_CHECK (R119): refused while a check runs; else, as one handling, C goes to 1000, the reservation is reported, the check begins. -/
def State.fanCheck (h : SlipHead) (s : State) : State :=
  if h.target ≠ enclosureTarget then s.refuse h .badTarget
  else if s.fans.check.isSome then s.refuse h .busy
  else
    let k : FanCheck := { origin := h.port, slip := some h.addr, start := s.time, peaks := Vector.replicate 6 0 }
    s.withOneSummary fun t =>
      (({ t with fans := { t.fans with c := 1000, check := some k } }).reportFans).keepOpen h cmdFanCheck false

/-! ### Lights -/

/-- What a SET_LIGHT's target names (R140, R158). -/
def State.lightTarget (s : State) (target : Byte) : Option LightPlace :=
  if target = enclosureTarget then some .enclosure else (s.bayTarget target).map .bay

/-- A SET_LIGHT on a composed channel (R140). -/
def State.setComposed (h : SlipHead) (place : LightPlace) (c : Colour) (a : SetLightArgs) (s : State) : State :=
  let pat := clampNat 0 7 a.pattern.toNat
  let pri := clampNat 0 7 a.priority.toNat
  let request : Option Request :=
    if a.priority = 0 then none
    else
      some { pattern := finOf 8 pat.1, priority := pri.1
             expiry := if a.duration = 0 then none else some (Time.plus s.time (a.duration.toNat * 1000)) }
  let t := s.putSlot h.port place c request
  let enable := match place with
    | .bay n => (t.light n).enable
    | .enclosure => false
  t.endTaken h .ok (decide (a.priority ≠ 0) && (pat.2 || pri.2)) false (some ((t.channel place c).result enable))

/-- A SET_LIGHT on a bay's GREEN channel: the activity enable (R139, R140). -/
def State.setGreen (h : SlipHead) (n : BayNo) (a : SetLightArgs) (s : State) : State :=
  let v := clampNat 0 1 a.enable.toNat
  (s.putEnable n (decide (v.1 = 1))).endTaken h .ok v.2 false
    (some (List.replicate 15 0 ++ [BitVec.ofNat 8 (3 + (if v.1 = 1 then 128 else 0))]))

/-- SET_LIGHT (R140). -/
def State.setLight (h : SlipHead) (a : SetLightArgs) (s : State) : State :=
  match s.lightTarget h.target with
  | none => s.refuse h .badTarget
  | some place =>
    match a.channel.toNat, place with
    | 0, p => s.setComposed h p .amber a
    | 1, p => s.setComposed h p .blue a
    | 2, .bay n => s.setGreen h n a
    | _, _ => s.refuse h .badValue

/-- SET_PATTERN (R141): entries 2 to 7. -/
def State.setPatternSlip (h : SlipHead) (a : SetPatternArgs) (s : State) : State :=
  match targetBelow 8 h.target with
  | none => s.refuse h .badTarget
  | some i =>
    if i.val < 2 then s.refuse h .badTarget
    else
      let t := s.setPattern i a
      t.endTaken h .ok false false (some [0, t.settings.patterns[i].on, t.settings.patterns[i].off])

/-! ### CANCEL and NOTE -/

/-- The bay whose operation belongs to an open slip of a port (R12). -/
def State.bayOfSlip (s : State) (p : Port) (addr : Half) : Option BayNo :=
  bayNumbers.find? fun n =>
    match (s.bay n).record.op with
    | some { origin := .slip q, slip := some a, .. } => q == p && a == addr
    | _ => false

/-- A CANCEL passed to the Bay Supervisor for the SPIN_UP of bay n (R72 to R74). -/
def State.cancelSpinUp (n : BayNo) (s : State) : State :=
  match (s.bay n).record.state with
  | .queued =>
    let op := (s.bay n).record.op
    let t := (((s.leave n).enter n .logic .command).setOp n none).bayChanged n (some srcBayChange)
    t.endOpSlip op .cancelled (bayResult t n)
  | .spinningUp =>
    match (s.bay n).record.op with
    | some o => s.stopToPark n .command { o with cancelMarked := true }
    | none => s
  | _ => s

/-- A CANCEL passed to the Fan Controller for the running check (R121). -/
def State.cancelCheck (s : State) : State :=
  match s.fans.check with
  | none => s
  | some k => ({ s with fans := { s.fans with check := none } }.endCheckSlip k .cancelled none).pubSummaryIfChanged

/-- CANCEL's result data: the address it named and the command found, or 0 (Table 11-7). -/
def cancelResult (named : Half) (command : Byte) : List Byte := le16 named.toNat ++ [command]

/-- CANCEL (R162). -/
def State.cancelSlip (h : SlipHead) (named : Half) (s : State) : State :=
  if h.target ≠ enclosureTarget then s.refuse h .badTarget
  else match s.findOpen h.port named with
    | none => s.endTaken h .notFound false false (some (cancelResult named 0))
    | some e =>
      if e.command = cmdSpinUp then
        let t := match s.bayOfSlip h.port named with
          | none => s
          | some n => s.cancelSpinUp n
        t.endTaken h .ok false true (some (cancelResult named e.command))
      else if e.command = cmdFanCheck then s.cancelCheck.endTaken h .ok false true (some (cancelResult named e.command))
      else s.endTaken h .notCancellable false false (some (cancelResult named e.command))

/-- NOTE (R163). -/
def State.noteSlip (h : SlipHead) (s : State) : State :=
  if h.target = enclosureTarget then
    s.endTaken h .ok false false (some (le32 s.time ++ [BitVec.ofNat 8 (s.reader h.port).table.length]))
  else s.refuse h .badTarget

/-! ### Attention and the settings store -/

/-- SET_ATTENTION (R174). -/
def State.setAttentionSlip (h : SlipHead) (a : SetAttentionArgs) (s : State) : State :=
  match targetBelow 8 h.target with
  | none => s.refuse h .badTarget
  | some i =>
    let r := s.setSource h.port i a
    r.1.endTaken h .ok r.2 false
      (some (0 :: (r.1.settings.attention.get h.port)[i].bytes ++ [flagByte (r.1.attention.get h.port).pending[i]]))

/-- STORE_SETTINGS (R180). -/
def State.storeSlip (h : SlipHead) (s : State) : State :=
  if h.target ≠ enclosureTarget ∨ s.straps.store = false then s.refuse h .badTarget
  else if s.store ≠ .none then s.refuse h .busy
  else ({ s with store := .storing h.port (some h.addr) s.settings.image }).keepOpen h cmdStore false

/-- RELOAD_SETTINGS (R181). -/
def State.reloadSlip (h : SlipHead) (s : State) : State :=
  if h.target ≠ enclosureTarget ∨ s.straps.store = false then s.refuse h .badTarget
  else if s.store ≠ .none then s.refuse h .busy
  else ({ s with store := .reloading h.port (some h.addr) }).keepOpen h cmdReload false

/-- SET_WINDOWS's result data: the live settings of both windows (Table 11-7). -/
def State.windowsResult (s : State) : List Byte := windowBytes s.settings.windows.a ++ windowBytes s.settings.windows.b

/-- SET_WINDOWS (R182): target 0 names port A, target 1 port B. -/
def State.setWindowsSlip (h : SlipHead) (w : WindowSetting) (s : State) : State :=
  let write (p : Port) : State :=
    if windowAccepted w (s.settings.windows.get (Port.other p)) then
      let t := s.putWindowSetting p w
      t.endTaken h .ok false false (some t.windowsResult)
    else s.refuse h .badValue
  if h.target = 0 then write .a else if h.target = 1 then write .b else s.refuse h .badTarget

end Sys2Proof.Machine
end

