-- ==== Sys2Proof/Machine/Reader.lean ====
section
/-! DEFINITION. The slip readers (section 7.4): links, takes, dispatch by command code, the walk, and what wakes a reader. -/

namespace Sys2Proof.Machine

/-! ### Slip positions and links -/

/-- An address is a slip position of a window's slip area (R148, Table 7-2). -/
def Window.isSlip (w : Window) (a : Nat) : Bool :=
  decide (a % 32 = 0) && decide (w.base + 0x80 ≤ a) && decide (a + 32 ≤ w.base + w.size)

/-- A link is valid (R156): a slip position of the port's own window that no open slip of the port holds. -/
def State.linkValid (p : Port) (link : Half) (s : State) : Bool :=
  match s.windows.get p with
  | none => false
  | some w => w.isSlip link.toNat && (s.findOpen p link).isNone

/-- The port's open-slip table has room (R157). -/
def State.hasRoom (p : Port) (s : State) : Bool := decide ((s.reader p).table.length < Config.openSlipCapacity)

/-! ### Parameters (R185, Table 11-7) -/

/-- The bytes of a slip as copied at its take. -/
structure SlipCopy where
  mem  : Memory
  addr : Nat
  deriving DecidableEq, Repr

/-- The byte at an offset. -/
def SlipCopy.byte (c : SlipCopy) (k : Nat) : Byte := Memory.read c.mem (c.addr + k)

/-- The two-byte field at an offset. -/
def SlipCopy.half (c : SlipCopy) (k : Nat) : Half := Memory.read16 c.mem (c.addr + k)

/-- The byte field at an offset when bit n of the mask at offset m is set. -/
def SlipCopy.given (c : SlipCopy) (m n k : Nat) : Option Byte := if (c.byte m).getLsbD n then some (c.byte k) else none

/-- The two-byte field at an offset when bit n of the mask at offset m is set. -/
def SlipCopy.givenHalf (c : SlipCopy) (m n k : Nat) : Option Half := if (c.byte m).getLsbD n then some (c.half k) else none

/-- SET_BAY's parameters. -/
def SlipCopy.bayArgs (c : SlipCopy) : SetBayArgs :=
  { policy := c.given 4 0 5, cls := c.given 4 1 6, zone := c.given 4 2 7, profile := c.given 4 3 8, shed := c.given 4 4 9,
    latch := c.given 4 5 10 }

/-- SET_SCHEDULE's parameters. -/
def SlipCopy.scheduleArgs (c : SlipCopy) : SetScheduleArgs := { limit := c.given 4 0 5, stagger := c.givenHalf 4 1 6 }

/-- SET_SUPPLY's parameters with a slot target. -/
def SlipCopy.slotArgs (c : SlipCopy) : SetSlotArgs := { cap12 := c.givenHalf 4 0 6, cap5 := c.givenHalf 4 1 8 }

/-- SET_SUPPLY's parameters with target 0xFE. -/
def SlipCopy.accountArgs (c : SlipCopy) : SetAccountArgs :=
  { mode := c.given 4 0 5, reserve12 := c.givenHalf 4 1 6, reserve5 := c.givenHalf 4 2 8, shed := c.given 4 3 10,
    delay := c.given 4 4 11 }

/-- SET_PROFILE's parameters. -/
def SlipCopy.profileArgs (c : SlipCopy) : SetProfileArgs :=
  { peak12 := c.givenHalf 4 0 6, steady12 := c.givenHalf 4 1 8, i5 := c.givenHalf 4 2 10, spin := c.givenHalf 4 3 12,
    park := c.givenHalf 4 4 14 }

/-- SET_ZONE's CURVE parameters. -/
def SlipCopy.curveArgs (c : SlipCopy) : SetCurveArgs :=
  { p1 := ⟨c.byte 5, c.half 6⟩, p2 := ⟨c.byte 8, c.half 9⟩, p3 := ⟨c.byte 11, c.half 12⟩, p4 := ⟨c.byte 14, c.half 15⟩ }

/-- SET_ZONE's LIMITS parameters. -/
def SlipCopy.limitsArgs (c : SlipCopy) : SetLimitsArgs :=
  { h := c.given 5 0 6, ceiling := c.given 5 1 7, critical := c.given 5 2 8, v := c.given 5 3 9, staleFloor := c.givenHalf 5 4 10,
    shedTime := c.givenHalf 5 5 12 }

/-- SET_SENSOR's parameters. -/
def SlipCopy.sensorArgs (c : SlipCopy) : SetSensorArgs := { zone := c.given 4 0 5, offset := c.given 4 1 6 }

/-- SET_FANS's parameters. -/
def SlipCopy.fansArgs (c : SlipCopy) : SetFansArgs :=
  { count := c.given 4 0 5, maxRpm := c.givenHalf 4 1 6, idle := c.givenHalf 4 2 8, maxCur := c.givenHalf 4 3 10,
    dmin := c.givenHalf 4 4 12, slewUp := c.givenHalf 4 5 14, slewDown := c.givenHalf 4 6 16, reserve := c.givenHalf 4 7 18 }

/-- SET_LIGHT's parameters. -/
def SlipCopy.lightArgs (c : SlipCopy) : SetLightArgs :=
  { channel := c.byte 4, pattern := c.byte 5, priority := c.byte 6, duration := c.half 7, enable := c.byte 9 }

/-- SET_PATTERN's parameters. -/
def SlipCopy.patternArgs (c : SlipCopy) : SetPatternArgs := { on := c.given 4 0 5, off := c.given 4 1 6 }

/-- SET_ATTENTION's parameters. -/
def SlipCopy.attentionArgs (c : SlipCopy) : SetAttentionArgs :=
  { enable := c.given 4 0 5, level := c.given 4 1 6, auto := c.given 4 2 7, vector := c.given 4 3 8 }

/-! ### Dispatch (R158, Tables 7-6 and 11-7) -/

/-- SET_SUPPLY by its target (R50). -/
def State.setSupplySlip (h : SlipHead) (c : SlipCopy) (s : State) : State :=
  if h.target = enclosureTarget then s.setAccountSlip h c.accountArgs else s.setSlotSlip h c.slotArgs

/-- SET_ZONE by its target and its part selector (R97, R98). -/
def State.setZoneSlip (h : SlipHead) (c : SlipCopy) (s : State) : State :=
  if h.target = enclosureTarget then s.setStaleTimeSlip h (c.half 4)
  else if 4 ≤ h.target.toNat then s.refuse h .badTarget
  else if c.byte 4 = 0 then s.setCurveSlip h c.curveArgs
  else if c.byte 4 = 1 then s.setLimitsSlip h c.limitsArgs
  else s.refuse h .badValue

/-- A taken slip handed to its owning block by its command code; an unknown code ends BAD_COMMAND (R158). -/
def State.dispatch (h : SlipHead) (code : Byte) (c : SlipCopy) (s : State) : State :=
  match code.toNat with
  | 0x01 => s.noteSlip h
  | 0x02 => s.cancelSlip h (c.half 4)
  | 0x10 => s.onBay h fun n t => t.powerOn h n
  | 0x11 => s.onBay h fun n t => t.stopBay h .powerOff cmdPowerOff false n
  | 0x12 => s.onBay h fun n t => t.stopBay h .prepareRemoval cmdPrepareRemoval true n
  | 0x13 => s.onBay h fun n t => t.clearFault h n
  | 0x14 => s.onBay h fun n t => t.setBaySlip h c.bayArgs n
  | 0x20 => s.onBay h fun n t => t.spinUp h (c.half 4) n
  | 0x21 => s.onBay h fun n t => t.spinDown h n
  | 0x22 => s.setScheduleSlip h c.scheduleArgs
  | 0x30 => s.setSupplySlip h c
  | 0x31 => s.setProfileSlip h c.profileArgs
  | 0x40 => s.setZoneSlip h c
  | 0x41 => s.setSensorSlip h c.sensorArgs
  | 0x50 => s.setFloorSlip h (c.half 4) (c.half 6)
  | 0x51 => s.setFansSlip h c.fansArgs
  | 0x52 => s.fanCheck h
  | 0x60 => s.setLight h c.lightArgs
  | 0x61 => s.setPatternSlip h c.patternArgs
  | 0x70 => s.setAttentionSlip h c.attentionArgs
  | 0x80 => s.storeSlip h
  | 0x81 => s.reloadSlip h
  | 0x82 => s.setWindowsSlip h { code := c.byte 4, base := c.half 6 }
  | _ => s.refuse h .badCommand

/-- TAKEN written into a slip's state byte (R158). -/
def State.markTaken (addr : Half) (s : State) : State := { s with ram := Memory.write s.ram addr.toNat 2 }

/-- The head a reader copies from the slip at an address. -/
def SlipCopy.head (c : SlipCopy) (p : Port) (addr : Half) : SlipHead :=
  { port := p, addr := addr, flags := c.byte 1, target := c.byte 3 }

/-- Takes the slip at an address (R158): the copy, TAKEN, the dispatch, and every report the dispatch made. -/
def State.takeAt (p : Port) (addr : Half) (s : State) : State :=
  let c : SlipCopy := { mem := s.ram, addr := addr.toNat }
  ((s.markTaken addr).dispatch (c.head p addr) (c.byte 2) c).settle

/-! ### The walk (R155 to R159) -/

/-- What a walking reader reads next: a link word, or the cursor's state byte. -/
inductive WalkPoint where
  | link (word : Half)
  | post
  deriving DecidableEq, Repr

/-- A reader comes to rest in a state, watching a word. -/
def State.rest (p : Port) (st : ReaderState) (watch : Half) (s : State) : State :=
  s.putReader p { s.reader p with state := st, watch := watch }

/-- A reader enters CHAIN_FAULT on a word, or stays in it (R161); only the entry raises CHAIN_FAULT. -/
def State.chainFault (p : Port) (word link : Half) (s : State) : State :=
  let r := s.reader p
  let t := s.putReader p { r with state := .chainFault, watch := word, badWord := word, badLink := link }
  if r.state = .chainFault then t else t.raise p srcChainFault

/-- A valid link makes its slip the cursor (R156); the reader is no longer at rest. -/
def State.toCursor (p : Port) (link : Half) (s : State) : State :=
  s.putReader p { s.reader p with state := .waitingPost, cursor := link, watch := link }

/-- A walk from a point, with room for `fuel` readings; `walkFuel` is never used up (log entry 32). -/
def State.walk (p : Port) : Nat → WalkPoint → State → State
  | 0, _, s => s.rest p .parked 0
  | fuel + 1, .link word, s =>
    let link := Memory.read16 s.ram word.toNat
    if link = 0 then s.rest p .parked word
    else if s.linkValid p link then State.walk p fuel .post (s.toCursor p link)
    else s.chainFault p word link
  | fuel + 1, .post, s =>
    let addr := (s.reader p).cursor
    if Memory.read s.ram addr.toNat ≠ 1 then s.rest p .waitingPost addr
    else if s.hasRoom p then
      let t := s.takeAt p addr
      if holdAfter (Memory.read s.ram (addr.toNat + 1)) then t.rest p .held (addr + 1)
      else State.walk p fuel (.link (addr + 28)) t
    else s.rest p .waitingRoom 0

/-- More readings than a walk can make: a slip is taken once at most, two readings each, and 16 bits of address hold 2048 positions. -/
def walkFuel : Nat := 4100

/-- A reader walks until it must wait; its record is republished (R155, R160). -/
def State.walkFrom (p : Port) (w : WalkPoint) (s : State) : State := (s.walk p walkFuel w).pubReader p

/-- A report of stored addresses to a reader (R155): it wakes when one of them lies in its watched word. -/
def State.wake (p : Port) (stored : List Nat) (s : State) : State :=
  let r := s.reader p
  let touched (len : Nat) : Bool := (List.range len).any fun k => stored.contains (r.watch.toNat + k)
  match r.state with
  | .parked | .chainFault => if touched 2 then s.walkFrom p (.link r.watch) else s
  | .waitingPost => if touched 1 then s.walkFrom p .post else s
  | .held =>
    if touched 1 = true ∧ holdAfter (Memory.read s.ram r.watch.toNat) = false then s.walkFrom p (.link (r.cursor + 28)) else s
  | _ => s

/-- A reader starts at its window's anchor (R156, R164, R165); without a window it is DISABLED, and until then it was IDLE_LOADING,
port B's of a part strapped for A only too (DESIGN CHOICE, log entry 46). -/
def State.startReader (p : Port) (s : State) : State :=
  match s.windows.get p with
  | none => (s.rest p .disabled 0).pubReader p
  | some w => s.walkFrom p (.link (BitVec.ofNat 16 (w.base + 0x1C)))

/-! ### A command row taken from a slip (log entry 7) -/

/-- The reader itself waits on this slip and is the one to take it. -/
def State.awaited (p : Port) (addr : Half) (s : State) : Bool :=
  ((s.reader p).state == .waitingPost || (s.reader p).state == .waitingRoom) && (s.reader p).cursor == addr

/-- A slip at this address can be taken now: the part runs, the port's reader is started and does not itself wait on the slip, the
address is a slip position of the window in force that no open slip holds, and the table has room (R156 to R158). -/
def State.takeable (h : SlipHead) (s : State) : Bool :=
  s.phase == .running && (s.reader h.port).state != .disabled && (s.reader h.port).state != .idleLoading &&
    !s.awaited h.port h.addr && s.linkValid h.port h.addr && s.hasRoom h.port

/-- The end of a slip command's handling: every report acted on, the reader record republished, every event delivered. -/
def State.finishSlip (p : Port) (s : State) : State := (s.settle.pubReader p).deliver

/-- A slip command by itself (R158 from its step 2 on): TAKEN is written, the block acts, the slip ends or stays open, and the handling
is finished. The reader does not move. -/
def State.slipCommand (h : SlipHead) (act : State → State) (s : State) : State :=
  if s.takeable h then (act (s.markTaken h.addr)).finishSlip h.port else s

end Sys2Proof.Machine
end

