-- ==== Sys2Proof/Machine/Layout.lean ====
section
/-! DEFINITION. The status area byte by byte (section 11.4): the records as last published, and the change bitmaps. -/

namespace Sys2Proof.Machine

/-! ### Pieces of a record: a byte, or nothing where Record Layouts states no value (log entry 20) -/

/-- Bytes with stated values. -/
def stated (l : List Byte) : List (Option Byte) := l.map some

/-- n bytes for which no value is stated. -/
def gap (n : Nat) : List (Option Byte) := List.replicate n none

/-- A part time that may be absent. -/
def timeField : Option Time → List (Option Byte)
  | none => gap 4
  | some t => stated (le32 t)

/-- A slip address that may be absent. -/
def addrField : Option Half → List (Option Byte)
  | none => gap 2
  | some a => stated (le16 a.toNat)

/-- A signed two-byte temperature (section 11). -/
def temp16 (t : Int) : List Byte := le16 (BitVec.ofInt 16 t).toNat

/-- A whole record: its generation at each end, its body from offset 1 (R166, Table 11-8). -/
def wholeRecord (size : Nat) (gen : Byte) (body : List (Option Byte)) : List (Option Byte) :=
  some gen :: (body ++ gap (size - 2 - body.length)) ++ [some gen]

/-! ### The records -/

/-- The code of an operation kind (Table 11-9). -/
def OpKind.code : OpKind → Nat
  | .settle => 1
  | .retryWait => 2
  | .spinUp => 3
  | .spinDown => 4
  | .powerOff => 5
  | .prepareRemoval => 6
  | .latchStop => 7

/-- The code of an operation's origin (Table 11-9). -/
def Origin.code : Origin → Nat
  | .internal => 0
  | .slip .a => 1
  | .slip .b => 2

/-- The twelve bytes of an operation record. -/
def opField : Option Operation → List (Option Byte)
  | none => stated [0, 0] ++ gap 10
  | some o =>
    stated [BitVec.ofNat 8 o.kind.code,
      BitVec.ofNat 8 (o.origin.code + 4 * bitsOf [o.slip.isSome, o.deadline.isSome, o.cancelMarked])] ++
      addrField o.slip ++ stated (le32 o.start) ++ timeField o.deadline

/-- A bay record (Table 11-9). -/
def BaySnap.bytes (b : BaySnap) : List (Option Byte) :=
  let r := b.record
  wholeRecord 48 r.gen
    (stated ([BitVec.ofNat 8 r.state.code, BitVec.ofNat 8 r.reason.code, BitVec.ofNat 8 b.set.policy.code,
        BitVec.ofNat 8 b.set.cls.val, BitVec.ofNat 8 b.set.zone.val, BitVec.ofNat 8 b.set.profile.val,
        BitVec.ofNat 8 (bitsOf [b.set.shedEligible, b.set.latchStop]), r.flags.byte, BitVec.ofNat 8 r.retries] ++
        le16 r.c12 ++ le16 r.c5 ++ le16 r.average ++ le16 r.trips.toNat ++ le16 r.insertions.toNat ++ le16 r.bounces.toNat ++
        le32 r.entered) ++
      opField r.op)

/-- The 32 bytes of two channels: slots, winner, slots, winner (Table 11-12). -/
def channelBytes (amber blue : Channel) : List (Option Byte) :=
  let one (c : Channel) : List (Option Byte) :=
    (c.slots.flatMap fun r => stated [slotByte r] ++ timeField (r.bind (·.expiry))) ++ stated [BitVec.ofNat 8 c.winnerCode]
  one amber ++ one blue

/-- A bay light record (Table 11-12). -/
def LightSnap.bytes (l : LightSnap) : List (Option Byte) :=
  wholeRecord 40 l.gen (channelBytes l.amber l.blue ++ stated [flagByte l.enable])

/-- The enclosure light record (Table 11-12). -/
def EnclosureSnap.bytes (e : EnclosureSnap) : List (Option Byte) :=
  wholeRecord 64 e.light.gen
    (channelBytes e.light.amber e.light.blue ++ stated (e.patterns.toList.flatMap fun p => [p.on, p.off]))

/-- The code of a fan state (Table 11-13). -/
def FanState.code : FanState → Nat
  | .unused => 0
  | .absent => 1
  | .starting => 2
  | .ok => 3
  | .failed => 4

/-- A fan record (Table 11-13). -/
def FanRecord.bytes (f : FanRecord) : List (Option Byte) :=
  wholeRecord 24 f.gen
    (stated ([BitVec.ofNat 8 f.state.code] ++ rpmField f.tach ++ [BitVec.ofNat 8 f.low, BitVec.ofNat 8 f.high, flagByte f.weak] ++
        rpmField f.lastCheck ++ le32 f.entered) ++ timeField f.startingAt)

/-- A supply record (Table 11-13). -/
def SupplySnap.bytes (u : SupplySnap) : List (Option Byte) :=
  wholeRecord 16 u.supply.gen
    (stated ([flagByte u.supply.present, flagByte u.supply.good, BitVec.ofNat 8 u.supply.state.code] ++ u.set.bytes))

/-- A sensor record (Table 11-13). -/
def SensorSnap.bytes (u : SensorSnap) : List (Option Byte) :=
  wholeRecord 16 u.sensor.gen
    (stated (u.set.bytes ++ [BitVec.ofNat 8 u.sensor.state.code]) ++
      (match u.sensor.raw with
       | none => gap 2
       | some t => stated (temp16 t)) ++
      stated [BitVec.ofNat 8 u.sensor.fails] ++ timeField u.sensor.goodAt)

/-- The codes of a zone's state and condition (Table 11-14). -/
def ZoneState.code : ZoneState → Nat
  | .normal => 0
  | .hold => 1
  | .critical => 2

/-- The code of a zone's condition. -/
def ZoneCondition.code : ZoneCondition → Nat
  | .complete => 0
  | .partly => 1
  | .blind => 2
  | .noSources => 3

/-- The hottest source: its kind and its number. -/
def sourceField : Option Source → List (Option Byte)
  | none => stated [0] ++ gap 1
  | some (.sensor i) => stated [1, BitVec.ofNat 8 i.val]
  | some (.bay n) => stated [2, BitVec.ofNat 8 n.val]

/-- The code of a critical timer and its expiry. -/
def CriticalTimer.code : CriticalTimer → Nat
  | .stopped => 0
  | .running _ => 1
  | .spent => 2

/-- A critical timer's expiry, while it runs. -/
def CriticalTimer.expiry : CriticalTimer → Option Time
  | .running t => some t
  | _ => none

/-- A curve in a zone record: signed temperatures and duties (Table 11-14). -/
def Curve.recordBytes (c : Curve) : List Byte :=
  temp16 c.p1.t ++ le16 c.p1.d ++ temp16 c.p2.t ++ le16 c.p2.d ++ temp16 c.p3.t ++ le16 c.p3.d ++ temp16 c.p4.t ++ le16 c.p4.d

/-- A zone record (Table 11-14). -/
def ZoneSnap.bytes (z : ZoneSnap) : List (Option Byte) :=
  let r := z.zone
  wholeRecord 64 r.gen
    (stated ([BitVec.ofNat 8 r.state.code, BitVec.ofNat 8 r.condition.code, flagByte r.t.isSome] ++ temp16 r.e) ++
      (match r.t with
       | none => gap 2
       | some t => stated (temp16 t)) ++
      sourceField r.hottest ++
      stated [BitVec.ofNat 8 r.valid, BitVec.ofNat 8 r.pending, BitVec.ofNat 8 r.missing, BitVec.ofNat 8 r.vacancy,
        BitVec.ofNat 8 r.timer.code, BitVec.ofNat 8 z.set.limits.h] ++
      timeField r.timer.expiry ++
      stated (z.set.curve.recordBytes ++ temp16 z.set.limits.ceiling ++ temp16 z.set.limits.critical ++
        [BitVec.ofNat 8 z.set.limits.v]) ++
      gap 1 ++
      stated (le16 z.set.limits.staleFloor ++ le16 z.set.limits.shedTime ++ le16 z.staleTime))

/-- An open-slip entry in eight bytes (Table 11-15). -/
def OpenSlip.bytes (e : OpenSlip) : List Byte := le16 e.addr.toNat ++ [e.command, flagByte e.attn] ++ le32 e.taken

/-- A reader record (Table 11-15); unused entries zero. The entries stand in the order of the takes, with no gap (DESIGN CHOICE, log
entry 38: the manual does not say which place an entry takes). -/
def Reader.bytes (r : Reader) : List (Option Byte) :=
  wholeRecord 160 r.gen
    (stated ([BitVec.ofNat 8 r.state.code] ++ le16 r.cursor.toNat ++ le16 r.watch.toNat ++ [BitVec.ofNat 8 r.table.length] ++
        le16 r.badWord.toNat ++ le16 r.badLink.toNat) ++
      gap 5 ++
      stated ((r.table.flatMap OpenSlip.bytes ++ List.replicate 128 0).take 128))

/-- A source in an attention record: two bytes (Table 11-15). -/
def sourceBytes (c : SourceConfig) (pending : Bool) : List Byte :=
  [BitVec.ofNat 8 (bitsOf [c.enable, c.auto, pending] + 16 * c.level), c.vector]

/-- An attention record (Table 11-15). -/
def AttentionSnap.bytes (a : AttentionSnap) : List (Option Byte) :=
  wholeRecord 32 a.unit.gen
    (stated (((List.finRange 8).flatMap fun i => sourceBytes a.config[i] a.unit.pending[i]) ++ [a.unit.inService]))

/-- The code of the strapped bay count (Table 11-10). -/
def BayCount.code : BayCount → Nat
  | .c24 => 0
  | .c36 => 1
  | .c48 => 2
  | .c60 => 3

/-- A port floor in a summary record: its duty, 0 when absent, and its expiry. -/
def floorField (f : Option Floor) : List (Option Byte) := stated (le16 (floorDuty f)) ++ timeField (f.bind (·.expiry))

/-- The summary record (Table 11-10). -/
def Summary.bytes (u : Summary) : List (Option Byte) :=
  let a := u.account
  let c := u.cooling
  wholeRecord 64 u.gen
    (stated ([BitVec.ofNat 8 (BayCount.code u.straps.bays + 4 * bitsOf [u.straps.portB, u.straps.store]),
        (match u.origin with | .image => 0 | .defaults => 1), BitVec.ofNat 8 u.cause.code] ++ le32 u.time ++
        le16 a.usable12 ++ le16 a.usable5 ++ le16 a.committed12 ++ le16 a.committed5 ++ le16 a.fanRes ++
        [a.flags, BitVec.ofNat 8 a.spinning, BitVec.ofNat 8 a.queued,
         BitVec.ofNat 8 (bitsOf [c.coolingLost, c.check.isSome, (c.check.map (·.1)) == some .b])] ++
        le16 c.c ++ le16 c.cprev ++ le16 c.draw ++ le16 c.dcomp ++ c.demands.toList.flatMap le16) ++
      floorField c.floors.a ++ floorField c.floors.b ++ timeField (c.check.map (·.2)) ++
      stated [BitVec.ofNat 8 (bitsOf [(c.floors.a.bind (·.expiry)).isSome, (c.floors.b.bind (·.expiry)).isSome])])

/-- The code of a hold reason (Table 11-11). -/
def HoldReason.code : HoldReason → Nat
  | .none => 0
  | .concurrency => 1
  | .stagger => 2
  | .thermal => 3
  | .overCommitted => 4
  | .budget => 5

/-- The queue snapshot (Table 11-11). -/
def QueueSnap.bytes (q : QueueSnap) : List (Option Byte) :=
  wholeRecord 80 q.gen
    (stated ([BitVec.ofNat 8 q.bays.length, BitVec.ofNat 8 q.hold.code, BitVec.ofNat 8 q.schedule.limit] ++
        le16 q.schedule.stagger ++ [flagByte q.last.isSome]) ++
      timeField q.last ++
      stated ((q.bays.map (fun (n : BayNo) => BitVec.ofNat 8 n.val) ++ List.replicate 60 0xFF).take 60))

/-! ### The area (Table 11-8) -/

/-- The pieces of a record as published; none of a record not yet published, which reads 0x00 (R169). -/
def piecesOf {α : Type} (bytes : α → List (Option Byte)) : Option α → List (Option Byte)
  | none => []
  | some x => bytes x

/-- The byte of a record at an offset, given the byte's address. -/
def recordByte (r : List (Option Byte)) (k addr : Nat) : Byte :=
  match r[k]? with
  | some (some b) => b
  | some none => Config.unstatedByte addr
  | none => 0

/-- Byte k of a change bitmap (section 11.4): position p at byte p / 8, bit p mod 8. -/
def bitmapByte (b : BitVec 80) (k : Nat) : Byte := b.extractLsb' (8 * k) 8

/-- The byte of a group of n records of one size that starts at `base`. -/
def groupByte {α : Type} {n : Nat} (v : Vector (Option α) n) (bytes : α → List (Option Byte)) (base size a : Nat) : Byte :=
  if h : (a - base) / size < n then recordByte (piecesOf bytes v[(a - base) / size]) ((a - base) % size) a else 0

/-- The byte of the status area at an address (Table 11-8); a byte of no record reads 0x00 (R166), and so does a bay light record
beyond the strapped count, which is never published (R142). -/
def State.statusByte (s : State) (a : Nat) : Byte :=
  let t := s.status
  if a < 0x0040 then recordByte (piecesOf Summary.bytes t.summary) a a
  else if a < 0x0090 then recordByte (piecesOf QueueSnap.bytes t.queue) (a - 0x0040) a
  else if a < 0x00D0 then recordByte (piecesOf EnclosureSnap.bytes t.enclosure) (a - 0x0090) a
  else if a < 0x00DA then bitmapByte t.bitmaps.a (a - 0x00D0)
  else if a < 0x00E0 then 0
  else if a < 0x00EA then bitmapByte t.bitmaps.b (a - 0x00E0)
  else if a < 0x0100 then 0
  else if a < 0x01A0 then recordByte (piecesOf Reader.bytes t.readers.a) (a - 0x0100) a
  else if a < 0x0240 then recordByte (piecesOf Reader.bytes t.readers.b) (a - 0x01A0) a
  else if a < 0x0260 then recordByte (piecesOf AttentionSnap.bytes t.attention.a) (a - 0x0240) a
  else if a < 0x0280 then recordByte (piecesOf AttentionSnap.bytes t.attention.b) (a - 0x0260) a
  else if a < 0x02C0 then groupByte t.supplies SupplySnap.bytes 0x0280 16 a
  else if a < 0x0350 then groupByte t.fans FanRecord.bytes 0x02C0 24 a
  else if a < 0x03D0 then groupByte t.sensors SensorSnap.bytes 0x0350 16 a
  else if a < 0x0400 then 0
  else if a < 0x0500 then groupByte t.zones ZoneSnap.bytes 0x0400 64 a
  else if a < 0x1040 then groupByte t.bays BaySnap.bytes 0x0500 48 a
  else if a < 0x19A0 then groupByte t.lights LightSnap.bytes 0x1040 40 a
  else 0

end Sys2Proof.Machine
end

