-- ==== Sys2Proof/Machine/Links.lean ====
section
/-! DEFINITION. The two port links (sections 7.2, 7.6, 8.4, 11.1): what one transaction reads and writes, the port registers, the port
reset, and the link commands. -/

namespace Sys2Proof.Machine

/-! ### Registers (Table 11-3) -/

/-- An Attention Unit after TAKE chose source i at a level: its pending flag clears, its level is in service (R172). -/
def AttentionUnit.taken (i : Fin 8) (level : Nat) (u : AttentionUnit) : AttentionUnit :=
  { u with pending := u.pending.set i false, inService := u.inService ||| BitVec.twoPow 8 level }

/-- The state after a TAKE that chose source i: auto-disable clears its enable (R172, log entry 17). -/
def State.takeSource (p : Port) (i : Fin 8) (s : State) : State :=
  let config := s.settings.attention.get p
  let c := config[i]
  ({ s with
    settings := { s.settings with attention := s.settings.attention.put p (config.set i { c with enable := c.enable && !c.auto }) }
    attention := s.attention.put p ((s.attention.get p).taken i c.level) }).pubAttention p

/-- A read of TAKE: the byte and the state after it (R172). -/
def State.readTake (p : Port) (s : State) : Byte × State :=
  match s.takeChoice p with
  | none => (0xFF, s)
  | some i => ((s.settings.attention.get p)[i].vector, s.takeSource p i)

/-- A write to DONE removes the highest level in service (R173). -/
def State.writeDone (p : Port) (s : State) : State :=
  let u := s.attention.get p
  if u.inService = 0 then s
  else
    let u' := { u with inService := u.inService &&& ~~~(BitVec.twoPow 8 (highestLevel u.inService)) }
    ({ s with attention := s.attention.put p u' }).pubAttention p

/-! ### READ (R149, R168) -/

/-- The address is a byte of a port's own change bitmap, numbered from 0 (Table 11-8). -/
def ownBitmapByte (p : Port) (a : Nat) : Option Nat :=
  let base := match p with | .a => 0x00D0 | .b => 0x00E0
  if base ≤ a ∧ a < base + 10 then some (a - base) else none

/-- The positions a served byte of a port's own bitmap returned as set are cleared (R168). -/
def State.clearServed (p : Port) (k : Nat) (s : State) : State :=
  let b := s.status.bitmaps.get p
  { s with status := { s.status with
      bitmaps := s.status.bitmaps.put p (b &&& ~~~((bitmapByte b k).setWidth 80 <<< (8 * k))) } }

/-- The byte of the window range at an address: held only within a window in force (R146). -/
def State.windowByte (s : State) (a : Nat) : Byte :=
  let inside (w : Option Window) : Bool := match w with | none => false | some w => w.holds a
  if inside s.windows.a || inside s.windows.b then Memory.read s.ram a else 0

/-- One byte served by a READ of port p that started at `start` (R149): the byte and the state after it. -/
def State.readByte (p : Port) (start a : Nat) (s : State) : Byte × State :=
  if s.phase = .loading then (0xFF, s)
  else if a < 0x2000 then
    match ownBitmapByte p a with
    | none => (s.statusByte a, s)
    | some k => (s.statusByte a, s.clearServed p k)
  else if a < 0x8000 then (s.windowByte a, s)
  else if start < 0x8000 then (0, s)
  else if a = 0x8000 then s.readTake p
  else if a = 0x8001 then (BitVec.ofNat 8 (highestLevel (s.attention.get p).inService), s)
  else if a = 0x8002 then (BitVec.ofNat 8 (s.reader p).state.code, s)
  else (0, s)

/-- The bytes a READ serves from an address upward, each at the moment it is served, and the state after them. -/
def State.readRun (p : Port) (start : Nat) : Nat → Nat → State → List Byte × State
  | 0, _, s => ([], s)
  | n + 1, a, s =>
    let r := s.readByte p start a
    let t := State.readRun p start n (a + 1) r.2
    (r.1 :: t.1, t.2)

/-- The bytes a transaction drove on data out. -/
def State.putOut (p : Port) (out : List Byte) (s : State) : State :=
  { s with links := s.links.put p { s.links.get p with out := out } }

/-- A READ transaction (R149). -/
def State.readTransaction (p : Port) (start count : Nat) (s : State) : State :=
  let r := s.readRun p start count start
  r.2.putOut p r.1

/-! ### Port reset (R164) -/

/-- Step 1: every open slip ends ABANDONED, with no result data and no SLIP_ENDED. -/
def State.abandonSlips (p : Port) (s : State) : State :=
  let t := (s.reader p).table.foldl
    (fun t e => t.endAt p e.addr false .abandoned (resultFlags e.clamped false) none) s
  t.putReader p { t.reader p with table := [] }

/-- An operation without the slip of a port (R28). -/
def Operation.forget (p : Port) (o : Operation) : Operation := if o.origin = .slip p then { o with slip := none } else o

/-- Step 2: bay operations and queue entries, the fan check and the store operation lose the port's slips (R28, R81, R127). -/
def State.forgetSlips (p : Port) (s : State) : State :=
  let mine (n : BayNo) : Bool :=
    match (s.bay n).record.op with
    | some o => o.origin == .slip p
    | none => false
  let queue := s.scheduler.queue.map fun e => if mine e.bay then { e with slip := none } else e
  let t := { s with scheduler := { s.scheduler with queue := queue } }
  let u := bayNumbers.foldl (fun t n =>
    let op := (t.bay n).record.op.map (Operation.forget p)
    if op = (t.bay n).record.op then t else (t.setOp n op).pubBay n) t
  { u with
    fans := { u.fans with check := u.fans.check.map fun k => if k.origin = p then { k with slip := none } else k }
    store := match u.store with
      | .storing q a image => .storing q (if q = p then none else a) image
      | .reloading q a => .reloading q (if q = p then none else a)
      | .none => .none }

/-- An Attention Unit with its pending flags and in-service set cleared, its configuration and generation kept (R175). -/
def AttentionUnit.cleared (u : AttentionUnit) : AttentionUnit := { u with pending := Vector.replicate 8 false, inService := 0 }

/-- Step 3, attention: the port's pending and in-service state is cleared, and its record is republished, by every port reset (R175). -/
def State.clearAttention (p : Port) (s : State) : State :=
  ({ s with attention := s.attention.put p (s.attention.get p).cleared }).republishAttention p

/-- The port is present by its strap (R176). -/
def State.portStrapped (s : State) (p : Port) : Bool :=
  match p with
  | .a => true
  | .b => s.straps.portB

/-- Step 4: the port's window from its live setting, checked beside the other port's window in force (R147). -/
def State.validWindow (p : Port) (s : State) : Option Window :=
  if s.portStrapped p then
    match windowOf (s.settings.windows.get p), s.windows.get (Port.other p) with
    | none, _ => none
    | some v, none => some v
    | some v, some o => if v.overlaps o then none else some v
  else none

/-- Steps 4 and 5: the window put in force; moved, it is cleared and the port's feed is voided; invalid, the feed is voided (R88). -/
def State.resetWindow (p : Port) (s : State) : State :=
  let t := { s with windows := s.windows.put p (s.validWindow p) }
  match s.validWindow p with
  | none => t.voidPortFeed p
  | some w =>
    if s.windows.get p = some w then t else ({ t with ram := Memory.clear s.ram w.base w.size }).voidPortFeed p

/-- A reader with its cursor and its last invalid link set to 0 (R160), not yet started. -/
def State.clearReader (p : Port) (s : State) : State :=
  s.putReader p { s.reader p with state := .disabled, cursor := 0, watch := 0, badWord := 0, badLink := 0 }

/-- Step 6: the reader acts on the anchor's link as at a start, or is DISABLED; its record is republished, though none of its fields changed
(DESIGN CHOICE, log entry 45: R164 republishes it without a condition, R160 and R169 a record that the steps change). -/
def State.restartReader (p : Port) (s : State) : State :=
  (match s.windows.get p with
   | none => s.rest p .disabled 0
   | some w => s.walk p walkFuel (.link (BitVec.ofNat 16 (w.base + 0x1C)))).republishReader p

/-- Steps 1 to 3 of a port reset (R164): the open slips end and are forgotten; slots, floor and attention state clear. -/
def State.clearPort (p : Port) (s : State) : State :=
  let ended := (s.abandonSlips p).forgetSlips p
  ((ended.emptyPortSlots p).putFloor p none).clearAttention p

/-- A port reset, its steps in order (R164). Within start-up it takes steps 1 to 3 alone: step 8 of start-up makes the others (R179). -/
def State.resetPort (p : Port) (s : State) : State :=
  let cleared := s.clearPort p
  if s.phase = .starting then cleared else ((cleared.resetWindow p).clearReader p).restartReader p

/-! ### WRITE (R150) -/

/-- WRITE_DENIED set (R151). -/
def State.deny (p : Port) (s : State) : State :=
  { s with links := s.links.put p { s.links.get p with denied := true } }

/-- The address lies in a port's own window in force (R150). -/
def State.ownWindow (p : Port) (a : Nat) (s : State) : Bool :=
  match s.windows.get p with
  | none => false
  | some w => w.holds a

/-- One byte of a WRITE of port p that started at `start` (R150). -/
def State.writeByte (p : Port) (start a : Nat) (v : Byte) (s : State) : State :=
  if s.ownWindow p a then { s with ram := Memory.write s.ram a v }
  else if start < 0x8000 then s.deny p
  else if a = 0x8000 then s
  else if a = 0x8001 then s.writeDone p
  else if a = 0x8002 then s.resetPort p
  else s.deny p

/-- The bytes of a WRITE from an address upward. -/
def State.writeBytes (p : Port) (start : Nat) : Nat → List Byte → State → State
  | _, [], s => s
  | a, v :: t, s => State.writeBytes p start (a + 1) t (s.writeByte p start a v)

/-- The addresses a WRITE of n bytes from `start` stores: those below 0x8000 that lie in the port's own window (R150). -/
def State.storedBy (p : Port) (start n : Nat) (s : State) : List Nat :=
  ((List.range n).map (start + ·)).filter fun a => s.ownWindow p a

/-- A WRITE transaction (R150): discarded while the settings load runs; else its bytes, then one report of the stored addresses to
the Thermal Zone Unit and to the reader. -/
def State.writeTransaction (p : Port) (start : Nat) (data : List Byte) (s : State) : State :=
  let t :=
    if s.phase = .loading then s
    else
      let stored := s.storedBy p start data.length
      (((s.writeBytes p start start data).feedWrites p stored).wake p stored).close
  t.putOut p (List.replicate data.length 0)

/-! ### STATUS (R151) and void transactions (R184) -/

/-- A STATUS transaction: the byte is sampled once and repeated; a STATUS that drives it clears WRITE_DENIED. -/
def State.statusTransaction (p : Port) (count : Nat) (s : State) : State :=
  let l : Link := { denied := (s.links.get p).denied && decide (count = 0), out := List.replicate count (s.linkStatus p) }
  { s with links := s.links.put p l }

/-- A void transaction: data out holds 0x00; nothing is read, stored or denied. -/
def State.idleTransaction (p : Port) (count : Nat) (s : State) : State := s.putOut p (List.replicate count 0)

/-! ### The link commands -/

/-- READ (R149). -/
def execRead (p : Port) (addr : Half) (count : Nat) (s : State) : Host.Outcome State Fault Refusal :=
  .next (s.readTransaction p addr.toNat count)

/-- WRITE (R150). -/
def execWrite (p : Port) (addr : Half) (data : List Byte) (s : State) : Host.Outcome State Fault Refusal :=
  .next (s.writeTransaction p addr.toNat data)

/-- WAITING_ROOM_WAKE (R157): a reader in WAITING_ROOM whose table has room reads its cursor's state byte again. -/
def execWaitingRoomWake (p : Port) (s : State) : Host.Outcome State Fault Refusal :=
  .next (if s.phase = .running ∧ (s.reader p).state = .waitingRoom ∧ s.hasRoom p = true then (s.walkFrom p .post).close else s)

/-- STATUS (R151, R184). -/
def execStatus (p : Port) (count : Nat) (s : State) : Host.Outcome State Fault Refusal := .next (s.statusTransaction p count)

/-- VOID_TRANSACTION (R184). -/
def execVoidTransaction (p : Port) (_opcode : Byte) (count : Nat) (s : State) : Host.Outcome State Fault Refusal :=
  .next (s.idleTransaction p count)

/-- TAKE (R172): a READ of the register TAKE. -/
def execTake (p : Port) (s : State) : Host.Outcome State Fault Refusal := .next (s.readTransaction p 0x8000 1)

/-- DONE (R173): a WRITE of one byte to the register DONE. -/
def execDone (p : Port) (value : Byte) (s : State) : Host.Outcome State Fault Refusal :=
  .next (s.writeTransaction p 0x8001 [value])

/-- PORT_RESET (R164): a WRITE of one byte to the register CONTROL. -/
def execPortReset (p : Port) (value : Byte) (s : State) : Host.Outcome State Fault Refusal :=
  .next (s.writeTransaction p 0x8002 [value])

/-- REGISTER_WRITE_DISCARDED (R150): a WRITE of one byte to the register TAKE. -/
def execRegisterWriteDiscarded (p : Port) (value : Byte) (s : State) : Host.Outcome State Fault Refusal :=
  .next (s.writeTransaction p 0x8000 [value])

end Sys2Proof.Machine
end

