-- ==== Sys2Proof/Machine/BayEvents.lean ====
section
/-! DEFINITION. The events of a bay: its inputs, its timers and the stagger expiry (chapters 1 and 3). An expiry is taken only when its
timer runs and its time has come; otherwise the command changes nothing (log entries 1 and 8). -/

namespace Sys2Proof.Machine

/-- The part runs: no settings load is under way. -/
def State.running (s : State) : Bool := s.phase == .running

/-! ### Presence (R6, R7) -/

/-- A bay enters SETTLING with a full settle timer and a SETTLE operation (R6). -/
def State.enterSettling (n : BayNo) (s : State) : State :=
  (s.enter n .settling .presence).setOp n (some (s.internalOp .settle))

/-- An asserted presence input, taken (R6, R7). -/
def State.takePresence (n : BayNo) (s : State) : State :=
  let b := s.bay n
  match b.record.state with
  | .empty => ((s.enterSettling n).bayChanged n none).close
  | .settling => s.putBay n { b with settleAt := some (Time.plus s.time s.settings.timing.settle), absenceAt := none }
  | _ => s.putBay n { b with absenceAt := none }

/-- A deasserted presence input, taken (R6, R7): the absence timer starts; in SETTLING the settle timer stops. -/
def State.takeAbsence (n : BayNo) (s : State) : State :=
  let b := s.bay n
  let at' := some (Time.plus s.time s.settings.timing.debounce)
  match b.record.state with
  | .empty => s
  | .settling => s.putBay n { b with settleAt := none, absenceAt := at' }
  | _ => s.putBay n { b with absenceAt := at' }

/-- PRESENCE_ASSERT (R6, R7): an input that already reads asserted gives no event; none is taken during the load or beyond the count. -/
def execPresenceAssert (n : BayNo) (s : State) : Host.Outcome State Fault Refusal :=
  let t := s.putLine n { s.line n with presence := true }
  .next (if (s.line n).presence = false ∧ s.running = true ∧ s.inCount n = true then t.takePresence n else t)

/-- PRESENCE_DEASSERT (R6, R7). -/
def execPresenceDeassert (n : BayNo) (s : State) : Host.Outcome State Fault Refusal :=
  let t := s.putLine n { s.line n with presence := false }
  .next (if (s.line n).presence = true ∧ s.running = true ∧ s.inCount n = true then t.takeAbsence n else t)

/-- Bay n's insertion count one higher (R6). -/
def State.countInsertion (n : BayNo) (s : State) : State :=
  s.putBay n { s.bay n with record := { (s.bay n).record with insertions := (s.bay n).record.insertions + 1 } }

/-- Bay n's bounce count one higher (R6). -/
def State.countBounce (n : BayNo) (s : State) : State :=
  s.putBay n { s.bay n with record := { (s.bay n).record with bounces := (s.bay n).record.bounces + 1 } }

/-- The settle timer expires (R6): OFF with the latch as it reads, BAY_CHANGE, then the policy. -/
def State.settleBay (n : BayNo) (s : State) : State :=
  let t := (((s.countInsertion n).enter n .off .inserted).setOp n none).setFlags n fun f => { f with latchOpen := (s.line n).latch }
  (((t.bayChanged n (some srcBayChange)).applyPolicy n)).close

/-- SETTLE_EXPIRY (R6). -/
def execSettleExpiry (n : BayNo) (s : State) : Host.Outcome State Fault Refusal :=
  .next (if s.running = true ∧ (s.bay n).record.state = .settling ∧ Time.due s.time (s.bay n).settleAt = true then s.settleBay n else s)

/-- The absence timer expires in SETTLING (R6): back to EMPTY with no event. -/
def State.bounceBay (n : BayNo) (s : State) : State :=
  ((((s.countBounce n).enter n .empty .bounce).setOp n none).bayChanged n none).close

/-- BOUNCE (R6). -/
def execBounce (n : BayNo) (s : State) : Host.Outcome State Fault Refusal :=
  .next (if s.running = true ∧ (s.bay n).record.state = .settling ∧ Time.due s.time (s.bay n).absenceAt = true then s.bounceBay n else s)

/-- A bay is removed (R20), its steps in the rule's order: the slip of its operation ends before the flags and the state change. -/
def State.removeBay (n : BayNo) (s : State) : State :=
  let r := (s.bay n).record
  let ended := ((s.leave n).endOpSlip r.op .removed (bayResult s n)).setOp n none
  let gone := (((ended.setRetries n 0).voidBayFeed n).enter n .empty .removed)
  (gone.bayChanged n (some (if r.state.powered then srcBayFault else srcBayChange))).close

/-- SURPRISE_REMOVAL (R20). -/
def execSurpriseRemoval (n : BayNo) (s : State) : Host.Outcome State Fault Refusal :=
  .next (if s.running = true ∧ (s.bay n).record.state.fromOff = true ∧ Time.due s.time (s.bay n).absenceAt = true then s.removeBay n
    else s)

/-! ### Latch (R8, R21) -/

/-- The latch taken as open (R8): LATCH_OPEN, BAY_CHANGE, and a latch stop on a powered bay with action STOP. -/
def State.takeLatchOpen (n : BayNo) (s : State) : State :=
  let t := s.setFlags n fun f => { f with latchOpen := true }
  (if (s.bay n).record.state.powered && (s.baySet n).latchStop then t.latchStop n else t.bayChanged n (some srcBayChange)).close

/-- LATCH_OPEN (R8): not taken in EMPTY and SETTLING, nor when LATCH_OPEN is set already. -/
def execLatchOpen (n : BayNo) (s : State) : Host.Outcome State Fault Refusal :=
  let t := s.putLine n { s.line n with latch := true }
  .next (if s.running = true ∧ (s.bay n).record.state.fromOff = true ∧ (s.bay n).record.flags.latchOpen = false then t.takeLatchOpen n
    else t)

/-- LATCH_CLOSE (R8). -/
def execLatchClose (n : BayNo) (s : State) : Host.Outcome State Fault Refusal :=
  let t := s.putLine n { s.line n with latch := false }
  .next (if s.running = true ∧ (s.bay n).record.state.fromOff = true ∧ (s.bay n).record.flags.latchOpen = true then
      ((t.setFlags n fun f => { f with latchOpen := false }).bayChanged n (some srcBayChange)).close
    else t)

/-! ### Trips and retries (R17, R18) -/

/-- The backoff of a retry wait in seconds (R18). -/
def backoffSeconds (base retries : Nat) : Nat := min Config.backoffCapS (base * 2 ^ retries)

/-- A bay just come to FAULTED begins a RETRY_WAIT when its retry count is below the limit (R17). -/
def State.beginRetry (n : BayNo) (s : State) : State :=
  let b := s.bay n
  if b.record.retries < s.settings.timing.retryLimit then
    s.putBay n { b with
      record := { b.record with op := some (s.internalOp .retryWait) }
      backoffAt := some (Time.plus s.time (backoffSeconds s.settings.timing.retryBase b.record.retries * 1000)) }
  else s.setOp n none

/-- Bay n's trip count one higher (R17). -/
def State.countTrip (n : BayNo) (s : State) : State :=
  s.putBay n { s.bay n with record := { (s.bay n).record with trips := (s.bay n).record.trips + 1 } }

/-- A trip is taken (R17). -/
def State.tripBay (n : BayNo) (s : State) : State :=
  let op := (s.bay n).record.op
  let t := ((((s.leave n).enter n .faulted .trip).countTrip n).beginRetry n).bayChanged n (some srcBayFault)
  (t.endOpSlip op .faulted (bayResult t n)).close

/-- SWITCH_TRIP (R17): a switch reports a trip only while enabled; taken in the powered states. -/
def execSwitchTrip (n : BayNo) (s : State) : Host.Outcome State Fault Refusal :=
  let l := s.line n
  let t := s.putLine n { l with trip := l.trip || l.sw5 || l.sw12 }
  .next (if s.running = true ∧ (s.bay n).record.state.powered = true then t.tripBay n else t)

/-- A retry wait ends (R18): OFF, the retry count one higher, BAY_CHANGE, then the policy. -/
def State.retryBay (n : BayNo) (s : State) : State :=
  let t := (((s.setRetries n ((s.bay n).record.retries + 1)).setOp n none).enter n .off .retry).bayChanged n (some srcBayChange)
  (t.applyPolicy n).close

/-- BACKOFF_EXPIRY (R18). -/
def execBackoffExpiry (n : BayNo) (s : State) : Host.Outcome State Fault Refusal :=
  .next (if s.running = true ∧ (s.bay n).record.state = .faulted ∧ Time.due s.time (s.bay n).backoffAt = true then s.retryBay n else s)

/-! ### Spin window, park window, stagger, deadline (R16, R60, R66, R71) -/

/-- The spin window ends (R66): READY, the SPIN_UP operation over with OK. -/
def State.spunUp (n : BayNo) (s : State) : State :=
  let op := (s.bay n).record.op
  let t := ((s.enter n .ready .spunUp).setOp n none).bayChanged n (some srcBayChange)
  (t.endOpSlip op .ok (bayResult t n)).close

/-- SPIN_WINDOW_END (R66). -/
def execSpinWindowEnd (n : BayNo) (s : State) : Host.Outcome State Fault Refusal :=
  .next (if s.running = true ∧ (s.bay n).record.state = .spinningUp ∧ Time.due s.time (s.bay n).spinAt = true then s.spunUp n else s)

/-- The park window ends (R16): to LOGIC after a SPIN_DOWN or a cancelled SPIN_UP, to OFF after a stop. -/
def State.parked (n : BayNo) (s : State) : State :=
  let op := (s.bay n).record.op
  if stopInFlight op then
    let t := (((s.enter n .off .parked).setOp n none).setFlags n fun f => { f with removalReady := readiesRemoval op }).bayChanged n
      (some srcBayChange)
    (t.endOpSlip op .ok (bayResult t n)).close
  else
    let t := ((s.enter n .logic .parked).setOp n none).bayChanged n (some srcBayChange)
    let o : SlipOutcome := match op with
      | some { kind := .spinUp, .. } => .cancelled
      | _ => .ok
    (t.endOpSlip op o (bayResult t n)).close

/-- PARK_WINDOW_END (R16). -/
def execParkWindowEnd (n : BayNo) (s : State) : Host.Outcome State Fault Refusal :=
  .next (if s.running = true ∧ (s.bay n).record.state = .spinningDown ∧ Time.due s.time (s.bay n).parkAt = true then s.parked n else s)

/-- STAGGER_EXPIRY (R60): an admission opportunity; the expiry is armed no more. -/
def execStaggerExpiry (s : State) : Host.Outcome State Fault Refusal :=
  .next (if s.running = true ∧ Time.due s.time s.scheduler.staggerAt = true then
      ({ s with
        scheduler := { s.scheduler with staggerAt := none }
        reports := { s.reports with pass := true } }).close
    else s)

/-- The deadline of bay n's operation, if it has one. -/
def State.deadlineOf (s : State) (n : BayNo) : Option Time := (s.bay n).record.op.bind (·.deadline)

/-- A SPIN_UP deadline is reached in the queue (R71). -/
def State.timeOut (n : BayNo) (s : State) : State :=
  let op := (s.bay n).record.op
  let t := (((s.leave n).enter n .logic .deadline).setOp n none).bayChanged n (some srcBayChange)
  (t.endOpSlip op .timedOut (bayResult t n)).close

/-- DEADLINE_EXPIRY (R71). -/
def execDeadlineExpiry (n : BayNo) (s : State) : Host.Outcome State Fault Refusal :=
  .next (if s.running = true ∧ (s.bay n).record.state = .queued ∧ Time.due s.time (s.deadlineOf n) = true then s.timeOut n else s)

end Sys2Proof.Machine
end

