-- ==== Sys2Proof/Machine/BlockEvents.lean ====
section
/-! DEFINITION. The events of the supplies, the sensors, the cooling period, the fans, the lights and the settings store. -/

namespace Sys2Proof.Machine

/-! ### Supplies and current (R32, R39 to R43) -/

/-- SUPPLY_INPUT_CHANGE (R32): not taken during the load, nor on a slot that is not fitted (R31). -/
def execSupplyInputChange (i : Fin 4) (present good : Bool) (s : State) : Host.Outcome State Fault Refusal :=
  let t := { s with supplyLines := s.supplyLines.set i { present := present, good := good } }
  .next (if s.running = true ∧ s.settings.supplies[i].fitted = true then (t.takeSupply i).close else t)

/-- SHED_DELAY_EXPIRY (R43, R44): a shed run starts. -/
def execShedDelayExpiry (s : State) : Host.Outcome State Fault Refusal :=
  .next (if s.running = true ∧ Time.due s.time s.account.shedTimer = true then
      ({ s with
        account := { s.account with shedTimer := none, delayExpired := true }
        reports := { s.reports with run := true } }).close
    else s)

/-- A window with a sample joined: at most 16, the oldest leaving (R39). -/
def joinSample (l : List Nat) (x : Nat) : List Nat := (if l.length < Config.sampleWindow then l else l.drop 1) ++ [x]

/-- The measured average of a window: the ceiling of the mean (R39). -/
def averageOf (l : List Nat) : Nat := if l.length = 0 then 0 else (l.sum + (l.length - 1)) / l.length

/-- The bay's 10 s in READY have passed (R40). -/
def Bay.graceOver (now : Time) (b : Bay) : Bool :=
  b.reconciling || decide (Config.reconcileGraceMs ≤ Time.age now b.record.entered)

/-- Reconciliation (R40) and the judgement of DRAW_HIGH (R41) of a READY bay from its average and its present profile. -/
def BayRecord.reconciled (p : Profile) (r : BayRecord) : BayRecord :=
  { r with
    c12 := min p.peak12 (max p.steady12 r.average)
    flags := { r.flags with drawHigh := decide (5 * p.steady12 < 4 * r.average) } }

/-- A READY bay after a current sample (R39 to R41). -/
def Bay.sampled (now : Time) (p : Profile) (x : Nat) (b : Bay) : Bay :=
  let l := joinSample b.samples x
  let r := { b.record with average := averageOf l }
  { b with
    samples := l
    reconciling := b.graceOver now
    record := if b.graceOver now then r.reconciled p else r }

/-- A sample taken into bay n's window (R39 to R41). -/
def State.takeSample (n : BayNo) (x : Nat) (s : State) : State :=
  let b := (s.bay n).sampled s.time (s.profileOf n) x
  ((s.putBay n b).bayChanged n
    (if b.record.flags.drawHigh = (s.bay n).record.flags.drawHigh then none else some srcBayChange)).close

/-- CURRENT_SAMPLE (R39): a sample in any state but READY is discarded. -/
def execCurrentSample (n : BayNo) (sample : Half) (s : State) : Host.Outcome State Fault Refusal :=
  .next (if s.running = true ∧ s.inCount n = true ∧ (s.bay n).record.state = .ready then s.takeSample n sample.toNat else s)

/-! ### Sensors and the cooling period (R83, R91, R96, R104) -/

/-- SENSOR_SCAN (R83): a scan starts, or is passed over while one still runs. -/
def execSensorScan (s : State) : Host.Outcome State Fault Refusal :=
  .next (if s.running = true ∧ Time.due s.time s.scanAt = true then
      { s with
        scanAt := some (Time.plus s.time Config.periodMs)
        scan := if s.scan.left = [] then { left := s.assignedSensors, discard := false } else s.scan }
    else s)

/-- Sensor i after a read of it (R83). -/
def Sensor.read (result : Option (BitVec 16)) (now : Time) (u : Sensor) : Sensor :=
  match result with
  | some raw => u.good raw.toInt now
  | none => u.bad

/-- The read on the bus has completed: the next sensor's read is on it. -/
def State.nextRead (s : State) : State := { s with scan := { left := s.scan.left.drop 1, discard := false } }

/-- SENSOR_READ (R83): taken for the sensor on the bus; a result that is to be discarded changes no record. -/
def execSensorRead (i : Fin 8) (result : Option (BitVec 16)) (s : State) : Host.Outcome State Fault Refusal :=
  .next (if s.running = true ∧ s.scan.left.head? = some i then
      if s.scan.discard then s.nextRead
      else ((s.nextRead).putSensor i (s.sensors[i].read result s.time)).close
    else s)

/-- COOLING_PERIOD (R104). -/
def execCoolingPeriod (s : State) : Host.Outcome State Fault Refusal :=
  .next (if s.running = true ∧ Time.due s.time s.coolingAt = true then
      (({ s with coolingAt := some (Time.plus s.time Config.periodMs) }).coolingStages).close
    else s)

/-- A critical timer expires (R96): SPENT, the thermal shed of the zone requested (R48), THERMAL. -/
def State.criticalExpiry (z : Fin 4) (s : State) : State :=
  let t := (({ s with zones := s.zones.set z { s.zones[z] with timer := .spent } }).pubZone z).raiseBoth srcThermal
  ({ t with reports := { t.reports with thermal := t.reports.thermal ++ t.thermalList z } }).close

/-- CRITICAL_TIMER_EXPIRY (R96). -/
def execCriticalTimerExpiry (z : Fin 4) (s : State) : Host.Outcome State Fault Refusal :=
  .next (if s.running = true ∧ Time.due s.time s.zones[z].timer.expiry = true then s.criticalExpiry z else s)

/-! ### Fans (R115, R116, R119, R120, R108) -/

/-- A fan after a presence report (R115). -/
def Fan.presenceTaken (present : Bool) (now : Time) (f : Fan) : Fan :=
  match present, f.record.state with
  | true, .absent => f.toStarting now
  | false, .starting | false, .ok | false, .failed => f.toAbsent now
  | _, _ => f

/-- FAN_PRESENCE_REPORT (R115): a position that is not configured keeps its record (R114). -/
def execFanPresenceReport (i : Fin 6) (present : Bool) (s : State) : Host.Outcome State Fault Refusal :=
  let f := { s.fans.fans[i] with present := present }
  .next (if s.running = true ∧ s.configured i = true then (s.fanChanged i (f.presenceTaken present s.time)).close
    else s.putFan i f)

/-- STARTING_EXPIRY (R115): the fan enters OK with both counts 0. -/
def execStartingExpiry (i : Fin 6) (s : State) : Host.Outcome State Fault Refusal :=
  .next (if s.running = true ∧ s.fans.fans[i].record.state = .starting ∧ Time.due s.time s.fans.fans[i].record.startingAt = true then
      (s.fanChanged i (s.fans.fans[i].settled .ok s.time)).close
    else s)

/-- TACH_REPORT (R116, R119): 60 × n rpm, taken in every state but UNUSED. -/
def execTachReport (i : Fin 6) (pulses : Nat) (s : State) : Host.Outcome State Fault Refusal :=
  .next (if s.running = true ∧ s.fans.fans[i].record.state ≠ .unused then
      let t := s.putFan i { s.fans.fans[i] with latest := 60 * pulses }
      { t with fans := { t.fans with check := t.fans.check.map (FanCheck.report s.time i (60 * pulses)) } }
    else s)

/-- The fans at the end of a check (R120). -/
def State.judgedFans (s : State) (k : FanCheck) : Vector Fan 6 :=
  Vector.ofFn fun (i : Fin 6) => (s.fans.fans[i] : Fan).judged s.settings.fans.maxRpm k.peaks[i]

/-- A WEAK flag differs between two fan walls (R120). -/
def weakMoved (old new : Vector Fan 6) : Bool := (List.finRange 6).any fun i => old[i].record.weak != new[i].record.weak

/-- The fan check ends (R120): WEAK and the last check rpm, the slip's results, FAN if a WEAK flag changed. -/
def State.endCheck (k : FanCheck) (s : State) : State :=
  let fans := s.judgedFans k
  let t := ({ s with fans := { s.fans with fans := fans, check := none } }).pubFans
  let u := (t.endCheckSlip k .ok (some (t.checkResult k))).pubSummaryIfChanged
  (if weakMoved s.fans.fans fans then u.raiseBoth srcFan else u).close

/-- The running check's 15 s have passed (R120). -/
def State.checkDue (s : State) : Bool :=
  match s.fans.check with
  | none => false
  | some k => Time.reached s.time (Time.plus k.start Config.checkLengthMs)

/-- FAN_CHECK_END (R120). -/
def execFanCheckEnd (s : State) : Host.Outcome State Fault Refusal :=
  .next (match s.fans.check with
    | none => s
    | some k => if s.running = true ∧ s.checkDue = true then s.endCheck k else s)

/-- FLOOR_EXPIRY (R108). -/
def execFloorExpiry (p : Port) (s : State) : Host.Outcome State Fault Refusal :=
  .next (if s.running = true ∧ Time.due s.time ((s.fans.floors.get p).bind (·.expiry)) = true then s.putFloor p none else s)

/-! ### Lights (R128, R130) -/

/-- CHAIN_REFRESH (R128, R133, R138). -/
def execChainRefresh (activity : BitVec 60) (s : State) : Host.Outcome State Fault Refusal :=
  .next (if s.running = true ∧ Time.due s.time s.refreshAt = true then s.refresh activity else s)

/-- LIGHT_EXPIRY (R130): the port's slot empties. -/
def execLightExpiry (p : Port) (place : LightPlace) (c : Colour) (s : State) : Host.Outcome State Fault Refusal :=
  .next (if s.running = true ∧ Time.due s.time (((s.channel place c).ports.get p).bind (·.expiry)) = true then s.putSlot p place c none
    else s)

/-! ### The settings store (R180, R181) -/

/-- A store or reload is over: its slip, if it still has one, ends (R180, R181). -/
def State.endStore (p : Port) (slip : Option Half) (o : SlipOutcome) (clamped : Bool) (result : List Byte) (s : State) : State :=
  let t := { s with store := .none }
  match slip with
  | none => t
  | some addr => t.endOpen p addr o clamped (some result)

/-- STORE_SETTINGS_END (R180): the image stands in the settings memory. -/
def execStoreSettingsEnd (s : State) : Host.Outcome State Fault Refusal :=
  .next (match s.store with
    | .storing p slip image =>
      if s.running then
        (({ s with settingsMem := s.settingsMem.afterWrites image (storeWrites image).length }).endStore p slip .ok false
          (storeResult image)).close
      else s
    | _ => s)

/-- STORE_WRITE_FAILED (R180): the memory is left as the writes before the failed one left it; the slip ends BAD_TARGET. -/
def execStoreWriteFailed (writes : Nat) (s : State) : Host.Outcome State Fault Refusal :=
  .next (match s.store with
    | .storing p slip image =>
      if s.running then
        (({ s with settingsMem := s.settingsMem.afterWrites image (min writes ((storeWrites image).length - 1)) }).endStore p slip
          .badTarget false (storeResult image)).close
      else s
    | _ => s)

/-- What applying an image has done so far: the state, whether a value was clamped, the zone parts refused. -/
structure Applied where
  state   : State
  clamped : Bool
  refused : Nat
  deriving DecidableEq, Repr

/-- One SET of an image applied. The admission passes, WAIT_5V walks and sheds that it gives are run before the next section's value is
taken (DESIGN CHOICE, log entry 39: R181 applies all sections as one handling, each value at the moment its own command's rules give, and
Table 3-4 puts SET_PROFILE's pass after its command has ended). -/
def Applied.andSet (a : Applied) (f : State → State × Bool) : Applied :=
  let r := f a.state
  { a with state := r.1.settle, clamped := a.clamped || r.2 }

/-- One zone part of an image applied, or refused (R181); what it gives is run before the next part (log entry 39). -/
def Applied.andPart (a : Applied) (f : State → Option State × Bool) : Applied :=
  match f a.state with
  | (some t, c) => { a with state := t.settle, clamped := a.clamped || c }
  | (none, c) => { a with clamped := a.clamped || c, refused := a.refused + 1 }

/-- The timing settings of an image written into the live copy (R181). -/
def State.setTiming (m : Memory) (s : State) : State × Bool :=
  ({ s with settings := { s.settings with timing := (imageTiming m).1 } }, (imageTiming m).2)

/-- The bays, profiles, supplies and schedule sections of an image applied in order (R181). -/
def Applied.powerSections (m : Memory) (a : Applied) : Applied :=
  let bays := (bayNumbers.foldl (fun a n => a.andSet (State.setBay n (imageBay m n))) a).andSet (State.setTiming m)
  let profiles := (List.finRange 8).foldl (fun a i => a.andSet (State.setProfile i (imageProfile m i))) bays
  let slots := (List.finRange 4).foldl (fun a i => a.andSet fun s => (s.setSlot i (imageSlot m i), false)) profiles
  (slots.andSet (State.setAccount (imageAccount m))).andSet (State.setSchedule (imageSchedule m))

/-- The zones, sensors, fans, patterns and attention sections of an image applied in order (R181). -/
def Applied.otherSections (m : Memory) (a : Applied) : Applied :=
  let zones := (List.finRange 4).foldl (fun a z =>
    (a.andPart (State.setCurve z (imageCurve m z))).andPart (State.setLimits z (imageLimits m z))) a
  let stale := zones.andSet (State.setStaleTime (imageStaleTime m))
  let sensors := (List.finRange 8).foldl (fun a i => a.andSet (State.setSensor i (imageSensor m i))) stale
  let fans := sensors.andSet (State.setFans (imageFans m))
  let patterns := ((List.finRange 8).drop 2).foldl (fun a i => a.andSet fun s => (s.setPattern i (imagePattern m i), false)) fans
  let first := (List.finRange 8).foldl (fun a i => a.andSet (State.setSource .a i (imageSource m .a i))) patterns
  (List.finRange 8).foldl (fun a i => a.andSet (State.setSource .b i (imageSource m .b i))) first

/-- The window settings of an image are accepted together, each beside the other (R181). -/
def imageWindowsAccepted (m : Memory) : Bool :=
  windowAccepted (imageWindow m .a) (imageWindow m .b) && windowAccepted (imageWindow m .b) (imageWindow m .a)

/-- The window settings of an image written, if both are accepted (R181). -/
def State.setImageWindows (m : Memory) (s : State) : State :=
  if imageWindowsAccepted m then (s.putWindowSetting .a (imageWindow m .a)).putWindowSetting .b (imageWindow m .b) else s

/-- A good image applied to the running part (R181): its sections in order, as one handling, then the origin, then the slip's end. -/
def State.applyImage (p : Port) (slip : Option Half) (m : Memory) (s : State) : State :=
  let a := Applied.otherSections m (Applied.powerSections m { state := s.holdSummary, clamped := false, refused := 0 })
  let t := { a.state.setImageWindows m with origin := .image, cause := .none }
  ((t.releaseSummary s.reports.summaryHeld).evalEnclosure.endStore p slip .ok a.clamped
    [0, BitVec.ofNat 8 a.refused, flagByte (!imageWindowsAccepted m)]).close

/-- RELOAD_READ_END (R181). -/
def execReloadReadEnd (answered : Bool) (s : State) : Host.Outcome State Fault Refusal :=
  .next (match s.store with
    | .reloading p slip =>
      if s.running then
        match s.imageCause answered with
        | .none => s.applyImage p slip s.settingsMem
        | c => (s.endStore p slip .badValue false [BitVec.ofNat 8 c.code]).close
      else s
    | _ => s)

end Sys2Proof.Machine
end

