-- ==== Sys2Proof/Machine/StartUp.lean ====
section
/-! DEFINITION. The two resets and start-up, the end of the settings load (R29, R30, R176 to R179). -/

namespace Sys2Proof.Machine

/-! ### Resets -/

/-- The settings memory as a reset leaves it (R180): a store under way has made some of its writes, the signature still zeros (log
entry 16). -/
def State.interruptedMemory (writes : Nat) (s : State) : Memory :=
  match s.store with
  | .storing _ _ image => s.settingsMem.afterWrites image (max 4 (min writes ((storeWrites image).length - 4)))
  | _ => s.settingsMem

/-- What a cold reset leaves standing (R29, R146): the inputs; every switch opens, the RAM is set to 0x00. -/
def State.coldSurroundings (straps : Straps) (writes : Nat) (s : State) : Surroundings :=
  { pending := s.pending
    straps := straps
    lines := s.lines.map fun l => { l with trip := false, sw5 := false, sw12 := false }
    supplyLines := s.supplyLines
    fanPresence := s.fans.fans.map (·.present)
    settingsMem := s.interruptedMemory writes
    ram := [] }

/-- What a warm reset leaves standing (R30, R146): the inputs, the switches on their hold levels, the window range of the RAM. -/
def State.warmSurroundings (straps : Straps) (writes : Nat) (s : State) : Surroundings :=
  { s.coldSurroundings straps writes with lines := s.lines, ram := s.ram }

/-- COLD_RESET: power-on reset, released with these straps; the settings load begins (R29, R178). -/
def execColdReset (straps : Straps) (writes : Nat) (s : State) : Host.Outcome State Fault Refusal :=
  .next (State.loading .cold (s.coldSurroundings straps writes))

/-- WARM_RESET: the reset input, released with these straps; the settings load begins (R30, R178). -/
def execWarmReset (straps : Straps) (writes : Nat) (s : State) : Host.Outcome State Fault Refusal :=
  .next (State.loading .warm (s.warmSurroundings straps writes))

/-! ### Start-up, step 1: distribution (R179) -/

/-- A sensor once its settings are loaded (R101). -/
def Sensor.started (c : SensorSettings) (u : Sensor) : Sensor := { u with state := if c.zone.isSome then .noData else .unused }

/-- A fan position once the fan settings are loaded (R125). -/
def Fan.started (count i : Nat) (now : Time) (f : Fan) : Fan :=
  if count ≤ i then f.toUnused now else if f.present then f.toStarting now else f.toAbsent now

/-- The live copy and the origin set (R177). -/
def State.loadSettings (answered : Bool) (s : State) : State :=
  let c := s.imageCause answered
  { s with settings := Settings.loaded s.settingsMem c, cause := c, origin := if c = .none then .image else .defaults,
           phase := .starting, driving := true }

/-- The inputs of the fitted supplies sampled, and the fan reservation of full duty set (R31, R34). -/
def State.sampleSupplies (s : State) : State :=
  { s with account := { s.account with
      supplies := Vector.ofFn s.sampledSupply
      fanRes := s.settings.fans.count * s.settings.fans.maxCur } }

/-- The fitted supplies sampled, the fan reservation, base and usable figures set; nothing committed yet (R31, R34, R52). REDUNDANCY_LOST,
which the reset cleared, raises POWER where these figures set it (R33); the event reaches the units after step 7 (R166). The states the
first sampling gives the supplies raise none of their own (DEDUCED, log entry 14: R32 speaks of a change of an input). -/
def State.startAccount (s : State) : State :=
  let t := s.sampleSupplies
  let a := { t.figures with committed12 := 0, committed5 := 0 }
  let u := { t with account := a }
  if t.powerDue a then u.raiseBoth srcPower else u

/-- The sensors, zones and fans set from their settings; the scan, cooling and refresh timers started (R101, R125, R128). The first scan
comes one whole period after the end of the load, like the first cooling period (DESIGN CHOICE, log entry 35: R83 says only that its
timer starts there). -/
def State.startUnits (s : State) : State :=
  { s with
    sensors := Vector.ofFn fun (i : Fin 8) => (s.sensors[i] : Sensor).started s.settings.sensors[i]
    zones := Vector.ofFn fun (z : Fin 4) => Zone.cold s.settings.zones[z].curve
    fans := { s.fans with
      fans := Vector.ofFn fun (i : Fin 6) => (s.fans.fans[i] : Fan).started s.settings.fans.count i.val s.time }
    scanAt := some (Time.plus s.time Config.periodMs)
    coolingAt := some (Time.plus s.time Config.periodMs)
    refreshAt := some (Time.plus s.time Config.refreshMs) }

/-- Both windows validated, port A's first, and put in force (R147). -/
def State.startWindows (s : State) : State :=
  let t := { s with windows := ⟨s.validWindow .a, none⟩ }
  { t with windows := ⟨t.windows.a, t.validWindow .b⟩ }

/-- Step 1. -/
def State.distribute (answered : Bool) (s : State) : State :=
  (s.loadSettings answered).startAccount.startUnits.startWindows

/-! ### Step 3: bays (R29, R30) -/

/-- A bay at the end of a cold reset's load: a seated drive enters SETTLING (R29). -/
def State.sampleBay (s : State) (n : BayNo) : State :=
  if s.inCount n = true ∧ (s.line n).presence = true then s.enterSettling n else s

/-- The state rediscovery gives a bay from its lines (Table 1-9). -/
def rediscoveredState (l : BayLines) : BayState :=
  if l.presence = false then .empty
  else if l.trip = true ∧ (l.sw5 = true ∨ l.sw12 = true) then .faulted
  else if l.sw5 = true ∧ l.sw12 = true then .ready
  else if l.sw5 = true then .logic
  else .off

/-- Enters a rediscovered state; READY takes i5 with steady12 and a spin start (R30, R102), FAULTED one trip and its retry wait. -/
def State.enterRediscovered (n : BayNo) (st : BayState) (s : State) : State :=
  match st with
  | .ready =>
    let t := (s.enter n .logic .rediscovered).enter n .ready .rediscovered
    t.putFeed n { t.feed n with spinStart := some s.time, graceOut := false }
  | .faulted => ((s.enter n .faulted .rediscovered).countTrip n).beginRetry n
  | st => s.enter n st .rediscovered

/-- One bay rediscovered at warm reset (R30): beyond the count its switches are opened (R2). -/
def State.rediscover (s : State) (n : BayNo) : State :=
  if s.inCount n then
    let st := rediscoveredState (s.line n)
    let t := s.enterRediscovered n st
    (t.setFlags n fun f => { f with latchOpen := st.fromOff && (s.line n).latch }).deriveLights n
  else s.putLine n { s.line n with trip := false, sw5 := false, sw12 := false }

/-- Step 3 by the kind of reset. -/
def State.startBays (s : State) : State :=
  match s.resetKind with
  | .cold => bayNumbers.foldl State.sampleBay s
  | .warm => bayNumbers.foldl State.rediscover s

/-! ### Step 5: policy (R30, R80) -/

/-- Policy applied to a bay rediscovered in OFF, with its presence asserted (Table 1-9). A bay that a 5 V shed of step 4 or 5 has taken
to OFF rests there with reason SHED_POWER, and its policy is not applied (R9, R23). -/
def State.startPolicy (s : State) (n : BayNo) : State :=
  if (s.bay n).record.state = .off ∧ (s.bay n).record.reason = .rediscovered then (s.applyPolicy n).settle else s

/-- Step 5 by the kind of reset. -/
def State.startPolicies (s : State) : State :=
  match s.resetKind with
  | .cold => s
  | .warm => bayNumbers.foldl State.startPolicy s

/-! ### Step 7: publication (R169) -/

/-- Every record not yet published is published with its generation 0, and every position of both bitmaps is set; a record that an earlier
step published stands as it was published, with its generation (R144, R179). -/
def State.publishAll (s : State) : State :=
  { s with
    status :=
      { bays := Vector.ofFn fun n => some { record := (s.bay n).record, set := s.baySet n }
        lights := Vector.ofFn fun n => if s.inCount n then some (s.lightSnap n) else none
        fans := s.fans.fans.map fun (f : Fan) => some f.record
        supplies := Vector.ofFn fun (i : Fin 4) => some { supply := s.account.supplies[i], set := s.settings.supplies[i] }
        zones := Vector.ofFn fun (z : Fin 4) =>
          some { zone := s.zones[z], set := s.settings.zones[z], staleTime := s.settings.staleTime }
        sensors := Vector.ofFn fun (i : Fin 8) => some { sensor := s.sensors[i], set := s.settings.sensors[i] }
        summary := some (s.summarySnap 0)
        queue := some { bays := s.scheduler.queue.map (·.bay), hold := s.scheduler.hold, schedule := s.settings.schedule,
                        last := s.scheduler.lastAdmission, gen := s.scheduler.gen }
        enclosure := some { light := s.lights.enclosure, patterns := s.settings.patterns }
        readers := ⟨some s.readers.a, some s.readers.b⟩
        attention := ⟨some { unit := s.attention.a, config := s.settings.attention.a },
          some { unit := s.attention.b, config := s.settings.attention.b }⟩
        bitmaps := ⟨BitVec.allOnes 80, BitVec.allOnes 80⟩ } }

/-! ### Step 8: readers -/

/-- Start-up's last step: the handling ends, and each reader reads its anchor's link or is DISABLED. Reader A starts before reader B
(DESIGN CHOICE, log entry 25). -/
def State.startReaders (s : State) : State :=
  ((({ s with phase := .running }).startReader .a).startReader .b).close

/-! ### What is taken within start-up (R179) -/

/-- No report waits. -/
def Reports.silent : Reports := { pass := false, walk := false, run := false, thermal := [], summaryHeld := false }

/-- An event within start-up by itself: a link transaction, or a reset, which finds no store running. -/
def State.takeEvent (e : StartUpEvent) (s : State) : State :=
  match e with
  | .read p addr count => s.readTransaction p addr.toNat count
  | .write p addr data => s.writeTransaction p addr.toNat data
  | .status p count => s.statusTransaction p count
  | .void p _ count => s.idleTransaction p count
  | .coldReset straps => .loading .cold (s.coldSurroundings straps 0)
  | .warmReset straps => .loading .warm (s.warmSurroundings straps 0)

/-- An event taken between two steps: start-up's own events and reports wait for the steps that act on them (R166, R179). A reset
abandons start-up, and what comes after it falls in the new load. -/
def State.takeWithin (e : StartUpEvent) (s : State) : State :=
  if s.phase = .starting then
    let t := State.takeEvent e { s with late := [], reports := .silent }
    if t.phase = .starting then { t with late := s.late, reports := s.reports } else t
  else s.takeEvent e

/-- The events after step k + 1 and before the next, in their order; none once start-up is abandoned. -/
def State.gap (during : List (Fin 7 × StartUpEvent)) (k : Fin 7) (s : State) : State :=
  if s.phase = .starting then (during.filter fun e => e.1 = k).foldl (fun t e => t.takeWithin e.2) s else s

/-- Step k + 1 and what is taken after it; nothing once start-up is abandoned. -/
def State.stage (during : List (Fin 7 × StartUpEvent)) (k : Fin 7) (act : State → State) (s : State) : State :=
  if s.phase = .starting then (act s).gap during k else s

/-! ### The whole -/

/-- Start-up, its steps in order (R179); events reach the units once the records are published. A reset within it leaves the new load.
The transactions taken within it are operands of the command (DESIGN CHOICE, log entry 42). -/
def State.startUp (answered : Bool) (during : List (Fin 7 × StartUpEvent)) (s : State) : State :=
  let t := (s.distribute answered).gap during 0
  let t := t.stage during 1 (State.raiseBoth srcLoadDone)
  let t := t.stage during 2 State.startBays
  let t := t.stage during 3 fun u => u.accountUpdate.settle
  let t := t.stage during 4 State.startPolicies
  let t := t.stage during 5 State.lightEnclosure
  let t := t.stage during 6 fun u => u.publishAll.deliver
  if t.phase = .starting then t.startReaders else t

/-- START_UP (R179): the settings load ends. -/
def execStartUp (run : StartUpRun) (s : State) : Host.Outcome State Fault Refusal :=
  .next (if s.phase = .loading then s.startUp run.answered run.during else s)

end Sys2Proof.Machine
end

