-- ==== Sys2Proof/Machine/SlipCommands.lean ====
section
/-! DEFINITION. The slip commands as commands of their own: each is its slip taken and dispatched (R158), without the walk that a reader
makes around it (log entry 7). -/

namespace Sys2Proof.Machine

/-- POWER_ON (R24). -/
def execPowerOn (h : SlipHead) (s : State) : Host.Outcome State Fault Refusal :=
  .next (s.slipCommand h (fun s => s.onBay h fun n t => t.powerOn h n))

/-- POWER_OFF (R25). -/
def execPowerOff (h : SlipHead) (s : State) : Host.Outcome State Fault Refusal :=
  .next (s.slipCommand h (fun s => s.onBay h fun n t => t.stopBay h .powerOff cmdPowerOff false n))

/-- PREPARE_REMOVAL (R26). -/
def execPrepareRemoval (h : SlipHead) (s : State) : Host.Outcome State Fault Refusal :=
  .next (s.slipCommand h (fun s => s.onBay h fun n t => t.stopBay h .prepareRemoval cmdPrepareRemoval true n))

/-- CLEAR_FAULT (R19). -/
def execClearFault (h : SlipHead) (s : State) : Host.Outcome State Fault Refusal :=
  .next (s.slipCommand h (fun s => s.onBay h fun n t => t.clearFault h n))

/-- SET_BAY (R27). -/
def execSetBay (h : SlipHead) (a : SetBayArgs) (s : State) : Host.Outcome State Fault Refusal :=
  .next (s.slipCommand h (fun s => s.onBay h fun n t => t.setBaySlip h a n))

/-- SPIN_UP (R68). -/
def execSpinUp (h : SlipHead) (deadline : Half) (s : State) : Host.Outcome State Fault Refusal :=
  .next (s.slipCommand h (fun s => s.onBay h fun n t => t.spinUp h deadline n))

/-- SPIN_DOWN (R76, R77). -/
def execSpinDown (h : SlipHead) (s : State) : Host.Outcome State Fault Refusal :=
  .next (s.slipCommand h (fun s => s.onBay h fun n t => t.spinDown h n))

/-- SET_SCHEDULE (R75). -/
def execSetSchedule (h : SlipHead) (a : SetScheduleArgs) (s : State) : Host.Outcome State Fault Refusal :=
  .next (s.slipCommand h (State.setScheduleSlip h a))

/-- SET_SUPPLY with a slot target (R50). -/
def execSetSupplySlot (h : SlipHead) (a : SetSlotArgs) (s : State) : Host.Outcome State Fault Refusal :=
  .next (s.slipCommand h (State.setSlotSlip h a))

/-- SET_SUPPLY with target 0xFE (R50). -/
def execSetSupplyEnclosure (h : SlipHead) (a : SetAccountArgs) (s : State) : Host.Outcome State Fault Refusal :=
  .next (s.slipCommand h (State.setAccountSlip h a))

/-- SET_PROFILE (R51). -/
def execSetProfile (h : SlipHead) (a : SetProfileArgs) (s : State) : Host.Outcome State Fault Refusal :=
  .next (s.slipCommand h (State.setProfileSlip h a))

/-- SET_ZONE, CURVE part (R97). -/
def execSetZoneCurve (h : SlipHead) (a : SetCurveArgs) (s : State) : Host.Outcome State Fault Refusal :=
  .next (s.slipCommand h (State.setCurveSlip h a))

/-- SET_ZONE, LIMITS part (R98). -/
def execSetZoneLimits (h : SlipHead) (a : SetLimitsArgs) (s : State) : Host.Outcome State Fault Refusal :=
  .next (s.slipCommand h (State.setLimitsSlip h a))

/-- SET_ZONE with target 0xFE (R98). -/
def execSetZoneStaleTime (h : SlipHead) (seconds : Half) (s : State) : Host.Outcome State Fault Refusal :=
  .next (s.slipCommand h (State.setStaleTimeSlip h seconds))

/-- SET_SENSOR (R99). -/
def execSetSensor (h : SlipHead) (a : SetSensorArgs) (s : State) : Host.Outcome State Fault Refusal :=
  .next (s.slipCommand h (State.setSensorSlip h a))

/-- SET_FLOOR (R123). -/
def execSetFloor (h : SlipHead) (duty expiry : Half) (s : State) : Host.Outcome State Fault Refusal :=
  .next (s.slipCommand h (State.setFloorSlip h duty expiry))

/-- SET_FANS (R122). -/
def execSetFans (h : SlipHead) (a : SetFansArgs) (s : State) : Host.Outcome State Fault Refusal :=
  .next (s.slipCommand h (State.setFansSlip h a))

/-- FAN_CHECK (R119). -/
def execFanCheck (h : SlipHead) (s : State) : Host.Outcome State Fault Refusal :=
  .next (s.slipCommand h (State.fanCheck h))

/-- SET_LIGHT (R140). -/
def execSetLight (h : SlipHead) (a : SetLightArgs) (s : State) : Host.Outcome State Fault Refusal :=
  .next (s.slipCommand h (State.setLight h a))

/-- SET_PATTERN (R141). -/
def execSetPattern (h : SlipHead) (a : SetPatternArgs) (s : State) : Host.Outcome State Fault Refusal :=
  .next (s.slipCommand h (State.setPatternSlip h a))

/-- CANCEL (R162). -/
def execCancel (h : SlipHead) (named : Half) (s : State) : Host.Outcome State Fault Refusal :=
  .next (s.slipCommand h (State.cancelSlip h named))

/-- NOTE (R163). -/
def execNote (h : SlipHead) (s : State) : Host.Outcome State Fault Refusal :=
  .next (s.slipCommand h (State.noteSlip h))

/-- SET_ATTENTION (R174). -/
def execSetAttention (h : SlipHead) (a : SetAttentionArgs) (s : State) : Host.Outcome State Fault Refusal :=
  .next (s.slipCommand h (State.setAttentionSlip h a))

/-- STORE_SETTINGS (R180). -/
def execStoreSettings (h : SlipHead) (s : State) : Host.Outcome State Fault Refusal :=
  .next (s.slipCommand h (State.storeSlip h))

/-- RELOAD_SETTINGS (R181). -/
def execReloadSettings (h : SlipHead) (s : State) : Host.Outcome State Fault Refusal :=
  .next (s.slipCommand h (State.reloadSlip h))

/-- SET_WINDOWS (R182). -/
def execSetWindows (h : SlipHead) (w : WindowSetting) (s : State) : Host.Outcome State Fault Refusal :=
  .next (s.slipCommand h (State.setWindowsSlip h w))

end Sys2Proof.Machine
end

