-- ==== Sys2Proof/Machine/Dispatch.lean ====
section
/-! DEFINITION. The meaning of each command: one arm per constructor, each one direct call. -/

namespace Sys2Proof.Machine

-- One arm per row of spec/opcode_table.json, in its order. No arm is left unmodelled.
def exec (i : Instr) (s : State) : Host.Outcome State Fault Refusal :=
  match i with
  | .coldReset straps storeWrites => Sys2Proof.Machine.execColdReset straps storeWrites s
  | .warmReset straps storeWrites => Sys2Proof.Machine.execWarmReset straps storeWrites s
  | .startUp run => Sys2Proof.Machine.execStartUp run s
  | .read port addr count => Sys2Proof.Machine.execRead port addr count s
  | .write port addr data => Sys2Proof.Machine.execWrite port addr data s
  | .waitingRoomWake port => Sys2Proof.Machine.execWaitingRoomWake port s
  | .status port count => Sys2Proof.Machine.execStatus port count s
  | .voidTransaction port opcode count => Sys2Proof.Machine.execVoidTransaction port opcode count s
  | .take port => Sys2Proof.Machine.execTake port s
  | .done port value => Sys2Proof.Machine.execDone port value s
  | .portReset port value => Sys2Proof.Machine.execPortReset port value s
  | .registerWriteDiscarded port value => Sys2Proof.Machine.execRegisterWriteDiscarded port value s
  | .presenceAssert bay => Sys2Proof.Machine.execPresenceAssert bay s
  | .presenceDeassert bay => Sys2Proof.Machine.execPresenceDeassert bay s
  | .settleExpiry bay => Sys2Proof.Machine.execSettleExpiry bay s
  | .bounce bay => Sys2Proof.Machine.execBounce bay s
  | .surpriseRemoval bay => Sys2Proof.Machine.execSurpriseRemoval bay s
  | .latchOpen bay => Sys2Proof.Machine.execLatchOpen bay s
  | .latchClose bay => Sys2Proof.Machine.execLatchClose bay s
  | .switchTrip bay => Sys2Proof.Machine.execSwitchTrip bay s
  | .backoffExpiry bay => Sys2Proof.Machine.execBackoffExpiry bay s
  | .spinWindowEnd bay => Sys2Proof.Machine.execSpinWindowEnd bay s
  | .parkWindowEnd bay => Sys2Proof.Machine.execParkWindowEnd bay s
  | .staggerExpiry => Sys2Proof.Machine.execStaggerExpiry s
  | .deadlineExpiry bay => Sys2Proof.Machine.execDeadlineExpiry bay s
  | .supplyInputChange slot present good => Sys2Proof.Machine.execSupplyInputChange slot present good s
  | .shedDelayExpiry => Sys2Proof.Machine.execShedDelayExpiry s
  | .currentSample bay sample => Sys2Proof.Machine.execCurrentSample bay sample s
  | .sensorScan => Sys2Proof.Machine.execSensorScan s
  | .sensorRead sensor result => Sys2Proof.Machine.execSensorRead sensor result s
  | .coolingPeriod => Sys2Proof.Machine.execCoolingPeriod s
  | .criticalTimerExpiry zone => Sys2Proof.Machine.execCriticalTimerExpiry zone s
  | .fanPresenceReport fan present => Sys2Proof.Machine.execFanPresenceReport fan present s
  | .startingExpiry fan => Sys2Proof.Machine.execStartingExpiry fan s
  | .tachReport fan pulses => Sys2Proof.Machine.execTachReport fan pulses s
  | .fanCheckEnd => Sys2Proof.Machine.execFanCheckEnd s
  | .floorExpiry port => Sys2Proof.Machine.execFloorExpiry port s
  | .chainRefresh activity => Sys2Proof.Machine.execChainRefresh activity s
  | .lightExpiry port place colour => Sys2Proof.Machine.execLightExpiry port place colour s
  | .storeSettingsEnd => Sys2Proof.Machine.execStoreSettingsEnd s
  | .storeWriteFailed writes => Sys2Proof.Machine.execStoreWriteFailed writes s
  | .reloadReadEnd answered => Sys2Proof.Machine.execReloadReadEnd answered s
  | .powerOn slip => Sys2Proof.Machine.execPowerOn slip s
  | .powerOff slip => Sys2Proof.Machine.execPowerOff slip s
  | .prepareRemoval slip => Sys2Proof.Machine.execPrepareRemoval slip s
  | .clearFault slip => Sys2Proof.Machine.execClearFault slip s
  | .setBay slip args => Sys2Proof.Machine.execSetBay slip args s
  | .spinUp slip deadline => Sys2Proof.Machine.execSpinUp slip deadline s
  | .spinDown slip => Sys2Proof.Machine.execSpinDown slip s
  | .setSchedule slip args => Sys2Proof.Machine.execSetSchedule slip args s
  | .setSupplySlot slip args => Sys2Proof.Machine.execSetSupplySlot slip args s
  | .setSupplyEnclosure slip args => Sys2Proof.Machine.execSetSupplyEnclosure slip args s
  | .setProfile slip args => Sys2Proof.Machine.execSetProfile slip args s
  | .setZoneCurve slip args => Sys2Proof.Machine.execSetZoneCurve slip args s
  | .setZoneLimits slip args => Sys2Proof.Machine.execSetZoneLimits slip args s
  | .setZoneStaleTime slip seconds => Sys2Proof.Machine.execSetZoneStaleTime slip seconds s
  | .setSensor slip args => Sys2Proof.Machine.execSetSensor slip args s
  | .setFloor slip duty expiry => Sys2Proof.Machine.execSetFloor slip duty expiry s
  | .setFans slip args => Sys2Proof.Machine.execSetFans slip args s
  | .fanCheck slip => Sys2Proof.Machine.execFanCheck slip s
  | .setLight slip args => Sys2Proof.Machine.execSetLight slip args s
  | .setPattern slip args => Sys2Proof.Machine.execSetPattern slip args s
  | .cancel slip named => Sys2Proof.Machine.execCancel slip named s
  | .note slip => Sys2Proof.Machine.execNote slip s
  | .setAttention slip args => Sys2Proof.Machine.execSetAttention slip args s
  | .storeSettings slip => Sys2Proof.Machine.execStoreSettings slip s
  | .reloadSettings slip => Sys2Proof.Machine.execReloadSettings slip s
  | .setWindows slip args => Sys2Proof.Machine.execSetWindows slip args s

end Sys2Proof.Machine
end

