-- ==== Sys2Proof/Safety.lean ====
section
/-! DEFINITION. The terms in which claims about the PB660 are made: what a bay's handling leaves alone, what stands on the exchange,
which events a handling raised, and the invariants that every step keeps. Nothing here is part of the machine. -/

namespace Sys2Proof.Machine

/-! ### What the bays, the account, the scheduler and the ends of slips never touch -/

/-- The state beside bays, account figures, scheduler, lights, exchange, readers, attention and status area. -/
structure Outer where
  pending     : List Instr
  time        : Time
  phase       : Phase
  resetKind   : ResetKind
  straps      : Straps
  driving     : Bool
  settings    : Settings
  origin      : SettingsOrigin
  cause       : Cause
  store       : StoreOp
  settingsMem : Memory
  supplyLines : Vector SupplyLines 4
  supplies    : Vector Supply 4
  fanRes      : Nat
  sensors     : Vector Sensor 8
  scan        : Scan
  zones       : Vector Zone 4
  fans        : FanControl
  chain       : Chain
  windows     : PerPort (Option Window)
  links       : PerPort Link
  scanAt      : Option Time
  coolingAt   : Option Time
  refreshAt   : Option Time
  deriving DecidableEq, Repr

/-- The outer part of a state. -/
def State.outer (s : State) : Outer :=
  { pending := s.pending, time := s.time, phase := s.phase, resetKind := s.resetKind, straps := s.straps, driving := s.driving,
    settings := s.settings, origin := s.origin, cause := s.cause, store := s.store, settingsMem := s.settingsMem,
    supplyLines := s.supplyLines, supplies := s.account.supplies, fanRes := s.account.fanRes, sensors := s.sensors, scan := s.scan,
    zones := s.zones, fans := s.fans, chain := s.lights.chain, windows := s.windows, links := s.links, scanAt := s.scanAt,
    coolingAt := s.coolingAt, refreshAt := s.refreshAt }

/-! ### The exchange: the RAM and the open-slip tables -/

/-- The exchange RAM and the two open-slip tables. -/
structure Exchange where
  ram    : Memory
  tables : PerPort (List OpenSlip)
  deriving DecidableEq, Repr

/-- The exchange of a state. -/
def State.exchange (s : State) : Exchange := { ram := s.ram, tables := ⟨s.readers.a.table, s.readers.b.table⟩ }

/-- TAKEN written into the state byte of the slip at an address (R158). -/
def Exchange.take (addr : Half) (x : Exchange) : Exchange := { x with ram := Memory.write x.ram addr.toNat 2 }

/-- A slip's end fields written (R154). -/
def Exchange.ended (addr : Half) (o : SlipOutcome) (clamped marked : Bool) (result : Option (List Byte)) (now : Time) (x : Exchange) :
    Exchange :=
  { x with ram := writeEnd addr.toNat o (resultFlags clamped marked) result now x.ram }

/-- A slip's entry gone from its port's table (R160). -/
def Exchange.freed (p : Port) (addr : Half) (x : Exchange) : Exchange :=
  { x with tables := x.tables.put p ((x.tables.get p).filter fun e => e.addr != addr) }

/-- An open slip ended: its end fields written, its entry gone (R154). -/
def Exchange.closed (p : Port) (addr : Half) (o : SlipOutcome) (clamped : Bool) (result : Option (List Byte)) (now : Time) (x : Exchange) :
    Exchange :=
  match (x.tables.get p).find? fun e => e.addr == addr with
  | none => x
  | some e => (x.ended addr o (e.clamped || clamped) false result now).freed p addr

/-- The slip of an ended operation, if it has one, ended with a bay result (R12). -/
def Exchange.opEnded (op : Option Operation) (o : SlipOutcome) (result : List Byte) (now : Time) (x : Exchange) : Exchange :=
  match op with
  | none => x
  | some q =>
    match q.origin, q.slip with
    | .slip p, some addr => x.closed p addr o false (some result) now
    | _, _ => x

/-- A taken slip kept open by its owning block (R158). -/
def Exchange.kept (h : SlipHead) (command : Byte) (clamped : Bool) (now : Time) (x : Exchange) : Exchange :=
  { x with tables := x.tables.put h.port ((x.tables.get h.port) ++
      [{ addr := h.addr, command := command, attn := attnOnEnd h, taken := now, clamped := clamped }]) }

/-- The exchange after a slip is taken and ended at once. -/
def Exchange.answered (h : SlipHead) (o : SlipOutcome) (clamped marked : Bool) (result : Option (List Byte)) (now : Time) (x : Exchange) :
    Exchange :=
  (x.take h.addr).ended h.addr o clamped marked result now

/-- The state with a taken slip ended and nothing else done (R158, R154): its bytes, and the event it asked for. -/
def State.answered (h : SlipHead) (o : SlipOutcome) (clamped marked : Bool) (result : Option (List Byte)) (s : State) : State :=
  { s with
    ram := (s.exchange.answered h o clamped marked result s.time).ram
    late := s.late ++ (if attnOnEnd h then [(h.port, srcSlipEnded)] else []) }

/-- Both readers stand as they were, but for their open-slip tables, which are part of the exchange, and their records' generations. -/
def ReadersStand (s u : State) : Prop :=
  ∀ p, u.reader p = { s.reader p with table := (u.reader p).table, gen := (u.reader p).gen }

/-! ### Events -/

/-- An event of a source has been raised to both ports in the present handling. -/
def State.told (s : State) (i : Fin 8) : Prop := ∀ p, (p, i) ∈ s.late

/-- The slip-end event of a slip that asked for it has been raised (R154). -/
def State.slipTold (s : State) (h : SlipHead) : Prop := attnOnEnd h = true → (h.port, srcSlipEnded) ∈ s.late

/-- The slip-end event of an operation's slip, if its table entry asks for one, has been raised (R154). -/
def OpSlipTold (op : Option Operation) (s u : State) : Prop :=
  ∀ q p addr e, op = some q → q.origin = .slip p → q.slip = some addr → s.findOpen p addr = some e → e.attn = true →
    (p, srcSlipEnded) ∈ u.late

/-- From s to u no event was raised but of these sources. -/
def OnlyTold (l : List (Fin 8)) (s u : State) : Prop := ∀ e ∈ u.late, e ∈ s.late ∨ e.2 ∈ l

/-- No report is waiting to be acted on. -/
def State.quiet (s : State) : Prop :=
  s.reports.pass = false ∧ s.reports.walk = false ∧ s.reports.run = false ∧ s.reports.thermal = []

/-! ### Start-up -/

/-- The command that an event within start-up is, by itself. -/
def eventCommand : StartUpEvent → Instr
  | .read p addr count => .read p addr count
  | .write p addr data => .write p addr data
  | .status p count => .status p count
  | .void p opcode count => .voidTransaction p opcode count
  | .coldReset straps => .coldReset straps 0
  | .warmReset straps => .warmReset straps 0

/-- The state with no event raised and no report waiting, but for the hold of the summary record, which no step of start-up uses. -/
def State.hushed (s : State) : State :=
  { s with late := [], reports := { pass := false, walk := false, run := false, thermal := [], summaryHeld := false } }

/-! ### A slip's own work -/

/-- What a slip row's owning block does with its slip, between the reader's TAKEN and the end of the handling (R158, Table 7-6); a row that
is no slip command has none. -/
def slipWork : Instr → State → State
  | .powerOn h => fun s => s.onBay h fun n t => t.powerOn h n
  | .powerOff h => fun s => s.onBay h fun n t => t.stopBay h .powerOff cmdPowerOff false n
  | .prepareRemoval h => fun s => s.onBay h fun n t => t.stopBay h .prepareRemoval cmdPrepareRemoval true n
  | .clearFault h => fun s => s.onBay h fun n t => t.clearFault h n
  | .setBay h a => fun s => s.onBay h fun n t => t.setBaySlip h a n
  | .spinUp h d => fun s => s.onBay h fun n t => t.spinUp h d n
  | .spinDown h => fun s => s.onBay h fun n t => t.spinDown h n
  | .setSchedule h a => State.setScheduleSlip h a
  | .setSupplySlot h a => State.setSlotSlip h a
  | .setSupplyEnclosure h a => State.setAccountSlip h a
  | .setProfile h a => State.setProfileSlip h a
  | .setZoneCurve h a => State.setCurveSlip h a
  | .setZoneLimits h a => State.setLimitsSlip h a
  | .setZoneStaleTime h v => State.setStaleTimeSlip h v
  | .setSensor h a => State.setSensorSlip h a
  | .setFloor h d e => State.setFloorSlip h d e
  | .setFans h a => State.setFansSlip h a
  | .fanCheck h => State.fanCheck h
  | .setLight h a => State.setLight h a
  | .setPattern h a => State.setPatternSlip h a
  | .cancel h a => State.cancelSlip h a
  | .note h => State.noteSlip h
  | .setAttention h a => State.setAttentionSlip h a
  | .storeSettings h => State.storeSlip h
  | .reloadSettings h => State.reloadSlip h
  | .setWindows h w => State.setWindowsSlip h w
  | .coldReset _ _ | .warmReset _ _ | .startUp _ | .read _ _ _ | .write _ _ _ | .waitingRoomWake _ | .status _ _
  | .voidTransaction _ _ _ | .take _ | .done _ _ | .portReset _ _ | .registerWriteDiscarded _ _ | .presenceAssert _
  | .presenceDeassert _ | .settleExpiry _ | .bounce _ | .surpriseRemoval _ | .latchOpen _ | .latchClose _ | .switchTrip _
  | .backoffExpiry _ | .spinWindowEnd _ | .parkWindowEnd _ | .staggerExpiry | .deadlineExpiry _ | .supplyInputChange _ _ _
  | .shedDelayExpiry | .currentSample _ _ | .sensorScan | .sensorRead _ _ | .coolingPeriod | .criticalTimerExpiry _
  | .fanPresenceReport _ _ | .startingExpiry _ | .tachReport _ _ | .fanCheckEnd | .floorExpiry _ | .chainRefresh _
  | .lightExpiry _ _ _ | .storeSettingsEnd | .storeWriteFailed _ | .reloadReadEnd _ => id

/-! ### A bay -/

/-- A bay as it stands on arriving in a state: no timer of its own running but the absence timer, its window empty. -/
def Bay.stands (b : Bay) (st : BayState) (why : Reason) (now : Time) (c12 c5 : Nat) (flags : BayFlags) (op : Option Operation) : Bay :=
  { record := { b.record with
      state := st, reason := why, entered := now, c12 := c12, c5 := c5, average := 0, flags := flags, op := op }
    settleAt := none, absenceAt := b.absenceAt, backoffAt := none, spinAt := none, parkAt := none, samples := [], reconciling := false }

/-- Two bays that differ at most in the generation of their records. -/
def Bay.like (b c : Bay) : Prop := { b with record := { b.record with gen := c.record.gen } } = c

/-- In SPARE_ONE fewer than two slots are GOOD (R33); a slot that is not fitted is ABSENT (R31). -/
def State.spareGone (s : State) : Prop :=
  s.settings.account.mode = .spareOne ∧ ((List.finRange 4).filter fun i => s.account.supplies[i].state == .good).length < 2

/-- The account's figures are those its supplies, its settings and the bays give (R33, R35, R36), OVER_COMMITTED says whether the
committed load exceeds the usable budget on either rail (R42), and, once the settings load has ended (R52), REDUNDANCY_LOST whether
SPARE_ONE has fewer than two GOOD slots (R33). -/
def State.balanced (s : State) : Prop :=
  s.account.base12 = s.baseCapacity12 ∧ s.account.base5 = s.baseCapacity5 ∧ s.account.usable12 = s.usableBudget12 ∧
    s.account.usable5 = s.usableBudget5 ∧ s.account.committed12 = s.sum12 ∧ s.account.committed5 = s.sum5 ∧
    (s.account.overCommitted = true ↔ s.usableBudget12 < s.sum12 ∨ s.usableBudget5 < s.sum5) ∧
    (s.phase = .loading ∨ (s.account.redundancyLost = true ↔ s.spareGone))

/-- Bay n's record is published as it stands, but for the measured average (R1). -/
def State.shown (s : State) (n : BayNo) : Prop :=
  (s.status.bays[n]).map (fun p => ({ p.record with average := (s.bay n).record.average }, p.set)) = some ((s.bay n).record, s.baySet n)

/-- A summary record gives the fields that its owners now hold (R167), the account's figures saturated at 65535 (R36); its publication time
and its generation are its own. -/
structure State.summed (s : State) (u : Summary) : Prop where
  straps    : u.straps = s.straps
  origin    : u.origin = s.origin ∧ u.cause = s.cause
  figures   : u.account.usable12 = min 65535 s.account.usable12 ∧ u.account.usable5 = min 65535 s.account.usable5 ∧
    u.account.committed12 = min 65535 s.account.committed12 ∧ u.account.committed5 = min 65535 s.account.committed5 ∧
    u.account.fanRes = min 65535 s.account.fanRes
  flags     : u.account.overCommitted = s.account.overCommitted ∧ u.account.unresolved = s.account.unresolved ∧
    u.account.redundancyLost = s.account.redundancyLost
  rails     : (u.account.over12 = true ↔ s.account.overCommitted = true ∧ s.account.usable12 < s.account.committed12) ∧
    (u.account.over5 = true ↔ s.account.overCommitted = true ∧ s.account.usable5 < s.account.committed5)
  scheduler : u.account.spinning = (bayNumbers.filter fun n => (s.bay n).record.state == .spinningUp).length ∧
    u.account.queued = s.scheduler.queue.length
  cooling   : u.cooling.c = s.fans.c ∧ u.cooling.cprev = s.fans.cprev ∧ u.cooling.draw = s.fans.draw ∧
    u.cooling.dcomp = s.fans.dcomp ∧ u.cooling.demands = s.fans.demands ∧ u.cooling.coolingLost = s.fans.coolingLost ∧
    u.cooling.floors = s.fans.floors
  check     : (s.fans.check = none → u.cooling.check = none) ∧
    ∀ k, s.fans.check = some k → u.cooling.check = some (k.origin, k.start)

/-- Every record of the status area stands published as its owner holds it (R166, R167): a bay record but for the measured average (R1), a
sensor record but for the failure count and the time of the last good read (R82), a light record for the bays within the count (R142). -/
structure State.recorded (s : State) : Prop where
  bays      : ∀ n, s.shown n
  lights    : ∀ n, s.inCount n = true → s.status.lights[n] =
    some { amber := (s.light n).amber, blue := (s.light n).blue, enable := (s.light n).enable, gen := (s.light n).gen }
  fans      : ∀ i : Fin 6, s.status.fans[i] = some s.fans.fans[i].record
  supplies  : ∀ i : Fin 4, s.status.supplies[i] = some { supply := s.account.supplies[i], set := s.settings.supplies[i] }
  zones     : ∀ z : Fin 4,
    s.status.zones[z] = some { zone := s.zones[z], set := s.settings.zones[z], staleTime := s.settings.staleTime }
  sensors   : ∀ i : Fin 8, ∃ fails goodAt, s.status.sensors[i] =
    some { sensor := { s.sensors[i] with fails := fails, goodAt := goodAt }, set := s.settings.sensors[i] }
  summary   : ∃ u, s.status.summary = some u ∧ s.summed u
  queue     : s.status.queue =
    some { bays := s.scheduler.queue.map (·.bay), hold := s.scheduler.hold, schedule := s.settings.schedule,
           last := s.scheduler.lastAdmission, gen := s.scheduler.gen }
  enclosure : s.status.enclosure = some { light := s.lights.enclosure, patterns := s.settings.patterns }
  readers   : ∀ p, s.status.readers.get p = some (s.reader p)
  attention : ∀ p, s.status.attention.get p = some { unit := s.attention.get p, config := s.settings.attention.get p }

/-- The account is over-committed, its shed delay has expired in this spell and is not running again, and shed is ON (R47). -/
def State.spentDelay (s : State) : Prop :=
  s.account.overCommitted = true ∧ s.account.delayExpired = true ∧ s.account.shedTimer = none ∧ s.settings.account.shed = true

/-- Bay n's SYSTEM slots are those Table 6-3 derives from its record. -/
def State.lit (s : State) (n : BayNo) : Prop :=
  (s.light n).amber.system = systemAmber (s.bay n).record ∧ (s.light n).blue.system = systemBlue (s.bay n).record

/-- The enclosure AMBER SYSTEM slot is the one R136 derives; within start-up, before its step 6, it stands as it was in s (R137, R179). -/
def State.enclosureLit (u s : State) : Prop :=
  (u.phase ≠ .starting → u.lights.enclosure.amber.system = u.enclosureAmber) ∧
    (u.phase = .starting → u.lights.enclosure.amber.system = s.lights.enclosure.amber.system)

/-- What a handling of bay n does beside bay n (R5): every other bay, its lines, its feed and its light stand; so do the outer state, the
Attention Units and, but for their tables, the readers; the stamp of the last admission, the stagger expiry and the hold reason stand; the
port slots and the activity enables stand; the account is balanced, bay n's record published, its SYSTEM slots and the enclosure's derived
(the latter within start-up at its step 6 alone, R179). A bay that has left SPINNING_UP has given an admission opportunity (R59, R64), and
so has a bay whose joining or leaving the queue changed its head (R55, R57, R64); one that has moved into a candidate state of the shed
that is due, while the account was and is over-committed past its shed delay with shed ON, has started the shed run again (R44, R47). -/
structure BayHandled (n : BayNo) (s u : State) : Prop where
  outer     : u.outer = s.outer
  attention : u.attention = s.attention
  readers   : ReadersStand s u
  bays      : ∀ m, m ≠ n → u.bay m = s.bay m
  lines     : ∀ m, m ≠ n → u.line m = s.line m
  feeds     : ∀ m, m ≠ n → u.feed m = s.feed m
  lights    : ∀ m, m ≠ n → u.light m = s.light m
  ports     : ∀ place c, (u.channel place c).ports = (s.channel place c).ports
  enable    : (u.light n).enable = (s.light n).enable
  admission : u.scheduler.lastAdmission = s.scheduler.lastAdmission ∧ u.scheduler.staggerAt = s.scheduler.staggerAt ∧
    u.scheduler.hold = s.scheduler.hold
  balanced  : u.balanced
  shown     : u.phase = .running → u.shown n
  lit       : u.inCount n = true → u.lit n
  enclosure : u.enclosureLit s ∧ u.lights.enclosure.blue = s.lights.enclosure.blue
  pass      : (s.bay n).record.state = .spinningUp → (u.bay n).record.state ≠ .spinningUp → u.reports.pass = true
  head      : headBay u.scheduler.queue ≠ headBay s.scheduler.queue → u.reports.pass = true
  run       : (u.bay n).record.state ≠ (s.bay n).record.state → s.spentDelay → u.account.overCommitted = true →
    ((u.bay n).record.state.spinning = true ∨
      (u.account.usable5 < u.account.committed5 ∧ (u.bay n).record.state.powered = true)) → u.reports.run = true

/-- What a handling of the account alone leaves as it was: bays, lines, feeds, bay lights, scheduler, readers, RAM and Attention Units
stand; the account is balanced and the enclosure light derived, but within start-up (R179). -/
structure AccountHandled (s u : State) : Prop where
  bays      : u.bays = s.bays
  lines     : u.lines = s.lines
  feeds     : u.feeds = s.feeds
  lights    : u.lights.bays = s.lights.bays
  scheduler : u.scheduler = s.scheduler
  readers   : u.readers = s.readers
  attention : u.attention = s.attention
  balanced  : u.balanced
  enclosure : u.enclosureLit s ∧ u.lights.enclosure.amber.ports = s.lights.enclosure.amber.ports ∧
    u.lights.enclosure.blue = s.lights.enclosure.blue

/-- What a handling of sensors, zones, fans or settings alone leaves as it was: bays, lines, feeds, lights, account, scheduler, readers,
RAM, Attention Units and reports stand. -/
structure UnitsOnly (s u : State) : Prop where
  bays      : u.bays = s.bays
  lines     : u.lines = s.lines
  feeds     : u.feeds = s.feeds
  lights    : u.lights = s.lights
  account   : u.account = s.account
  scheduler : u.scheduler = s.scheduler
  readers   : u.readers = s.readers
  ram       : u.ram = s.ram
  attention : u.attention = s.attention
  reports   : u.reports = s.reports

/-- What a handling of the fans alone leaves as it was, beside the settings: as for `UnitsOnly`, but the enclosure light may move. -/
structure FansOnly (s u : State) : Prop where
  bays      : u.bays = s.bays
  lines     : u.lines = s.lines
  feeds     : u.feeds = s.feeds
  lights    : u.lights.bays = s.lights.bays ∧ u.lights.enclosure.blue = s.lights.enclosure.blue ∧
    u.lights.enclosure.amber.ports = s.lights.enclosure.amber.ports
  account   : u.account = s.account
  scheduler : u.scheduler = s.scheduler
  readers   : u.readers = s.readers
  ram       : u.ram = s.ram
  attention : u.attention = s.attention
  reports   : u.reports = s.reports

/-- What a handling of the lights alone leaves as it was, beside the settings: everything but the composed channels, the activity enables,
their stretches, the generations of light records and the status area. -/
structure LightsOnly (s u : State) : Prop where
  bays      : u.bays = s.bays
  lines     : u.lines = s.lines
  feeds     : u.feeds = s.feeds
  account   : u.account = s.account
  scheduler : u.scheduler = s.scheduler
  readers   : u.readers = s.readers
  ram       : u.ram = s.ram
  attention : u.attention = s.attention
  reports   : u.reports = s.reports
  late      : u.late = s.late

/-- What steps 1 to 3 of a port reset leave (R164), the windows in force then being w: the port's open slips gone and forgotten by their
operations, queue entries, fan check and store; its slots, floor and attention state clear, and its attention record is republished, with
its next generation where it was published before (R166, R175); the other port, bays, lines, account, reports and events as they were. -/
structure PortCleared (p : Port) (w : PerPort (Option Window)) (s c : State) : Prop where
  table     : (c.reader p).table = []
  other     : c.reader (Port.other p) = s.reader (Port.other p)
  outer     : c.outer =
    { s.outer with
      windows := w
      fans := { s.fans with
        floors := s.fans.floors.put p none
        check := s.fans.check.map fun k => if k.origin = p then { k with slip := none } else k }
      store := match s.store with
        | .none => .none
        | .storing q a image => .storing q (if q = p then none else a) image
        | .reloading q a => .reloading q (if q = p then none else a) }
  bays      : ∀ n, Bay.like
    { s.bay n with record := { (s.bay n).record with
        op := (s.bay n).record.op.map fun o => if o.origin = .slip p then { o with slip := none } else o } } (c.bay n)
  queue     : ∃ q, c.scheduler = { s.scheduler with queue := q } ∧ q.length = s.scheduler.queue.length ∧
    ∀ (i : Nat) (e : QueueEntry), s.scheduler.queue[i]? = some e →
      ((∃ o, (s.bay e.bay).record.op = some o ∧ o.origin = .slip p) → q[i]? = some { e with slip := none }) ∧
        (¬ (∃ o, (s.bay e.bay).record.op = some o ∧ o.origin = .slip p) → q[i]? = some e)
  lines     : c.lines = s.lines
  account   : c.account = s.account
  reports   : c.reports = s.reports
  late      : c.late = s.late
  channels  : ∀ place col, c.channel place col = (s.channel place col).putPort p none
  enable    : ∀ n, (c.light n).enable = (s.light n).enable ∧ (c.light n).stretch = (s.light n).stretch
  attention : (c.attention.get p).inService = 0 ∧ (∀ i : Fin 8, (c.attention.get p).pending[i] = false) ∧
    c.attention.get (Port.other p) = s.attention.get (Port.other p)
  record    : c.status.attention.get p = some { unit := c.attention.get p, config := s.settings.attention.get p } ∧
    c.status.bitmaps.a.getLsbD 79 = true ∧ c.status.bitmaps.b.getLsbD 79 = true ∧
    (s.status.attention.get p ≠ none → (c.attention.get p).gen = (s.attention.get p).gen + 1)

/-- R131: a channel shows a request when it is the non-empty slot of greatest priority, the higher slot winning between equals. -/
def Shows (c : Channel) (r : Request) : Prop :=
  let slot : Fin 3 → Option Request := fun | 0 => c.system | 1 => c.ports.a | 2 => c.ports.b
  ∃ i, slot i = some r ∧ ∀ j q, slot j = some q → q.priority < r.priority ∨ (q.priority = r.priority ∧ j ≤ i)

/-- Two sensors, zones or fans that differ at most in the generation of their records. -/
def Sensor.like (b c : Sensor) : Prop := { b with gen := c.gen } = c

/-- Two zones that differ at most in their generation. -/
def Zone.like (b c : Zone) : Prop := { b with gen := c.gen } = c

/-- Two fans that differ at most in the generation of their records. -/
def Fan.like (b c : Fan) : Prop := { b with record := { b.record with gen := c.record.gen } } = c

/-- The rank of a bay in the shed order's second key (R45). -/
def State.shedRank (s : State) (n : BayNo) : Nat :=
  match (s.bay n).record.state with
  | .spinningUp => 4
  | .ready => 3
  | .spinningDown => 2
  | .queued => 1
  | _ => 0

/-- Bay m stands before bay n in the shed order (R45): the higher class, then the higher rank, then the higher number. -/
def State.shedBefore (s : State) (m n : BayNo) : Prop :=
  (s.baySet n).cls < (s.baySet m).cls ∨
    ((s.baySet m).cls = (s.baySet n).cls ∧ (s.shedRank n < s.shedRank m ∨ (s.shedRank m = s.shedRank n ∧ n < m)))

/-- The state with its feeds marked as an evaluation marks them (R87, R89). -/
def State.feedsMarked (s : State) : State :=
  { s with feeds := s.feeds.map fun (f : BayFeed) => f.marked s.time (s.settings.staleTime * 1000) }

/-- The lines of a bay once its switches have come to a state (Table 1-3). -/
def BayLines.switched (l : BayLines) (sw5 sw12 : Bool) : BayLines := { l with sw5 := sw5, sw12 := sw12, trip := l.trip && sw5 }

/-- The admission queue without a bay. -/
def State.queueWithout (s : State) (n : BayNo) : List QueueEntry := s.scheduler.queue.filter fun e => e.bay != n

/-- Bay n's policy moves it when it comes to rest in OFF (R9): the latch does not hold it and the policy is not MANUAL. -/
def State.policyMoves (s : State) (n : BayNo) (rest : Bay) : Prop :=
  (rest.record.flags.latchOpen && (s.baySet n).latchStop) = false ∧ (s.baySet n).policy ≠ .manual

/-- The 5 V fit of a bay that contributes nothing yet (R38), from the bays' sums and the supplies alone. -/
def State.roomFor (s : State) (n : BayNo) : Prop := s.sum5 + (s.profileOf n).i5 ≤ s.usableBudget5

/-- What bay n's policy makes of it when it comes to rest in OFF as `rest` (R9). -/
def PolicyApplied (n : BayNo) (rest : Bay) (s u : State) : Prop :=
  let f := rest.record.flags
  let inLogic : BayFlags :=
    { wait5v := false, latchOpen := f.latchOpen, removalReady := false, drawHigh := false, shedThermal := false, shedPower := false }
  let c5 := (s.profileOf n).i5
  (¬ s.policyMoves n rest →
    (u.bay n).like rest ∧ u.line n = (s.line n).switched false false ∧ u.scheduler.queue = s.scheduler.queue) ∧
  (s.policyMoves n rest → ¬ s.roomFor n →
    (u.bay n).like { rest with record := { rest.record with flags := { f with wait5v := true } } } ∧
      u.line n = (s.line n).switched false false ∧ u.scheduler.queue = s.scheduler.queue) ∧
  (s.policyMoves n rest → s.roomFor n → (s.baySet n).policy = .logicOnly →
    (u.bay n).like (rest.stands .logic .policy s.time 0 c5 inLogic none) ∧
      u.line n = { (s.line n).switched true false with trip := false } ∧ u.scheduler.queue = s.scheduler.queue) ∧
  (s.policyMoves n rest → s.roomFor n → (s.baySet n).policy = .autoSpin →
    (u.bay n).like (rest.stands .queued .policy s.time 0 c5 inLogic (some (s.internalOp .spinUp))) ∧
      u.line n = { (s.line n).switched true false with trip := false } ∧
      u.scheduler.queue = enqueue (s.entryOf n none none) s.scheduler.queue)

/-- Bay n waits in OFF for 5 V, and no open latch with action STOP holds its policy move back (R10). -/
def State.waitsFor5 (s : State) (n : BayNo) : Prop :=
  (s.bay n).record.state = .off ∧ (s.bay n).record.flags.wait5v = true ∧
    ((s.bay n).record.flags.latchOpen && (s.baySet n).latchStop) = false

/-- Bay n, waiting in OFF for 5 V, moved by its policy, from x to u (R9, R10): to LOGIC, or through LOGIC to QUEUED under a SPIN_UP
operation with its entry in the queue; WAIT_5V, REMOVAL_READY and the SHED flags clear. -/
structure WaitMoved (n : BayNo) (x u : State) : Prop where
  handled   : BayHandled n x u
  feed      : u.feed n = x.feed n
  exchange  : u.exchange = x.exchange
  told      : u.told srcBayChange ∧ OnlyTold [srcBayChange, srcPower] x u
  line      : u.line n = (x.line n).switched true false
  logicOnly : (x.baySet n).policy = .logicOnly →
    (u.bay n).like ((x.bay n).stands .logic .policy x.time 0 (x.profileOf n).i5
      { BayFlags.clear with latchOpen := (x.bay n).record.flags.latchOpen } (x.bay n).record.op) ∧
      u.scheduler.queue = x.scheduler.queue
  autoSpin  : (x.baySet n).policy = .autoSpin →
    (u.bay n).like ((x.bay n).stands .queued .policy x.time 0 (x.profileOf n).i5
      { BayFlags.clear with latchOpen := (x.bay n).record.flags.latchOpen } (some (x.internalOp .spinUp))) ∧
      u.scheduler.queue = enqueue (x.entryOf n none none) x.scheduler.queue

/-! ### Settings in range -/

/-- A temperature lies within −40 to 150 °C (Table 4-1). -/
def TempInRange (t : Int) : Prop := -40 ≤ t ∧ t ≤ 150

/-- A point of a curve is in range (Table 4-1). -/
def CurvePoint.inRange (p : CurvePoint) : Prop := TempInRange p.t ∧ p.d ≤ 1000

/-- A zone's settings are in range and pass the checks of SET_ZONE (Table 4-1, R97, R98). -/
structure ZoneSettings.inRange (z : ZoneSettings) : Prop where
  points  : z.curve.p1.inRange ∧ z.curve.p2.inRange ∧ z.curve.p3.inRange ∧ z.curve.p4.inRange
  rising  : z.curve.p1.t < z.curve.p2.t ∧ z.curve.p2.t < z.curve.p3.t ∧ z.curve.p3.t < z.curve.p4.t
  duties  : z.curve.p1.d ≤ z.curve.p2.d ∧ z.curve.p2.d ≤ z.curve.p3.d ∧ z.curve.p3.d ≤ z.curve.p4.d
  temps   : TempInRange z.limits.ceiling ∧ TempInRange z.limits.critical ∧ z.limits.ceiling < z.limits.critical
  numbers : z.limits.h ≤ 10 ∧ z.limits.v ≤ 200 ∧ z.limits.staleFloor ≤ 1000 ∧ z.limits.shedTime ≤ 600

/-- A drive profile is in range (Table 2-8, R51). -/
def Profile.inRange (p : Profile) : Prop :=
  p.peak12 < 65536 ∧ p.steady12 ≤ p.peak12 ∧ p.i5 < 65536 ∧ 1000 ≤ p.spin ∧ p.spin ≤ 30000 ∧ 500 ≤ p.park ∧ p.park ≤ 10000

/-- The fan settings are in range (Table 5-1). -/
structure FanSettings.inRange (f : FanSettings) : Prop where
  count    : 1 ≤ f.count ∧ f.count ≤ 6
  maxRpm   : 1000 ≤ f.maxRpm ∧ f.maxRpm ≤ 30000
  currents : f.idle ≤ f.maxCur ∧ f.maxCur < 65536
  duties   : 100 ≤ f.dmin ∧ f.dmin ≤ 600 ∧ f.reserve ≤ 1000
  slews    : 10 ≤ f.slewUp ∧ f.slewUp ≤ 1000 ∧ 10 ≤ f.slewDown ∧ f.slewDown ≤ 1000

/-- The configuration of an attention source is in range (Table 8-4, R174). -/
def SourceConfig.inRange (c : SourceConfig) : Prop := 1 ≤ c.level ∧ c.level ≤ 7 ∧ c.vector ≠ 0xFF

/-- Every setting of a live copy is in the range of its table; the two fixed pattern entries hold zeros. -/
structure Settings.inRange (c : Settings) : Prop where
  timing    : 100 ≤ c.timing.settle ∧ c.timing.settle ≤ 2000 ∧ 5 ≤ c.timing.debounce ∧ c.timing.debounce ≤ 100 ∧
    c.timing.retryLimit ≤ 7 ∧ 1 ≤ c.timing.retryBase ∧ c.timing.retryBase ≤ 60
  profiles  : ∀ i : Fin 8, c.profiles[i].inRange
  supplies  : ∀ i : Fin 4, c.supplies[i].cap12 < 65536 ∧ c.supplies[i].cap5 < 65536
  account   : c.account.reserve12 < 65536 ∧ c.account.reserve5 < 65536 ∧ c.account.delay ≤ 10
  schedule  : 1 ≤ c.schedule.limit ∧ c.schedule.limit ≤ 16 ∧ c.schedule.stagger ≤ 10000
  zones     : ∀ z : Fin 4, c.zones[z].inRange
  staleTime : 10 ≤ c.staleTime ∧ c.staleTime ≤ 600
  sensors   : ∀ i : Fin 8, -10 ≤ c.sensors[i].offset ∧ c.sensors[i].offset ≤ 10
  fans      : c.fans.inRange
  patterns  : c.patterns[(0 : Fin 8)] = ⟨0, 0⟩ ∧ c.patterns[(1 : Fin 8)] = ⟨0, 0⟩
  attention : ∀ (p : Port) (i : Fin 8), (c.attention.get p)[i].inRange

/-! ### The values of a settings image (R177, Table 11-16) -/

/-- The two-byte number at an address of a memory, the low byte first. -/
def number16 (m : Memory) (a : Nat) : Nat := (Memory.read m a).toNat + 256 * (Memory.read m (a + 1)).toNat

/-- A temperature byte of an image or a slip: the temperature plus 40, a byte above 190 taken as 150 °C (R185). -/
def codedTemp (b : Byte) : Int := if 190 < b.toNat then 150 else (b.toNat : Int) - 40

/-- The curve an image holds for zone z, its values clamped (R97, R177). -/
def curveInImage (m : Memory) (z : Fin 4) : Curve :=
  let point (k : Nat) : CurvePoint :=
    { t := codedTemp (Memory.read m (0x1EA + 20 * z.val + k)), d := min 1000 (number16 m (0x1EA + 20 * z.val + k + 1)) }
  { p1 := point 0, p2 := point 3, p3 := point 6, p4 := point 9 }

/-- The limits an image holds for zone z, their values clamped (R98, R177). -/
def limitsInImage (m : Memory) (z : Fin 4) : ZoneLimits :=
  let a := 0x1F6 + 20 * z.val
  { h := min 10 (Memory.read m a).toNat, ceiling := codedTemp (Memory.read m (a + 1)), critical := codedTemp (Memory.read m (a + 2))
    v := min 200 (Memory.read m (a + 3)).toNat, staleFloor := min 1000 (number16 m (a + 4)), shedTime := min 600 (number16 m (a + 6)) }

/-- SET_ZONE's CURVE part takes this curve (R97). -/
def Curve.passes (c : Curve) : Prop :=
  (c.p1.t < c.p2.t ∧ c.p2.t < c.p3.t ∧ c.p3.t < c.p4.t) ∧ c.p1.d ≤ c.p2.d ∧ c.p2.d ≤ c.p3.d ∧ c.p3.d ≤ c.p4.d

/-- Two window settings that SET_WINDOWS accepts side by side (R181, R182): each a size code 0 to 3 and a base that is a multiple of its
size, wholly within 0x2000 to 0x7FFF, and no byte in both. -/
def WindowsPass (v w : WindowSetting) : Prop :=
  let size (x : WindowSetting) : Nat := 2048 * 2 ^ x.code.toNat
  let fits (x : WindowSetting) : Prop :=
    x.code.toNat ≤ 3 ∧ x.base.toNat % size x = 0 ∧ 0x2000 ≤ x.base.toNat ∧ x.base.toNat + size x ≤ 0x8000
  fits v ∧ fits w ∧ ¬ (v.base.toNat < w.base.toNat + size w ∧ w.base.toNat < v.base.toNat + size v)

/-- A live copy holds the values of an image, each clamped as its SET command clamps it, in every section but the zones' curves and limits
and the windows (R177, R181). -/
structure Settings.taken (m : Memory) (c : Settings) : Prop where
  bays      : ∀ n : BayNo, let b (k : Nat) : Nat := (Memory.read m (0x10 + 6 * n.val + k)).toNat
    c.bays[n].policy.code = min 2 (b 0) ∧ c.bays[n].cls.val = min 3 (b 1) ∧ c.bays[n].zone.val = min 3 (b 2) ∧
      c.bays[n].profile.val = min 7 (b 3) ∧ (c.bays[n].shedEligible = true ↔ b 4 ≠ 0) ∧ (c.bays[n].latchStop = true ↔ b 5 ≠ 0)
  timing    : c.timing =
    { settle := max 100 (min 2000 (number16 m 0x178)), debounce := max 5 (min 100 (Memory.read m 0x17A).toNat)
      retryLimit := min 7 (Memory.read m 0x17B).toNat, retryBase := max 1 (min 60 (Memory.read m 0x17C).toNat) }
  profiles  : ∀ i : Fin 8, let n (k : Nat) : Nat := number16 m (0x17E + 10 * i.val + k)
    c.profiles[i] = { peak12 := n 0, steady12 := min (n 2) (n 0), i5 := n 4, spin := max 1000 (min 30000 (n 6))
                      park := max 500 (min 10000 (n 8)) }
  supplies  : ∀ i : Fin 4, c.supplies[i] = { cap12 := number16 m (0x1CE + 4 * i.val), cap5 := number16 m (0x1D0 + 4 * i.val) }
  account   : c.account =
    { mode := if Memory.read m 0x1DE = 0 then .combined else .spareOne, reserve12 := number16 m 0x1DF, reserve5 := number16 m 0x1E1
      shed := decide (Memory.read m 0x1E3 ≠ 0), delay := min 10 (Memory.read m 0x1E4).toNat }
  schedule  : c.schedule = { limit := max 1 (min 16 (Memory.read m 0x1E6).toNat), stagger := min 10000 (number16 m 0x1E8) }
  staleTime : c.staleTime = max 10 (min 600 (number16 m 0x23A))
  sensors   : ∀ i : Fin 8, let b (k : Nat) : Byte := Memory.read m (0x23C + 2 * i.val + k)
    (c.sensors[i].zone = none ↔ b 0 = 0xFF) ∧ (∀ z, c.sensors[i].zone = some z → z.val = min 3 (b 0).toNat) ∧
      c.sensors[i].offset = max (-10) (min 10 (b 1).toInt)
  fans      : c.fans =
    { count := max 1 (min 6 (Memory.read m 0x24C).toNat), maxRpm := max 1000 (min 30000 (number16 m 0x24E))
      idle := min (number16 m 0x250) (number16 m 0x252), maxCur := number16 m 0x252, dmin := max 100 (min 600 (number16 m 0x254))
      slewUp := max 10 (min 1000 (number16 m 0x256)), slewDown := max 10 (min 1000 (number16 m 0x258))
      reserve := min 1000 (number16 m 0x25A) }
  patterns  : ∀ i : Fin 8, 2 ≤ i.val →
    c.patterns[i] = { on := Memory.read m (0x25C + 2 * (i.val - 2)), off := Memory.read m (0x25D + 2 * (i.val - 2)) }
  attention : ∀ (p : Port) (i : Fin 8),
    let b (k : Nat) : Byte := Memory.read m ((match p with | .a => 0x268 | .b => 0x288) + 4 * i.val + k)
    (c.attention.get p)[i] =
      { enable := decide (b 0 ≠ 0), level := max 1 (min 7 (b 1).toNat), auto := decide (b 2 ≠ 0)
        vector := if b 3 = 0xFF then 0xFE else b 3 }

/-- Some value of an image lies outside its range, so that it is taken clamped (R177, R181). -/
def ClampedInImage (m : Memory) : Prop :=
  let b (a : Nat) : Nat := (Memory.read m a).toNat
  let n := number16 m
  (∃ i : BayNo, let a := 0x10 + 6 * i.val
    2 < b a ∨ 3 < b (a + 1) ∨ 3 < b (a + 2) ∨ 7 < b (a + 3) ∨ 1 < b (a + 4) ∨ 1 < b (a + 5)) ∨
  n 0x178 < 100 ∨ 2000 < n 0x178 ∨ b 0x17A < 5 ∨ 100 < b 0x17A ∨ 7 < b 0x17B ∨ b 0x17C < 1 ∨ 60 < b 0x17C ∨
  (∃ i : Fin 8, let a := 0x17E + 10 * i.val
    n a < n (a + 2) ∨ n (a + 6) < 1000 ∨ 30000 < n (a + 6) ∨ n (a + 8) < 500 ∨ 10000 < n (a + 8)) ∨
  1 < b 0x1DE ∨ 1 < b 0x1E3 ∨ 10 < b 0x1E4 ∨ b 0x1E6 < 1 ∨ 16 < b 0x1E6 ∨ 10000 < n 0x1E8 ∨
  (∃ z : Fin 4, let a := 0x1EA + 20 * z.val
    (∃ k, k < 4 ∧ (190 < b (a + 3 * k) ∨ 1000 < n (a + 3 * k + 1))) ∨ 10 < b (a + 12) ∨ 190 < b (a + 13) ∨ 190 < b (a + 14) ∨
      200 < b (a + 15) ∨ 1000 < n (a + 16) ∨ 600 < n (a + 18)) ∨
  n 0x23A < 10 ∨ 600 < n 0x23A ∨
  (∃ i : Fin 8, let a := 0x23C + 2 * i.val
    (4 ≤ b a ∧ b a ≠ 0xFF) ∨ (Memory.read m (a + 1)).toInt < -10 ∨ 10 < (Memory.read m (a + 1)).toInt) ∨
  b 0x24C < 1 ∨ 6 < b 0x24C ∨ n 0x24E < 1000 ∨ 30000 < n 0x24E ∨ n 0x252 < n 0x250 ∨ n 0x254 < 100 ∨ 600 < n 0x254 ∨
  n 0x256 < 10 ∨ 1000 < n 0x256 ∨ n 0x258 < 10 ∨ 1000 < n 0x258 ∨ 1000 < n 0x25A ∨
  ∃ (p : Port) (i : Fin 8), let a := (match p with | .a => 0x268 | .b => 0x288) + 4 * i.val
    1 < b a ∨ b (a + 1) < 1 ∨ 7 < b (a + 1) ∨ 1 < b (a + 2) ∨ b (a + 3) = 0xFF

/-! ### Invariants -/

/-- The exchange RAM and the settings memory keep the canonical form. -/
def State.memoriesCanonical (s : State) : Prop := Memory.wf s.ram ∧ Memory.wf s.settingsMem

/-- An open slip's address is a slip position of its port's window in force (R156, R160). -/
def State.openAt (s : State) (p : Port) (e : OpenSlip) : Prop :=
  ∃ w, s.windows.get p = some w ∧ w.isSlip e.addr.toNat = true

/-- The open-slip tables (R160): each holds at most 16 slips, no address twice, each at a slip position of the port's window in force;
a reader that waits for a post or for room waits on a slip position that no open slip holds. Through the settings load no window is in
force, no slip is open and both readers are IDLE_LOADING (R165, R178; port B's of a part strapped for A only by log entry 46). -/
def State.tablesSound (s : State) : Prop :=
  (∀ p, (s.reader p).table.length ≤ 16 ∧ ((s.reader p).table.map (·.addr)).Nodup ∧ (∀ e ∈ (s.reader p).table, s.openAt p e) ∧
    ((s.reader p).state = .waitingPost ∨ (s.reader p).state = .waitingRoom → s.linkValid p (s.reader p).cursor = true)) ∧
  (s.phase = .loading → s.windows = ⟨none, none⟩ ∧ ∀ p, (s.reader p).state = .idleLoading ∧ (s.reader p).table = [])

/-- Every bay is EMPTY through the settings load (R29, R30). -/
def State.emptyWhileLoading (s : State) : Prop := s.phase = .loading → ∀ n, (s.bay n).record.state = .empty

/-- The admission queue (R55, R56): the bays it holds are exactly those in QUEUED, each once, in class order. -/
def State.queueSound (s : State) : Prop :=
  (∀ n, (s.bay n).record.state = .queued ↔ n ∈ s.scheduler.queue.map (·.bay)) ∧ (s.scheduler.queue.map (·.bay)).Nodup ∧
    s.scheduler.queue.Pairwise (fun d e => d.cls ≤ e.cls) ∧ s.emptyWhileLoading

/-- The duty (R110, R122, R125): from Dmin to 1000; 1000 while a zone is CRITICAL, COOLING_LOST is set or a fan check runs, and
through the settings load. -/
def State.dutySound (s : State) : Prop :=
  s.settings.fans.dmin ≤ s.fans.c ∧ s.fans.c ≤ 1000 ∧ (s.emergency s.fans.coolingLost = true ∨ s.phase = .loading → s.fans.c = 1000)

/-- While the part runs the switches follow the bays' states (R4), and a bay beyond the strapped count is EMPTY (R2). Through the
settings load of a cold reset every switch is open (R29). -/
def State.switchesFollow (s : State) : Prop :=
  (s.phase = .running → ∀ n,
    (s.line n).sw5 = (s.bay n).record.state.powered ∧ (s.line n).sw12 = (s.bay n).record.state.spinning ∧
      (s.inCount n = false → (s.bay n).record.state = .empty)) ∧
    (s.phase = .loading → s.resetKind = .cold → ∀ n, (s.line n).sw5 = false ∧ (s.line n).sw12 = false) ∧ s.emptyWhileLoading

/-- Between steps every event that was raised has reached its Attention Unit (R166), no handling holds the summary record back (R167),
and while the part runs every record of the status area stands as its owner holds its fields. -/
def State.published (s : State) : Prop :=
  s.late = [] ∧ s.reports.summaryHeld = false ∧ (s.phase = .running → s.recorded)

/-! ### Change bitmaps (section 8.2) -/

/-- Position k is set in both ports' change bitmaps. -/
def Status.marks (t : Status) (k : Nat) : Prop := t.bitmaps.a.getLsbD k = true ∧ t.bitmaps.b.getLsbD k = true

/-- Every record that stands otherwise in the status area t than in s has its position of Tables 8-1 and 8-2 set in both bitmaps of t, and
positions 60 to 63 are set in t only where they were (R168). -/
structure Status.marked (s t : Status) : Prop where
  bays      : ∀ n : BayNo, t.bays[n] ≠ s.bays[n] → t.marks n.val
  lights    : ∀ n : BayNo, t.lights[n] ≠ s.lights[n] → t.marks n.val
  fans      : ∀ i : Fin 6, t.fans[i] ≠ s.fans[i] → t.marks (64 + i.val)
  supplies  : ∀ i : Fin 4, t.supplies[i] ≠ s.supplies[i] → t.marks (70 + i.val)
  zones     : ∀ z : Fin 4, t.zones[z] ≠ s.zones[z] → t.marks (74 + z.val)
  sensors   : ∀ i : Fin 8, t.sensors[i] ≠ s.sensors[i] → t.marks 78
  summary   : t.summary ≠ s.summary → t.marks 79
  queue     : t.queue ≠ s.queue → t.marks 79
  enclosure : t.enclosure ≠ s.enclosure → t.marks 79
  readers   : ∀ p, t.readers.get p ≠ s.readers.get p → t.marks 79
  attention : ∀ p, t.attention.get p ≠ s.attention.get p → t.marks 79
  spare     : ∀ p k, 60 ≤ k → k < 64 → (t.bitmaps.get p).getLsbD k = true → (s.bitmaps.get p).getLsbD k = true

end Sys2Proof.Machine
end

