-- ==== Sys2Proof/WellFormed.lean ====
section
/-! DEFINITION. Which terms of Instr are commands the table describes: the conditions its rows put on their operands. -/

namespace Sys2Proof

/-- A slip lies at a 32-byte-aligned address between the lowest and the highest slip position any window can hold (R147, R148). -/
def SlipHead.placed (h : SlipHead) : Bool :=
  decide (h.addr.toNat % 32 = 0) && decide (0x2080 ≤ h.addr.toNat) && decide (h.addr.toNat < 0x8000)

/-- The target names the enclosure (Table 7-6). -/
def SlipHead.enclosure (h : SlipHead) : Bool := h.target == 0xFE

/-- The three transactions of Table 11-1. -/
def isTransaction (opcode : Byte) : Bool := opcode == 0x4B || opcode == 0x4C || opcode == 0x4D

/-- The slip of a slip command; none for a command that is no slip. -/
def Instr.slip? : Instr → Option SlipHead
  | .powerOn h | .powerOff h | .prepareRemoval h | .clearFault h | .spinDown h | .fanCheck h | .note h | .storeSettings h
  | .reloadSettings h => some h
  | .setBay h _ => some h
  | .spinUp h _ => some h
  | .setSchedule h _ => some h
  | .setSupplySlot h _ => some h
  | .setSupplyEnclosure h _ => some h
  | .setProfile h _ => some h
  | .setZoneCurve h _ => some h
  | .setZoneLimits h _ => some h
  | .setZoneStaleTime h _ => some h
  | .setSensor h _ => some h
  | .setFloor h _ _ => some h
  | .setFans h _ => some h
  | .setLight h _ => some h
  | .setPattern h _ => some h
  | .cancel h _ => some h
  | .setAttention h _ => some h
  | .setWindows h _ => some h
  | .coldReset _ _ | .warmReset _ _ | .startUp _ | .read _ _ _ | .write _ _ _ | .waitingRoomWake _ | .status _ _
  | .voidTransaction _ _ _ | .take _ | .done _ _ | .portReset _ _ | .registerWriteDiscarded _ _ | .presenceAssert _
  | .presenceDeassert _ | .settleExpiry _ | .bounce _ | .surpriseRemoval _ | .latchOpen _ | .latchClose _ | .switchTrip _
  | .backoffExpiry _ | .spinWindowEnd _ | .parkWindowEnd _ | .staggerExpiry | .deadlineExpiry _ | .supplyInputChange _ _ _
  | .shedDelayExpiry | .currentSample _ _ | .sensorScan | .sensorRead _ _ | .coolingPeriod | .criticalTimerExpiry _
  | .fanPresenceReport _ _ | .startingExpiry _ | .tachReport _ _ | .fanCheckEnd | .floorExpiry _ | .chainRefresh _
  | .lightExpiry _ _ _ | .storeSettingsEnd | .storeWriteFailed _ | .reloadReadEnd _ => none

/-- An event within start-up is one that Table 11-1 frames: a void transaction has another opcode. -/
def StartUpEvent.fits : StartUpEvent → Bool
  | .void _ opcode _ => !isTransaction opcode
  | .read _ _ _ | .write _ _ _ | .status _ _ | .coldReset _ | .warmReset _ => true

/-- What each row that shares its command with another row asks of its target or opcode (Tables 7-6, 11-1 and 11-7): SET_SUPPLY and
SET_ZONE are split by target, and a void transaction is one with an opcode outside
Table 11-1, by itself or within start-up. -/
def Instr.rowFits : Instr → Bool
  | .voidTransaction _ opcode _ => !isTransaction opcode
  | .startUp run => run.during.all fun e => e.2.fits
  | .setSupplySlot h _ => !h.enclosure
  | .setSupplyEnclosure h _ => h.enclosure
  | .setZoneCurve h _ => !h.enclosure
  | .setZoneLimits h _ => !h.enclosure
  | .setZoneStaleTime h _ => h.enclosure
  | .powerOn _ | .powerOff _ | .prepareRemoval _ | .clearFault _ | .spinDown _ | .fanCheck _ | .note _ | .storeSettings _
  | .reloadSettings _ | .setBay _ _ | .spinUp _ _ | .setSchedule _ _ | .setProfile _ _ | .setSensor _ _ | .setFloor _ _ _
  | .setFans _ _ | .setLight _ _ | .setPattern _ _ | .cancel _ _ | .setAttention _ _ | .setWindows _ _
  | .coldReset _ _ | .warmReset _ _ | .read _ _ _ | .write _ _ _ | .waitingRoomWake _ | .status _ _ | .take _
  | .done _ _ | .portReset _ _ | .registerWriteDiscarded _ _ | .presenceAssert _
  | .presenceDeassert _ | .settleExpiry _ | .bounce _ | .surpriseRemoval _ | .latchOpen _ | .latchClose _ | .switchTrip _
  | .backoffExpiry _ | .spinWindowEnd _ | .parkWindowEnd _ | .staggerExpiry | .deadlineExpiry _ | .supplyInputChange _ _ _
  | .shedDelayExpiry | .currentSample _ _ | .sensorScan | .sensorRead _ _ | .coolingPeriod | .criticalTimerExpiry _
  | .fanPresenceReport _ _ | .startingExpiry _ | .tachReport _ _ | .fanCheckEnd | .floorExpiry _ | .chainRefresh _
  | .lightExpiry _ _ _ | .storeSettingsEnd | .storeWriteFailed _ | .reloadReadEnd _ => true

/-- A well-formed command: its slip, if it is one, lies at a possible slip position, and its row is the one its operands call for. -/
def WellFormed (i : Instr) : Bool :=
  (match i.slip? with
   | none => true
   | some h => h.placed) && i.rowFits

end Sys2Proof
end

