-- ==== Sys2Proof/Certificates/Slice0/Obligations.lean ====
section
/-! DEFINITION. The statements about the PB660 for the provers. Each docstring names the rules it formalises. -/

open Sys2Proof Sys2Proof.Machine

/-! ### The block -/

/-- A step runs the command at the front of the queue on the state with the queue's rest; on an empty queue one millisecond of part time
passes and nothing else happens (log entry 1: the model's choice). -/
def Obligations.StepRunsFrontCommand : Prop :=
  (∀ (c : Instr) (rest : List Instr) (s : State), step { s with pending := c :: rest } = exec c { s with pending := rest }) ∧
    ∀ s : State, s.pending = [] → step s = .next { s with time := s.time + 1 }

/-- The model's choice (log entries 7 and 8): a command row that finds no timer due, no operation of its kind running, no reader with room
or sensor waiting, or no slip to take, leaves the state as it is; a trip that is not taken moves its own pin. -/
def Obligations.CommandsNotTakenChangeNothing : Prop :=
  ∀ (s : State) (n : BayNo) (i : Fin 6) (j : Fin 8) (p : Port) (place : LightPlace) (c : Colour),
    let off := s.phase ≠ .running
    let b := s.bay n
    (∀ (cmd : Instr) (h : SlipHead), cmd.slip? = some h → s.takeable h = false → exec cmd s = .next s) ∧
    (off ∨ b.record.state ≠ .settling ∨ Time.due s.time b.settleAt = false → exec (.settleExpiry n) s = .next s) ∧
    (off ∨ b.record.state ≠ .settling ∨ Time.due s.time b.absenceAt = false → exec (.bounce n) s = .next s) ∧
    (off ∨ b.record.state.fromOff = false ∨ Time.due s.time b.absenceAt = false → exec (.surpriseRemoval n) s = .next s) ∧
    (off ∨ b.record.state ≠ .faulted ∨ Time.due s.time b.backoffAt = false → exec (.backoffExpiry n) s = .next s) ∧
    (off ∨ b.record.state ≠ .spinningUp ∨ Time.due s.time b.spinAt = false → exec (.spinWindowEnd n) s = .next s) ∧
    (off ∨ b.record.state ≠ .spinningDown ∨ Time.due s.time b.parkAt = false → exec (.parkWindowEnd n) s = .next s) ∧
    (off ∨ b.record.state ≠ .queued ∨ (∀ o, b.record.op = some o → Time.due s.time o.deadline = false) →
      exec (.deadlineExpiry n) s = .next s) ∧
    (off ∨ b.record.state.powered = false → ∃ t : Bool, exec (.switchTrip n) s = .next (s.putLine n { s.line n with trip := t }) ∧
      ((s.line n).sw5 = false → (s.line n).sw12 = false → t = (s.line n).trip)) ∧
    (off ∨ Time.due s.time s.scheduler.staggerAt = false → exec .staggerExpiry s = .next s) ∧
    (off ∨ Time.due s.time s.account.shedTimer = false → exec .shedDelayExpiry s = .next s) ∧
    (off ∨ Time.due s.time s.scanAt = false → exec .sensorScan s = .next s) ∧
    (∀ result, off ∨ s.scan.left.head? ≠ some j → exec (.sensorRead j result) s = .next s) ∧
    (off ∨ Time.due s.time s.coolingAt = false → exec .coolingPeriod s = .next s) ∧
    (off ∨ s.fans.fans[i].record.state ≠ .starting ∨ Time.due s.time s.fans.fans[i].record.startingAt = false →
      exec (.startingExpiry i) s = .next s) ∧
    (∀ pulses, off ∨ s.fans.fans[i].record.state = .unused → exec (.tachReport i pulses) s = .next s) ∧
    (off ∨ (∀ k, s.fans.check = some k → Time.reached s.time (Time.plus k.start 15000) = false) → exec .fanCheckEnd s = .next s) ∧
    (off ∨ (∀ f, s.fans.floors.get p = some f → Time.due s.time f.expiry = false) → exec (.floorExpiry p) s = .next s) ∧
    (∀ activity, off ∨ Time.due s.time s.refreshAt = false → exec (.chainRefresh activity) s = .next s) ∧
    (off ∨ (∀ r, (s.channel place c).ports.get p = some r → Time.due s.time r.expiry = false) →
      exec (.lightExpiry p place c) s = .next s) ∧
    (off ∨ (∀ q slip image, s.store ≠ .storing q slip image) →
      exec .storeSettingsEnd s = .next s ∧ ∀ k, exec (.storeWriteFailed k) s = .next s) ∧
    (off ∨ (∀ q slip, s.store ≠ .reloading q slip) → ∀ answered, exec (.reloadReadEnd answered) s = .next s) ∧
    (off ∨ (s.reader p).state ≠ .waitingRoom ∨ 16 ≤ (s.reader p).table.length → exec (.waitingRoomWake p) s = .next s) ∧
    (s.phase ≠ .loading → ∀ run, exec (.startUp run) s = .next s)

/-- R154, R158 and each command's own rule: a target that the command does not take ends its slip BAD_TARGET, and nothing else changes.
That such a slip carries no result data is log entry 13, and that a SET_PROFILE so refused gives no admission opportunity log entry 43 (the
model's choices). -/
def Obligations.BadTargetsRefused : Prop :=
  ∀ (s : State) (h : SlipHead), s.takeable h = true →
    let refused (c : Instr) : Prop := exec c s = .next ((s.answered h .badTarget false false none).finishSlip h.port)
    let t := h.target.toNat
    (s.bayTarget h.target = none →
      refused (.powerOn h) ∧ refused (.powerOff h) ∧ refused (.prepareRemoval h) ∧ refused (.clearFault h) ∧
        (∀ a, refused (.setBay h a)) ∧ (∀ d, refused (.spinUp h d)) ∧ refused (.spinDown h) ∧
        (t ≠ 0xFE → ∀ a, refused (.setLight h a))) ∧
    (t ≠ 0xFE →
      (∀ a, refused (.setSchedule h a)) ∧ (∀ a, refused (.setSupplyEnclosure h a)) ∧ (∀ v, refused (.setZoneStaleTime h v)) ∧
        (∀ d e, refused (.setFloor h d e)) ∧ (∀ a, refused (.setFans h a)) ∧ refused (.fanCheck h) ∧ (∀ a, refused (.cancel h a)) ∧
        refused (.note h) ∧ refused (.storeSettings h) ∧ refused (.reloadSettings h)) ∧
    (s.straps.store = false → refused (.storeSettings h) ∧ refused (.reloadSettings h)) ∧
    (4 ≤ t → (∀ a, refused (.setSupplySlot h a)) ∧ (∀ a, refused (.setZoneCurve h a)) ∧ ∀ a, refused (.setZoneLimits h a)) ∧
    (8 ≤ t → (∀ a, refused (.setProfile h a)) ∧ (∀ a, refused (.setSensor h a)) ∧ ∀ a, refused (.setAttention h a)) ∧
    (t < 2 ∨ 8 ≤ t → ∀ a, refused (.setPattern h a)) ∧ (2 ≤ t → ∀ w, refused (.setWindows h w))

/-! ### Resets and start-up (chapters 1 and 9) -/

/-- What a reset leaves while the settings load runs, of either kind; the status area is all 0x00 (R169). That port B's
reader of a part strapped for A only is IDLE_LOADING too is log entry 46 (the model's choice). -/
def Obligations.ResetsBeginLoad : Prop :=
  ∀ (s : State) (straps : Straps) (writes : Nat),
    let begun (t : State) : Prop :=
      t.phase = .loading ∧ t.time = 0 ∧ t.fans.c = 1000 ∧ t.scheduler.queue = [] ∧ t.scheduler.lastAdmission = none ∧
        t.scheduler.staggerAt = none ∧ t.store = .none ∧ t.fans.check = none ∧ t.fans.floors = ⟨none, none⟩ ∧
        t.windows = ⟨none, none⟩ ∧ t.late = [] ∧ t.quiet ∧
        (∀ n, let r := (t.bay n).record
          r.state = .empty ∧ r.reason = .reset ∧ r.flags = .clear ∧ r.c12 = 0 ∧ r.c5 = 0 ∧ r.retries = 0 ∧ r.trips = 0 ∧
            r.insertions = 0 ∧ r.bounces = 0 ∧ r.op = none) ∧
        (∀ p, (t.reader p).state = .idleLoading ∧ (t.reader p).table = [] ∧ (t.reader p).cursor = 0 ∧
          (t.links.get p).denied = false ∧ (t.attention.get p).inService = 0 ∧
          ∀ i : Fin 8, (t.attention.get p).pending[i] = false) ∧
        (∀ n, (t.light n).enable = true ∧ (t.light n).stretch = none) ∧
        (∀ place c, t.channel place c = { system := none, ports := ⟨none, none⟩ }) ∧
        t.lights.chain = { amber := 0, blue := 0, green := 0, encAmber := false, encBlue := false } ∧
        ∀ a, t.statusByte a = 0
    let kept (t : State) : Prop :=
      t.pending = s.pending ∧ t.straps = straps ∧ t.supplyLines = s.supplyLines ∧
        (∀ i : Fin 6, t.fans.fans[i].present = s.fans.fans[i].present) ∧
        ((∀ p slip image, s.store ≠ .storing p slip image) → t.settingsMem = s.settingsMem) ∧
        (∀ n, (t.line n).presence = (s.line n).presence ∧ (t.line n).latch = (s.line n).latch)
    (∃ t : State, exec (.coldReset straps writes) s = .next t ∧ begun t ∧ kept t ∧ t.resetKind = .cold ∧ t.driving = true ∧
      (∀ n, (t.line n).sw5 = false ∧ (t.line n).sw12 = false) ∧ ∀ a, Memory.read t.ram a = 0) ∧
    (∃ t : State, exec (.warmReset straps writes) s = .next t ∧ begun t ∧ kept t ∧ t.resetKind = .warm ∧ t.driving = false ∧
      t.lines = s.lines ∧ t.ram = s.ram) ∧
    begun State.reset ∧ State.reset.resetKind = .cold ∧ (∀ n, (State.reset.line n).sw5 = false ∧ (State.reset.line n).sw12 = false) ∧
    ∀ a, Memory.read State.reset.ram a = 0

/-- R179, R9, R29, R30, R33, R53, R80, R147, R165, R169: start-up. Where the anchors' links are 0, and on a warm reset every policy is MANUAL: the live
copy and the origin are the load's, the units start from their settings, the windows are checked in their order, every bay record is
published with generation 0, both bitmaps are all set, the readers park, LOAD_DONE has reached the units, and POWER exactly where
REDUNDANCY_LOST was set or the account is over-committed (R33, R53; that the supplies' first sampling raises none of its own is DEDUCED, log
entry 14); a cold reset's seated drives settle, and a warm reset's bays are rediscovered by Table 1-9. In every case: the bays of step 3
(d), the account and its POWER, the policy of each rediscovered OFF bay in ascending number (r), the publication (v), then each reader's
start at its anchor's link. A link transaction within
start-up acts between two steps as its own command does, with start-up's events and reports left for the steps that act on them; a reset
within it abandons it. That reader A starts before reader B is log entry 25, that the first scan is due 1000 ms after the load's end log
entry 35, the first refresh 10 ms after it log entry 15, where a transaction can fall within start-up log entry 42, and that until
step 8 port B's reader of a part strapped for A only is IDLE_LOADING log entry 46 (the model's choices). -/
def Obligations.StartUpRuns : Prop :=
  ∀ (kind : ResetKind) (w : Surroundings) (now : Time) (answered : Bool),
    let s : State := { State.loading kind w with time := now }
    let cause := s.imageCause answered
    let set := Settings.loaded w.settingsMem cause
    let inA := windowOf set.windows.a
    let inB := if w.straps.portB then (match windowOf set.windows.b with
      | none => none
      | some v => if (∃ o, inA = some o ∧ v.base < o.base + o.size ∧ o.base < v.base + v.size) then none else some v) else none
    let manual := (∀ n : BayNo, set.bays[n].policy = .manual) ∧ (set.account.shed = false ∨ set.account.delay ≠ 0)
    let found (n : BayNo) : BayState :=
      let l := w.lines[n]
      if l.presence = false then .empty
      else if l.trip = true ∧ (l.sw5 = true ∨ l.sw12 = true) then .faulted
      else if l.sw5 = true then (if l.sw12 = true then .ready else .logic) else .off
    let supply (i : Fin 4) : SupplyState :=
      if set.supplies[i].cap12 = 0 ∧ set.supplies[i].cap5 = 0 ∨ w.supplyLines[i].present = false then .absent
      else if w.supplyLines[i].good then .good else .failed
    let gone := set.account.mode = .spareOne ∧ ((List.finRange 4).filter fun i => supply i == .good).length < 2
    let settling : Bay :=
      { Bay.cold with
        record := { BayRecord.cold with
          state := .settling, reason := .presence, entered := now, op := some (s.internalOp .settle) }
        settleAt := some (Time.plus now set.timing.settle) }
    ((∀ v, inA = some v ∨ inB = some v → Memory.read16 w.ram (v.base + 0x1C) = 0) →
    ∃ t : State, exec (.startUp ⟨answered, []⟩) s = .next t ∧
      (kind = .cold ∨ manual → t.phase = .running ∧ t.pending = w.pending ∧ t.time = now ∧ t.straps = w.straps ∧ t.settings = set ∧
        t.cause = cause ∧ (t.origin = .image ↔ cause = .none) ∧ t.store = .none ∧ t.settingsMem = w.settingsMem ∧ t.ram = w.ram ∧
        t.late = [] ∧ t.quiet ∧ t.windows = ⟨inA, inB⟩ ∧ t.driving = true ∧
        (∀ p, (t.reader p).table = [] ∧ (t.reader p).cursor = 0 ∧ (match t.windows.get p with
          | none => (t.reader p).state = .disabled ∧ (t.reader p).watch = 0
          | some v => (t.reader p).state = .parked ∧ (t.reader p).watch = BitVec.ofNat 16 (v.base + 0x1C))) ∧
        t.fans.c = 1000 ∧ t.scanAt = some (Time.plus now 1000) ∧ t.coolingAt = some (Time.plus now 1000) ∧
        t.refreshAt = some (Time.plus now 10) ∧ t.scheduler.queue = [] ∧ t.balanced ∧
        (∀ i : Fin 6, t.fans.fans[i].record.state =
          if set.fans.count ≤ i.val then .unused else if w.fanPresence[i] then .starting else .absent) ∧
        (∀ i : Fin 4, t.account.supplies[i].state = supply i) ∧
        (∀ i : Fin 8, t.sensors[i].state = if set.sensors[i].zone = none then .unused else .noData) ∧
        (∀ z : Fin 4, t.zones[z].state = .normal ∧ t.zones[z].e = set.zones[z].curve.p1.t ∧ t.zones[z].timer = .stopped) ∧
        (∀ n, t.shown n ∧ (t.bay n).record.gen = 0) ∧ t.status.bitmaps = ⟨BitVec.allOnes 80, BitVec.allOnes 80⟩ ∧
        (∀ p, (t.attention.get p).pending[srcLoadDone] = (set.attention.get p)[srcLoadDone].enable) ∧
        (∀ p, (t.attention.get p).pending[srcPower] = true ↔
          (set.attention.get p)[srcPower].enable = true ∧ (gone ∨ t.account.overCommitted = true))) ∧
      (kind = .cold → ∀ n : BayNo,
        (s.inCount n = true → w.lines[n].presence = true → (t.bay n).like settling) ∧
        (s.inCount n = false ∨ w.lines[n].presence = false → t.bay n = .cold)) ∧
      (kind = .warm → manual → ∀ n : BayNo, s.inCount n = true →
        let l := w.lines[n]
        let r := (t.bay n).record
        let st := found n
        let p := set.profiles[set.bays[n].profile]
        r.state = st ∧ r.reason = .rediscovered ∧ r.entered = now ∧ r.c12 = (if st = .ready then p.steady12 else 0) ∧
          r.c5 = (if st = .ready ∨ st = .logic then p.i5 else 0) ∧ r.trips = (if st = .faulted then 1 else 0) ∧
          r.flags = { BayFlags.clear with latchOpen := decide (st ≠ .empty) && l.latch } ∧ r.retries = 0 ∧
          r.op = (if st = .faulted ∧ 0 < set.timing.retryLimit then some (s.internalOp .retryWait) else none) ∧
          t.line n = { l with sw5 := st.powered, sw12 := st.spinning, trip := l.trip && st.powered })) ∧
    (∃ (d v : State) (r : Nat → State),
      d = ((s.distribute answered).raiseBoth srcLoadDone).startBays ∧ r 60 = (r 0).startPolicies ∧
      v = { (r 60).lightEnclosure.publishAll.deliver with phase := .running } ∧
      (d.phase = .starting ∧ d.time = now ∧ d.straps = w.straps ∧ d.settings = set ∧ d.cause = cause ∧ d.ram = w.ram ∧
        d.windows = ⟨inA, inB⟩ ∧ d.scheduler.queue = [] ∧ d.scheduler.lastAdmission = none ∧
        d.account.fanRes = set.fans.count * set.fans.maxCur ∧ (∀ i : Fin 4, d.account.supplies[i].state = supply i) ∧
        (d.account.redundancyLost = true ↔ gone)) ∧
      (kind = .cold → ∀ n : BayNo,
        (s.inCount n = true → w.lines[n].presence = true →
          (d.bay n).like settling ∧ d.line n = (w.lines[n] : BayLines).switched false false) ∧
        (s.inCount n = false ∨ w.lines[n].presence = false → d.bay n = .cold ∧ d.line n = w.lines[n])) ∧
      (kind = .warm → ∀ n : BayNo,
        let l := w.lines[n]
        let st := found n
        let p := set.profiles[set.bays[n].profile]
        let waits := st = .faulted ∧ 0 < set.timing.retryLimit
        (s.inCount n = false → d.bay n = .cold ∧ d.line n = { l with trip := false, sw5 := false, sw12 := false }) ∧
        (s.inCount n = true →
          (d.bay n).like
            { Bay.cold with
              record := { BayRecord.cold with
                state := st, reason := .rediscovered, entered := now, c12 := if st = .ready then p.steady12 else 0
                c5 := if st = .ready ∨ st = .logic then p.i5 else 0, trips := if st = .faulted then 1 else 0
                flags := { BayFlags.clear with latchOpen := decide (st ≠ .empty) && l.latch }
                op := if waits then some (s.internalOp .retryWait) else none }
              backoffAt := if waits then some (Time.plus now (min 300 set.timing.retryBase * 1000)) else none } ∧
            d.line n = { l with sw5 := st.powered, sw12 := st.spinning, trip := l.trip && st.powered } ∧
            d.feed n = { BayFeed.cold with spinStart := if st = .ready then some now else none })) ∧
      r 0 = d.accountUpdate.settle ∧
      (∀ n : BayNo,
        let x := r n.val
        let y := r (n.val + 1)
        let b := x.bay n
        let f := b.record.flags
        let rests := kind = .warm ∧ b.record.state = .off ∧ b.record.reason = .rediscovered
        let c5 := (x.profileOf n).i5
        let fits := x.account.committed5 + c5 ≤ x.account.usable5
        let inLogic : BayFlags :=
          { wait5v := false, latchOpen := f.latchOpen, removalReady := false, drawHigh := false, shedThermal := false,
            shedPower := false }
        (¬ rests → y = x) ∧
        (rests → ¬ x.policyMoves n b ∨ (¬ fits ∧ f.wait5v = true) → y = x.settle) ∧
        (rests → x.policyMoves n b → fits ∨ f.wait5v = false →
          ∃ u : State, y = u.settle ∧ BayHandled n x u ∧ u.feed n = x.feed n ∧ u.exchange = x.exchange ∧ u.told srcBayChange ∧
            OnlyTold [srcBayChange, srcPower] x u ∧
            (¬ fits → (u.bay n).like { b with record := { b.record with flags := { f with wait5v := true } } } ∧
              u.line n = x.line n ∧ u.scheduler.queue = x.scheduler.queue) ∧
            (fits → u.line n = (x.line n).switched true false ∧
              ((x.baySet n).policy = .logicOnly →
                (u.bay n).like (b.stands .logic .policy now 0 c5 inLogic b.record.op) ∧ u.scheduler.queue = x.scheduler.queue) ∧
              ((x.baySet n).policy = .autoSpin →
                (u.bay n).like (b.stands .queued .policy now 0 c5 inLogic (some (s.internalOp .spinUp))) ∧
                  u.scheduler.queue = enqueue (x.entryOf n none none) x.scheduler.queue)))) ∧
      (r 60).outer = d.outer ∧ (∀ p, (p, srcLoadDone) ∈ (r 60).late) ∧ (gone → ∀ p, (p, srcPower) ∈ (r 60).late) ∧
      (d.accountUpdate.account.overCommitted = true → ∀ p, (p, srcPower) ∈ (r 60).late) ∧
      (v.phase = .running ∧ v.late = [] ∧ v.outer = { (r 60).outer with phase := .running } ∧ v.bays = (r 60).bays ∧
        v.lines = (r 60).lines ∧ v.feeds = (r 60).feeds ∧ v.account = (r 60).account ∧ v.scheduler = (r 60).scheduler ∧
        v.readers = (r 60).readers ∧ v.ram = (r 60).ram ∧ v.reports = (r 60).reports ∧ v.lights.bays = (r 60).lights.bays ∧
        v.lights.enclosure.amber.system = v.enclosureAmber ∧ (∀ n, v.shown n) ∧
        v.status.bitmaps = ⟨BitVec.allOnes 80, BitVec.allOnes 80⟩ ∧
        ∀ (p : Port) (i : Fin 8), (v.attention.get p).pending[i] = true ↔
          (set.attention.get p)[i].enable = true ∧ (p, i) ∈ (r 60).late) ∧
      (let starts (p : Port) (t : State) : State :=
         match t.windows.get p with
         | none => (t.putReader p { t.reader p with state := .disabled, watch := 0 }).pubReader p
         | some x => (t.walk p walkFuel (.link (BitVec.ofNat 16 (x.base + 0x1C)))).pubReader p
       (∀ x : State, x.startReaders = (starts .b (starts .a { x with phase := .running })).close) ∧
         exec (.startUp ⟨answered, []⟩) s = .next (starts .b (starts .a v)).close)) ∧
    (∀ (e : StartUpEvent) (x : State), x.phase = .starting →
      ∃ t : State, exec (eventCommand e) x.hushed = .next t ∧
        (t.phase = .starting → x.takeWithin e = { t with late := x.late, reports := x.reports }) ∧
        (t.phase ≠ .starting → x.takeWithin e = t ∧ t.phase = .loading)) ∧
    (∀ during : List (Fin 7 × StartUpEvent),
      let taken (k : Fin 7) (x : State) : State := (during.filter fun e => e.1 = k).foldl (fun t e => t.takeWithin e.2) x
      let andThen (k : Fin 7) (act : State → State) (x : State) : State := if x.phase = .starting then taken k (act x) else x
      let t := andThen 2 State.startBays (andThen 1 (State.raiseBoth srcLoadDone) (taken 0 (s.distribute answered)))
      let u := andThen 5 State.lightEnclosure (andThen 4 State.startPolicies (andThen 3 (fun x => x.accountUpdate.settle) t))
      let v := andThen 6 (fun x => x.publishAll.deliver) u
      exec (.startUp ⟨answered, during⟩) s = .next (if v.phase = .starting then v.startReaders else v)) ∧
    (∀ (k : Fin 7) (straps : Straps),
      let begun (t : State) : Prop :=
        t.phase = .loading ∧ t.time = 0 ∧ t.straps = straps ∧ t.pending = w.pending ∧ t.settingsMem = w.settingsMem ∧ t.late = [] ∧
          t.quiet ∧ t.windows = ⟨none, none⟩ ∧ (∀ p, (t.reader p).state = .idleLoading ∧ (t.reader p).table = []) ∧
          (∀ n, t.bay n = .cold) ∧ ∀ a, t.statusByte a = 0
      (∃ t : State, exec (.startUp ⟨answered, [(k, .coldReset straps)]⟩) s = .next t ∧ begun t ∧ t.resetKind = .cold ∧
        (∀ n, (t.line n).sw5 = false ∧ (t.line n).sw12 = false) ∧ ∀ a, Memory.read t.ram a = 0) ∧
      (∃ t : State, exec (.startUp ⟨answered, [(k, .warmReset straps)]⟩) s = .next t ∧ begun t ∧ t.resetKind = .warm ∧
        t.driving = false))

/-! ### Invariants that every step keeps -/

/-- The two memories keep the canonical form. -/
def Obligations.MemoriesStayCanonical : Prop :=
  ∀ s t : State, s.memoriesCanonical → step s = .next t → t.memoriesCanonical

/-- R33, R35, R36, R42: the account's figures stay those its supplies, settings and bays give, and OVER_COMMITTED and, after the settings
load, REDUNDANCY_LOST stay true to them. -/
def Obligations.AccountStaysBalanced : Prop :=
  ∀ s t : State, s.balanced → step s = .next t → t.balanced

/-- R55, R56: the queue stays in class order, and holds each QUEUED bay once and no other. -/
def Obligations.QueueStaysSound : Prop :=
  ∀ s t : State, s.queueSound → step s = .next t → t.queueSound

/-- R156, R160: the open-slip tables stay within 16 distinct slip positions of the window in force, and a waiting reader's cursor stays a
slip that is not open. Through the settings load no window is in force, no slip is open and both readers are IDLE_LOADING (R165, R178;
port B's of a part strapped for A only by log entry 46, the model's choice). -/
def Obligations.TablesStaySound : Prop :=
  ∀ s t : State, s.tablesSound → step s = .next t → t.tablesSound

/-- R110, R111, R122, R125: the duty stays between Dmin and 1000, and at 1000 in an emergency and through the settings load. -/
def Obligations.DutyStaysSound : Prop :=
  ∀ s t : State, s.dutySound → step s = .next t → t.dutySound

/-- R2, R4: the switches stay as the bays' states say, and a bay beyond the strapped count stays EMPTY with both switches open. The
premise that the queue holds the QUEUED bays alone (QueueStaysSound) rules out an admission of a bay that waits for none. -/
def Obligations.SwitchesFollowBays : Prop :=
  ∀ s t : State, s.queueSound → s.switchesFollow → step s = .next t → t.switchesFollow

/-- R1, R31, R78, R82, R100, R118, R142, R160, R166, R167, R168, R175: between steps of the running part every record of the status area
stands as its owner holds it (bay records but for the measured average, sensor records but for the failure count and the time of the last
good read), and every event raised has been handed on. A step after which a record stands otherwise has set its position in both ports'
change bitmaps, and never positions 60 to 63. While the part runs a position is cleared in a port's bitmap only by a READ of that port that
serves its byte. A handling acts on every report it made (R10, R37, R46, R63): from a state with no report waiting and a sound queue
(QueueStaysSound), no step leaves one. -/
def Obligations.RecordsStayPublished : Prop :=
  (∀ s t : State, s.published → step s = .next t → t.published) ∧
  (∀ s t : State, s.queueSound → s.quiet → step s = .next t → t.quiet) ∧
  (∀ s t : State, s.phase = .running → step s = .next t → t.phase = .running →
     s.status.marked t.status ∧
     ∀ (p : Port) (k : Nat), (s.status.bitmaps.get p).getLsbD k = true → (t.status.bitmaps.get p).getLsbD k = false →
       let byte := (match p with | .a => 0x00D0 | .b => 0x00E0) + k / 8
       ∃ (addr : Half) (count : Nat) (rest : List Instr), s.pending = .read p addr count :: rest ∧
         addr.toNat ≤ byte ∧ byte < addr.toNat + count)

/-- The invariants hold of the machine right after reset. -/
def Obligations.InvariantsHoldAtReset : Prop :=
  State.reset.memoriesCanonical ∧ State.reset.balanced ∧ State.reset.queueSound ∧ State.reset.tablesSound ∧ State.reset.dutySound ∧
    State.reset.switchesFollow ∧ State.reset.published ∧ State.reset.quiet

/-! ### Bays (chapter 1) -/

/-- R6, R7: what the presence input does. A seated drive seen in EMPTY enters SETTLING with a full settle timer and a SETTLE operation; in
SETTLING and from OFF onward the input moves the settle and absence timers alone; where it is not taken, its pin alone moves. -/
def Obligations.PresenceTaken : Prop :=
  (∀ (s : State) (n : BayNo), s.phase = .running → s.inCount n = true → (s.line n).presence = false →
     (s.bay n).record.state = .empty →
     ∃ u : State, exec (.presenceAssert n) s = .next u.close ∧ BayHandled n s u ∧
       (u.bay n).like
         { (s.bay n).stands .settling .presence s.time 0 0
             (s.bay n).record.flags (some (s.internalOp .settle)) with
           settleAt := some (Time.plus s.time s.settings.timing.settle), absenceAt := none } ∧
       u.line n = { (s.line n).switched false false with presence := true } ∧ u.feed n = s.feed n ∧ u.exchange = s.exchange ∧
       u.scheduler.queue = s.scheduler.queue ∧ OnlyTold [srcPower] s u) ∧
  (∀ (s : State) (n : BayNo),
     let up := s.putLine n { s.line n with presence := true }
     let down := s.putLine n { s.line n with presence := false }
     let b := s.bay n
     let taken := s.phase = .running ∧ s.inCount n = true
     ((s.line n).presence = true ∨ ¬ taken → exec (.presenceAssert n) s = .next up) ∧
     (taken → (s.line n).presence = false → b.record.state = .settling →
       exec (.presenceAssert n) s =
         .next (up.putBay n { b with settleAt := some (Time.plus s.time s.settings.timing.settle), absenceAt := none })) ∧
     (taken → (s.line n).presence = false → b.record.state.fromOff = true →
       exec (.presenceAssert n) s = .next (up.putBay n { b with absenceAt := none })) ∧
     ((s.line n).presence = false ∨ ¬ taken ∨ b.record.state = .empty → exec (.presenceDeassert n) s = .next down) ∧
     (taken → (s.line n).presence = true → b.record.state = .settling →
       exec (.presenceDeassert n) s =
         .next (down.putBay n { b with settleAt := none, absenceAt := some (Time.plus s.time s.settings.timing.debounce) })) ∧
     (taken → (s.line n).presence = true → b.record.state.fromOff = true →
       exec (.presenceDeassert n) s =
         .next (down.putBay n { b with absenceAt := some (Time.plus s.time s.settings.timing.debounce) })))

/-- R6, R9, R18, R19: a bay that comes to rest in OFF by the settle timer's expiry, by the end of a retry wait or by CLEAR_FAULT, with its
counts and its flags as the rule says, raises BAY_CHANGE and then has its policy applied. CLEAR_FAULT elsewhere ends BAD_STATE. That
CLEAR_FAULT's result is taken after the policy move and before the admission pass is log entry 11 (the model's choice). R10: the WAIT_5V walk
takes the bays in ascending number. One that waits in OFF, not held by an open latch, and passes the fit as the bays before it left the
account is moved by its policy; every other bay's turn changes nothing, and a report made in the walk asks for a further one. A MANUAL bay
does not wait (SetBayStores), and stays if it did. That the pass a join asks for runs before the walk goes on is log entry 34 (the model's
choice). -/
def Obligations.PolicyAppliedAtRest : Prop :=
  (∀ (s : State) (n : BayNo), s.phase = .running → (s.bay n).record.state = .settling → Time.due s.time (s.bay n).settleAt = true →
     let r := (s.bay n).record
     let rest := (s.bay n).stands .off .inserted s.time 0 0 { r.flags with latchOpen := (s.line n).latch } none
     ∃ u : State, exec (.settleExpiry n) s = .next u.close ∧ BayHandled n s u ∧
       PolicyApplied n { rest with record := { rest.record with insertions := r.insertions + 1 } } s u ∧
       u.feed n = s.feed n ∧ u.exchange = s.exchange ∧ u.told srcBayChange ∧ OnlyTold [srcBayChange, srcPower] s u) ∧
  (∀ (s : State) (n : BayNo), s.phase = .running → (s.bay n).record.state = .faulted → Time.due s.time (s.bay n).backoffAt = true →
     let r := (s.bay n).record
     let rest := (s.bay n).stands .off .retry s.time 0 0 r.flags none
     ∃ u : State, exec (.backoffExpiry n) s = .next u.close ∧ BayHandled n s u ∧
       PolicyApplied n { rest with record := { rest.record with retries := r.retries + 1 } } s u ∧
       u.feed n = s.feed n ∧ u.exchange = s.exchange ∧ u.told srcBayChange ∧ OnlyTold [srcBayChange, srcPower] s u) ∧
  (∀ (s : State) (h : SlipHead) (n : BayNo), s.takeable h = true → s.bayTarget h.target = some n →
     let b := s.bay n
     let rest := b.stands .off .cleared s.time 0 0 b.record.flags none
     (b.record.state ≠ .faulted →
       exec (.clearFault h) s = .next ((s.answered h .badState false false (some (bayResult s n))).finishSlip h.port)) ∧
     (b.record.state = .faulted →
       ∃ u : State, exec (.clearFault h) s = .next ((u.endTaken h .ok false false (some (bayResult u n))).finishSlip h.port) ∧
         BayHandled n s u ∧ PolicyApplied n { rest with record := { rest.record with retries := 0 } } s u ∧
         u.feed n = s.feed n ∧ u.exchange = s.exchange.take h.addr ∧ u.told srcBayChange ∧ OnlyTold [srcBayChange, srcPower] s u)) ∧
  (∀ s : State, s.reports.pass = false →
     ∃ r : Nat → State, r 0 = { s with reports := { s.reports with walk := false } } ∧ s.wait5vWalk = r 60 ∧
       ∀ n : BayNo,
         let x := r n.val
         let y := r (n.val + 1)
         let moves := x.waitsFor5 n ∧ x.account.committed5 + (x.profileOf n).i5 ≤ x.account.usable5 ∧ (x.baySet n).policy ≠ .manual
         (¬ moves → y = x) ∧ (moves → ∃ u : State, y = u.runPass ∧ WaitMoved n x u) ∧
           (x.reports.walk = true → y.reports.walk = true))

/-- R6, R20: the absence timer's expiry. In SETTLING it counts a bounce and raises nothing of its own; from OFF onward it is a removal, with
the same steps in every state. That the removed slip's result shows the bay before its flags clear and EMPTY is entered is log entry 11 (the
model's choice). -/
def Obligations.AbsenceExpiryEmptiesBay : Prop :=
  (∀ (s : State) (n : BayNo), s.phase = .running → (s.bay n).record.state = .settling → Time.due s.time (s.bay n).absenceAt = true →
     let b := s.bay n
     let e := b.stands .empty .bounce s.time 0 0 .clear none
     ∃ u : State, exec (.bounce n) s = .next u.close ∧ BayHandled n s u ∧
       (u.bay n).like { e with absenceAt := none, record := { e.record with bounces := b.record.bounces + 1 } } ∧
       u.line n = (s.line n).switched false false ∧ u.feed n = s.feed n ∧ u.exchange = s.exchange ∧
       u.scheduler.queue = s.scheduler.queue ∧ OnlyTold [srcPower] s u) ∧
  (∀ (s : State) (n : BayNo), s.phase = .running → (s.bay n).record.state.fromOff = true →
     Time.due s.time (s.bay n).absenceAt = true →
     let b := s.bay n
     let e := b.stands .empty .removed s.time 0 0 .clear none
     let event := if b.record.state.powered then srcBayFault else srcBayChange
     ∃ u : State, exec (.surpriseRemoval n) s = .next u.close ∧ BayHandled n s u ∧
       (u.bay n).like { e with absenceAt := none, record := { e.record with retries := 0 } } ∧
       u.line n = (s.line n).switched false false ∧ u.feed n = { s.feed n with entries := ⟨.void, .void⟩, latest := none } ∧
       u.exchange = s.exchange.opEnded b.record.op .removed (bayResult s n) s.time ∧ u.scheduler.queue = s.queueWithout n ∧
       OpSlipTold b.record.op s u ∧ u.told event ∧ OnlyTold [event, srcPower, srcSlipEnded] s u)

/-- R8: a latch level that starts no latch stop sets or clears LATCH_OPEN and raises BAY_CHANGE; where it is not taken its pin alone
moves. -/
def Obligations.LatchLevelReported : Prop :=
  ∀ (s : State) (n : BayNo),
    let b := s.bay n
    let f := b.record.flags
    let taken := s.phase = .running ∧ b.record.state.fromOff = true
    (¬ taken ∨ f.latchOpen = true → exec (.latchOpen n) s = .next (s.putLine n { s.line n with latch := true })) ∧
    (¬ taken ∨ f.latchOpen = false → exec (.latchClose n) s = .next (s.putLine n { s.line n with latch := false })) ∧
    (taken → f.latchOpen = false → (b.record.state.powered && (s.baySet n).latchStop) = false →
      ∃ u : State, exec (.latchOpen n) s = .next u.close ∧ BayHandled n s u ∧
        (u.bay n).like { b with record := { b.record with flags := { f with latchOpen := true } } } ∧
        u.line n = { s.line n with latch := true } ∧ u.feed n = s.feed n ∧ u.exchange = s.exchange ∧
        u.scheduler.queue = s.scheduler.queue ∧ u.told srcBayChange ∧ OnlyTold [srcBayChange, srcPower] s u) ∧
    (taken → f.latchOpen = true →
      ∃ u : State, exec (.latchClose n) s = .next u.close ∧ BayHandled n s u ∧
        (u.bay n).like { b with record := { b.record with flags := { f with latchOpen := false } } } ∧
        u.line n = { s.line n with latch := false } ∧ u.feed n = s.feed n ∧ u.exchange = s.exchange ∧
        u.scheduler.queue = s.scheduler.queue ∧ u.told srcBayChange ∧ OnlyTold [srcBayChange, srcPower] s u)

/-- R8, R21: an opening latch with action STOP on a powered bay. A stop in flight goes on as its own; otherwise a SPIN_UP or SPIN_DOWN
is superseded, and the bay goes to OFF at once from LOGIC or QUEUED, enters its park window from READY or SPINNING_UP, and goes on with
its park window in SPINNING_DOWN. -/
def Obligations.LatchStopProceedsByState : Prop :=
  ∀ (s : State) (n : BayNo), s.phase = .running → s.queueSound → (s.bay n).record.state.powered = true →
    (s.bay n).record.flags.latchOpen = false → (s.baySet n).latchStop = true →
    let b := s.bay n
    let st := b.record.state
    let op := b.record.op
    let f : BayFlags := { b.record.flags with latchOpen := true }
    let ended := s.exchange.opEnded op .superseded
      [BitVec.ofNat 8 st.code, BitVec.ofNat 8 b.record.reason.code, f.byte] s.time
    let free := op = none ∨ supersedable op = true
    ∃ u : State, exec (.latchOpen n) s = .next u.close ∧ BayHandled n s u ∧ u.feed n = s.feed n ∧ u.told srcBayChange ∧
      OnlyTold [srcBayChange, srcPower, srcSlipEnded] s u ∧
      (stopInFlight op = true →
        (u.bay n).like { b with record := { b.record with flags := f } } ∧ u.line n = { s.line n with latch := true } ∧
          u.exchange = s.exchange ∧ u.scheduler.queue = s.scheduler.queue) ∧
      (free → st = .logic ∨ st = .queued →
        (u.bay n).like (b.stands .off .latch s.time 0 0 { f with removalReady := true } none) ∧
          u.line n = { (s.line n).switched false false with latch := true } ∧ u.exchange = ended ∧
          u.scheduler.queue = s.queueWithout n ∧ OpSlipTold op s u) ∧
      (free → st = .ready ∨ st = .spinningUp →
        (u.bay n).like
            { b.stands .spinningDown .latch s.time b.record.c12 b.record.c5 { f with drawHigh := f.drawHigh && decide (st ≠ .ready) }
                (some (s.internalOp .latchStop)) with
              parkAt := some (Time.plus s.time (s.profileOf n).park) } ∧
          u.line n = { (s.line n).switched true true with latch := true } ∧ u.exchange = ended ∧
          u.scheduler.queue = s.scheduler.queue ∧ OpSlipTold op s u) ∧
      (free → st = .spinningDown →
        (u.bay n).like { b with record := { b.record with flags := f, op := some (s.internalOp .latchStop) } } ∧
          u.line n = { s.line n with latch := true } ∧ u.exchange = ended ∧ u.scheduler.queue = s.scheduler.queue ∧ OpSlipTold op s u)

/-- R17, R18: a trip in a powered state opens both switches, counts, ends the operation, and begins a retry wait of min(300, b × 2^r)
seconds while retries are left. -/
def Obligations.TripFaultsBay : Prop :=
  ∀ (s : State) (n : BayNo), s.phase = .running → (s.bay n).record.state.powered = true →
    let b := s.bay n
    let r := b.record
    let retry := decide (r.retries < s.settings.timing.retryLimit)
    let e := b.stands .faulted .trip s.time 0 0 { r.flags with drawHigh := r.flags.drawHigh && decide (r.state ≠ .ready) }
      (if retry then some (s.internalOp .retryWait) else none)
    let wait := min 300 (s.settings.timing.retryBase * 2 ^ r.retries)
    ∃ u : State, exec (.switchTrip n) s = .next u.close ∧ BayHandled n s u ∧
      (u.bay n).like
        { e with
          record := { e.record with trips := r.trips + 1 }
          backoffAt := if retry then some (Time.plus s.time (wait * 1000)) else none } ∧
      u.line n = (s.line n).switched false false ∧ u.feed n = s.feed n ∧
      u.exchange = s.exchange.opEnded r.op .faulted (bayResult u n) s.time ∧ u.scheduler.queue = s.queueWithout n ∧
      OpSlipTold r.op s u ∧ u.told srcBayFault ∧ OnlyTold [srcBayFault, srcPower, srcSlipEnded] s u

/-- R16, R66: the spin window's end makes the bay READY at steady12 and ends its SPIN_UP OK. The park window's end completes the operation
by its kind: to OFF for a stop, with REMOVAL_READY for a removal; else to LOGIC, the slip of a cancelled SPIN_UP ending CANCELLED. -/
def Obligations.WindowsEndByKind : Prop :=
  (∀ (s : State) (n : BayNo), s.phase = .running → (s.bay n).record.state = .spinningUp → Time.due s.time (s.bay n).spinAt = true →
     let b := s.bay n
     ∃ u : State, exec (.spinWindowEnd n) s = .next u.close ∧ BayHandled n s u ∧
       (u.bay n).like (b.stands .ready .spunUp s.time (s.profileOf n).steady12 b.record.c5 b.record.flags none) ∧
       u.line n = (s.line n).switched true true ∧ u.feed n = s.feed n ∧
       u.exchange = s.exchange.opEnded b.record.op .ok (bayResult u n) s.time ∧ u.scheduler.queue = s.scheduler.queue ∧
       OpSlipTold b.record.op s u ∧ u.told srcBayChange ∧ OnlyTold [srcBayChange, srcPower, srcSlipEnded] s u) ∧
  (∀ (s : State) (n : BayNo), s.phase = .running → (s.bay n).record.state = .spinningDown → Time.due s.time (s.bay n).parkAt = true →
     let b := s.bay n
     let f := b.record.flags
     let op := b.record.op
     ∃ u : State, exec (.parkWindowEnd n) s = .next u.close ∧ BayHandled n s u ∧ u.feed n = s.feed n ∧
       u.scheduler.queue = s.scheduler.queue ∧ OpSlipTold op s u ∧ u.told srcBayChange ∧
       OnlyTold [srcBayChange, srcPower, srcSlipEnded] s u ∧
       (∀ q, op = some q → q.kind = .powerOff ∨ q.kind = .prepareRemoval ∨ q.kind = .latchStop →
         (u.bay n).like (b.stands .off .parked s.time 0 0 { f with removalReady := decide (q.kind ≠ .powerOff) } none) ∧
           u.line n = (s.line n).switched false false ∧ u.exchange = s.exchange.opEnded op .ok (bayResult u n) s.time) ∧
       (∀ q, op = some q → q.kind = .spinDown ∨ q.kind = .spinUp →
         (u.bay n).like (b.stands .logic .parked s.time 0 (s.profileOf n).i5
             { wait5v := false, latchOpen := f.latchOpen, removalReady := false, drawHigh := false, shedThermal := false,
               shedPower := false } none) ∧
           u.line n = (s.line n).switched true false ∧
           u.exchange = s.exchange.opEnded op (if q.kind = .spinUp then .cancelled else .ok) (bayResult u n) s.time))

/-- R24: POWER_ON by the bay's state: refused, at once OK, without room NO_BUDGET, or from OFF to LOGIC with the drive's 5 V current. -/
def Obligations.PowerOnByState : Prop :=
  ∀ (s : State) (h : SlipHead) (n : BayNo), s.takeable h = true → s.bayTarget h.target = some n →
    let b := s.bay n
    let st := b.record.state
    let i5 := (s.profileOf n).i5
    let ends (o : SlipOutcome) : Prop :=
      exec (.powerOn h) s = .next ((s.answered h o false false (some (bayResult s n))).finishSlip h.port)
    let fits := s.account.committed5 + i5 ≤ s.account.usable5
    (st = .empty ∨ st = .settling ∨ st = .faulted → ends .badState) ∧ (st.powered = true → ends .ok) ∧
    (st = .off → ¬ fits → ends .noBudget) ∧
    (st = .off → fits →
      ∃ u : State, exec (.powerOn h) s = .next ((u.endTaken h .ok false false (some (bayResult u n))).finishSlip h.port) ∧
        BayHandled n s u ∧
        (u.bay n).like (b.stands .logic .command s.time 0 i5
          { wait5v := false, latchOpen := b.record.flags.latchOpen, removalReady := false, drawHigh := false, shedThermal := false,
            shedPower := false } b.record.op) ∧
        u.line n = (s.line n).switched true false ∧ u.feed n = s.feed n ∧ u.exchange = s.exchange.take h.addr ∧
        u.scheduler.queue = s.scheduler.queue ∧ u.told srcBayChange ∧ OnlyTold [srcBayChange, srcPower] s u)

/-- R14, R15, R25, R26: POWER_OFF, and PREPARE_REMOVAL with REMOVAL_READY in its place, by the bay's state. A bay at rest in OFF ends OK; a
stop in flight is busy; otherwise a SPIN_UP or SPIN_DOWN is superseded, LOGIC and QUEUED go to OFF at once, SPINNING_UP and READY enter the
park window, and SPINNING_DOWN goes on with its own under the new operation. -/
def Obligations.StopByState : Prop :=
  ∀ (s : State) (h : SlipHead) (n : BayNo) (ready : Bool), s.takeable h = true → s.bayTarget h.target = some n → s.queueSound →
    let cmd : Instr := if ready then .prepareRemoval h else .powerOff h
    let kind : OpKind := if ready then .prepareRemoval else .powerOff
    let code : Byte := if ready then 0x12 else 0x11
    let b := s.bay n
    let st := b.record.state
    let op := b.record.op
    let f := b.record.flags
    let rest : BayFlags := { f with wait5v := false, removalReady := f.removalReady || ready }
    let refused (o : SlipOutcome) : Prop :=
      exec cmd s = .next ((s.answered h o false false (some (bayResult s n))).finishSlip h.port)
    let ended := (s.exchange.take h.addr).opEnded op .superseded (bayResult s n) s.time
    let free := op = none ∨ supersedable op = true
    let new : Operation :=
      { kind := kind, origin := .slip h.port, slip := some h.addr, start := s.time, deadline := none, cancelMarked := false }
    (st = .empty ∨ st = .settling ∨ st = .faulted → refused .badState) ∧
    (st = .off → rest = f → refused .ok) ∧
    (st.powered = true → ¬ free → refused .bayBusy) ∧
    (st = .off → rest ≠ f →
      ∃ u : State, exec cmd s = .next ((u.endTaken h .ok false false (some (bayResult u n))).finishSlip h.port) ∧ BayHandled n s u ∧
        (u.bay n).like { b with record := { b.record with flags := rest } } ∧ u.line n = s.line n ∧ u.feed n = s.feed n ∧
        u.exchange = s.exchange.take h.addr ∧ u.scheduler.queue = s.scheduler.queue ∧ u.told srcBayChange ∧
        OnlyTold [srcBayChange, srcPower] s u) ∧
    (st = .logic ∨ st = .queued → free →
      ∃ u : State, exec cmd s = .next ((u.endTaken h .ok false false (some (bayResult u n))).finishSlip h.port) ∧ BayHandled n s u ∧
        (u.bay n).like (b.stands .off .command s.time 0 0 { f with removalReady := ready } none) ∧
        u.line n = (s.line n).switched false false ∧ u.feed n = s.feed n ∧ u.exchange = ended ∧
        u.scheduler.queue = s.queueWithout n ∧ OpSlipTold op s u ∧ u.told srcBayChange ∧
        OnlyTold [srcBayChange, srcPower, srcSlipEnded] s u) ∧
    (st = .spinningUp ∨ st = .ready → free →
      ∃ u : State, exec cmd s = .next (u.finishSlip h.port) ∧ BayHandled n s u ∧
        (u.bay n).like
          { b.stands .spinningDown .command s.time b.record.c12 b.record.c5 { f with drawHigh := f.drawHigh && decide (st ≠ .ready) }
              (some new) with
            parkAt := some (Time.plus s.time (s.profileOf n).park) } ∧
        u.line n = (s.line n).switched true true ∧ u.feed n = s.feed n ∧ u.exchange = ended.kept h code false s.time ∧
        u.scheduler.queue = s.scheduler.queue ∧ OpSlipTold op s u ∧ u.told srcBayChange ∧
        OnlyTold [srcBayChange, srcPower, srcSlipEnded] s u) ∧
    (st = .spinningDown → free →
      ∃ u : State, exec cmd s = .next (u.finishSlip h.port) ∧ BayHandled n s u ∧
        (u.bay n).like { b with record := { b.record with op := some new } } ∧ u.line n = s.line n ∧ u.feed n = s.feed n ∧
        u.exchange = ended.kept h code false s.time ∧ u.scheduler.queue = s.scheduler.queue ∧ OpSlipTold op s u ∧
        OnlyTold [srcPower, srcSlipEnded] s u)

/-- R27, R58, R47, R64: SET_BAY stores its given fields, each clamped to its range. A policy that becomes MANUAL clears WAIT_5V; a QUEUED
bay of a new class moves to the tail of that class, which is an admission opportunity where it was the head or becomes it; the result gives
the six fields. -/
def Obligations.SetBayStores : Prop :=
  ∀ (s : State) (h : SlipHead) (a : SetBayArgs) (n : BayNo), s.takeable h = true → s.bayTarget h.target = some n →
    let b := s.bay n
    let f := b.record.flags
    let old := s.baySet n
    let given (hi now : Nat) : Option Byte → Nat := fun | none => now | some v => min hi v.toNat
    let beyond (hi : Nat) : Option Byte → Bool := fun | none => false | some v => decide (hi < v.toNat)
    let clamped := beyond 2 a.policy || beyond 3 a.cls || beyond 3 a.zone || beyond 7 a.profile || beyond 1 a.shed || beyond 1 a.latch
    ∃ (v : State) (new : BaySettings),
      exec (.setBay h a) s = .next ((v.endTaken h .ok clamped false (some (0 :: new.bytes))).finishSlip h.port) ∧
      new.policy.code = given 2 old.policy.code a.policy ∧ new.cls.val = given 3 old.cls.val a.cls ∧
      new.zone.val = given 3 old.zone.val a.zone ∧ new.profile.val = given 7 old.profile.val a.profile ∧
      (new.shedEligible = true ↔ given 1 (if old.shedEligible then 1 else 0) a.shed = 1) ∧
      (new.latchStop = true ↔ given 1 (if old.latchStop then 1 else 0) a.latch = 1) ∧
      v.outer = { s.outer with settings := { s.settings with bays := s.settings.bays.set n new } } ∧
      v.exchange = s.exchange.take h.addr ∧ v.readers = s.readers ∧ v.lines = s.lines ∧ v.feeds = s.feeds ∧ v.lights = s.lights ∧
      v.account = s.account ∧ v.attention = s.attention ∧ (∀ m, m ≠ n → v.bay m = s.bay m) ∧ v.shown n ∧ OnlyTold [srcBayChange] s v ∧
      (let wait := f.wait5v && !(decide (new.policy = .manual) && decide (old.policy ≠ .manual))
       (v.bay n).like { b with record := { b.record with flags := { f with wait5v := wait } } } ∧
         (wait ≠ f.wait5v → v.told srcBayChange)) ∧
      (b.record.state ≠ .queued ∨ new.cls = old.cls → v.scheduler = s.scheduler) ∧
      (∀ e, b.record.state = .queued → new.cls ≠ old.cls → s.scheduler.queue.find? (fun x => x.bay == n) = some e →
        v.scheduler.queue = enqueue { e with cls := new.cls, enqueued := s.time } (s.queueWithout n) ∧
          (headBay s.scheduler.queue = some n ∨ headBay v.scheduler.queue = some n → v.reports.pass = true)) ∧
      (b.record.state = .queued → new.profile ≠ old.profile → v.reports.pass = true) ∧
      (new.cls ≠ old.cls ∨ new.shedEligible ≠ old.shedEligible → s.account.overCommitted = true → s.account.delayExpired = true →
        s.account.shedTimer = none → s.settings.account.shed = true → v.reports.run = true)

/-! ### The Load Account (chapter 2) -/

/-- R33, R36, R37, R42, R43, R47: a handling of the account sets its figures from supplies, settings and bays, evaluates over-commit, starts
or stops the shed delay timer, tells the scheduler and the supervisor what they are to be told, raises POWER on entry and on exit, and
starts the shed run again on a moved figure once the delay has expired. The base of a rail is the sum of the GOOD capacities, less the
largest in SPARE_ONE with two or more; REDUNDANCY_LOST is set exactly in SPARE_ONE with fewer than two GOOD slots (a slot that is not fitted
is ABSENT, R31). -/
def Obligations.AccountHandlesChange : Prop :=
  (∀ s : State,
     let t := s.accountUpdate
     let a := s.account
     let c := t.account
     AccountHandled s t ∧ t.ram = s.ram ∧ t.outer = s.outer ∧ OnlyTold [srcPower] s t ∧
     (a.overCommitted ≠ c.overCommitted → t.told srcPower) ∧ (a.redundancyLost ≠ c.redundancyLost → t.told srcPower) ∧
     (c.redundancyLost = true ↔ s.settings.account.mode = .spareOne ∧
       ((List.finRange 4).filter fun i => s.account.supplies[i].state == .good).length < 2) ∧
     (a.overCommitted = false → c.overCommitted = true →
       c.shedTimer = (if s.settings.account.shed = true ∧ s.settings.account.delay ≠ 0 then
         some (Time.plus s.time (s.settings.account.delay * 1000)) else none) ∧
       (s.settings.account.shed = true → s.settings.account.delay = 0 → t.reports.run = true)) ∧
     (c.overCommitted = false → c.shedTimer = none ∧ c.unresolved = false ∧ (a.overCommitted = true → t.reports.pass = true)) ∧
     (a.overCommitted = true → c.overCommitted = true → c.shedTimer = a.shedTimer ∧ c.unresolved = a.unresolved) ∧
     (s.spentDelay → c.overCommitted = true →
       c.committed12 ≠ a.committed12 ∨ c.committed5 ≠ a.committed5 ∨ c.usable12 ≠ a.usable12 ∨ c.usable5 ≠ a.usable5 →
       t.reports.run = true) ∧
     (c.committed12 < a.committed12 → t.reports.pass = true) ∧ (a.usable12 < c.usable12 → t.reports.pass = true) ∧
     (c.committed5 < a.committed5 → t.reports.walk = true) ∧ (a.usable5 < c.usable5 → t.reports.walk = true)) ∧
  (∀ caps : List Nat,
     baseOf .combined caps = caps.sum ∧
     (caps = [] → baseOf .spareOne caps = 0) ∧ (∀ x, caps = [x] → baseOf .spareOne caps = x) ∧
     (2 ≤ caps.length → ∃ m ∈ caps, (∀ x ∈ caps, x ≤ m) ∧ baseOf .spareOne caps + m = caps.sum))

/-- R31, R32: a change of a supply slot's inputs. A slot that is not fitted takes no input; a change that leaves the state is recorded
only; a change of state recomputes the budget and raises POWER. -/
def Obligations.SupplyInputsSetState : Prop :=
  ∀ (s : State) (i : Fin 4) (present good : Bool),
    let c := s.settings.supplies[i]
    let lines := s.supplyLines.set i { present := present, good := good }
    let old := s.account.supplies[i]
    let st : SupplyState := if present then (if good then .good else .failed) else .absent
    (s.phase ≠ .running ∨ c.cap12 = 0 ∧ c.cap5 = 0 →
      exec (.supplyInputChange i present good) s = .next { s with supplyLines := lines }) ∧
    (s.phase = .running → c.cap12 ≠ 0 ∨ c.cap5 ≠ 0 →
      ∃ u : State, exec (.supplyInputChange i present good) s = .next u.close ∧
        (∃ g, u.outer =
          { s.outer with
            supplyLines := lines
            supplies := s.account.supplies.set i { present := present, good := good, state := st, gen := g } }) ∧
        u.bays = s.bays ∧ u.lines = s.lines ∧ u.feeds = s.feeds ∧ u.scheduler = s.scheduler ∧ u.readers = s.readers ∧
        u.ram = s.ram ∧ u.attention = s.attention ∧ u.lights.bays = s.lights.bays ∧
        (st ≠ old.state → AccountHandled s u ∧ u.told srcPower ∧ OnlyTold [srcPower] s u) ∧
        (st = old.state → u.late = s.late ∧ u.reports = s.reports ∧ u.lights = s.lights ∧
          u.account = { s.account with supplies := u.account.supplies }))

/-- R43 to R46, R49: the shed delay's expiry starts a shed run. A step of it ends the run when the account is clear or shed is OFF; else its
kind is 5 V when the 5 V rail is exceeded, its candidate the first in the order of class, state and number, and with none UNRESOLVED stands.
That an expiry not due changes nothing is log entry 8 (the model's choice). R37, R46, R48: the reports of a handling are acted on one after
the other until none is left. A thermal list hands over its next bay before the shed run goes on, and a listed bay that has left SPINNING_UP
and READY is declined. That passes come before WAIT_5V walks and both before sheds is log entry 33 (the model's choice). -/
def Obligations.ShedRunPicksByOrder : Prop :=
  (∀ s : State,
     (s.phase = .running → Time.due s.time s.account.shedTimer = true →
       exec .shedDelayExpiry s =
         .next (State.close { s with
           account := { s.account with shedTimer := none, delayExpired := true }
           reports := { s.reports with run := true } })) ∧
     (s.phase ≠ .running ∨ Time.due s.time s.account.shedTimer = false → exec .shedDelayExpiry s = .next s)) ∧
  (∀ s : State,
     let five : Prop := s.account.usable5 < s.account.committed5
     let candidate (n : BayNo) : Prop := (s.baySet n).shedEligible = true ∧
       ((s.bay n).record.state.spinning = true ∨ (five ∧ (s.bay n).record.state.powered = true))
     (s.account.overCommitted = false ∨ s.settings.account.shed = false → s.shedStep = s.endRun) ∧
     (s.account.overCommitted = true → s.settings.account.shed = true → (∀ n, ¬ candidate n) →
       s.shedStep.account = { s.account with unresolved := true } ∧ s.shedStep.reports.run = false ∧
         s.shedStep.bays = s.bays ∧ (s.account.unresolved = false → s.shedStep.told srcPower) ∧
         (s.account.unresolved = true → s.shedStep.late = s.late)) ∧
     (∀ n, s.account.overCommitted = true → s.settings.account.shed = true → candidate n → (∀ m, candidate m → m ≠ n → s.shedBefore n m) →
       (five → s.shedStep = s.shed5 n) ∧ (¬ five → s.shedStep = s.shed12 .power12 n))) ∧
  (∀ (s : State) (n : BayNo),
     let st := (s.bay n).record.state
     (st = .spinningUp ∨ st = .ready → s.thermalShed n = s.shed12 .thermal12 n) ∧
       (¬ (st = .spinningUp ∨ st = .ready) → s.thermalShed n = s)) ∧
  (∀ s : State,
     let r := s.reports
     (r.pass = true → s.settleStep = some s.runPass) ∧
     (r.pass = false → r.walk = true → s.settleStep = some s.wait5vWalk) ∧
     (∀ n rest, r.pass = false → r.walk = false → r.thermal = n :: rest →
       s.settleStep = some (State.thermalShed n { s with reports := { r with thermal := rest } })) ∧
     (r.pass = false → r.walk = false → r.thermal = [] → r.run = true → s.settleStep = some s.shedStep) ∧
     (s.quiet ↔ s.settleStep = none) ∧ (s.quiet → s.settle = s)) ∧
  (∀ s t : State, s.queueSound → s.reports.thermal.length ≤ 60 → s.settleStep = some t →
     t.queueSound ∧ t.reports.thermal.length ≤ s.reports.thermal.length ∧ s.settle = t.settle ∧ s.settle.quiet)

/-- R22, R23: what a shed does to its bay: a 12 V shed opens the 12 V switch at once and leaves the bay in LOGIC, or takes it on to OFF
when a stop was in flight; a 5 V shed takes it to OFF. The shed flag is set; the slip ends SHED, or OK for a stop. The reason SHED_POWER or
SHED_THERMAL of a bay that a 12 V shed takes on to OFF is log entry 12 (the model's choice). -/
def Obligations.ShedTakenByBay : Prop :=
  ∀ (s : State) (n : BayNo) (k : ShedKind),
    let b := s.bay n
    let f := b.record.flags
    let op := b.record.op
    let stop := stopInFlight op
    let ready := match op with
      | none => false
      | some o => decide (o.kind = .prepareRemoval ∨ o.kind = .latchStop)
    let thermal := decide (k = .thermal12)
    let why : Reason := if thermal then .shedThermal else .shedPower
    let u := s.shed12 k n
    let w := s.shed5 n
    (k ≠ .power5 → b.record.state.spinning = true →
      BayHandled n s u ∧ u.feed n = s.feed n ∧ u.scheduler.queue = s.scheduler.queue ∧ u.told srcBayChange ∧ OpSlipTold op s u ∧
        (stop = false →
          (u.bay n).like (b.stands .logic why s.time 0 (s.profileOf n).i5
              { wait5v := false, latchOpen := f.latchOpen, removalReady := false, drawHigh := false,
                shedThermal := thermal || f.shedThermal, shedPower := !thermal || f.shedPower } none) ∧
            u.line n = (s.line n).switched true false ∧ u.exchange = s.exchange.opEnded op .shed (bayResult u n) s.time) ∧
        (stop = true →
          (u.bay n).like (b.stands .off why s.time 0 0
              { wait5v := false, latchOpen := f.latchOpen, removalReady := ready, drawHigh := false,
                shedThermal := thermal || f.shedThermal, shedPower := !thermal || f.shedPower } none) ∧
            u.line n = (s.line n).switched false false ∧ u.exchange = s.exchange.opEnded op .ok (bayResult u n) s.time)) ∧
    (b.record.state.spinning = false → u = s) ∧
    (b.record.state.powered = true →
      BayHandled n s w ∧ w.feed n = s.feed n ∧ w.scheduler.queue = s.queueWithout n ∧ w.told srcBayChange ∧ OpSlipTold op s w ∧
        (w.bay n).like (b.stands .off .shedPower s.time 0 0
            { f with removalReady := ready, drawHigh := f.drawHigh && decide (b.record.state ≠ .ready), shedPower := true } none) ∧
        w.line n = (s.line n).switched false false ∧
        w.exchange = s.exchange.opEnded op (if stop then .ok else .shed) (bayResult w n) s.time) ∧
    (b.record.state.powered = false → w = s)

/-- R39, R40, R41: a sample of a READY bay joins its window of at most 16, the average is the ceiling of the mean, and once 10 s of
READY have passed c12 follows the average within the profile's bounds and DRAW_HIGH is judged. Any other sample is discarded. -/
def Obligations.CurrentSampleReconciles : Prop :=
  ∀ (s : State) (n : BayNo) (x : Half),
    let b := s.bay n
    let p := s.profileOf n
    let window := (if b.samples.length < 16 then b.samples else b.samples.drop 1) ++ [x.toNat]
    let average := (window.sum + (window.length - 1)) / window.length
    let past := b.reconciling = true ∨ 10000 ≤ Time.age s.time b.record.entered
    let high := decide (5 * p.steady12 < 4 * average)
    let taken := s.phase = .running ∧ s.inCount n = true ∧ b.record.state = .ready
    (¬ taken → exec (.currentSample n x) s = .next s) ∧
    (taken →
      ∃ u : State, exec (.currentSample n x) s = .next u.close ∧ BayHandled n s u ∧ u.line n = s.line n ∧ u.feed n = s.feed n ∧
        u.exchange = s.exchange ∧ u.scheduler.queue = s.scheduler.queue ∧
        (¬ past → (u.bay n).like { b with samples := window, record := { b.record with average := average } } ∧
          OnlyTold [srcPower] s u) ∧
        (past →
          (u.bay n).like
            { b with
              samples := window
              reconciling := true
              record := { b.record with
                average := average
                c12 := min p.peak12 (max p.steady12 average)
                flags := { b.record.flags with drawHigh := high } } } ∧
          (high ≠ b.record.flags.drawHigh → u.told srcBayChange) ∧
          (high = b.record.flags.drawHigh → OnlyTold [srcPower] s u)))

/-- R49, R50: SET_SUPPLY on a slot stores its capacities, samples or empties the slot and raises POWER on a change of its state; on the
enclosure it stores the account settings and switches the shed delay timer: shed turned ON while the account is over-committed starts the
timer, and with a delay of 0 asks for the shed run at once (R43); with a delay above 0 it starts no run. Each recomputes the budget and then
ends OK with the figures its layout gives; with nothing changed it only ends. That a slot made fitted raises POWER too is log entry 41, that the result data saturates
its figures at 65535 is log entry 40, and that bits 5 to 7 of its flags byte are 0 is log entry 29 (the model's choices). -/
def Obligations.SetSupplyRecomputes : Prop :=
  (∀ (s : State) (h : SlipHead) (a : SetSlotArgs) (i : Fin 4), s.takeable h = true → h.target.toNat = i.val →
     let old := s.settings.supplies[i]
     let new : SupplySetting :=
       { cap12 := match a.cap12 with | none => old.cap12 | some v => v.toNat
         cap5 := match a.cap5 with | none => old.cap5 | some v => v.toNat }
     let fitted := ¬ (new.cap12 = 0 ∧ new.cap5 = 0)
     let l := s.supplyLines[i]
     let present := decide fitted && l.present
     let good := decide fitted && l.good
     let st : SupplyState := if present then (if good then .good else .failed) else .absent
     ∃ v : State, exec (.setSupplySlot h a) s =
         .next ((v.settle.endTaken h .ok false false (some [BitVec.ofNat 8 v.settle.account.supplies[i].state.code])).finishSlip h.port) ∧
       v.exchange = s.exchange.take h.addr ∧
       (new = old → v = { s with ram := (s.exchange.take h.addr).ram }) ∧
       (new ≠ old → AccountHandled s v ∧
         (∃ g, v.outer =
           { s.outer with
             settings := { s.settings with supplies := s.settings.supplies.set i new }
             supplies := s.account.supplies.set i { present := present, good := good, state := st, gen := g } }) ∧
         (st ≠ s.account.supplies[i].state → v.told srcPower) ∧ OnlyTold [srcPower] s v)) ∧
  (∀ (s : State) (h : SlipHead) (a : SetAccountArgs), s.takeable h = true → h.target = 0xFE →
     let old := s.settings.account
     let given (now : Nat) : Option Half → Nat := fun | none => now | some v => v.toNat
     let beyond (hi : Nat) : Option Byte → Bool := fun | none => false | some v => decide (hi < v.toNat)
     let new : AccountSettings :=
       { mode := match a.mode with | none => old.mode | some v => if v = 0 then .combined else .spareOne
         reserve12 := given old.reserve12 a.reserve12
         reserve5 := given old.reserve5 a.reserve5
         shed := match a.shed with | none => old.shed | some v => decide (v ≠ 0)
         delay := match a.delay with | none => old.delay | some v => min 10 v.toNat }
     let clamped := beyond 1 a.mode || beyond 1 a.shed || beyond 10 a.delay
     ∃ v : State, exec (.setSupplyEnclosure h a) s =
         .next ((v.settle.endTaken h .ok clamped false (some
           (let x := v.settle.account
            le16 (min 65535 x.usable12) ++ le16 (min 65535 x.usable5) ++ le16 (min 65535 x.committed12) ++
              le16 (min 65535 x.committed5) ++
              [BitVec.ofNat 8 (bitsOf [x.overCommitted, x.overCommitted && decide (x.usable12 < x.committed12),
                x.overCommitted && decide (x.usable5 < x.committed5), x.unresolved, x.redundancyLost])]))).finishSlip h.port) ∧
       v.exchange = s.exchange.take h.addr ∧
       (new = old → v = { s with ram := (s.exchange.take h.addr).ram }) ∧
       (new ≠ old → AccountHandled s v ∧ v.outer = { s.outer with settings := { s.settings with account := new } } ∧
         OnlyTold [srcPower] s v ∧
         (s.account.overCommitted = true → v.account.overCommitted = true → old.shed = false → new.shed = true →
           v.account.shedTimer = (if new.delay = 0 then none else some (Time.plus s.time (new.delay * 1000))) ∧
             (new.delay = 0 → v.account.delayExpired = true ∧ v.reports.run = true) ∧
             (new.delay ≠ 0 → v.reports.run = s.reports.run)) ∧
         (s.account.overCommitted = true → v.account.overCommitted = true → old.shed = true → new.shed = false →
           v.account.shedTimer = none) ∧
         (s.account.overCommitted = true → v.account.overCommitted = true → old.shed = new.shed →
           v.account.shedTimer = s.account.shedTimer)))

/-! ### The admission queue and spin-up (chapter 3) -/

/-- R56, R71: an entry joins at the tail of its class, the order of the others unchanged and the queue still in class order. A deadline
reached in the queue takes the entry out and the bay to LOGIC with reason DEADLINE, and its slip ends TIMED_OUT. -/
def Obligations.QueueEntriesJoinAndTimeOut : Prop :=
  (∀ (e : QueueEntry) (q : List QueueEntry), q.Pairwise (fun d f => d.cls ≤ f.cls) →
     ∃ front back, q = front ++ back ∧ enqueue e q = front ++ e :: back ∧ (∀ d ∈ front, d.cls ≤ e.cls) ∧ (∀ d ∈ back, e.cls < d.cls) ∧
       (enqueue e q).Pairwise (fun d f => d.cls ≤ f.cls)) ∧
  (∀ (s : State) (n : BayNo) (o : Operation), s.phase = .running → (s.bay n).record.state = .queued → (s.bay n).record.op = some o →
     Time.due s.time o.deadline = true →
     let b := s.bay n
     let f := b.record.flags
     ∃ u : State, exec (.deadlineExpiry n) s = .next u.close ∧ BayHandled n s u ∧
       (u.bay n).like (b.stands .logic .deadline s.time 0 (s.profileOf n).i5
         { wait5v := false, latchOpen := f.latchOpen, removalReady := false, drawHigh := false, shedThermal := false,
           shedPower := false } none) ∧
       u.line n = (s.line n).switched true false ∧ u.feed n = s.feed n ∧
       u.exchange = s.exchange.opEnded (some o) .timedOut (bayResult u n) s.time ∧ u.scheduler.queue = s.queueWithout n ∧
       OpSlipTold (some o) s u ∧ u.told srcBayChange ∧ OnlyTold [srcBayChange, srcPower, srcSlipEnded] s u)

/-- R60, R61, R63: the test passes exactly when its five conditions hold and otherwise names the first that fails; a pass admits head after
head while the head passes, and ends with the queue empty or the head failing its test, that result the hold reason and nothing else moved;
the stagger expiry gives a pass. That an expiry that is not due changes nothing is log entry 8 (the model's choice). -/
def Obligations.PassAdmitsByTest : Prop :=
  (∀ (s : State) (n : BayNo),
     let c1 := s.spinningCount < s.settings.schedule.limit
     let c2 := s.scheduler.lastAdmission = none ∨ s.scheduler.staggerAt = none ∨ Time.due s.time s.scheduler.staggerAt = true ∨
       s.settings.schedule.stagger = 0
     let c3 := ∀ z : Fin 4, s.zones[z].state = .normal
     let c4 := s.account.overCommitted = false
     let c5 := s.account.committed12 + (s.profileOf n).peak12 ≤ s.account.usable12
     (s.admissionTest n = .none ↔ c1 ∧ c2 ∧ c3 ∧ c4 ∧ c5) ∧
       (s.admissionTest n = .concurrency ↔ ¬ c1) ∧ (s.admissionTest n = .stagger ↔ c1 ∧ ¬ c2) ∧
       (s.admissionTest n = .thermal ↔ c1 ∧ c2 ∧ ¬ c3) ∧ (s.admissionTest n = .overCommitted ↔ c1 ∧ c2 ∧ c3 ∧ ¬ c4) ∧
       (s.admissionTest n = .budget ↔ c1 ∧ c2 ∧ c3 ∧ c4 ∧ ¬ c5)) ∧
  (∀ s : State, s.reports.pass = true →
     let t := s.runPass
     (t.reports.pass = false ∧
       match headBay t.scheduler.queue with
       | none => t.scheduler.hold = .none
       | some n => t.admissionTest n ≠ .none ∧ t.scheduler.hold = t.admissionTest n) ∧
     (headBay s.scheduler.queue = none → t = { s.setHold .none with reports := { s.reports with pass := false } }) ∧
     ∀ n, headBay s.scheduler.queue = some n →
       (s.admissionTest n = .none → t = (s.admitHead n).runPass) ∧
       (s.admissionTest n ≠ .none → t = { s.setHold (s.admissionTest n) with reports := { s.reports with pass := false } })) ∧
  (∀ s : State,
     (s.phase = .running → Time.due s.time s.scheduler.staggerAt = true →
       exec .staggerExpiry s =
         .next (State.close { s with
           scheduler := { s.scheduler with staggerAt := none }
           reports := { s.reports with pass := true } })) ∧
     (s.phase ≠ .running ∨ Time.due s.time s.scheduler.staggerAt = false → exec .staggerExpiry s = .next s))

/-- R61, R62: admission takes the head's entry out, brings its bay into SPINNING_UP at peak12 with its spin window running and its deadline
gone, and stamps and arms the stagger. One that passed its test leaves the spinning count within the limit and the account clear. -/
def Obligations.AdmissionStepsWithinBudget : Prop :=
  (∀ (s : State) (e : QueueEntry) (rest : List QueueEntry), s.scheduler.queue = e :: rest → (s.bay e.bay).record.state = .queued →
     let n := e.bay
     let b := s.bay n
     let p := s.profileOf n
     let t := s.admitHead n
     t.scheduler.queue = rest ∧ t.scheduler.lastAdmission = some s.time ∧
       t.scheduler.staggerAt = some (Time.plus s.time s.settings.schedule.stagger) ∧
       (t.bay n).like
         { b.stands .spinningUp .admitted s.time p.peak12 b.record.c5 b.record.flags
             (b.record.op.map fun o => { o with deadline := none }) with
           spinAt := some (Time.plus s.time p.spin) } ∧
       t.line n = (s.line n).switched true true ∧ t.feed n = { s.feed n with spinStart := some s.time, graceOut := false } ∧
       t.exchange = s.exchange ∧ t.readers = s.readers ∧ t.outer = s.outer ∧ t.attention = s.attention ∧ t.balanced ∧ t.told srcBayChange ∧
       OnlyTold [srcBayChange, srcPower] s t ∧
       ∀ m, m ≠ n → t.bay m = s.bay m ∧ t.line m = s.line m ∧ t.feed m = s.feed m ∧ t.light m = s.light m) ∧
  (∀ (s : State) (n : BayNo), s.balanced → s.queueSound → headBay s.scheduler.queue = some n → s.admissionTest n = .none →
     let t := s.admitHead n
     t.spinningCount ≤ t.settings.schedule.limit ∧ t.account.committed12 ≤ t.account.usable12 ∧ t.account.overCommitted = false ∧
       (∀ z : Fin 4, t.zones[z].state = .normal) ∧ t.account.committed5 = s.account.committed5)

/-- R68, R69, R76, R77: SPIN_UP by the bay's state is refused, at once OK, or queued through LOGIC with its operation, its deadline and its
entry; SPIN_DOWN is refused, at once OK, or takes a READY bay into its park window under a SPIN_DOWN operation. -/
def Obligations.SpinUpAndDownByState : Prop :=
  (∀ (s : State) (h : SlipHead) (seconds : Half) (n : BayNo), s.takeable h = true → s.bayTarget h.target = some n →
     let b := s.bay n
     let f := b.record.flags
     let p := s.profileOf n
     let clamped := decide (3600 < seconds.toNat)
     let deadline := if seconds = 0 then none else some (Time.plus s.time (min seconds.toNat 3600 * 1000))
     let ends (o : SlipOutcome) : Prop :=
       exec (.spinUp h seconds) s = .next ((s.answered h o clamped false (some (bayResult s n))).finishSlip h.port)
     let op : Operation :=
       { kind := .spinUp, origin := .slip h.port, slip := some h.addr, start := s.time, deadline := deadline, cancelMarked := false }
     let fits := s.account.committed5 + p.i5 ≤ s.account.usable5
     (b.record.state = .empty ∨ b.record.state = .settling ∨ b.record.state = .faulted → ends .badState) ∧
     (b.record.state = .ready → ends .ok) ∧
     (b.record.state = .queued ∨ b.record.state = .spinningUp ∨ b.record.state = .spinningDown → ends .bayBusy) ∧
     (b.record.state = .off ∨ b.record.state = .logic → b.record.op ≠ none → ends .bayBusy) ∧
     (b.record.state = .off → b.record.op = none → ¬ fits → ends .noBudget) ∧
     ((b.record.state = .off ∧ fits ∨ b.record.state = .logic) → b.record.op = none →
       ∃ u : State, exec (.spinUp h seconds) s = .next (u.finishSlip h.port) ∧ BayHandled n s u ∧
         (u.bay n).like (b.stands .queued .command s.time (if b.record.state = .off then 0 else b.record.c12)
           (if b.record.state = .off then p.i5 else b.record.c5)
           (if b.record.state = .off then
             { wait5v := false, latchOpen := f.latchOpen, removalReady := false, drawHigh := false, shedThermal := false,
               shedPower := false }
           else { f with shedThermal := false, shedPower := false })
           (some op)) ∧
         u.line n = (s.line n).switched true false ∧ u.feed n = s.feed n ∧
         u.exchange = (s.exchange.take h.addr).kept h 0x20 clamped s.time ∧
         u.scheduler.queue = enqueue
           { bay := n, cls := (s.baySet n).cls, enqueued := s.time, slip := some h.addr, deadline := deadline } s.scheduler.queue ∧
         u.told srcBayChange ∧ OnlyTold [srcBayChange, srcPower] s u)) ∧
  (∀ (s : State) (h : SlipHead) (n : BayNo), s.takeable h = true → s.bayTarget h.target = some n →
     let b := s.bay n
     let ends (o : SlipOutcome) : Prop :=
       exec (.spinDown h) s = .next ((s.answered h o false false (some (bayResult s n))).finishSlip h.port)
     let op : Operation :=
       { kind := .spinDown, origin := .slip h.port, slip := some h.addr, start := s.time, deadline := none, cancelMarked := false }
     (b.record.state = .empty ∨ b.record.state = .settling ∨ b.record.state = .faulted ∨ b.record.state = .queued ∨
       b.record.state = .spinningUp → ends .badState) ∧
     (b.record.state = .off ∨ b.record.state = .logic → ends .ok) ∧
     (b.record.state = .spinningDown ∨ b.record.state = .ready ∧ b.record.op ≠ none → ends .bayBusy) ∧
     (b.record.state = .ready → b.record.op = none →
       ∃ u : State, exec (.spinDown h) s = .next (u.finishSlip h.port) ∧ BayHandled n s u ∧
         (u.bay n).like
           { b.stands .spinningDown .command s.time b.record.c12 b.record.c5 { b.record.flags with drawHigh := false } (some op) with
             parkAt := some (Time.plus s.time (s.profileOf n).park) } ∧
         u.line n = (s.line n).switched true true ∧ u.feed n = s.feed n ∧
         u.exchange = (s.exchange.take h.addr).kept h 0x21 false s.time ∧ u.scheduler.queue = s.scheduler.queue ∧
         u.told srcBayChange ∧ OnlyTold [srcBayChange, srcPower] s u))

/-- R75: SET_SCHEDULE clamps and stores, moves an armed stagger expiry, makes its pass, and then ends OK with the schedule, the
spinning count and the queue length; with no value changed it makes no pass. -/
def Obligations.SetScheduleMakesPass : Prop :=
  ∀ (s : State) (h : SlipHead) (a : SetScheduleArgs), s.takeable h = true → h.target = 0xFE →
    let old := s.settings.schedule
    let limit := match a.limit with | none => old.limit | some v => max 1 (min 16 v.toNat)
    let stagger := match a.stagger with | none => old.stagger | some v => min 10000 v.toNat
    let clamped := (match a.limit with | none => false | some v => decide (v.toNat < 1 ∨ 16 < v.toNat)) ||
      (match a.stagger with | none => false | some v => decide (10000 < v.toNat))
    let new : Schedule := { limit := limit, stagger := stagger }
    ∃ v : State, exec (.setSchedule h a) s =
        .next ((v.settle.endTaken h .ok clamped false (some
          ([0, BitVec.ofNat 8 limit] ++ le16 stagger ++
            [BitVec.ofNat 8 v.settle.spinningCount, BitVec.ofNat 8 v.settle.scheduler.queue.length]))).finishSlip h.port) ∧
      v.exchange = s.exchange.take h.addr ∧ v.readers = s.readers ∧
      v.outer = { s.outer with settings := { s.settings with schedule := new } } ∧ v.bays = s.bays ∧ v.lines = s.lines ∧ v.feeds = s.feeds ∧ v.lights = s.lights ∧ v.account = s.account ∧
      v.attention = s.attention ∧ v.late = s.late ∧ v.scheduler.queue = s.scheduler.queue ∧
      v.scheduler.lastAdmission = s.scheduler.lastAdmission ∧ v.scheduler.hold = s.scheduler.hold ∧
      v.reports = { s.reports with pass := s.reports.pass || decide (new ≠ old) } ∧
      (stagger = old.stagger → v.scheduler.staggerAt = s.scheduler.staggerAt) ∧
      (stagger ≠ old.stagger → ∀ e last, s.scheduler.staggerAt = some e → s.scheduler.lastAdmission = some last →
        Time.reached s.time e = false →
        v.scheduler.staggerAt =
          if Time.reached s.time (Time.plus last stagger) then none else some (Time.plus last stagger))

/-! ### Temperatures and zones (chapter 4) -/

/-- R83: a scan time starts a scan of the assigned sensors in ascending number, or is passed over while one still runs. A good read makes the
sensor OK, a third failure in a row FAILED; entry to and exit from FAILED raise THERMAL; a result to be discarded changes no record. That the
next scan is due 1000 ms after the part time at which the command is taken is log entry 15, and that a scan not due changes nothing is
log entry 8 (the model's choices). -/
def Obligations.SensorsScanned : Prop :=
  (∀ s : State,
     (s.phase = .running → Time.due s.time s.scanAt = true →
       ∃ l : List (Fin 8), l.Pairwise (· < ·) ∧ (∀ i, i ∈ l ↔ s.settings.sensors[i].zone ≠ none) ∧
         exec .sensorScan s =
           .next { s with
             scanAt := some (Time.plus s.time 1000)
             scan := if s.scan.left = [] then { left := l, discard := false } else s.scan }) ∧
     (s.phase ≠ .running ∨ Time.due s.time s.scanAt = false → exec .sensorScan s = .next s)) ∧
  (∀ (s : State) (i : Fin 8) (result : Option (BitVec 16)),
     let u := s.sensors[i]
     let fails := min 3 (u.fails + 1)
     let new : Sensor := match result with
       | some raw => { u with state := .ok, raw := some raw.toInt, fails := 0, goodAt := some s.time }
       | none => { u with fails := fails, state := if u.state = .failed ∨ fails = 3 then .failed else u.state }
     (∀ rest, s.phase = .running → s.scan.left = i :: rest → s.scan.discard = false →
       ∃ v : State, exec (.sensorRead i result) s = .next v.close ∧ UnitsOnly s v ∧ new.like v.sensors[i] ∧
         v.outer =
           { s.outer with
             scan := { left := rest, discard := false }
             sensors := s.sensors.set i v.sensors[i] } ∧
         ((u.state = .failed ↔ new.state ≠ .failed) → v.told srcThermal) ∧
         ((u.state = .failed ↔ new.state = .failed) → v.late = s.late)) ∧
     (∀ rest, s.phase = .running → s.scan.left = i :: rest → s.scan.discard = true →
       exec (.sensorRead i result) s = .next { s with scan := { left := rest, discard := false } }) ∧
     (s.phase ≠ .running ∨ s.scan.left.head? ≠ some i → exec (.sensorRead i result) s = .next s))

/-- R84, R87, R89 to R95, R100: one zone evaluation. A zone's sources are its assigned sensors and its spinning bays, each valid, pending or
missing; its T and hottest source, E, state, condition, counts, vacancy and timer follow from them with the feeds marked, E never below T nor
more than the hysteresis above it; THERMAL is raised when a zone changed state; leaving HOLD or CRITICAL is an admission opportunity. A bay's
drive reading comes from the latest port of the stamped ones, though stale; a grace that has run out stays out. That a SPENT timer stays SPENT
where the zone stays CRITICAL with the critical shed time at 0 is log entry 26 (the model's choice). -/
def Obligations.ZonesEvaluatedTogether : Prop :=
  (∀ s : State,
     let t := s.evaluateZones
     let m := s.feedsMarked
     (∀ z : Fin 4, ∃ src : List (Source × SourceClass),
       let old := s.zones[z]
       let new := t.zones[z]
       let l := s.settings.zones[z].limits
       let place : Source → Nat := fun | .sensor i => i.val | .bay n => 8 + n.val
       let valid := src.countP fun x => match x.2 with | .valid _ => true | _ => false
       let missing := src.countP fun x => x.2 == .missing
       (∀ (i : Fin 8) (c : SourceClass),
         let u := s.sensors[i]
         let set := s.settings.sensors[i]
         (set.zone ≠ some z ∨ u.state = .unused → (.sensor i, c) ∉ src) ∧
           (set.zone = some z →
             (∀ raw, u.state = .ok → u.raw = some raw →
               ((.sensor i, c) ∈ src ↔ c = .valid (max (-40) (min 125 (raw + set.offset))))) ∧
             (u.state = .noData → ((.sensor i, c) ∈ src ↔ c = .pending)) ∧
             (u.state = .failed → ((.sensor i, c) ∈ src ↔ c = .missing)))) ∧
       (∀ (n : BayNo) (c : SourceClass),
         let st := (s.bay n).record.state
         let f := m.feed n
         let source := s.inCount n = true ∧ (s.baySet n).zone = z ∧ (st = .spinningUp ∨ st = .ready ∨ st = .spinningDown)
         let fresh (e : FeedEntry) : Prop := f.chosen = some e ∧ e.stale = false
         (¬ source → (.bay n, c) ∉ src) ∧
           (∀ e, source → fresh e → ((.bay n, c) ∈ src ↔ c = .valid e.value)) ∧
           (source → (∀ e, ¬ fresh e) → ((.bay n, c) ∈ src ↔ c = if f.graceOut then .missing else .pending))) ∧
       src.Pairwise (fun x y => place x.1 < place y.1) ∧
       ((∀ x ∈ src, ∀ v, x.2 ≠ .valid v) → new.t = none ∧ new.hottest = none) ∧
       (∀ x ∈ src, ∀ v, x.2 = .valid v → (∀ y ∈ src, ∀ w, y.2 = .valid w → w < v ∨ (w = v ∧ place x.1 ≤ place y.1)) →
         new.t = some v ∧ new.hottest = some x.1) ∧
       (new.t = none → new.e = old.e) ∧
         (∀ t, new.t = some t → t ≤ new.e ∧ new.e ≤ t + l.h ∧ (old.e < t → new.e = t) ∧ (t < old.e - l.h → new.e = t + l.h) ∧
           (t ≤ old.e → old.e ≤ t + l.h → new.e = old.e)) ∧
         (new.state = .critical ↔ l.critical ≤ new.e) ∧
         (new.state = .hold ↔ new.e < l.critical ∧ l.ceiling ≤ new.e) ∧
         new.valid = valid ∧ new.pending = (src.countP fun x => x.2 == .pending) ∧ new.missing = missing ∧
         new.condition = (if valid = 0 then (if missing = 0 then .noSources else .blind)
           else if missing = 0 then .complete else .partly) ∧
         new.vacancy = (bayNumbers.filter fun n => s.inCount n && decide ((s.baySet n).zone = z) &&
           ((s.bay n).record.state == .empty || (s.bay n).record.state == .settling)).length ∧
         (new.state ≠ .critical → new.timer = .stopped) ∧
         (new.state = .critical → old.state ≠ .critical →
           new.timer = if l.shedTime = 0 then .stopped else .running (Time.plus s.time (l.shedTime * 1000))) ∧
         (new.state = .critical → old.state = .critical → l.shedTime ≠ 0 → new.timer = old.timer) ∧
         (new.state = .critical → old.state = .critical → l.shedTime = 0 →
           new.timer = (match old.timer with | .running _ => .stopped | x => x))) ∧
       t.feeds = m.feeds ∧ t.bays = s.bays ∧ t.lines = s.lines ∧ t.scheduler = s.scheduler ∧ t.account = s.account ∧
       t.readers = s.readers ∧ t.ram = s.ram ∧ t.attention = s.attention ∧ t.outer = { s.outer with zones := t.zones } ∧
       ((∃ z : Fin 4, s.zones[z].state ≠ t.zones[z].state) → t.told srcThermal) ∧
       ((∀ z : Fin 4, s.zones[z].state = t.zones[z].state) → t.late = s.late) ∧
       ((∃ z : Fin 4, s.zones[z].state ≠ .normal ∧ t.zones[z].state ≠ s.zones[z].state) → t.reports.pass = true)) ∧
  (∀ (f : BayFeed) (now : Time) (staleMs : Nat),
     (f.entries.a.stamp = none → f.entries.b.stamp = none → f.chosen = none) ∧
     (f.entries.a.stamp ≠ none → f.entries.b.stamp = none → f.chosen = some f.entries.a) ∧
     (f.entries.a.stamp = none → f.entries.b.stamp ≠ none → f.chosen = some f.entries.b) ∧
     (∀ p, f.entries.a.stamp ≠ none → f.entries.b.stamp ≠ none → f.latest = some p → f.chosen = some (f.entries.get p)) ∧
     (∀ p t, (f.entries.get p).stamp = some t →
       (((f.marked now staleMs).entries.get p).stale = true ↔
         (f.entries.get p).stale = true ∨ staleMs < Time.age now t)) ∧
     (∀ p, ((f.marked now staleMs).entries.get p).value = (f.entries.get p).value ∧
       ((f.marked now staleMs).entries.get p).stamp = (f.entries.get p).stamp) ∧
     ((f.marked now staleMs).graceOut = true ↔ f.graceOut = true ∨ ∃ t, f.spinStart = some t ∧ staleMs < Time.age now t) ∧
     (f.marked now staleMs).spinStart = f.spinStart ∧ (f.marked now staleMs).latest = f.latest)

/-- R96, R48: a critical timer's expiry spends it, raises THERMAL, and asks for the thermal shed of the zone's shed-eligible bays in
SPINNING_UP and READY, in the shed order; any other time the command does nothing. That is log entry 8 (the model's choice). -/
def Obligations.CriticalExpirySheds : Prop :=
  ∀ (s : State) (z : Fin 4),
    (∀ expiry, s.phase = .running → s.zones[z].timer = .running expiry → Time.reached s.time expiry = true →
      ∃ (u : State) (l : List BayNo), exec (.criticalTimerExpiry z) s = .next u.close ∧
        ({ s.zones[z] with timer := .spent } : Zone).like u.zones[z] ∧
        u.outer = { s.outer with zones := s.zones.set z u.zones[z] } ∧
        u.reports = { s.reports with thermal := s.reports.thermal ++ l } ∧
        (∀ n, n ∈ l ↔ (s.baySet n).zone = z ∧ (s.baySet n).shedEligible = true ∧
          ((s.bay n).record.state = .spinningUp ∨ (s.bay n).record.state = .ready)) ∧
        l.Pairwise s.shedBefore ∧ u.told srcThermal ∧ OnlyTold [srcThermal] s u ∧ u.bays = s.bays ∧ u.lines = s.lines ∧
        u.feeds = s.feeds ∧ u.lights = s.lights ∧ u.account = s.account ∧ u.scheduler = s.scheduler ∧ u.exchange = s.exchange ∧
        u.readers = s.readers ∧ u.attention = s.attention) ∧
    (s.phase ≠ .running ∨ (∀ expiry, s.zones[z].timer = .running expiry → Time.reached s.time expiry = false) →
      exec (.criticalTimerExpiry z) s = .next s)

/-- R97, R98, R100: SET_ZONE. The curve and the limits are clamped, checked, and replaced as a whole or refused BAD_VALUE with the settings
as they were; the stale time is clamped to 10 to 600 s. CLAMPED on a slip that ends BAD_VALUE, and a temperature byte above 190 counted as a
clamp, are log entry 13 (the model's choice). -/
def Obligations.SetZoneWritesParts : Prop :=
  (∀ (s : State) (h : SlipHead) (a : SetCurveArgs) (z : Fin 4), s.takeable h = true → h.target.toNat = z.val →
     let point (r : RawPoint) : CurvePoint :=
       { t := if 190 < r.t.toNat then 150 else (r.t.toNat : Int) - 40, d := min 1000 r.d.toNat }
     let moved (r : RawPoint) : Bool := decide (190 < r.t.toNat) || decide (1000 < r.d.toNat)
     let c : Curve := { p1 := point a.p1, p2 := point a.p2, p3 := point a.p3, p4 := point a.p4 }
     let clamped := moved a.p1 || moved a.p2 || moved a.p3 || moved a.p4
     let good := (c.p1.t < c.p2.t ∧ c.p2.t < c.p3.t ∧ c.p3.t < c.p4.t) ∧ c.p1.d ≤ c.p2.d ∧ c.p2.d ≤ c.p3.d ∧ c.p3.d ≤ c.p4.d
     (¬ good → exec (.setZoneCurve h a) s = .next ((s.answered h .badValue clamped false none).finishSlip h.port)) ∧
     (good → ∃ v : State, exec (.setZoneCurve h a) s =
         .next ((v.answered h .ok clamped false (some (0 :: c.bytes))).finishSlip h.port) ∧ UnitsOnly s v ∧ v.late = s.late ∧
       s.zones[z].like v.zones[z] ∧
       v.outer =
         { s.outer with
           settings := { s.settings with zones := s.settings.zones.set z { s.settings.zones[z] with curve := c } }
           zones := s.zones.set z v.zones[z] })) ∧
  (∀ (s : State) (h : SlipHead) (a : SetLimitsArgs) (z : Fin 4), s.takeable h = true → h.target.toNat = z.val →
     let old := s.settings.zones[z].limits
     let temp (now : Int) : Option Byte → Int := fun | none => now | some b => if 190 < b.toNat then 150 else (b.toNat : Int) - 40
     let small (hi now : Nat) : Option Byte → Nat := fun | none => now | some v => min hi v.toNat
     let wide (hi now : Nat) : Option Half → Nat := fun | none => now | some v => min hi v.toNat
     let beyond (hi : Nat) : Option Byte → Bool := fun | none => false | some v => decide (hi < v.toNat)
     let past (hi : Nat) : Option Half → Bool := fun | none => false | some v => decide (hi < v.toNat)
     let new : ZoneLimits :=
       { h := small 10 old.h a.h, ceiling := temp old.ceiling a.ceiling, critical := temp old.critical a.critical
         v := small 200 old.v a.v, staleFloor := wide 1000 old.staleFloor a.staleFloor, shedTime := wide 600 old.shedTime a.shedTime }
     let clamped := beyond 10 a.h || beyond 190 a.ceiling || beyond 190 a.critical || beyond 200 a.v || past 1000 a.staleFloor ||
       past 600 a.shedTime
     (¬ new.ceiling < new.critical →
       exec (.setZoneLimits h a) s = .next ((s.answered h .badValue clamped false none).finishSlip h.port)) ∧
     (new.ceiling < new.critical → ∃ v : State, exec (.setZoneLimits h a) s =
         .next ((v.answered h .ok clamped false (some ([0, 0] ++ new.bytes))).finishSlip h.port) ∧ UnitsOnly s v ∧ v.late = s.late ∧
       s.zones[z].like v.zones[z] ∧
       v.outer =
         { s.outer with
           settings := { s.settings with zones := s.settings.zones.set z { s.settings.zones[z] with limits := new } }
           zones := s.zones.set z v.zones[z] })) ∧
  (∀ (s : State) (h : SlipHead) (seconds : Half), s.takeable h = true → h.target = 0xFE →
     let v := max 10 (min 600 seconds.toNat)
     ∃ t : State, exec (.setZoneStaleTime h seconds) s =
         .next ((State.answered h .ok (decide (seconds.toNat < 10 ∨ 600 < seconds.toNat)) false (some (le16 v)) t).finishSlip h.port) ∧
       UnitsOnly s t ∧ t.late = s.late ∧ (∀ z : Fin 4, s.zones[z].like t.zones[z]) ∧
       t.outer = { s.outer with settings := { s.settings with staleTime := v }, zones := t.zones })

/-- R99: SET_SENSOR stores zone and offset; NONE makes the sensor UNUSED and raises THERMAL if it was FAILED, a zone after NONE makes it
NO_DATA, another zone keeps its record; a read of it on the bus is then discarded; the record is republished in every case. That NONE clears
the time of the last good read too is log entry 36 (the model's choice). -/
def Obligations.SetSensorReassigns : Prop :=
  ∀ (s : State) (h : SlipHead) (a : SetSensorArgs) (i : Fin 8), s.takeable h = true → h.target.toNat = i.val →
    let old := s.settings.sensors[i]
    let u := s.sensors[i]
    let zone : Option (Fin 4) := match a.zone with
      | none => old.zone
      | some b => if b = 0xFF then none else if b.toNat < 4 then some (Fin.ofNat 4 b.toNat) else some 3
    let offset : Int := match a.offset with
      | none => old.offset
      | some b => max (-10) (min 10 b.toInt)
    let clamped := (match a.zone with | none => false | some b => decide (b ≠ 0xFF ∧ 4 ≤ b.toNat)) ||
      (match a.offset with | none => false | some b => decide (b.toInt < -10 ∨ 10 < b.toInt))
    let new : SensorSettings := { zone := zone, offset := offset }
    let rec' : Sensor :=
      if zone = old.zone then u
      else if zone = none then { u with state := .unused, raw := none, fails := 0, goodAt := none }
      else if old.zone = none then { u with state := .noData, raw := none, fails := 0, goodAt := none }
      else u
    ∃ v : State, exec (.setSensor h a) s =
        .next ((State.answered h .ok clamped false (some (new.bytes ++ [BitVec.ofNat 8 rec'.state.code])) v).finishSlip h.port) ∧
      UnitsOnly s v ∧ rec'.like v.sensors[i] ∧
      (∀ old', s.status.sensors[i] = some old' →
        v.sensors[i].gen = u.gen + 1 ∧ v.status.sensors[i] = some { sensor := v.sensors[i], set := new }) ∧
      v.outer =
        { s.outer with
          settings := { s.settings with sensors := s.settings.sensors.set i new }
          sensors := s.sensors.set i v.sensors[i]
          scan := v.scan } ∧
      (zone = old.zone → v.scan = s.scan) ∧
      (∀ rest, zone ≠ old.zone → s.scan.left = i :: rest → v.scan = { left := i :: rest, discard := true }) ∧
      (zone ≠ none → zone ≠ old.zone → u.state = .failed → old.zone ≠ none → v.late = s.late) ∧
      (zone = none → old.zone ≠ none → u.state = .failed → v.told srcThermal)

/-! ### Fans (chapter 5) -/

/-- R105: a curve's value is D1 up to T1, D4 from T4, and Di + floor((E − Ti) × (Di+1 − Di) / (Ti+1 − Ti)) from Ti up to Ti+1; it meets each
point exactly, never falls as E rises, and always lies between D1 and D4. -/
def Obligations.CurveValueBetweenEnds : Prop :=
  ∀ (c : Curve) (e : Int), c.accepted = true →
    c.p1.d ≤ c.value e ∧ c.value e ≤ c.p4.d ∧ (e ≤ c.p1.t → c.value e = c.p1.d) ∧ (c.p4.t ≤ e → c.value e = c.p4.d) ∧
      c.value c.p2.t = c.p2.d ∧ c.value c.p3.t = c.p3.d ∧
      (c.p1.t ≤ e → e < c.p2.t → (c.value e : Int) = c.p1.d + (e - c.p1.t) * (c.p2.d - c.p1.d) / (c.p2.t - c.p1.t)) ∧
      (c.p2.t ≤ e → e < c.p3.t → (c.value e : Int) = c.p2.d + (e - c.p2.t) * (c.p3.d - c.p2.d) / (c.p3.t - c.p2.t)) ∧
      (c.p3.t ≤ e → e < c.p4.t → (c.value e : Int) = c.p3.d + (e - c.p3.t) * (c.p4.d - c.p3.d) / (c.p4.t - c.p3.t)) ∧
      ∀ e', e ≤ e' → c.value e ≤ c.value e'

/-- R117: the tachometer check of one fan. Three readings in a row below the limit fail an OK fan, five in a row at or above it restore a
FAILED one. -/
def Obligations.TachCheckCounts : Prop :=
  ∀ (f : Fan) (limit : Nat) (now : Time),
    let r := f.record
    let new := f.checked limit now
    let low := f.latest < limit
    new.latest = f.latest ∧ new.present = f.present ∧ new.record.weak = r.weak ∧ new.record.lastCheck = r.lastCheck ∧
      new.record.tach = (if r.state = .unused then 0 else f.latest) ∧
      (r.state = .ok → low → r.low < 2 → new.record.state = .ok ∧ new.record.low = r.low + 1) ∧
      (r.state = .ok → low → r.low = 2 → new.record.state = .failed ∧ new.record.low = 0 ∧ new.record.high = 0 ∧
        new.record.entered = now) ∧
      (r.state = .ok → ¬ low → new.record.state = .ok ∧ new.record.low = 0) ∧
      (r.state = .failed → low → new.record.state = .failed ∧ new.record.high = 0) ∧
      (r.state = .failed → ¬ low → r.high < 4 → new.record.state = .failed ∧ new.record.high = r.high + 1) ∧
      (r.state = .failed → ¬ low → r.high = 4 → new.record.state = .ok ∧ new.record.low = 0 ∧ new.record.high = 0 ∧
        new.record.entered = now) ∧
      (r.state ≠ .ok → r.state ≠ .failed → new.record.state = r.state ∧ new.record.low = r.low ∧ new.record.high = r.high)

/-- R104 to R113: one cooling period. The zones are evaluated first; the demands by the zones' conditions, the raw and the compensated
demand, COOLING_LOST, C, the reservation by the fans' states, the tachometer checks and Cprev follow in order, each from the fan states at
the start. That the next period is due 1000 ms after the part time at which the command is taken is log entry 15 (the model's choice). -/
def Obligations.CoolingPeriodStages : Prop :=
  ∀ s : State, s.phase = .running → Time.due s.time s.coolingAt = true →
    let f := s.settings.fans
    let zones := s.evaluateZones.zones
    let demand (z : Fin 4) : Nat :=
      let c := s.settings.zones[z]
      let x := zones[z]
      let base := c.curve.value x.e + x.vacancy * c.limits.v
      min 1000 (match x.condition with
        | .complete => base
        | .partly => max base c.limits.staleFloor
        | .blind => c.limits.staleFloor
        | .noSources => c.curve.p1.d + x.vacancy * c.limits.v)
    let current (dr : Nat) (st : FanState) : Nat :=
      match st with
      | .unused | .absent => 0
      | .failed => f.maxCur
      | .starting | .ok => f.idle + ((f.maxCur - f.idle) * dr + 999) / 1000
    let floor (p : Port) : Nat := match s.fans.floors.get p with | none => 0 | some x => x.duty
    let draw := max f.dmin (max (max (max (demand 0) (demand 1)) (max (demand 2) (demand 3))) (max (floor .a) (floor .b)))
    let k := ((List.finRange 6).filter fun i => decide (i.val < f.count) &&
      (s.fans.fans[i].record.state == .absent || s.fans.fans[i].record.state == .failed)).length
    let turning := f.count - k
    let dcomp := if turning = 0 then 1000 else min 1000 ((draw * f.count + (turning - 1)) / turning)
    let emergency := (∃ z : Fin 4, zones[z].state = .critical) ∨ turning = 0 ∨ s.fans.check ≠ none
    let slewed := max f.dmin (min 1000 (if s.fans.c < dcomp then min dcomp (s.fans.c + f.slewUp) else max dcomp (s.fans.c - f.slewDown)))
    ∃ u : State, exec .coolingPeriod s = .next u.close ∧
      u.outer =
        { s.outer with
          coolingAt := some (Time.plus s.time 1000), zones := zones, fans := u.fans, fanRes := u.account.fanRes } ∧
      ReadersStand s u ∧ u.fans.demands = Vector.ofFn demand ∧ u.fans.draw = draw ∧ u.fans.dcomp = dcomp ∧
      (u.fans.coolingLost = true ↔ turning = 0) ∧ (emergency → u.fans.c = 1000) ∧ (¬ emergency → u.fans.c = slewed) ∧
      u.fans.cprev = u.fans.c ∧ u.fans.floors = s.fans.floors ∧ u.fans.check = s.fans.check ∧
      u.account.fanRes =
        ((List.finRange 6).map fun i => current (max u.fans.c f.reserve) s.fans.fans[i].record.state).sum ∧
      (∀ i : Fin 6, (s.fans.fans[i].checked (f.maxRpm * min u.fans.c s.fans.cprev / 2000) s.time).like u.fans.fans[i]) ∧
      (u.fans.coolingLost ≠ s.fans.coolingLost → u.told srcFan) ∧
      (∀ i : Fin 6, s.fans.fans[i].record.state ≠ u.fans.fans[i].record.state →
        u.fans.fans[i].record.state = .failed ∨ s.fans.fans[i].record.state = .failed → u.told srcFan)

/-- R115, R116, R118, R119: a present fan leaves ABSENT for STARTING, an absent one enters ABSENT, each raising FAN; the STARTING expiry
makes it OK with both counts 0 and no event; a gate of n pulses is 60 n rpm, and from 5 s to 15 s of a check it replaces a lower highest
rpm. That a command that is not due or not taken changes nothing is log entry 8 (the model's choice). -/
def Obligations.FanReportsTaken : Prop :=
  (∀ (s : State) (i : Fin 6) (present : Bool),
     let f : Fan := { s.fans.fans[i] with present := present }
     let taken := s.phase = .running ∧ i.val < s.settings.fans.count
     let starting : Fan :=
       { f with record := { f.record with
           state := .starting, low := 0, high := 0, entered := s.time, startingAt := some (Time.plus s.time 5000) } }
     let absent : Fan :=
       { f with
         latest := 0
         record := { f.record with
           state := .absent, tach := 0, low := 0, high := 0, weak := false, lastCheck := 0, entered := s.time, startingAt := none } }
     let new : Fan :=
       if present = true ∧ f.record.state = .absent then starting
       else if present = false ∧ (f.record.state = .starting ∨ f.record.state = .ok ∨ f.record.state = .failed) then absent
       else f
     (¬ taken → exec (.fanPresenceReport i present) s = .next (s.putFan i f)) ∧
     (taken → ∃ u : State, exec (.fanPresenceReport i present) s = .next u.close ∧ new.like u.fans.fans[i] ∧
       u.outer = { s.outer with fans := { s.fans with fans := s.fans.fans.set i u.fans.fans[i] } } ∧
       FansOnly s u ∧ u.lights.enclosure.amber.system = u.enclosureAmber ∧
       (new.record.state ≠ f.record.state → u.told srcFan) ∧ (new.record.state = f.record.state → u.late = s.late))) ∧
  (∀ (s : State) (i : Fin 6), s.phase = .running → s.fans.fans[i].record.state = .starting →
     Time.due s.time s.fans.fans[i].record.startingAt = true →
     let f := s.fans.fans[i]
     ∃ u : State, exec (.startingExpiry i) s = .next u.close ∧
       ({ f with record := { f.record with state := .ok, low := 0, high := 0, entered := s.time, startingAt := none } } : Fan).like
         u.fans.fans[i] ∧
       u.outer = { s.outer with fans := { s.fans with fans := s.fans.fans.set i u.fans.fans[i] } } ∧
       FansOnly s u ∧ u.late = s.late) ∧
  (∀ (s : State) (i : Fin 6) (pulses : Nat),
     let f := s.fans.fans[i]
     let t := s.putFan i { f with latest := 60 * pulses }
     (s.phase ≠ .running ∨ f.record.state = .unused → exec (.tachReport i pulses) s = .next s) ∧
     (s.phase = .running → f.record.state ≠ .unused → s.fans.check = none → exec (.tachReport i pulses) s = .next t) ∧
     (∀ k, s.phase = .running → f.record.state ≠ .unused → s.fans.check = some k →
       ∃ k', exec (.tachReport i pulses) s = .next { t with fans := { t.fans with check := some k' } } ∧
         k' = (if 5000 ≤ Time.age s.time k.start ∧ Time.age s.time k.start ≤ 15000 then
           { k with peaks := k.peaks.set i (max k.peaks[i] (60 * pulses)) } else k)))

/-- R119, R120: FAN_CHECK is BUSY while a check runs; else C goes to 1000, the reservation is reported and the check begins, its slip open.
Its end 15 s later judges WEAK on the fans in OK or FAILED, records the check rpm, ends the slip OK, and raises FAN if a WEAK flag changed.
The start is one handling, which republishes the summary record once, at its end, with its figures and its next generation (R167); that the
admissions and sheds which the report brings about belong to that handling is log entry 10. That a BUSY slip carries no result data is log
entry 13, that a speed above 65535 rpm is kept whole, with a free value in its two bytes of result data, is log entry 21, and that
bits 6 and 7 of the WEAK byte are 0 is log entry 29 (the model's choices). -/
def Obligations.FanCheckStartsAndEnds : Prop :=
  (∀ (s : State) (h : SlipHead), s.takeable h = true → h.target = 0xFE →
     let full : Nat :=
       ((List.finRange 6).map fun i =>
         match s.fans.fans[i].record.state with
         | .unused | .absent => 0
         | .failed => s.settings.fans.maxCur
         | .starting | .ok => s.settings.fans.idle + ((s.settings.fans.maxCur - s.settings.fans.idle) * 1000 + 999) / 1000).sum
     (s.fans.check ≠ none → exec (.fanCheck h) s = .next ((s.answered h .busy false false none).finishSlip h.port)) ∧
     (s.fans.check = none →
       let k : FanCheck := { origin := h.port, slip := some h.addr, start := s.time, peaks := Vector.replicate 6 0 }
       let t : State := { s with
         ram := (s.exchange.take h.addr).ram
         fans := { s.fans with c := 1000, check := some k }
         reports := { s.reports with summaryHeld := true } }
       let v := (t.reportReservation full).settle
       s.settings.fans.reserve ≤ 1000 →
       ∃ u : State, exec (.fanCheck h) s = .next (u.finishSlip h.port) ∧ u.exchange = v.exchange.kept h 0x52 false s.time ∧
         u.outer = { s.outer with fans := t.fans, fanRes := v.account.fanRes } ∧
         v.account.fanRes = full ∧
         u.bays = v.bays ∧ u.lines = v.lines ∧ u.account = v.account ∧ u.scheduler = v.scheduler ∧ u.late = v.late ∧
         ReadersStand s u ∧ u.attention = s.attention ∧
         ∀ old, s.status.summary = some old → old.cooling.check = none → s.reports.summaryHeld = false →
           ∃ new, u.status.summary = some new ∧ u.summed new ∧ new.time = s.time ∧ new.gen = old.gen + 1)) ∧
  (∀ (s : State) (k : FanCheck), s.phase = .running → s.fans.check = some k →
     Time.reached s.time (Time.plus k.start 15000) = true →
     let bytes (rpm : Nat) : List Byte :=
       if rpm < 65536 then le16 rpm else [(Config.wideRpm rpm).extractLsb' 0 8, (Config.wideRpm rpm).extractLsb' 8 8]
     let new (i : Fin 6) : Fan :=
       let f := s.fans.fans[i]
       { f with record := { f.record with
           weak := if f.record.state = .ok ∨ f.record.state = .failed then decide (10 * k.peaks[i] < 7 * s.settings.fans.maxRpm)
             else f.record.weak
           lastCheck := if f.record.state = .unused then f.record.lastCheck else k.peaks[i] } }
     let result := ((List.finRange 6).flatMap fun i => bytes (if s.fans.fans[i].record.state = .unused then 0 else k.peaks[i])) ++
       [BitVec.ofNat 8 (bitsOf ((List.finRange 6).map fun i => (new i).record.weak))]
     ∃ u : State, exec .fanCheckEnd s = .next u.close ∧ (∀ i : Fin 6, (new i).like u.fans.fans[i]) ∧
       u.outer = { s.outer with fans := { s.fans with fans := u.fans.fans, check := none } } ∧
       u.exchange = (match k.slip with
         | none => s.exchange
         | some addr => s.exchange.closed k.origin addr .ok false (some result) s.time) ∧ ReadersStand s u ∧
       u.bays = s.bays ∧ u.lines = s.lines ∧ u.feeds = s.feeds ∧ u.lights = s.lights ∧ u.account = s.account ∧
       u.scheduler = s.scheduler ∧ u.attention = s.attention ∧ u.reports = s.reports ∧
       ((∃ i : Fin 6, (new i).record.weak ≠ s.fans.fans[i].record.weak) → u.told srcFan) ∧
       ((∀ i : Fin 6, (new i).record.weak = s.fans.fans[i].record.weak) → OnlyTold [srcSlipEnded] s u))

/-- R118, R122: SET_FANS clamps and stores; a changed count makes positions UNUSED, STARTING or ABSENT, with FAN raised for a position that
comes to or leaves ABSENT or FAILED; C rises to a higher Dmin at once; the reservation is reported where it is computed from what changed.
With no value changed it only ends. That bits 11 and 15 of the word of C and N in its result data are 0 is log entry 29 (the model's
choice). -/
def Obligations.SetFansActsAtOnce : Prop :=
  ∀ (s : State) (h : SlipHead) (a : SetFansArgs), s.takeable h = true → h.target = 0xFE →
    let old := s.settings.fans
    let within (lo hi now : Nat) : Option Half → Nat := fun | none => now | some v => max lo (min hi v.toNat)
    let beyond (lo hi : Nat) : Option Half → Bool := fun | none => false | some v => decide (v.toNat < lo ∨ hi < v.toNat)
    let maxCur := within 0 65535 old.maxCur a.maxCur
    let idle := within 0 65535 old.idle a.idle
    let new : FanSettings :=
      { count := match a.count with | none => old.count | some v => max 1 (min 6 v.toNat)
        maxRpm := within 1000 30000 old.maxRpm a.maxRpm
        idle := min idle maxCur
        maxCur := maxCur
        dmin := within 100 600 old.dmin a.dmin
        slewUp := within 10 1000 old.slewUp a.slewUp
        slewDown := within 10 1000 old.slewDown a.slewDown
        reserve := within 0 1000 old.reserve a.reserve }
    let clamped := (match a.count with | none => false | some v => decide (v.toNat < 1 ∨ 6 < v.toNat)) || beyond 1000 30000 a.maxRpm ||
      beyond 100 600 a.dmin || beyond 10 1000 a.slewUp || beyond 10 1000 a.slewDown || beyond 0 1000 a.reserve || decide (maxCur < idle)
    let c := max s.fans.c new.dmin
    let lostOrFailed (st : FanState) : Prop := st = .absent ∨ st = .failed
    ∃ v : State, exec (.setFans h a) s =
        .next ((v.settle.endTaken h .ok clamped false
          (some (le16 (v.settle.fans.c + 4096 * v.settle.settings.fans.count) ++ v.settle.settings.fans.bytes))).finishSlip h.port) ∧
      (new = old → v = { s with ram := (s.exchange.take h.addr).ram }) ∧
      (new ≠ old →
        v.outer =
            { s.outer with settings := { s.settings with fans := new }, fans := v.fans, fanRes := v.account.fanRes } ∧
          ReadersStand s v ∧ v.attention = s.attention ∧
          v.fans = { s.fans with fans := v.fans.fans, c := c } ∧
          (∀ i : Fin 6,
            (new.count ≤ i.val → i.val < old.count → v.fans.fans[i].record.state = .unused) ∧
            (old.count ≤ i.val → i.val < new.count →
              v.fans.fans[i].record.state = if s.fans.fans[i].present then .starting else .absent) ∧
            ((i.val < old.count ↔ i.val < new.count) → s.fans.fans[i].like v.fans.fans[i]) ∧
            (s.fans.fans[i].record.state ≠ v.fans.fans[i].record.state →
              lostOrFailed s.fans.fans[i].record.state ∨ lostOrFailed v.fans.fans[i].record.state → v.told srcFan)) ∧
          (c ≠ s.fans.c ∨ old.count ≠ new.count ∨ old.idle ≠ new.idle ∨ old.maxCur ≠ new.maxCur ∨ old.reserve ≠ new.reserve →
            v.account.fanRes =
              ((List.finRange 6).map fun i =>
                match v.fans.fans[i].record.state with
                | .unused | .absent => 0
                | .failed => new.maxCur
                | .starting | .ok => new.idle + ((new.maxCur - new.idle) * max c new.reserve + 999) / 1000).sum) ∧
          (c = s.fans.c → old.count = new.count → old.idle = new.idle → old.maxCur = new.maxCur → old.reserve = new.reserve →
            v.account = s.account ∧ v.bays = s.bays ∧ v.exchange = s.exchange.take h.addr))

/-- R108, R123, R124: SET_FLOOR writes its own port's floor and ends OK; the floor's expiry makes it absent; the other port's floor and
C and Draw stand. That the byte of the result data that tells whether there is an expiry is 1 or 0 is log entry 29 (the model's choice). -/
def Obligations.PortFloorSetAndExpired : Prop :=
  ∀ (s : State) (h : SlipHead) (duty expiry : Half) (p : Port),
    let until' := if expiry = 0 then none else some (Time.plus s.time (expiry.toNat * 1000))
    let new : Option Floor := if duty = 0 then none else some { duty := min duty.toNat 1000, expiry := until' }
    let result (c draw : Nat) : List Byte :=
      (if duty = 0 then [0, 0, 0, 0, 0, 0, 0, 0]
        else le16 (min duty.toNat 1000) ++ (match until' with | none => [0, 0, 0, 0, 0, 0] | some t => [1, 0] ++ le32 t)) ++
        le16 c ++ le16 draw
    (s.takeable h = true → h.target = 0xFE →
      ∃ v : State, exec (.setFloor h duty expiry) s =
          .next ((State.answered h .ok (decide (1000 < duty.toNat)) false (some (result s.fans.c s.fans.draw)) v).finishSlip h.port) ∧
        UnitsOnly s v ∧ v.late = s.late ∧
        v.outer = { s.outer with fans := { s.fans with floors := s.fans.floors.put h.port new } }) ∧
    (∀ f t, s.phase = .running → s.fans.floors.get p = some f → f.expiry = some t → Time.reached s.time t = true →
      ∃ v : State, exec (.floorExpiry p) s = .next v ∧ UnitsOnly s v ∧ v.late = s.late ∧
        v.outer = { s.outer with fans := { s.fans with floors := s.fans.floors.put p none } })

/-! ### Lights (chapter 6) -/

/-- R128, R131, R133, R138: a chain refresh. Each channel of a bay within the count is lit as its winning pattern is at the part time of the
refresh; activity of a READY bay starts a stretch of 40 ms, and GREEN follows it; a bay beyond the count is dark. That the next refresh is due
10 ms after the part time at which the command is taken is log entry 15 (the model's choice). -/
def Obligations.ChainRefreshShowsWinners : Prop :=
  ∀ (s : State) (activity : BitVec 60), s.phase = .running → Time.due s.time s.refreshAt = true →
    let lit (c : Channel) : Prop := ∃ r, Shows c r ∧ (r.pattern = 1 ∨ (2 ≤ r.pattern.val ∧
      let on := s.settings.patterns[r.pattern].on.toNat * 10
      let off := s.settings.patterns[r.pattern].off.toNat * 10
      on ≠ 0 ∧ (off = 0 ∨ s.time.toNat % (on + off) < on)))
    let stretch (n : BayNo) : Option Time :=
      if s.inCount n = false then (s.light n).stretch
      else if activity[n.val] = true ∧ (s.bay n).record.state = .ready ∧ (s.light n).enable = true then some s.time
      else match (s.light n).stretch with
        | none => none
        | some t => if Time.age s.time t < 40 then some t else none
    ∃ l : Lights, exec (.chainRefresh activity) s = .next { s with lights := l, refreshAt := some (Time.plus s.time 10) } ∧
      l.enclosure = s.lights.enclosure ∧ (∀ n : BayNo, l.bays[n] = { s.light n with stretch := stretch n }) ∧
      (∀ n : BayNo, (l.chain.amber[n.val] = true ↔ s.inCount n = true ∧ lit (s.light n).amber) ∧
        (l.chain.blue[n.val] = true ↔ s.inCount n = true ∧ lit (s.light n).blue) ∧
        (l.chain.green[n.val] = true ↔ s.inCount n = true ∧ (s.light n).enable = true ∧ stretch n ≠ none)) ∧
      (l.chain.encAmber = true ↔ lit s.lights.enclosure.amber) ∧ (l.chain.encBlue = true ↔ lit s.lights.enclosure.blue)

/-- R129, R130, R139, R140: SET_LIGHT writes the posting port's own slot of one channel, or a bay's activity enable, and no other slot; a
bad channel changes nothing. A slot whose expiry is reached empties. Byte 19 of the result, with winner code 3 on GREEN and bit 7 clear for
the enclosure, is log entry 29, and that a slip refused BAD_VALUE carries no result data is log entry 13 (the model's choices). -/
def Obligations.LightSlotWritten : Prop :=
  ∀ (s : State) (place : LightPlace) (c : Colour),
    let others (p : Port) (q : Option Request) (v : State) : Prop :=
      LightsOnly s v ∧ v.outer = s.outer ∧ v.channel place c = (s.channel place c).putPort p q ∧
        (∀ place' c', (place', c') ≠ (place, c) → v.channel place' c' = s.channel place' c') ∧
        ∀ n, (v.light n).enable = (s.light n).enable ∧ (v.light n).stretch = (s.light n).stretch
    (∀ (h : SlipHead) (a : SetLightArgs), s.takeable h = true →
      (match place with | .enclosure => h.target = 0xFE | .bay n => s.bayTarget h.target = some n) →
      (a.channel.toNat = (match c with | .amber => 0 | .blue => 1) →
        let q : Option Request := if a.priority = 0 then none else some
          { pattern := Fin.ofNat 8 (min 7 a.pattern.toNat), priority := min 7 a.priority.toNat
            expiry := if a.duration = 0 then none else some (Time.plus s.time (a.duration.toNat * 1000)) }
        let clamped := decide (a.priority ≠ 0) && (decide (7 < a.pattern.toNat) || decide (7 < a.priority.toNat))
        let enable := match place with | .bay n => (s.light n).enable | .enclosure => false
        ∃ v : State, others h.port q v ∧ exec (.setLight h a) s =
          .next ((State.answered h .ok clamped false (some ((v.channel place c).result enable)) v).finishSlip h.port)) ∧
      (∀ n, place = .bay n → a.channel = 2 →
        let on := decide (a.enable ≠ 0)
        ∃ v : State, LightsOnly s v ∧ v.outer = s.outer ∧ (∀ place' c', v.channel place' c' = s.channel place' c') ∧
          (v.light n).enable = on ∧ (v.light n).stretch = (if on then (s.light n).stretch else none) ∧
          (∀ m, m ≠ n → v.light m = s.light m) ∧
          exec (.setLight h a) s = .next ((State.answered h .ok (decide (1 < a.enable.toNat)) false
            (some (List.replicate 15 0 ++ [if on then 0x83 else 0x03])) v).finishSlip h.port)) ∧
      (2 < a.channel.toNat ∨ (place = .enclosure ∧ a.channel = 2) →
        exec (.setLight h a) s = .next ((s.answered h .badValue false false none).finishSlip h.port))) ∧
    (∀ p r t, s.phase = .running → (s.channel place c).ports.get p = some r → r.expiry = some t → Time.reached s.time t = true →
      ∃ v : State, exec (.lightExpiry p place c) s = .next v ∧ others p none v)

/-! ### Links, slips and readers (chapter 7) -/

/-- R154: the bytes of a slip's end. Its outcome, flags, end time and ENDED are written, its result data where there is one; its flags,
command, target, link and host tag, and every byte outside it, stand. -/
def Obligations.SlipEndFieldsWritten : Prop :=
  ∀ (m : Memory) (addr : Nat) (o : SlipOutcome) (clamped marked : Bool) (result : Option (List Byte)) (now : Time),
    let r := writeEnd addr o (resultFlags clamped marked) result now m
    Memory.read r addr = 3 ∧ Memory.read r (addr + 20) = o.code ∧
      Memory.read r (addr + 21) = (if clamped then 1 else 0) + (if marked then 2 else 0) ∧
      Memory.read r (addr + 22) = 0 ∧ Memory.read r (addr + 23) = 0 ∧
      (∀ k, k < 4 → Memory.read r (addr + 24 + k) = now.extractLsb' (8 * k) 8) ∧
      (∀ l, result = some l → ∀ k, k < 16 → Memory.read r (addr + 4 + k) = l.getD k 0) ∧
      (result = none → ∀ k, 4 ≤ k → k < 20 → Memory.read r (addr + k) = Memory.read m (addr + k)) ∧
      (∀ k, 1 ≤ k → k < 4 → Memory.read r (addr + k) = Memory.read m (addr + k)) ∧
      (∀ a, a < addr ∨ addr + 28 ≤ a → Memory.read r a = Memory.read m a) ∧ (Memory.wf m → Memory.wf r)

/-- R146, R149, R152, R166, R168, R173: a READ. Through the settings load every byte is 0xFF. Otherwise a READ that starts below 0x8000
serves the status area, the windows in force, 0x00 elsewhere and past 0x7FFF, and clears in its own port's bitmap what it served of it; a
READ of DONE or CONTROL serves the highest in-service level or the reader's state. Every record of the status area lies where Tables 11-8 to
11-15 say, with its generation at each end and its codes as they give; a bay record or bay light record not yet published reads 0x00. A
bitmap's position p is bit p mod 8 of its byte p / 8, at 0x00D0 for port A and 0x00E0 for port B; a byte of no record reads 0x00. Which place
an open slip's entry takes in a reader record is log entry 38, that the bits no table names in a byte of flags are 0, and that a yes or
no byte is 1 or 0, is log entry 29, that a rpm above 65535 has a free value there is log entry 21, and the bytes of absent fields, log entry 20's, are left open (the model's choices).
-/
def Obligations.ReadServesBytes : Prop :=
  (∀ (s : State) (p : Port) (addr : Half) (count : Nat),
    (s.phase = .loading → exec (.read p addr count) s = .next (s.putOut p (List.replicate count 0xFF))) ∧
    (s.phase ≠ .loading → addr.toNat < 0x8000 →
      let start := addr.toNat
      let base := match p with | .a => 0x00D0 | .b => 0x00E0
      ∃ (maps : PerPort (BitVec 80)) (out : List Byte),
        exec (.read p addr count) s = .next ({ s with status := { s.status with bitmaps := maps } }.putOut p out) ∧
        out.length = count ∧
        (∀ k, k < count → out[k]? = some (
          if start + k < 0x2000 then s.statusByte (start + k)
          else if start + k < 0x8000 ∧ (s.ownWindow .a (start + k) = true ∨ s.ownWindow .b (start + k) = true) then
            Memory.read s.ram (start + k)
          else 0)) ∧
        maps.get (Port.other p) = s.status.bitmaps.get (Port.other p) ∧
        (∀ i, i < 80 → (maps.get p).getLsbD i =
          ((s.status.bitmaps.get p).getLsbD i && !(decide (start ≤ base + i / 8) && decide (base + i / 8 < start + count))))) ∧
    (s.phase ≠ .loading →
      exec (.read p 0x8001 1) s = .next (s.putOut p [BitVec.ofNat 8 (highestLevel (s.attention.get p).inService)]) ∧
      exec (.read p 0x8002 1) s = .next (s.putOut p [BitVec.ofNat 8 (s.reader p).state.code]) ∧
      (0x8003 ≤ addr.toNat → exec (.read p addr count) s = .next (s.putOut p (List.replicate count 0))))) ∧
  (∀ s : State,
    let area (a : Nat) (l : List Byte) : Prop := ∀ k, k < l.length → s.statusByte (a + k) = l.getD k 0
    let whole (a size : Nat) (gen : Byte) (l : List Byte) : Prop := area a (gen :: l) ∧ area (a + size - 1) [gen]
    let time (a : Nat) (t : Option Time) : Prop := ∀ x, t = some x → area a (le32 x)
    let num (n : Nat) : Byte := BitVec.ofNat 8 n
    let bits (l : List Bool) : Byte := num (bitsOf l)
    let temp (t : Int) : List Byte := le16 (BitVec.ofInt 16 t).toNat
    let rpm (n : Nat) : List Byte :=
      if n < 65536 then le16 n else [(Config.wideRpm n).extractLsb' 0 8, (Config.wideRpm n).extractLsb' 8 8]
    let slot (a : Nat) (r : Option Request) : Prop :=
      (r = none → area a [0]) ∧
        ∀ q, r = some q → area a [num (q.priority + 16 * q.pattern.val + (if q.expiry.isSome then 128 else 0))] ∧ time (a + 1) q.expiry
    let channel (a : Nat) (c : Channel) : Prop :=
      let at' : Fin 3 → Option Request := fun | 0 => c.system | 1 => c.ports.a | 2 => c.ports.b
      slot a c.system ∧ slot (a + 5) c.ports.a ∧ slot (a + 10) c.ports.b ∧ ((∀ i, at' i = none) → area (a + 15) [3]) ∧
        ∀ i r, at' i = some r → (∀ j q, at' j = some q → q.priority < r.priority ∨ (q.priority = r.priority ∧ j ≤ i)) →
          area (a + 15) [num i.val]
    (∀ (p : Port) (k j : Nat), k < 10 → j < 8 →
      (s.statusByte ((match p with | .a => 0x00D0 | .b => 0x00E0) + k)).getLsbD j = (s.status.bitmaps.get p).getLsbD (8 * k + j)) ∧
    (∀ a : Nat, (0x00DA ≤ a ∧ a < 0x00E0) ∨ (0x00EA ≤ a ∧ a < 0x0100) ∨ (0x03D0 ≤ a ∧ a < 0x0400) ∨ (0x19A0 ≤ a ∧ a < 0x2000) →
      s.statusByte a = 0) ∧
    (∀ n : BayNo, s.status.bays[n] = none → ∀ k, k < 48 → s.statusByte (0x0500 + 48 * n.val + k) = 0) ∧
    (∀ n : BayNo, s.status.lights[n] = none → ∀ k, k < 40 → s.statusByte (0x1040 + 40 * n.val + k) = 0) ∧
    (∀ (n : BayNo) (x : BaySnap), s.status.bays[n] = some x →
      let a := 0x0500 + 48 * n.val
      let r := x.record
      let f := r.flags
      whole a 48 r.gen ([num r.state.code, num r.reason.code, num x.set.policy.code, num x.set.cls.val, num x.set.zone.val,
          num x.set.profile.val, bits [x.set.shedEligible, x.set.latchStop],
          bits [f.wait5v, f.latchOpen, f.removalReady, f.drawHigh, f.shedThermal, f.shedPower], num r.retries] ++
          le16 r.c12 ++ le16 r.c5 ++ le16 r.average ++ le16 r.trips.toNat ++ le16 r.insertions.toNat ++ le16 r.bounces.toNat ++
          le32 r.entered) ∧
        (r.op = none → area (a + 26) [0, 0]) ∧
        ∀ o, r.op = some o →
          area (a + 26) [match o.kind with
              | .settle => 1 | .retryWait => 2 | .spinUp => 3 | .spinDown => 4 | .powerOff => 5 | .prepareRemoval => 6 | .latchStop => 7,
            (match o.origin with | .internal => 0 | .slip .a => 1 | .slip .b => 2) +
              4 * bits [o.slip.isSome, o.deadline.isSome, o.cancelMarked]] ∧
            (∀ addr, o.slip = some addr → area (a + 28) (le16 addr.toNat)) ∧ area (a + 30) (le32 o.start) ∧ time (a + 34) o.deadline) ∧
    (∀ u : Summary, s.status.summary = some u →
      let x := u.account
      let c := u.cooling
      whole 0 64 u.gen ([(match u.straps.bays with | .c24 => 0 | .c36 => 1 | .c48 => 2 | .c60 => 3) +
            4 * bits [u.straps.portB, u.straps.store],
          (match u.origin with | .image => 0 | .defaults => 1), num u.cause.code] ++ le32 u.time ++ le16 x.usable12 ++ le16 x.usable5 ++
          le16 x.committed12 ++ le16 x.committed5 ++ le16 x.fanRes ++
          [bits [x.overCommitted, x.over12, x.over5, x.unresolved, x.redundancyLost], num x.spinning, num x.queued,
            bits [c.coolingLost, c.check.isSome, decide (∃ t, c.check = some (.b, t))]] ++
          le16 c.c ++ le16 c.cprev ++ le16 c.draw ++ le16 c.dcomp ++ le16 (c.demands[(0 : Fin 4)]) ++ le16 (c.demands[(1 : Fin 4)]) ++
          le16 (c.demands[(2 : Fin 4)]) ++ le16 (c.demands[(3 : Fin 4)])) ∧
        (∀ p : Port,
          let a := match p with | .a => 38 | .b => 44
          (c.floors.get p = none → area a [0, 0]) ∧ ∀ f, c.floors.get p = some f → area a (le16 f.duty) ∧ time (a + 2) f.expiry) ∧
        time 50 (c.check.map (·.2)) ∧
        area 54 [bits [(c.floors.a.bind (·.expiry)).isSome, (c.floors.b.bind (·.expiry)).isSome]]) ∧
    (∀ q : QueueSnap, s.status.queue = some q →
      whole 0x40 80 q.gen ([num q.bays.length,
          (match q.hold with | .none => 0 | .concurrency => 1 | .stagger => 2 | .thermal => 3 | .overCommitted => 4 | .budget => 5),
          num q.schedule.limit] ++ le16 q.schedule.stagger ++ [if q.last.isSome then 1 else 0]) ∧
        time 0x47 q.last ∧
        ∀ i, i < 60 → s.statusByte (0x4B + i) = (match q.bays[i]? with | some n => num n.val | none => 0xFF)) ∧
    (∀ e : EnclosureSnap, s.status.enclosure = some e →
      whole 0x90 64 e.light.gen [] ∧ channel 0x91 e.light.amber ∧ channel 0xA1 e.light.blue ∧
        ∀ i : Fin 8, area (0xB1 + 2 * i.val) [e.patterns[i].on, e.patterns[i].off]) ∧
    (∀ (n : BayNo) (l : LightSnap), s.status.lights[n] = some l →
      let a := 0x1040 + 40 * n.val
      whole a 40 l.gen [] ∧ channel (a + 1) l.amber ∧ channel (a + 17) l.blue ∧ area (a + 33) [if l.enable then 1 else 0]) ∧
    (∀ (p : Port) (r : Reader), s.status.readers.get p = some r →
      let a := match p with | .a => 0x0100 | .b => 0x01A0
      whole a 160 r.gen ([num r.state.code] ++ le16 r.cursor.toNat ++ le16 r.watch.toNat ++ [num r.table.length] ++
          le16 r.badWord.toNat ++ le16 r.badLink.toNat) ∧
        ∀ i, i < 16 → (r.table[i]? = none → area (a + 16 + 8 * i) [0, 0, 0, 0, 0, 0, 0, 0]) ∧
          ∀ e, r.table[i]? = some e →
            area (a + 16 + 8 * i) (le16 e.addr.toNat ++ [e.command, if e.attn then 1 else 0] ++ le32 e.taken)) ∧
    (∀ (p : Port) (x : AttentionSnap), s.status.attention.get p = some x →
      let a := match p with | .a => 0x0240 | .b => 0x0260
      whole a 32 x.unit.gen [] ∧ area (a + 17) [x.unit.inService] ∧
        ∀ i : Fin 8, let c := x.config[i]
          area (a + 1 + 2 * i.val) [num (bitsOf [c.enable, c.auto, x.unit.pending[i]] + 16 * c.level), c.vector]) ∧
    (∀ (i : Fin 4) (x : SupplySnap), s.status.supplies[i] = some x →
      whole (0x0280 + 16 * i.val) 16 x.supply.gen ([if x.supply.present then 1 else 0, if x.supply.good then 1 else 0,
        (match x.supply.state with | .absent => 0 | .good => 1 | .failed => 2)] ++ le16 x.set.cap12 ++ le16 x.set.cap5)) ∧
    (∀ (i : Fin 6) (f : FanRecord), s.status.fans[i] = some f →
      whole (0x02C0 + 24 * i.val) 24 f.gen
          ([match f.state with | .unused => 0 | .absent => 1 | .starting => 2 | .ok => 3 | .failed => 4] ++ rpm f.tach ++
            [num f.low, num f.high, if f.weak then 1 else 0] ++ rpm f.lastCheck ++ le32 f.entered) ∧
        time (0x02CD + 24 * i.val) f.startingAt) ∧
    (∀ (i : Fin 8) (x : SensorSnap), s.status.sensors[i] = some x →
      let a := 0x0350 + 16 * i.val
      whole a 16 x.sensor.gen [match x.set.zone with | none => 0xFF | some z => num z.val, BitVec.ofInt 8 x.set.offset,
          match x.sensor.state with | .unused => 0 | .noData => 1 | .ok => 2 | .failed => 3] ∧
        (∀ raw, x.sensor.raw = some raw → area (a + 4) (temp raw)) ∧ area (a + 6) [num x.sensor.fails] ∧ time (a + 7) x.sensor.goodAt) ∧
    (∀ (z : Fin 4) (x : ZoneSnap), s.status.zones[z] = some x →
      let a := 0x0400 + 64 * z.val
      let c := x.set.curve
      let l := x.set.limits
      whole a 64 x.zone.gen ([match x.zone.state with | .normal => 0 | .hold => 1 | .critical => 2,
          match x.zone.condition with | .complete => 0 | .partly => 1 | .blind => 2 | .noSources => 3,
          if x.zone.t.isSome then 1 else 0] ++ temp x.zone.e) ∧
        (∀ t, x.zone.t = some t → area (a + 6) (temp t)) ∧
        (match x.zone.hottest with
          | none => area (a + 8) [0]
          | some (.sensor i) => area (a + 8) [1, num i.val]
          | some (.bay n) => area (a + 8) [2, num n.val]) ∧
        area (a + 10) [num x.zone.valid, num x.zone.pending, num x.zone.missing, num x.zone.vacancy,
          match x.zone.timer with | .stopped => 0 | .running _ => 1 | .spent => 2, num l.h] ∧
        (∀ t, x.zone.timer = .running t → area (a + 16) (le32 t)) ∧
        area (a + 20) (temp c.p1.t ++ le16 c.p1.d ++ temp c.p2.t ++ le16 c.p2.d ++ temp c.p3.t ++ le16 c.p3.d ++ temp c.p4.t ++
          le16 c.p4.d ++ temp l.ceiling ++ temp l.critical ++ [num l.v]) ∧
        area (a + 42) (le16 l.staleFloor ++ le16 l.shedTime ++ le16 x.staleTime))) ∧
  [BayState.empty, .settling, .off, .logic, .queued, .spinningUp, .ready, .spinningDown, .faulted].map BayState.code =
    [0, 1, 2, 3, 4, 5, 6, 7, 8] ∧
  [Reason.reset, .presence, .bounce, .inserted, .policy, .command, .admitted, .spunUp, .parked, .deadline, .latch, .trip, .retry,
    .cleared, .removed, .shedPower, .shedThermal, .rediscovered].map Reason.code =
    [0, 1, 2, 3, 4, 5, 6, 7, 8, 9, 10, 11, 12, 13, 14, 15, 16, 17] ∧
  [Policy.autoSpin, .logicOnly, .manual].map Policy.code = [0, 1, 2] ∧
  [Cause.none, .badSignature, .badVersion, .badLength, .badChecksum, .noResponse, .absent].map Cause.code = [0, 1, 2, 3, 4, 5, 6] ∧
  [ReaderState.disabled, .idleLoading, .parked, .waitingPost, .held, .waitingRoom, .chainFault].map ReaderState.code =
    [0, 1, 2, 3, 4, 5, 6] ∧
  ∀ (l : List Bool) (k : Nat), k < 8 → (BitVec.ofNat 8 (bitsOf l)).getLsbD k = l.getD k false

/-- R85, R86, R148, R150: a WRITE. Through the settings load every byte is discarded. Otherwise the bytes in the port's own window are
stored, any other byte sets WRITE_DENIED, and where no feed byte and no watched word is touched nothing else changes; a byte of the
feed is captured for a bay from OFF onward. -/
def Obligations.WriteStoresOwnWindow : Prop :=
  ∀ (s : State) (p : Port) (addr : Half) (data : List Byte),
    let start := addr.toNat
    let hit (a : Nat) : Prop := start ≤ a ∧ a < start + data.length
    let zeros : List Byte := List.replicate data.length 0
    let unwatched := ∀ k, k < 2 → ¬ hit ((s.reader p).watch.toNat + k)
    (s.phase = .loading → exec (.write p addr data) s = .next (s.putOut p zeros)) ∧
    (s.phase ≠ .loading → s.quiet → s.late = [] → start < 0x8000 → unwatched →
      ((∀ w, s.windows.get p = some w → ∀ n : BayNo, ¬ hit (w.base + 0x40 + n.val)) →
        ∃ (m : Memory) (denied : Bool),
          exec (.write p addr data) s =
            .next { s with ram := m, links := s.links.put p { denied := denied, out := zeros } } ∧
          (∀ a, Memory.read m a = if hit a ∧ s.ownWindow p a = true then data.getD (a - start) 0 else Memory.read s.ram a) ∧
          (denied = true ↔ (s.links.get p).denied = true ∨ ∃ a, hit a ∧ s.ownWindow p a = false) ∧
          (Memory.wf s.ram → Memory.wf m)) ∧
      (∀ w v (n : BayNo), s.windows.get p = some w → 0x7C ≤ w.size → data = [v] → start = w.base + 0x40 + n.val →
        let old := s.feed n
        let entry : FeedEntry := if v = 0xFF then { value := 0, stamp := none, stale := false }
          else { value := min v.toNat 150, stamp := some s.time, stale := false }
        let taken := s.inCount n = true ∧ (s.bay n).record.state.fromOff = true
        exec (.write p addr data) s = .next ({ s with
          ram := Memory.write s.ram start v
          feeds := if taken then s.feeds.set n
              { old with entries := old.entries.put p entry, latest := if v = 0xFF then old.latest else some p }
            else s.feeds }.putOut p [0])))

/-- R151, R171, R184, R150: STATUS returns LOADING, WRITE_DENIED and ATTN, set outside the settings load while some source of the port is
enabled, pending and at a level above every level in service, and a STATUS that returns them clears WRITE_DENIED; a transaction of
an unknown opcode, and a byte written to TAKE, change nothing but what the link drove on data out. -/
def Obligations.StatusAndVoidTransactions : Prop :=
  ∀ (s : State) (p : Port) (count : Nat) (opcode v : Byte),
    let attn := s.phase ≠ .loading ∧ ∃ i : Fin 8,
      let c := (s.settings.attention.get p)[i]
      c.enable = true ∧ (s.attention.get p).pending[i] = true ∧ 0 < c.level ∧
        ∀ k, k < 8 → (s.attention.get p).inService.getLsbD k = true → k < c.level
    (∃ b : Byte, exec (.status p (count + 1)) s =
        .next { s with links := s.links.put p { denied := false, out := List.replicate (count + 1) b } } ∧
      (b.getLsbD 0 = true ↔ s.phase = .loading) ∧ b.getLsbD 1 = (s.links.get p).denied ∧ (b.getLsbD 2 = true ↔ attn) ∧
      b.toNat < 8) ∧
    exec (.status p 0) s = .next (s.putOut p []) ∧
    exec (.voidTransaction p opcode count) s = .next (s.putOut p (List.replicate count 0)) ∧
    (s.phase = .loading ∨ (s.quiet ∧ s.late = [] ∧ s.ownWindow p 0x8000 = false) →
      exec (.registerWriteDiscarded p v) s = .next (s.putOut p [0]))

/-- R28, R81, R88, R127, R145, R147, R164, R175, R179: a port reset. The port's open slips end ABANDONED with no result data and no event,
and their operations run on without them; its light slots and floor empty, its attention state clears, its window is checked and put in
force, a moved one cleared, and its feed voided; the reader then walks from the anchor's link word (ReaderFollowsChain), or is DISABLED.
Within start-up, before its step 8, the steps up to the attention state alone are taken. The attention record is republished by every port
reset (R175). That the reader record is republished though no
field of it changed is log entry 45 (the model's choice). -/
def Obligations.PortResetSteps : Prop :=
  ∀ (s : State) (p : Port) (v : Byte), s.ownWindow p 0x8002 = false →
    let inForce : Option Window := if p = .b ∧ s.straps.portB = false then none else
      match windowOf (s.settings.windows.get p), s.windows.get (Port.other p) with
      | some w, some o => if w.base < o.base + o.size ∧ o.base < w.base + w.size then none else some w
      | w, _ => w
    let kept := inForce ≠ none ∧ s.windows.get p = inForce
    let ended : Memory := (s.reader p).table.foldl
      (fun m e => writeEnd e.addr.toNat .abandoned (resultFlags e.clamped false) none s.time m) s.ram
    (s.phase = .running →
      ∃ c : State, exec (.portReset p v) s = .next ((c.restartReader p).close.putOut p [0]) ∧
        PortCleared p (s.windows.put p inForce) s c ∧
        (match inForce with
          | some w => c.ram = if s.windows.get p = some w then ended else Memory.clear ended w.base w.size
          | none => c.ram = ended) ∧
        (c.reader p).state = .disabled ∧ (c.reader p).cursor = 0 ∧ (c.reader p).watch = 0 ∧ (c.reader p).badWord = 0 ∧ (c.reader p).badLink = 0 ∧
        (∀ n, (kept → c.feed n = s.feed n) ∧
          (¬ kept → c.feed n = { s.feed n with entries := (s.feed n).entries.put p { value := 0, stamp := none, stale := false } })) ∧
        (inForce = none → ((c.restartReader p).reader p).state = .disabled ∧ ((c.restartReader p).reader p).watch = 0) ∧
        (∀ w, inForce = some w → Memory.read16 c.ram (BitVec.ofNat 16 (w.base + 0x1C)).toNat = 0 →
          ((c.restartReader p).reader p).state = .parked ∧
            ((c.restartReader p).reader p).watch = BitVec.ofNat 16 (w.base + 0x1C)) ∧
        (∀ w, inForce = some w →
          c.restartReader p = (c.walk p walkFuel (.link (BitVec.ofNat 16 (w.base + 0x1C)))).republishReader p)) ∧
    (s.phase = .starting →
      ∃ c : State, exec (.portReset p v) s = .next (c.close.putOut p [0]) ∧ PortCleared p s.windows s c ∧ c.ram = ended ∧
        c.reader p = { s.reader p with table := [] } ∧ c.feeds = s.feeds)

/-- R155 to R159, R161, R185: what a reader makes of a link word, of its cursor's state byte and of a slip's bytes, and what wakes it. A link
of 0 parks it, a valid link makes its slip the cursor, an invalid one is a chain fault, raised on entry only; a posted slip is taken if the
table has room; a WRITE that touches the watched word wakes it; room wakes a reader in WAITING_ROOM. A take writes TAKEN and gives the row of
the slip's command code its own work, on the fields at their offsets that the given-mask marks; an unknown code ends BAD_COMMAND. That this
end, and a part selector's BAD_VALUE, carry no result data is log entry 13 (the model's choice). -/
def Obligations.ReaderFollowsChain : Prop :=
  (∀ (s : State) (c : Instr) (h : SlipHead), c.slip? = some h → s.takeable h = true →
    exec c s = .next ((slipWork c { s with ram := Memory.write s.ram h.addr.toNat 2 }).finishSlip h.port)) ∧
  (∀ (s : State) (p : Port) (addr : Half),
    let b (k : Nat) : Byte := Memory.read s.ram (addr.toNat + k)
    let w (k : Nat) : Half := b (k + 1) ++ b k
    let g (n k : Nat) : Option Byte := if (b 4).getLsbD n then some (b k) else none
    let gw (n k : Nat) : Option Half := if (b 4).getLsbD n then some (w k) else none
    let lim (n k : Nat) : Option Byte := if (b 5).getLsbD n then some (b k) else none
    let limw (n k : Nat) : Option Half := if (b 5).getLsbD n then some (w k) else none
    let h : SlipHead := { port := p, addr := addr, flags := b 1, target := b 3 }
    let taken : State := { s with ram := Memory.write s.ram addr.toNat 2 }
    let does (c : Instr) : Prop := s.takeAt p addr = (slipWork c taken).settle
    let ends (o : SlipOutcome) : Prop := s.takeAt p addr = (taken.endTaken h o false false none).settle
    (b 2 = 0x01 → does (.note h)) ∧ (b 2 = 0x02 → does (.cancel h (w 4))) ∧
    (b 2 = 0x10 → does (.powerOn h)) ∧ (b 2 = 0x11 → does (.powerOff h)) ∧ (b 2 = 0x12 → does (.prepareRemoval h)) ∧
    (b 2 = 0x13 → does (.clearFault h)) ∧
    (b 2 = 0x14 → does (.setBay h
      { policy := g 0 5, cls := g 1 6, zone := g 2 7, profile := g 3 8, shed := g 4 9, latch := g 5 10 })) ∧
    (b 2 = 0x20 → does (.spinUp h (w 4))) ∧ (b 2 = 0x21 → does (.spinDown h)) ∧
    (b 2 = 0x22 → does (.setSchedule h { limit := g 0 5, stagger := gw 1 6 })) ∧
    (b 2 = 0x30 → b 3 ≠ 0xFE → does (.setSupplySlot h { cap12 := gw 0 6, cap5 := gw 1 8 })) ∧
    (b 2 = 0x30 → b 3 = 0xFE → does (.setSupplyEnclosure h
      { mode := g 0 5, reserve12 := gw 1 6, reserve5 := gw 2 8, shed := g 3 10, delay := g 4 11 })) ∧
    (b 2 = 0x31 → does (.setProfile h
      { peak12 := gw 0 6, steady12 := gw 1 8, i5 := gw 2 10, spin := gw 3 12, park := gw 4 14 })) ∧
    (b 2 = 0x40 → b 3 = 0xFE → does (.setZoneStaleTime h (w 4))) ∧
    (b 2 = 0x40 → b 3 ≠ 0xFE → 4 ≤ (b 3).toNat → ends .badTarget) ∧
    (b 2 = 0x40 → (b 3).toNat < 4 → b 4 = 0 → does (.setZoneCurve h
      { p1 := ⟨b 5, w 6⟩, p2 := ⟨b 8, w 9⟩, p3 := ⟨b 11, w 12⟩, p4 := ⟨b 14, w 15⟩ })) ∧
    (b 2 = 0x40 → (b 3).toNat < 4 → b 4 = 1 → does (.setZoneLimits h
      { h := lim 0 6, ceiling := lim 1 7, critical := lim 2 8, v := lim 3 9, staleFloor := limw 4 10, shedTime := limw 5 12 })) ∧
    (b 2 = 0x40 → (b 3).toNat < 4 → b 4 ≠ 0 → b 4 ≠ 1 → ends .badValue) ∧
    (b 2 = 0x41 → does (.setSensor h { zone := g 0 5, offset := g 1 6 })) ∧
    (b 2 = 0x50 → does (.setFloor h (w 4) (w 6))) ∧
    (b 2 = 0x51 → does (.setFans h
      { count := g 0 5, maxRpm := gw 1 6, idle := gw 2 8, maxCur := gw 3 10, dmin := gw 4 12, slewUp := gw 5 14, slewDown := gw 6 16
        reserve := gw 7 18 })) ∧
    (b 2 = 0x52 → does (.fanCheck h)) ∧
    (b 2 = 0x60 → does (.setLight h { channel := b 4, pattern := b 5, priority := b 6, duration := w 7, enable := b 9 })) ∧
    (b 2 = 0x61 → does (.setPattern h { on := g 0 5, off := g 1 6 })) ∧
    (b 2 = 0x70 → does (.setAttention h { enable := g 0 5, level := g 1 6, auto := g 2 7, vector := g 3 8 })) ∧
    (b 2 = 0x80 → does (.storeSettings h)) ∧ (b 2 = 0x81 → does (.reloadSettings h)) ∧
    (b 2 = 0x82 → does (.setWindows h { code := b 4, base := w 6 })) ∧
    ((b 2).toNat ∉ [0x01, 0x02, 0x10, 0x11, 0x12, 0x13, 0x14, 0x20, 0x21, 0x22, 0x30, 0x31, 0x40, 0x41, 0x50, 0x51, 0x52, 0x60, 0x61,
      0x70, 0x80, 0x81, 0x82] → ends .badCommand)) ∧
  ∀ (s : State) (p : Port) (fuel : Nat),
    let r := s.reader p
    let state := Memory.read s.ram r.cursor.toNat
    (∀ word : Half,
      let link := Memory.read16 s.ram word.toNat
      let valid := ∃ w, s.windows.get p = some w ∧ link.toNat % 32 = 0 ∧ w.base + 0x80 ≤ link.toNat ∧
        link.toNat + 32 ≤ w.base + w.size ∧ ∀ e ∈ r.table, e.addr ≠ link
      (link = 0 → s.walk p (fuel + 1) (.link word) = s.putReader p { r with state := .parked, watch := word }) ∧
      (link ≠ 0 → valid → s.walk p (fuel + 1) (.link word) =
        (s.putReader p { r with state := .waitingPost, cursor := link, watch := link }).walk p fuel .post) ∧
      (link ≠ 0 → ¬ valid → s.walk p (fuel + 1) (.link word) =
        { s.putReader p { r with state := .chainFault, watch := word, badWord := word, badLink := link } with
          late := s.late ++ (if r.state = .chainFault then [] else [(p, srcChainFault)]) })) ∧
    (state ≠ 1 → s.walk p (fuel + 1) .post = s.putReader p { r with state := .waitingPost, watch := r.cursor }) ∧
    (state = 1 → 16 ≤ r.table.length → s.walk p (fuel + 1) .post = s.putReader p { r with state := .waitingRoom, watch := 0 }) ∧
    (state = 1 → r.table.length < 16 → s.walk p (fuel + 1) .post =
      (let t := s.takeAt p r.cursor
       if (Memory.read s.ram (r.cursor.toNat + 1)).getLsbD 1 = true then
         t.putReader p { t.reader p with state := .held, watch := r.cursor + 1 }
       else t.walk p fuel (.link (r.cursor + 28)))) ∧
    (s.phase = .running → r.state = .waitingRoom → r.table.length < 16 →
      exec (.waitingRoomWake p) s = .next ((s.walk p walkFuel .post).pubReader p).close) ∧
    (∀ (addr : Half) (data : List Byte), s.phase ≠ .loading → addr.toNat < 0x8000 →
      let hit (a : Nat) : Prop := addr.toNat ≤ a ∧ a < addr.toNat + data.length
      (∀ w, s.windows.get p = some w → (∀ n : BayNo, ¬ hit (w.base + 0x40 + n.val)) ∧ ∀ a, hit a → w.holds a = true) →
      s.windows.get p ≠ none →
      let u : State := { s with ram := Memory.writeRun s.ram addr.toNat data }
      let then' (v : State) : Prop := exec (.write p addr data) s = .next (v.close.putOut p (List.replicate data.length 0))
      ((r.state = .parked ∨ r.state = .chainFault) → hit r.watch.toNat ∨ hit (r.watch.toNat + 1) → then' (u.walkFrom p (.link r.watch))) ∧
      (r.state = .waitingPost → hit r.watch.toNat → then' (u.walkFrom p .post)) ∧
      (r.state = .held → hit r.watch.toNat → then'
        (if (Memory.read u.ram r.watch.toNat).getLsbD 1 = true then u else u.walkFrom p (.link (r.cursor + 28)))))

/-- R72 to R74, R121, R162: CANCEL by what it names. No open slip of the port ends NOT_FOUND, one of another command NOT_CANCELLABLE; a
SPIN_UP is withdrawn from the queue at once or marked and parked, a fan check ends at once, and the CANCEL ends OK with MARKED. -/
def Obligations.CancelByWhatItNames : Prop :=
  ∀ (s : State) (h : SlipHead) (named : Half), s.takeable h = true → h.target = 0xFE →
    let ends (o : SlipOutcome) (marked : Bool) (code : Byte) : Prop :=
      exec (.cancel h named) s =
        .next ((s.answered h o false marked (some (le16 named.toNat ++ [code]))).finishSlip h.port)
    let accepted (u : State) (code : Byte) : Prop :=
      exec (.cancel h named) s = .next ((u.endTaken h .ok false true (some (le16 named.toNat ++ [code]))).finishSlip h.port)
    (s.findOpen h.port named = none → ends .notFound false 0) ∧
    (∀ e, s.findOpen h.port named = some e → e.command ≠ 0x20 → e.command ≠ 0x52 → ends .notCancellable false e.command) ∧
    (∀ e k, s.findOpen h.port named = some e → e.command = 0x52 → s.fans.check = some k → k.origin = h.port → k.slip = some named →
      ∃ u : State, accepted u 0x52 ∧ u.outer = { s.outer with fans := { s.fans with check := none } } ∧
        u.exchange = (s.exchange.take h.addr).closed h.port named .cancelled false none s.time ∧ ReadersStand s u ∧ u.bays = s.bays ∧
        u.lines = s.lines ∧ u.feeds = s.feeds ∧ u.lights = s.lights ∧ u.account = s.account ∧ u.scheduler = s.scheduler ∧ u.attention = s.attention ∧
        u.reports = s.reports ∧ (e.attn = true → (h.port, srcSlipEnded) ∈ u.late) ∧ OnlyTold [srcSlipEnded] s u) ∧
    (∀ e (n : BayNo) (o : Operation), s.findOpen h.port named = some e → e.command = 0x20 → (s.bay n).record.op = some o →
      o.origin = .slip h.port → o.slip = some named →
      (∀ m q, (s.bay m).record.op = some q → q.origin = .slip h.port → q.slip = some named → m = n) →
      let b := s.bay n
      (b.record.state = .queued →
        ∃ u : State, accepted u 0x20 ∧ BayHandled n s u ∧
          (u.bay n).like (b.stands .logic .command s.time 0 (s.profileOf n).i5
            { wait5v := false, latchOpen := b.record.flags.latchOpen, removalReady := false, drawHigh := false, shedThermal := false,
              shedPower := false } none) ∧
          u.line n = (s.line n).switched true false ∧ u.feed n = s.feed n ∧ u.scheduler.queue = s.queueWithout n ∧
          u.exchange = (s.exchange.take h.addr).closed h.port named .cancelled false (some (bayResult u n)) s.time ∧
          u.told srcBayChange ∧ (e.attn = true → (h.port, srcSlipEnded) ∈ u.late) ∧
          OnlyTold [srcBayChange, srcPower, srcSlipEnded] s u) ∧
      (b.record.state = .spinningUp →
        ∃ u : State, accepted u 0x20 ∧ BayHandled n s u ∧
          (u.bay n).like
            { b.stands .spinningDown .command s.time b.record.c12 b.record.c5 b.record.flags (some { o with cancelMarked := true }) with
              parkAt := some (Time.plus s.time (s.profileOf n).park) } ∧
          u.line n = (s.line n).switched true true ∧ u.feed n = s.feed n ∧ u.scheduler.queue = s.scheduler.queue ∧
          u.exchange = s.exchange.take h.addr ∧ u.told srcBayChange ∧ OnlyTold [srcBayChange, srcPower] s u) ∧
      (b.record.state = .spinningDown → ends .ok true 0x20))

/-! ### Attention (chapter 8) -/

/-- R170 to R173: the events of a handling set the pending flags of enabled sources and no others. A source is eligible while it is enabled,
pending and at a level above every level in service (R171). TAKE serves the eligible source of greatest level, the higher number among equals:
its vector is returned, its flag clears, its level is in service, auto-disable clears its enable; with none it returns 0xFF. DONE removes the
highest level in service. That auto-disable clears the enable in the live settings copy is log entry 17 (the model's choice). -/
def Obligations.AttentionServesGreatestLevel : Prop :=
  ∀ (s : State) (p : Port),
    let config := s.settings.attention.get p
    let unit := s.attention.get p
    let eligible (i : Fin 8) : Prop :=
      config[i].enable = true ∧ unit.pending[i] = true ∧ 0 < config[i].level ∧
        ∀ k, k < 8 → unit.inService.getLsbD k = true → k < config[i].level
    (let t := s.deliver
     t.late = [] ∧ t.outer = s.outer ∧ t.bays = s.bays ∧ t.readers = s.readers ∧ t.ram = s.ram ∧
       (t.attention.get p).inService = unit.inService ∧
       ∀ i : Fin 8, ((t.attention.get p).pending[i] = true ↔
         unit.pending[i] = true ∨ (config[i].enable = true ∧ (p, i) ∈ s.late))) ∧
    (s.phase = .loading → exec (.take p) s = .next (s.putOut p [0xFF])) ∧
    (s.phase ≠ .loading → (∀ i : Fin 8, ¬ eligible i) → exec (.take p) s = .next (s.putOut p [0xFF])) ∧
    (∀ i : Fin 8, s.phase ≠ .loading → eligible i →
      (∀ j : Fin 8, eligible j → config[j].level < config[i].level ∨ (config[j].level = config[i].level ∧ j ≤ i)) →
      ∃ u : State, exec (.take p) s = .next (u.putOut p [config[i].vector]) ∧
        u = { s with settings := u.settings, attention := u.attention, status := u.status } ∧
        (let served := config.set i { config[i] with enable := config[i].enable && !config[i].auto }
         u.settings = { s.settings with attention := s.settings.attention.put p served }) ∧
        u.attention.get (Port.other p) = s.attention.get (Port.other p) ∧
        (u.attention.get p).pending = unit.pending.set i false ∧
        ∀ k, k < 8 → (u.attention.get p).inService.getLsbD k = (unit.inService.getLsbD k || decide (k = config[i].level))) ∧
    (∀ v, s.phase ≠ .loading → s.quiet → s.late = [] → s.ownWindow p 0x8001 = false → unit.inService.getLsbD 0 = false →
      (unit.inService = 0 → exec (.done p v) s = .next (s.putOut p [0])) ∧
      (∀ k, k < 8 → unit.inService.getLsbD k = true → (∀ m, m < 8 → k < m → unit.inService.getLsbD m = false) →
        ∃ u : State, exec (.done p v) s = .next (u.putOut p [0]) ∧ u = { s with attention := u.attention, status := u.status } ∧
          u.attention.get (Port.other p) = s.attention.get (Port.other p) ∧ (u.attention.get p).pending = unit.pending ∧
          ∀ m, m < 8 → (u.attention.get p).inService.getLsbD m = (unit.inService.getLsbD m && decide (m ≠ k))))

/-- R174: SET_ATTENTION writes one source of the posting port, each given value clamped; an enable turned off clears the pending flag; the
result gives the source and its flag; the other sources, the in-service set and the other port stand. That the bytes of the enable, the
auto-disable and the pending flag are 1 or 0 is log entry 29 (the model's choice). -/
def Obligations.SetAttentionWritesSource : Prop :=
  ∀ (s : State) (h : SlipHead) (a : SetAttentionArgs) (i : Fin 8), s.takeable h = true → h.target.toNat = i.val →
    let config := s.settings.attention.get h.port
    let unit := s.attention.get h.port
    let flag (now : Bool) : Option Byte → Bool := fun | none => now | some v => decide (v ≠ 0)
    let new : SourceConfig :=
      { enable := flag config[i].enable a.enable
        level := match a.level with | none => config[i].level | some v => max 1 (min 7 v.toNat)
        auto := flag config[i].auto a.auto
        vector := match a.vector with | none => config[i].vector | some v => if v = 0xFF then 0xFE else v }
    let beyond (hi : Nat) : Option Byte → Bool := fun | none => false | some v => decide (hi < v.toNat)
    let clamped := beyond 1 a.enable || beyond 7 a.level || decide (a.level = some 0) || beyond 1 a.auto || beyond 0xFE a.vector
    let pending := new.enable && unit.pending[i]
    ∃ v : State,
      exec (.setAttention h a) s = .next ((State.answered h .ok clamped false
        (some [0, flagByte new.enable, BitVec.ofNat 8 new.level, flagByte new.auto, new.vector, flagByte pending]) v).finishSlip h.port) ∧
      v = { s with settings := v.settings, attention := v.attention, status := v.status } ∧
      v.settings = { s.settings with attention := s.settings.attention.put h.port (config.set i new) } ∧
      v.attention.get (Port.other h.port) = s.attention.get (Port.other h.port) ∧
      (v.attention.get h.port).inService = unit.inService ∧ (v.attention.get h.port).pending = unit.pending.set i pending

/-! ### The settings store and the plain commands (chapter 9) -/

/-- R177, R180: STORE_SETTINGS takes the live copy as it stands and keeps its slip open, or ends BUSY while a store or reload runs. The
store's end leaves the image in the settings memory and ends the slip OK; a refused write leaves the writes made so far, in R180's order, and
ends the slip BAD_TARGET, and after one write or more the next load finds BAD_SIGNATURE; so does the load after a reset taken while the store
ran. That a BUSY slip carries no result data is log entry 13, that the writes go byte by byte is log entry 16, and where the header's zero
bytes come among them log entry 44 (the model's choices). Every section of the image lies where Table 11-16 says, and an image of settings in
range passes the checks and gives those settings back. -/
def Obligations.StoreWritesImage : Prop :=
  (∀ (s : State) (h : SlipHead), s.takeable h = true → h.target = 0xFE → s.straps.store = true →
    (s.store ≠ .none → exec (.storeSettings h) s = .next ((s.answered h .busy false false none).finishSlip h.port)) ∧
    (s.store = .none →
      ∃ u : State, exec (.storeSettings h) s = .next (u.finishSlip h.port) ∧
        u = { s with ram := u.ram, readers := u.readers, store := .storing h.port (some h.addr) s.settings.image } ∧
        u.exchange = (s.exchange.take h.addr).kept h 0x80 false s.time ∧ ReadersStand s u)) ∧
  (∀ (s : State) (p : Port) (slip : Option Half) (c : Settings), s.phase = .running → s.store = .storing p slip c.image →
    let result := (c.image.drop 4).take 2 ++ (c.image.drop 8).take 2
    let run (from' len : Nat) : List (Nat × Byte) := (List.range len).map fun k => (from' + k, c.image.getD (from' + k) 0)
    let order : List (Nat × Byte) := (List.range 4).map (fun k => (k, 0)) ++ run 16 672 ++ run 4 12 ++ run 0 4
    let first (k : Nat) : Memory := (order.take k).foldl (fun t x => Memory.write t x.1 x.2) s.settingsMem
    let finished (m : Memory) (o : SlipOutcome) (u : State) : Prop :=
      u.outer = { s.outer with store := .none, settingsMem := m } ∧
        u.exchange = (match slip with
          | none => s.exchange
          | some addr => s.exchange.closed p addr o false (some result) s.time) ∧ ReadersStand s u ∧
        u.bays = s.bays ∧ u.lines = s.lines ∧ u.feeds = s.feeds ∧ u.lights = s.lights ∧ u.account = s.account ∧
        u.scheduler = s.scheduler ∧ u.attention = s.attention ∧ u.reports = s.reports ∧ OnlyTold [srcSlipEnded] s u
    c.image.length = 688 ∧
    (∃ (m : Memory) (u : State), exec .storeSettingsEnd s = .next u.close ∧ finished m .ok u ∧
      (∀ a, Memory.read m a = if a < 688 then c.image.getD a 0 else Memory.read s.settingsMem a) ∧
      checkImage m = .none) ∧
    (∀ writes, ∃ u : State, exec (.storeWriteFailed writes) s = .next u.close ∧ finished (first (min writes 691)) .badTarget u) ∧
    first 0 = s.settingsMem ∧
    (∀ k, 1 ≤ k → k ≤ 691 → checkImage (first k) = .badSignature ∧
      ∀ a, 688 ≤ a → Memory.read (first k) a = Memory.read s.settingsMem a) ∧
    (∀ straps writes, ∃ t : State, exec (.coldReset straps writes) s = .next t ∧
      t.settingsMem = first (max 4 (min writes 688)) ∧ checkImage t.settingsMem = .badSignature) ∧
    (∀ straps writes, ∃ t : State, exec (.warmReset straps writes) s = .next t ∧
      t.settingsMem = first (max 4 (min writes 688)) ∧ checkImage t.settingsMem = .badSignature)) ∧
  (∀ c : Settings,
    let at' (a : Nat) (l : List Byte) : Prop := (c.image.drop a).take l.length = l
    (∀ n : BayNo, at' (0x010 + 6 * n.val) c.bays[n].bytes) ∧
      at' 0x178 (le16 c.timing.settle ++
        [BitVec.ofNat 8 c.timing.debounce, BitVec.ofNat 8 c.timing.retryLimit, BitVec.ofNat 8 c.timing.retryBase, 0]) ∧
      (∀ i : Fin 8, let p := c.profiles[i]
        at' (0x17E + 10 * i.val) (le16 p.peak12 ++ le16 p.steady12 ++ le16 p.i5 ++ le16 p.spin ++ le16 p.park)) ∧
      (∀ i : Fin 4, at' (0x1CE + 4 * i.val) (le16 c.supplies[i].cap12 ++ le16 c.supplies[i].cap5)) ∧
      at' 0x1DE ([(match c.account.mode with | .combined => 0 | .spareOne => 1)] ++ le16 c.account.reserve12 ++ le16 c.account.reserve5 ++
        [flagByte c.account.shed, BitVec.ofNat 8 c.account.delay, 0]) ∧
      at' 0x1E6 ([BitVec.ofNat 8 c.schedule.limit, 0] ++ le16 c.schedule.stagger) ∧
      (∀ z : Fin 4, at' (0x1EA + 20 * z.val) (c.zones[z].curve.bytes ++ c.zones[z].limits.bytes)) ∧
      at' 0x23A (le16 c.staleTime) ∧ (∀ i : Fin 8, at' (0x23C + 2 * i.val) [sensorZoneByte c.sensors[i].zone, signed8 c.sensors[i].offset]) ∧
      at' 0x24C ([BitVec.ofNat 8 c.fans.count, 0] ++ c.fans.bytes) ∧
      (∀ i : Fin 8, 2 ≤ i.val → at' (0x25C + 2 * (i.val - 2)) [c.patterns[i].on, c.patterns[i].off]) ∧
      (∀ (p : Port) (i : Fin 8), let x := (c.attention.get p)[i]
        at' ((match p with | .a => 0x268 | .b => 0x288) + 4 * i.val)
          [flagByte x.enable, BitVec.ofNat 8 x.level, flagByte x.auto, x.vector]) ∧
      (∀ p : Port, let w := c.windows.get p
        at' (match p with | .a => 0x2A8 | .b => 0x2AC) ([w.code, 0] ++ le16 w.base.toNat)) ∧
      (c.inRange → ∀ m : Memory, (∀ a, a < 688 → Memory.read m a = c.image.getD a 0) →
        checkImage m = .none ∧ Settings.ofImage m = c))

/-- R177, R181: RELOAD_SETTINGS keeps its slip open, or ends BUSY while a store or reload runs. The end of the read of a bad image ends the
slip BAD_VALUE with its cause and changes no setting; a good image's values become the live copy, each clamped as its SET command clamps it,
but for the zone parts and the windows that would be refused, and the origin becomes IMAGE; fans, sensors, supplies, scan and queue stand as
the SET commands leave them, and the slip ends OK with CLAMPED, the zone parts refused and whether the windows were. A load takes a good
image's values in the same way, a refused zone part at its default and the windows as stored. That a BUSY slip carries no result data, and
that the clamps of a refused zone part count towards CLAMPED, is log entry 13, that a sensor set to NONE loses the time of its last good
read log entry 36, and that a slot made fitted raises POWER log entry 41 (the model's choices). -/
def Obligations.ReloadAppliesImage : Prop :=
  (∀ (s : State) (h : SlipHead), s.takeable h = true → h.target = 0xFE → s.straps.store = true →
    (s.store ≠ .none → exec (.reloadSettings h) s = .next ((s.answered h .busy false false none).finishSlip h.port)) ∧
    (s.store = .none →
      ∃ u : State, exec (.reloadSettings h) s = .next (u.finishSlip h.port) ∧
        u = { s with ram := u.ram, readers := u.readers, store := .reloading h.port (some h.addr) } ∧
        u.exchange = (s.exchange.take h.addr).kept h 0x81 false s.time ∧ ReadersStand s u)) ∧
  (∀ (s : State) (p : Port) (slip : Option Half) (answered : Bool), s.phase = .running → s.store = .reloading p slip →
    let cause : Cause := if s.straps.store = false then .absent else if answered = false then .noResponse else checkImage s.settingsMem
    (cause ≠ .none →
      ∃ u : State, exec (.reloadReadEnd answered) s = .next u.close ∧ u.outer = { s.outer with store := .none } ∧
        u.exchange = (match slip with
          | none => s.exchange
          | some addr => s.exchange.closed p addr .badValue false (some [BitVec.ofNat 8 cause.code]) s.time) ∧ ReadersStand s u ∧
        u.bays = s.bays ∧ u.lines = s.lines ∧ u.feeds = s.feeds ∧ u.lights = s.lights ∧ u.account = s.account ∧
        u.scheduler = s.scheduler ∧ u.attention = s.attention ∧ u.reports = s.reports ∧ OnlyTold [srcSlipEnded] s u) ∧
    (cause = .none →
      let m := s.settingsMem
      let image := Settings.ofImage m
      ∃ t : State, exec (.reloadReadEnd answered) s = .next t ∧ t.origin = .image ∧ t.cause = .none ∧ t.store = .none ∧
        t.phase = .running ∧ t.time = s.time ∧ t.straps = s.straps ∧ t.settingsMem = s.settingsMem ∧ t.windows = s.windows ∧
        t.settings.bays = image.bays ∧ t.settings.timing = image.timing ∧ t.settings.profiles = image.profiles ∧
        t.settings.supplies = image.supplies ∧ t.settings.account = image.account ∧ t.settings.schedule = image.schedule ∧
        t.settings.staleTime = image.staleTime ∧ t.settings.sensors = image.sensors ∧ t.settings.fans = image.fans ∧
        t.settings.attention = image.attention ∧ (∀ i : Fin 8, 2 ≤ i.val → t.settings.patterns[i] = image.patterns[i]) ∧
        (∀ z : Fin 4,
          let c := curveInImage m z
          let l := limitsInImage m z
          (c.passes → t.settings.zones[z].curve = c) ∧ (¬ c.passes → t.settings.zones[z].curve = s.settings.zones[z].curve) ∧
            (l.ceiling < l.critical → t.settings.zones[z].limits = l) ∧
            (¬ l.ceiling < l.critical → t.settings.zones[z].limits = s.settings.zones[z].limits)) ∧
        (WindowsPass image.windows.a image.windows.b → t.settings.windows = image.windows) ∧
        (¬ WindowsPass image.windows.a image.windows.b → t.settings.windows = s.settings.windows) ∧
        ∃ (u v : State) (clamped : Bool) (curves limits : List (Fin 4)) (windows : Byte),
          t = u.close ∧ u.settings = t.settings ∧
          (clamped = true ↔ ClampedInImage m) ∧
          (curves.Nodup ∧ ∀ z, z ∈ curves ↔ ¬ (curveInImage m z).passes) ∧
          (limits.Nodup ∧ ∀ z, z ∈ limits ↔ ¬ (limitsInImage m z).ceiling < (limitsInImage m z).critical) ∧
          (WindowsPass image.windows.a image.windows.b → windows = 0) ∧ (¬ WindowsPass image.windows.a image.windows.b → windows = 1) ∧
          u.exchange = (match slip with
            | none => v.exchange
            | some addr => v.exchange.closed p addr .ok clamped
                (some [0, BitVec.ofNat 8 (curves.length + limits.length), windows]) s.time) ∧ ReadersStand s u ∧
          ((∀ (n : BayNo) (o : Operation), (s.bay n).record.op = some o → o.slip = none) → v.exchange = s.exchange) ∧
          (∀ addr e, slip = some addr → s.findOpen p addr = some e →
            (∀ (n : BayNo) (o : Operation), (s.bay n).record.op = some o → o.origin = .slip p → o.slip ≠ some addr) →
            v.findOpen p addr = some e ∧ (e.attn = true → (p, srcSlipEnded) ∈ u.late)) ∧
          u.outer =
            { s.outer with
              settings := u.settings, origin := .image, cause := .none, store := .none, supplies := u.account.supplies
              fanRes := u.account.fanRes, sensors := u.sensors, scan := u.scan, zones := u.zones, fans := u.fans } ∧
          u.attention.a.inService = s.attention.a.inService ∧ u.attention.b.inService = s.attention.b.inService ∧
          u.lights.enclosure.amber.system = u.enclosureAmber ∧ (∀ z : Fin 4, s.zones[z].like u.zones[z]) ∧
          (∀ i : Fin 4,
            let lines := s.supplyLines[i]
            let fitted := ¬ (image.supplies[i].cap12 = 0 ∧ image.supplies[i].cap5 = 0)
            (image.supplies[i] = s.settings.supplies[i] → u.account.supplies[i] = s.account.supplies[i]) ∧
            (image.supplies[i] ≠ s.settings.supplies[i] →
              u.account.supplies[i].state =
                (if fitted ∧ lines.present = true then (if lines.good then .good else .failed) else .absent) ∧
              (u.account.supplies[i].state ≠ s.account.supplies[i].state → u.told srcPower))) ∧
          (let old := s.settings.fans
           let new := image.fans
           let c := max s.fans.c new.dmin
           let lostOrFailed (st : FanState) : Prop := st = .absent ∨ st = .failed
           (new = old → u.fans = s.fans ∧ u.account.fanRes = s.account.fanRes) ∧
           (new ≠ old → u.fans = { s.fans with fans := u.fans.fans, c := c } ∧
             (∀ i : Fin 6,
               (new.count ≤ i.val → i.val < old.count → u.fans.fans[i].record.state = .unused) ∧
               (old.count ≤ i.val → i.val < new.count →
                 u.fans.fans[i].record.state = if s.fans.fans[i].present then .starting else .absent) ∧
               ((i.val < old.count ↔ i.val < new.count) → s.fans.fans[i].like u.fans.fans[i]) ∧
               (s.fans.fans[i].record.state ≠ u.fans.fans[i].record.state →
                 lostOrFailed s.fans.fans[i].record.state ∨ lostOrFailed u.fans.fans[i].record.state → u.told srcFan)) ∧
             (c ≠ s.fans.c ∨ old.count ≠ new.count ∨ old.idle ≠ new.idle ∨ old.maxCur ≠ new.maxCur ∨ old.reserve ≠ new.reserve →
               u.account.fanRes = ((List.finRange 6).map fun i =>
                 match u.fans.fans[i].record.state with
                 | .unused | .absent => 0
                 | .failed => new.maxCur
                 | .starting | .ok => new.idle + ((new.maxCur - new.idle) * max c new.reserve + 999) / 1000).sum))) ∧
          (∀ i : Fin 8,
            let x := s.sensors[i]
            let old := s.settings.sensors[i].zone
            let zone := image.sensors[i].zone
            let new : Sensor :=
              if zone = old then x
              else if zone = none then { x with state := .unused, raw := none, fails := 0, goodAt := none }
              else if old = none then { x with state := .noData, raw := none, fails := 0, goodAt := none }
              else x
            new.like u.sensors[i] ∧ (zone = none → old ≠ none → x.state = .failed → u.told srcThermal)) ∧
          (s.scan.left = [] → u.scan = s.scan) ∧
          (∀ i rest, s.scan.left = i :: rest →
            let moved (j : Fin 8) : Prop := image.sensors[j].zone ≠ s.settings.sensors[j].zone
            (u.scan.discard = true ↔ s.scan.discard = true ∨ moved i) ∧ ∃ l, u.scan.left = i :: l ∧ l.Sublist rest ∧
              ∀ j ∈ rest, j ∈ l ↔ j = i ∨ ¬ (moved j ∧ image.sensors[j].zone = none)) ∧
          (s.queueSound → (∀ e ∈ s.scheduler.queue, e.cls = (s.baySet e.bay).cls) →
            u.queueSound ∧ ∀ e ∈ u.scheduler.queue, e.cls = (image.bays[e.bay] : BaySettings).cls))) ∧
  (∀ m : Memory,
    let c := Settings.ofImage m
    c.taken m ∧ c.patterns[(0 : Fin 8)] = ⟨0, 0⟩ ∧ c.patterns[(1 : Fin 8)] = ⟨0, 0⟩ ∧
      (∀ z : Fin 4,
        let x := curveInImage m z
        let l := limitsInImage m z
        (x.passes → c.zones[z].curve = x) ∧ (¬ x.passes → c.zones[z].curve = .default) ∧
          (l.ceiling < l.critical → c.zones[z].limits = l) ∧ (¬ l.ceiling < l.critical → c.zones[z].limits = .default)) ∧
      c.windows.a.code = Memory.read m 0x2A8 ∧ c.windows.a.base.toNat = number16 m 0x2AA ∧
      c.windows.b.code = Memory.read m 0x2AC ∧ c.windows.b.base.toNat = number16 m 0x2AE)

/-- R51, R141, R163, R182: the commands that store one setting or none. SET_PROFILE and SET_PATTERN write their entry, SET_WINDOWS a live
window setting if it is valid and shares no byte with the other port's, NOTE nothing; each ends with its result, and nothing else of the
part changes but the admission opportunity that SET_PROFILE gives. That SET_WINDOWS compares with the other live setting's span even where
that setting is itself invalid is log entry 28, and that a slip refused BAD_VALUE carries no result data is log entry 13 (the model's
choices). -/
def Obligations.PlainCommandsStore : Prop :=
  ∀ (s : State) (h : SlipHead), s.takeable h = true →
    (∀ (a : SetProfileArgs) (i : Fin 8), h.target.toNat = i.val →
      let old := s.settings.profiles[i]
      let given (now : Nat) : Option Half → Nat := fun | none => now | some v => v.toNat
      let within (lo hi now : Nat) : Option Half → Nat := fun | none => now | some v => max lo (min hi v.toNat)
      let beyond (lo hi : Nat) : Option Half → Bool := fun | none => false | some v => decide (v.toNat < lo ∨ hi < v.toNat)
      let new : Profile :=
        { peak12 := given old.peak12 a.peak12
          steady12 := min (given old.steady12 a.steady12) (given old.peak12 a.peak12)
          i5 := given old.i5 a.i5
          spin := within 1000 30000 old.spin a.spin
          park := within 500 10000 old.park a.park }
      let clamped := beyond 1000 30000 a.spin || beyond 500 10000 a.park ||
        decide (given old.peak12 a.peak12 < given old.steady12 a.steady12)
      exec (.setProfile h a) s =
        .next ((State.answered h .ok clamped false (some ([0, 0] ++ le16 new.peak12 ++ le16 new.steady12 ++ le16 new.i5 ++
            le16 new.spin ++ le16 new.park))
          { s with
            settings := { s.settings with profiles := s.settings.profiles.set i new }
            reports := { s.reports with pass := true } }).finishSlip h.port)) ∧
    (∀ (a : SetPatternArgs) (i : Fin 8), 2 ≤ i.val → h.target.toNat = i.val →
      let new : Pattern := { on := a.on.getD s.settings.patterns[i].on, off := a.off.getD s.settings.patterns[i].off }
      ∃ v : State, exec (.setPattern h a) s =
          .next ((State.answered h .ok false false (some [0, new.on, new.off]) v).finishSlip h.port) ∧ LightsOnly s v ∧
        v.outer = { s.outer with settings := { s.settings with patterns := s.settings.patterns.set i new } } ∧
        v.lights.bays = s.lights.bays ∧ ∀ c, v.channel .enclosure c = s.channel .enclosure c) ∧
    (∀ (w : WindowSetting) (p : Port), h.target = (match p with | .a => 0 | .b => 1) →
      let size (x : WindowSetting) : Nat := 2048 * 2 ^ x.code.toNat
      let other := s.settings.windows.get (Port.other p)
      let good := w.code.toNat ≤ 3 ∧ w.base.toNat % size w = 0 ∧ 0x2000 ≤ w.base.toNat ∧ w.base.toNat + size w ≤ 0x8000 ∧
        (other.code.toNat ≤ 3 → ¬ (w.base.toNat < other.base.toNat + size other ∧ other.base.toNat < w.base.toNat + size w))
      (¬ good → exec (.setWindows h w) s = .next ((s.answered h .badValue false false none).finishSlip h.port)) ∧
      (good →
        let live := s.settings.windows.put p w
        exec (.setWindows h w) s =
          .next ((State.answered h .ok false false
              (some ([live.a.code, 0] ++ le16 live.a.base.toNat ++ [live.b.code, 0] ++ le16 live.b.base.toNat))
            { s with settings := { s.settings with windows := live } }).finishSlip h.port))) ∧
    (h.target = 0xFE → exec (.note h) s =
      .next ((s.answered h .ok false false (some (le32 s.time ++ [BitVec.ofNat 8 (s.reader h.port).table.length]))).finishSlip h.port))
end

