-- ==== Sys2Proof/Laws/State.lean ====
section
/-! SUPPORT. What each update of State leaves and what it writes, one lemma per field and update, each true by rfl; and what a bay, its
lines, its feed, its light or a reader reads after an update. -/

namespace Sys2Proof.Machine

variable (s : State)

/-! ### putBay -/

@[simp] theorem State.putBay_pending (n : BayNo) (b : Bay) : (s.putBay n b).pending = s.pending := rfl
@[simp] theorem State.putBay_time (n : BayNo) (b : Bay) : (s.putBay n b).time = s.time := rfl
@[simp] theorem State.putBay_phase (n : BayNo) (b : Bay) : (s.putBay n b).phase = s.phase := rfl
@[simp] theorem State.putBay_resetKind (n : BayNo) (b : Bay) : (s.putBay n b).resetKind = s.resetKind := rfl
@[simp] theorem State.putBay_straps (n : BayNo) (b : Bay) : (s.putBay n b).straps = s.straps := rfl
@[simp] theorem State.putBay_driving (n : BayNo) (b : Bay) : (s.putBay n b).driving = s.driving := rfl
@[simp] theorem State.putBay_settings (n : BayNo) (b : Bay) : (s.putBay n b).settings = s.settings := rfl
@[simp] theorem State.putBay_origin (n : BayNo) (b : Bay) : (s.putBay n b).origin = s.origin := rfl
@[simp] theorem State.putBay_cause (n : BayNo) (b : Bay) : (s.putBay n b).cause = s.cause := rfl
@[simp] theorem State.putBay_store (n : BayNo) (b : Bay) : (s.putBay n b).store = s.store := rfl
@[simp] theorem State.putBay_settingsMem (n : BayNo) (b : Bay) : (s.putBay n b).settingsMem = s.settingsMem := rfl
@[simp] theorem State.putBay_lines (n : BayNo) (b : Bay) : (s.putBay n b).lines = s.lines := rfl
@[simp] theorem State.putBay_account (n : BayNo) (b : Bay) : (s.putBay n b).account = s.account := rfl
@[simp] theorem State.putBay_supplyLines (n : BayNo) (b : Bay) : (s.putBay n b).supplyLines = s.supplyLines := rfl
@[simp] theorem State.putBay_scheduler (n : BayNo) (b : Bay) : (s.putBay n b).scheduler = s.scheduler := rfl
@[simp] theorem State.putBay_feeds (n : BayNo) (b : Bay) : (s.putBay n b).feeds = s.feeds := rfl
@[simp] theorem State.putBay_sensors (n : BayNo) (b : Bay) : (s.putBay n b).sensors = s.sensors := rfl
@[simp] theorem State.putBay_scan (n : BayNo) (b : Bay) : (s.putBay n b).scan = s.scan := rfl
@[simp] theorem State.putBay_zones (n : BayNo) (b : Bay) : (s.putBay n b).zones = s.zones := rfl
@[simp] theorem State.putBay_fans (n : BayNo) (b : Bay) : (s.putBay n b).fans = s.fans := rfl
@[simp] theorem State.putBay_lights (n : BayNo) (b : Bay) : (s.putBay n b).lights = s.lights := rfl
@[simp] theorem State.putBay_ram (n : BayNo) (b : Bay) : (s.putBay n b).ram = s.ram := rfl
@[simp] theorem State.putBay_windows (n : BayNo) (b : Bay) : (s.putBay n b).windows = s.windows := rfl
@[simp] theorem State.putBay_readers (n : BayNo) (b : Bay) : (s.putBay n b).readers = s.readers := rfl
@[simp] theorem State.putBay_links (n : BayNo) (b : Bay) : (s.putBay n b).links = s.links := rfl
@[simp] theorem State.putBay_attention (n : BayNo) (b : Bay) : (s.putBay n b).attention = s.attention := rfl
@[simp] theorem State.putBay_status (n : BayNo) (b : Bay) : (s.putBay n b).status = s.status := rfl
@[simp] theorem State.putBay_scanAt (n : BayNo) (b : Bay) : (s.putBay n b).scanAt = s.scanAt := rfl
@[simp] theorem State.putBay_coolingAt (n : BayNo) (b : Bay) : (s.putBay n b).coolingAt = s.coolingAt := rfl
@[simp] theorem State.putBay_refreshAt (n : BayNo) (b : Bay) : (s.putBay n b).refreshAt = s.refreshAt := rfl
@[simp] theorem State.putBay_reports (n : BayNo) (b : Bay) : (s.putBay n b).reports = s.reports := rfl
@[simp] theorem State.putBay_late (n : BayNo) (b : Bay) : (s.putBay n b).late = s.late := rfl

/-! ### putLine -/

@[simp] theorem State.putLine_pending (n : BayNo) (l : BayLines) : (s.putLine n l).pending = s.pending := rfl
@[simp] theorem State.putLine_time (n : BayNo) (l : BayLines) : (s.putLine n l).time = s.time := rfl
@[simp] theorem State.putLine_phase (n : BayNo) (l : BayLines) : (s.putLine n l).phase = s.phase := rfl
@[simp] theorem State.putLine_resetKind (n : BayNo) (l : BayLines) : (s.putLine n l).resetKind = s.resetKind := rfl
@[simp] theorem State.putLine_straps (n : BayNo) (l : BayLines) : (s.putLine n l).straps = s.straps := rfl
@[simp] theorem State.putLine_driving (n : BayNo) (l : BayLines) : (s.putLine n l).driving = s.driving := rfl
@[simp] theorem State.putLine_settings (n : BayNo) (l : BayLines) : (s.putLine n l).settings = s.settings := rfl
@[simp] theorem State.putLine_origin (n : BayNo) (l : BayLines) : (s.putLine n l).origin = s.origin := rfl
@[simp] theorem State.putLine_cause (n : BayNo) (l : BayLines) : (s.putLine n l).cause = s.cause := rfl
@[simp] theorem State.putLine_store (n : BayNo) (l : BayLines) : (s.putLine n l).store = s.store := rfl
@[simp] theorem State.putLine_settingsMem (n : BayNo) (l : BayLines) : (s.putLine n l).settingsMem = s.settingsMem := rfl
@[simp] theorem State.putLine_bays (n : BayNo) (l : BayLines) : (s.putLine n l).bays = s.bays := rfl
@[simp] theorem State.putLine_account (n : BayNo) (l : BayLines) : (s.putLine n l).account = s.account := rfl
@[simp] theorem State.putLine_supplyLines (n : BayNo) (l : BayLines) : (s.putLine n l).supplyLines = s.supplyLines := rfl
@[simp] theorem State.putLine_scheduler (n : BayNo) (l : BayLines) : (s.putLine n l).scheduler = s.scheduler := rfl
@[simp] theorem State.putLine_feeds (n : BayNo) (l : BayLines) : (s.putLine n l).feeds = s.feeds := rfl
@[simp] theorem State.putLine_sensors (n : BayNo) (l : BayLines) : (s.putLine n l).sensors = s.sensors := rfl
@[simp] theorem State.putLine_scan (n : BayNo) (l : BayLines) : (s.putLine n l).scan = s.scan := rfl
@[simp] theorem State.putLine_zones (n : BayNo) (l : BayLines) : (s.putLine n l).zones = s.zones := rfl
@[simp] theorem State.putLine_fans (n : BayNo) (l : BayLines) : (s.putLine n l).fans = s.fans := rfl
@[simp] theorem State.putLine_lights (n : BayNo) (l : BayLines) : (s.putLine n l).lights = s.lights := rfl
@[simp] theorem State.putLine_ram (n : BayNo) (l : BayLines) : (s.putLine n l).ram = s.ram := rfl
@[simp] theorem State.putLine_windows (n : BayNo) (l : BayLines) : (s.putLine n l).windows = s.windows := rfl
@[simp] theorem State.putLine_readers (n : BayNo) (l : BayLines) : (s.putLine n l).readers = s.readers := rfl
@[simp] theorem State.putLine_links (n : BayNo) (l : BayLines) : (s.putLine n l).links = s.links := rfl
@[simp] theorem State.putLine_attention (n : BayNo) (l : BayLines) : (s.putLine n l).attention = s.attention := rfl
@[simp] theorem State.putLine_status (n : BayNo) (l : BayLines) : (s.putLine n l).status = s.status := rfl
@[simp] theorem State.putLine_scanAt (n : BayNo) (l : BayLines) : (s.putLine n l).scanAt = s.scanAt := rfl
@[simp] theorem State.putLine_coolingAt (n : BayNo) (l : BayLines) : (s.putLine n l).coolingAt = s.coolingAt := rfl
@[simp] theorem State.putLine_refreshAt (n : BayNo) (l : BayLines) : (s.putLine n l).refreshAt = s.refreshAt := rfl
@[simp] theorem State.putLine_reports (n : BayNo) (l : BayLines) : (s.putLine n l).reports = s.reports := rfl
@[simp] theorem State.putLine_late (n : BayNo) (l : BayLines) : (s.putLine n l).late = s.late := rfl

/-! ### putFeed -/

@[simp] theorem State.putFeed_pending (n : BayNo) (f : BayFeed) : (s.putFeed n f).pending = s.pending := rfl
@[simp] theorem State.putFeed_time (n : BayNo) (f : BayFeed) : (s.putFeed n f).time = s.time := rfl
@[simp] theorem State.putFeed_phase (n : BayNo) (f : BayFeed) : (s.putFeed n f).phase = s.phase := rfl
@[simp] theorem State.putFeed_resetKind (n : BayNo) (f : BayFeed) : (s.putFeed n f).resetKind = s.resetKind := rfl
@[simp] theorem State.putFeed_straps (n : BayNo) (f : BayFeed) : (s.putFeed n f).straps = s.straps := rfl
@[simp] theorem State.putFeed_driving (n : BayNo) (f : BayFeed) : (s.putFeed n f).driving = s.driving := rfl
@[simp] theorem State.putFeed_settings (n : BayNo) (f : BayFeed) : (s.putFeed n f).settings = s.settings := rfl
@[simp] theorem State.putFeed_origin (n : BayNo) (f : BayFeed) : (s.putFeed n f).origin = s.origin := rfl
@[simp] theorem State.putFeed_cause (n : BayNo) (f : BayFeed) : (s.putFeed n f).cause = s.cause := rfl
@[simp] theorem State.putFeed_store (n : BayNo) (f : BayFeed) : (s.putFeed n f).store = s.store := rfl
@[simp] theorem State.putFeed_settingsMem (n : BayNo) (f : BayFeed) : (s.putFeed n f).settingsMem = s.settingsMem := rfl
@[simp] theorem State.putFeed_bays (n : BayNo) (f : BayFeed) : (s.putFeed n f).bays = s.bays := rfl
@[simp] theorem State.putFeed_lines (n : BayNo) (f : BayFeed) : (s.putFeed n f).lines = s.lines := rfl
@[simp] theorem State.putFeed_account (n : BayNo) (f : BayFeed) : (s.putFeed n f).account = s.account := rfl
@[simp] theorem State.putFeed_supplyLines (n : BayNo) (f : BayFeed) : (s.putFeed n f).supplyLines = s.supplyLines := rfl
@[simp] theorem State.putFeed_scheduler (n : BayNo) (f : BayFeed) : (s.putFeed n f).scheduler = s.scheduler := rfl
@[simp] theorem State.putFeed_sensors (n : BayNo) (f : BayFeed) : (s.putFeed n f).sensors = s.sensors := rfl
@[simp] theorem State.putFeed_scan (n : BayNo) (f : BayFeed) : (s.putFeed n f).scan = s.scan := rfl
@[simp] theorem State.putFeed_zones (n : BayNo) (f : BayFeed) : (s.putFeed n f).zones = s.zones := rfl
@[simp] theorem State.putFeed_fans (n : BayNo) (f : BayFeed) : (s.putFeed n f).fans = s.fans := rfl
@[simp] theorem State.putFeed_lights (n : BayNo) (f : BayFeed) : (s.putFeed n f).lights = s.lights := rfl
@[simp] theorem State.putFeed_ram (n : BayNo) (f : BayFeed) : (s.putFeed n f).ram = s.ram := rfl
@[simp] theorem State.putFeed_windows (n : BayNo) (f : BayFeed) : (s.putFeed n f).windows = s.windows := rfl
@[simp] theorem State.putFeed_readers (n : BayNo) (f : BayFeed) : (s.putFeed n f).readers = s.readers := rfl
@[simp] theorem State.putFeed_links (n : BayNo) (f : BayFeed) : (s.putFeed n f).links = s.links := rfl
@[simp] theorem State.putFeed_attention (n : BayNo) (f : BayFeed) : (s.putFeed n f).attention = s.attention := rfl
@[simp] theorem State.putFeed_status (n : BayNo) (f : BayFeed) : (s.putFeed n f).status = s.status := rfl
@[simp] theorem State.putFeed_scanAt (n : BayNo) (f : BayFeed) : (s.putFeed n f).scanAt = s.scanAt := rfl
@[simp] theorem State.putFeed_coolingAt (n : BayNo) (f : BayFeed) : (s.putFeed n f).coolingAt = s.coolingAt := rfl
@[simp] theorem State.putFeed_refreshAt (n : BayNo) (f : BayFeed) : (s.putFeed n f).refreshAt = s.refreshAt := rfl
@[simp] theorem State.putFeed_reports (n : BayNo) (f : BayFeed) : (s.putFeed n f).reports = s.reports := rfl
@[simp] theorem State.putFeed_late (n : BayNo) (f : BayFeed) : (s.putFeed n f).late = s.late := rfl

/-! ### putLight -/

@[simp] theorem State.putLight_pending (n : BayNo) (l : BayLight) : (s.putLight n l).pending = s.pending := rfl
@[simp] theorem State.putLight_time (n : BayNo) (l : BayLight) : (s.putLight n l).time = s.time := rfl
@[simp] theorem State.putLight_phase (n : BayNo) (l : BayLight) : (s.putLight n l).phase = s.phase := rfl
@[simp] theorem State.putLight_resetKind (n : BayNo) (l : BayLight) : (s.putLight n l).resetKind = s.resetKind := rfl
@[simp] theorem State.putLight_straps (n : BayNo) (l : BayLight) : (s.putLight n l).straps = s.straps := rfl
@[simp] theorem State.putLight_driving (n : BayNo) (l : BayLight) : (s.putLight n l).driving = s.driving := rfl
@[simp] theorem State.putLight_settings (n : BayNo) (l : BayLight) : (s.putLight n l).settings = s.settings := rfl
@[simp] theorem State.putLight_origin (n : BayNo) (l : BayLight) : (s.putLight n l).origin = s.origin := rfl
@[simp] theorem State.putLight_cause (n : BayNo) (l : BayLight) : (s.putLight n l).cause = s.cause := rfl
@[simp] theorem State.putLight_store (n : BayNo) (l : BayLight) : (s.putLight n l).store = s.store := rfl
@[simp] theorem State.putLight_settingsMem (n : BayNo) (l : BayLight) : (s.putLight n l).settingsMem = s.settingsMem := rfl
@[simp] theorem State.putLight_bays (n : BayNo) (l : BayLight) : (s.putLight n l).bays = s.bays := rfl
@[simp] theorem State.putLight_lines (n : BayNo) (l : BayLight) : (s.putLight n l).lines = s.lines := rfl
@[simp] theorem State.putLight_account (n : BayNo) (l : BayLight) : (s.putLight n l).account = s.account := rfl
@[simp] theorem State.putLight_supplyLines (n : BayNo) (l : BayLight) : (s.putLight n l).supplyLines = s.supplyLines := rfl
@[simp] theorem State.putLight_scheduler (n : BayNo) (l : BayLight) : (s.putLight n l).scheduler = s.scheduler := rfl
@[simp] theorem State.putLight_feeds (n : BayNo) (l : BayLight) : (s.putLight n l).feeds = s.feeds := rfl
@[simp] theorem State.putLight_sensors (n : BayNo) (l : BayLight) : (s.putLight n l).sensors = s.sensors := rfl
@[simp] theorem State.putLight_scan (n : BayNo) (l : BayLight) : (s.putLight n l).scan = s.scan := rfl
@[simp] theorem State.putLight_zones (n : BayNo) (l : BayLight) : (s.putLight n l).zones = s.zones := rfl
@[simp] theorem State.putLight_fans (n : BayNo) (l : BayLight) : (s.putLight n l).fans = s.fans := rfl
@[simp] theorem State.putLight_ram (n : BayNo) (l : BayLight) : (s.putLight n l).ram = s.ram := rfl
@[simp] theorem State.putLight_windows (n : BayNo) (l : BayLight) : (s.putLight n l).windows = s.windows := rfl
@[simp] theorem State.putLight_readers (n : BayNo) (l : BayLight) : (s.putLight n l).readers = s.readers := rfl
@[simp] theorem State.putLight_links (n : BayNo) (l : BayLight) : (s.putLight n l).links = s.links := rfl
@[simp] theorem State.putLight_attention (n : BayNo) (l : BayLight) : (s.putLight n l).attention = s.attention := rfl
@[simp] theorem State.putLight_status (n : BayNo) (l : BayLight) : (s.putLight n l).status = s.status := rfl
@[simp] theorem State.putLight_scanAt (n : BayNo) (l : BayLight) : (s.putLight n l).scanAt = s.scanAt := rfl
@[simp] theorem State.putLight_coolingAt (n : BayNo) (l : BayLight) : (s.putLight n l).coolingAt = s.coolingAt := rfl
@[simp] theorem State.putLight_refreshAt (n : BayNo) (l : BayLight) : (s.putLight n l).refreshAt = s.refreshAt := rfl
@[simp] theorem State.putLight_reports (n : BayNo) (l : BayLight) : (s.putLight n l).reports = s.reports := rfl
@[simp] theorem State.putLight_late (n : BayNo) (l : BayLight) : (s.putLight n l).late = s.late := rfl

/-! ### putReader -/

@[simp] theorem State.putReader_pending (p : Port) (r : Reader) : (s.putReader p r).pending = s.pending := rfl
@[simp] theorem State.putReader_time (p : Port) (r : Reader) : (s.putReader p r).time = s.time := rfl
@[simp] theorem State.putReader_phase (p : Port) (r : Reader) : (s.putReader p r).phase = s.phase := rfl
@[simp] theorem State.putReader_resetKind (p : Port) (r : Reader) : (s.putReader p r).resetKind = s.resetKind := rfl
@[simp] theorem State.putReader_straps (p : Port) (r : Reader) : (s.putReader p r).straps = s.straps := rfl
@[simp] theorem State.putReader_driving (p : Port) (r : Reader) : (s.putReader p r).driving = s.driving := rfl
@[simp] theorem State.putReader_settings (p : Port) (r : Reader) : (s.putReader p r).settings = s.settings := rfl
@[simp] theorem State.putReader_origin (p : Port) (r : Reader) : (s.putReader p r).origin = s.origin := rfl
@[simp] theorem State.putReader_cause (p : Port) (r : Reader) : (s.putReader p r).cause = s.cause := rfl
@[simp] theorem State.putReader_store (p : Port) (r : Reader) : (s.putReader p r).store = s.store := rfl
@[simp] theorem State.putReader_settingsMem (p : Port) (r : Reader) : (s.putReader p r).settingsMem = s.settingsMem := rfl
@[simp] theorem State.putReader_bays (p : Port) (r : Reader) : (s.putReader p r).bays = s.bays := rfl
@[simp] theorem State.putReader_lines (p : Port) (r : Reader) : (s.putReader p r).lines = s.lines := rfl
@[simp] theorem State.putReader_account (p : Port) (r : Reader) : (s.putReader p r).account = s.account := rfl
@[simp] theorem State.putReader_supplyLines (p : Port) (r : Reader) : (s.putReader p r).supplyLines = s.supplyLines := rfl
@[simp] theorem State.putReader_scheduler (p : Port) (r : Reader) : (s.putReader p r).scheduler = s.scheduler := rfl
@[simp] theorem State.putReader_feeds (p : Port) (r : Reader) : (s.putReader p r).feeds = s.feeds := rfl
@[simp] theorem State.putReader_sensors (p : Port) (r : Reader) : (s.putReader p r).sensors = s.sensors := rfl
@[simp] theorem State.putReader_scan (p : Port) (r : Reader) : (s.putReader p r).scan = s.scan := rfl
@[simp] theorem State.putReader_zones (p : Port) (r : Reader) : (s.putReader p r).zones = s.zones := rfl
@[simp] theorem State.putReader_fans (p : Port) (r : Reader) : (s.putReader p r).fans = s.fans := rfl
@[simp] theorem State.putReader_lights (p : Port) (r : Reader) : (s.putReader p r).lights = s.lights := rfl
@[simp] theorem State.putReader_ram (p : Port) (r : Reader) : (s.putReader p r).ram = s.ram := rfl
@[simp] theorem State.putReader_windows (p : Port) (r : Reader) : (s.putReader p r).windows = s.windows := rfl
@[simp] theorem State.putReader_links (p : Port) (r : Reader) : (s.putReader p r).links = s.links := rfl
@[simp] theorem State.putReader_attention (p : Port) (r : Reader) : (s.putReader p r).attention = s.attention := rfl
@[simp] theorem State.putReader_status (p : Port) (r : Reader) : (s.putReader p r).status = s.status := rfl
@[simp] theorem State.putReader_scanAt (p : Port) (r : Reader) : (s.putReader p r).scanAt = s.scanAt := rfl
@[simp] theorem State.putReader_coolingAt (p : Port) (r : Reader) : (s.putReader p r).coolingAt = s.coolingAt := rfl
@[simp] theorem State.putReader_refreshAt (p : Port) (r : Reader) : (s.putReader p r).refreshAt = s.refreshAt := rfl
@[simp] theorem State.putReader_reports (p : Port) (r : Reader) : (s.putReader p r).reports = s.reports := rfl
@[simp] theorem State.putReader_late (p : Port) (r : Reader) : (s.putReader p r).late = s.late := rfl

/-! ### putFan -/

@[simp] theorem State.putFan_pending (i : Fin 6) (f : Fan) : (s.putFan i f).pending = s.pending := rfl
@[simp] theorem State.putFan_time (i : Fin 6) (f : Fan) : (s.putFan i f).time = s.time := rfl
@[simp] theorem State.putFan_phase (i : Fin 6) (f : Fan) : (s.putFan i f).phase = s.phase := rfl
@[simp] theorem State.putFan_resetKind (i : Fin 6) (f : Fan) : (s.putFan i f).resetKind = s.resetKind := rfl
@[simp] theorem State.putFan_straps (i : Fin 6) (f : Fan) : (s.putFan i f).straps = s.straps := rfl
@[simp] theorem State.putFan_driving (i : Fin 6) (f : Fan) : (s.putFan i f).driving = s.driving := rfl
@[simp] theorem State.putFan_settings (i : Fin 6) (f : Fan) : (s.putFan i f).settings = s.settings := rfl
@[simp] theorem State.putFan_origin (i : Fin 6) (f : Fan) : (s.putFan i f).origin = s.origin := rfl
@[simp] theorem State.putFan_cause (i : Fin 6) (f : Fan) : (s.putFan i f).cause = s.cause := rfl
@[simp] theorem State.putFan_store (i : Fin 6) (f : Fan) : (s.putFan i f).store = s.store := rfl
@[simp] theorem State.putFan_settingsMem (i : Fin 6) (f : Fan) : (s.putFan i f).settingsMem = s.settingsMem := rfl
@[simp] theorem State.putFan_bays (i : Fin 6) (f : Fan) : (s.putFan i f).bays = s.bays := rfl
@[simp] theorem State.putFan_lines (i : Fin 6) (f : Fan) : (s.putFan i f).lines = s.lines := rfl
@[simp] theorem State.putFan_account (i : Fin 6) (f : Fan) : (s.putFan i f).account = s.account := rfl
@[simp] theorem State.putFan_supplyLines (i : Fin 6) (f : Fan) : (s.putFan i f).supplyLines = s.supplyLines := rfl
@[simp] theorem State.putFan_scheduler (i : Fin 6) (f : Fan) : (s.putFan i f).scheduler = s.scheduler := rfl
@[simp] theorem State.putFan_feeds (i : Fin 6) (f : Fan) : (s.putFan i f).feeds = s.feeds := rfl
@[simp] theorem State.putFan_sensors (i : Fin 6) (f : Fan) : (s.putFan i f).sensors = s.sensors := rfl
@[simp] theorem State.putFan_scan (i : Fin 6) (f : Fan) : (s.putFan i f).scan = s.scan := rfl
@[simp] theorem State.putFan_zones (i : Fin 6) (f : Fan) : (s.putFan i f).zones = s.zones := rfl
@[simp] theorem State.putFan_lights (i : Fin 6) (f : Fan) : (s.putFan i f).lights = s.lights := rfl
@[simp] theorem State.putFan_ram (i : Fin 6) (f : Fan) : (s.putFan i f).ram = s.ram := rfl
@[simp] theorem State.putFan_windows (i : Fin 6) (f : Fan) : (s.putFan i f).windows = s.windows := rfl
@[simp] theorem State.putFan_readers (i : Fin 6) (f : Fan) : (s.putFan i f).readers = s.readers := rfl
@[simp] theorem State.putFan_links (i : Fin 6) (f : Fan) : (s.putFan i f).links = s.links := rfl
@[simp] theorem State.putFan_attention (i : Fin 6) (f : Fan) : (s.putFan i f).attention = s.attention := rfl
@[simp] theorem State.putFan_status (i : Fin 6) (f : Fan) : (s.putFan i f).status = s.status := rfl
@[simp] theorem State.putFan_scanAt (i : Fin 6) (f : Fan) : (s.putFan i f).scanAt = s.scanAt := rfl
@[simp] theorem State.putFan_coolingAt (i : Fin 6) (f : Fan) : (s.putFan i f).coolingAt = s.coolingAt := rfl
@[simp] theorem State.putFan_refreshAt (i : Fin 6) (f : Fan) : (s.putFan i f).refreshAt = s.refreshAt := rfl
@[simp] theorem State.putFan_reports (i : Fin 6) (f : Fan) : (s.putFan i f).reports = s.reports := rfl
@[simp] theorem State.putFan_late (i : Fin 6) (f : Fan) : (s.putFan i f).late = s.late := rfl

/-! ### mark -/

@[simp] theorem State.mark_pending (k : Nat) : (s.mark k).pending = s.pending := rfl
@[simp] theorem State.mark_time (k : Nat) : (s.mark k).time = s.time := rfl
@[simp] theorem State.mark_phase (k : Nat) : (s.mark k).phase = s.phase := rfl
@[simp] theorem State.mark_resetKind (k : Nat) : (s.mark k).resetKind = s.resetKind := rfl
@[simp] theorem State.mark_straps (k : Nat) : (s.mark k).straps = s.straps := rfl
@[simp] theorem State.mark_driving (k : Nat) : (s.mark k).driving = s.driving := rfl
@[simp] theorem State.mark_settings (k : Nat) : (s.mark k).settings = s.settings := rfl
@[simp] theorem State.mark_origin (k : Nat) : (s.mark k).origin = s.origin := rfl
@[simp] theorem State.mark_cause (k : Nat) : (s.mark k).cause = s.cause := rfl
@[simp] theorem State.mark_store (k : Nat) : (s.mark k).store = s.store := rfl
@[simp] theorem State.mark_settingsMem (k : Nat) : (s.mark k).settingsMem = s.settingsMem := rfl
@[simp] theorem State.mark_bays (k : Nat) : (s.mark k).bays = s.bays := rfl
@[simp] theorem State.mark_lines (k : Nat) : (s.mark k).lines = s.lines := rfl
@[simp] theorem State.mark_account (k : Nat) : (s.mark k).account = s.account := rfl
@[simp] theorem State.mark_supplyLines (k : Nat) : (s.mark k).supplyLines = s.supplyLines := rfl
@[simp] theorem State.mark_scheduler (k : Nat) : (s.mark k).scheduler = s.scheduler := rfl
@[simp] theorem State.mark_feeds (k : Nat) : (s.mark k).feeds = s.feeds := rfl
@[simp] theorem State.mark_sensors (k : Nat) : (s.mark k).sensors = s.sensors := rfl
@[simp] theorem State.mark_scan (k : Nat) : (s.mark k).scan = s.scan := rfl
@[simp] theorem State.mark_zones (k : Nat) : (s.mark k).zones = s.zones := rfl
@[simp] theorem State.mark_fans (k : Nat) : (s.mark k).fans = s.fans := rfl
@[simp] theorem State.mark_lights (k : Nat) : (s.mark k).lights = s.lights := rfl
@[simp] theorem State.mark_ram (k : Nat) : (s.mark k).ram = s.ram := rfl
@[simp] theorem State.mark_windows (k : Nat) : (s.mark k).windows = s.windows := rfl
@[simp] theorem State.mark_readers (k : Nat) : (s.mark k).readers = s.readers := rfl
@[simp] theorem State.mark_links (k : Nat) : (s.mark k).links = s.links := rfl
@[simp] theorem State.mark_attention (k : Nat) : (s.mark k).attention = s.attention := rfl
@[simp] theorem State.mark_scanAt (k : Nat) : (s.mark k).scanAt = s.scanAt := rfl
@[simp] theorem State.mark_coolingAt (k : Nat) : (s.mark k).coolingAt = s.coolingAt := rfl
@[simp] theorem State.mark_refreshAt (k : Nat) : (s.mark k).refreshAt = s.refreshAt := rfl
@[simp] theorem State.mark_reports (k : Nat) : (s.mark k).reports = s.reports := rfl
@[simp] theorem State.mark_late (k : Nat) : (s.mark k).late = s.late := rfl

/-! ### raise -/

@[simp] theorem State.raise_pending (p : Port) (i : Fin 8) : (s.raise p i).pending = s.pending := rfl
@[simp] theorem State.raise_time (p : Port) (i : Fin 8) : (s.raise p i).time = s.time := rfl
@[simp] theorem State.raise_phase (p : Port) (i : Fin 8) : (s.raise p i).phase = s.phase := rfl
@[simp] theorem State.raise_resetKind (p : Port) (i : Fin 8) : (s.raise p i).resetKind = s.resetKind := rfl
@[simp] theorem State.raise_straps (p : Port) (i : Fin 8) : (s.raise p i).straps = s.straps := rfl
@[simp] theorem State.raise_driving (p : Port) (i : Fin 8) : (s.raise p i).driving = s.driving := rfl
@[simp] theorem State.raise_settings (p : Port) (i : Fin 8) : (s.raise p i).settings = s.settings := rfl
@[simp] theorem State.raise_origin (p : Port) (i : Fin 8) : (s.raise p i).origin = s.origin := rfl
@[simp] theorem State.raise_cause (p : Port) (i : Fin 8) : (s.raise p i).cause = s.cause := rfl
@[simp] theorem State.raise_store (p : Port) (i : Fin 8) : (s.raise p i).store = s.store := rfl
@[simp] theorem State.raise_settingsMem (p : Port) (i : Fin 8) : (s.raise p i).settingsMem = s.settingsMem := rfl
@[simp] theorem State.raise_bays (p : Port) (i : Fin 8) : (s.raise p i).bays = s.bays := rfl
@[simp] theorem State.raise_lines (p : Port) (i : Fin 8) : (s.raise p i).lines = s.lines := rfl
@[simp] theorem State.raise_account (p : Port) (i : Fin 8) : (s.raise p i).account = s.account := rfl
@[simp] theorem State.raise_supplyLines (p : Port) (i : Fin 8) : (s.raise p i).supplyLines = s.supplyLines := rfl
@[simp] theorem State.raise_scheduler (p : Port) (i : Fin 8) : (s.raise p i).scheduler = s.scheduler := rfl
@[simp] theorem State.raise_feeds (p : Port) (i : Fin 8) : (s.raise p i).feeds = s.feeds := rfl
@[simp] theorem State.raise_sensors (p : Port) (i : Fin 8) : (s.raise p i).sensors = s.sensors := rfl
@[simp] theorem State.raise_scan (p : Port) (i : Fin 8) : (s.raise p i).scan = s.scan := rfl
@[simp] theorem State.raise_zones (p : Port) (i : Fin 8) : (s.raise p i).zones = s.zones := rfl
@[simp] theorem State.raise_fans (p : Port) (i : Fin 8) : (s.raise p i).fans = s.fans := rfl
@[simp] theorem State.raise_lights (p : Port) (i : Fin 8) : (s.raise p i).lights = s.lights := rfl
@[simp] theorem State.raise_ram (p : Port) (i : Fin 8) : (s.raise p i).ram = s.ram := rfl
@[simp] theorem State.raise_windows (p : Port) (i : Fin 8) : (s.raise p i).windows = s.windows := rfl
@[simp] theorem State.raise_readers (p : Port) (i : Fin 8) : (s.raise p i).readers = s.readers := rfl
@[simp] theorem State.raise_links (p : Port) (i : Fin 8) : (s.raise p i).links = s.links := rfl
@[simp] theorem State.raise_attention (p : Port) (i : Fin 8) : (s.raise p i).attention = s.attention := rfl
@[simp] theorem State.raise_status (p : Port) (i : Fin 8) : (s.raise p i).status = s.status := rfl
@[simp] theorem State.raise_scanAt (p : Port) (i : Fin 8) : (s.raise p i).scanAt = s.scanAt := rfl
@[simp] theorem State.raise_coolingAt (p : Port) (i : Fin 8) : (s.raise p i).coolingAt = s.coolingAt := rfl
@[simp] theorem State.raise_refreshAt (p : Port) (i : Fin 8) : (s.raise p i).refreshAt = s.refreshAt := rfl
@[simp] theorem State.raise_reports (p : Port) (i : Fin 8) : (s.raise p i).reports = s.reports := rfl

/-! ### raiseBoth -/

@[simp] theorem State.raiseBoth_pending (i : Fin 8) : (s.raiseBoth i).pending = s.pending := rfl
@[simp] theorem State.raiseBoth_time (i : Fin 8) : (s.raiseBoth i).time = s.time := rfl
@[simp] theorem State.raiseBoth_phase (i : Fin 8) : (s.raiseBoth i).phase = s.phase := rfl
@[simp] theorem State.raiseBoth_resetKind (i : Fin 8) : (s.raiseBoth i).resetKind = s.resetKind := rfl
@[simp] theorem State.raiseBoth_straps (i : Fin 8) : (s.raiseBoth i).straps = s.straps := rfl
@[simp] theorem State.raiseBoth_driving (i : Fin 8) : (s.raiseBoth i).driving = s.driving := rfl
@[simp] theorem State.raiseBoth_settings (i : Fin 8) : (s.raiseBoth i).settings = s.settings := rfl
@[simp] theorem State.raiseBoth_origin (i : Fin 8) : (s.raiseBoth i).origin = s.origin := rfl
@[simp] theorem State.raiseBoth_cause (i : Fin 8) : (s.raiseBoth i).cause = s.cause := rfl
@[simp] theorem State.raiseBoth_store (i : Fin 8) : (s.raiseBoth i).store = s.store := rfl
@[simp] theorem State.raiseBoth_settingsMem (i : Fin 8) : (s.raiseBoth i).settingsMem = s.settingsMem := rfl
@[simp] theorem State.raiseBoth_bays (i : Fin 8) : (s.raiseBoth i).bays = s.bays := rfl
@[simp] theorem State.raiseBoth_lines (i : Fin 8) : (s.raiseBoth i).lines = s.lines := rfl
@[simp] theorem State.raiseBoth_account (i : Fin 8) : (s.raiseBoth i).account = s.account := rfl
@[simp] theorem State.raiseBoth_supplyLines (i : Fin 8) : (s.raiseBoth i).supplyLines = s.supplyLines := rfl
@[simp] theorem State.raiseBoth_scheduler (i : Fin 8) : (s.raiseBoth i).scheduler = s.scheduler := rfl
@[simp] theorem State.raiseBoth_feeds (i : Fin 8) : (s.raiseBoth i).feeds = s.feeds := rfl
@[simp] theorem State.raiseBoth_sensors (i : Fin 8) : (s.raiseBoth i).sensors = s.sensors := rfl
@[simp] theorem State.raiseBoth_scan (i : Fin 8) : (s.raiseBoth i).scan = s.scan := rfl
@[simp] theorem State.raiseBoth_zones (i : Fin 8) : (s.raiseBoth i).zones = s.zones := rfl
@[simp] theorem State.raiseBoth_fans (i : Fin 8) : (s.raiseBoth i).fans = s.fans := rfl
@[simp] theorem State.raiseBoth_lights (i : Fin 8) : (s.raiseBoth i).lights = s.lights := rfl
@[simp] theorem State.raiseBoth_ram (i : Fin 8) : (s.raiseBoth i).ram = s.ram := rfl
@[simp] theorem State.raiseBoth_windows (i : Fin 8) : (s.raiseBoth i).windows = s.windows := rfl
@[simp] theorem State.raiseBoth_readers (i : Fin 8) : (s.raiseBoth i).readers = s.readers := rfl
@[simp] theorem State.raiseBoth_links (i : Fin 8) : (s.raiseBoth i).links = s.links := rfl
@[simp] theorem State.raiseBoth_attention (i : Fin 8) : (s.raiseBoth i).attention = s.attention := rfl
@[simp] theorem State.raiseBoth_status (i : Fin 8) : (s.raiseBoth i).status = s.status := rfl
@[simp] theorem State.raiseBoth_scanAt (i : Fin 8) : (s.raiseBoth i).scanAt = s.scanAt := rfl
@[simp] theorem State.raiseBoth_coolingAt (i : Fin 8) : (s.raiseBoth i).coolingAt = s.coolingAt := rfl
@[simp] theorem State.raiseBoth_refreshAt (i : Fin 8) : (s.raiseBoth i).refreshAt = s.refreshAt := rfl
@[simp] theorem State.raiseBoth_reports (i : Fin 8) : (s.raiseBoth i).reports = s.reports := rfl

/-! ### setOp -/

@[simp] theorem State.setOp_pending (n : BayNo) (o : Option Operation) : (s.setOp n o).pending = s.pending := rfl
@[simp] theorem State.setOp_time (n : BayNo) (o : Option Operation) : (s.setOp n o).time = s.time := rfl
@[simp] theorem State.setOp_phase (n : BayNo) (o : Option Operation) : (s.setOp n o).phase = s.phase := rfl
@[simp] theorem State.setOp_resetKind (n : BayNo) (o : Option Operation) : (s.setOp n o).resetKind = s.resetKind := rfl
@[simp] theorem State.setOp_straps (n : BayNo) (o : Option Operation) : (s.setOp n o).straps = s.straps := rfl
@[simp] theorem State.setOp_driving (n : BayNo) (o : Option Operation) : (s.setOp n o).driving = s.driving := rfl
@[simp] theorem State.setOp_settings (n : BayNo) (o : Option Operation) : (s.setOp n o).settings = s.settings := rfl
@[simp] theorem State.setOp_origin (n : BayNo) (o : Option Operation) : (s.setOp n o).origin = s.origin := rfl
@[simp] theorem State.setOp_cause (n : BayNo) (o : Option Operation) : (s.setOp n o).cause = s.cause := rfl
@[simp] theorem State.setOp_store (n : BayNo) (o : Option Operation) : (s.setOp n o).store = s.store := rfl
@[simp] theorem State.setOp_settingsMem (n : BayNo) (o : Option Operation) : (s.setOp n o).settingsMem = s.settingsMem := rfl
@[simp] theorem State.setOp_lines (n : BayNo) (o : Option Operation) : (s.setOp n o).lines = s.lines := rfl
@[simp] theorem State.setOp_account (n : BayNo) (o : Option Operation) : (s.setOp n o).account = s.account := rfl
@[simp] theorem State.setOp_supplyLines (n : BayNo) (o : Option Operation) : (s.setOp n o).supplyLines = s.supplyLines := rfl
@[simp] theorem State.setOp_scheduler (n : BayNo) (o : Option Operation) : (s.setOp n o).scheduler = s.scheduler := rfl
@[simp] theorem State.setOp_feeds (n : BayNo) (o : Option Operation) : (s.setOp n o).feeds = s.feeds := rfl
@[simp] theorem State.setOp_sensors (n : BayNo) (o : Option Operation) : (s.setOp n o).sensors = s.sensors := rfl
@[simp] theorem State.setOp_scan (n : BayNo) (o : Option Operation) : (s.setOp n o).scan = s.scan := rfl
@[simp] theorem State.setOp_zones (n : BayNo) (o : Option Operation) : (s.setOp n o).zones = s.zones := rfl
@[simp] theorem State.setOp_fans (n : BayNo) (o : Option Operation) : (s.setOp n o).fans = s.fans := rfl
@[simp] theorem State.setOp_lights (n : BayNo) (o : Option Operation) : (s.setOp n o).lights = s.lights := rfl
@[simp] theorem State.setOp_ram (n : BayNo) (o : Option Operation) : (s.setOp n o).ram = s.ram := rfl
@[simp] theorem State.setOp_windows (n : BayNo) (o : Option Operation) : (s.setOp n o).windows = s.windows := rfl
@[simp] theorem State.setOp_readers (n : BayNo) (o : Option Operation) : (s.setOp n o).readers = s.readers := rfl
@[simp] theorem State.setOp_links (n : BayNo) (o : Option Operation) : (s.setOp n o).links = s.links := rfl
@[simp] theorem State.setOp_attention (n : BayNo) (o : Option Operation) : (s.setOp n o).attention = s.attention := rfl
@[simp] theorem State.setOp_status (n : BayNo) (o : Option Operation) : (s.setOp n o).status = s.status := rfl
@[simp] theorem State.setOp_scanAt (n : BayNo) (o : Option Operation) : (s.setOp n o).scanAt = s.scanAt := rfl
@[simp] theorem State.setOp_coolingAt (n : BayNo) (o : Option Operation) : (s.setOp n o).coolingAt = s.coolingAt := rfl
@[simp] theorem State.setOp_refreshAt (n : BayNo) (o : Option Operation) : (s.setOp n o).refreshAt = s.refreshAt := rfl
@[simp] theorem State.setOp_reports (n : BayNo) (o : Option Operation) : (s.setOp n o).reports = s.reports := rfl
@[simp] theorem State.setOp_late (n : BayNo) (o : Option Operation) : (s.setOp n o).late = s.late := rfl

/-! ### setFlags -/

@[simp] theorem State.setFlags_pending (n : BayNo) (f : BayFlags → BayFlags) : (s.setFlags n f).pending = s.pending := rfl
@[simp] theorem State.setFlags_time (n : BayNo) (f : BayFlags → BayFlags) : (s.setFlags n f).time = s.time := rfl
@[simp] theorem State.setFlags_phase (n : BayNo) (f : BayFlags → BayFlags) : (s.setFlags n f).phase = s.phase := rfl
@[simp] theorem State.setFlags_resetKind (n : BayNo) (f : BayFlags → BayFlags) : (s.setFlags n f).resetKind = s.resetKind := rfl
@[simp] theorem State.setFlags_straps (n : BayNo) (f : BayFlags → BayFlags) : (s.setFlags n f).straps = s.straps := rfl
@[simp] theorem State.setFlags_driving (n : BayNo) (f : BayFlags → BayFlags) : (s.setFlags n f).driving = s.driving := rfl
@[simp] theorem State.setFlags_settings (n : BayNo) (f : BayFlags → BayFlags) : (s.setFlags n f).settings = s.settings := rfl
@[simp] theorem State.setFlags_origin (n : BayNo) (f : BayFlags → BayFlags) : (s.setFlags n f).origin = s.origin := rfl
@[simp] theorem State.setFlags_cause (n : BayNo) (f : BayFlags → BayFlags) : (s.setFlags n f).cause = s.cause := rfl
@[simp] theorem State.setFlags_store (n : BayNo) (f : BayFlags → BayFlags) : (s.setFlags n f).store = s.store := rfl
@[simp] theorem State.setFlags_settingsMem (n : BayNo) (f : BayFlags → BayFlags) : (s.setFlags n f).settingsMem = s.settingsMem := rfl
@[simp] theorem State.setFlags_lines (n : BayNo) (f : BayFlags → BayFlags) : (s.setFlags n f).lines = s.lines := rfl
@[simp] theorem State.setFlags_account (n : BayNo) (f : BayFlags → BayFlags) : (s.setFlags n f).account = s.account := rfl
@[simp] theorem State.setFlags_supplyLines (n : BayNo) (f : BayFlags → BayFlags) : (s.setFlags n f).supplyLines = s.supplyLines := rfl
@[simp] theorem State.setFlags_scheduler (n : BayNo) (f : BayFlags → BayFlags) : (s.setFlags n f).scheduler = s.scheduler := rfl
@[simp] theorem State.setFlags_feeds (n : BayNo) (f : BayFlags → BayFlags) : (s.setFlags n f).feeds = s.feeds := rfl
@[simp] theorem State.setFlags_sensors (n : BayNo) (f : BayFlags → BayFlags) : (s.setFlags n f).sensors = s.sensors := rfl
@[simp] theorem State.setFlags_scan (n : BayNo) (f : BayFlags → BayFlags) : (s.setFlags n f).scan = s.scan := rfl
@[simp] theorem State.setFlags_zones (n : BayNo) (f : BayFlags → BayFlags) : (s.setFlags n f).zones = s.zones := rfl
@[simp] theorem State.setFlags_fans (n : BayNo) (f : BayFlags → BayFlags) : (s.setFlags n f).fans = s.fans := rfl
@[simp] theorem State.setFlags_lights (n : BayNo) (f : BayFlags → BayFlags) : (s.setFlags n f).lights = s.lights := rfl
@[simp] theorem State.setFlags_ram (n : BayNo) (f : BayFlags → BayFlags) : (s.setFlags n f).ram = s.ram := rfl
@[simp] theorem State.setFlags_windows (n : BayNo) (f : BayFlags → BayFlags) : (s.setFlags n f).windows = s.windows := rfl
@[simp] theorem State.setFlags_readers (n : BayNo) (f : BayFlags → BayFlags) : (s.setFlags n f).readers = s.readers := rfl
@[simp] theorem State.setFlags_links (n : BayNo) (f : BayFlags → BayFlags) : (s.setFlags n f).links = s.links := rfl
@[simp] theorem State.setFlags_attention (n : BayNo) (f : BayFlags → BayFlags) : (s.setFlags n f).attention = s.attention := rfl
@[simp] theorem State.setFlags_status (n : BayNo) (f : BayFlags → BayFlags) : (s.setFlags n f).status = s.status := rfl
@[simp] theorem State.setFlags_scanAt (n : BayNo) (f : BayFlags → BayFlags) : (s.setFlags n f).scanAt = s.scanAt := rfl
@[simp] theorem State.setFlags_coolingAt (n : BayNo) (f : BayFlags → BayFlags) : (s.setFlags n f).coolingAt = s.coolingAt := rfl
@[simp] theorem State.setFlags_refreshAt (n : BayNo) (f : BayFlags → BayFlags) : (s.setFlags n f).refreshAt = s.refreshAt := rfl
@[simp] theorem State.setFlags_reports (n : BayNo) (f : BayFlags → BayFlags) : (s.setFlags n f).reports = s.reports := rfl
@[simp] theorem State.setFlags_late (n : BayNo) (f : BayFlags → BayFlags) : (s.setFlags n f).late = s.late := rfl

/-! ### setRetries -/

@[simp] theorem State.setRetries_pending (n : BayNo) (r : Nat) : (s.setRetries n r).pending = s.pending := rfl
@[simp] theorem State.setRetries_time (n : BayNo) (r : Nat) : (s.setRetries n r).time = s.time := rfl
@[simp] theorem State.setRetries_phase (n : BayNo) (r : Nat) : (s.setRetries n r).phase = s.phase := rfl
@[simp] theorem State.setRetries_resetKind (n : BayNo) (r : Nat) : (s.setRetries n r).resetKind = s.resetKind := rfl
@[simp] theorem State.setRetries_straps (n : BayNo) (r : Nat) : (s.setRetries n r).straps = s.straps := rfl
@[simp] theorem State.setRetries_driving (n : BayNo) (r : Nat) : (s.setRetries n r).driving = s.driving := rfl
@[simp] theorem State.setRetries_settings (n : BayNo) (r : Nat) : (s.setRetries n r).settings = s.settings := rfl
@[simp] theorem State.setRetries_origin (n : BayNo) (r : Nat) : (s.setRetries n r).origin = s.origin := rfl
@[simp] theorem State.setRetries_cause (n : BayNo) (r : Nat) : (s.setRetries n r).cause = s.cause := rfl
@[simp] theorem State.setRetries_store (n : BayNo) (r : Nat) : (s.setRetries n r).store = s.store := rfl
@[simp] theorem State.setRetries_settingsMem (n : BayNo) (r : Nat) : (s.setRetries n r).settingsMem = s.settingsMem := rfl
@[simp] theorem State.setRetries_lines (n : BayNo) (r : Nat) : (s.setRetries n r).lines = s.lines := rfl
@[simp] theorem State.setRetries_account (n : BayNo) (r : Nat) : (s.setRetries n r).account = s.account := rfl
@[simp] theorem State.setRetries_supplyLines (n : BayNo) (r : Nat) : (s.setRetries n r).supplyLines = s.supplyLines := rfl
@[simp] theorem State.setRetries_scheduler (n : BayNo) (r : Nat) : (s.setRetries n r).scheduler = s.scheduler := rfl
@[simp] theorem State.setRetries_feeds (n : BayNo) (r : Nat) : (s.setRetries n r).feeds = s.feeds := rfl
@[simp] theorem State.setRetries_sensors (n : BayNo) (r : Nat) : (s.setRetries n r).sensors = s.sensors := rfl
@[simp] theorem State.setRetries_scan (n : BayNo) (r : Nat) : (s.setRetries n r).scan = s.scan := rfl
@[simp] theorem State.setRetries_zones (n : BayNo) (r : Nat) : (s.setRetries n r).zones = s.zones := rfl
@[simp] theorem State.setRetries_fans (n : BayNo) (r : Nat) : (s.setRetries n r).fans = s.fans := rfl
@[simp] theorem State.setRetries_lights (n : BayNo) (r : Nat) : (s.setRetries n r).lights = s.lights := rfl
@[simp] theorem State.setRetries_ram (n : BayNo) (r : Nat) : (s.setRetries n r).ram = s.ram := rfl
@[simp] theorem State.setRetries_windows (n : BayNo) (r : Nat) : (s.setRetries n r).windows = s.windows := rfl
@[simp] theorem State.setRetries_readers (n : BayNo) (r : Nat) : (s.setRetries n r).readers = s.readers := rfl
@[simp] theorem State.setRetries_links (n : BayNo) (r : Nat) : (s.setRetries n r).links = s.links := rfl
@[simp] theorem State.setRetries_attention (n : BayNo) (r : Nat) : (s.setRetries n r).attention = s.attention := rfl
@[simp] theorem State.setRetries_status (n : BayNo) (r : Nat) : (s.setRetries n r).status = s.status := rfl
@[simp] theorem State.setRetries_scanAt (n : BayNo) (r : Nat) : (s.setRetries n r).scanAt = s.scanAt := rfl
@[simp] theorem State.setRetries_coolingAt (n : BayNo) (r : Nat) : (s.setRetries n r).coolingAt = s.coolingAt := rfl
@[simp] theorem State.setRetries_refreshAt (n : BayNo) (r : Nat) : (s.setRetries n r).refreshAt = s.refreshAt := rfl
@[simp] theorem State.setRetries_reports (n : BayNo) (r : Nat) : (s.setRetries n r).reports = s.reports := rfl
@[simp] theorem State.setRetries_late (n : BayNo) (r : Nat) : (s.setRetries n r).late = s.late := rfl

/-! ### enter -/

@[simp] theorem State.enter_pending (n : BayNo) (st : BayState) (why : Reason) : (s.enter n st why).pending = s.pending := rfl
@[simp] theorem State.enter_time (n : BayNo) (st : BayState) (why : Reason) : (s.enter n st why).time = s.time := rfl
@[simp] theorem State.enter_phase (n : BayNo) (st : BayState) (why : Reason) : (s.enter n st why).phase = s.phase := rfl
@[simp] theorem State.enter_resetKind (n : BayNo) (st : BayState) (why : Reason) : (s.enter n st why).resetKind = s.resetKind := rfl
@[simp] theorem State.enter_straps (n : BayNo) (st : BayState) (why : Reason) : (s.enter n st why).straps = s.straps := rfl
@[simp] theorem State.enter_driving (n : BayNo) (st : BayState) (why : Reason) : (s.enter n st why).driving = s.driving := rfl
@[simp] theorem State.enter_settings (n : BayNo) (st : BayState) (why : Reason) : (s.enter n st why).settings = s.settings := rfl
@[simp] theorem State.enter_origin (n : BayNo) (st : BayState) (why : Reason) : (s.enter n st why).origin = s.origin := rfl
@[simp] theorem State.enter_cause (n : BayNo) (st : BayState) (why : Reason) : (s.enter n st why).cause = s.cause := rfl
@[simp] theorem State.enter_store (n : BayNo) (st : BayState) (why : Reason) : (s.enter n st why).store = s.store := rfl
@[simp] theorem State.enter_settingsMem (n : BayNo) (st : BayState) (why : Reason) : (s.enter n st why).settingsMem = s.settingsMem := rfl
@[simp] theorem State.enter_account (n : BayNo) (st : BayState) (why : Reason) : (s.enter n st why).account = s.account := rfl
@[simp] theorem State.enter_supplyLines (n : BayNo) (st : BayState) (why : Reason) : (s.enter n st why).supplyLines = s.supplyLines := rfl
@[simp] theorem State.enter_scheduler (n : BayNo) (st : BayState) (why : Reason) : (s.enter n st why).scheduler = s.scheduler := rfl
@[simp] theorem State.enter_sensors (n : BayNo) (st : BayState) (why : Reason) : (s.enter n st why).sensors = s.sensors := rfl
@[simp] theorem State.enter_scan (n : BayNo) (st : BayState) (why : Reason) : (s.enter n st why).scan = s.scan := rfl
@[simp] theorem State.enter_zones (n : BayNo) (st : BayState) (why : Reason) : (s.enter n st why).zones = s.zones := rfl
@[simp] theorem State.enter_fans (n : BayNo) (st : BayState) (why : Reason) : (s.enter n st why).fans = s.fans := rfl
@[simp] theorem State.enter_ram (n : BayNo) (st : BayState) (why : Reason) : (s.enter n st why).ram = s.ram := rfl
@[simp] theorem State.enter_windows (n : BayNo) (st : BayState) (why : Reason) : (s.enter n st why).windows = s.windows := rfl
@[simp] theorem State.enter_readers (n : BayNo) (st : BayState) (why : Reason) : (s.enter n st why).readers = s.readers := rfl
@[simp] theorem State.enter_links (n : BayNo) (st : BayState) (why : Reason) : (s.enter n st why).links = s.links := rfl
@[simp] theorem State.enter_attention (n : BayNo) (st : BayState) (why : Reason) : (s.enter n st why).attention = s.attention := rfl
@[simp] theorem State.enter_status (n : BayNo) (st : BayState) (why : Reason) : (s.enter n st why).status = s.status := rfl
@[simp] theorem State.enter_scanAt (n : BayNo) (st : BayState) (why : Reason) : (s.enter n st why).scanAt = s.scanAt := rfl
@[simp] theorem State.enter_coolingAt (n : BayNo) (st : BayState) (why : Reason) : (s.enter n st why).coolingAt = s.coolingAt := rfl
@[simp] theorem State.enter_refreshAt (n : BayNo) (st : BayState) (why : Reason) : (s.enter n st why).refreshAt = s.refreshAt := rfl
@[simp] theorem State.enter_late (n : BayNo) (st : BayState) (why : Reason) : (s.enter n st why).late = s.late := rfl

/-! ### markTaken -/

@[simp] theorem State.markTaken_pending (a : Half) : (s.markTaken a).pending = s.pending := rfl
@[simp] theorem State.markTaken_time (a : Half) : (s.markTaken a).time = s.time := rfl
@[simp] theorem State.markTaken_phase (a : Half) : (s.markTaken a).phase = s.phase := rfl
@[simp] theorem State.markTaken_resetKind (a : Half) : (s.markTaken a).resetKind = s.resetKind := rfl
@[simp] theorem State.markTaken_straps (a : Half) : (s.markTaken a).straps = s.straps := rfl
@[simp] theorem State.markTaken_driving (a : Half) : (s.markTaken a).driving = s.driving := rfl
@[simp] theorem State.markTaken_settings (a : Half) : (s.markTaken a).settings = s.settings := rfl
@[simp] theorem State.markTaken_origin (a : Half) : (s.markTaken a).origin = s.origin := rfl
@[simp] theorem State.markTaken_cause (a : Half) : (s.markTaken a).cause = s.cause := rfl
@[simp] theorem State.markTaken_store (a : Half) : (s.markTaken a).store = s.store := rfl
@[simp] theorem State.markTaken_settingsMem (a : Half) : (s.markTaken a).settingsMem = s.settingsMem := rfl
@[simp] theorem State.markTaken_bays (a : Half) : (s.markTaken a).bays = s.bays := rfl
@[simp] theorem State.markTaken_lines (a : Half) : (s.markTaken a).lines = s.lines := rfl
@[simp] theorem State.markTaken_account (a : Half) : (s.markTaken a).account = s.account := rfl
@[simp] theorem State.markTaken_supplyLines (a : Half) : (s.markTaken a).supplyLines = s.supplyLines := rfl
@[simp] theorem State.markTaken_scheduler (a : Half) : (s.markTaken a).scheduler = s.scheduler := rfl
@[simp] theorem State.markTaken_feeds (a : Half) : (s.markTaken a).feeds = s.feeds := rfl
@[simp] theorem State.markTaken_sensors (a : Half) : (s.markTaken a).sensors = s.sensors := rfl
@[simp] theorem State.markTaken_scan (a : Half) : (s.markTaken a).scan = s.scan := rfl
@[simp] theorem State.markTaken_zones (a : Half) : (s.markTaken a).zones = s.zones := rfl
@[simp] theorem State.markTaken_fans (a : Half) : (s.markTaken a).fans = s.fans := rfl
@[simp] theorem State.markTaken_lights (a : Half) : (s.markTaken a).lights = s.lights := rfl
@[simp] theorem State.markTaken_windows (a : Half) : (s.markTaken a).windows = s.windows := rfl
@[simp] theorem State.markTaken_readers (a : Half) : (s.markTaken a).readers = s.readers := rfl
@[simp] theorem State.markTaken_links (a : Half) : (s.markTaken a).links = s.links := rfl
@[simp] theorem State.markTaken_attention (a : Half) : (s.markTaken a).attention = s.attention := rfl
@[simp] theorem State.markTaken_status (a : Half) : (s.markTaken a).status = s.status := rfl
@[simp] theorem State.markTaken_scanAt (a : Half) : (s.markTaken a).scanAt = s.scanAt := rfl
@[simp] theorem State.markTaken_coolingAt (a : Half) : (s.markTaken a).coolingAt = s.coolingAt := rfl
@[simp] theorem State.markTaken_refreshAt (a : Half) : (s.markTaken a).refreshAt = s.refreshAt := rfl
@[simp] theorem State.markTaken_reports (a : Half) : (s.markTaken a).reports = s.reports := rfl
@[simp] theorem State.markTaken_late (a : Half) : (s.markTaken a).late = s.late := rfl

/-! ### keepOpen -/

@[simp] theorem State.keepOpen_pending (h : SlipHead) (c : Byte) (k : Bool) : (s.keepOpen h c k).pending = s.pending := rfl
@[simp] theorem State.keepOpen_time (h : SlipHead) (c : Byte) (k : Bool) : (s.keepOpen h c k).time = s.time := rfl
@[simp] theorem State.keepOpen_phase (h : SlipHead) (c : Byte) (k : Bool) : (s.keepOpen h c k).phase = s.phase := rfl
@[simp] theorem State.keepOpen_resetKind (h : SlipHead) (c : Byte) (k : Bool) : (s.keepOpen h c k).resetKind = s.resetKind := rfl
@[simp] theorem State.keepOpen_straps (h : SlipHead) (c : Byte) (k : Bool) : (s.keepOpen h c k).straps = s.straps := rfl
@[simp] theorem State.keepOpen_driving (h : SlipHead) (c : Byte) (k : Bool) : (s.keepOpen h c k).driving = s.driving := rfl
@[simp] theorem State.keepOpen_settings (h : SlipHead) (c : Byte) (k : Bool) : (s.keepOpen h c k).settings = s.settings := rfl
@[simp] theorem State.keepOpen_origin (h : SlipHead) (c : Byte) (k : Bool) : (s.keepOpen h c k).origin = s.origin := rfl
@[simp] theorem State.keepOpen_cause (h : SlipHead) (c : Byte) (k : Bool) : (s.keepOpen h c k).cause = s.cause := rfl
@[simp] theorem State.keepOpen_store (h : SlipHead) (c : Byte) (k : Bool) : (s.keepOpen h c k).store = s.store := rfl
@[simp] theorem State.keepOpen_settingsMem (h : SlipHead) (c : Byte) (k : Bool) : (s.keepOpen h c k).settingsMem = s.settingsMem := rfl
@[simp] theorem State.keepOpen_bays (h : SlipHead) (c : Byte) (k : Bool) : (s.keepOpen h c k).bays = s.bays := rfl
@[simp] theorem State.keepOpen_lines (h : SlipHead) (c : Byte) (k : Bool) : (s.keepOpen h c k).lines = s.lines := rfl
@[simp] theorem State.keepOpen_account (h : SlipHead) (c : Byte) (k : Bool) : (s.keepOpen h c k).account = s.account := rfl
@[simp] theorem State.keepOpen_supplyLines (h : SlipHead) (c : Byte) (k : Bool) : (s.keepOpen h c k).supplyLines = s.supplyLines := rfl
@[simp] theorem State.keepOpen_scheduler (h : SlipHead) (c : Byte) (k : Bool) : (s.keepOpen h c k).scheduler = s.scheduler := rfl
@[simp] theorem State.keepOpen_feeds (h : SlipHead) (c : Byte) (k : Bool) : (s.keepOpen h c k).feeds = s.feeds := rfl
@[simp] theorem State.keepOpen_sensors (h : SlipHead) (c : Byte) (k : Bool) : (s.keepOpen h c k).sensors = s.sensors := rfl
@[simp] theorem State.keepOpen_scan (h : SlipHead) (c : Byte) (k : Bool) : (s.keepOpen h c k).scan = s.scan := rfl
@[simp] theorem State.keepOpen_zones (h : SlipHead) (c : Byte) (k : Bool) : (s.keepOpen h c k).zones = s.zones := rfl
@[simp] theorem State.keepOpen_fans (h : SlipHead) (c : Byte) (k : Bool) : (s.keepOpen h c k).fans = s.fans := rfl
@[simp] theorem State.keepOpen_lights (h : SlipHead) (c : Byte) (k : Bool) : (s.keepOpen h c k).lights = s.lights := rfl
@[simp] theorem State.keepOpen_ram (h : SlipHead) (c : Byte) (k : Bool) : (s.keepOpen h c k).ram = s.ram := rfl
@[simp] theorem State.keepOpen_windows (h : SlipHead) (c : Byte) (k : Bool) : (s.keepOpen h c k).windows = s.windows := rfl
@[simp] theorem State.keepOpen_links (h : SlipHead) (c : Byte) (k : Bool) : (s.keepOpen h c k).links = s.links := rfl
@[simp] theorem State.keepOpen_attention (h : SlipHead) (c : Byte) (k : Bool) : (s.keepOpen h c k).attention = s.attention := rfl
@[simp] theorem State.keepOpen_status (h : SlipHead) (c : Byte) (k : Bool) : (s.keepOpen h c k).status = s.status := rfl
@[simp] theorem State.keepOpen_scanAt (h : SlipHead) (c : Byte) (k : Bool) : (s.keepOpen h c k).scanAt = s.scanAt := rfl
@[simp] theorem State.keepOpen_coolingAt (h : SlipHead) (c : Byte) (k : Bool) : (s.keepOpen h c k).coolingAt = s.coolingAt := rfl
@[simp] theorem State.keepOpen_refreshAt (h : SlipHead) (c : Byte) (k : Bool) : (s.keepOpen h c k).refreshAt = s.refreshAt := rfl
@[simp] theorem State.keepOpen_reports (h : SlipHead) (c : Byte) (k : Bool) : (s.keepOpen h c k).reports = s.reports := rfl
@[simp] theorem State.keepOpen_late (h : SlipHead) (c : Byte) (k : Bool) : (s.keepOpen h c k).late = s.late := rfl

/-! ### putOut -/

@[simp] theorem State.putOut_pending (p : Port) (l : List Byte) : (s.putOut p l).pending = s.pending := rfl
@[simp] theorem State.putOut_time (p : Port) (l : List Byte) : (s.putOut p l).time = s.time := rfl
@[simp] theorem State.putOut_phase (p : Port) (l : List Byte) : (s.putOut p l).phase = s.phase := rfl
@[simp] theorem State.putOut_resetKind (p : Port) (l : List Byte) : (s.putOut p l).resetKind = s.resetKind := rfl
@[simp] theorem State.putOut_straps (p : Port) (l : List Byte) : (s.putOut p l).straps = s.straps := rfl
@[simp] theorem State.putOut_driving (p : Port) (l : List Byte) : (s.putOut p l).driving = s.driving := rfl
@[simp] theorem State.putOut_settings (p : Port) (l : List Byte) : (s.putOut p l).settings = s.settings := rfl
@[simp] theorem State.putOut_origin (p : Port) (l : List Byte) : (s.putOut p l).origin = s.origin := rfl
@[simp] theorem State.putOut_cause (p : Port) (l : List Byte) : (s.putOut p l).cause = s.cause := rfl
@[simp] theorem State.putOut_store (p : Port) (l : List Byte) : (s.putOut p l).store = s.store := rfl
@[simp] theorem State.putOut_settingsMem (p : Port) (l : List Byte) : (s.putOut p l).settingsMem = s.settingsMem := rfl
@[simp] theorem State.putOut_bays (p : Port) (l : List Byte) : (s.putOut p l).bays = s.bays := rfl
@[simp] theorem State.putOut_lines (p : Port) (l : List Byte) : (s.putOut p l).lines = s.lines := rfl
@[simp] theorem State.putOut_account (p : Port) (l : List Byte) : (s.putOut p l).account = s.account := rfl
@[simp] theorem State.putOut_supplyLines (p : Port) (l : List Byte) : (s.putOut p l).supplyLines = s.supplyLines := rfl
@[simp] theorem State.putOut_scheduler (p : Port) (l : List Byte) : (s.putOut p l).scheduler = s.scheduler := rfl
@[simp] theorem State.putOut_feeds (p : Port) (l : List Byte) : (s.putOut p l).feeds = s.feeds := rfl
@[simp] theorem State.putOut_sensors (p : Port) (l : List Byte) : (s.putOut p l).sensors = s.sensors := rfl
@[simp] theorem State.putOut_scan (p : Port) (l : List Byte) : (s.putOut p l).scan = s.scan := rfl
@[simp] theorem State.putOut_zones (p : Port) (l : List Byte) : (s.putOut p l).zones = s.zones := rfl
@[simp] theorem State.putOut_fans (p : Port) (l : List Byte) : (s.putOut p l).fans = s.fans := rfl
@[simp] theorem State.putOut_lights (p : Port) (l : List Byte) : (s.putOut p l).lights = s.lights := rfl
@[simp] theorem State.putOut_ram (p : Port) (l : List Byte) : (s.putOut p l).ram = s.ram := rfl
@[simp] theorem State.putOut_windows (p : Port) (l : List Byte) : (s.putOut p l).windows = s.windows := rfl
@[simp] theorem State.putOut_readers (p : Port) (l : List Byte) : (s.putOut p l).readers = s.readers := rfl
@[simp] theorem State.putOut_attention (p : Port) (l : List Byte) : (s.putOut p l).attention = s.attention := rfl
@[simp] theorem State.putOut_status (p : Port) (l : List Byte) : (s.putOut p l).status = s.status := rfl
@[simp] theorem State.putOut_scanAt (p : Port) (l : List Byte) : (s.putOut p l).scanAt = s.scanAt := rfl
@[simp] theorem State.putOut_coolingAt (p : Port) (l : List Byte) : (s.putOut p l).coolingAt = s.coolingAt := rfl
@[simp] theorem State.putOut_refreshAt (p : Port) (l : List Byte) : (s.putOut p l).refreshAt = s.refreshAt := rfl
@[simp] theorem State.putOut_reports (p : Port) (l : List Byte) : (s.putOut p l).reports = s.reports := rfl
@[simp] theorem State.putOut_late (p : Port) (l : List Byte) : (s.putOut p l).late = s.late := rfl

/-! ### deny -/

@[simp] theorem State.deny_pending (p : Port) : (s.deny p).pending = s.pending := rfl
@[simp] theorem State.deny_time (p : Port) : (s.deny p).time = s.time := rfl
@[simp] theorem State.deny_phase (p : Port) : (s.deny p).phase = s.phase := rfl
@[simp] theorem State.deny_resetKind (p : Port) : (s.deny p).resetKind = s.resetKind := rfl
@[simp] theorem State.deny_straps (p : Port) : (s.deny p).straps = s.straps := rfl
@[simp] theorem State.deny_driving (p : Port) : (s.deny p).driving = s.driving := rfl
@[simp] theorem State.deny_settings (p : Port) : (s.deny p).settings = s.settings := rfl
@[simp] theorem State.deny_origin (p : Port) : (s.deny p).origin = s.origin := rfl
@[simp] theorem State.deny_cause (p : Port) : (s.deny p).cause = s.cause := rfl
@[simp] theorem State.deny_store (p : Port) : (s.deny p).store = s.store := rfl
@[simp] theorem State.deny_settingsMem (p : Port) : (s.deny p).settingsMem = s.settingsMem := rfl
@[simp] theorem State.deny_bays (p : Port) : (s.deny p).bays = s.bays := rfl
@[simp] theorem State.deny_lines (p : Port) : (s.deny p).lines = s.lines := rfl
@[simp] theorem State.deny_account (p : Port) : (s.deny p).account = s.account := rfl
@[simp] theorem State.deny_supplyLines (p : Port) : (s.deny p).supplyLines = s.supplyLines := rfl
@[simp] theorem State.deny_scheduler (p : Port) : (s.deny p).scheduler = s.scheduler := rfl
@[simp] theorem State.deny_feeds (p : Port) : (s.deny p).feeds = s.feeds := rfl
@[simp] theorem State.deny_sensors (p : Port) : (s.deny p).sensors = s.sensors := rfl
@[simp] theorem State.deny_scan (p : Port) : (s.deny p).scan = s.scan := rfl
@[simp] theorem State.deny_zones (p : Port) : (s.deny p).zones = s.zones := rfl
@[simp] theorem State.deny_fans (p : Port) : (s.deny p).fans = s.fans := rfl
@[simp] theorem State.deny_lights (p : Port) : (s.deny p).lights = s.lights := rfl
@[simp] theorem State.deny_ram (p : Port) : (s.deny p).ram = s.ram := rfl
@[simp] theorem State.deny_windows (p : Port) : (s.deny p).windows = s.windows := rfl
@[simp] theorem State.deny_readers (p : Port) : (s.deny p).readers = s.readers := rfl
@[simp] theorem State.deny_attention (p : Port) : (s.deny p).attention = s.attention := rfl
@[simp] theorem State.deny_status (p : Port) : (s.deny p).status = s.status := rfl
@[simp] theorem State.deny_scanAt (p : Port) : (s.deny p).scanAt = s.scanAt := rfl
@[simp] theorem State.deny_coolingAt (p : Port) : (s.deny p).coolingAt = s.coolingAt := rfl
@[simp] theorem State.deny_refreshAt (p : Port) : (s.deny p).refreshAt = s.refreshAt := rfl
@[simp] theorem State.deny_reports (p : Port) : (s.deny p).reports = s.reports := rfl
@[simp] theorem State.deny_late (p : Port) : (s.deny p).late = s.late := rfl

/-! ### What is read after an update -/

@[simp] theorem State.mark_bitmaps (k : Nat) : (s.mark k).status.bitmaps =
    ⟨s.status.bitmaps.a ||| BitVec.twoPow 80 k, s.status.bitmaps.b ||| BitVec.twoPow 80 k⟩ := rfl
@[simp] theorem State.raise_late (p : Port) (i : Fin 8) : (s.raise p i).late = s.late ++ [(p, i)] := rfl
@[simp] theorem State.raiseBoth_late (i : Fin 8) : (s.raiseBoth i).late = s.late ++ [(.a, i)] ++ [(.b, i)] := rfl
@[simp] theorem State.markTaken_ram (a : Half) : (s.markTaken a).ram = Memory.write s.ram a.toNat 2 := rfl
@[simp] theorem State.enter_reports (n : BayNo) (st : BayState) (why : Reason) :
    (s.enter n st why).reports = s.changeReports (s.bay n).record.state st := rfl

@[simp] theorem PerPort.get_put_same {α : Type} (x : PerPort α) (p : Port) (v : α) : (x.put p v).get p = v := by cases p <;> rfl
@[simp] theorem PerPort.get_put_other {α : Type} (x : PerPort α) (p : Port) (v : α) : (x.put p v).get (Port.other p) = x.get (Port.other p) := by
  cases p <;> rfl
theorem PerPort.get_put {α : Type} (x : PerPort α) (p q : Port) (v : α) : (x.put p v).get q = if q = p then v else x.get q := by
  cases p <;> cases q <;> rfl

@[simp] theorem State.bay_putBay_same (n : BayNo) (b : Bay) : (s.putBay n b).bay n = b := by simp [State.bay, State.putBay]
theorem State.bay_putBay (n m : BayNo) (b : Bay) : (s.putBay n b).bay m = if m = n then b else s.bay m := by
  by_cases h : m = n
  · subst h; simp
  · have : n.val ≠ m.val := fun e => h (Fin.ext e.symm)
    simp [State.bay, State.putBay, h, this]
@[simp] theorem State.line_putLine_same (n : BayNo) (l : BayLines) : (s.putLine n l).line n = l := by simp [State.line, State.putLine]
theorem State.line_putLine (n m : BayNo) (l : BayLines) : (s.putLine n l).line m = if m = n then l else s.line m := by
  by_cases h : m = n
  · subst h; simp
  · have : n.val ≠ m.val := fun e => h (Fin.ext e.symm)
    simp [State.line, State.putLine, h, this]
@[simp] theorem State.feed_putFeed_same (n : BayNo) (f : BayFeed) : (s.putFeed n f).feed n = f := by simp [State.feed, State.putFeed]
theorem State.feed_putFeed (n m : BayNo) (f : BayFeed) : (s.putFeed n f).feed m = if m = n then f else s.feed m := by
  by_cases h : m = n
  · subst h; simp
  · have : n.val ≠ m.val := fun e => h (Fin.ext e.symm)
    simp [State.feed, State.putFeed, h, this]
@[simp] theorem State.light_putLight_same (n : BayNo) (l : BayLight) : (s.putLight n l).light n = l := by
  simp [State.light, State.putLight]
theorem State.light_putLight (n m : BayNo) (l : BayLight) : (s.putLight n l).light m = if m = n then l else s.light m := by
  by_cases h : m = n
  · subst h; simp
  · have : n.val ≠ m.val := fun e => h (Fin.ext e.symm)
    simp [State.light, State.putLight, h, this]
@[simp] theorem State.reader_putReader_same (p : Port) (r : Reader) : (s.putReader p r).reader p = r := by
  simp [State.reader, State.putReader]
@[simp] theorem State.reader_putReader_other (p : Port) (r : Reader) : (s.putReader p r).reader (Port.other p) = s.reader (Port.other p) := by
  simp [State.reader, State.putReader]

/-- A bay after any bay has entered a state: that bay entered, every other as it was. -/
theorem State.bay_enter (n m : BayNo) (st : BayState) (why : Reason) : (s.enter n st why).bay m =
    if m = n then (s.bay n).entering st why s.time s.settings.timing (s.profileOf n) else s.bay m := s.bay_putBay n m _
/-- The lines after a bay has entered a state. -/
theorem State.line_enter (n m : BayNo) (st : BayState) (why : Reason) : (s.enter n st why).line m =
    if m = n then (s.line n).follow st else s.line m := s.line_putLine n m _
/-- The feed after a bay has entered a state. -/
theorem State.feed_enter (n m : BayNo) (st : BayState) (why : Reason) : (s.enter n st why).feed m =
    if m = n then (s.feed n).follow st s.time else s.feed m := s.feed_putFeed n m _
/-- The light after a bay has entered a state: its stretch stops. -/
theorem State.light_enter (n m : BayNo) (st : BayState) (why : Reason) : (s.enter n st why).light m =
    if m = n then { s.light n with stretch := none } else s.light m := s.light_putLight n m _
/-- The state a bay is in after it has entered one. -/
@[simp] theorem State.enter_state (n : BayNo) (st : BayState) (why : Reason) :
    ((s.enter n st why).bay n).record.state = st := by rw [State.bay_enter, if_pos rfl]; rfl

/-- A bay's operation after it is set; its state, captures, flags and timers stand. -/
theorem State.bay_setOp (n m : BayNo) (o : Option Operation) : (s.setOp n o).bay m =
    if m = n then { s.bay n with record := { (s.bay n).record with op := o } } else s.bay m := s.bay_putBay n m _
/-- A bay after its flags are changed. -/
theorem State.bay_setFlags (n m : BayNo) (f : BayFlags → BayFlags) : (s.setFlags n f).bay m =
    if m = n then { s.bay n with record := { (s.bay n).record with flags := f (s.bay n).record.flags } } else s.bay m :=
  s.bay_putBay n m _
/-- A bay after its retry count is set. -/
theorem State.bay_setRetries (n m : BayNo) (r : Nat) : (s.setRetries n r).bay m =
    if m = n then { s.bay n with record := { (s.bay n).record with retries := r } } else s.bay m := s.bay_putBay n m _

/-- The outer state rests on no bay, line, feed, light of a bay, reader, report or event. -/
@[simp] theorem State.enter_outer (n : BayNo) (st : BayState) (why : Reason) : (s.enter n st why).outer = s.outer := rfl
@[simp] theorem State.putBay_outer (n : BayNo) (b : Bay) : (s.putBay n b).outer = s.outer := rfl
@[simp] theorem State.putLine_outer (n : BayNo) (l : BayLines) : (s.putLine n l).outer = s.outer := rfl
@[simp] theorem State.putFeed_outer (n : BayNo) (f : BayFeed) : (s.putFeed n f).outer = s.outer := rfl
@[simp] theorem State.putLight_outer (n : BayNo) (l : BayLight) : (s.putLight n l).outer = s.outer := rfl
@[simp] theorem State.putReader_outer (p : Port) (r : Reader) : (s.putReader p r).outer = s.outer := rfl
@[simp] theorem State.mark_outer (k : Nat) : (s.mark k).outer = s.outer := rfl
@[simp] theorem State.raiseBoth_outer (i : Fin 8) : (s.raiseBoth i).outer = s.outer := rfl
@[simp] theorem State.markTaken_outer (a : Half) : (s.markTaken a).outer = s.outer := rfl
@[simp] theorem State.setOp_outer (n : BayNo) (o : Option Operation) : (s.setOp n o).outer = s.outer := rfl
@[simp] theorem State.setFlags_outer (n : BayNo) (f : BayFlags → BayFlags) : (s.setFlags n f).outer = s.outer := rfl

end Sys2Proof.Machine
end

