-- ==== Sys2Proof/Laws/Ops.lean ====
section
/-! SUPPORT. For each shared operation, once, all the places of State it can write; and that none of them touches the outer state. -/

namespace Sys2Proof.Machine

variable (s : State)

/-! ### Publication: a record, its generation, the change bitmaps -/

theorem State.pubBay_eq (n : BayNo) : s.pubBay n = { s with bays := (s.pubBay n).bays, status := (s.pubBay n).status } := by
  unfold State.pubBay; dsimp only; split <;> rfl
theorem State.pubLight_eq (n : BayNo) : s.pubLight n = { s with lights := (s.pubLight n).lights, status := (s.pubLight n).status } := by
  unfold State.pubLight; dsimp only; split <;> rfl
theorem State.pubFan_eq (i : Fin 6) : s.pubFan i = { s with fans := (s.pubFan i).fans, status := (s.pubFan i).status } := by
  unfold State.pubFan; dsimp only; split <;> rfl
theorem State.pubSupply_eq (i : Fin 4) : s.pubSupply i = { s with account := (s.pubSupply i).account, status := (s.pubSupply i).status } := by
  unfold State.pubSupply; dsimp only; split <;> rfl
theorem State.pubZone_eq (i : Fin 4) : s.pubZone i = { s with zones := (s.pubZone i).zones, status := (s.pubZone i).status } := by
  unfold State.pubZone; dsimp only; split <;> rfl
theorem State.republishSensor_eq (i : Fin 8) :
    s.republishSensor i = { s with sensors := (s.republishSensor i).sensors, status := (s.republishSensor i).status } := by
  unfold State.republishSensor; split <;> rfl
theorem State.pubSensor_eq (i : Fin 8) : s.pubSensor i = { s with sensors := (s.pubSensor i).sensors, status := (s.pubSensor i).status } := by
  unfold State.pubSensor; dsimp only; split
  · rfl
  · exact s.republishSensor_eq i
theorem State.pubSummary_eq : s.pubSummary = { s with status := s.pubSummary.status } := by unfold State.pubSummary; split <;> rfl
/-- In start-up, and in a handling that publishes the summary once at its end, nothing republishes it (R167, R179). -/
theorem State.pubSummary_held
    (h : s.publishing = false ∨ s.reports.summaryHeld = true ∨ (s.phase = .starting ∧ s.status.summary = none)) : s.pubSummary = s := by
  unfold State.pubSummary; rw [if_pos h]
theorem State.pubSummaryIfChanged_eq : s.pubSummaryIfChanged = { s with status := s.pubSummaryIfChanged.status } := by
  unfold State.pubSummaryIfChanged; split
  · rfl
  · exact s.pubSummary_eq
theorem State.pubSummaryIfAccount_eq : s.pubSummaryIfAccount = { s with status := s.pubSummaryIfAccount.status } := by
  unfold State.pubSummaryIfAccount; split
  · rfl
  · exact s.pubSummary_eq
theorem State.releaseSummary_eq (b : Bool) :
    s.releaseSummary b = { s with reports := { s.reports with summaryHeld := b }, status := (s.releaseSummary b).status } := by
  unfold State.releaseSummary; rw [State.pubSummaryIfChanged_eq]
/-- One handling of two owners: what the handling leaves with the summary held, and then the hold as it stood and the summary. -/
theorem State.withOneSummary_eq (act : State → State) :
    s.withOneSummary act =
      { act s.holdSummary with
        reports := { (act s.holdSummary).reports with summaryHeld := s.reports.summaryHeld }
        status := (s.withOneSummary act).status } := by
  unfold State.withOneSummary; rw [State.releaseSummary_eq]
theorem State.pubQueue_eq : s.pubQueue = { s with scheduler := s.pubQueue.scheduler, status := s.pubQueue.status } := by
  unfold State.pubQueue; split <;> rfl
theorem State.pubEnclosure_eq : s.pubEnclosure = { s with lights := s.pubEnclosure.lights, status := s.pubEnclosure.status } := by
  unfold State.pubEnclosure; dsimp only; split <;> rfl
theorem State.republishReader_eq (p : Port) :
    s.republishReader p = { s with readers := (s.republishReader p).readers, status := (s.republishReader p).status } := by
  unfold State.republishReader; split <;> rfl
theorem State.pubReader_eq (p : Port) : s.pubReader p = { s with readers := (s.pubReader p).readers, status := (s.pubReader p).status } := by
  unfold State.pubReader; split
  · rfl
  · exact s.republishReader_eq p
theorem State.republishAttention_eq (p : Port) : s.republishAttention p =
    { s with attention := (s.republishAttention p).attention, status := (s.republishAttention p).status } := by
  unfold State.republishAttention; split <;> rfl
theorem State.pubAttention_eq (p : Port) :
    s.pubAttention p = { s with attention := (s.pubAttention p).attention, status := (s.pubAttention p).status } := by
  unfold State.pubAttention; split
  · rfl
  · exact s.republishAttention_eq p

/-- A publication of bay n moves at most the generation of bay n's record. -/
theorem State.pubBay_like (n m : BayNo) : (s.bay m).like ((s.pubBay n).bay m) := by
  unfold State.pubBay; dsimp only; split
  · rfl
  · show (s.bay m).like ((s.putBay n _).bay m)
    rw [State.bay_putBay]
    split
    · rename_i h; subst h; rfl
    · rfl

/-- While the part runs, a publication of bay n leaves its record published as it stands (R1). -/
theorem State.pubBay_shown (n : BayNo) (h : s.phase = .running) : (s.pubBay n).shown n := by
  have hp : s.publishing = true := by simp [State.publishing, h]
  unfold State.pubBay; dsimp only; split
  · rename_i hc
    rcases hc with hc | hc
    · simp [hp] at hc
    · exact hc
  · simp [State.shown, State.bay, State.mark, State.baySet]

/-- A publication of the queue moves the scheduler's generation alone. -/
theorem State.pubQueue_scheduler : ∃ g, s.pubQueue.scheduler = { s.scheduler with gen := g } := by
  unfold State.pubQueue; split
  · exact ⟨s.scheduler.gen, rfl⟩
  · exact ⟨_, rfl⟩

/-- A publication of a reader record moves its generation alone. -/
theorem State.pubReader_reader (p q : Port) : ∃ g, (s.pubReader p).reader q = { s.reader q with gen := g } := by
  unfold State.pubReader; split
  · exact ⟨_, rfl⟩
  · unfold State.republishReader; split
    · exact ⟨_, rfl⟩
    · cases p <;> cases q <;> exact ⟨_, rfl⟩

/-! ### Events, lights, slip ends -/

theorem State.latchEvent_eq (p : Port) (i : Fin 8) :
    s.latchEvent p i = { s with attention := (s.latchEvent p i).attention, status := (s.latchEvent p i).status } := by
  unfold State.latchEvent; dsimp only; split
  · rw [State.pubAttention_eq]
  · rfl

/-- Handing the events on moves the Attention Units and the status area, and leaves no event. -/
theorem State.deliver_eq : s.deliver = { s with attention := s.deliver.attention, status := s.deliver.status, late := [] } := by
  have key : ∀ (l : List (Port × Fin 8)) (t : State),
      let u := l.foldl (fun t e => t.latchEvent e.1 e.2) t
      u = { t with attention := u.attention, status := u.status } := by
    intro l
    induction l with
    | nil => intro t; rfl
    | cons e l ih =>
      intro t
      have h1 := ih (t.latchEvent e.1 e.2)
      have h2 := t.latchEvent_eq e.1 e.2
      dsimp only [List.foldl_cons] at h1 ⊢
      rw [h1, h2]
  exact key s.late { s with late := [] }

theorem State.raiseOpt_eq (e : Option (Fin 8)) : s.raiseOpt e = { s with late := (s.raiseOpt e).late } := by cases e <;> rfl
theorem State.deriveLights_eq (n : BayNo) :
    s.deriveLights n = { s with lights := (s.deriveLights n).lights, status := (s.deriveLights n).status } := by
  unfold State.deriveLights; dsimp only; split
  · rfl
  · rw [State.pubLight_eq]; rfl
theorem State.lightEnclosure_eq :
    s.lightEnclosure = { s with lights := s.lightEnclosure.lights, status := s.lightEnclosure.status } := by
  unfold State.lightEnclosure; dsimp only; rw [State.pubEnclosure_eq]
theorem State.evalEnclosure_eq : s.evalEnclosure = { s with lights := s.evalEnclosure.lights, status := s.evalEnclosure.status } := by
  unfold State.evalEnclosure; split
  · rfl
  · exact s.lightEnclosure_eq
/-- Within start-up, before its step 6, no handling moves the enclosure light (R179). -/
theorem State.evalEnclosure_starting (h : s.phase = .starting) : s.evalEnclosure = s := by
  unfold State.evalEnclosure; rw [if_pos h]
theorem State.evalEnclosure_running (h : s.phase ≠ .starting) : s.evalEnclosure = s.lightEnclosure := by
  unfold State.evalEnclosure; rw [if_neg h]
theorem State.endAt_eq (p : Port) (a : Half) (attn : Bool) (o : SlipOutcome) (f : Byte) (r : Option (List Byte)) :
    s.endAt p a attn o f r =
      { s with
        ram := writeEnd a.toNat o f r s.time s.ram
        late := s.late ++ (if attn then [(p, srcSlipEnded)] else []) } := by
  unfold State.endAt; dsimp only; split <;> simp [State.raise]
theorem State.endTaken_eq (h : SlipHead) (o : SlipOutcome) (c m : Bool) (r : Option (List Byte)) :
    s.endTaken h o c m r =
      { s with
        ram := writeEnd h.addr.toNat o (resultFlags c m) r s.time s.ram
        late := s.late ++ (if attnOnEnd h then [(h.port, srcSlipEnded)] else []) } := s.endAt_eq _ _ _ _ _ _
theorem State.dropOpen_eq (p : Port) (a : Half) :
    s.dropOpen p a = { s with readers := (s.dropOpen p a).readers, status := (s.dropOpen p a).status } := by
  unfold State.dropOpen; rw [State.pubReader_eq]; rfl
theorem State.endOpen_eq (p : Port) (a : Half) (o : SlipOutcome) (c : Bool) (r : Option (List Byte)) :
    s.endOpen p a o c r =
      { s with
        ram := (s.endOpen p a o c r).ram, readers := (s.endOpen p a o c r).readers, status := (s.endOpen p a o c r).status
        late := (s.endOpen p a o c r).late } := by
  unfold State.endOpen; split
  · rfl
  · rw [State.dropOpen_eq, State.endAt_eq]
theorem State.endOpSlip_eq (op : Option Operation) (o : SlipOutcome) (r : List Byte) :
    s.endOpSlip op o r =
      { s with
        ram := (s.endOpSlip op o r).ram, readers := (s.endOpSlip op o r).readers, status := (s.endOpSlip op o r).status
        late := (s.endOpSlip op o r).late } := by
  unfold State.endOpSlip; split
  · exact s.endOpen_eq _ _ _ _ _
  · rfl

/-! ### The account -/

/-- A handling of the account writes the account, the enclosure light, the status area, the reports and the events. -/
theorem State.accountUpdate_eq : s.accountUpdate =
    { s with
      account := s.evaluated s.figures, reports := s.accountReports (s.evaluated s.figures)
      lights := s.accountUpdate.lights, status := s.accountUpdate.status, late := s.accountUpdate.late } := by
  unfold State.accountUpdate; dsimp only; split <;> rw [State.pubSummaryIfAccount_eq, State.evalEnclosure_eq] <;> rfl

/-! ### Bays and the queue -/

/-- The handling of a changed bay writes the bay's generation, the account, lights, the status area, the reports and the events. -/
theorem State.bayChanged_eq (n : BayNo) (e : Option (Fin 8)) : s.bayChanged n e =
    { s with
      bays := (s.pubBay n).bays, account := (s.bayChanged n e).account, lights := (s.bayChanged n e).lights
      status := (s.bayChanged n e).status, reports := (s.bayChanged n e).reports, late := (s.bayChanged n e).late } := by
  unfold State.bayChanged; rw [State.raiseOpt_eq, State.accountUpdate_eq, State.deriveLights_eq, State.pubBay_eq]

theorem State.join_eq (e : QueueEntry) : s.join e =
    { s with scheduler := (s.join e).scheduler, status := (s.join e).status, reports := (s.join e).reports } := by
  unfold State.join; dsimp only; rw [State.pubQueue_eq]
theorem State.leave_eq (n : BayNo) : s.leave n =
    { s with scheduler := (s.leave n).scheduler, status := (s.leave n).status, reports := (s.leave n).reports } := by
  unfold State.leave; split
  · rw [State.pubQueue_eq]
  · rfl
theorem State.reclass_eq (n : BayNo) (c : Fin 4) : s.reclass n c =
    { s with scheduler := (s.reclass n c).scheduler, status := (s.reclass n c).status, reports := (s.reclass n c).reports } := by
  unfold State.reclass; split
  · rfl
  · dsimp only; rw [State.pubSummaryIfAccount_eq, State.pubQueue_eq]
theorem State.setHold_eq (h : HoldReason) : s.setHold h =
    { s with scheduler := (s.setHold h).scheduler, status := (s.setHold h).status } := by
  unfold State.setHold; split
  · rfl
  · rw [State.pubQueue_eq]

/-- After a leave the queue holds every other entry in its order. -/
theorem State.leave_queue (n : BayNo) : (s.leave n).scheduler.queue = s.scheduler.queue.filter fun x => x.bay != n := by
  unfold State.leave; split
  · obtain ⟨g, h⟩ := State.pubQueue_scheduler
      { s with
        scheduler := { s.scheduler with queue := s.scheduler.queue.filter fun x => x.bay != n }
        reports := { s.reports with pass := s.reports.pass || decide (headBay s.scheduler.queue = some n) } }
    rw [h]
  · rename_i h
    symm
    rw [List.filter_eq_self]
    intro e he
    simp only [Bool.not_eq_true, List.any_eq_false] at h
    simpa using h e he

/-- After a join the queue holds the entry at the tail of its class. -/
theorem State.join_queue (e : QueueEntry) : (s.join e).scheduler.queue = enqueue e s.scheduler.queue := by
  obtain ⟨g, h⟩ := State.pubQueue_scheduler
    { s with
      scheduler := { s.scheduler with queue := enqueue e s.scheduler.queue }
      reports := { s.reports with
        pass := s.reports.pass || decide (headBay (enqueue e s.scheduler.queue) ≠ headBay s.scheduler.queue) } }
  unfold State.join; dsimp only; rw [h]

/-! ### The outer state -/

/-- A join that changes the head is an admission opportunity (R64). -/
theorem State.join_head (e : QueueEntry) (h : headBay (s.join e).scheduler.queue ≠ headBay s.scheduler.queue) :
    (s.join e).reports.pass = true := by
  rw [State.join_queue] at h
  unfold State.join; rw [State.pubQueue_eq]; simp [h]

/-- A leave that changes the head is an admission opportunity (R57, R64). -/
theorem State.leave_head (n : BayNo) (h : headBay (s.leave n).scheduler.queue ≠ headBay s.scheduler.queue) :
    (s.leave n).reports.pass = true := by
  rw [State.leave_queue] at h
  have hn : headBay s.scheduler.queue = some n := by
    cases hq : s.scheduler.queue with
    | nil => simp [hq, headBay] at h
    | cons d q => by_cases hd : d.bay = n <;> simp_all [headBay]
  have ha : (s.scheduler.queue.any fun x => x.bay == n) = true := by
    cases hq : s.scheduler.queue <;> simp_all [headBay]
  unfold State.leave; rw [if_pos ha, State.pubQueue_eq]; simp [hn]

/-- The outer state is what it is made of; an operation whose frame leaves all of that leaves it. -/
@[simp] theorem State.pubBay_outer (n : BayNo) : (s.pubBay n).outer = s.outer := by rw [State.pubBay_eq]; rfl
@[simp] theorem State.pubLight_outer (n : BayNo) : (s.pubLight n).outer = s.outer := by
  unfold State.pubLight; dsimp only; split <;> rfl
@[simp] theorem State.deriveLights_outer (n : BayNo) : (s.deriveLights n).outer = s.outer := by
  unfold State.deriveLights; dsimp only; split
  · rfl
  · rw [State.pubLight_outer]; rfl
@[simp] theorem State.pubEnclosure_outer : s.pubEnclosure.outer = s.outer := by unfold State.pubEnclosure; dsimp only; split <;> rfl
@[simp] theorem State.lightEnclosure_outer : s.lightEnclosure.outer = s.outer := by
  unfold State.lightEnclosure; dsimp only; rw [State.pubEnclosure_outer]; rfl
@[simp] theorem State.evalEnclosure_outer : s.evalEnclosure.outer = s.outer := by
  unfold State.evalEnclosure; split
  · rfl
  · exact s.lightEnclosure_outer
@[simp] theorem State.pubSummary_outer : s.pubSummary.outer = s.outer := by rw [State.pubSummary_eq]; rfl
@[simp] theorem State.pubSummaryIfAccount_outer : s.pubSummaryIfAccount.outer = s.outer := by rw [State.pubSummaryIfAccount_eq]; rfl
@[simp] theorem State.pubSummaryIfChanged_outer : s.pubSummaryIfChanged.outer = s.outer := by rw [State.pubSummaryIfChanged_eq]; rfl
@[simp] theorem State.holdSummary_outer : s.holdSummary.outer = s.outer := rfl
@[simp] theorem State.releaseSummary_outer (b : Bool) : (s.releaseSummary b).outer = s.outer := by rw [State.releaseSummary_eq]; rfl
/-- A handling that leaves the outer state leaves it with its summary published once. -/
theorem State.withOneSummary_outer (act : State → State) (h : (act s.holdSummary).outer = s.holdSummary.outer) :
    (s.withOneSummary act).outer = s.outer := by
  rw [State.withOneSummary, State.releaseSummary_outer, h, State.holdSummary_outer]
@[simp] theorem State.pubQueue_outer : s.pubQueue.outer = s.outer := by rw [State.pubQueue_eq]; rfl
@[simp] theorem State.pubReader_outer (p : Port) : (s.pubReader p).outer = s.outer := by rw [State.pubReader_eq]; rfl
@[simp] theorem State.pubAttention_outer (p : Port) : (s.pubAttention p).outer = s.outer := by rw [State.pubAttention_eq]; rfl
@[simp] theorem State.deliver_outer : s.deliver.outer = s.outer := by rw [State.deliver_eq]; rfl
@[simp] theorem State.raiseOpt_outer (e : Option (Fin 8)) : (s.raiseOpt e).outer = s.outer := by rw [State.raiseOpt_eq]; rfl
@[simp] theorem State.endTaken_outer (h : SlipHead) (o : SlipOutcome) (c m : Bool) (r : Option (List Byte)) :
    (s.endTaken h o c m r).outer = s.outer := by rw [State.endTaken_eq]; rfl
@[simp] theorem State.endOpen_outer (p : Port) (a : Half) (o : SlipOutcome) (c : Bool) (r : Option (List Byte)) :
    (s.endOpen p a o c r).outer = s.outer := by rw [State.endOpen_eq]; rfl
@[simp] theorem State.endOpSlip_outer (op : Option Operation) (o : SlipOutcome) (r : List Byte) :
    (s.endOpSlip op o r).outer = s.outer := by rw [State.endOpSlip_eq]; rfl
@[simp] theorem State.accountUpdate_outer : s.accountUpdate.outer = s.outer := by
  have hs : (s.evaluated s.figures).supplies = s.account.supplies ∧ (s.evaluated s.figures).fanRes = s.account.fanRes := by
    unfold State.evaluated; split
    · split <;> exact ⟨rfl, rfl⟩
    · exact ⟨rfl, rfl⟩
  unfold State.accountUpdate; dsimp only
  split <;> simp only [State.raiseBoth_outer, State.pubSummaryIfAccount_outer, State.evalEnclosure_outer] <;>
    simp [State.outer, hs.1, hs.2]
@[simp] theorem State.bayChanged_outer (n : BayNo) (e : Option (Fin 8)) : (s.bayChanged n e).outer = s.outer := by
  simp [State.bayChanged]
@[simp] theorem State.join_outer (e : QueueEntry) : (s.join e).outer = s.outer := by rw [State.join_eq]; rfl
@[simp] theorem State.leave_outer (n : BayNo) : (s.leave n).outer = s.outer := by rw [State.leave_eq]; rfl
@[simp] theorem State.setHold_outer (h : HoldReason) : (s.setHold h).outer = s.outer := by rw [State.setHold_eq]; rfl
@[simp] theorem State.admit_outer (n : BayNo) : (s.admitHead n).outer = s.outer := by
  unfold State.admitHead; dsimp only; simp; rfl

end Sys2Proof.Machine
end

