-- ==== Sys2Proof/Laws/Settle.lean ====
section
/-! SUPPORT. What acting on reports can do: a property that the few moves it is made of keep is kept by a whole handling. -/

namespace Sys2Proof.Machine

variable {P : State → Prop}

/-- A property that an admission and a new hold reason keep is kept by an admission pass (R63). -/
theorem State.passLoop_keeps (admitHead : ∀ s n, P s → P (s.admitHead n)) (hold : ∀ s h, P s → P (s.setHold h)) (fuel : Nat) (s : State) (h : P s) :
    P (State.passLoop fuel s) := by
  induction fuel generalizing s with
  | zero => exact h
  | succ k ih =>
    unfold State.passLoop
    split
    · exact hold _ _ h
    · split
      · exact ih _ (admitHead _ _ h)
      · exact hold _ _ h

/-- The same of the pass that is due, if its report may be cleared. -/
theorem State.runPass_keeps (admitHead : ∀ s n, P s → P (s.admitHead n)) (hold : ∀ s h, P s → P (s.setHold h))
    (report : ∀ s r, P s → P { s with reports := r }) (s : State) (h : P s) : P s.runPass := by
  unfold State.runPass
  split
  · exact report _ _ (State.passLoop_keeps admitHead hold _ _ h)
  · exact h

/-- A property that a policy move and a pass keep is kept by a WAIT_5V walk (R10). -/
theorem State.wait5vWalk_keeps (move : ∀ s n, P s → P (s.policyMove n)) (pass : ∀ s, P s → P s.runPass)
    (report : ∀ s r, P s → P { s with reports := r }) (s : State) (h : P s) : P s.wait5vWalk := by
  have step : ∀ (l : List BayNo) (t : State), P t → P (l.foldl State.walkBay t) := by
    intro l
    induction l with
    | nil => exact fun _ ht => ht
    | cons n l ih =>
      intro t ht
      refine ih _ ?_
      unfold State.walkBay
      split
      · exact pass _ (move _ _ ht)
      · exact ht
  exact step _ _ (report _ _ h)

/-- A property that each kind of report's work keeps is kept by acting on every report. -/
theorem State.settle_keeps (pass : ∀ s, P s → P s.runPass) (walk : ∀ s, P s → P s.wait5vWalk)
    (report : ∀ s r, P s → P { s with reports := r }) (thermal : ∀ s n, P s → P (s.thermalShed n)) (shed : ∀ s, P s → P s.shedStep)
    (s : State) (h : P s) : P s.settle := by
  have step : ∀ t u, P t → t.settleStep = some u → P u := by
    intro t u ht hu
    unfold State.settleStep at hu
    split at hu
    · exact Option.some.inj hu ▸ pass _ ht
    · split at hu
      · exact Option.some.inj hu ▸ walk _ ht
      · split at hu
        · exact Option.some.inj hu ▸ thermal _ _ (report _ _ ht)
        · split at hu
          · exact Option.some.inj hu ▸ shed _ ht
          · exact nomatch hu
  have loop : ∀ (fuel : Nat) (t : State), P t → P (State.settleLoop fuel t) := by
    intro fuel
    induction fuel with
    | zero => exact fun _ ht => ht
    | succ k ih =>
      intro t ht
      unfold State.settleLoop
      split
      · exact ht
      · rename_i u hu; exact ih _ (step _ _ ht hu)
  unfold State.settle
  generalize settleFuel = fuel
  exact loop fuel s h

/-- With no report waiting, acting on reports does nothing. -/
theorem State.settle_quiet (s : State) (h : s.quiet) : s.settle = s := by
  have : s.settleStep = none := by simp [State.settleStep, h.1, h.2.1, h.2.2.1, h.2.2.2]
  unfold State.settle settleFuel
  rw [State.settleLoop, this]

/-- With no report waiting and no event raised, the end of a handling does nothing. -/
theorem State.close_quiet (s : State) (h : s.quiet) (hl : s.late = []) : s.close = s := by
  rw [State.close, State.settle_quiet s h, State.deliver, hl]
  obtain ⟨⟩ := s
  simp only at hl
  subst hl
  rfl

/-! ### The outer state -/

@[simp] theorem State.runPass_outer (s : State) : s.runPass.outer = s.outer :=
  State.runPass_keeps (P := fun t => t.outer = s.outer) (fun _ _ h => by rw [State.admit_outer, h]) (fun _ _ h => by rw [State.setHold_outer, h])
    (fun _ _ h => h) s rfl
@[simp] theorem State.policyMove_outer (s : State) (n : BayNo) : (s.policyMove n).outer = s.outer := by
  unfold State.policyMove
  split
  · split <;> simp
  · split <;> simp
@[simp] theorem State.wait5vWalk_outer (s : State) : s.wait5vWalk.outer = s.outer :=
  State.wait5vWalk_keeps (P := fun t => t.outer = s.outer) (fun _ _ h => by rw [State.policyMove_outer, h])
    (fun _ h => by rw [State.runPass_outer, h]) (fun _ _ h => h) s rfl
@[simp] theorem State.shed12_outer (s : State) (k : ShedKind) (n : BayNo) : (s.shed12 k n).outer = s.outer := by
  unfold State.shed12
  split
  · dsimp only; split <;> simp
  · rfl
@[simp] theorem State.shed5_outer (s : State) (n : BayNo) : (s.shed5 n).outer = s.outer := by
  unfold State.shed5
  split
  · dsimp only; simp
  · rfl
@[simp] theorem State.shedStep_outer (s : State) : s.shedStep.outer = s.outer := by
  unfold State.shedStep
  split
  · rfl
  · split
    · unfold State.unresolvable; split
      · rfl
      · simp; rfl
    · unfold State.shedBay; split <;> simp
/-- Acting on reports leaves the outer state. -/
@[simp] theorem State.settle_outer (s : State) : s.settle.outer = s.outer :=
  State.settle_keeps (P := fun t => t.outer = s.outer) (fun _ h => by rw [State.runPass_outer, h])
    (fun _ h => by rw [State.wait5vWalk_outer, h]) (fun _ _ h => h)
    (fun _ _ h => by unfold State.thermalShed; split <;> simp [h]) (fun _ h => by rw [State.shedStep_outer, h]) s rfl
/-- The end of a handling leaves the outer state. -/
@[simp] theorem State.close_outer (s : State) : s.close.outer = s.outer := by simp [State.close]
/-- So does the end of a slip command's handling. -/
@[simp] theorem State.finishSlip_outer (s : State) (p : Port) : (s.finishSlip p).outer = s.outer := by simp [State.finishSlip]

end Sys2Proof.Machine
end

