-- ==== Sys2Proof/Laws/Ends.lean ====
section
/-! SUPPORT. Acting on reports comes to an end: every report acted on either is cleared or moves a bay, and the moves of one handling are
bounded (log entry 32), so that no report is left at its end. -/

namespace Sys2Proof.Machine

/-! ### What the bound counts -/

/-- What counts of a bay: its state, and whether it waits for 5 V. -/
def State.mode (s : State) (n : BayNo) : BayState × Bool := ((s.bay n).record.state, (s.bay n).record.flags.wait5v)

/-- The bays of the admission queue, head first. -/
def State.waiting (s : State) : List BayNo := s.scheduler.queue.map (·.bay)

/-- How many moves a bay has before it: a walk takes it from OFF with WAIT_5V into QUEUED or LOGIC, a pass from QUEUED into SPINNING_UP, a
shed to LOGIC or OFF. -/
def movesLeft : BayState × Bool → Nat
  | (st, waits) =>
    (match st with
     | .queued => 3
     | .spinningUp | .ready | .spinningDown => 2
     | .logic => 1
     | _ => 0) + (if waits then 4 else 0)

/-- The moves before all bays together. -/
def State.unrest (s : State) : Nat := ∑ n : BayNo, movesLeft (s.mode n)

/-- The queue holds bays in QUEUED alone, each once: what settling needs of `queueSound`. -/
def State.lined (s : State) : Prop := s.waiting.Nodup ∧ ∀ n ∈ s.waiting, (s.mode n).1 = .queued

theorem State.queueSound_lined {s : State} (h : s.queueSound) : s.lined := ⟨h.2.1, fun n hn => (h.1 n).2 hn⟩

theorem movesLeft_le (x : BayState × Bool) : movesLeft x ≤ 7 := by
  obtain ⟨st, w⟩ := x
  cases st <;> cases w <;> decide

theorem State.unrest_le (s : State) : s.unrest ≤ 420 := by
  have := Finset.sum_le_card_nsmul (Finset.univ : Finset BayNo) (fun n => movesLeft (s.mode n)) 7 fun n _ => movesLeft_le _
  simpa [State.unrest] using this

/-- A move of bay n alone that takes one of its moves. -/
theorem State.unrest_lt {s t : State} (n : BayNo) (other : ∀ m, m ≠ n → t.mode m = s.mode m)
    (less : movesLeft (t.mode n) < movesLeft (s.mode n)) : t.unrest < s.unrest := by
  refine Finset.sum_lt_sum (fun m _ => ?_) ⟨n, Finset.mem_univ n, less⟩
  by_cases h : m = n
  · subst h; exact less.le
  · rw [other m h]

theorem State.unrest_eq {s t : State} (h : ∀ m, t.mode m = s.mode m) : t.unrest = s.unrest :=
  Finset.sum_congr rfl fun m _ => by rw [h m]

/-! ### The view through each operation -/

variable (s : State)

@[simp] theorem State.mode_bayChanged (n m : BayNo) (e : Option (Fin 8)) : (s.bayChanged n e).mode m = s.mode m := by
  have h : (s.bayChanged n e).bay m = (s.pubBay n).bay m := by rw [State.bayChanged_eq]; rfl
  have l := s.pubBay_like n m
  unfold Bay.like at l
  have r := congrArg (fun b : Bay => (b.record.state, b.record.flags.wait5v)) l
  rw [State.mode, h]
  exact r.symm
@[simp] theorem State.waiting_bayChanged (n : BayNo) (e : Option (Fin 8)) : (s.bayChanged n e).waiting = s.waiting := by
  rw [State.bayChanged_eq]; rfl
@[simp] theorem State.thermal_bayChanged (n : BayNo) (e : Option (Fin 8)) : (s.bayChanged n e).reports.thermal = s.reports.thermal := by
  unfold State.bayChanged; rw [State.raiseOpt_eq, State.accountUpdate_eq, State.deriveLights_eq, State.pubBay_eq]; rfl
@[simp] theorem State.mode_setOp (n m : BayNo) (o : Option Operation) : (s.setOp n o).mode m = s.mode m := by
  simp only [State.mode, State.bay_setOp]; split
  · rename_i h; subst h; rfl
  · rfl
@[simp] theorem State.waiting_setOp (n : BayNo) (o : Option Operation) : (s.setOp n o).waiting = s.waiting := rfl
@[simp] theorem State.thermal_setOp (n : BayNo) (o : Option Operation) : (s.setOp n o).reports.thermal = s.reports.thermal := rfl
theorem State.mode_setFlags (n m : BayNo) (f : BayFlags → BayFlags) : (s.setFlags n f).mode m =
    if m = n then ((s.bay n).record.state, (f (s.bay n).record.flags).wait5v) else s.mode m := by
  simp only [State.mode, State.bay_setFlags]; split <;> rfl
@[simp] theorem State.waiting_setFlags (n : BayNo) (f : BayFlags → BayFlags) : (s.setFlags n f).waiting = s.waiting := rfl
@[simp] theorem State.thermal_setFlags (n : BayNo) (f : BayFlags → BayFlags) : (s.setFlags n f).reports.thermal = s.reports.thermal := rfl
theorem State.mode_enter (n m : BayNo) (st : BayState) (why : Reason) : (s.enter n st why).mode m =
    if m = n then (st, (flagsEntering (s.bay n).record.state st why (s.bay n).record.flags).wait5v) else s.mode m := by
  simp only [State.mode, State.bay_enter]; split <;> rfl
@[simp] theorem State.waiting_enter (n : BayNo) (st : BayState) (why : Reason) : (s.enter n st why).waiting = s.waiting := rfl
@[simp] theorem State.thermal_enter (n : BayNo) (st : BayState) (why : Reason) :
    (s.enter n st why).reports.thermal = s.reports.thermal := rfl
@[simp] theorem State.mode_endOpSlip (op : Option Operation) (o : SlipOutcome) (r : List Byte) (m : BayNo) :
    (s.endOpSlip op o r).mode m = s.mode m := by rw [State.endOpSlip_eq]; rfl
@[simp] theorem State.waiting_endOpSlip (op : Option Operation) (o : SlipOutcome) (r : List Byte) :
    (s.endOpSlip op o r).waiting = s.waiting := by rw [State.endOpSlip_eq]; rfl
@[simp] theorem State.thermal_endOpSlip (op : Option Operation) (o : SlipOutcome) (r : List Byte) :
    (s.endOpSlip op o r).reports.thermal = s.reports.thermal := by rw [State.endOpSlip_eq]
@[simp] theorem State.mode_pubQueue (m : BayNo) : s.pubQueue.mode m = s.mode m := by rw [State.pubQueue_eq]; rfl
@[simp] theorem State.waiting_pubQueue : s.pubQueue.waiting = s.waiting := by
  obtain ⟨g, h⟩ := s.pubQueue_scheduler
  simp [State.waiting, h]
@[simp] theorem State.reports_pubQueue : s.pubQueue.reports = s.reports := by rw [State.pubQueue_eq]
@[simp] theorem State.mode_join (e : QueueEntry) (m : BayNo) : (s.join e).mode m = s.mode m := by rw [State.join_eq]; rfl
@[simp] theorem State.thermal_join (e : QueueEntry) : (s.join e).reports.thermal = s.reports.thermal := by
  unfold State.join; dsimp only; rw [State.reports_pubQueue]
@[simp] theorem State.mode_leave (n m : BayNo) : (s.leave n).mode m = s.mode m := by rw [State.leave_eq]; rfl
@[simp] theorem State.thermal_leave (n : BayNo) : (s.leave n).reports.thermal = s.reports.thermal := by
  unfold State.leave; split
  · rw [State.reports_pubQueue]
  · rfl
@[simp] theorem State.mode_setHold (h : HoldReason) (m : BayNo) : (s.setHold h).mode m = s.mode m := by rw [State.setHold_eq]; rfl
@[simp] theorem State.waiting_setHold (h : HoldReason) : (s.setHold h).waiting = s.waiting := by
  unfold State.setHold; split
  · rfl
  · rw [State.waiting_pubQueue]; rfl
@[simp] theorem State.reports_setHold (h : HoldReason) : (s.setHold h).reports = s.reports := by rw [State.setHold_eq]

/-- A leave takes the bay out of the queue. -/
theorem State.waiting_leave (n : BayNo) : (s.leave n).waiting = s.waiting.filter (· != n) := by
  rw [State.waiting, State.leave_queue, State.waiting, List.filter_map]; rfl
/-- A join adds the entry's bay. -/
theorem State.waiting_join (e : QueueEntry) : (s.join e).waiting.Perm (e.bay :: s.waiting) := by
  rw [State.waiting, State.join_queue, State.waiting, enqueue, List.map_append, List.map_cons]
  refine List.perm_middle.trans (List.Perm.cons _ ?_)
  rw [← List.map_append, List.takeWhile_append_dropWhile]

variable {s}

/-! ### What one act does to the bound -/

/-- An act took a move from some bay, and kept the queue lined and the thermal list as it was. -/
structure Moved (s t : State) : Prop where
  lined   : t.lined
  thermal : t.reports.thermal = s.reports.thermal
  less    : t.unrest < s.unrest

/-- An act moved a bay, or left bays, queue and reports. -/
def MovedOrNot (s t : State) : Prop := Moved s t ∨ (t.lined ∧ t.unrest = s.unrest ∧ t.reports = s.reports)

theorem Moved.trans {t u : State} (h : Moved s t) (k : MovedOrNot t u) : Moved s u := by
  obtain k | ⟨k, e, r⟩ := k
  · exact ⟨k.lined, k.thermal.trans h.thermal, k.less.trans h.less⟩
  · exact ⟨k, by rw [r, h.thermal], by have := h.less; omega⟩

/-- A move of bay n alone to a mode of fewer moves, the bay in the queue no more. -/
theorem State.moved_of {t : State} (h : s.lined) (n : BayNo) {r : BayState × Bool}
    (modes : ∀ m, t.mode m = if m = n then r else s.mode m) (queue : ∀ m ∈ t.waiting, m ≠ n ∧ m ∈ s.waiting) (once : t.waiting.Nodup)
    (thermal : t.reports.thermal = s.reports.thermal) (less : movesLeft r < movesLeft (s.mode n)) : Moved s t := by
  have other : ∀ m, m ≠ n → t.mode m = s.mode m := fun m hm => by rw [modes, if_neg hm]
  refine ⟨⟨once, fun m hm => ?_⟩, thermal, State.unrest_lt n other ?_⟩
  · rw [other m (queue m hm).1]; exact h.2 m (queue m hm).2
  · rwa [modes, if_pos rfl]

theorem movesLeft_spinningUp (w : Bool) : movesLeft (.spinningUp, w) < movesLeft (.queued, w) := by cases w <;> decide
theorem movesLeft_shed12 (st : BayState) (w : Bool) (r : BayState × Bool) (hr : r = (.off, false) ∨ r = (.logic, false))
    (h : st.spinning = true) : movesLeft r < movesLeft (st, w) := by
  obtain rfl | rfl := hr <;> cases st <;> first | (cases w <;> decide) | cases h
theorem movesLeft_shed5 (st : BayState) (w : Bool) (h : st.powered = true) : movesLeft (.off, w) < movesLeft (st, w) := by
  cases st <;> first | (cases w <;> decide) | cases h

/-- The head's admission. -/
theorem State.admitHead_moved (h : s.lined) {n : BayNo} (hn : headBay s.scheduler.queue = some n) : Moved s (s.admitHead n) := by
  obtain ⟨e, q, hq⟩ : ∃ e q, s.scheduler.queue = e :: q := by
    cases hq : s.scheduler.queue with
    | nil => simp [hq, headBay] at hn
    | cons e q => exact ⟨e, q, rfl⟩
  have he : e.bay = n := by simpa [hq, headBay] using hn
  have hw : s.waiting = n :: q.map (·.bay) := by rw [State.waiting, hq, List.map_cons, he]
  have mode (m : BayNo) : (s.admitHead n).mode m =
      if m = n then (.spinningUp, (s.bay n).record.flags.wait5v) else s.mode m := by
    unfold State.admitHead; dsimp only
    rw [State.mode_bayChanged, State.mode_pubQueue, State.mode_setOp, State.mode_enter]; rfl
  have wait : (s.admitHead n).waiting = q.map (·.bay) := by
    unfold State.admitHead; dsimp only
    rw [State.waiting_bayChanged, State.waiting_pubQueue, State.waiting_setOp, State.waiting_enter]
    simp [State.waiting, hq]
  have thermal : (s.admitHead n).reports.thermal = s.reports.thermal := by
    unfold State.admitHead; dsimp only
    rw [State.thermal_bayChanged, State.reports_pubQueue, State.thermal_setOp, State.thermal_enter]
  generalize s.admitHead n = t at mode wait thermal ⊢
  have once := h.1
  rw [hw, List.nodup_cons] at once
  have hs : (s.mode n).1 = .queued := h.2 n (hw ▸ List.mem_cons_self)
  refine State.moved_of h n mode (fun m hm => ?_) (wait ▸ once.2) thermal ?_
  · rw [wait] at hm
    exact ⟨fun e => once.1 (e ▸ hm), hw ▸ List.mem_cons_of_mem _ hm⟩
  · have e : s.mode n = (.queued, (s.bay n).record.flags.wait5v) := Prod.ext hs rfl
    rw [e]; exact movesLeft_spinningUp _

theorem State.setHold_kept (h : s.lined) (r : HoldReason) : MovedOrNot s (s.setHold r) := by
  refine .inr ⟨⟨?_, fun m hm => ?_⟩, State.unrest_eq fun m => State.mode_setHold s r m, State.reports_setHold s r⟩
  · rw [State.waiting_setHold]; exact h.1
  · rw [State.mode_setHold]; exact h.2 m (by rwa [State.waiting_setHold] at hm)

theorem State.passLoop_moved (fuel : Nat) : ∀ {s : State}, s.lined → MovedOrNot s (State.passLoop fuel s) := by
  induction fuel with
  | zero => exact fun h => .inr ⟨h, rfl, rfl⟩
  | succ k ih =>
    intro s h
    unfold State.passLoop
    split
    · exact State.setHold_kept h _
    · rename_i n hn
      split
      · have m := State.admitHead_moved h hn
        exact .inl (m.trans (ih m.lined))
      · exact State.setHold_kept h _

/-- An act's reports changed, its thermal list kept. -/
theorem Moved.report {t : State} (h : Moved s t) (r : Reports) (e : r.thermal = t.reports.thermal) : Moved s { t with reports := r } :=
  ⟨h.lined, e.trans h.thermal, h.less⟩

/-- A pass that is due moves a bay, or clears its report and no other. -/
theorem State.runPass_moved (h : s.lined) :
    Moved s s.runPass ∨ (s.runPass.lined ∧ s.runPass.unrest = s.unrest ∧ s.runPass.reports = { s.reports with pass := false }) := by
  unfold State.runPass
  split
  · obtain m | ⟨l, e, r⟩ := State.passLoop_moved (s.scheduler.queue.length + 1) h
    · exact .inl (m.report _ rfl)
    · exact .inr ⟨l, e, by simp only [r]⟩
  · rename_i hp
    exact .inr ⟨h, rfl, by simp only [Bool.not_eq_true] at hp; rw [← hp]⟩

theorem State.runPass_idle (h : s.reports.pass = false) : s.runPass = s := by unfold State.runPass; simp [h]
@[simp] theorem State.runPass_due (s : State) : s.runPass.reports.pass = false := by
  unfold State.runPass; split
  · rfl
  · rename_i h; simpa using h

/-- A policy move of a bay that waits for 5 V moves it, or changes nothing (R9, R10). -/
theorem State.policyMove_moved (h : s.lined) {n : BayNo} (off : (s.bay n).record.state = .off)
    (waits : (s.bay n).record.flags.wait5v = true) : Moved s (s.policyMove n) ∨ s.policyMove n = s := by
  have hm : s.mode n = (.off, true) := by rw [State.mode, off, waits]
  have out : n ∉ s.waiting := fun hn => by have := h.2 n hn; rw [hm] at this; cases this
  unfold State.policyMove
  split
  · split
    · exact .inr rfl
    · left
      have mode (m : BayNo) : ((s.enter n .logic .policy).bayChanged n (some srcBayChange)).mode m =
          if m = n then (.logic, false) else s.mode m := by
        rw [State.mode_bayChanged, State.mode_enter]; rfl
      have wait : ((s.enter n .logic .policy).bayChanged n (some srcBayChange)).waiting = s.waiting := by
        rw [State.waiting_bayChanged, State.waiting_enter]
      have thermal : ((s.enter n .logic .policy).bayChanged n (some srcBayChange)).reports.thermal = s.reports.thermal := by
        rw [State.thermal_bayChanged, State.thermal_enter]
      generalize (s.enter n .logic .policy).bayChanged n (some srcBayChange) = t at mode wait thermal ⊢
      refine State.moved_of h n mode (fun m hm => ?_) (wait ▸ h.1) thermal (by rw [hm]; decide)
      rw [wait] at hm; exact ⟨fun e => out (e ▸ hm), hm⟩
    · left
      dsimp only
      have mode (m : BayNo) : (((s.enter n .logic .policy).enter n .queued .policy).setOp n (some (s.internalOp .spinUp))).mode m =
          if m = n then (.queued, false) else s.mode m := by
        rw [State.mode_setOp, State.mode_enter, State.bay_enter, if_pos rfl, State.mode_enter]
        split <;> rfl
      have wait : (((s.enter n .logic .policy).enter n .queued .policy).setOp n (some (s.internalOp .spinUp))).waiting = s.waiting := by
        rw [State.waiting_setOp, State.waiting_enter, State.waiting_enter]
      have thermal : (((s.enter n .logic .policy).enter n .queued .policy).setOp n (some (s.internalOp .spinUp))).reports.thermal =
          s.reports.thermal := by
        rw [State.thermal_setOp, State.thermal_enter, State.thermal_enter]
      generalize ((s.enter n .logic .policy).enter n .queued .policy).setOp n (some (s.internalOp .spinUp)) = u at mode wait thermal ⊢
      have perm := u.waiting_join (u.entryOf n none none)
      have mode' (m : BayNo) : ((u.join (u.entryOf n none none)).bayChanged n (some srcBayChange)).mode m =
          if m = n then (.queued, false) else s.mode m := by
        rw [State.mode_bayChanged, State.mode_join, mode]
      have thermal' : ((u.join (u.entryOf n none none)).bayChanged n (some srcBayChange)).reports.thermal = s.reports.thermal := by
        rw [State.thermal_bayChanged, State.thermal_join, thermal]
      rw [← State.waiting_bayChanged _ n (some srcBayChange), wait] at perm
      generalize (u.join (u.entryOf n none none)).bayChanged n (some srcBayChange) = t at mode' thermal' perm ⊢
      refine ⟨⟨perm.nodup_iff.2 (List.nodup_cons.2 ⟨out, h.1⟩), fun m hm => ?_⟩, thermal',
        State.unrest_lt n (fun m hm => by rw [mode', if_neg hm]) (by rw [mode', if_pos rfl, hm]; decide)⟩
      rw [mode']
      split
      · rfl
      · rename_i hne
        rw [perm.mem_iff, List.mem_cons] at hm
        exact h.2 m (hm.resolve_left hne)
  · exact .inr rfl

/-- One bay of the walk, no pass being due, moves a bay or changes nothing; no pass is due after it. -/
theorem State.walkBay_moved (h : s.lined) (quiet : s.reports.pass = false) (n : BayNo) :
    (Moved s (State.walkBay s n) ∨ State.walkBay s n = s) ∧ (State.walkBay s n).reports.pass = false := by
  unfold State.walkBay
  split
  · rename_i w
    refine ⟨?_, State.runPass_due _⟩
    have move := State.policyMove_moved h w.1 w.2.1
    generalize s.policyMove n = t at move ⊢
    obtain m | rfl := move
    · obtain k | ⟨l, u, r⟩ := State.runPass_moved m.lined
      · exact .inl (m.trans (.inl k))
      · exact .inl ⟨l, by rw [r]; exact m.thermal, by have := m.less; omega⟩
    · exact .inr (State.runPass_idle quiet)
  · exact ⟨.inr rfl, quiet⟩

theorem State.walkBays_moved (l : List BayNo) : ∀ {s : State}, s.lined → s.reports.pass = false →
    Moved s (l.foldl State.walkBay s) ∨ l.foldl State.walkBay s = s := by
  induction l with
  | nil => exact fun _ _ => .inr rfl
  | cons n l ih =>
    intro s h quiet
    rw [List.foldl_cons]
    obtain ⟨m | e, p⟩ := State.walkBay_moved h quiet n
    · obtain k | k := ih m.lined p
      · exact .inl (m.trans (.inl k))
      · rw [k]; exact .inl m
    · rw [e]; exact ih h quiet

/-- A 12 V shed of a spinning bay moves it. -/
theorem State.shed12_moved (h : s.lined) {n : BayNo} (k : ShedKind) (spins : (s.bay n).record.state.spinning = true) :
    Moved s (s.shed12 k n) := by
  have out : n ∉ s.waiting := fun hn => by
    have e : (s.bay n).record.state = .queued := h.2 n hn
    rw [e] at spins; cases spins
  have modes : ∃ r, (∀ m, (s.shed12 k n).mode m = if m = n then r else s.mode m) ∧ (r = (.off, false) ∨ r = (.logic, false)) := by
    unfold State.shed12; rw [if_pos spins]; dsimp only
    split
    · refine ⟨(.off, false), fun m => ?_, .inl rfl⟩
      rw [State.mode_endOpSlip, State.mode_bayChanged, State.mode_setFlags, State.bay_enter, if_pos rfl, State.mode_enter]
      split
      · cases k <;> simp [Bay.entering, ShedKind.flag, flagsEntering, State.bay_setOp, State.bay_enter]
      · rw [State.mode_setOp, State.mode_enter, if_neg (by assumption)]
    · refine ⟨(.logic, false), fun m => ?_, .inr rfl⟩
      rw [State.mode_endOpSlip, State.mode_bayChanged, State.mode_setOp, State.mode_enter]; rfl
  have wait : (s.shed12 k n).waiting = s.waiting := by
    unfold State.shed12; rw [if_pos spins]; dsimp only
    split
    · rw [State.waiting_endOpSlip, State.waiting_bayChanged, State.waiting_setFlags, State.waiting_enter, State.waiting_setOp,
        State.waiting_enter]
    · rw [State.waiting_endOpSlip, State.waiting_bayChanged, State.waiting_setOp, State.waiting_enter]
  have thermal : (s.shed12 k n).reports.thermal = s.reports.thermal := by
    unfold State.shed12; rw [if_pos spins]; dsimp only
    split
    · rw [State.thermal_endOpSlip, State.thermal_bayChanged, State.thermal_setFlags, State.thermal_enter, State.thermal_setOp,
        State.thermal_enter]
    · rw [State.thermal_endOpSlip, State.thermal_bayChanged, State.thermal_setOp, State.thermal_enter]
  obtain ⟨r, modes, left⟩ := modes
  generalize s.shed12 k n = t at modes wait thermal ⊢
  refine State.moved_of h n modes (fun m hm => ?_) (wait ▸ h.1) thermal (movesLeft_shed12 _ _ _ left spins)
  rw [wait] at hm; exact ⟨fun e => out (e ▸ hm), hm⟩

/-- A 5 V shed of a powered bay moves it. -/
theorem State.shed5_moved (h : s.lined) {n : BayNo} (on : (s.bay n).record.state.powered = true) : Moved s (s.shed5 n) := by
  have mode (m : BayNo) : (s.shed5 n).mode m = if m = n then (.off, (s.bay n).record.flags.wait5v) else s.mode m := by
    unfold State.shed5; rw [if_pos on]; dsimp only
    rw [State.mode_endOpSlip, State.mode_bayChanged, State.mode_setFlags]
    split
    · rw [State.bay_setOp, if_pos rfl, State.bay_enter, if_pos rfl, State.leave_eq]; rfl
    · rw [State.mode_setOp, State.mode_enter, if_neg (by assumption), State.mode_leave]
  have wait : (s.shed5 n).waiting = s.waiting.filter (· != n) := by
    unfold State.shed5; rw [if_pos on]; dsimp only
    rw [State.waiting_endOpSlip, State.waiting_bayChanged, State.waiting_setFlags, State.waiting_setOp, State.waiting_enter,
      State.waiting_leave]
  have thermal : (s.shed5 n).reports.thermal = s.reports.thermal := by
    unfold State.shed5; rw [if_pos on]; dsimp only
    rw [State.thermal_endOpSlip, State.thermal_bayChanged, State.thermal_setFlags, State.thermal_setOp, State.thermal_enter,
      State.thermal_leave]
  generalize s.shed5 n = t at mode wait thermal ⊢
  refine State.moved_of h n mode (fun m hm => ?_) (wait ▸ h.1.filter _) thermal (movesLeft_shed5 _ _ on)
  rw [wait, List.mem_filter] at hm; exact ⟨by simpa using hm.2, hm.1⟩

/-! ### Acting on reports ends -/

/-- What acting on reports uses up: four for each move left, more than an act makes reports, and one for each report. -/
def State.toDo (s : State) : Nat :=
  4 * s.unrest + s.reports.pass.toNat + s.reports.walk.toNat + s.reports.run.toNat + s.reports.thermal.length

theorem Moved.toDo {t : State} (h : Moved s t) : t.toDo < s.toDo := by
  have := h.less
  have e := congrArg List.length h.thermal
  have b (x : Bool) : x.toNat ≤ 1 := Bool.toNat_le x
  have := b t.reports.pass; have := b t.reports.walk; have := b t.reports.run
  unfold State.toDo; omega

theorem State.toDo_le (s : State) : s.toDo ≤ 1683 + s.reports.thermal.length := by
  have := s.unrest_le
  have b (x : Bool) : x.toNat ≤ 1 := Bool.toNat_le x
  have := b s.reports.pass; have := b s.reports.walk; have := b s.reports.run
  unfold State.toDo; omega

/-- The first bay of a list in the shed order is one of the list (R45). -/
theorem State.firstShed_mem {l : List BayNo} {n : BayNo} (h : s.firstShed l = some n) : n ∈ l := by
  have fold : ∀ (l : List BayNo) (best : Option BayNo), l.foldl (fun best n =>
      match best with
      | none => some n
      | some m => if s.shedKey m < s.shedKey n then some n else some m) best = some n → n ∈ l ∨ best = some n := by
    intro l
    induction l with
    | nil => exact fun _ h => .inr h
    | cons m l ih =>
      intro best h
      obtain h | h := ih _ h
      · exact .inl (List.mem_cons_of_mem _ h)
      · cases best with
        | none => exact .inl (Option.some.inj h ▸ List.mem_cons_self)
        | some k =>
          dsimp only at h
          split at h
          · exact .inl (Option.some.inj h ▸ List.mem_cons_self)
          · exact .inr h
  exact (fold l none h).resolve_right nofun

/-- A step of the shed run sheds a candidate, or ends the run (R44, R46). -/
theorem State.shedStep_moved (h : s.lined) :
    Moved s s.shedStep ∨ (s.shedStep.lined ∧ s.shedStep.unrest = s.unrest ∧ s.shedStep.reports = { s.reports with run := false }) := by
  unfold State.shedStep
  split
  · exact .inr ⟨h, rfl, rfl⟩
  · split
    · right
      unfold State.unresolvable
      split
      · exact ⟨h, rfl, rfl⟩
      · dsimp only; rw [State.pubSummaryIfAccount_eq]; exact ⟨h, rfl, rfl⟩
    · rename_i n hn
      left
      have c := State.firstShed_mem hn
      unfold State.shedCandidates at c
      have p := (Bool.and_eq_true_iff.1 (List.mem_filter.1 c).2).2
      generalize s.shedKind = k at p ⊢
      cases k with
      | power5 => exact State.shed5_moved h p
      | power12 => exact State.shed12_moved h .power12 p
      | thermal12 => exact State.shed12_moved h .thermal12 p

/-- Acting on one report uses up of what is to do (R37, R46). -/
theorem State.settleStep_less (h : s.lined) {t : State} (ht : s.settleStep = some t) : t.lined ∧ t.toDo < s.toDo := by
  unfold State.settleStep at ht
  split at ht
  · rename_i due
    obtain rfl := Option.some.inj ht
    obtain m | ⟨l, u, r⟩ := State.runPass_moved h
    · exact ⟨m.lined, m.toDo⟩
    · refine ⟨l, ?_⟩
      simp only [State.toDo, u, r, due, Bool.toNat_false, Bool.toNat_true]; omega
  · rename_i quiet
    split at ht
    · rename_i due
      obtain rfl := Option.some.inj ht
      have walk := State.walkBays_moved (s := { s with reports := { s.reports with walk := false } }) bayNumbers h (by simpa using quiet)
      have less : State.toDo { s with reports := { s.reports with walk := false } } < s.toDo := by
        have u : State.unrest { s with reports := { s.reports with walk := false } } = s.unrest := rfl
        simp only [State.toDo, u, due, Bool.toNat_false, Bool.toNat_true]; omega
      unfold State.wait5vWalk
      obtain m | e := walk
      · exact ⟨m.lined, m.toDo.trans less⟩
      · rw [e]; exact ⟨h, less⟩
    · split at ht
      · rename_i n rest hr
        obtain rfl := Option.some.inj ht
        have less : State.toDo { s with reports := { s.reports with thermal := rest } } < s.toDo := by
          have u : State.unrest { s with reports := { s.reports with thermal := rest } } = s.unrest := rfl
          simp only [State.toDo, u, hr, List.length_cons]; omega
        unfold State.thermalShed
        split
        · rename_i spins
          have m := State.shed12_moved (s := { s with reports := { s.reports with thermal := rest } }) (n := n) h .thermal12 (by
            obtain e | e := spins <;> rw [e] <;> rfl)
          exact ⟨m.lined, m.toDo.trans less⟩
        · exact ⟨h, less⟩
      · split at ht
        · rename_i due
          obtain rfl := Option.some.inj ht
          obtain m | ⟨l, u, r⟩ := State.shedStep_moved h
          · exact ⟨m.lined, m.toDo⟩
          · refine ⟨l, ?_⟩
            simp only [State.toDo, u, r, due, Bool.toNat_false, Bool.toNat_true]; omega
        · exact nomatch ht

/-- No report is left exactly where there is nothing to act on. -/
theorem State.quiet_iff : s.quiet ↔ s.settleStep = none := by
  unfold State.quiet State.settleStep
  cases s.reports.pass <;> cases s.reports.walk <;> cases s.reports.run <;> cases s.reports.thermal <;> simp

/-- With room for what is to do, acting on reports leaves none. -/
theorem State.settleLoop_ends (fuel : Nat) : ∀ {s : State}, s.lined → s.toDo ≤ fuel → (State.settleLoop fuel s).quiet := by
  induction fuel with
  | zero =>
    intro s _ h
    unfold State.settleLoop
    unfold State.toDo at h
    refine ⟨?_, ?_, ?_, List.length_eq_zero_iff.1 (by omega)⟩
    · cases e : s.reports.pass <;> simp_all
    · cases e : s.reports.walk <;> simp_all
    · cases e : s.reports.run <;> simp_all
  | succ k ih =>
    intro s h le
    unfold State.settleLoop
    split
    · rename_i e; exact State.quiet_iff.2 e
    · rename_i t e
      have less := State.settleStep_less h e
      exact ih less.1 (by omega)

/-- More room than that changes nothing. -/
theorem State.settleLoop_more (fuel : Nat) : ∀ {s : State}, s.lined → s.toDo ≤ fuel →
    State.settleLoop (fuel + 1) s = State.settleLoop fuel s := by
  induction fuel with
  | zero =>
    intro s h le
    have q := State.quiet_iff.1 (State.settleLoop_ends 0 h le)
    unfold State.settleLoop at q ⊢
    rw [q]
  | succ k ih =>
    intro s h le
    rw [State.settleLoop, State.settleLoop]
    split
    · rfl
    · rename_i t e
      have less := State.settleStep_less h e
      exact ih less.1 (by omega)

/-- A handling acts on every report it makes: none is left at its end (R37, R46, R63). -/
theorem State.settle_ends (h : s.lined) (le : s.reports.thermal.length ≤ 60) : s.settle.quiet := by
  refine State.settleLoop_ends settleFuel h ?_
  have := s.toDo_le
  unfold settleFuel; omega

/-- Acting on reports is acting on one and then on the rest. -/
theorem State.settle_step (h : s.lined) (le : s.reports.thermal.length ≤ 60) {t : State} (ht : s.settleStep = some t) :
    s.settle = t.settle := by
  have less := State.settleStep_less h ht
  have := s.toDo_le
  unfold State.settle settleFuel
  rw [State.settleLoop, ht]
  exact (State.settleLoop_more 3999 less.1 (by omega)).symm

end Sys2Proof.Machine
end

