-- ==== Sys2Proof/Laws/Memory.lean ====
section
/-! SUPPORT. What memory operations do: a byte read after a write, and the canonical form that every one of them keeps. -/

namespace Sys2Proof.Machine

/-! ### Reading after writing -/

/-- A byte written is the byte read. -/
@[simp] theorem Memory.read_write_same (m : Memory) (a : Nat) (v : Byte) : Memory.read (Memory.write m a v) a = v := by
  induction m with
  | nil =>
    by_cases hv : v = Memory.unlisted
    · simp [Memory.write, Memory.read, hv]
    · simp [Memory.write, Memory.read, hv]
  | cons c t ih =>
    obtain ⟨k, w⟩ := c
    by_cases hv : v = Memory.unlisted
    · by_cases hk : k = a
      · simp only [Memory.write, hv, hk, if_true]; rw [hv] at ih; exact ih
      · simp only [Memory.write, hv, hk, if_true, if_false, Memory.read]; rw [hv] at ih; exact ih
    · by_cases hlt : k < a
      · have hk : k ≠ a := by omega
        simp only [Memory.write, hv, hlt, if_true, if_false, Memory.read, hk]; exact ih
      · by_cases hk : k = a <;> simp [Memory.write, Memory.read, hv, hlt, hk]

/-- A write leaves every other byte as it read. -/
theorem Memory.read_write_other (m : Memory) (a b : Nat) (v : Byte) (h : b ≠ a) :
    Memory.read (Memory.write m a v) b = Memory.read m b := by
  have ha : a ≠ b := fun e => h e.symm
  induction m with
  | nil => by_cases hv : v = Memory.unlisted <;> simp [Memory.write, Memory.read, hv, ha]
  | cons c t ih =>
    obtain ⟨k, w⟩ := c
    by_cases hv : v = Memory.unlisted
    · subst hv
      by_cases hk : k = a
      · subst hk; simp only [Memory.write, if_true, Memory.read, ha, if_false]; exact ih
      · simp only [Memory.write, hk, if_true, if_false, Memory.read, ih]
    · by_cases hlt : k < a
      · by_cases hb : k = b <;> simp [Memory.write, Memory.read, hv, hlt, hb, ih] <;> split <;> simp_all [Memory.read]
      · by_cases hk : k = a
        · subst hk; simp [Memory.write, Memory.read, hv, ha]
        · simp [Memory.write, Memory.read, hv, hlt, hk, ha]

/-- A byte after one write, whichever byte it is. -/
theorem Memory.read_write (m : Memory) (a b : Nat) (v : Byte) :
    Memory.read (Memory.write m a v) b = if b = a then v else Memory.read m b := by
  by_cases h : b = a
  · subst h; simp
  · simp [h, Memory.read_write_other]

/-- A byte after a run of writes: the run's byte within the run, the old byte elsewhere. -/
theorem Memory.read_writeRun (l : List Byte) (m : Memory) (a b : Nat) :
    Memory.read (Memory.writeRun m a l) b = if a ≤ b ∧ b < a + l.length then l.getD (b - a) 0 else Memory.read m b := by
  induction l generalizing m a with
  | nil => simp [Memory.writeRun]
  | cons v t ih =>
    rw [Memory.writeRun, ih, Memory.read_write]
    by_cases h1 : b = a
    · subst h1; simp
    · by_cases h2 : a + 1 ≤ b ∧ b < a + 1 + t.length
      · have h3 : a ≤ b ∧ b < a + (v :: t).length := by simp only [List.length_cons]; omega
        have h4 : b - a = (b - (a + 1)) + 1 := by omega
        simp only [h2, h3, and_self, if_true, h4, List.getD_cons_succ]
      · have h3 : ¬ (a ≤ b ∧ b < a + (v :: t).length) := by simp only [List.length_cons]; omega
        simp only [h2, h3, if_false, h1]

/-- A cleared range reads 0x00; every other byte reads as before. -/
theorem Memory.read_clear (m : Memory) (base size b : Nat) :
    Memory.read (Memory.clear m base size) b = if base ≤ b ∧ b < base + size then 0 else Memory.read m b := by
  induction m with
  | nil => simp [Memory.clear, Memory.read, Memory.unlisted]
  | cons c t ih =>
    obtain ⟨k, w⟩ := c
    simp only [Memory.clear, List.filter_cons] at ih ⊢
    by_cases hk : base ≤ k ∧ k < base + size
    · have : (!(decide (base ≤ k) && decide (k < base + size))) = false := by simp [hk]
      rw [this]; simp only [Bool.false_eq_true, if_false]; rw [ih]
      by_cases hb : base ≤ b ∧ b < base + size
      · simp [hb]
      · have : k ≠ b := by rintro rfl; exact hb hk
        simp [hb, Memory.read, this]
    · have : (!(decide (base ≤ k) && decide (k < base + size))) = true := by
        simp only [Bool.not_eq_true', Bool.and_eq_false_iff, decide_eq_false_iff_not]; omega
      rw [this]; simp only [if_true, Memory.read]
      by_cases hb : k = b
      · subst hb; simp [hk]
      · simp only [hb, if_false, ih]

/-! ### The canonical form -/

/-- A memory with nothing listed has the canonical form. -/
theorem Memory.wf_nil : Memory.wf [] := by simp [Memory.wf]

/-- Every address a write lists is the written one or was listed before. -/
theorem Memory.mem_write (m : Memory) (a : Nat) (v : Byte) (c : Host.Cell) (h : c ∈ Memory.write m a v) :
    (c = (a, v) ∧ v ≠ Memory.unlisted) ∨ c ∈ m := by
  induction m with
  | nil => by_cases hv : v = Memory.unlisted <;> simp_all [Memory.write]
  | cons d t ih =>
    obtain ⟨k, w⟩ := d
    simp only [Memory.write] at h
    split at h
    · split at h
      · exact (ih h).imp_right (List.mem_cons_of_mem _)
      · rcases List.mem_cons.1 h with h | h
        · exact .inr (by simp [h])
        · exact (ih h).imp_right (List.mem_cons_of_mem _)
    · rename_i hv
      split at h
      · rcases List.mem_cons.1 h with h | h
        · exact .inr (by simp [h])
        · exact (ih h).imp_right (List.mem_cons_of_mem _)
      · split at h
        · rcases List.mem_cons.1 h with h | h
          · exact .inl ⟨h, hv⟩
          · exact .inr (List.mem_cons_of_mem _ h)
        · rcases List.mem_cons.1 h with h | h
          · exact .inl ⟨h, hv⟩
          · exact .inr h

/-- A write lists no byte that an unlisted address reads as, if none was listed. -/
theorem Memory.listed_write (m : Memory) (a : Nat) (v : Byte) (hm : ∀ c ∈ m, c.2 ≠ Memory.unlisted) :
    ∀ c ∈ Memory.write m a v, c.2 ≠ Memory.unlisted := by
  induction m with
  | nil =>
    intro c hc
    by_cases hv : v = Memory.unlisted
    · simp [Memory.write, hv] at hc
    · simp only [Memory.write, hv, if_false, List.mem_singleton] at hc; simp [hc, hv]
  | cons d t ih =>
    obtain ⟨k, w⟩ := d
    have hw : w ≠ Memory.unlisted := hm _ (List.mem_cons_self ..)
    have ht := ih fun c h => hm c (List.mem_cons_of_mem _ h)
    intro c hc
    simp only [Memory.write] at hc
    split at hc
    · split at hc
      · exact ht c hc
      · rcases List.mem_cons.1 hc with h | h
        · simpa [h] using hw
        · exact ht c h
    · rename_i hv
      rcases Memory.mem_write ((k, w) :: t) a v c (by simpa [Memory.write, hv] using hc) with h | h
      · simp [h.1, hv]
      · exact hm c h

/-- A write keeps the canonical form. -/
theorem Memory.wf_write (m : Memory) (a : Nat) (v : Byte) (h : Memory.wf m) : Memory.wf (Memory.write m a v) := by
  refine ⟨?_, Memory.listed_write m a v h.2⟩
  have hp := h.1
  clear h
  induction m with
  | nil => by_cases hv : v = Memory.unlisted <;> simp [Memory.write, hv]
  | cons d t ih =>
    obtain ⟨k, w⟩ := d
    obtain ⟨hk, ht⟩ := List.pairwise_cons.1 hp
    have hr := ih ht
    simp only [Memory.write]
    split
    · split
      · exact hr
      · rename_i hv _
        refine List.pairwise_cons.2 ⟨fun c hc => ?_, hr⟩
        rcases Memory.mem_write t a v c hc with h | h
        · exact absurd hv h.2
        · exact hk c h
    · split
      · rename_i hlt
        refine List.pairwise_cons.2 ⟨fun c hc => ?_, hr⟩
        rcases Memory.mem_write t a v c hc with h | h
        · simpa [h.1] using hlt
        · exact hk c h
      · split
        · rename_i _ he
          exact List.pairwise_cons.2 ⟨fun c hc => by simpa [← he] using hk c hc, ht⟩
        · rename_i h1 h2
          have hlt : a < k := by omega
          refine List.pairwise_cons.2 ⟨fun c hc => ?_, hp⟩
          rcases List.mem_cons.1 hc with h | h
          · simpa [h] using hlt
          · exact Nat.lt_trans hlt (hk c h)

/-- A run of writes keeps the canonical form. -/
theorem Memory.wf_writeRun (l : List Byte) (m : Memory) (a : Nat) (h : Memory.wf m) : Memory.wf (Memory.writeRun m a l) := by
  induction l generalizing m a with
  | nil => exact h
  | cons v t ih => exact ih _ _ (Memory.wf_write m a v h)

/-- Clearing a range keeps the canonical form. -/
theorem Memory.wf_clear (m : Memory) (base size : Nat) (h : Memory.wf m) : Memory.wf (Memory.clear m base size) :=
  ⟨h.1.filter _, fun c hc => h.2 c (List.mem_filter.1 hc).1⟩

/-- The end fields of a slip keep the canonical form. -/
theorem wf_writeEnd (addr : Nat) (o : SlipOutcome) (flags : Byte) (result : Option (List Byte)) (now : Time) (m : Memory)
    (h : Memory.wf m) : Memory.wf (writeEnd addr o flags result now m) := by
  cases result <;> exact Memory.wf_write _ _ _ (Memory.wf_writeRun _ _ _ (by first | exact h | exact Memory.wf_writeRun _ _ _ h))

/-- The first writes of a store keep the canonical form. -/
theorem Memory.wf_afterWrites (m : Memory) (image : List Byte) (k : Nat) (h : Memory.wf m) :
    Memory.wf (Memory.afterWrites m image k) := by
  unfold Memory.afterWrites
  generalize (storeWrites image).take k = l
  induction l generalizing m with
  | nil => exact h
  | cons w t ih => exact ih _ (Memory.wf_write m w.1 w.2 h)

/-- The memories of the machine right after reset list nothing, and so have the canonical form. -/
theorem reset_memories_wf : Memory.wf State.reset.ram ∧ Memory.wf State.reset.settingsMem := ⟨Memory.wf_nil, Memory.wf_nil⟩

end Sys2Proof.Machine
end

