-- ==== Sys2Proof/Laws/Operands.lean ====
section
/-! SUPPORT. What the clamps of the SET commands make of a given value and of one left as it is, and of the account, limits and fan
settings as a whole (R50, R98, R122). -/

namespace Sys2Proof.Machine

/-! ### One value -/

@[simp] theorem givenHalf_none (lo hi now : Nat) : givenHalf lo hi now none = (now, false) := rfl
@[simp] theorem givenHalf_some (lo hi now : Nat) (v : Half) :
    givenHalf lo hi now (some v) = (max lo (min hi v.toNat), decide (v.toNat < lo ∨ hi < v.toNat)) := rfl
@[simp] theorem givenByte_none (lo hi now : Nat) : givenByte lo hi now none = (now, false) := rfl
@[simp] theorem givenByte_some (lo hi now : Nat) (v : Byte) :
    givenByte lo hi now (some v) = (max lo (min hi v.toNat), decide (v.toNat < lo ∨ hi < v.toNat)) := rfl

/-- A two-byte value whose range is all of it is stored as given. -/
theorem givenHalf_whole (now : Nat) (x : Option Half) :
    givenHalf 0 65535 now x = ((match x with | none => now | some v => v.toNat), false) := by
  rcases x with _ | v
  · rfl
  · have h := v.isLt
    simp only [givenHalf_some, Prod.mk.injEq, decide_eq_false_iff_not]
    omega

/-- A value with a greatest and no least. -/
theorem givenByte_upto (hi now : Nat) (x : Option Byte) :
    givenByte 0 hi now x =
      ((match x with | none => now | some v => min hi v.toNat), (match x with | none => false | some v => decide (hi < v.toNat))) := by
  cases x <;> simp
/-- The same of a two-byte value. -/
theorem givenHalf_upto (hi now : Nat) (x : Option Half) :
    givenHalf 0 hi now x =
      ((match x with | none => now | some v => min hi v.toNat), (match x with | none => false | some v => decide (hi < v.toNat))) := by
  cases x <;> simp

/-- A flag byte clamped to 1 is 0 exactly when it was 0. -/
theorem min_one_toNat (v : Byte) : min 1 v.toNat = if v = 0 then 0 else 1 := by
  split
  · rename_i h; subst h; rfl
  · rename_i h
    have : v.toNat ≠ 0 := fun e => h (BitVec.eq_of_toNat_eq e)
    omega

/-! ### The settings of a whole command -/

/-- SET_SUPPLY's account settings, value by value (R50). -/
theorem AccountSettings.apply_eq (a : SetAccountArgs) (c : AccountSettings) :
    AccountSettings.apply a c =
      ({ mode := match a.mode with | none => c.mode | some v => if v = 0 then .combined else .spareOne
         reserve12 := match a.reserve12 with | none => c.reserve12 | some v => v.toNat
         reserve5 := match a.reserve5 with | none => c.reserve5 | some v => v.toNat
         shed := match a.shed with | none => c.shed | some v => decide (v ≠ 0)
         delay := match a.delay with | none => c.delay | some v => min 10 v.toNat },
       (match a.mode with | none => false | some v => decide (1 < v.toNat)) ||
         (match a.shed with | none => false | some v => decide (1 < v.toNat)) ||
         (match a.delay with | none => false | some v => decide (10 < v.toNat))) := by
  obtain ⟨m, r12, r5, sh, d⟩ := a
  obtain ⟨mode, shed⟩ : ((AccountSettings.apply ⟨m, r12, r5, sh, d⟩ c).1.mode =
        match m with | none => c.mode | some v => if v = 0 then .combined else .spareOne) ∧
      (AccountSettings.apply ⟨m, r12, r5, sh, d⟩ c).1.shed = match sh with | none => c.shed | some v => decide (v ≠ 0) := by
    constructor
    · rcases m with _ | v
      · rcases c with ⟨_ | _, _, _, _, _⟩ <;> rfl
      · simp only [AccountSettings.apply, givenByte_upto, min_one_toNat]; split <;> rfl
    · rcases sh with _ | v
      · rcases c with ⟨_, _, _, _ | _, _⟩ <;> rfl
      · simp only [AccountSettings.apply, givenByte_upto, min_one_toNat]
        split
        · rename_i h; subst h; rfl
        · rename_i h; exact (decide_eq_true h).symm
  simp only [AccountSettings.apply, givenHalf_whole, givenByte_upto] at mode shed ⊢
  rw [mode, shed]

/-- SET_ZONE's limits, value by value (R98). -/
theorem ZoneLimits.apply_eq (a : SetLimitsArgs) (l : ZoneLimits) :
    let temp (now : Int) : Option Byte → Int := fun | none => now | some b => if 190 < b.toNat then 150 else (b.toNat : Int) - 40
    let small (hi now : Nat) : Option Byte → Nat := fun | none => now | some v => min hi v.toNat
    let wide (hi now : Nat) : Option Half → Nat := fun | none => now | some v => min hi v.toNat
    let beyond (hi : Nat) : Option Byte → Bool := fun | none => false | some v => decide (hi < v.toNat)
    let past (hi : Nat) : Option Half → Bool := fun | none => false | some v => decide (hi < v.toNat)
    ZoneLimits.apply a l =
      ({ h := small 10 l.h a.h, ceiling := temp l.ceiling a.ceiling, critical := temp l.critical a.critical
         v := small 200 l.v a.v, staleFloor := wide 1000 l.staleFloor a.staleFloor, shedTime := wide 600 l.shedTime a.shedTime },
       beyond 10 a.h || beyond 190 a.ceiling || beyond 190 a.critical || beyond 200 a.v || past 1000 a.staleFloor ||
         past 600 a.shedTime) := by
  have temp : ∀ (now : Int) (x : Option Byte),
      givenTemp now x =
        ((match x with | none => now | some b => if 190 < b.toNat then 150 else (b.toNat : Int) - 40),
          (match x with | none => false | some b => decide (190 < b.toNat))) := by
    intro now x
    rcases x with _ | b
    · rfl
    · simp only [givenTemp, byteTemp]; split <;> simp [*]
  simp only [ZoneLimits.apply, temp, givenByte_upto, givenHalf_upto]

/-- SET_FANS's settings, value by value (R122). -/
theorem FanSettings.apply_eq (a : SetFansArgs) (f : FanSettings) :
    let within (lo hi now : Nat) : Option Half → Nat := fun | none => now | some v => max lo (min hi v.toNat)
    let beyond (lo hi : Nat) : Option Half → Bool := fun | none => false | some v => decide (v.toNat < lo ∨ hi < v.toNat)
    let maxCur := within 0 65535 f.maxCur a.maxCur
    let idle := within 0 65535 f.idle a.idle
    FanSettings.apply a f =
      ({ count := match a.count with | none => f.count | some v => max 1 (min 6 v.toNat)
         maxRpm := within 1000 30000 f.maxRpm a.maxRpm
         idle := min idle maxCur
         maxCur := maxCur
         dmin := within 100 600 f.dmin a.dmin
         slewUp := within 10 1000 f.slewUp a.slewUp
         slewDown := within 10 1000 f.slewDown a.slewDown
         reserve := within 0 1000 f.reserve a.reserve },
       (match a.count with | none => false | some v => decide (v.toNat < 1 ∨ 6 < v.toNat)) || beyond 1000 30000 a.maxRpm ||
         beyond 100 600 a.dmin || beyond 10 1000 a.slewUp || beyond 10 1000 a.slewDown || beyond 0 1000 a.reserve ||
         decide (maxCur < idle)) := by
  have byte : ∀ (lo hi now : Nat) (x : Option Byte),
      givenByte lo hi now x = ((match x with | none => now | some v => max lo (min hi v.toNat)),
        (match x with | none => false | some v => decide (v.toNat < lo ∨ hi < v.toNat))) := by intro lo hi now x; cases x <;> rfl
  have half : ∀ (lo hi now : Nat) (x : Option Half),
      givenHalf lo hi now x = ((match x with | none => now | some v => max lo (min hi v.toNat)),
        (match x with | none => false | some v => decide (v.toNat < lo ∨ hi < v.toNat))) := by intro lo hi now x; cases x <;> rfl
  simp only [FanSettings.apply, byte, half]

end Sys2Proof.Machine
end

