-- ==== Sys2Proof/Laws/Published.lean ====
section
/-! SUPPORT. What one publication does to the status area: the record it writes stands as its owner holds it, and its position is set in both
ports' change bitmaps (R166, R168). -/

namespace Sys2Proof.Machine

/-! ### Change bitmaps -/

/-- From s to t no position is cleared, and every record that stands otherwise is marked (R168): what every handling but a READ of a bitmap
does to the status area. -/
def Status.carried (s t : Status) : Prop :=
  s.marked t ∧ ∀ p k, (s.bitmaps.get p).getLsbD k = true → (t.bitmaps.get p).getLsbD k = true

theorem Status.carried_refl (s : Status) : s.carried s :=
  ⟨⟨fun _ h => absurd rfl h, fun _ h => absurd rfl h, fun _ h => absurd rfl h, fun _ h => absurd rfl h, fun _ h => absurd rfl h,
    fun _ h => absurd rfl h, fun h => absurd rfl h, fun h => absurd rfl h, fun h => absurd rfl h, fun _ h => absurd rfl h,
    fun _ h => absurd rfl h, fun _ _ _ _ h => h⟩, fun _ _ h => h⟩

theorem Status.carried_marks {t u : Status} (h : t.carried u) {k : Nat} (m : t.marks k) : u.marks k := ⟨h.2 .a k m.1, h.2 .b k m.2⟩

/-- Handlings follow one another. -/
theorem Status.carried_trans {s t u : Status} (h : s.carried t) (g : t.carried u) : s.carried u := by
  have key : ∀ {α : Type} (x y z : α) (k : Nat), (y ≠ x → t.marks k) → (z ≠ y → u.marks k) → z ≠ x → u.marks k := by
    intro α x y z k hy hz hx
    by_cases e : z = y
    · exact Status.carried_marks g (hy fun e' => hx (e.trans e'))
    · exact hz e
  exact ⟨⟨fun n => key _ _ _ _ (h.1.bays n) (g.1.bays n), fun n => key _ _ _ _ (h.1.lights n) (g.1.lights n),
    fun i => key _ _ _ _ (h.1.fans i) (g.1.fans i), fun i => key _ _ _ _ (h.1.supplies i) (g.1.supplies i),
    fun i => key _ _ _ _ (h.1.zones i) (g.1.zones i), fun i => key _ _ _ _ (h.1.sensors i) (g.1.sensors i),
    key _ _ _ _ h.1.summary g.1.summary, key _ _ _ _ h.1.queue g.1.queue, key _ _ _ _ h.1.enclosure g.1.enclosure,
    fun p => key _ _ _ _ (h.1.readers p) (g.1.readers p), fun p => key _ _ _ _ (h.1.attention p) (g.1.attention p),
    fun p k a b c => h.1.spare p k a b (g.1.spare p k a b c)⟩, fun p k b => g.2 p k (h.2 p k b)⟩

/-- A step of the status area that sets position k in both bitmaps, and writes records of that position alone. -/
theorem Status.carried_of {s t : Status} {k : Nat} (hk : k < 80) (hs : k < 60 ∨ 64 ≤ k)
    (bits : t.bitmaps = ⟨s.bitmaps.a ||| BitVec.twoPow 80 k, s.bitmaps.b ||| BitVec.twoPow 80 k⟩)
    (bays : ∀ n : BayNo, t.bays[n] ≠ s.bays[n] → n.val = k) (lights : ∀ n : BayNo, t.lights[n] ≠ s.lights[n] → n.val = k)
    (fans : ∀ i : Fin 6, t.fans[i] ≠ s.fans[i] → 64 + i.val = k) (supplies : ∀ i : Fin 4, t.supplies[i] ≠ s.supplies[i] → 70 + i.val = k)
    (zones : ∀ z : Fin 4, t.zones[z] ≠ s.zones[z] → 74 + z.val = k) (sensors : ∀ i : Fin 8, t.sensors[i] ≠ s.sensors[i] → 78 = k)
    (rest : k ≠ 79 → t.summary = s.summary ∧ t.queue = s.queue ∧ t.enclosure = s.enclosure ∧ t.readers = s.readers ∧
      t.attention = s.attention) : s.carried t := by
  have bit : ∀ p j, (t.bitmaps.get p).getLsbD j = ((s.bitmaps.get p).getLsbD j || decide (j < 80 ∧ j = k)) := by
    intro p j
    rw [bits]
    cases p <;> simp [PerPort.get, BitVec.getLsbD_twoPow] <;> grind
  have m : t.marks k := by
    have h := fun p => bit p k
    simp only [hk, true_and, decide_true, Bool.or_true] at h
    exact ⟨h .a, h .b⟩
  have at79 : ∀ q : Prop, (k ≠ 79 → q) → ¬ q → t.marks 79 := by
    intro q h nq
    by_cases e : k = 79
    · exact e ▸ m
    · exact absurd (h e) nq
  refine ⟨⟨fun n h => bays n h ▸ m, fun n h => lights n h ▸ m, fun i h => fans i h ▸ m, fun i h => supplies i h ▸ m,
    fun z h => zones z h ▸ m, fun i h => sensors i h ▸ m, at79 _ fun e => (rest e).1, at79 _ fun e => (rest e).2.1,
    at79 _ fun e => (rest e).2.2.1, fun p => at79 _ fun e => by rw [(rest e).2.2.2.1], fun p => at79 _ fun e => by rw [(rest e).2.2.2.2],
    ?_⟩, ?_⟩
  · intro p j a b h
    rw [bit] at h
    have : ¬ (j < 80 ∧ j = k) := by omega
    simpa [this] using h
  · intro p j h
    rw [bit, h, Bool.true_or]

/-- Writing one element moves that element alone. -/
theorem set_moves {α : Type} {n : Nat} (v : Vector α n) (i j : Fin n) (x : α) (h : (v.set i x)[j] ≠ v[j]) : j.val = i.val := by
  by_cases e : i.val = j.val
  · exact e.symm
  · exact absurd (Vector.getElem_set_ne _ _ e) h

/-! ### Each publication -/

variable (s : State)

theorem State.pubBay_carried (n : BayNo) : s.status.carried (s.pubBay n).status := by
  unfold State.pubBay; dsimp only; split
  · exact Status.carried_refl _
  · exact Status.carried_of (k := n.val) (by omega) (by omega) rfl (fun m h => set_moves _ _ m _ h) (fun _ h => absurd rfl h)
      (fun _ h => absurd rfl h) (fun _ h => absurd rfl h) (fun _ h => absurd rfl h) (fun _ h => absurd rfl h)
      fun _ => ⟨rfl, rfl, rfl, rfl, rfl⟩
theorem State.pubLight_carried (n : BayNo) : s.status.carried (s.pubLight n).status := by
  unfold State.pubLight; dsimp only; split
  · exact Status.carried_refl _
  · exact Status.carried_of (k := n.val) (by omega) (by omega) rfl (fun _ h => absurd rfl h) (fun m h => set_moves _ _ m _ h)
      (fun _ h => absurd rfl h) (fun _ h => absurd rfl h) (fun _ h => absurd rfl h) (fun _ h => absurd rfl h)
      fun _ => ⟨rfl, rfl, rfl, rfl, rfl⟩
theorem State.pubFan_carried (i : Fin 6) : s.status.carried (s.pubFan i).status := by
  unfold State.pubFan; dsimp only; split
  · exact Status.carried_refl _
  · exact Status.carried_of (k := 64 + i.val) (by omega) (by omega) rfl (fun _ h => absurd rfl h) (fun _ h => absurd rfl h)
      (fun m h => congrArg _ (set_moves _ _ m _ h)) (fun _ h => absurd rfl h) (fun _ h => absurd rfl h) (fun _ h => absurd rfl h)
      fun _ => ⟨rfl, rfl, rfl, rfl, rfl⟩
theorem State.pubSupply_carried (i : Fin 4) : s.status.carried (s.pubSupply i).status := by
  unfold State.pubSupply; dsimp only; split
  · exact Status.carried_refl _
  · exact Status.carried_of (k := 64 + (6 + i.val)) (by omega) (by omega) rfl (fun _ h => absurd rfl h) (fun _ h => absurd rfl h)
      (fun _ h => absurd rfl h) (fun m h => by have := set_moves _ _ m _ h; omega) (fun _ h => absurd rfl h) (fun _ h => absurd rfl h)
      fun _ => ⟨rfl, rfl, rfl, rfl, rfl⟩
theorem State.pubZone_carried (z : Fin 4) : s.status.carried (s.pubZone z).status := by
  unfold State.pubZone; dsimp only; split
  · exact Status.carried_refl _
  · exact Status.carried_of (k := 64 + (10 + z.val)) (by omega) (by omega) rfl (fun _ h => absurd rfl h) (fun _ h => absurd rfl h)
      (fun _ h => absurd rfl h) (fun _ h => absurd rfl h) (fun m h => by have := set_moves _ _ m _ h; omega) (fun _ h => absurd rfl h)
      fun _ => ⟨rfl, rfl, rfl, rfl, rfl⟩
theorem State.republishSensor_carried (i : Fin 8) : s.status.carried (s.republishSensor i).status := by
  unfold State.republishSensor; split
  · exact Status.carried_refl _
  · exact Status.carried_of (k := 64 + 14) (by omega) (by omega) rfl (fun _ h => absurd rfl h) (fun _ h => absurd rfl h)
      (fun _ h => absurd rfl h) (fun _ h => absurd rfl h) (fun _ h => absurd rfl h) (fun _ _ => rfl) fun _ => ⟨rfl, rfl, rfl, rfl, rfl⟩
theorem State.pubSensor_carried (i : Fin 8) : s.status.carried (s.pubSensor i).status := by
  unfold State.pubSensor; dsimp only; split
  · exact Status.carried_refl _
  · exact s.republishSensor_carried i

/-- A step of the status area that sets the summary position and writes records of that position alone. -/
theorem Status.carried_at79 {s t : Status} (bits : t.bitmaps = ⟨s.bitmaps.a ||| BitVec.twoPow 80 79, s.bitmaps.b ||| BitVec.twoPow 80 79⟩)
    (bays : t.bays = s.bays) (lights : t.lights = s.lights) (fans : t.fans = s.fans) (supplies : t.supplies = s.supplies)
    (zones : t.zones = s.zones) (sensors : t.sensors = s.sensors) : s.carried t :=
  Status.carried_of (k := 79) (by omega) (by omega) bits (fun _ h => absurd (by rw [bays]) h) (fun _ h => absurd (by rw [lights]) h)
    (fun _ h => absurd (by rw [fans]) h) (fun _ h => absurd (by rw [supplies]) h) (fun _ h => absurd (by rw [zones]) h)
    (fun _ h => absurd (by rw [sensors]) h) fun h => absurd rfl h

theorem State.pubSummary_carried : s.status.carried s.pubSummary.status := by
  unfold State.pubSummary; split
  · exact Status.carried_refl _
  · exact Status.carried_at79 rfl rfl rfl rfl rfl rfl rfl
theorem State.pubSummaryIfChanged_carried : s.status.carried s.pubSummaryIfChanged.status := by
  unfold State.pubSummaryIfChanged; split
  · exact Status.carried_refl _
  · exact s.pubSummary_carried
theorem State.pubSummaryIfAccount_carried : s.status.carried s.pubSummaryIfAccount.status := by
  unfold State.pubSummaryIfAccount; split
  · exact Status.carried_refl _
  · exact s.pubSummary_carried
theorem State.pubQueue_carried : s.status.carried s.pubQueue.status := by
  unfold State.pubQueue; split
  · exact Status.carried_refl _
  · exact Status.carried_at79 rfl rfl rfl rfl rfl rfl rfl
theorem State.pubEnclosure_carried : s.status.carried s.pubEnclosure.status := by
  unfold State.pubEnclosure; dsimp only; split
  · exact Status.carried_refl _
  · exact Status.carried_at79 rfl rfl rfl rfl rfl rfl rfl
theorem State.republishReader_carried (p : Port) : s.status.carried (s.republishReader p).status := by
  unfold State.republishReader; split
  · exact Status.carried_refl _
  · exact Status.carried_at79 rfl rfl rfl rfl rfl rfl rfl
theorem State.pubReader_carried (p : Port) : s.status.carried (s.pubReader p).status := by
  unfold State.pubReader; split
  · exact Status.carried_refl _
  · exact s.republishReader_carried p
theorem State.republishAttention_carried (p : Port) : s.status.carried (s.republishAttention p).status := by
  unfold State.republishAttention; split
  · exact Status.carried_refl _
  · exact Status.carried_at79 rfl rfl rfl rfl rfl rfl rfl
theorem State.pubAttention_carried (p : Port) : s.status.carried (s.pubAttention p).status := by
  unfold State.pubAttention; split
  · exact Status.carried_refl _
  · exact s.republishAttention_carried p

/-! ### The record stands as its owner holds it -/

variable {s}

theorem State.publishing_running (h : s.phase = .running) : s.publishing = true := by simp [State.publishing, h]

theorem State.pubFan_shown (h : s.phase = .running) (i : Fin 6) : (s.pubFan i).status.fans[i] = some (s.pubFan i).fans.fans[i].record := by
  unfold State.pubFan; dsimp only; split
  · rename_i c; exact c.resolve_left (by simp [State.publishing_running h])
  · simp [State.mark]
theorem State.pubSupply_shown (h : s.phase = .running) (i : Fin 4) :
    (s.pubSupply i).status.supplies[i] = some { supply := (s.pubSupply i).account.supplies[i], set := s.settings.supplies[i] } := by
  unfold State.pubSupply; dsimp only; split
  · rename_i c; exact c.resolve_left (by simp [State.publishing_running h])
  · simp [State.mark]
theorem State.pubZone_shown (h : s.phase = .running) (z : Fin 4) : (s.pubZone z).status.zones[z] =
    some { zone := (s.pubZone z).zones[z], set := s.settings.zones[z], staleTime := s.settings.staleTime } := by
  unfold State.pubZone; dsimp only; split
  · rename_i c; exact c.resolve_left (by simp [State.publishing_running h])
  · simp [State.mark]
theorem State.pubQueue_shown (h : s.phase = .running) : s.pubQueue.status.queue =
    some { bays := s.scheduler.queue.map (·.bay), hold := s.scheduler.hold, schedule := s.settings.schedule,
           last := s.scheduler.lastAdmission, gen := s.pubQueue.scheduler.gen } := by
  unfold State.pubQueue; rw [if_neg (by simp [State.publishing_running h])]; rfl
theorem State.pubReader_shown (h : s.phase = .running) (p : Port) :
    (s.pubReader p).status.readers.get p = some ((s.pubReader p).reader p) := by
  unfold State.pubReader; split
  · assumption
  · unfold State.republishReader; rw [if_neg (by simp [State.publishing_running h])]; cases p <;> rfl
theorem State.republishAttention_shown (h : s.publishing = true) (p : Port) : (s.republishAttention p).status.attention.get p =
    some { unit := (s.republishAttention p).attention.get p, config := s.settings.attention.get p } := by
  unfold State.republishAttention; rw [if_neg (by simp [h])]; cases p <;> rfl
theorem State.pubAttention_shown (h : s.phase = .running) (p : Port) : (s.pubAttention p).status.attention.get p =
    some { unit := (s.pubAttention p).attention.get p, config := s.settings.attention.get p } := by
  unfold State.pubAttention; split
  · assumption
  · exact State.republishAttention_shown (State.publishing_running h) p

/-- Step 3 of a port reset clears its port's Attention Unit and republishes its record, whatever stood in it: its next generation where it
was published before, published as the unit now stands, position 79 marked in both bitmaps (R164, R166, R175). -/
theorem State.clearAttention_republished (h : s.publishing = true) (p : Port) :
    let t := s.clearAttention p
    t = { s with attention := t.attention, status := t.status } ∧
      (t.attention.get p).pending = Vector.replicate 8 false ∧ (t.attention.get p).inService = 0 ∧
      (t.attention.get p).gen = nextGen (s.status.attention.get p) (s.attention.get p).gen ∧
      t.attention.get (Port.other p) = s.attention.get (Port.other p) ∧
      t.status.attention.get p = some { unit := t.attention.get p, config := s.settings.attention.get p } ∧ t.status.marks 79 := by
  have hp : State.publishing { s with attention := s.attention.put p (s.attention.get p).cleared } = true := h
  unfold State.clearAttention State.republishAttention
  rw [if_neg (by simp [hp])]
  cases p <;> refine ⟨rfl, rfl, rfl, rfl, rfl, rfl, ?_⟩ <;>
    simp [Status.marks, State.mark, enclosurePosition]

/-- The summary record as it would be published gives the fields its owners hold (R167). -/
theorem State.summarySnap_summed (s : State) (gen : Byte) : s.summed (s.summarySnap gen) where
  straps := rfl
  origin := ⟨rfl, rfl⟩
  figures := ⟨Nat.min_comm _ _, Nat.min_comm _ _, Nat.min_comm _ _, Nat.min_comm _ _, Nat.min_comm _ _⟩
  flags := ⟨rfl, rfl, rfl⟩
  rails := by simp [State.summarySnap, State.accountSummary]
  scheduler := by
    refine ⟨?_, rfl⟩
    show s.bays.toList.countP _ = _
    rw [← List.countP_eq_length_filter]
    have : s.bays.toList = bayNumbers.map s.bay := by
      apply List.ext_getElem <;> simp [bayNumbers, State.bay]
    rw [this, List.countP_map]; rfl
  cooling := ⟨rfl, rfl, rfl, rfl, rfl, rfl, rfl⟩
  check := by
    refine ⟨fun h => ?_, fun k h => ?_⟩ <;> simp [State.summarySnap, State.coolingSummary, h]

end Sys2Proof.Machine
end

