-- ==== Sys2Proof/Laws/Readers.lean ====
section
/-! SUPPORT. What stands of the readers: no handling of bays, account or slips' ends moves a reader; it takes entries from a table, or adds
one, and republishes the record. -/

namespace Sys2Proof.Machine

variable {s t u : State}

theorem ReadersStand.refl (s : State) : ReadersStand s s := fun _ => rfl
theorem ReadersStand.of_eq (h : t.readers = s.readers) : ReadersStand s t := fun p => by rw [State.reader, h]; rfl
theorem ReadersStand.trans (h : ReadersStand s t) (k : ReadersStand t u) : ReadersStand s u := fun p => by rw [k p, h p]

/-! ### The ends of slips -/

/-- A publication of a reader record moves no reader. -/
theorem State.pubReader_readersStand (s : State) (p : Port) : ReadersStand s (s.pubReader p) := fun q => by
  obtain ⟨g, h⟩ := s.pubReader_reader p q
  rw [h]
theorem State.putTable_readersStand (s : State) (p : Port) (l : List OpenSlip) :
    ReadersStand s (s.putReader p { s.reader p with table := l }) := fun q => by cases p <;> cases q <;> rfl
theorem State.keepOpen_readersStand (s : State) (h : SlipHead) (command : Byte) (clamped : Bool) :
    ReadersStand s (s.keepOpen h command clamped) := s.putTable_readersStand _ _
theorem State.dropOpen_readersStand (s : State) (p : Port) (a : Half) : ReadersStand s (s.dropOpen p a) :=
  (s.putTable_readersStand p _).trans (State.pubReader_readersStand _ p)
theorem State.endOpen_readersStand (s : State) (p : Port) (a : Half) (o : SlipOutcome) (c : Bool) (r : Option (List Byte)) :
    ReadersStand s (s.endOpen p a o c r) := by
  unfold State.endOpen; split
  · exact .refl s
  · exact (ReadersStand.of_eq (by rw [State.endAt_eq])).trans (State.dropOpen_readersStand _ p a)
/-- The end of an operation's slip moves no reader (R12, R154). -/
theorem State.endOpSlip_readersStand (s : State) (op : Option Operation) (o : SlipOutcome) (r : List Byte) :
    ReadersStand s (s.endOpSlip op o r) := by
  unfold State.endOpSlip; split
  · exact s.endOpen_readersStand _ _ _ _ _
  · exact .refl s

/-! ### Bays, the account and the queue -/

variable (s)

@[simp] theorem State.accountUpdate_readers : s.accountUpdate.readers = s.readers := by rw [State.accountUpdate_eq]
@[simp] theorem State.bayChanged_readers (n : BayNo) (e : Option (Fin 8)) : (s.bayChanged n e).readers = s.readers := by
  rw [State.bayChanged_eq]
@[simp] theorem State.pubQueue_readers : s.pubQueue.readers = s.readers := by rw [State.pubQueue_eq]
@[simp] theorem State.join_readers (e : QueueEntry) : (s.join e).readers = s.readers := by rw [State.join_eq]
@[simp] theorem State.leave_readers (n : BayNo) : (s.leave n).readers = s.readers := by rw [State.leave_eq]
@[simp] theorem State.setHold_readers (h : HoldReason) : (s.setHold h).readers = s.readers := by
  unfold State.setHold; split <;> simp
/-- An admission leaves the readers (R62). -/
@[simp] theorem State.admitHead_readers (n : BayNo) : (s.admitHead n).readers = s.readers := by unfold State.admitHead; simp
/-- A policy move leaves the readers (R9). -/
@[simp] theorem State.policyMove_readers (n : BayNo) : (s.policyMove n).readers = s.readers := by
  unfold State.policyMove; repeat' split
  all_goals simp

/-- A shed moves no reader: it ends a slip at most (R22, R23). -/
theorem State.shed12_readersStand (k : ShedKind) (n : BayNo) : ReadersStand s (s.shed12 k n) := by
  unfold State.shed12; split
  · dsimp only; split
    all_goals exact (ReadersStand.of_eq (by simp)).trans (State.endOpSlip_readersStand _ _ _ _)
  · exact .refl s
theorem State.shed5_readersStand (n : BayNo) : ReadersStand s (s.shed5 n) := by
  unfold State.shed5; split
  · exact (ReadersStand.of_eq (by simp)).trans (State.endOpSlip_readersStand _ _ _ _)
  · exact .refl s
theorem State.shedStep_readersStand : ReadersStand s s.shedStep := by
  unfold State.shedStep; split
  · exact .refl s
  · split
    · unfold State.unresolvable; split
      · exact .refl s
      · exact .of_eq (by dsimp only; rw [State.pubSummaryIfAccount_eq]; rfl)
    · unfold State.shedBay; split
      · exact s.shed5_readersStand _
      · exact s.shed12_readersStand _ _

/-! ### A whole handling -/

theorem State.runPass_readersStand : ReadersStand s s.runPass :=
  State.runPass_keeps (P := ReadersStand s) (fun t n h => h.trans (.of_eq (t.admitHead_readers n)))
    (fun t r h => h.trans (.of_eq (t.setHold_readers r))) (fun _ _ h => h) s (.refl s)
theorem State.wait5vWalk_readersStand : ReadersStand s s.wait5vWalk :=
  State.wait5vWalk_keeps (P := ReadersStand s) (fun t n h => h.trans (.of_eq (t.policyMove_readers n)))
    (fun t h => h.trans t.runPass_readersStand) (fun _ _ h => h) s (.refl s)
/-- Acting on reports moves no reader: it ends open slips at most. -/
theorem State.settle_readersStand : ReadersStand s s.settle :=
  State.settle_keeps (P := ReadersStand s) (fun t h => h.trans t.runPass_readersStand) (fun t h => h.trans t.wait5vWalk_readersStand)
    (fun _ _ h => h)
    (fun t n h => h.trans (by
      unfold State.thermalShed; split
      · exact t.shed12_readersStand _ _
      · exact .refl t))
    (fun t h => h.trans t.shedStep_readersStand) s (.refl s)

end Sys2Proof.Machine
end

