-- ==== Sys2Proof/Laws/Slips.lean ====
section
/-! SUPPORT. Slips on the exchange: what taking, keeping open and ending a slip do to the RAM and to the open-slip tables. -/

namespace Sys2Proof.Machine

variable (s : State)

/-- A slip taken and ended at once, with nothing else done (R158, R154). -/
theorem State.endTaken_markTaken (h : SlipHead) (o : SlipOutcome) (c m : Bool) (r : Option (List Byte)) :
    (s.markTaken h.addr).endTaken h o c m r = s.answered h o c m r := by
  rw [State.endTaken_eq]; rfl

/-- A slip command that finds no slip to take does nothing (log entry 7). -/
theorem State.slipCommand_untaken (h : SlipHead) (act : State → State) (ht : s.takeable h = false) : s.slipCommand h act = s := by
  simp [State.slipCommand, ht]

/-- A slip command whose slip can be taken: TAKEN, the block's work, the end of the handling. -/
theorem State.slipCommand_taken (h : SlipHead) (act : State → State) (ht : s.takeable h = true) :
    s.slipCommand h act = (act (s.markTaken h.addr)).finishSlip h.port := by
  simp [State.slipCommand, ht]

/-- A takeable slip is taken by a part that runs. -/
theorem State.takeable_running (h : SlipHead) (ht : s.takeable h = true) : s.phase = .running := by
  simp only [State.takeable, Bool.and_eq_true, beq_iff_eq] at ht
  exact ht.1.1.1.1.1

/-! ### The exchange -/

@[simp] theorem State.exchange_markTaken (a : Half) : (s.markTaken a).exchange = s.exchange.take a := rfl
@[simp] theorem State.exchange_keepOpen (h : SlipHead) (command : Byte) (clamped : Bool) :
    (s.keepOpen h command clamped).exchange = s.exchange.kept h command clamped s.time := by
  cases hp : h.port <;> simp [State.keepOpen, State.exchange, Exchange.kept, State.putReader, PerPort.put, State.reader, PerPort.get, hp]
@[simp] theorem State.exchange_enter (n : BayNo) (st : BayState) (why : Reason) : (s.enter n st why).exchange = s.exchange := rfl
@[simp] theorem State.exchange_setOp (n : BayNo) (o : Option Operation) : (s.setOp n o).exchange = s.exchange := rfl
@[simp] theorem State.exchange_setFlags (n : BayNo) (f : BayFlags → BayFlags) : (s.setFlags n f).exchange = s.exchange := rfl
@[simp] theorem State.exchange_leave (n : BayNo) : (s.leave n).exchange = s.exchange := by rw [State.leave_eq]; rfl
@[simp] theorem State.exchange_join (e : QueueEntry) : (s.join e).exchange = s.exchange := by rw [State.join_eq]; rfl
@[simp] theorem State.exchange_accountUpdate : s.accountUpdate.exchange = s.exchange := by rw [State.accountUpdate_eq]; rfl
@[simp] theorem State.exchange_bayChanged (n : BayNo) (e : Option (Fin 8)) : (s.bayChanged n e).exchange = s.exchange := by
  rw [State.bayChanged_eq]; rfl
@[simp] theorem State.exchange_deliver : s.deliver.exchange = s.exchange := by rw [State.deliver_eq]; rfl

/-- A publication of a reader record leaves the tables. -/
@[simp] theorem State.exchange_pubReader (p : Port) : (s.pubReader p).exchange = s.exchange := by
  obtain ⟨ga, ha⟩ := s.pubReader_reader p .a
  obtain ⟨gb, hb⟩ := s.pubReader_reader p .b
  have hr : (s.pubReader p).ram = s.ram := by rw [State.pubReader_eq]
  simp only [State.reader, PerPort.get] at ha hb
  simp [State.exchange, hr, ha, hb]

/-- An open slip's end: its end fields written, its entry gone (R154). -/
theorem State.exchange_endOpen (p : Port) (a : Half) (o : SlipOutcome) (c : Bool) (r : Option (List Byte)) :
    (s.endOpen p a o c r).exchange = s.exchange.closed p a o c r s.time := by
  have hf : s.findOpen p a = (s.exchange.tables.get p).find? fun e => e.addr == a := by cases p <;> rfl
  unfold State.endOpen Exchange.closed
  rw [hf]
  cases (s.exchange.tables.get p).find? fun e => e.addr == a with
  | none => rfl
  | some e =>
    dsimp only
    unfold State.dropOpen
    rw [State.exchange_pubReader, State.endAt_eq]
    cases p <;> rfl

/-- The end of an operation's slip, with the bay result (R12). -/
theorem State.exchange_endOpSlip (op : Option Operation) (o : SlipOutcome) (r : List Byte) :
    (s.endOpSlip op o r).exchange = s.exchange.opEnded op o r s.time := by
  unfold State.endOpSlip Exchange.opEnded
  obtain _ | ⟨k, _ | p, _ | a, t, d, m⟩ := op <;> simp [State.exchange_endOpen]

end Sys2Proof.Machine
end

