-- ==== Sys2Proof/Laws/StartUp.lean ====
section
/-! SUPPORT. What start-up does with the events taken within it (R179). -/

namespace Sys2Proof.Machine

variable {s : State}

/-- Start-up's setting of the account moves the account and the events to be delivered, nothing else. -/
theorem State.startAccount_eq : s.startAccount = { s with account := s.startAccount.account, late := s.startAccount.late } := by
  unfold State.startAccount; dsimp only; split <;> rfl

/-- The account that start-up sets: the sampled supplies, the fan reservation of full duty and the figures they give, nothing committed;
over-commit and the shed delay timer stand. -/
theorem State.startAccount_account :
    s.startAccount.account = { s.sampleSupplies.figures with committed12 := 0, committed5 := 0 } := by
  unfold State.startAccount; dsimp only; split <;> rfl

/-- From an account without REDUNDANCY_LOST, start-up's setting of the account raises POWER to both ports exactly where it sets the flag,
and no other event (R33). -/
theorem State.startAccount_late (h : s.account.redundancyLost = false) :
    s.startAccount.late =
      if s.startAccount.account.redundancyLost then s.late ++ [(.a, srcPower), (.b, srcPower)] else s.late := by
  have hp : s.sampleSupplies.powerDue { s.sampleSupplies.figures with committed12 := 0, committed5 := 0 } =
      s.startAccount.account.redundancyLost := by
    rw [State.startAccount_account]
    simp [State.powerDue, State.figures, State.sampleSupplies, h]
  rw [← hp]; unfold State.startAccount; dsimp only
  split <;> simp [State.raiseBoth, State.raise, State.sampleSupplies]

/-- With no events a gap leaves the state as it is. -/
@[simp] theorem State.gap_nil (k : Fin 7) : s.gap [] k = s := by
  unfold State.gap; split <;> rfl

/-- With no events a stage is its step alone, once start-up has begun. -/
theorem State.stage_nil (k : Fin 7) (act : State → State) (h : s.phase = .starting) : s.stage [] k act = act s := by
  unfold State.stage; rw [if_pos h, State.gap_nil]

/-- Start-up that has been abandoned takes no further step and no event of a later gap. -/
theorem State.stage_abandoned (during : List (Fin 7 × StartUpEvent)) (k : Fin 7) (act : State → State) (h : s.phase ≠ .starting) :
    s.stage during k act = s := by
  unfold State.stage; rw [if_neg h]

/-- A STATUS within start-up moves its port's link alone. -/
theorem State.takeWithin_status (p : Port) (count : Nat) (h : s.phase = .starting) :
    ∃ l, s.takeWithin (.status p count) = { s with links := s.links.put p l } := by
  unfold State.takeWithin; rw [if_pos h]
  refine ⟨{ denied := (s.links.get p).denied && decide (count = 0)
            out := List.replicate count (State.linkStatus { s with late := [], reports := .silent } p) }, ?_⟩
  simp [State.takeEvent, State.statusTransaction, h]

/-- A reset within start-up leaves the new load, of its kind and with its straps. -/
theorem State.takeWithin_reset (straps : Straps) :
    (s.takeWithin (.coldReset straps)).phase = .loading ∧ (s.takeWithin (.warmReset straps)).phase = .loading ∧
      (s.takeWithin (.coldReset straps)).straps = straps ∧ (s.takeWithin (.warmReset straps)).straps = straps := by
  unfold State.takeWithin; split <;> exact ⟨rfl, rfl, rfl, rfl⟩

end Sys2Proof.Machine
end

