-- ==== Sys2Proof/Tests/Slice0.lean ====
section
/-! SUPPORT. Small tests of the model, each about one step from a small state, and for every statement a state and operands that meet its
hypotheses together. Expected values come from the manual: its rules, its tables and the sums of its chapter 10. -/

namespace Sys2Proof.Tests

open Sys2Proof Sys2Proof.Machine

set_option Elab.async false

/-! ### Well-formed commands -/

/-- A slip of port A at a slip position. -/
def slipTo (target : Byte) : SlipHead := { port := .a, addr := 0x2300, flags := 1, target := target }

theorem test_wellFormed : WellFormed (.powerOn (slipTo 3)) = true := by decide
theorem test_misaligned_slip_refused : WellFormed (.powerOn { slipTo 3 with addr := 0x2301 }) = false := by decide
theorem test_low_slip_refused : WellFormed (.note { slipTo 0xFE with addr := 0x2060 }) = false := by decide
theorem test_high_slip_refused : WellFormed (.note { slipTo 0xFE with addr := 0x8000 }) = false := by decide
theorem test_read_opcode_refused : WellFormed (.voidTransaction .a 0x4B 1) = false := by decide
theorem test_read_opcode_within_start_up_refused : WellFormed (.startUp ⟨true, [(0, .status .a 1), (6, .void .a 0x4D 1)]⟩) = false := by decide
theorem test_slot_row_refuses_enclosure : WellFormed (.setSupplySlot (slipTo 0xFE) ⟨none, none⟩) = false := by decide
theorem test_enclosure_row_refuses_slot : WellFormed (.setSupplyEnclosure (slipTo 0) ⟨none, none, none, none, none⟩) = false := by decide
theorem test_curve_row_refuses_enclosure :
    WellFormed (.setZoneCurve (slipTo 0xFE) ⟨⟨0, 0⟩, ⟨1, 0⟩, ⟨2, 0⟩, ⟨3, 0⟩⟩) = false := by decide
theorem test_limits_row_refuses_enclosure :
    WellFormed (.setZoneLimits (slipTo 0xFE) ⟨none, none, none, none, none, none⟩) = false := by decide
theorem test_stale_row_refuses_zone : WellFormed (.setZoneStaleTime (slipTo 0) 60) = false := by decide

/-- No row of the table has bits, so no word spells a command. -/
theorem test_no_word_spells_a_command : decodeTableWord 8 0x4B = none := by decide

/-! ### States to test on -/

/-- The state a command answers. -/
def after (o : Host.Outcome State Fault Refusal) : State :=
  match o with
  | .next s => s
  | _ => State.reset

/-- One command. -/
def run (c : Instr) (s : State) : State := after (exec c s)

/-- A drawer of 60 bays on both ports, two good supplies, six fans. -/
def drawer : Surroundings :=
  { pending := []
    straps := { bays := .c60, portB := true, store := true }
    lines := Vector.replicate 60 .quiet
    supplyLines := Vector.replicate 4 { present := true, good := true }
    fanPresence := Vector.replicate 6 true
    settingsMem := []
    ram := [] }

/-- The drawer while the settings load of a cold reset runs. -/
def loading : State := State.loading .cold drawer

/-- A reader parked at the anchor of a window. -/
def parkedAt (word : Half) : Reader := { Reader.cold with state := .parked, watch := word }

/-- The drawer as start-up has set it, nothing published yet, on the built-in defaults: base12 4000, reserve12 200, fan reservation 1500,
usable12 2300, usable5 3900. -/
def started : State :=
  { loading with
    phase := .starting
    cause := .badSignature
    account := { Account.cold with
      supplies := #v[⟨true, true, .good, 0⟩, ⟨true, true, .good, 0⟩, .cold, .cold]
      base12 := 4000, base5 := 4000, usable12 := 2300, usable5 := 3900, fanRes := 1500 }
    sensors := Vector.ofFn fun i => { Sensor.cold with state := if i.val < 4 then .noData else .unused }
    fans := { loading.fans with
      fans := Vector.replicate 6
        { record := { FanRecord.cold with state := .starting, startingAt := some 5000 }, latest := 0, present := true } }
    lights := { loading.lights with enclosure := { loading.lights.enclosure with
      amber := { Channel.dark with system := some { pattern := 1, priority := 5, expiry := none } } } }
    windows := ⟨some { base := 0x2000, size := 0x2000 }, some { base := 0x4000, size := 0x2000 }⟩
    readers := ⟨parkedAt 0x201C, parkedAt 0x401C⟩
    scanAt := some 1000, coolingAt := some 1000, refreshAt := some 10 }

/-- The drawer just started. -/
def up : State := { started.publishAll with phase := .running }

/-- An operation begun at 5. -/
def opOf (k : OpKind) (o : Origin) (a : Option Half) (deadline : Option Time) : Operation :=
  { kind := k, origin := o, slip := a, start := 5, deadline := deadline, cancelMarked := false }

/-- Bays 1 to 14 of the bench: one or more in every state, with operations of every kind. -/
def benchState (n : BayNo) : BayState × Option Operation :=
  match n.val with
  | 1 => (.settling, some (opOf .settle .internal none none))
  | 2 => (.off, none)
  | 3 => (.logic, none)
  | 4 => (.queued, some (opOf .spinUp (.slip .a) (some 0x2200) (some 1000)))
  | 5 => (.spinningUp, some (opOf .spinUp (.slip .a) (some 0x2220) none))
  | 6 => (.ready, none)
  | 7 => (.spinningDown, some (opOf .spinDown (.slip .b) (some 0x4200) none))
  | 8 => (.spinningDown, some (opOf .powerOff (.slip .b) (some 0x4220) none))
  | 9 => (.faulted, some (opOf .retryWait .internal none none))
  | 10 => (.spinningUp, some (opOf .spinUp (.slip .a) (some 0x2240) none))
  | 11 => (.queued, some (opOf .spinUp .internal none none))
  | 12 => (.spinningDown, some (opOf .prepareRemoval (.slip .a) (some 0x2260) none))
  | 13 => (.spinningDown, some { opOf .spinUp (.slip .a) (some 0x2280) none with cancelMarked := true })
  | 14 => (.spinningDown, some (opOf .latchStop .internal none none))
  | _ => (.empty, none)

/-- A bay in a state, with the captures of profile 0 and the timers that go with it, each at 1000. -/
def benchBay (x : BayState × Option Operation) : Bay :=
  let st := x.1
  { Bay.cold with
    record := { BayRecord.cold with
      state := st, reason := .command, entered := 7, c12 := if st = .spinningUp then 250 else if st.spinning then 80 else 0
      c5 := if st.powered then 90 else 0, op := x.2 }
    settleAt := if st = .settling then some 1000 else none
    absenceAt := if st = .empty then none else some 1000
    backoffAt := if st = .faulted then some 1000 else none
    spinAt := if st = .spinningUp then some 1000 else none
    parkAt := if st = .spinningDown then some 1000 else none }

/-- An open slip of the bench. -/
def openSlip (a : Half) (command : Byte) (attn : Bool) : OpenSlip :=
  { addr := a, command := command, attn := attn, taken := 3, clamped := false }

/-- The account, the lights and the records brought up to date with the bays. -/
def brought (s : State) : State :=
  let t := { s with account := { s.evaluated s.figures with delayExpired := s.account.delayExpired } }
  let u := { t with lights := { t.lights with
    bays := Vector.ofFn fun n =>
      { BayLight.cold with
        amber := { Channel.dark with system := systemAmber (t.bay n).record }
        blue := { Channel.dark with system := systemBlue (t.bay n).record } } } }
  { u.publishAll with phase := .running }

/-- The bench before its records are brought up to date. -/
def rawBench : State :=
  { up with
    phase := .starting
    time := 1000
    bays := Vector.ofFn fun n => benchBay (benchState n)
    lines := Vector.ofFn fun n =>
      { presence := (benchState n).1 != .empty, latch := false, trip := false, sw5 := (benchState n).1.powered
        sw12 := (benchState n).1.spinning }
    scheduler := { up.scheduler with
      queue := [{ bay := 4, cls := 2, enqueued := 5, slip := some 0x2200, deadline := some 1000 },
        { bay := 11, cls := 2, enqueued := 6, slip := none, deadline := none }]
      hold := .stagger, lastAdmission := some 1, staggerAt := some 1000 }
    readers :=
      ⟨{ up.readers.a with table := [openSlip 0x2200 0x20 true, openSlip 0x2220 0x20 true, openSlip 0x2240 0x20 false,
          openSlip 0x2260 0x12 false, openSlip 0x2280 0x20 true, openSlip 0x22A0 0x52 false, openSlip 0x22C0 0x80 false] },
       { up.readers.b with table := [openSlip 0x4200 0x21 true, openSlip 0x4220 0x11 false] }⟩ }

/-- A drawer at part time 1000, every timer of its bays just reached. -/
def bench : State := brought rawBench

/-- The bench with every bay's policy and latch action set, and a capacity of both supplies on 5 V: 11 powered bays commit 990, so that a
drive of 90 fits from a capacity of 1180 on (1080 and the reserve of 100). -/
def policed (policy : Policy) (stop : Bool) (cap5 : Nat) : State :=
  brought { rawBench with
    settings := { rawBench.settings with
      supplies := #v[⟨6000, cap5⟩, ⟨6000, cap5⟩, ⟨0, 0⟩, ⟨0, 0⟩]
      bays := rawBench.settings.bays.map fun b => { b with policy := policy, latchStop := stop } } }

/-- The same with a WAIT_5V walk due: bays 2 and 20 wait in OFF for 5 V, bay 2 with its latch open where `held`. -/
def waitingFor5 (policy : Policy) (held : Bool) (cap5 : Nat) : State :=
  let s := policed policy true cap5
  let b (latch : Bool) : Bay :=
    { Bay.cold with record := { BayRecord.cold with state := .off, flags := { BayFlags.clear with wait5v := true, latchOpen := latch } } }
  { s with bays := (s.bays.set (2 : BayNo) (b held)).set (20 : BayNo) (b false), reports := { s.reports with walk := true } }

/-- The bench with more committed on 12 V than is usable, its shed delay expired. -/
def short : State :=
  brought { rawBench with
    settings := { rawBench.settings with supplies := #v[⟨2200, 4000⟩, ⟨2200, 4000⟩, ⟨0, 0⟩, ⟨0, 0⟩] }
    account := { rawBench.account with overCommitted := true, delayExpired := true } }

/-- The bench strapped for 24 bays. -/
def small : State := { bench with straps := { bench.straps with bays := .c24 } }

/-! ### One step of each command -/

-- Resets and start-up.
theorem test_coldReset_opens_switches : ((run (.coldReset bench.straps 0) bench).line 6).sw12 = false := by decide +kernel
theorem test_warmReset_keeps_switches : ((run (.warmReset bench.straps 0) bench).line 6).sw12 = true ∧
    (run (.warmReset bench.straps 0) bench).fans.c = 1000 := by decide +kernel
theorem test_startUp_blank_memory_defaults :
    (let s := run (.startUp ⟨true, []⟩) loading
     s.cause = .badSignature ∧ s.account.usable12 = 2300 ∧ s.account.usable5 = 3900 ∧ s.readers.a.watch = 0x201C) := by decide +kernel
theorem test_startUp_rediscovers_ready :
    ((run (.startUp ⟨true, []⟩) (run (.warmReset bench.straps 0) bench)).bay 6).record.state = .ready := by decide +kernel

-- R169: a reset sets the whole status area to 0x00: the summary, the first bay record, the enclosure light, the readers.
theorem test_reset_status_zero : ∀ a ∈ [0x0001, 0x0002, 0x0090, 0x00D0, 0x0100, 0x0240, 0x0500, 0x0503, 0x1400],
    State.reset.statusByte a = 0 ∧ (run (.coldReset bench.straps 0) bench).statusByte a = 0 := by decide +kernel
-- R179: WRITEs within start-up post a NOTE and link it, and the reader that starts at step 8 takes it (R165).
theorem test_startUp_reads_what_was_written :
    (let s := run (.startUp ⟨true, [(0, .write .a 0x2300 [1, 0, 0x01, 0xFE]), (6, .write .a 0x201C [0x00, 0x23])]⟩) loading
     s.phase = .running ∧ Memory.read s.ram 0x2300 = 3 ∧ s.readers.a.watch = 0x231C ∧ s.links.a.denied = false) := by decide +kernel
-- A READ of the summary returns 0x00 after step 6 and the record after step 7; LOADING is clear after step 1.
theorem test_startUp_read_within :
    (run (.startUp ⟨true, [(5, .read .a 0x0001 3)]⟩) loading).links.a.out = [0, 0, 0] ∧
      (run (.startUp ⟨true, [(6, .read .a 0x0001 3)]⟩) loading).links.a.out = [0x0F, 1, 1] ∧
      (run (.startUp ⟨true, [(0, .status .b 1)]⟩) loading).links.b.out = [0] := by decide +kernel
-- R179: origin DEFAULTS lights the enclosure AMBER at step 6, not with the account at step 4 nor with the policies at step 5: pattern 1 at
-- priority 5 is slot byte 0x15 (R136, Table 11-12).
theorem test_startUp_enclosure_light :
    (run (.startUp ⟨true, [(3, .read .a 0x0091 1)]⟩) loading).links.a.out = [0] ∧
      (run (.startUp ⟨true, [(4, .read .a 0x0091 1)]⟩) loading).links.a.out = [0] ∧
      (run (.startUp ⟨true, [(5, .read .a 0x0091 1)]⟩) loading).links.a.out = [0x15] := by decide +kernel
-- A reset within start-up leaves the new load, and a STATUS after it shows LOADING.
theorem test_startUp_abandoned :
    (let s := run (.startUp ⟨true, [(3, .warmReset bench.straps), (3, .status .a 1), (4, .status .a 2)]⟩) loading
     s.phase = .loading ∧ s.resetKind = .warm ∧ s.links.a.out = [1]) := by decide +kernel
/-- Start-up after its publication, LOAD_DONE pending on port A. -/
def calledUp : State := { started.publishAll with
  attention := ⟨{ up.attention.a with pending := up.attention.a.pending.set (0 : Fin 8) true }, up.attention.b⟩ }
-- A CONTROL write before step 8 clears the pending flag, and leaves window and reader to step 8.
theorem test_portReset_before_step_8 :
    (let s := run (.portReset .a 0) calledUp
     s.attention.a.pending[(0 : Fin 8)] = false ∧ s.windows.a = calledUp.windows.a ∧ s.readers.a = calledUp.readers.a) := by decide +kernel
/-- Start-up of the drawer, its step 5 reached, with bay 3 at rest in OFF for a reason and policy LOGIC_ONLY. -/
def resting (why : Reason) : State :=
  let s := { policed .logicOnly false 1180 with phase := .starting }
  s.putBay 3 ((s.bay 3).stands .off why 1000 0 0 .clear none)
-- R9, R30: policy is applied to a bay rediscovered in OFF, not to one that a 5 V shed has just taken there.
theorem test_startPolicy_by_reason : (((resting .rediscovered).startPolicy 3).bay 3).record.state = .logic ∧
    (((resting .shedPower).startPolicy 3).bay 3) = (resting .shedPower).bay 3 := by decide +kernel
-- R144: in start-up a light is published as its slots are set, first with generation 0: dark, then BLUE slow blink, then BLUE fast.
theorem test_startUp_publishes_lights :
    (let s := { loading with phase := .starting }
     let inState (st : BayState) (t : State) : State := (t.putBay 3 { t.bay 3 with record := { (t.bay 3).record with state := st } }).deriveLights 3
     let t := inState .queued (inState .off s)
     let u := inState .spinningUp t
     (inState .off s).status.lights[(3 : BayNo)] = none ∧ (t.status.lights[(3 : BayNo)]).map (·.gen) = some 0 ∧
       (u.status.lights[(3 : BayNo)]).map (·.gen) = some 1) := by decide +kernel

-- The links.
theorem test_read_while_loading : (run (.read .a 0x0500 2) loading).links.a.out = [0xFF, 0xFF] := by decide +kernel
-- Summary offset 1: count 60 is code 3, both ports, store present: 0x0F; offset 2: DEFAULTS 1; offset 3: BAD_SIGNATURE 1 (Table 11-10).
theorem test_read_summary : (run (.read .a 0x0001 3) up).links.a.out = [0x0F, 1, 1] := by decide +kernel
theorem test_write_own_window : Memory.read (run (.write .a 0x2004 [0xA5]) up).ram 0x2004 = 0xA5 ∧
    (run (.write .a 0x2004 [0xA5]) up).links.a.denied = false := by decide +kernel
theorem test_write_other_window_denied : (run (.write .a 0x4004 [0xA5]) up).links.a.denied = true := by decide +kernel
theorem test_write_posts_and_takes_a_note :
    (let s := run (.write .a 0x2300 [1, 0, 0x01, 0xFE]) up
     let t := run (.write .a 0x201C [0x00, 0x23]) s
     Memory.read t.ram 0x2300 = 3 ∧ Memory.read t.ram 0x2314 = 0 ∧ t.readers.a.state = .parked ∧ t.readers.a.watch = 0x231C) := by
  decide +kernel
theorem test_status_while_loading : (run (.status .a 1) loading).links.a.out = [1] := by decide +kernel
theorem test_status_clears_denied :
    (run (.status .a 2) (run (.write .a 0x1000 [1]) up)).links.a = { denied := false, out := [2, 2] } := by decide +kernel
theorem test_void_transaction : (run (.voidTransaction .a 0x00 3) up).links.a.out = [0, 0, 0] := by decide +kernel
theorem test_take_with_nothing : (run (.take .a) up).links.a.out = [0xFF] := by decide +kernel

/-- The drawer with sources 3 and 5 of port A pending, both at level 2, vectors 0x33 and 0x35; source 5 auto-disabled. -/
def calling : State :=
  let config : Vector SourceConfig 8 :=
    Vector.ofFn fun i => ⟨i.val == 3 || i.val == 5, 2, i.val == 5, 0x30 + BitVec.ofNat 8 i.val⟩
  let waiting : AttentionUnit := { up.attention.a with pending := Vector.ofFn fun i => i.val == 3 || i.val == 5 }
  { up with settings := { up.settings with attention := ⟨config, up.settings.attention.b⟩ }, attention := ⟨waiting, up.attention.b⟩ }

theorem test_take_equal_levels : (run (.take .a) calling).links.a.out = [0x35] ∧
    (run (.take .a) calling).attention.a.inService = 0x04 ∧
    (run (.take .a) calling).settings.attention.a[(5 : Fin 8)].enable = false := by decide +kernel
theorem test_done_removes_level : (run (.done .a 0) (run (.take .a) calling)).attention.a.inService = 0 := by decide +kernel
theorem test_portReset_abandons : Memory.read (run (.portReset .b 0) bench).ram 0x4214 = 0x07 ∧
    (run (.portReset .b 0) bench).readers.b.table = [] ∧ ((run (.portReset .b 0) bench).bay 7).record.state = .spinningDown := by
  decide +kernel
theorem test_register_write_discarded : (run (.registerWriteDiscarded .a 7) up).links.a.denied = false := by decide +kernel

-- Bays.
theorem test_presenceAssert_settles : ((run (.presenceAssert 0) up).bay 0).record.state = .settling ∧
    ((run (.presenceAssert 0) up).bay 0).settleAt = some 500 := by decide +kernel
theorem test_presenceDeassert_debounces : ((run (.presenceDeassert 6) bench).bay 6).absenceAt = some 1020 := by decide +kernel
theorem test_settleExpiry_manual : ((run (.settleExpiry 1) bench).bay 1).record.state = .off ∧
    ((run (.settleExpiry 1) bench).bay 1).record.insertions = 1 := by decide +kernel
theorem test_settleExpiry_no_fit : ((run (.settleExpiry 1) (policed .autoSpin false 1179)).bay 1).record.flags.wait5v = true := by
  decide +kernel
-- R10: one drive of 90 fits, and bay 2 takes it before bay 20; a latch that holds bay 2 leaves it to bay 20; at 1179 none fits.
theorem test_walk_in_bay_order :
    (let s := (waitingFor5 .logicOnly false 1180).settle
     (s.bay 2).record.state = .logic ∧ (s.bay 2).record.flags.wait5v = false ∧ (s.bay 20).record.state = .off ∧
       (s.bay 20).record.flags.wait5v = true) ∧
    (let s := (waitingFor5 .autoSpin true 1180).settle
     (s.bay 2).record.state = .off ∧ (s.bay 2).record.flags.wait5v = true ∧ (s.bay 20).record.state = .queued) ∧
    ((waitingFor5 .logicOnly false 1179).settle.bay 2).record.state = .off := by decide +kernel
theorem test_bounce_counts : ((run (.bounce 1) bench).bay 1).record.state = .empty ∧
    ((run (.bounce 1) bench).bay 1).record.bounces = 1 := by decide +kernel
theorem test_surpriseRemoval_ends_slip : ((run (.surpriseRemoval 5) bench).bay 5).record.state = .empty ∧
    Memory.read (run (.surpriseRemoval 5) bench).ram 0x2234 = 0x05 := by decide +kernel
theorem test_latchOpen_stops : ((run (.latchOpen 6) (policed .manual true 4000)).bay 6).record.state = .spinningDown ∧
    ((run (.latchOpen 6) (policed .manual true 4000)).bay 6).record.reason = .latch := by decide +kernel
theorem test_latchClose_clears :
    ((run (.latchClose 6) (run (.latchOpen 6) bench)).bay 6).record.flags.latchOpen = false := by decide +kernel
-- The default base delay is 5 s; with no retry yet the wait is 5 × 2^0 = 5 s.
theorem test_switchTrip_waits : ((run (.switchTrip 6) bench).bay 6).record.state = .faulted ∧
    ((run (.switchTrip 6) bench).bay 6).backoffAt = some 6000 := by decide +kernel
theorem test_backoffExpiry_retries : ((run (.backoffExpiry 9) bench).bay 9).record.state = .off ∧
    ((run (.backoffExpiry 9) bench).bay 9).record.retries = 1 := by decide +kernel
theorem test_spinWindowEnd_ready : ((run (.spinWindowEnd 5) bench).bay 5).record.state = .ready ∧
    ((run (.spinWindowEnd 5) bench).bay 5).record.c12 = 80 := by decide +kernel
theorem test_parkWindowEnd_spinDown : ((run (.parkWindowEnd 7) bench).bay 7).record.state = .logic := by decide +kernel
theorem test_parkWindowEnd_removal : ((run (.parkWindowEnd 12) bench).bay 12).record.state = .off ∧
    ((run (.parkWindowEnd 12) bench).bay 12).record.flags.removalReady = true := by decide +kernel
theorem test_staggerExpiry_admits : ((run .staggerExpiry bench).bay 4).record.state = .spinningUp ∧
    (run .staggerExpiry bench).account.committed12 = 1230 ∧ (run .staggerExpiry bench).scheduler.hold = .stagger := by decide +kernel
theorem test_deadlineExpiry_times_out : ((run (.deadlineExpiry 4) bench).bay 4).record.reason = .deadline ∧
    Memory.read (run (.deadlineExpiry 4) bench).ram 0x2214 = 0x02 := by decide +kernel

-- Supplies and current. With one of two equal supplies left in SPARE_ONE the base is that one's capacity.
theorem test_supplyInputChange_fails_slot : (run (.supplyInputChange 1 true false) up).account.supplies[(1 : Fin 4)].state = .failed ∧
    (run (.supplyInputChange 1 true false) up).account.base12 = 4000 ∧
    (run (.supplyInputChange 1 true false) up).account.redundancyLost = true := by decide +kernel
-- Committed 980 against 500: the class 2 bays 10 and 5 in SPINNING_UP go first (730, 480).
theorem test_shedDelayExpiry_sheds_by_order :
    (let s := run .shedDelayExpiry { short with account := { short.account with shedTimer := some 1000 } }
     s.account.committed12 = 480 ∧ s.account.overCommitted = false ∧ (s.bay 10).record.reason = .shedPower ∧
       (s.bay 5).record.reason = .shedPower ∧ (s.bay 6).record.state = .ready) := by decide +kernel
-- R46, R48: the list's bay 10 is shed for heat before the run takes bay 5 (980, 730, 480), and the list's bay 3, in LOGIC, is declined.
theorem test_thermal_list_before_run :
    (let s := { short with reports := { short.reports with thermal := [10, 3], run := true } }.settle
     (s.bay 10).record.reason = .shedThermal ∧ (s.bay 5).record.reason = .shedPower ∧ (s.bay 3) = short.bay 3 ∧
       (s.bay 6).record.state = .ready ∧ s.account.committed12 = 480) := by decide +kernel
theorem test_currentSample_averages : ((run (.currentSample 6 55) bench).bay 6).record.average = 55 ∧
    ((run (.currentSample 6 55) bench).bay 6).record.c12 = 80 := by decide +kernel
-- 10 s after entry at 7: the average 101 × 4 exceeds 5 × 80.
theorem test_currentSample_draw_high : ((run (.currentSample 6 101) { bench with time := 10007 }).bay 6).record.c12 = 101 ∧
    ((run (.currentSample 6 101) { bench with time := 10007 }).bay 6).record.flags.drawHigh = true := by decide +kernel

-- Sensors, zones and fans.
theorem test_sensorScan_lists_assigned : (run .sensorScan bench).scan.left = [0, 1, 2, 3] := by decide +kernel
theorem test_sensorRead_good :
    (run (.sensorRead 0 (some 40)) (run .sensorScan bench)).sensors[(0 : Fin 8)].state = .ok ∧
      (run (.sensorRead 0 (some 40)) (run .sensorScan bench)).scan.left = [1, 2, 3] := by decide +kernel
-- With every bay of each zone vacant: curve 250 + 15 bays × 15 = 475 and no source, slewed from 1000 down by 20.
theorem test_coolingPeriod_slews : (run .coolingPeriod { up with time := 1000 }).fans.c = 980 ∧
    (run .coolingPeriod { up with time := 1000 }).fans.draw = 475 := by decide +kernel
-- R167: a cooling period that moves the reservation and C republishes the summary record once.
theorem test_coolingPeriod_one_summary :
    (let s := { up with time := 1000 }
     (run .coolingPeriod s).account.fanRes ≠ s.account.fanRes ∧ (s.status.summary.map (·.gen)) = some 0 ∧
       ((run .coolingPeriod s).status.summary.map (·.gen)) = some 1) := by decide +kernel
-- Table 10-5: curve(51) = 880 and six fans: Draw 880, Dcomp 880, C 880, reservation 1344.
theorem test_coolingPeriod_table_10_5 :
    (let s := { up with
        time := 200000, coolingAt := some 200000
        zones := up.zones.set (2 : Fin 4) { up.zones[(2 : Fin 4)] with e := 51, condition := .complete, vacancy := 0 }
        fans := { up.fans with
          c := 880, cprev := 880, fans := up.fans.fans.map fun (f : Fan) => { f with record := { f.record with state := .ok } } } }
     zoneDemand s.settings.zones[(2 : Fin 4)] s.zones[(2 : Fin 4)] = 880 ∧ s.fanReservation = 1344 ∧ s.tachLimit = 5280 ∧
       compensated 880 6 5 = 1000 ∧ compensated 820 6 5 = 984) := by decide +kernel
theorem test_criticalTimerExpiry_sheds_zone :
    (let s := { bench with zones := bench.zones.set (0 : Fin 4) { bench.zones[(0 : Fin 4)] with
        state := .critical, timer := .running 1000 } }
     ((run (.criticalTimerExpiry 0) s).bay 6).record.reason = .shedThermal ∧
       (run (.criticalTimerExpiry 0) s).zones[(0 : Fin 4)].timer = .spent ∧
       ((run (.criticalTimerExpiry 0) s).bay 7).record.state = .spinningDown) := by decide +kernel
theorem test_fanPresenceReport_absent :
    (run (.fanPresenceReport 2 false) up).fans.fans[(2 : Fin 6)].record.state = .absent := by decide +kernel
theorem test_startingExpiry_ok :
    (run (.startingExpiry 2) { up with time := 5000 }).fans.fans[(2 : Fin 6)].record.state = .ok := by decide +kernel
theorem test_tachReport_rpm : (run (.tachReport 2 88) up).fans.fans[(2 : Fin 6)].latest = 5280 := by decide +kernel
theorem test_fanCheck_full_duty : (run (.fanCheck (slipTo 0xFE)) up).fans.c = 1000 ∧
    ((run (.fanCheck (slipTo 0xFE)) up).fans.check.map (·.origin)) = some .a := by decide +kernel
theorem test_fanCheckEnd_ends_slip :
    (let s := run .fanCheckEnd { run (.fanCheck (slipTo 0xFE)) up with time := 15000 }
     Memory.read s.ram 0x2300 = 3 ∧ Memory.read s.ram 0x2314 = 0 ∧ s.fans.check = none) := by decide +kernel
theorem test_floorExpiry : (run (.floorExpiry .a) { run (.setFloor (slipTo 0xFE) 500 1) up with time := 1000 }).fans.floors.a = none := by
  decide +kernel

-- Lights. Bay 6's activity lights GREEN for 40 ms; 
theorem test_chainRefresh_activity :
    (let s := run (.chainRefresh 0x40) { bench with refreshAt := some 1000 }
     s.lights.chain.green = 0x40 ∧ (s.light 6).stretch = some 1000 ∧ s.refreshAt = some 1010) := by decide +kernel
theorem test_lightExpiry_empties :
    (run (.lightExpiry .a .enclosure .blue) { run (.setLight (slipTo 0xFE) ⟨1, 1, 3, 1, 0⟩) up with time := 1000 }).lights.enclosure.blue.ports.a
      = none := by decide +kernel

-- The settings store. An image begins with its signature and its length of 688 = 0x02B0 (section 11.5).
theorem test_image_header : Settings.default.image.take 8 = [0x5A, 0x36, 0x60, 0xC3, 0xB0, 0x02, 1, 0] := by decide +kernel
/-- An image whose sections are all zeros: 0x5A + 0x36 + 0x60 + 0xC3 + 0xB0 + 0x02 + 0x01 = 614 = 0x0266, its checksum's low byte given. -/
def zeroImage (sum : Byte) : Memory :=
  [(0, 0x5A), (1, 0x36), (2, 0x60), (3, 0xC3), (4, 0xB0), (5, 0x02), (6, 0x01), (8, sum), (9, 0x02)]
theorem test_image_checksum : checkImage (zeroImage 0x66) = .none ∧ checkImage (zeroImage 0x67) = .badChecksum ∧
    checkImage [] = .badSignature := by decide +kernel
/-- A store under way, of a made-up image of 18 bytes. -/
def storing : State :=
  { run (.storeSettings (slipTo 0xFE)) up with
    store := .storing .a (some 0x2300) [0x5A, 0x36, 0x60, 0xC3, 18, 0, 1, 0, 9, 0, 0, 0, 0, 0, 0, 0, 7, 8] }
theorem test_storeSettingsEnd_writes_all : Memory.read (run .storeSettingsEnd storing).settingsMem 0 = 0x5A ∧
    Memory.read (run .storeSettingsEnd storing).settingsMem 17 = 8 ∧ Memory.read (run .storeSettingsEnd storing).ram 0x2314 = 0 ∧
    Memory.read (run .storeSettingsEnd storing).ram 0x2304 = 18 := by decide +kernel
-- The signature is written last: 4 zeros, 2 bytes of sections and 12 of the header come before it.
theorem test_storeWriteFailed_no_signature : Memory.read (run (.storeWriteFailed 18) storing).settingsMem 0 = 0 ∧
    Memory.read (run (.storeWriteFailed 18) storing).settingsMem 17 = 8 ∧
    Memory.read (run (.storeWriteFailed 18) storing).ram 0x2314 = 0x12 := by decide +kernel
theorem test_reloadReadEnd_no_response :
    Memory.read (run (.reloadReadEnd false) (run (.reloadSettings (slipTo 0xFE)) up)).ram 0x2304 = 5 := by decide +kernel

-- Slip commands: the outcome stands at offset 20 of the slip, 0x2314.
theorem test_powerOn_from_off : ((run (.powerOn (slipTo 2)) bench).bay 2).record.state = .logic ∧
    (run (.powerOn (slipTo 2)) bench).account.committed5 = 1080 := by decide +kernel
theorem test_powerOn_no_budget : Memory.read (run (.powerOn (slipTo 2)) (policed .manual false 1179)).ram 0x2314 = 0x15 := by
  decide +kernel
theorem test_powerOff_supersedes : ((run (.powerOff (slipTo 4)) bench).bay 4).record.state = .off ∧
    Memory.read (run (.powerOff (slipTo 4)) bench).ram 0x2214 = 0x03 := by decide +kernel
theorem test_prepareRemoval_ready_parks : ((run (.prepareRemoval (slipTo 6)) bench).bay 6).record.state = .spinningDown ∧
    Memory.read (run (.prepareRemoval (slipTo 6)) bench).ram 0x2300 = 2 := by decide +kernel
theorem test_clearFault : ((run (.clearFault (slipTo 9)) bench).bay 9).record.reason = .cleared := by decide +kernel
theorem test_setBay_clamps : ((run (.setBay (slipTo 6) ⟨some 9, none, none, none, none, none⟩) bench).baySet 6).policy = .manual ∧
    Memory.read (run (.setBay (slipTo 6) ⟨some 9, none, none, none, none, none⟩) bench).ram 0x2315 = 1 := by decide +kernel
theorem test_spinUp_queues : ((run (.spinUp (slipTo 3) 0) bench).scheduler.queue.map (·.bay)) = [4, 11, 3] ∧
    ((run (.spinUp (slipTo 3) 0) bench).bay 3).record.state = .queued := by decide +kernel
theorem test_spinUp_deadline_clamped : ((run (.spinUp (slipTo 3) 4000) bench).bay 3).record.op.bind (·.deadline) = some 3601000 := by
  decide +kernel
theorem test_spinDown_ready : ((run (.spinDown (slipTo 6)) bench).bay 6).parkAt = some 5000 := by decide +kernel
theorem test_setSchedule_clamps : (run (.setSchedule (slipTo 0xFE) ⟨some 0, none⟩) bench).settings.schedule.limit = 1 := by decide +kernel
theorem test_setSupplySlot : (run (.setSupplySlot (slipTo 2) ⟨some 1000, none⟩) up).account.supplies[(2 : Fin 4)].state = .good ∧
    (run (.setSupplySlot (slipTo 2) ⟨some 1000, none⟩) up).account.base12 = 5000 := by decide +kernel
theorem test_setSupplyEnclosure_combined :
    (run (.setSupplyEnclosure (slipTo 0xFE) ⟨some 0, none, none, none, none⟩) up).account.base12 = 8000 := by decide +kernel
theorem test_setProfile_steady_under_peak :
    (run (.setProfile (slipTo 7) ⟨some 60, none, none, none, none⟩) up).settings.profiles[(7 : Fin 8)].steady12 = 60 := by decide +kernel
theorem test_setZoneCurve_refused :
    Memory.read (run (.setZoneCurve (slipTo 3) ⟨⟨65, 100⟩, ⟨65, 200⟩, ⟨85, 300⟩, ⟨95, 400⟩⟩) up).ram 0x2314 = 0x13 := by decide +kernel
theorem test_setZoneLimits_temperature :
    (run (.setZoneLimits (slipTo 3) ⟨none, some 85, none, none, none, none⟩) up).settings.zones[(3 : Fin 4)].limits.ceiling = 45 := by
  decide +kernel
theorem test_setZoneStaleTime_clamps : (run (.setZoneStaleTime (slipTo 0xFE) 9) up).settings.staleTime = 10 := by decide +kernel
theorem test_setSensor_assigns : (run (.setSensor (slipTo 4) ⟨some 0, some 0xFE⟩) up).sensors[(4 : Fin 8)].state = .noData ∧
    (run (.setSensor (slipTo 4) ⟨some 0, some 0xFE⟩) up).settings.sensors[(4 : Fin 8)].offset = -2 := by decide +kernel
-- R99: the sensor record is republished, also where no value changed.
theorem test_setSensor_republishes : (run (.setSensor (slipTo 4) ⟨none, none⟩) up).sensors[(4 : Fin 8)].gen = 1 ∧
    ((run (.setSensor (slipTo 4) ⟨none, none⟩) up).status.sensors[(4 : Fin 8)]).map (·.sensor.gen) = some 1 := by decide +kernel
theorem test_setFloor_clamps : (run (.setFloor (slipTo 0xFE) 2000 0) up).fans.floors.a = some { duty := 1000, expiry := none } := by
  decide +kernel
theorem test_setFans_fewer : (run (.setFans (slipTo 0xFE) ⟨some 5, none, none, none, none, none, none, none⟩) up).fans.fans[(5 : Fin 6)].record.state
    = .unused := by decide +kernel
theorem test_setLight_priority : (run (.setLight (slipTo 6) ⟨0, 2, 7, 0, 0⟩) up).channel (.bay 6) .amber =
    { system := none, ports := ⟨some { pattern := 2, priority := 7, expiry := none }, none⟩ } := by decide +kernel
theorem test_setPattern : (run (.setPattern (slipTo 2) ⟨some 1, none⟩) up).settings.patterns[(2 : Fin 8)] = ⟨1, 50⟩ := by decide +kernel
theorem test_cancel_queued : ((run (.cancel (slipTo 0xFE) 0x2200) bench).bay 4).record.state = .logic ∧
    Memory.read (run (.cancel (slipTo 0xFE) 0x2200) bench).ram 0x2214 = 0x01 := by decide +kernel
theorem test_cancel_spinning : ((run (.cancel (slipTo 0xFE) 0x2220) bench).bay 5).record.state = .spinningDown := by decide +kernel
theorem test_note_time : Memory.read16 (run (.note (slipTo 0xFE)) bench).ram 0x2304 = 1000 ∧
    Memory.read (run (.note (slipTo 0xFE)) bench).ram 0x2308 = 7 := by decide +kernel
theorem test_setAttention_clamps :
    (run (.setAttention (slipTo 1) ⟨some 1, some 9, none, some 0xFF⟩) up).settings.attention.a[(1 : Fin 8)] =
      { enable := true, level := 7, auto := false, vector := 0xFE } := by decide +kernel
theorem test_storeSettings_busy :
    Memory.read (run (.storeSettings { slipTo 0xFE with addr := 0x2320 }) (run (.storeSettings (slipTo 0xFE)) up)).ram 0x2334 = 0x16 := by
  decide +kernel
theorem test_reloadSettings_absent :
    Memory.read (run (.reloadSettings (slipTo 0xFE)) { up with straps := { up.straps with store := false } }).ram 0x2314 = 0x12 := by
  decide +kernel
theorem test_setWindows_overlap : Memory.read (run (.setWindows (slipTo 0) ⟨2, 0x4000⟩) up).ram 0x2314 = 0x13 := by decide +kernel
theorem test_waitingRoomWake_takes :
    (let r := { up.readers.a with state := .waitingRoom, cursor := 0x2300, watch := 0 }
     let s := run (.waitingRoomWake .a) { up with readers := ⟨r, up.readers.b⟩, ram := Memory.writeRun [] 0x2300 [1, 0, 0x01, 0xFE] }
     Memory.read s.ram 0x2300 = 3 ∧ s.readers.a.state = .parked) := by decide +kernel

/-! ### States and operands that meet the hypotheses of the statements -/

/-- The bench with no drive seated. -/
def unseated : State := { bench with lines := bench.lines.map fun (l : BayLines) => { l with presence := false } }

/-- The bench with every latch action STOP. -/
def stopping : State := policed .manual true 4000

/-- Every SPINNING_UP bay's drive seen for 10 s in READY: the bench at the first moment of reconciliation of bay 6. -/
def later : State := { bench with time := 10007 }

/-- The bench with sensor 0 reading t and zone 0 standing at e. -/
def heated (t e : Int) (st : ZoneState) : State :=
  { bench with
    sensors := Vector.ofFn fun i => { Sensor.cold with
      state := if i.val = 0 then .ok else if i.val < 4 then .noData else .unused, raw := if i.val = 0 then some t else none }
    zones := Vector.ofFn fun z => { Zone.cold .default with
      e := if z.val = 0 then e else 25, state := if z.val = 0 then st else .normal, timer := if z.val = 0 then .running 1000 else .stopped } }

/-- The drawer with a fan check begun at 0. -/
def checking : State := run (.fanCheck (slipTo 0xFE)) up

/-- The drawer with port A's AMBER slot of bay 59 expiring at 1000, and a floor of port A that does so too. -/
def expiring : State :=
  { run (.setFloor { slipTo 0xFE with addr := 0x2320 } 500 1) (run (.setLight (slipTo 59) ⟨0, 1, 3, 1, 0⟩) up) with time := 1000 }

/-- A reload under way. -/
def reloading : State := run (.reloadSettings (slipTo 0xFE)) up

theorem witness_StepRunsFrontCommand : State.reset.pending = [] := by decide

theorem witness_CommandsNotTaken_loading : loading.phase ≠ .running ∧ (Instr.powerOn (slipTo 3)).slip? = some (slipTo 3) ∧
    loading.takeable (slipTo 3) = false := by decide +kernel
/-- One millisecond before the expiries of the bench nothing is due. -/
theorem witness_CommandsNotTaken_before :
    (let t : Time := 999
     Time.due t (bench.bay 1).settleAt = false ∧ Time.due t (bench.bay 1).absenceAt = false ∧ Time.due t (bench.bay 2).absenceAt = false ∧
       Time.due t (bench.bay 9).backoffAt = false ∧ Time.due t (bench.bay 5).spinAt = false ∧ Time.due t (bench.bay 7).parkAt = false ∧
       (bench.bay 3).record.state ≠ .queued ∧ (bench.bay 2).record.state.powered = false ∧ (bench.line 2).sw5 = false ∧
       (bench.line 2).sw12 = false ∧ Time.due t bench.scheduler.staggerAt = false ∧ Time.due t bench.account.shedTimer = false ∧
       Time.due t bench.scanAt = false ∧ bench.scan.left.head? ≠ some 0 ∧ Time.due t bench.coolingAt = false) := by decide +kernel
theorem witness_CommandsNotTaken_idle :
    State.reset.fans.fans[(0 : Fin 6)].record.state = .unused ∧ Time.due 4999 up.fans.fans[(0 : Fin 6)].record.startingAt = false ∧
      up.fans.check = none ∧ up.fans.floors.get .a = none ∧ Time.due 9 up.refreshAt = false ∧
      (up.channel (.bay 59) .blue).ports.get .b = none ∧ up.store = .none ∧ (up.reader .a).state ≠ .waitingRoom ∧ up.phase ≠ .loading := by
  decide +kernel

/-- Timers and operations that run and are not due: a deadline at 1000, a check begun at 0, a floor and a light that expire at 1000, a store
while a reload ends and a reload while a store ends, and a reader that waits for room with its table full. -/
theorem witness_CommandsNotTaken_running :
    (bench.bay 4).record.state = .queued ∧ ((bench.bay 4).record.op.map fun o => Time.due 999 o.deadline) = some false ∧
      (checking.fans.check.map fun k => Time.reached 14999 (Time.plus k.start 15000)) = some false ∧
      ((expiring.fans.floors.get .a).map fun f => Time.due 999 f.expiry) = some false ∧
      (((expiring.channel (.bay 59) .amber).ports.get .a).map fun r => Time.due 999 r.expiry) = some false ∧
      reloading.store = .reloading .a (some 0x2300) ∧ (∃ q slip image, storing.store = .storing q slip image) ∧
      (let full : Reader := { up.readers.a with
          state := .waitingRoom, cursor := 0x2600, table := (List.range 16).map fun k => openSlip (BitVec.ofNat 16 (0x2300 + 32 * k)) 0x20 false }
       16 ≤ full.table.length ∧ full.state = .waitingRoom) :=
  ⟨by decide +kernel, by decide +kernel, by decide +kernel, by decide +kernel, by decide +kernel, by decide +kernel, ⟨_, _, _, rfl⟩,
    by decide +kernel⟩

theorem witness_BadTargets : bench.takeable (slipTo 60) = true ∧ bench.bayTarget 60 = none ∧ small.takeable (slipTo 24) = true ∧
    small.bayTarget 24 = none ∧ bench.takeable (slipTo 0xFD) = true ∧ bench.takeable (slipTo 0xFF) = true ∧
    bench.takeable (slipTo 4) = true ∧ bench.takeable (slipTo 8) = true ∧ bench.takeable (slipTo 1) = true ∧
    bench.takeable (slipTo 2) = true := by decide +kernel
theorem witness_BadTargets_store :
    (let s := { bench with straps := { bench.straps with store := false } }
     s.takeable (slipTo 0xFE) = true ∧ s.straps.store = false) := by decide +kernel

theorem witness_StartUpRuns_cold :
    Memory.read16 drawer.ram 0x201C = 0 ∧ Memory.read16 drawer.ram 0x401C = 0 ∧ windowOf Settings.default.windows.a = some ⟨0x2000, 0x2000⟩ ∧
      windowOf Settings.default.windows.b = some ⟨0x4000, 0x2000⟩ ∧ loading.imageCause true = .badSignature ∧
      loading.inCount 59 = true := by decide +kernel
theorem witness_StartUpRuns_within : started.phase = .starting ∧ calledUp.phase = .starting := by decide +kernel
theorem witness_StartUpRuns_warm : (∀ n : BayNo, Settings.default.bays[n].policy = .manual) ∧ Settings.default.account.delay ≠ 0 := by
  decide +kernel
/-- An image whose sections are all zeros (so every policy is AUTO_SPIN) but for port A's window of 2 KiB at 0x2000: 0x0266 + 0x20 = 0x0286. -/
def windowImage : Memory := [(0, 0x5A), (1, 0x36), (2, 0x60), (3, 0xC3), (4, 0xB0), (5, 0x02), (6, 0x01), (8, 0x86), (9, 0x02), (0x2AB, 0x20)]
/-- The bench in a warm reset, with that image in its settings memory and a slip posted behind port A's anchor. -/
def rewarmed : State :=
  run (.warmReset bench.straps 0) { bench with
    settingsMem := windowImage
    ram := Memory.writeRun (Memory.writeRun [] 0x201C [0x00, 0x23]) 0x2300 [1, 2, 0x01, 0xFE] }
/-- Bay 2 is found in OFF with a policy that moves it, and port A's anchor holds a link. -/
theorem witness_StartUpRuns_policies : rewarmed.imageCause true = .none ∧
    (Settings.ofImage rewarmed.settingsMem).bays[(2 : BayNo)].policy = .autoSpin ∧
    windowOf (Settings.ofImage rewarmed.settingsMem).windows.a = some ⟨0x2000, 0x800⟩ ∧
    (rewarmed.line 2).presence = true ∧ (rewarmed.line 2).sw5 = false ∧ Memory.read16 rewarmed.ram 0x201C = 0x2300 := by decide +kernel
-- R80: bays 1, 2 and 9, found in OFF, join in ascending number, and the first join's pass admits bay 1; port A's reader takes its slip.
theorem test_startUp_warm_policies :
    (let t := run (.startUp ⟨true, []⟩) rewarmed
     (t.bay 1).record.reason = .admitted ∧ t.scheduler.queue.map (·.bay) = [2, 9] ∧ Memory.read t.ram 0x2300 = 3) := by decide +kernel

/-- An image in SPARE_ONE (mode 1) or COMBINED (mode 0) with no slot fitted, POWER enabled at level 1 for port A, and profile 0 of peak12
and steady12 1: the sum 0x0266 of the header, port A's window 0x20, the mode and four ones. -/
def lostImage (mode : Byte) : Memory :=
  [(0, 0x5A), (1, 0x36), (2, 0x60), (3, 0xC3), (4, 0xB0), (5, 0x02), (6, 0x01), (8, 0x8A + mode), (9, 0x02), (0x17E, 1), (0x180, 1)] ++
    (if mode = 0 then [] else [(0x1DE, mode)]) ++ [(0x27C, 1), (0x27D, 1), (0x2AB, 0x20)]
-- R33, R179: REDUNDANCY_LOST, which start-up sets in SPARE_ONE with no slot GOOD, raises POWER; port A enables it, port B does not. In
-- COMBINED it stays clear.
theorem test_startUp_redundancy_raises_power :
    (let t (mode : Byte) := run (.startUp ⟨true, []⟩) { loading with settingsMem := lostImage mode }
     (t 1).account.redundancyLost = true ∧ (t 1).attention.a.pending[srcPower] = true ∧ (t 1).attention.b.pending[srcPower] = false ∧
       (t 0).account.redundancyLost = false ∧ (t 0).attention.a.pending[srcPower] = false) := by decide +kernel
/-- In SPARE_ONE with no slot fitted fewer than two are GOOD. -/
theorem witness_StartUpRuns_redundancy :
    (let set := Settings.loaded (lostImage 1) (State.imageCause { loading with settingsMem := lostImage 1 } true)
     set.account.mode = .spareOne ∧ (∀ i : Fin 4, set.supplies[i].cap12 = 0 ∧ set.supplies[i].cap5 = 0) ∧
       set.attention.a[srcPower].enable = true) := by decide +kernel
/-- R53: in COMBINED with no slot fitted the rediscovered READY bay 6, of steady12 1, over-commits the account at step 4. -/
theorem witness_StartUpRuns_overCommit :
    (let s := { rewarmed with settingsMem := lostImage 0 }
     let d := ((s.distribute true).raiseBoth srcLoadDone).startBays
     s.imageCause true = .none ∧ d.account.redundancyLost = false ∧ d.accountUpdate.account.overCommitted = true ∧
       (run (.startUp ⟨true, []⟩) s).attention.a.pending[srcPower] = true) := by decide +kernel

/-- A reader's open slips of the bench lie at slip positions of its port's window. -/
theorem bench_tables : bench.tablesSound := by
  refine ⟨fun p => ?_, fun h => ?_⟩
  · cases p
    · refine ⟨by decide +kernel, by decide +kernel, ?_, by decide +kernel⟩
      have hw : bench.windows.get .a = some ⟨0x2000, 0x2000⟩ := by decide +kernel
      have hs : ∀ e ∈ (bench.reader .a).table, Window.isSlip ⟨0x2000, 0x2000⟩ e.addr.toNat = true := by decide +kernel
      exact fun e he => ⟨_, hw, hs e he⟩
    · refine ⟨by decide +kernel, by decide +kernel, ?_, by decide +kernel⟩
      have hw : bench.windows.get .b = some ⟨0x4000, 0x2000⟩ := by decide +kernel
      have hs : ∀ e ∈ (bench.reader .b).table, Window.isSlip ⟨0x4000, 0x2000⟩ e.addr.toNat = true := by decide +kernel
      exact fun e he => ⟨_, hw, hs e he⟩
  · exact absurd h (by decide +kernel)

/-- The admission queue of the bench holds its QUEUED bays. -/
theorem bench_queue : bench.queueSound := by
  refine ⟨?_, ?_, ?_, ?_⟩ <;> (try unfold State.emptyWhileLoading) <;> decide +kernel

/-- The queue of the bench with latch action STOP. -/
theorem stopping_queue : stopping.queueSound := by
  refine ⟨?_, ?_, ?_, ?_⟩ <;> (try unfold State.emptyWhileLoading) <;> decide +kernel

/-- The account of the bench. -/
theorem bench_balanced : bench.balanced := by unfold State.balanced State.spareGone; decide +kernel

theorem witness_MemoriesStayCanonical : bench.memoriesCanonical ∧ ∃ t, step bench = .next t :=
  ⟨⟨by decide +kernel, by decide +kernel⟩, _, rfl⟩
theorem witness_AccountStaysBalanced : bench.balanced ∧ ∃ t, step bench = .next t := ⟨bench_balanced, _, rfl⟩
theorem witness_QueueStaysSound : bench.queueSound ∧ ∃ t, step bench = .next t := ⟨bench_queue, _, rfl⟩
/-- The part in its settings load, to which the clause about the load speaks; START_UP leads out of it. -/
theorem loading_tables : loading.tablesSound := by
  refine ⟨fun p => ?_, fun _ => ⟨rfl, fun p => by cases p <;> exact ⟨rfl, rfl⟩⟩⟩
  cases p <;> exact ⟨by decide, by decide, nofun, by decide⟩
theorem witness_TablesStaySound_loading : loading.phase = .loading ∧ loading.tablesSound ∧
    ∃ t, step { loading with pending := [.startUp ⟨true, []⟩] } = .next t := ⟨rfl, loading_tables, _, rfl⟩
theorem witness_TablesStaySound : bench.tablesSound ∧ ∃ t, step bench = .next t := ⟨bench_tables, _, rfl⟩
theorem witness_DutyStaysSound : bench.dutySound ∧ ∃ t, step bench = .next t :=
  ⟨by unfold State.dutySound; decide +kernel, _, rfl⟩
theorem witness_SwitchesFollowBays : bench.queueSound ∧ bench.switchesFollow ∧ ∃ t, step bench = .next t :=
  ⟨bench_queue, by unfold State.switchesFollow State.emptyWhileLoading; decide +kernel, _, rfl⟩
/-- Every record of the bench stands published. -/
theorem bench_recorded : bench.recorded where
  bays := by unfold State.shown; decide +kernel
  lights := by decide +kernel
  fans := by decide +kernel
  supplies := by decide +kernel
  zones := by decide +kernel
  sensors := fun i => ⟨bench.sensors[i].fails, bench.sensors[i].goodAt, by revert i; decide +kernel⟩
  summary := ⟨_, rfl, by decide +kernel, by decide +kernel, by decide +kernel, by decide +kernel, by decide +kernel, by decide +kernel,
    by decide +kernel, fun _ => rfl, fun k h => nomatch h⟩
  queue := by decide +kernel
  enclosure := by decide +kernel
  readers := fun | .a => by decide +kernel | .b => by decide +kernel
  attention := fun | .a => by decide +kernel | .b => by decide +kernel

theorem witness_RecordsStayPublished : bench.published ∧ ∃ t, step bench = .next t := ⟨⟨rfl, rfl, fun _ => bench_recorded⟩, _, rfl⟩
theorem bench_quiet : bench.quiet := by unfold State.quiet; decide +kernel
theorem witness_RecordsStayPublished_quiet : bench.queueSound ∧ bench.quiet ∧ ∃ t, step bench = .next t := ⟨bench_queue, bench_quiet, _, rfl⟩
/-- A spin window's end moves bay 5's record and the summary record: their positions are set in both bitmaps, bay 6's in neither; a READ of
the first byte of a bitmap clears positions 0 to 7, and not 8, of its own port alone. -/
theorem witness_RecordsStayPublished_marks :
    (let s := { bench with status := { bench.status with bitmaps := ⟨0, 0⟩ }, pending := [.spinWindowEnd 5] }
     let t := after (step s)
     s.phase = .running ∧ t.phase = .running ∧ t.status.bays[(5 : BayNo)] ≠ s.status.bays[(5 : BayNo)] ∧
       t.status.summary ≠ s.status.summary ∧ t.status.marks 5 ∧ t.status.marks 79 ∧
       t.status.bitmaps.a.getLsbD 6 = false ∧ t.status.bitmaps.b = t.status.bitmaps.a) ∧
    (let t := after (step { bench with pending := [.read .b 0x00E0 1] })
     t.phase = .running ∧ t.status.bitmaps.b = BitVec.allOnes 80 <<< 8 ∧ t.status.bitmaps.a = BitVec.allOnes 80) := by
  unfold Status.marks; decide +kernel
/-- A bay that leaves SPINNING_UP, and one that moves into a candidate state of a shed whose delay has expired. -/
theorem witness_BayHandled_reports :
    (let u := bench.stopToPark 5 .command (bench.internalOp .powerOff)
     (bench.bay 5).record.state = .spinningUp ∧ (u.bay 5).record.state ≠ .spinningUp ∧ u.reports.pass = true) ∧
      (let u := short.stopToPark 6 .command (short.internalOp .powerOff)
       short.spentDelay ∧ (u.bay 6).record.state ≠ (short.bay 6).record.state ∧ u.account.overCommitted = true ∧
         (u.bay 6).record.state.spinning = true ∧ u.reports.run = true) := by
  unfold State.spentDelay; decide +kernel
/-- The head of the queue leaves it, and bay 11 moves ahead of the head by its class: each gives an admission opportunity. -/
theorem witness_BayHandled_head : headBay bench.scheduler.queue = some 4 ∧ headBay (bench.leave 4).scheduler.queue = some 11 ∧
    (bench.leave 4).reports.pass = true ∧ headBay (bench.reclass 11 0).scheduler.queue = some 11 ∧
    (bench.reclass 11 0).reports.pass = true ∧ (bench.bay 11).record.state = .queued ∧ (bench.baySet 11).cls = 2 := by decide +kernel
/-- A command at the front of the queue, too, answers a next state. -/
theorem witness_step_of_a_command : ∃ t, step { bench with pending := [.spinWindowEnd 5] } = .next t := ⟨_, rfl⟩

theorem witness_PresenceTaken : up.phase = .running ∧ up.inCount 59 = true ∧ (up.line 59).presence = false ∧
    (up.bay 59).record.state = .empty ∧ (unseated.line 1).presence = false ∧ (unseated.bay 1).record.state = .settling ∧
    (unseated.line 2).presence = false ∧ (unseated.bay 2).record.state.fromOff = true ∧ unseated.phase = .running ∧
    unseated.inCount 2 = true := by decide +kernel
theorem witness_PresenceTaken_other : (bench.line 1).presence = true ∧ (bench.line 2).presence = true ∧ bench.inCount 1 = true ∧
    bench.inCount 2 = true ∧ (bench.bay 1).record.state = .settling ∧ (bench.bay 2).record.state.fromOff = true ∧
    ¬ (small.phase = .running ∧ small.inCount 24 = true) := by decide +kernel

theorem witness_PolicyAppliedAtRest : bench.phase = .running ∧ (bench.bay 1).record.state = .settling ∧
    Time.due bench.time (bench.bay 1).settleAt = true ∧ (bench.bay 9).record.state = .faulted ∧
    Time.due bench.time (bench.bay 9).backoffAt = true ∧ bench.takeable (slipTo 9) = true ∧ bench.bayTarget 9 = some 9 ∧
    bench.takeable (slipTo 6) = true ∧ bench.bayTarget 6 = some 6 ∧ (bench.bay 6).record.state ≠ .faulted := by decide +kernel
/-- Bay 1 at the edge of its 5 V fit: it moves by LOGIC_ONLY and AUTO_SPIN from 1180 on, and waits at 1179. -/
theorem witness_PolicyAppliedAtRest_policies :
    (let rest := (bench.bay 1).stands .off .inserted 1000 0 0 .clear none
     (policed .logicOnly false 1180).policyMoves 1 rest ∧ (policed .logicOnly false 1180).roomFor 1 ∧
       (policed .autoSpin false 1180).policyMoves 1 rest ∧ (policed .autoSpin false 1180).roomFor 1 ∧
       (policed .autoSpin false 1179).policyMoves 1 rest ∧ ¬ (policed .autoSpin false 1179).roomFor 1 ∧ ¬ bench.policyMoves 1 rest) := by
  unfold State.policyMoves State.roomFor; decide +kernel

/-- A walk with no pass due: bay 2 waits and is moved by either policy where its drive fits, held by its latch it does not wait, at 1179 it
does not fit, and bay 6 does not wait. -/
theorem witness_PolicyAppliedAtRest_walk :
    (let s := waitingFor5 .logicOnly false 1180
     let fits (s : State) : Prop := s.account.committed5 + (s.profileOf 2).i5 ≤ s.account.usable5
     s.reports.pass = false ∧ s.reports.walk = true ∧ s.waitsFor5 2 ∧ fits s ∧ (s.baySet 2).policy = .logicOnly ∧
       ((waitingFor5 .autoSpin false 1180).baySet 2).policy = .autoSpin ∧ ¬ fits (waitingFor5 .logicOnly false 1179) ∧
       ¬ (waitingFor5 .logicOnly true 1180).waitsFor5 2 ∧ ¬ s.waitsFor5 6) := by
  unfold State.waitsFor5; decide +kernel

theorem witness_AbsenceExpiryEmptiesBay : bench.phase = .running ∧ (bench.bay 1).record.state = .settling ∧
    Time.due bench.time (bench.bay 1).absenceAt = true ∧ (bench.bay 2).record.state.fromOff = true ∧
    Time.due bench.time (bench.bay 2).absenceAt = true ∧ (bench.bay 9).record.state.fromOff = true ∧
    Time.due bench.time (bench.bay 9).absenceAt = true := by decide +kernel

theorem witness_LatchLevelReported : bench.phase = .running ∧ (bench.bay 6).record.state.fromOff = true ∧
    (bench.bay 6).record.flags.latchOpen = false ∧ ((bench.bay 6).record.state.powered && (bench.baySet 6).latchStop) = false ∧
    ((run (.latchOpen 6) bench).bay 6).record.flags.latchOpen = true ∧ (run (.latchOpen 6) bench).phase = .running ∧
    ((run (.latchOpen 6) bench).bay 6).record.state.fromOff = true ∧ (bench.bay 1).record.state.fromOff = false := by decide +kernel

theorem witness_LatchStopProceedsByState : stopping.phase = .running ∧ stopping.queueSound ∧
    ((∀ n ∈ [(3 : BayNo), 4, 5, 6, 7, 8], (stopping.bay n).record.state.powered = true ∧ (stopping.bay n).record.flags.latchOpen = false ∧
      (stopping.baySet n).latchStop = true) ∧ stopInFlight (stopping.bay 8).record.op = true ∧ (stopping.bay 3).record.op = none ∧
      supersedable (stopping.bay 4).record.op = true ∧ supersedable (stopping.bay 5).record.op = true ∧ (stopping.bay 6).record.op = none ∧
      supersedable (stopping.bay 7).record.op = true) :=
  ⟨by decide +kernel, stopping_queue, by decide +kernel⟩

theorem witness_TripFaultsBay : bench.phase = .running ∧ (bench.bay 3).record.state.powered = true ∧
    (bench.bay 3).record.retries < bench.settings.timing.retryLimit := by decide +kernel

theorem witness_WindowsEndByKind : bench.phase = .running ∧ (bench.bay 5).record.state = .spinningUp ∧
    Time.due bench.time (bench.bay 5).spinAt = true ∧
    (∀ n ∈ [(7 : BayNo), 8, 12, 13, 14], (bench.bay n).record.state = .spinningDown ∧ Time.due bench.time (bench.bay n).parkAt = true) ∧
    (bench.bay 8).record.op.map (·.kind) = some .powerOff ∧ (bench.bay 12).record.op.map (·.kind) = some .prepareRemoval ∧
    (bench.bay 14).record.op.map (·.kind) = some .latchStop ∧ (bench.bay 7).record.op.map (·.kind) = some .spinDown ∧
    (bench.bay 13).record.op.map (·.kind) = some .spinUp := by decide +kernel

/-- Bays 1 to 9 of the bench stand for every state; a slip to each can be taken. -/
theorem witness_bay_slips : (∀ n ∈ [(0 : BayNo), 1, 2, 3, 4, 5, 6, 7, 8, 9],
    bench.takeable (slipTo (BitVec.ofNat 8 n.val)) = true ∧ bench.bayTarget (BitVec.ofNat 8 n.val) = some n) := by decide +kernel
theorem witness_PowerOnByState : (bench.bay 0).record.state = .empty ∧ (bench.bay 3).record.state.powered = true ∧
    (bench.bay 2).record.state = .off ∧ (policed .manual false 1180).account.committed5 + ((policed .manual false 1180).profileOf 2).i5 ≤
      (policed .manual false 1180).account.usable5 ∧
    ¬ (policed .manual false 1179).account.committed5 + ((policed .manual false 1179).profileOf 2).i5 ≤
      (policed .manual false 1179).account.usable5 ∧ (policed .manual false 1179).takeable (slipTo 2) = true ∧
    (policed .manual false 1180).takeable (slipTo 2) = true := by decide +kernel
theorem witness_StopByState : bench.queueSound ∧ (bench.bay 2).record.state = .off ∧ (bench.bay 2).record.flags = .clear ∧
    (bench.bay 8).record.state.powered = true ∧ ¬ ((bench.bay 8).record.op = none ∨ supersedable (bench.bay 8).record.op = true) ∧
    (bench.bay 3).record.op = none ∧ supersedable (bench.bay 4).record.op = true ∧ supersedable (bench.bay 5).record.op = true ∧
    (bench.bay 6).record.op = none ∧ supersedable (bench.bay 7).record.op = true := by
  refine ⟨bench_queue, ?_⟩; decide +kernel
theorem witness_SetBayStores : (bench.bay 4).record.state = .queued ∧
    bench.scheduler.queue.find? (fun x => x.bay == 4) ≠ none ∧ (bench.baySet 4).cls = 2 ∧ (bench.baySet 4).profile = 0 ∧
    short.account.overCommitted = true ∧ short.account.delayExpired = true ∧ short.account.shedTimer = none ∧
    short.settings.account.shed = true ∧ short.takeable (slipTo 4) = true := by decide +kernel

/-- The bench whose supplies have just become too small on 12 V, and the short bench whose supplies have grown. -/
theorem witness_AccountHandlesChange :
    (let s := { bench with settings := { bench.settings with supplies := #v[⟨2679, 4000⟩, ⟨2679, 4000⟩, ⟨0, 0⟩, ⟨0, 0⟩] } }
     let u := { short with settings := { short.settings with supplies := bench.settings.supplies } }
     s.account.overCommitted = false ∧ s.accountUpdate.account.overCommitted = true ∧ s.settings.account.delay ≠ 0 ∧
       u.account.overCommitted = true ∧ u.accountUpdate.account.overCommitted = false ∧
       u.account.usable12 < u.accountUpdate.account.usable12 ∧ short.accountUpdate.account.overCommitted = true) := by decide +kernel
/-- The short bench, its shed delay spent, whose usable budget moves by 1 mA and stays too small. -/
theorem witness_AccountHandlesChange_spent :
    (let s := { short with settings := { short.settings with supplies := #v[⟨2201, 4000⟩, ⟨2201, 4000⟩, ⟨0, 0⟩, ⟨0, 0⟩] } }
     s.spentDelay ∧ s.accountUpdate.account.overCommitted = true ∧ s.accountUpdate.account.usable12 ≠ s.account.usable12) := by
  unfold State.spentDelay; decide +kernel
theorem witness_SupplyInputsSetState : bench.phase = .running ∧ bench.settings.supplies[(1 : Fin 4)].cap12 ≠ 0 ∧
    bench.account.supplies[(1 : Fin 4)].state = .good ∧ bench.settings.supplies[(2 : Fin 4)].cap12 = 0 ∧
    bench.settings.supplies[(2 : Fin 4)].cap5 = 0 := by decide +kernel
theorem witness_ShedRunPicksByOrder :
    (let s := { short with account := { short.account with shedTimer := some 1000 } }
     s.phase = .running ∧ Time.due s.time s.account.shedTimer = true ∧ short.account.overCommitted = true ∧
       short.settings.account.shed = true ∧ ¬ short.account.usable5 < short.account.committed5 ∧
       (short.baySet 10).shedEligible = true ∧ (short.bay 10).record.state.spinning = true ∧ bench.account.overCommitted = false) := by
  decide +kernel
/-- In the short bench bay 10 stands before every other candidate in the shed order; with no bay shed-eligible there is none. -/
theorem witness_ShedRunPicksByOrder_first :
    (∀ m : BayNo, (short.baySet m).shedEligible = true ∧ (short.bay m).record.state.spinning = true → m ≠ 10 → short.shedBefore 10 m) ∧
    (let none' := { short with settings := { short.settings with
        bays := short.settings.bays.map fun (b : BaySettings) => { b with shedEligible := false } } }
     ∀ n : BayNo, (none'.baySet n).shedEligible = false) := by
  unfold State.shedBefore; decide +kernel
/-- The bench with every kind of report in turn waiting: a pass, a walk, a thermal list, a shed run, and none. -/
theorem witness_ShedRunPicksByOrder_reports :
    (let s (pass walk run : Bool) (thermal : List BayNo) : State :=
       { bench with reports := { pass := pass, walk := walk, run := run, thermal := thermal, summaryHeld := false } }
     (s true true true [6]).settleStep.isSome = true ∧ (s false true true [6]).settleStep.isSome = true ∧
       (s false false true [6, 3]).settleStep.isSome = true ∧ (s false false true []).settleStep.isSome = true ∧
       (s false false true [6]).reports.thermal.length ≤ 60 ∧ (bench.bay 6).record.state = .ready ∧
       (bench.bay 5).record.state = .spinningUp ∧ (bench.bay 3).record.state = .logic ∧ (bench.bay 7).record.state = .spinningDown) ∧
      bench.queueSound ∧ bench.quiet :=
  ⟨by decide +kernel, bench_queue, bench_quiet⟩
theorem witness_ShedTakenByBay : (bench.bay 6).record.state.spinning = true ∧ stopInFlight (bench.bay 6).record.op = false ∧
    (bench.bay 8).record.state.spinning = true ∧ stopInFlight (bench.bay 8).record.op = true ∧ (bench.bay 3).record.state.spinning = false ∧
    (bench.bay 3).record.state.powered = true ∧ (bench.bay 2).record.state.powered = false := by decide +kernel
theorem witness_CurrentSampleReconciles : later.phase = .running ∧ later.inCount 6 = true ∧ (later.bay 6).record.state = .ready ∧
    10000 ≤ Time.age later.time (later.bay 6).record.entered ∧ ¬ 10000 ≤ Time.age 10006 (bench.bay 6).record.entered ∧
    (bench.bay 6).reconciling = false ∧ (bench.bay 5).record.state ≠ .ready := by decide +kernel
theorem witness_SetSupplyRecomputes : bench.takeable (slipTo 3) = true ∧ bench.takeable (slipTo 0xFE) = true ∧
    bench.settings.supplies[(3 : Fin 4)].cap12 ≠ 1 ∧ short.account.overCommitted = true ∧ short.settings.account.shed = true ∧
    short.settings.account.reserve12 ≠ 1 ∧ short.takeable (slipTo 0xFE) = true := by decide +kernel
/-- Shed turned from OFF to ON while the account is and stays over-committed: with a delay of 0 the shed run is asked for at once, with one of
10 s (the delay setting's greatest) the timer starts and no run. -/
theorem witness_SetSupplyRecomputes_shedOn :
    (let s := { short with settings := { short.settings with account := { short.settings.account with shed := false } } }
     let on (delay : Byte) : State := (s.setAccount ⟨none, none, none, some 1, some delay⟩).1
     s.account.overCommitted = true ∧ s.takeable (slipTo 0xFE) = true ∧ s.reports.run = false ∧ (on 0).account.overCommitted = true ∧
       (on 0).account.shedTimer = none ∧ (on 0).reports.run = true ∧ (on 10).account.overCommitted = true ∧
       (on 10).account.shedTimer = some (Time.plus s.time 10000) ∧ (on 10).reports.run = false) := by decide +kernel

theorem witness_QueueEntriesJoinAndTimeOut : bench.scheduler.queue.Pairwise (fun d f => d.cls ≤ f.cls) ∧ bench.phase = .running ∧
    (bench.bay 4).record.state = .queued ∧ Time.due bench.time ((bench.bay 4).record.op.bind (·.deadline)) = true := by decide +kernel
theorem witness_PassAdmitsByTest :
    (let s := { bench with reports := { bench.reports with pass := true } }
     s.reports.pass = true ∧ bench.phase = .running ∧ Time.due bench.time bench.scheduler.staggerAt = true ∧
       Time.due 999 bench.scheduler.staggerAt = false) := by decide +kernel
/-- The three ends of a pass: no head, a head that passes its test, and one that fails it. -/
theorem witness_PassAdmitsByTest_ends : headBay up.scheduler.queue = none ∧ headBay bench.scheduler.queue = some 4 ∧
    bench.admissionTest 4 = .none ∧ State.admissionTest { bench with time := 999 } 4 = .stagger := by decide +kernel
theorem witness_AdmissionStepsWithinBudget : (∃ e rest, bench.scheduler.queue = e :: rest ∧ (bench.bay e.bay).record.state = .queued) ∧
    bench.balanced ∧ bench.queueSound ∧ headBay bench.scheduler.queue = some 4 ∧ bench.admissionTest 4 = .none :=
  ⟨⟨_, _, rfl, by decide +kernel⟩, bench_balanced, bench_queue, by decide +kernel, by decide +kernel⟩
theorem witness_SpinUpAndDownByState : (bench.bay 0).record.state = .empty ∧ (bench.bay 6).record.state = .ready ∧
    (bench.bay 6).record.op = none ∧ (bench.bay 4).record.state = .queued ∧ (bench.bay 3).record.state = .logic ∧
    (bench.bay 3).record.op = none ∧ (bench.bay 2).record.state = .off ∧ (bench.bay 2).record.op = none ∧
    bench.account.committed5 + (bench.profileOf 2).i5 ≤ bench.account.usable5 ∧
    ¬ (policed .manual false 1179).account.committed5 + ((policed .manual false 1179).profileOf 2).i5 ≤
      (policed .manual false 1179).account.usable5 := by decide +kernel
theorem witness_SetScheduleMakesPass :
    (let s := { bench with time := 999 }
     s.takeable (slipTo 0xFE) = true ∧ s.scheduler.staggerAt = some 1000 ∧ s.scheduler.lastAdmission = some 1 ∧
       Time.reached s.time 1000 = false ∧ s.settings.schedule.stagger = 1500) := by decide +kernel

theorem witness_SensorsScanned :
    (let s := { bench with scan := { left := [0], discard := false } }
     let d := { bench with scan := { left := [0, 1], discard := true } }
     bench.phase = .running ∧ Time.due bench.time bench.scanAt = true ∧ Time.due 999 bench.scanAt = false ∧ s.scan.left = 0 :: [] ∧
       d.scan.left = 0 :: [1] ∧ bench.scan.left.head? ≠ some 0) := by decide +kernel
/-- An OK sensor two failures along, and a FAILED one: a failed read of the first enters FAILED and a good read of the second leaves it,
a third good read in OK and a second failure change no entry. -/
theorem witness_SensorsScanned_entry :
    (let old (st : SensorState) (fails : Nat) : Sensor := { Sensor.cold with state := st, fails := fails }
     let s (u : Sensor) : State := { bench with scan := { left := [0], discard := false }, sensors := bench.sensors.set (0 : Fin 8) u }
     let t := run (.sensorRead 0 none) (s (old .ok 2))
     let u := run (.sensorRead 0 (some 30)) (s (old .failed 3))
     t.sensors[(0 : Fin 8)].state = .failed ∧ u.sensors[(0 : Fin 8)].state = .ok ∧
       (run (.sensorRead 0 none) (s (old .ok 1))).sensors[(0 : Fin 8)].state = .ok) := by decide +kernel
/-- Zone 0 evaluated with T above E, T far below E, T within the hysteresis, and with no source; entering, staying and leaving CRITICAL. -/
theorem witness_ZonesEvaluatedTogether :
    (heated 60 30 .normal).evaluateZones.zones[(0 : Fin 4)].t = some 60 ∧
      (heated 60 30 .normal).evaluateZones.zones[(0 : Fin 4)].state = .critical ∧
      (heated 57 60 .critical).evaluateZones.zones[(0 : Fin 4)].t = some 57 ∧
      (heated 57 60 .critical).evaluateZones.zones[(0 : Fin 4)].state ≠ .critical ∧
      (heated 58 60 .critical).evaluateZones.zones[(0 : Fin 4)].state = .critical ∧
      (heated 58 60 .critical).evaluateZones.zones[(1 : Fin 4)].t = none := by decide +kernel
/-- Sources of each class in zone 0 and zone 3: sensor 0 valid, sensor 1 pending, sensor 3 missing; bay 6 in READY pending through its grace,
missing once it has run out, and valid with a drive reading; a zone that stays CRITICAL with the critical shed time 0 and a running timer. -/
theorem witness_ZonesEvaluatedTogether_classes :
    (let s := heated 60 60 .critical
     let s := { s with sensors := s.sensors.set (3 : Fin 8) { Sensor.cold with state := .failed, fails := 3 } }
     let out := { s with feeds := s.feeds.set (6 : BayNo) { BayFeed.cold with graceOut := true } }
     let e : FeedEntry := { value := 30, stamp := some 900, stale := false }
     let fed := { s with feeds := s.feeds.set (6 : BayNo) { BayFeed.cold with entries := ⟨e, FeedEntry.void⟩, latest := some .a } }
     let z0 := s.settings.zones[(0 : Fin 4)]
     let z0 := { z0 with limits := { z0.limits with shedTime := 0 } }
     let zero := { s with settings := { s.settings with zones := s.settings.zones.set (0 : Fin 4) z0 } }
     let counts (t : State) (z : Fin 4) := let x := t.evaluateZones.zones[z]; (x.valid, x.pending, x.missing)
     s.settings.sensors[(3 : Fin 8)].zone = some 3 ∧ (s.baySet 6).zone = 0 ∧ s.inCount 6 = true ∧
       counts s 0 = (1, 8, 0) ∧ counts s 3 = (0, 0, 1) ∧ counts out 0 = (1, 7, 1) ∧ counts fed 0 = (2, 7, 0) ∧
       zero.evaluateZones.zones[(0 : Fin 4)].state = .critical ∧ zero.zones[(0 : Fin 4)].timer = .running 1000) := by decide +kernel
theorem witness_drive_readings :
    (let e : FeedEntry := { value := 30, stamp := some 5, stale := false }
     let f : BayFeed := { entries := ⟨e, e⟩, latest := some .a, spinStart := none, graceOut := false }
     f.entries.a.stamp ≠ none ∧ f.entries.b.stamp ≠ none ∧ f.latest = some .a ∧ (BayFeed.cold.entries.a.stamp = none) ∧
       (f.entries.get .a).stamp = some 5) := by decide +kernel
theorem witness_CriticalExpirySheds : (heated 60 60 .critical).phase = .running ∧
    (heated 60 60 .critical).zones[(0 : Fin 4)].timer = .running 1000 ∧ Time.reached (heated 60 60 .critical).time 1000 = true ∧
    bench.zones[(0 : Fin 4)].timer = .stopped := by decide +kernel
-- Byte 99 is 59 °C and byte 100 is 60 °C, the default critical temperature.
theorem witness_SetZoneWritesParts : bench.takeable (slipTo 3) = true ∧ bench.takeable (slipTo 0xFE) = true ∧
    bench.settings.zones[(3 : Fin 4)].limits.critical = 60 ∧ byteTemp 99 = (59, false) ∧ byteTemp 100 = (60, false) ∧
    byteTemp 190 = (150, false) ∧ byteTemp 191 = (150, true) := by decide +kernel
theorem witness_SetSensorReassigns :
    (let s := { bench with
        scan := { left := [0, 1], discard := false }
        sensors := bench.sensors.set (0 : Fin 8) { Sensor.cold with state := .failed, fails := 3 } }
     s.takeable (slipTo 0) = true ∧ s.settings.sensors[(0 : Fin 8)].zone = some 0 ∧ s.scan.left = 0 :: [1] ∧
       (s.status.sensors[(0 : Fin 8)]).isSome = true ∧
       s.sensors[(0 : Fin 8)].state = .failed ∧ s.settings.sensors[(7 : Fin 8)].zone = none) := by decide +kernel

theorem witness_CurveValueBetweenEnds : Curve.default.accepted = true ∧ (25 : Int) ≤ Curve.default.p1.t ∧ Curve.default.p4.t ≤ 55 := by decide
/-- Fans on the edges of the tachometer check: limit 100. -/
theorem witness_TachCheckCounts :
    (let ok : FanRecord := { FanRecord.cold with state := .ok, low := 2 }
     let bad : FanRecord := { FanRecord.cold with state := .failed, high := 4 }
     let f (r : FanRecord) (rpm : Nat) : Fan := { record := r, latest := rpm, present := true }
     (f ok 99).latest < 100 ∧ ¬ (f ok 100).latest < 100 ∧ (f ok 99).record.low = 2 ∧ (f bad 100).record.high = 4 ∧
       FanRecord.cold.state ≠ .ok ∧ FanRecord.cold.state ≠ .failed) := by decide +kernel
theorem witness_CoolingPeriodStages :
    (let s := { up with time := 1000 }
     let lost := { s with fans := { s.fans with fans := Vector.replicate 6 { record := { FanRecord.cold with state := .absent }, latest := 0, present := false } } }
     s.phase = .running ∧ Time.due s.time s.coolingAt = true ∧ s.fans.check = none ∧ s.fansMissing = 0 ∧ lost.fansMissing = 6 ∧
       lost.settings.fans.count = 6) := by decide +kernel
theorem witness_FanReportsTaken : up.phase = .running ∧ (5 : Fin 6).val < up.settings.fans.count ∧
    up.fans.fans[(5 : Fin 6)].record.state = .starting ∧ Time.due 5000 up.fans.fans[(5 : Fin 6)].record.startingAt = true ∧
    up.fans.check = none ∧ checking.fans.check ≠ none ∧ checking.phase = .running ∧ State.reset.phase ≠ .running := by decide +kernel
theorem witness_FanCheckStartsAndEnds : up.takeable (slipTo 0xFE) = true ∧ up.fans.check = none ∧ up.settings.fans.reserve ≤ 1000 ∧
    checking.takeable { slipTo 0xFE with addr := 0x2320 } = true ∧ checking.fans.check ≠ none ∧ checking.phase = .running ∧
    (checking.fans.check.map (·.start)) = some 0 ∧ Time.reached 15000 (Time.plus 0 15000) = true ∧
    (checking.fans.check.map (·.peaks.toList)) = some [0, 0, 0, 0, 0, 0] := by decide +kernel
/-- The start republishes the summary record once, with generation 1 after 0, the duty and the check in it. -/
theorem witness_FanCheckStarts_summary : up.reports.summaryHeld = false ∧
    up.status.summary.map (fun u => (u.gen, u.cooling.c, u.cooling.check)) = some (0, 1000, none) ∧
    (run (.fanCheck (slipTo 0xFE)) up).status.summary.map (fun u => (u.gen, u.cooling.c, u.cooling.check)) =
      some (1, 1000, some (.a, 0)) := by decide +kernel
/-- A check that ends with a highest speed of 65536 rpm and one of 65535. -/
theorem witness_FanCheckEnd_wide :
    (let s : State := { checking with
        time := 15000
        fans := { checking.fans with check := some { origin := .a, slip := some 0x2300, start := 0, peaks := #v[65536, 65535, 0, 0, 0, 0] } } }
     s.phase = .running ∧ (s.fans.check.map (·.start)) = some 0 ∧ Time.reached s.time (Time.plus 0 15000) = true ∧
       (s.fans.check.map fun k => (k.peaks[(0 : Fin 6)], k.peaks[(1 : Fin 6)])) = some (65536, 65535)) := by decide +kernel
theorem witness_SetFansActsAtOnce : up.takeable (slipTo 0xFE) = true ∧ up.settings.fans.count = 6 ∧
    (FanSettings.apply ⟨some 5, none, none, none, none, none, none, none⟩ up.settings.fans).1.count = 5 ∧
    (run (.fanPresenceReport 5 false) up).fans.fans[(5 : Fin 6)].record.state = .absent := by decide +kernel
theorem witness_PortFloorSetAndExpired : up.takeable (slipTo 0xFE) = true ∧ expiring.phase = .running ∧
    expiring.fans.floors.get .a = some { duty := 500, expiry := some 1000 } ∧ Time.reached expiring.time 1000 = true := by decide +kernel

theorem witness_ChainRefreshShowsWinners : bench.phase = .running ∧ Time.due bench.time bench.refreshAt = true ∧ bench.inCount 59 = true ∧
    small.inCount 24 = false := by decide +kernel
theorem witness_LightSlotWritten : up.takeable (slipTo 0xFE) = true ∧ up.takeable (slipTo 59) = true ∧ up.bayTarget 59 = some 59 ∧
    expiring.phase = .running ∧ (expiring.channel (.bay 59) .amber).ports.get .a = some { pattern := 1, priority := 3, expiry := some 1000 } ∧
    Time.reached expiring.time 1000 = true := by decide +kernel

theorem witness_SlipEndFieldsWritten : Memory.wf [] ∧ (0x22FF < 0x2300 ∨ 0x2300 + 28 ≤ 0x22FF) ∧ (0x231C < 0x2300 ∨ 0x2300 + 28 ≤ 0x231C) :=
  ⟨Memory.wf_nil, by decide, by decide⟩
theorem witness_ReadServesBytes : loading.phase = .loading ∧ up.phase ≠ .loading ∧ (0x7FFF : Half).toNat < 0x8000 ∧
    0x8003 ≤ (0x8003 : Half).toNat ∧ (∃ snap, up.status.bays[(59 : BayNo)] = some snap) ∧
    (run (.coldReset up.straps 0) up).status.bays[(59 : BayNo)] = none :=
  ⟨by decide +kernel, by decide +kernel, by decide +kernel, by decide +kernel, ⟨_, rfl⟩, by decide +kernel⟩
/-- Every group of the status area holds a published record in the drawer, and the bench's bay 4 an operation with slip and deadline. -/
theorem witness_ReadServesBytes_records :
    up.status.summary.isSome = true ∧ up.status.queue.isSome = true ∧ up.status.enclosure.isSome = true ∧
      up.status.lights[(59 : BayNo)].isSome = true ∧ (∀ p, (up.status.readers.get p).isSome = true) ∧
      (∀ p, (up.status.attention.get p).isSome = true) ∧ up.status.supplies[(3 : Fin 4)].isSome = true ∧
      up.status.fans[(5 : Fin 6)].isSome = true ∧ up.status.sensors[(7 : Fin 8)].isSome = true ∧
      up.status.zones[(3 : Fin 4)].isSome = true ∧
      ((bench.status.bays[(4 : BayNo)]).bind fun x => x.record.op.bind fun o => o.slip.bind fun a => o.deadline.map fun d => (a, d)) =
        some (0x2200, 1000) := by
  refine ⟨by decide +kernel, by decide +kernel, by decide +kernel, by decide +kernel, ?_, ?_, by decide +kernel, by decide +kernel,
    by decide +kernel, by decide +kernel, by decide +kernel⟩ <;> (intro p; cases p <;> decide +kernel)
-- A bay record, Table 11-9: bay 4 of the bench in QUEUED (4), reason COMMAND (5), policy MANUAL (2), class 2; SPIN_UP (3) by port A with its
-- slip 0x2200 and a deadline (1 + 4 + 8 = 13); a fan record, 11-13: STARTING (2); a zone record: COMPLETE to NO_SOURCES, 25 °C.
theorem test_read_records : (run (.read .a 0x05C1 4) bench).links.a.out = [4, 5, 2, 2] ∧
    (run (.read .a 0x05DA 4) bench).links.a.out = [3, 13, 0x00, 0x22] ∧ (run (.read .a 0x02C1 1) bench).links.a.out = [2] ∧
    (run (.read .a 0x0350 4) bench).links.a.out = [0, 0, 0, 1] := by decide +kernel
-- Section 11.4: positions 0 and 9 are bit 0 of byte 0 and bit 1 of byte 1, position 79 is bit 7 of byte 9; no record holds 0x00DA or 0x03D0.
theorem test_read_bitmaps :
    (let s := { bench with status := { bench.status with bitmaps := ⟨0x201, 1 <<< 79⟩ } }
     (run (.read .a 0x00D0 2) s).links.a.out = [1, 2] ∧ (run (.read .a 0x00E8 4) s).links.a.out = [0, 0x80, 0, 0] ∧
       (run (.read .b 0x00D9 3) s).links.b.out = [0, 0, 0] ∧ (run (.read .a 0x03D0 2) s).links.a.out = [0, 0] ∧
       (run (.read .a 0x19A0 1) s).links.a.out = [0]) := by decide +kernel
/-- A bay light record beyond the strapped count is not published. -/
theorem witness_ReadServesBytes_unpublished : (brought { small with phase := .starting, status := .blank }).status.lights[(24 : BayNo)] = none := by
  decide +kernel
theorem witness_WriteStoresOwnWindow : loading.phase = .loading ∧ up.phase ≠ .loading ∧ up.quiet ∧ up.late = [] ∧
    (up.reader .a).watch = 0x201C ∧ up.windows.get .a = some { base := 0x2000, size := 0x2000 } ∧
    (0x207B : Half).toNat = 0x2000 + 0x40 + (59 : BayNo).val ∧ (bench.bay 6).record.state.fromOff = true ∧ bench.inCount 6 = true := by
  unfold State.quiet; decide +kernel
theorem witness_StatusAndVoidTransactions : loading.phase = .loading ∧ up.quiet ∧ up.late = [] ∧ up.ownWindow .a 0x8000 = false := by
  unfold State.quiet; decide +kernel
theorem witness_PortResetSteps_within : calledUp.phase = .starting ∧ calledUp.ownWindow .a 0x8002 = false := by decide +kernel
theorem witness_PortResetSteps : bench.phase ≠ .loading ∧ bench.ownWindow .a 0x8002 = false ∧ bench.ownWindow .b 0x8002 = false ∧
    windowOf (bench.settings.windows.get .a) = some { base := 0x2000, size := 0x2000 } ∧
    Memory.read16 bench.ram (BitVec.ofNat 16 (0x2000 + 0x1C) : Half).toNat = 0 := by decide +kernel

-- R175: a port reset republishes its attention record though nothing was pending or in service: generation and position 79 move.
theorem test_portReset_attention :
    (let s := { up with status := { up.status with bitmaps := ⟨0, 0⟩ } }
     let t := run (.portReset .a 0) s
     (s.attention.get .a).inService = 0 ∧ (t.attention.get .a).gen = (s.attention.get .a).gen + 1 ∧
       (t.attention.get .b).gen = (s.attention.get .b).gen ∧ t.status.bitmaps.b.getLsbD 79 = true) := by decide +kernel

/-- The drawer with a slip posted at 0x2300 and a chain that leads to it. -/
def chained : State := { up with ram := Memory.writeRun (Memory.writeRun [] 0x201C [0x00, 0x23]) 0x2300 [1, 2, 0x01, 0xFE] }
/-- The drawer with its reader waiting at 0x2300 for the post, or for room, or held by the slip there. -/
def waiting (st : ReaderState) (watch : Half) : State :=
  { chained with readers := ⟨{ up.readers.a with state := st, cursor := 0x2300, watch := watch }, up.readers.b⟩ }

/-- A window kept by a port reset whose anchor leads to a posted slip: the reader takes the NOTE and parks at the slip's own link word. -/
theorem witness_PortResetSteps_link : windowOf (chained.settings.windows.get .a) = chained.windows.get .a ∧
    Memory.read16 chained.ram 0x201C = 0x2300 ∧ (run (.portReset .a 0) chained).readers.a.state = .held ∧
    Memory.read (run (.portReset .a 0) chained).ram 0x2300 = 3 := by decide +kernel

theorem witness_ReaderFollowsChain : Memory.read16 chained.ram 0x201C = 0x2300 ∧
    (let w : Window := { base := 0x2000, size := 0x2000 }
     chained.windows.get .a = some w ∧ 0x2300 % 32 = 0 ∧ w.base + 0x80 ≤ 0x2300 ∧ 0x2300 + 32 ≤ w.base + w.size) ∧
    (chained.reader .a).table = [] ∧ Memory.read16 up.ram 0x201C = 0 ∧ Memory.read16 chained.ram 0x2300 = 0x0201 ∧
    Memory.read chained.ram 0x2300 = 1 ∧ ((waiting .waitingPost 0x2300).reader .a).table.length < 16 ∧
    Memory.read up.ram 0x2300 ≠ 1 := by decide +kernel
theorem witness_ReaderFollowsChain_wakes : (waiting .waitingRoom 0).phase = .running ∧
    ((waiting .waitingRoom 0).reader .a).state = .waitingRoom ∧ ((waiting .waitingRoom 0).reader .a).table.length < 16 ∧
    chained.phase ≠ .loading ∧ (chained.reader .a).state = .parked ∧ (chained.reader .a).watch.toNat = 0x201C ∧
    ((waiting .waitingPost 0x2300).reader .a).watch.toNat = 0x2300 ∧ ((waiting .held 0x2301).reader .a).state = .held ∧
    ((waiting .held 0x2301).reader .a).watch.toNat = 0x2301 := by decide +kernel
/-- Slips whose codes have a row, no row, and a SET_ZONE part: a selector of neither part, a zone beyond the last, the enclosure. -/
theorem witness_ReaderFollowsChain_codes :
    (let s (bytes : List Byte) : State := { up with ram := Memory.writeRun [] 0x2300 bytes }
     let outcome (bytes : List Byte) : Byte := Memory.read ((s bytes).takeAt .a 0x2300).ram 0x2314
     outcome [1, 0, 0x01, 0xFE] = 0x00 ∧ outcome [1, 0, 0x00, 0xFE] = 0x14 ∧ outcome [1, 0, 0x83, 0xFE] = 0x14 ∧
       outcome [1, 0, 0x40, 3, 2] = 0x13 ∧ outcome [1, 0, 0x40, 4, 2] = 0x12 ∧ outcome [1, 0, 0x40, 0xFE, 60, 0] = 0x00 ∧
       outcome [1, 0, 0x40, 3, 1, 0] = 0x00 ∧ outcome [1, 0, 0x10, 0] = 0x11) ∧
    (Instr.powerOn (slipTo 3)).slip? = some (slipTo 3) ∧ up.takeable (slipTo 3) = true := by decide +kernel
-- Table 11-7: SET_BAY with mask 0x05 gives policy 1 and zone 3, and leaves the class, whose byte is not read.
theorem test_takeAt_given_mask :
    (let s := { up with ram := Memory.writeRun [] 0x2300 [1, 0, 0x14, 6, 0x05, 1, 0, 3] }
     let t := s.takeAt .a 0x2300
     (t.baySet 6).policy = .logicOnly ∧ (t.baySet 6).zone = 3 ∧ (t.baySet 6).cls = 2) := by decide +kernel
theorem witness_CancelByWhatItNames : bench.takeable (slipTo 0xFE) = true ∧ bench.findOpen .a 0x22E0 = none ∧
    (bench.findOpen .a 0x2260).map (·.command) = some 0x12 ∧ (bench.findOpen .a 0x2200).map (·.command) = some 0x20 ∧
    (bench.bay 4).record.op.map (·.slip) = some (some 0x2200) ∧ (bench.bay 4).record.state = .queued ∧
    (bench.bay 5).record.op.map (·.slip) = some (some 0x2220) ∧ (bench.bay 5).record.state = .spinningUp ∧
    (bench.bay 13).record.op.map (·.slip) = some (some 0x2280) ∧ (bench.bay 13).record.state = .spinningDown ∧
    checking.takeable { slipTo 0xFE with addr := 0x2320 } = true ∧ (checking.findOpen .a 0x2300).map (·.command) = some 0x52 ∧
    checking.fans.check.map (·.slip) = some (some 0x2300) := by decide +kernel
/-- No two operations of the bench hold the same slip of port A. -/
theorem witness_CancelByWhatItNames_alone : ∀ m : BayNo,
    ((bench.bay m).record.op.bind fun q => if q.origin = .slip .a then q.slip else none) = some 0x2200 → m = 4 := by decide +kernel

theorem witness_AttentionServesGreatestLevel : calling.phase ≠ .loading ∧ calling.eligible .a 5 = true ∧
    (∀ j : Fin 8, calling.eligible .a j = true →
      (calling.settings.attention.get .a)[j].level < (calling.settings.attention.get .a)[(5 : Fin 8)].level ∨
        ((calling.settings.attention.get .a)[j].level = (calling.settings.attention.get .a)[(5 : Fin 8)].level ∧ j ≤ 5)) ∧
    (∀ i : Fin 8, up.eligible .a i = false) ∧ loading.phase = .loading := by decide +kernel
theorem witness_AttentionServesGreatestLevel_done :
    (let s := run (.take .a) calling
     s.phase ≠ .loading ∧ s.late = [] ∧ s.ownWindow .a 0x8001 = false ∧ (s.attention.get .a).inService.getLsbD 2 = true ∧
       (s.attention.get .a).inService.getLsbD 0 = false ∧ (up.attention.get .a).inService = 0 ∧ s.quiet) := by
  unfold State.quiet; decide +kernel
theorem witness_SetAttentionWritesSource : up.takeable (slipTo 7) = true ∧ (slipTo 7).target.toNat = (7 : Fin 8).val := by decide +kernel

theorem witness_StoreWritesImage : up.takeable (slipTo 0xFE) = true ∧ up.straps.store = true ∧ up.store = .none ∧
    storing.takeable { slipTo 0xFE with addr := 0x2320 } = true ∧ storing.phase = .running := by decide +kernel
/-- A store of the drawer's settings, its image 688 bytes, refused at once, after one write and at its last; and refused after the first
write of the small store: the first byte of the signature is gone. -/
theorem witness_StoreWritesImage_writes :
    up.settings.image.length = 688 ∧ (run (.storeSettings (slipTo 0xFE)) up).phase = .running ∧
      (min 0 691 = 0 ∧ min 1 691 = 1 ∧ min 700 691 = 691) ∧
      (let s : State := { storing with settingsMem := [(0, 0x77), (1, 0x88)] }
       (run (.storeWriteFailed 0) s).settingsMem = [(0, 0x77), (1, 0x88)] ∧
         (run (.storeWriteFailed 1) s).settingsMem = [(1, 0x88)]) := by decide +kernel
theorem witness_StoreWritesImage_running : storing.store ≠ .none ∧
    (run (.storeSettings (slipTo 0xFE)) up).store = .storing .a (some 0x2300) up.settings.image := by
  refine ⟨?_, ?_⟩
  · intro h; cases h
  · decide +kernel
/-- The built-in defaults are in range, and a settings memory can hold their image. -/
theorem defaults_in_range : Settings.default.inRange := by
  refine ⟨by decide +kernel, ?_, by decide +kernel, by decide +kernel, by decide +kernel, ?_, by decide +kernel, by decide +kernel, ?_,
    by decide +kernel, ?_⟩
  · unfold Profile.inRange; decide +kernel
  · intro z
    have h : Settings.default.zones[z] = { curve := .default, limits := .default } := by revert z; decide +kernel
    rw [h]
    refine ⟨?_, ?_, ?_, ?_, ?_⟩ <;> (try unfold CurvePoint.inRange) <;> (try unfold TempInRange) <;> decide +kernel
  · refine ⟨?_, ?_, ?_, ?_, ?_⟩ <;> decide +kernel
  · intro p; cases p <;> (unfold SourceConfig.inRange; decide +kernel)
theorem witness_StoreWritesImage_read_back : Settings.default.inRange ∧
    ∃ m, ∀ a, a < 688 → Memory.read m a = Settings.default.image.getD a 0 :=
  ⟨defaults_in_range, Memory.writeRun [] 0 Settings.default.image, fun a h => by
    have hl : Settings.default.image.length = 688 := by decide +kernel
    rw [Memory.read_writeRun, hl, if_pos ⟨Nat.zero_le a, by omega⟩, Nat.sub_zero]⟩
theorem witness_ReloadAppliesImage : up.takeable (slipTo 0xFE) = true ∧ up.store = .none ∧ reloading.phase = .running ∧
    reloading.store = .reloading .a (some 0x2300) ∧ checkImage reloading.settingsMem ≠ .none ∧
    reloading.takeable { slipTo 0xFE with addr := 0x2320 } = true ∧
    ({ reloading with settingsMem := zeroImage 0x66 } : State).imageCause true = .none := by decide +kernel
/-- The reload of a good image of zeros, its slip held by no bay: sensor 0 is on the bus and FAILED, sensor 1 still to read. -/
def zeroed : State := { bench with
  store := .reloading .a (some 0x22C0)
  settingsMem := zeroImage 0x66
  scan := { left := [0, 1], discard := false }
  sensors := bench.sensors.set (0 : Fin 8) { Sensor.cold with state := .failed, fails := 3 } }
/-- Its curves, limits and windows are refused; supplies, fan count and sensor 1's zone move. -/
theorem witness_ReloadAppliesImage_good : checkImage zeroed.settingsMem = .none ∧ zeroed.phase = .running ∧
    (zeroed.findOpen .a 0x22C0).isSome = true ∧ (∀ n : BayNo, ((zeroed.bay n).record.op.bind (·.slip)) ≠ some 0x22C0) ∧
    (curveInImage (zeroImage 0x66) 0).p1.t = (curveInImage (zeroImage 0x66) 0).p2.t ∧
    (limitsInImage (zeroImage 0x66) 0).ceiling = (limitsInImage (zeroImage 0x66) 0).critical ∧
    number16 (zeroImage 0x66) 0x2AA = 0 ∧ number16 (zeroImage 0x66) 0x1CE = 0 ∧ Memory.read (zeroImage 0x66) 0x24C = 0 ∧
    Memory.read (zeroImage 0x66) 0x23E = 0 ∧ zeroed.settings.sensors[(1 : Fin 8)].zone = some 1 := by decide +kernel
-- Four curves and four limits refused, the windows refused, CLAMPED: the slip's bytes 20, 21 and 4 to 6.
theorem test_reload_zeros :
    ([0x14, 0x15, 4, 5, 6].map fun k => Memory.read (run (.reloadReadEnd true) zeroed).ram (0x22C0 + k)) = [0, 1, 0, 8, 1] := by decide +kernel
theorem witness_PlainCommandsStore : up.takeable (slipTo 0) = true ∧ up.takeable (slipTo 1) = true ∧ up.takeable (slipTo 7) = true ∧
    up.takeable (slipTo 0xFE) = true ∧ (windowOf ⟨1, 0x6000⟩).isSome = true ∧ windowOf ⟨1, 0x6800⟩ = none := by decide +kernel
/-- A window that ends at 0x8000 exactly, one that begins there, and another live setting whose size code is none of the four. -/
theorem witness_PlainCommandsStore_windows :
    (let odd : State := { up with settings := { up.settings with windows := ⟨up.settings.windows.a, ⟨4, 0x4000⟩⟩ } }
     let askew : State := { up with settings := { up.settings with windows := ⟨up.settings.windows.a, ⟨1, 0x4800⟩⟩ } }
     let outcome (s : State) (w : WindowSetting) : Byte := Memory.read (run (.setWindows (slipTo 0) w) s).ram 0x2314
     (0x6000 % (2048 * 2 ^ 2) = 0 ∧ 0x6000 + 2048 * 2 ^ 2 = 0x8000) ∧ outcome up ⟨2, 0x6000⟩ = 0 ∧ outcome up ⟨2, 0x8000⟩ = 0x13 ∧
       odd.takeable (slipTo 0) = true ∧ outcome odd ⟨2, 0x4000⟩ = 0 ∧ outcome askew ⟨1, 0x5000⟩ = 0x13) := by decide +kernel

end Sys2Proof.Tests
end

section
/-! SUPPORT. What the shared end of a bay's handling does (R5, R37): the account balanced, the bay's record published, its SYSTEM slots and
the enclosure's derived; and so what a whole handling of one bay leaves as it was (`BayHandled`). -/

namespace Sys2Proof.Machine

variable (s : State)

/-! ### A bay's publication -/

theorem Bay.like_symm {b c : Bay} (h : b.like c) : c.like b := by
  unfold Bay.like at h ⊢
  rw [← h]

/-- A publication of bay n leaves every other bay. -/
theorem State.bay_pubBay_of_ne {n m : BayNo} (h : m ≠ n) : (s.pubBay n).bay m = s.bay m := by
  unfold State.pubBay; dsimp only; split
  · rfl
  · exact (s.bay_putBay n m _).trans (if_neg h)

/-- A publication moves no field that the state of a bay rests on. -/
@[simp] theorem State.pubBay_state (n m : BayNo) : ((s.pubBay n).bay m).record.state = (s.bay m).record.state := by
  rw [← (s.pubBay_like n m : _ = (s.pubBay n).bay m)]

/-! ### Bay lights -/

/-- A light put back as it stands changes nothing. -/
theorem State.putLight_light (n : BayNo) : s.putLight n (s.light n) = s := by
  have : s.lights.bays.set n (s.light n) = s.lights.bays := Vector.set_getElem_self ..
  unfold State.putLight; rw [this]

/-- A publication of bay n's light record moves the generation of that light alone. -/
theorem State.pubLight_lights (n : BayNo) : ∃ g, (s.pubLight n).lights = (s.putLight n { s.light n with gen := g }).lights := by
  unfold State.pubLight; dsimp only; split
  · exact ⟨(s.light n).gen, by rw [State.putLight_light]⟩
  · exact ⟨_, rfl⟩

/-- A light with the SYSTEM slots that Table 6-3 derives from a bay record. -/
def BayLight.derived (l : BayLight) (r : BayRecord) : BayLight :=
  { l with amber := { l.amber with system := systemAmber r }, blue := { l.blue with system := systemBlue r } }

/-- Deriving bay n's SYSTEM slots writes them, moves that light's generation and nothing else of the lights (R134, R135). -/
theorem State.deriveLights_lights (n : BayNo) (h : s.inCount n = true) :
    ∃ g, (s.deriveLights n).lights = (s.putLight n { (s.light n).derived (s.bay n).record with gen := g }).lights := by
  obtain ⟨g, hg⟩ := (s.putLight n ((s.light n).derived (s.bay n).record)).pubLight_lights n
  refine ⟨g, ?_⟩
  unfold State.deriveLights
  rw [if_neg (by simp [h])]
  refine hg.trans ?_
  simp [State.putLight, State.light]

/-- Beyond the strapped count no light is derived. -/
theorem State.deriveLights_beyond (n : BayNo) (h : s.inCount n = false) : s.deriveLights n = s := by
  unfold State.deriveLights; rw [if_pos h]

/-- Bay n's light after its slots are derived. -/
theorem State.light_deriveLights_same (n : BayNo) (h : s.inCount n = true) :
    ∃ g, (s.deriveLights n).light n = { (s.light n).derived (s.bay n).record with gen := g } := by
  obtain ⟨g, hg⟩ := s.deriveLights_lights n h
  exact ⟨g, by rw [State.light, hg]; exact State.light_putLight_same _ _ _⟩

/-- Every other bay's light stands. -/
theorem State.light_deriveLights_of_ne {n m : BayNo} (h : m ≠ n) : (s.deriveLights n).light m = s.light m := by
  cases hc : s.inCount n with
  | false => rw [s.deriveLights_beyond n hc]
  | true =>
    obtain ⟨g, hg⟩ := s.deriveLights_lights n hc
    rw [State.light, hg]
    exact (s.light_putLight n m _).trans (if_neg h)

/-- The port slots and the activity enable of bay n's own light stand. -/
theorem State.light_deriveLights_kept (n : BayNo) :
    (∀ c, (((s.deriveLights n).light n).channel c).ports = ((s.light n).channel c).ports) ∧
      ((s.deriveLights n).light n).enable = (s.light n).enable := by
  cases hc : s.inCount n with
  | false => rw [s.deriveLights_beyond n hc]; exact ⟨fun _ => rfl, rfl⟩
  | true =>
    obtain ⟨g, hg⟩ := s.light_deriveLights_same n hc
    rw [hg]
    exact ⟨fun c => by cases c <;> rfl, rfl⟩

@[simp] theorem State.deriveLights_enclosure (n : BayNo) : (s.deriveLights n).lights.enclosure = s.lights.enclosure := by
  cases hc : s.inCount n with
  | false => rw [s.deriveLights_beyond n hc]
  | true =>
    obtain ⟨g, hg⟩ := s.deriveLights_lights n hc
    rw [hg]; rfl

/-! ### The enclosure light -/

/-- A publication of the enclosure light record moves its generation alone. -/
theorem State.pubEnclosure_lights : ∃ g, s.pubEnclosure.lights = { s.lights with enclosure := { s.lights.enclosure with gen := g } } := by
  unfold State.pubEnclosure; dsimp only; split
  · exact ⟨s.lights.enclosure.gen, rfl⟩
  · exact ⟨_, rfl⟩

/-- Outside start-up the AMBER SYSTEM slot is set from R136's conditions, and nothing else of the lights but a generation moves (R137). -/
theorem State.evalEnclosure_lights (h : s.phase ≠ .starting) : ∃ g, s.evalEnclosure.lights =
    { s.lights with enclosure := { s.lights.enclosure with
        amber := { s.lights.enclosure.amber with system := s.enclosureAmber }, gen := g } } := by
  rw [State.evalEnclosure_running s h]
  exact State.pubEnclosure_lights _

/-! ### The account -/

/-- The number of GOOD slots, counted as R33 counts them. -/
theorem State.goodSlots_length :
    s.goodSlots.length = ((List.finRange 4).filter fun i => s.account.supplies[i].state == .good).length := by
  unfold State.goodSlots
  generalize List.finRange 4 = slots
  induction slots with
  | nil => rfl
  | cons i slots ih =>
    rw [List.filterMap_cons, List.filter_cons]
    cases s.account.supplies[i].state == .good
    · exact ih
    · exact congrArg (· + 1) ih

theorem State.redundancyLostNow_iff : s.redundancyLostNow = true ↔ s.spareGone := by
  unfold State.redundancyLostNow State.spareGone
  rw [← State.goodSlots_length]
  cases s.settings.account.mode <;> simp

theorem Account.exceeded_iff (f : Account) : f.exceeded = true ↔ f.usable12 < f.committed12 ∨ f.usable5 < f.committed5 := by
  simp [Account.exceeded]

/-- What evaluating over-commit on figures keeps of them: all but over-commit's own flags and timer. -/
theorem State.evaluated_eq (f : Account) : s.evaluated f =
    { f with
      overCommitted := f.exceeded, unresolved := (s.evaluated f).unresolved
      shedTimer := (s.evaluated f).shedTimer, delayExpired := (s.evaluated f).delayExpired } := by
  unfold State.evaluated
  cases f.exceeded <;> cases s.account.overCommitted <;> rfl

/-- The state once its account holds the figures that supplies, settings and bays now give, with the reports this makes (R37): where a
handling of the account stands before it turns to the enclosure light. -/
def State.refigured (s : State) : State :=
  { s with account := s.evaluated s.figures, reports := s.accountReports (s.evaluated s.figures) }

/-- After a handling of the account it is balanced (R33, R35, R36, R42). -/
theorem State.accountUpdate_balanced : s.accountUpdate.balanced := by
  rw [State.accountUpdate_eq, State.evaluated_eq]
  exact ⟨rfl, rfl, rfl, rfl, rfl, rfl, s.figures.exceeded_iff, .inr s.redundancyLostNow_iff⟩

/-- The lights after a handling of the account are those of its evaluation of the enclosure light. -/
theorem State.accountUpdate_lights : s.accountUpdate.lights =
    s.refigured.evalEnclosure.lights := by
  unfold State.accountUpdate; dsimp only; split <;> (rw [State.pubSummaryIfAccount_eq]; rfl)

/-- A handling of the account raises POWER where it is due, and nothing else (R33, R42). -/
theorem State.accountUpdate_late : s.accountUpdate.late =
    s.late ++ if s.powerDue (s.evaluated s.figures) then [(.a, srcPower), (.b, srcPower)] else [] := by
  have hlate : s.refigured.evalEnclosure.pubSummaryIfAccount.late = s.late := by
    rw [State.pubSummaryIfAccount_eq, State.evalEnclosure_eq]; rfl
  unfold State.accountUpdate; dsimp only
  split
  · rw [State.raiseBoth_late, List.append_assoc]
    exact congrArg (· ++ _) hlate
  · exact hlate.trans (List.append_nil _).symm

/-- A report made before a handling of the account stands after it. -/
theorem State.accountUpdate_reports : (s.reports.pass = true → s.accountUpdate.reports.pass = true) ∧
    (s.reports.run = true → s.accountUpdate.reports.run = true) := by
  rw [State.accountUpdate_eq]
  exact ⟨fun h => by simp [State.accountReports, h], fun h => by simp [State.accountReports, h]⟩

/-- A handling of the account leaves what `AccountHandled` says (R37). -/
theorem State.accountUpdate_handled : AccountHandled s s.accountUpdate := by
  have hlights := s.accountUpdate_lights
  have hamber : s.accountUpdate.enclosureAmber = s.refigured.enclosureAmber := by rw [State.accountUpdate_eq]; rfl
  have hphase : s.accountUpdate.phase = s.phase := by rw [State.accountUpdate_eq]
  have hlit : s.accountUpdate.lights.bays = s.lights.bays ∧ s.accountUpdate.enclosureLit s ∧
      s.accountUpdate.lights.enclosure.amber.ports = s.lights.enclosure.amber.ports ∧
      s.accountUpdate.lights.enclosure.blue = s.lights.enclosure.blue := by
    unfold State.enclosureLit
    rw [hphase, hamber, hlights]
    by_cases hst : s.phase = .starting
    · rw [s.refigured.evalEnclosure_starting hst]
      exact ⟨rfl, ⟨fun h => absurd hst h, fun _ => rfl⟩, rfl, rfl⟩
    · obtain ⟨g, hg⟩ := s.refigured.evalEnclosure_lights hst
      rw [hg]
      exact ⟨rfl, ⟨fun _ => rfl, fun h => absurd h hst⟩, rfl, rfl⟩
  obtain ⟨hbays, henclosure⟩ := hlit
  refine ⟨?_, ?_, ?_, hbays, ?_, ?_, ?_, s.accountUpdate_balanced, henclosure⟩ <;> rw [State.accountUpdate_eq]

/-! ### Published bay records through the rest of a handling -/

@[simp] theorem State.pubLight_statusBays (n : BayNo) : (s.pubLight n).status.bays = s.status.bays := by
  unfold State.pubLight; dsimp only; split <;> rfl
@[simp] theorem State.deriveLights_statusBays (n : BayNo) : (s.deriveLights n).status.bays = s.status.bays := by
  unfold State.deriveLights; dsimp only; split
  · rfl
  · rw [State.pubLight_statusBays]; rfl
@[simp] theorem State.pubEnclosure_statusBays : s.pubEnclosure.status.bays = s.status.bays := by
  unfold State.pubEnclosure; dsimp only; split <;> rfl
@[simp] theorem State.evalEnclosure_statusBays : s.evalEnclosure.status.bays = s.status.bays := by
  unfold State.evalEnclosure; split
  · rfl
  · unfold State.lightEnclosure; dsimp only; rw [State.pubEnclosure_statusBays]
@[simp] theorem State.pubSummary_statusBays : s.pubSummary.status.bays = s.status.bays := by
  unfold State.pubSummary; split <;> rfl
@[simp] theorem State.pubSummaryIfAccount_statusBays : s.pubSummaryIfAccount.status.bays = s.status.bays := by
  unfold State.pubSummaryIfAccount; split
  · rfl
  · exact s.pubSummary_statusBays
@[simp] theorem State.accountUpdate_statusBays : s.accountUpdate.status.bays = s.status.bays := by
  unfold State.accountUpdate; dsimp only; split <;> simp

/-- Whether bay n's record is published rests on the bays, their published records and the settings. -/
theorem State.shown_of_eq {s t : State} {n : BayNo} (hbays : t.bays = s.bays) (hset : t.settings = s.settings)
    (hstatus : t.status.bays = s.status.bays) (h : s.shown n) : t.shown n := by
  unfold State.shown State.bay State.baySet at h ⊢
  rw [hbays, hset, hstatus]; exact h

/-! ### The end of a bay's handling -/

@[simp] theorem State.raiseOpt_statusBays (e : Option (Fin 8)) : (s.raiseOpt e).status.bays = s.status.bays := by
  rw [State.raiseOpt_eq]
@[simp] theorem State.raiseOpt_reports (e : Option (Fin 8)) : (s.raiseOpt e).reports = s.reports := by rw [State.raiseOpt_eq]

/-- Raising an event is no part of what `AccountHandled` speaks of. -/
theorem AccountHandled.raiseOpt {s t : State} (h : AccountHandled s t) (e : Option (Fin 8)) : AccountHandled s (t.raiseOpt e) := by
  rw [State.raiseOpt_eq]
  exact ⟨h.bays, h.lines, h.feeds, h.lights, h.scheduler, h.readers, h.attention, h.balanced, h.enclosure⟩

/-- The handling of a changed bay, once its record is published and its lights derived, is a handling of the account. -/
theorem State.bayChanged_account (n : BayNo) (e : Option (Fin 8)) :
    AccountHandled ((s.pubBay n).deriveLights n) (s.bayChanged n e) := (State.accountUpdate_handled _).raiseOpt e

@[simp] theorem State.bayChanged_scheduler (n : BayNo) (e : Option (Fin 8)) : (s.bayChanged n e).scheduler = s.scheduler := by
  rw [State.bayChanged_eq]
@[simp] theorem State.bayChanged_attention (n : BayNo) (e : Option (Fin 8)) : (s.bayChanged n e).attention = s.attention := by
  rw [State.bayChanged_eq]
@[simp] theorem State.bayChanged_settings (n : BayNo) (e : Option (Fin 8)) : (s.bayChanged n e).settings = s.settings := by
  rw [State.bayChanged_eq]
@[simp] theorem State.bayChanged_phase (n : BayNo) (e : Option (Fin 8)) : (s.bayChanged n e).phase = s.phase := by
  rw [State.bayChanged_eq]
@[simp] theorem State.bayChanged_inCount (n m : BayNo) (e : Option (Fin 8)) : (s.bayChanged n e).inCount m = s.inCount m := by
  rw [State.bayChanged_eq]; rfl
@[simp] theorem State.line_bayChanged (n m : BayNo) (e : Option (Fin 8)) : (s.bayChanged n e).line m = s.line m := by
  rw [State.bayChanged_eq]; rfl
@[simp] theorem State.feed_bayChanged (n m : BayNo) (e : Option (Fin 8)) : (s.bayChanged n e).feed m = s.feed m := by
  rw [State.bayChanged_eq]; rfl
theorem State.bay_bayChanged (n m : BayNo) (e : Option (Fin 8)) : (s.bayChanged n e).bay m = (s.pubBay n).bay m := by
  rw [State.bayChanged_eq]; rfl
/-- A bay after its handling stands as its work left it, but for its generation. -/
theorem State.bayChanged_like (n : BayNo) (e : Option (Fin 8)) : ((s.bayChanged n e).bay n).like (s.bay n) := by
  rw [State.bay_bayChanged]
  exact Bay.like_symm (s.pubBay_like n n)
theorem State.light_bayChanged (n m : BayNo) (e : Option (Fin 8)) :
    (s.bayChanged n e).light m = ((s.pubBay n).deriveLights n).light m := by
  rw [State.light, (s.bayChanged_account n e).lights]; rfl
@[simp] theorem State.bayChanged_state (n m : BayNo) (e : Option (Fin 8)) :
    ((s.bayChanged n e).bay m).record.state = (s.bay m).record.state := by
  rw [State.bay_bayChanged, State.pubBay_state]

/-- A bay's publication touches no light. -/
@[simp] theorem State.pubBay_lights (n : BayNo) : (s.pubBay n).lights = s.lights := by rw [State.pubBay_eq]
@[simp] theorem State.light_pubBay (n m : BayNo) : (s.pubBay n).light m = s.light m := by rw [State.light, State.pubBay_lights]; rfl
@[simp] theorem State.pubBay_inCount (n m : BayNo) : (s.pubBay n).inCount m = s.inCount m := by rw [State.pubBay_eq]; rfl

/-- While the part runs, a changed bay's record is published as it stands (R1). -/
theorem State.bayChanged_shown (n : BayNo) (e : Option (Fin 8)) (h : s.phase = .running) : (s.bayChanged n e).shown n := by
  refine State.shown_of_eq (s := s.pubBay n) ?_ ?_ ?_ (s.pubBay_shown n h)
  · rw [State.bayChanged_eq]
  · rw [State.bayChanged_settings, State.pubBay_eq]
  · simp [State.bayChanged]

/-- A changed bay's SYSTEM slots are derived from its record (R134, R135). -/
theorem State.bayChanged_lit (n : BayNo) (e : Option (Fin 8)) (h : s.inCount n = true) : (s.bayChanged n e).lit n := by
  obtain ⟨g, hg⟩ := (s.pubBay n).light_deriveLights_same n (by simpa using h)
  unfold State.lit
  rw [State.light_bayChanged, hg, State.bay_bayChanged]
  exact ⟨rfl, rfl⟩

/-- A report made before the end of a bay's handling stands after it. -/
theorem State.bayChanged_reports (n : BayNo) (e : Option (Fin 8)) : (s.reports.pass = true → (s.bayChanged n e).reports.pass = true) ∧
    (s.reports.run = true → (s.bayChanged n e).reports.run = true) := by
  have hbefore : ((s.pubBay n).deriveLights n).reports = s.reports := by rw [State.deriveLights_eq, State.pubBay_eq]
  unfold State.bayChanged
  rw [State.raiseOpt_reports, ← hbefore]
  exact State.accountUpdate_reports _

/-- The events of a changed bay's handling: POWER where the account owes it, then the bay's own. -/
theorem State.bayChanged_late (n : BayNo) (i : Fin 8) :
    ∃ power, (power = [] ∨ power = [(Port.a, srcPower), (.b, srcPower)]) ∧
      (s.bayChanged n (some i)).late = s.late ++ power ++ [(.a, i), (.b, i)] := by
  let t := (s.pubBay n).deriveLights n
  have ht : t.late = s.late := by
    show ((s.pubBay n).deriveLights n).late = s.late
    rw [State.deriveLights_eq, State.pubBay_eq]
  refine ⟨if t.powerDue (t.evaluated t.figures) then [(.a, srcPower), (.b, srcPower)] else [], ?_, ?_⟩
  · split
    · exact .inr rfl
    · exact .inl rfl
  · show (t.accountUpdate.raiseBoth i).late = _
    rw [State.raiseBoth_late, State.accountUpdate_late, ht, List.append_assoc _ [(Port.a, i)]]; rfl

/-- A changed bay's event is raised to both ports. -/
theorem State.bayChanged_told (n : BayNo) (i : Fin 8) : (s.bayChanged n (some i)).told i := by
  obtain ⟨power, -, hlate⟩ := s.bayChanged_late n i
  intro p
  rw [hlate]
  cases p <;> simp

/-- Beside a changed bay's own event only POWER can be raised. -/
theorem State.bayChanged_onlyTold (n : BayNo) (i : Fin 8) : OnlyTold [i, srcPower] s (s.bayChanged n (some i)) := by
  obtain ⟨power, hpower, hlate⟩ := s.bayChanged_late n i
  have hsource : ∀ e ∈ power ++ [(Port.a, i), (.b, i)], e.2 ∈ [i, srcPower] := by
    obtain rfl | rfl := hpower <;> simp
  intro e he
  rw [hlate, List.append_assoc, List.mem_append] at he
  exact he.imp_right (hsource e)

/-! ### The work on a bay, and its whole handling -/

/-- What the work on bay n that comes before the end of its handling leaves as it was: every other bay with its lines, feed and light, the
account, the outer state and the enclosure light, the port slots and the enable of bay n's light, the stamps of admission and the reports
already made; with the reports that a move of bay n, its joining and its leaving the queue make (R47, R55, R57, R59). -/
structure BayWork (n : BayNo) (s t : State) : Prop where
  outer     : t.outer = s.outer
  account   : t.account = s.account
  attention : t.attention = s.attention
  readers   : ReadersStand s t
  bays      : ∀ m, m ≠ n → t.bay m = s.bay m
  lines     : ∀ m, m ≠ n → t.line m = s.line m
  feeds     : ∀ m, m ≠ n → t.feed m = s.feed m
  lights    : ∀ m, m ≠ n → t.light m = s.light m
  ports     : ∀ c, ((t.light n).channel c).ports = ((s.light n).channel c).ports
  enable    : (t.light n).enable = (s.light n).enable
  enclosure : t.lights.enclosure = s.lights.enclosure
  admission : t.scheduler.lastAdmission = s.scheduler.lastAdmission ∧ t.scheduler.staggerAt = s.scheduler.staggerAt ∧
    t.scheduler.hold = s.scheduler.hold
  kept      : (s.reports.pass = true → t.reports.pass = true) ∧ (s.reports.run = true → t.reports.run = true)
  pass      : (s.bay n).record.state = .spinningUp → (t.bay n).record.state ≠ .spinningUp → t.reports.pass = true
  head      : headBay t.scheduler.queue ≠ headBay s.scheduler.queue → t.reports.pass = true
  run       : (t.bay n).record.state ≠ (s.bay n).record.state → s.spentDelay → (t.bay n).record.state.powered = true →
    t.reports.run = true

/-- A shed run may start again just where the shed delay is spent (R47). -/
theorem State.rerunReady_iff : s.rerunReady = true ↔ s.spentDelay := by
  simp [State.rerunReady, State.spentDelay, and_assoc]

/-- Whether the shed delay is spent rests on the account and the settings. -/
theorem State.spentDelay_of_eq {s t : State} (houter : t.outer = s.outer) (haccount : t.account = s.account) (h : s.spentDelay) :
    t.spentDelay := by
  have hset : t.settings = s.settings := congrArg Outer.settings houter
  unfold State.spentDelay at h ⊢
  rw [hset, haccount]; exact h

/-- Works on one bay follow one another. -/
theorem BayWork.trans {n : BayNo} {s t u : State} (h : BayWork n s t) (k : BayWork n t u) : BayWork n s u where
  outer := k.outer.trans h.outer
  account := k.account.trans h.account
  attention := k.attention.trans h.attention
  readers := h.readers.trans k.readers
  bays m hm := (k.bays m hm).trans (h.bays m hm)
  lines m hm := (k.lines m hm).trans (h.lines m hm)
  feeds m hm := (k.feeds m hm).trans (h.feeds m hm)
  lights m hm := (k.lights m hm).trans (h.lights m hm)
  ports c := (k.ports c).trans (h.ports c)
  enable := k.enable.trans h.enable
  enclosure := k.enclosure.trans h.enclosure
  admission := ⟨k.admission.1.trans h.admission.1, k.admission.2.1.trans h.admission.2.1, k.admission.2.2.trans h.admission.2.2⟩
  kept := ⟨k.kept.1 ∘ h.kept.1, k.kept.2 ∘ h.kept.2⟩
  pass hs hu := by
    by_cases ht : (t.bay n).record.state = .spinningUp
    · exact k.pass ht hu
    · exact k.kept.1 (h.pass hs ht)
  head hu := by
    by_cases ht : headBay t.scheduler.queue = headBay s.scheduler.queue
    · exact k.head (ht ▸ hu)
    · exact k.kept.1 (h.head ht)
  run hu hspent hpowered := by
    by_cases ht : (u.bay n).record.state = (t.bay n).record.state
    · exact k.kept.2 (h.run (ht ▸ hu) hspent (ht ▸ hpowered))
    · exact k.run ht (State.spentDelay_of_eq h.outer h.account hspent) hpowered

/-- Taking a slip touches no bay (R158). -/
theorem State.markTaken_work (n : BayNo) (a : Half) : BayWork n s (s.markTaken a) where
  outer := rfl
  account := rfl
  attention := rfl
  readers := .of_eq rfl
  bays _ _ := rfl
  lines _ _ := rfl
  feeds _ _ := rfl
  lights _ _ := rfl
  ports _ := rfl
  enable := rfl
  enclosure := rfl
  admission := ⟨rfl, rfl, rfl⟩
  kept := ⟨id, id⟩
  pass hs ht := absurd hs ht
  head h := absurd rfl h
  run h := absurd rfl h

/-- A change of bay n's state is work on bay n (R4, R5). -/
theorem State.enter_work (n : BayNo) (st : BayState) (why : Reason) : BayWork n s (s.enter n st why) where
  outer := s.enter_outer n st why
  account := rfl
  attention := rfl
  readers := .of_eq rfl
  bays m hm := by rw [State.bay_enter, if_neg hm]
  lines m hm := by rw [State.line_enter, if_neg hm]
  feeds m hm := by rw [State.feed_enter, if_neg hm]
  lights m hm := by rw [State.light_enter, if_neg hm]
  ports c := by rw [State.light_enter, if_pos rfl]; cases c <;> rfl
  enable := by rw [State.light_enter, if_pos rfl]
  enclosure := rfl
  admission := ⟨rfl, rfl, rfl⟩
  kept := by simp +contextual [State.changeReports]
  pass hs ht := by
    rw [State.enter_state] at ht
    simp [State.changeReports, hs, ht]
  head h := absurd rfl h
  run _ hspent hpowered := by
    rw [State.enter_state] at hpowered
    simp [State.changeReports, hpowered, s.rerunReady_iff.2 hspent]

/-- A bay with its 12 V switch closed is powered (Table 1-3). -/
theorem BayState.powered_of_spinning {st : BayState} (h : st.spinning = true) : st.powered = true := by
  cases st <;> simp_all [BayState.spinning, BayState.powered]

/-- Work on bay n, brought to its end, is a handling of bay n. -/
theorem BayWork.handled {n : BayNo} {s t : State} (h : BayWork n s t) (e : Option (Fin 8)) : BayHandled n s (t.bayChanged n e) := by
  have hend := t.bayChanged_account n e
  have hslots := (t.pubBay n).light_deriveLights_kept n
  have hlight : ∀ m, m ≠ n → (t.bayChanged n e).light m = s.light m := fun m hm => by
    rw [State.light_bayChanged, State.light_deriveLights_of_ne _ hm, State.light_pubBay, h.lights m hm]
  have hencl : ((t.pubBay n).deriveLights n).lights.enclosure = s.lights.enclosure := by
    rw [State.deriveLights_enclosure, State.pubBay_lights, h.enclosure]
  obtain ⟨hlit, hports, hblue⟩ := hend.enclosure
  have hchannels : ∀ place c, ((t.bayChanged n e).channel place c).ports = (s.channel place c).ports := by
    intro place c
    cases place with
    | bay m =>
      show (((t.bayChanged n e).light m).channel c).ports = ((s.light m).channel c).ports
      by_cases hm : m = n
      · subst hm
        rw [State.light_bayChanged, hslots.1, State.light_pubBay, h.ports]
      · rw [hlight m hm]
    | enclosure =>
      rw [hencl] at hports hblue
      cases c with
      | amber => exact hports
      | blue => exact congrArg Channel.ports hblue
  exact
    { outer := by rw [State.bayChanged_outer, h.outer]
      attention := by rw [State.bayChanged_attention, h.attention]
      readers := h.readers.trans (.of_eq (t.bayChanged_readers n e))
      bays := fun m hm => by rw [State.bay_bayChanged, State.bay_pubBay_of_ne _ hm, h.bays m hm]
      lines := fun m hm => by rw [State.line_bayChanged, h.lines m hm]
      feeds := fun m hm => by rw [State.feed_bayChanged, h.feeds m hm]
      lights := hlight
      ports := hchannels
      enable := by rw [State.light_bayChanged, hslots.2, State.light_pubBay, h.enable]
      admission := by rw [State.bayChanged_scheduler]; exact h.admission
      balanced := hend.balanced
      shown := fun hrun => t.bayChanged_shown n e (by simpa using hrun)
      lit := fun hin => t.bayChanged_lit n e (by simpa using hin)
      enclosure := ⟨⟨hlit.1, fun hst => by rw [hlit.2 hst, hencl]⟩, by rw [hblue, hencl]⟩
      pass := fun hs hu => (t.bayChanged_reports n e).1 (h.pass hs (by simpa using hu))
      head := fun hu => (t.bayChanged_reports n e).1 (h.head (by simpa using hu))
      run := fun hu hspent _ hcand => by
        rw [State.bayChanged_state] at hu hcand
        exact (t.bayChanged_reports n e).2 (h.run hu hspent (hcand.elim BayState.powered_of_spinning (·.2))) }

end Sys2Proof.Machine
end

section
/-! SUPPORT. POWER_ON (R24), by the state of its bay. -/

namespace Sys2Proof.Machine

variable {s : State} {h : SlipHead} {n : BayNo}

/-- A bay command whose slip can be taken and whose target is within the count: TAKEN, the command on its bay, the end of the handling. -/
theorem State.slipCommand_onBay (f : BayNo → State → State) (ht : s.takeable h = true) (hn : s.bayTarget h.target = some n) :
    s.slipCommand h (fun t => t.onBay h f) = (f n (s.markTaken h.addr)).finishSlip h.port := by
  have hn' : (s.markTaken h.addr).bayTarget h.target = some n := hn
  rw [State.slipCommand_taken _ _ _ ht, State.onBay, hn']

theorem exec_powerOn (h : SlipHead) (s : State) :
    exec (.powerOn h) s = .next (s.slipCommand h fun t => t.onBay h fun n u => u.powerOn h n) := rfl

theorem exec_powerOn_taken (ht : s.takeable h = true) (hn : s.bayTarget h.target = some n) :
    exec (.powerOn h) s = .next (((s.markTaken h.addr).powerOn h n).finishSlip h.port) := by
  rw [exec_powerOn, State.slipCommand_onBay _ ht hn]

/-- A bay command that ends at its take with nothing else done. -/
theorem State.endBay_markTaken (o : SlipOutcome) :
    (s.markTaken h.addr).endBay h n o = s.answered h o false false (some (bayResult s n)) := State.endTaken_markTaken s h o _ _ _

/-! ### R24's table -/

theorem State.powerOn_badState (hst : (s.bay n).record.state = .empty ∨ (s.bay n).record.state = .settling ∨
    (s.bay n).record.state = .faulted) : s.powerOn h n = s.endBay h n .badState := by
  unfold State.powerOn
  obtain hst | hst | hst := hst <;> rw [hst]

theorem State.powerOn_powered (hst : (s.bay n).record.state.powered = true) : s.powerOn h n = s.endBay h n .ok := by
  unfold State.powerOn
  split <;> simp_all [BayState.powered]

theorem State.powerOn_noBudget (hst : (s.bay n).record.state = .off)
    (hfit : ¬ s.account.committed5 + (s.profileOf n).i5 ≤ s.account.usable5) : s.powerOn h n = s.endBay h n .noBudget := by
  unfold State.powerOn
  rw [hst]
  exact if_neg (by simpa [State.fits5] using hfit)

theorem State.powerOn_fits (hst : (s.bay n).record.state = .off)
    (hfit : s.account.committed5 + (s.profileOf n).i5 ≤ s.account.usable5) :
    s.powerOn h n = ((s.enter n .logic .command).bayChanged n (some srcBayChange)).endBay h n .ok := by
  unfold State.powerOn
  rw [hst]
  exact if_pos (by simpa [State.fits5] using hfit)

/-- The bay that enters LOGIC at a command: c5 at its profile's 5 V current, only LATCH_OPEN left of the flags (Table 1-2, R11). -/
theorem Bay.entering_logic_command (now : Time) (timing : Timing) (p : Profile) (b : Bay) :
    b.entering .logic .command now timing p =
      b.stands .logic .command now 0 p.i5
        { wait5v := false, latchOpen := b.record.flags.latchOpen, removalReady := false, drawHigh := false, shedThermal := false,
          shedPower := false } b.record.op := rfl

/-- Settles O21, by R24's four cases of the bay's state and the 5 V fit. The move out of OFF is work on the bay (`BayWork`) brought to its
end. -/
theorem powerOnByState : Obligations.PowerOnByState := by
  intro s h n htake htarget b st i5 ends fits
  let t := s.markTaken h.addr
  have hexec : exec (.powerOn h) s = .next ((t.powerOn h n).finishSlip h.port) := exec_powerOn_taken htake htarget
  have hends {o : SlipOutcome} (hwork : t.powerOn h n = t.endBay h n o) : ends o := by
    show exec (.powerOn h) s = _
    rw [hexec, hwork, State.endBay_markTaken]
  refine ⟨fun hst => hends (State.powerOn_badState hst), fun hst => hends (State.powerOn_powered hst),
    fun hst hfit => hends (State.powerOn_noBudget hst hfit), fun hst hfit => ?_⟩
  let v := t.enter n .logic .command
  have hbay : v.bay n = b.stands .logic .command s.time 0 i5
      { wait5v := false, latchOpen := b.record.flags.latchOpen, removalReady := false, drawHigh := false, shedThermal := false,
        shedPower := false } b.record.op := by
    rw [State.bay_enter, if_pos rfl, Bay.entering_logic_command]; rfl
  have hline : v.line n = (s.line n).switched true false := by rw [State.line_enter, if_pos rfl]; rfl
  have hfeed : v.feed n = s.feed n := by rw [State.feed_enter, if_pos rfl]; rfl
  refine ⟨v.bayChanged n (some srcBayChange), ?_, ((s.markTaken_work n h.addr).trans (t.enter_work n _ _)).handled _,
    hbay ▸ v.bayChanged_like n _, ?_, ?_, ?_, ?_, v.bayChanged_told n _, v.bayChanged_onlyTold n _⟩
  · rw [hexec, State.powerOn_fits (s := t) hst hfit]; rfl
  · rw [State.line_bayChanged, hline]
  · rw [State.feed_bayChanged, hfeed]
  · rw [State.exchange_bayChanged]; rfl
  · rw [State.bayChanged_scheduler]; rfl

end Sys2Proof.Machine
end

section
/-! SUPPORT. A curve's value (R105), by its segments and its two ends. -/

namespace Sys2Proof.Machine

/-! ### One segment -/

theorem segment_left (p q : CurvePoint) : segment p q p.t = p.d := by
  simp [segment]

theorem segment_right {p q : CurvePoint} (ht : p.t < q.t) (hd : p.d ≤ q.d) : segment p q q.t = q.d := by
  have hquot : (q.t - p.t) * ((q.d : Int) - p.d) / (q.t - p.t) = q.d - p.d := Int.mul_ediv_cancel_left _ (by omega)
  rw [segment, hquot]
  omega

theorem segment_mono {p q : CurvePoint} (ht : p.t < q.t) (hd : p.d ≤ q.d) : Monotone (segment p q) := by
  intro e e' hle
  have hprod : (e - p.t) * ((q.d : Int) - p.d) ≤ (e' - p.t) * ((q.d : Int) - p.d) :=
    Int.mul_le_mul_of_nonneg_right (by omega) (by omega)
  exact Nat.add_le_add_left (Int.toNat_le_toNat (Int.ediv_le_ediv (by omega) hprod)) _

/-- From its lower point on, a segment is R105's quotient: it is not negative there, so its floor is a natural number. -/
theorem segment_cast {p q : CurvePoint} {e : Int} (ht : p.t < q.t) (hd : p.d ≤ q.d) (he : p.t ≤ e) :
    (segment p q e : Int) = p.d + (e - p.t) * (q.d - p.d) / (q.t - p.t) := by
  have hquot : 0 ≤ (e - p.t) * ((q.d : Int) - p.d) / (q.t - p.t) :=
    Int.ediv_nonneg (Int.mul_nonneg (by omega) (by omega)) (by omega)
  rw [segment, Int.natCast_add, Int.toNat_of_nonneg hquot]

/-! ### The whole curve -/

theorem Curve.accepted_iff_passes (c : Curve) : c.accepted = true ↔ c.passes := by
  simp [Curve.accepted, Curve.passes, and_assoc]

variable {c : Curve} {e : Int}

theorem Curve.value_below (he : e ≤ c.p1.t) : c.value e = c.p1.d := if_pos he

theorem Curve.value_above (hc : c.accepted = true) (he : c.p4.t ≤ e) : c.value e = c.p4.d := by
  obtain ⟨⟨_, _, _⟩, _⟩ := c.accepted_iff_passes.1 hc
  rw [Curve.value, if_neg (by omega), if_pos he]

/-! Each segment holds on to its upper point as well, where the next segment or the upper end gives the same duty. -/

theorem Curve.value_thirdSegment (hc : c.accepted = true) (hlow : c.p3.t ≤ e) (hhigh : e ≤ c.p4.t) :
    c.value e = segment c.p3 c.p4 e := by
  obtain ⟨⟨_, _, ht⟩, _, _, hd⟩ := c.accepted_iff_passes.1 hc
  obtain rfl | hlt := hhigh.eq_or_lt
  · rw [segment_right ht hd, Curve.value_above hc le_rfl]
  · rw [Curve.value, if_neg (by omega), if_neg (by omega), if_neg (by omega), if_neg (by omega)]

theorem Curve.value_secondSegment (hc : c.accepted = true) (hlow : c.p2.t ≤ e) (hhigh : e ≤ c.p3.t) :
    c.value e = segment c.p2 c.p3 e := by
  obtain ⟨⟨_, ht, _⟩, _, hd, _⟩ := c.accepted_iff_passes.1 hc
  obtain rfl | hlt := hhigh.eq_or_lt
  · rw [segment_right ht hd, Curve.value_thirdSegment hc le_rfl (by omega), segment_left]
  · rw [Curve.value, if_neg (by omega), if_neg (by omega), if_neg (by omega), if_pos hlt]

theorem Curve.value_firstSegment (hc : c.accepted = true) (hlow : c.p1.t ≤ e) (hhigh : e ≤ c.p2.t) :
    c.value e = segment c.p1 c.p2 e := by
  obtain ⟨⟨ht, _, _⟩, hd, _, _⟩ := c.accepted_iff_passes.1 hc
  obtain rfl | hlt := hhigh.eq_or_lt
  · rw [segment_right ht hd, Curve.value_secondSegment hc le_rfl (by omega), segment_left]
  obtain rfl | hgt := hlow.eq_or_lt
  · rw [segment_left, Curve.value_below le_rfl]
  · rw [Curve.value, if_neg (by omega), if_neg (by omega), if_pos hlt]

/-- Two neighbouring temperatures always lie on one segment, its two points included, or on one end. -/
theorem Curve.value_mono (hc : c.accepted = true) : Monotone c.value := by
  obtain ⟨⟨ht12, ht23, ht34⟩, hd12, hd23, hd34⟩ := c.accepted_iff_passes.1 hc
  refine monotone_int_of_le_succ fun e => ?_
  have hnext : e ≤ e + 1 := by omega
  obtain h1 | h1 := lt_or_ge e c.p1.t
  · rw [Curve.value_below h1.le, Curve.value_below h1]
  obtain h2 | h2 := lt_or_ge e c.p2.t
  · rw [Curve.value_firstSegment hc h1 h2.le, Curve.value_firstSegment hc (by omega) h2]
    exact segment_mono ht12 hd12 hnext
  obtain h3 | h3 := lt_or_ge e c.p3.t
  · rw [Curve.value_secondSegment hc h2 h3.le, Curve.value_secondSegment hc (by omega) h3]
    exact segment_mono ht23 hd23 hnext
  obtain h4 | h4 := lt_or_ge e c.p4.t
  · rw [Curve.value_thirdSegment hc h3 h4.le, Curve.value_thirdSegment hc (by omega) h4]
    exact segment_mono ht34 hd34 hnext
  · rw [Curve.value_above hc h4, Curve.value_above hc (by omega)]

theorem Curve.le_value (hc : c.accepted = true) (e : Int) : c.p1.d ≤ c.value e :=
  calc c.p1.d = c.value (min e c.p1.t) := (Curve.value_below (min_le_right ..)).symm
    _ ≤ c.value e := Curve.value_mono hc (min_le_left ..)

theorem Curve.value_le (hc : c.accepted = true) (e : Int) : c.value e ≤ c.p4.d :=
  calc c.value e ≤ c.value (max e c.p4.t) := Curve.value_mono hc (le_max_left ..)
    _ = c.p4.d := Curve.value_above hc (le_max_right ..)

/-- Settles O40: the ends and the three segments are equations of the value, and its bounds follow from the ends since it is monotone. -/
theorem curveValueBetweenEnds : Obligations.CurveValueBetweenEnds := by
  intro c e hc
  obtain ⟨⟨ht12, ht23, ht34⟩, hd12, hd23, hd34⟩ := c.accepted_iff_passes.1 hc
  have hmeets2 : c.value c.p2.t = c.p2.d := by rw [Curve.value_secondSegment hc le_rfl ht23.le, segment_left]
  have hmeets3 : c.value c.p3.t = c.p3.d := by rw [Curve.value_thirdSegment hc le_rfl ht34.le, segment_left]
  refine ⟨Curve.le_value hc e, Curve.value_le hc e, Curve.value_below, Curve.value_above hc, hmeets2, hmeets3,
    fun hlow hhigh => ?first, fun hlow hhigh => ?second, fun hlow hhigh => ?third, fun _ hle => Curve.value_mono hc hle⟩
  case first => rw [Curve.value_firstSegment hc hlow hhigh.le, segment_cast ht12 hd12 hlow]
  case second => rw [Curve.value_secondSegment hc hlow hhigh.le, segment_cast ht23 hd23 hlow]
  case third => rw [Curve.value_thirdSegment hc hlow hhigh.le, segment_cast ht34 hd34 hlow]

end Sys2Proof.Machine
end

section
/-! SUPPORT. The tier 1 statements: the step, STATUS and the void transactions, the commands that are not taken, the targets that are
refused, the invariants at reset. -/

namespace Sys2Proof.Machine

/-! ### The step -/

/-- Settles O1. -/
theorem stepRunsFrontCommand : Obligations.StepRunsFrontCommand := by
  refine ⟨fun c rest s => rfl, fun s hs => ?_⟩
  obtain ⟨⟩ := s
  subst hs
  rfl

/-! ### STATUS and void transactions -/

/-- A byte of three bits is below 8 and has those bits. -/
theorem bitsOf_three (x y z : Bool) : let b : Byte := BitVec.ofNat 8 (bitsOf [x, y, z])
    b.getLsbD 0 = x ∧ b.getLsbD 1 = y ∧ b.getLsbD 2 = z ∧ b.toNat < 8 := by
  cases x <;> cases y <;> cases z <;> decide

/-- The highest level in service lies below a level exactly when that level is above 0 and above every level in service (R171). -/
theorem highestLevel_lt_iff (u : Byte) (l : Nat) :
    highestLevel u < l ↔ 0 < l ∧ ∀ k, k < 8 → u.getLsbD k = true → k < l := by
  constructor
  · intro h
    refine ⟨by omega, fun k hk hu => Nat.lt_of_le_of_lt ?_ h⟩
    unfold highestLevel
    repeat' split
    all_goals interval_cases k <;> simp_all
  · rintro ⟨hl, h⟩
    unfold highestLevel
    repeat' split
    all_goals first | exact hl | exact h _ (by decide) ‹_›

theorem State.attentionLine_iff (s : State) (p : Port) : s.attentionLine p = true ↔
    s.phase ≠ .loading ∧ ∃ i : Fin 8, s.eligible p i = true := by
  simp [State.attentionLine]

theorem exec_status (p : Port) (count : Nat) (s : State) : exec (.status p count) s = .next (s.statusTransaction p count) := rfl

/-- A byte written to TAKE, outside the port's own window, is stored nowhere (R150). -/
theorem State.writeTransaction_take (s : State) (p : Port) (v : Byte) (hq : s.quiet) (hl : s.late = [])
    (hw : s.ownWindow p 0x8000 = false) : s.writeTransaction p 0x8000 [v] = s.putOut p [0] := by
  have hstored : s.storedBy p 0x8000 [v].length = [] := by
    simp [State.storedBy, List.range_succ, hw]
  have hbytes : s.writeBytes p 0x8000 0x8000 [v] = s := by
    simp [State.writeBytes, State.writeByte, hw]
  have hfeed : s.feedWrites p [] = s := by
    unfold State.feedWrites
    split
    · rfl
    · simp
  have hwake : s.wake p [] = s := by
    unfold State.wake
    dsimp only
    split <;> simp
  unfold State.writeTransaction
  dsimp only
  rw [hstored, hbytes, hfeed, hwake, State.close_quiet s hq hl]
  split <;> rfl

/-- Settles O52, by the three bits of the link status byte. -/
theorem statusAndVoidTransactions : Obligations.StatusAndVoidTransactions := by
  intro s p count opcode v attn
  obtain ⟨hloading, hdenied, hattn, hlow⟩ := bitsOf_three (s.phase == .loading) (s.links.get p).denied (s.attentionLine p)
  refine ⟨⟨s.linkStatus p, ?_, ?_, hdenied, ?_, hlow⟩, ?_, rfl, ?_⟩
  · rw [exec_status, State.statusTransaction]
    simp
  · rw [State.linkStatus, hloading, beq_iff_eq]
  · rw [State.linkStatus, hattn, State.attentionLine_iff]
    simp only [State.eligible, Bool.and_eq_true, decide_eq_true_eq, highestLevel_lt_iff, and_assoc, attn]
  · rw [exec_status, State.statusTransaction, State.putOut]
    simp
  · intro h
    show Host.Outcome.next (s.writeTransaction p 0x8000 [v]) = _
    obtain hload | ⟨hq, hl, hw⟩ := h
    · rw [State.writeTransaction, if_pos hload]; rfl
    · rw [State.writeTransaction_take s p v hq hl hw]

/-! ### Commands that are not taken -/

theorem exec_slip_untaken (c : Instr) (h : SlipHead) (s : State) (hc : c.slip? = some h) (ht : s.takeable h = false) :
    exec c s = .next s := by
  cases c <;> simp only [Instr.slip?, Option.some.injEq, reduceCtorEq] at hc <;> subst hc <;>
    exact congrArg _ (State.slipCommand_untaken _ _ _ ht)

theorem State.running_iff (s : State) : s.running = true ↔ s.phase = .running := by simp [State.running]

/-- A timer's command whose conditions do not all hold leaves the state as it is. -/
theorem untaken {c : Prop} [Decidable c] {s t : State} (h : ¬ c) :
    (Host.Outcome.next (if c then t else s) : Host.Outcome State Fault Refusal) = .next s := by rw [if_neg h]

/-- The three ways in which a bay's timer command is not taken. -/
theorem State.not_due {s : State} {b st : BayState} {e : Option Time}
    (h : s.phase ≠ .running ∨ b ≠ st ∨ Time.due s.time e = false) :
    ¬ (s.running = true ∧ b = st ∧ Time.due s.time e = true) := by
  rw [State.running_iff]
  rintro ⟨h1, h2, h3⟩
  obtain h | h | h := h
  · exact h h1
  · exact h h2
  · exact absurd (h.symm.trans h3) (by decide)

/-- The two ways in which a command of a timer of the whole part is not taken. -/
theorem State.not_due' {s : State} {e : Option Time} (h : s.phase ≠ .running ∨ Time.due s.time e = false) :
    ¬ (s.running = true ∧ Time.due s.time e = true) := by
  rw [State.running_iff]
  rintro ⟨h1, h2⟩
  obtain h | h := h
  · exact h h1
  · exact absurd (h.symm.trans h2) (by decide)

/-- No operation's deadline is due where none that stands is. -/
theorem due_bind {α : Type} {now : Time} {x : Option α} {f : α → Option Time} (h : ∀ y, x = some y → Time.due now (f y) = false) :
    Time.due now (x.bind f) = false := by
  cases x with
  | none => rfl
  | some y => exact h y rfl

/-- A wake of a reader that does not wait for room, or whose table is full, changes nothing (R157). -/
theorem exec_waitingRoomWake_untaken {s : State} {p : Port}
    (h : s.phase ≠ .running ∨ (s.reader p).state ≠ .waitingRoom ∨ 16 ≤ (s.reader p).table.length) :
    exec (.waitingRoomWake p) s = .next s := by
  refine untaken ?_
  rintro ⟨h1, h2, h3⟩
  have hroom : (s.reader p).table.length < 16 := of_decide_eq_true h3
  obtain h | h | h := h
  · exact h h1
  · exact h h2
  · omega

/-- The end of a store that does not run changes nothing (R180). -/
theorem exec_storeEnds_untaken {s : State} (h : s.phase ≠ .running ∨ ∀ q slip image, s.store ≠ .storing q slip image) :
    exec .storeSettingsEnd s = .next s ∧ ∀ k, exec (.storeWriteFailed k) s = .next s := by
  have hrun : (∀ q slip image, s.store ≠ .storing q slip image) ∨ s.running = false := by
    rw [← Bool.not_eq_true, State.running_iff]
    exact h.symm
  constructor <;> [skip; intro k] <;>
  · simp only [exec, execStoreSettingsEnd, execStoreWriteFailed]
    split
    · rename_i q slip image hs
      rw [if_neg]
      rcases hrun with hrun | hrun
      · exact absurd hs (hrun q slip image)
      · simp [hrun]
    · rfl

/-- The end of a reload's read that does not run changes nothing (R181). -/
theorem exec_reloadReadEnd_untaken {s : State} (h : s.phase ≠ .running ∨ ∀ q slip, s.store ≠ .reloading q slip) (answered : Bool) :
    exec (.reloadReadEnd answered) s = .next s := by
  simp only [exec, execReloadReadEnd]
  split
  · rename_i q slip hs
    rw [if_neg]
    rcases h with h | h
    · rwa [State.running_iff]
    · exact absurd hs (h q slip)
  · rfl

/-- A fan check's end that is not due changes nothing (R120). -/
theorem exec_fanCheckEnd_untaken {s : State}
    (h : s.phase ≠ .running ∨ ∀ k, s.fans.check = some k → Time.reached s.time (Time.plus k.start 15000) = false) :
    exec .fanCheckEnd s = .next s := by
  simp only [exec, execFanCheckEnd]
  split
  · rfl
  · rename_i k hk
    rw [if_neg]
    rw [State.running_iff]
    rintro ⟨hrun, hdue⟩
    rcases h with h | h
    · exact h hrun
    · simp only [State.checkDue, hk, Config.checkLengthMs, h k hk, Bool.false_eq_true] at hdue

/-- A trip that is not taken moves its own pin alone, and not even that where both switches are open (R17). -/
theorem exec_switchTrip_untaken {s : State} {n : BayNo} (h : s.phase ≠ .running ∨ (s.bay n).record.state.powered = false) :
    exec (.switchTrip n) s =
      .next (s.putLine n { s.line n with trip := (s.line n).trip || (s.line n).sw5 || (s.line n).sw12 }) := by
  refine untaken ?_
  rw [State.running_iff]
  rintro ⟨h1, h2⟩
  obtain h | h := h
  · exact h h1
  · exact absurd (h.symm.trans h2) (by decide)

/-- Settles O2, each command by the condition under which it is taken. -/
theorem commandsNotTakenChangeNothing : Obligations.CommandsNotTakenChangeNothing := by
  intro s n i j p place c off b
  have hrun : s.running = true ↔ s.phase = .running := s.running_iff
  refine ⟨fun cmd h hc ht => exec_slip_untaken cmd h s hc ht, fun h => untaken (State.not_due h), fun h => untaken (State.not_due h),
    fun h => untaken ?_, fun h => untaken (State.not_due h), fun h => untaken (State.not_due h), fun h => untaken (State.not_due h),
    fun h => untaken (State.not_due (h.imp_right fun h => h.imp_right due_bind)),
    fun h => ⟨_, exec_switchTrip_untaken h, fun h5 h12 => by rw [h5, h12, Bool.or_false, Bool.or_false]⟩,
    fun h => untaken (State.not_due' h), fun h => untaken (State.not_due' h), fun h => untaken (State.not_due' h),
    fun result h => untaken fun ht => ?_, fun h => untaken (State.not_due' h), fun h => untaken fun ht => ?_,
    fun pulses h => untaken fun ht => ?_, exec_fanCheckEnd_untaken,
    fun h => untaken (State.not_due' (h.imp_right due_bind)), fun activity h => untaken (State.not_due' h),
    fun h => untaken (State.not_due' (h.imp_right due_bind)), exec_storeEnds_untaken, exec_reloadReadEnd_untaken,
    exec_waitingRoomWake_untaken, fun h run => untaken h⟩
  · rintro ⟨h1, h2, h3⟩
    obtain h | h | h := h
    · exact h (hrun.1 h1)
    · exact absurd (h.symm.trans h2) (by decide)
    · exact absurd (h.symm.trans h3) (by decide)
  · exact h.elim (fun h => h (hrun.1 ht.1)) fun h => h ht.2
  · obtain h | h | h := h
    · exact h (hrun.1 ht.1)
    · exact h ht.2.1
    · exact absurd (h.symm.trans ht.2.2) (by decide)
  · exact h.elim (fun h => h (hrun.1 ht.1)) ht.2

/-! ### Targets that a command does not take -/

/-- What a slip's row does when its slip can be taken: TAKEN, the row's own work, the end of the handling. -/
theorem exec_slip_taken (c : Instr) (h : SlipHead) (s : State) (hc : c.slip? = some h) (ht : s.takeable h = true) :
    exec c s = .next ((slipWork c (s.markTaken h.addr)).finishSlip h.port) := by
  cases c <;> simp only [Instr.slip?, Option.some.injEq, reduceCtorEq] at hc <;> subst hc <;>
    exact congrArg _ (State.slipCommand_taken _ _ _ ht)

/-- A row whose work is to refuse its slip ends the slip and does nothing else. -/
theorem exec_refused (c : Instr) (h : SlipHead) (s : State) (o : SlipOutcome) (hc : c.slip? = some h) (ht : s.takeable h = true)
    (hw : slipWork c (s.markTaken h.addr) = (s.markTaken h.addr).refuse h o) :
    exec c s = .next ((s.answered h o false false none).finishSlip h.port) := by
  rw [exec_slip_taken c h s hc ht, hw, State.refuse, State.endTaken_markTaken]

theorem targetBelow_none {n : Nat} {target : Byte} (h : n ≤ target.toNat) : targetBelow n target = none := by
  rw [targetBelow, dif_neg (by omega)]

theorem State.onBay_refused {s : State} {h : SlipHead} (f : BayNo → State → State) (hn : s.bayTarget h.target = none) :
    s.onBay h f = s.refuse h .badTarget := by
  rw [State.onBay, hn]

theorem ne_enclosureTarget {target : Byte} (h : target.toNat ≠ 0xFE) : target ≠ enclosureTarget := fun e => h (e ▸ rfl)

/-- Settles O3, each command by its own test of the target. -/
theorem badTargetsRefused : Obligations.BadTargetsRefused := by
  intro s h ht refused t
  have refuses {c : Instr} (hc : c.slip? = some h)
      (hw : slipWork c (s.markTaken h.addr) = (s.markTaken h.addr).refuse h .badTarget) : refused c := exec_refused c h s _ hc ht hw
  refine ⟨fun hb => ?_, fun hne => ?_, fun hstore => ?_, fun h4 => ?_, fun h8 => ?_, fun hp a => ?_, fun h2 w => ?_⟩
  · have hb' : (s.markTaken h.addr).bayTarget h.target = none := hb
    refine ⟨refuses rfl (State.onBay_refused _ hb'), refuses rfl (State.onBay_refused _ hb'), refuses rfl (State.onBay_refused _ hb'),
      refuses rfl (State.onBay_refused _ hb'), fun _ => refuses rfl (State.onBay_refused _ hb'),
      fun _ => refuses rfl (State.onBay_refused _ hb'), refuses rfl (State.onBay_refused _ hb'), fun hne a => refuses rfl ?_⟩
    show State.setLight h a _ = _
    have hl : (s.markTaken h.addr).lightTarget h.target = none := by
      rw [State.lightTarget, if_neg (ne_enclosureTarget hne), hb']; rfl
    unfold State.setLight
    rw [hl]
  · have hne' := ne_enclosureTarget hne
    exact ⟨fun _ => refuses rfl (if_neg hne'), fun _ => refuses rfl (if_neg hne'), fun _ => refuses rfl (if_neg hne'),
      fun _ _ => refuses rfl (if_neg hne'), fun _ => refuses rfl (if_neg hne'), refuses rfl (if_pos hne'),
      fun _ => refuses rfl (if_pos hne'), refuses rfl (if_neg hne'), refuses rfl (if_pos (.inl hne')), refuses rfl (if_pos (.inl hne'))⟩
  · exact ⟨refuses rfl (if_pos (.inr hstore)), refuses rfl (if_pos (.inr hstore))⟩
  · have hn := targetBelow_none h4
    refine ⟨fun a => refuses rfl ?_, fun a => refuses rfl ?_, fun a => refuses rfl ?_⟩
    · show State.setSlotSlip h a _ = _
      unfold State.setSlotSlip; rw [hn]
    · show State.setCurveSlip h a _ = _
      unfold State.setCurveSlip; rw [hn]
    · show State.setLimitsSlip h a _ = _
      unfold State.setLimitsSlip; rw [hn]
  · have hn := targetBelow_none h8
    refine ⟨fun a => refuses rfl ?_, fun a => refuses rfl ?_, fun a => refuses rfl ?_⟩
    · show State.setProfileSlip h a _ = _
      unfold State.setProfileSlip; rw [hn]
    · show State.setSensorSlip h a _ = _
      unfold State.setSensorSlip; rw [hn]
    · show State.setAttentionSlip h a _ = _
      unfold State.setAttentionSlip; rw [hn]
  · refine refuses rfl ?_
    show State.setPatternSlip h a _ = _
    unfold State.setPatternSlip
    split
    · rfl
    · rename_i i hi
      rw [if_pos]
      unfold targetBelow at hi
      split at hi
      · cases hi
        show t < 2
        omega
      · cases hi
  · refine refuses rfl ?_
    show State.setWindowsSlip h w _ = _
    have h0 : h.target ≠ 0 := fun e => by simp [t, e] at h2
    have h1 : h.target ≠ 1 := fun e => by simp [t, e] at h2
    unfold State.setWindowsSlip
    rw [if_neg h0, if_neg h1]

/-! ### The state after reset -/

/-- Settles O13: at reset every bay is EMPTY, every queue, table and report is empty and the account is all 0. -/
theorem invariantsHoldAtReset : Obligations.InvariantsHoldAtReset := by
  have hbay : ∀ n, State.reset.bay n = .cold := fun n => Vector.getElem_replicate ..
  have hline : ∀ n, State.reset.line n = .quiet := fun n => Vector.getElem_replicate ..
  have hsums : State.reset.sum12 = 0 ∧ State.reset.sum5 = 0 := by decide +kernel
  have hbalanced : State.reset.balanced := by
    refine ⟨rfl, rfl, rfl, rfl, hsums.1.symm, hsums.2.symm, ?_, .inl rfl⟩
    rw [hsums.1, hsums.2]
    exact ⟨fun h => absurd h (by decide), fun h => absurd h (by omega)⟩
  refine ⟨reset_memories_wf, hbalanced, ⟨fun n => ?_, by decide, by decide, fun _ n => ?_⟩,
    ⟨fun p => ?_, fun _ => ⟨rfl, fun p => ?_⟩⟩, ⟨by decide, by decide, fun _ => rfl⟩, ⟨fun h => ?_, fun _ _ n => ?_, fun _ n => ?_⟩, ⟨rfl, rfl, fun h => ?_⟩,
    ⟨rfl, rfl, rfl, rfl⟩⟩
  · simp only [hbay, Bay.cold, BayRecord.cold, reduceCtorEq, false_iff]
    exact List.not_mem_nil
  · rw [hbay]; rfl
  · cases p <;> exact ⟨by decide, List.nodup_nil, fun e he => absurd he List.not_mem_nil, by decide⟩
  · cases p <;> exact ⟨rfl, rfl⟩
  · exact absurd h (by decide)
  · rw [hline]; exact ⟨rfl, rfl⟩
  · rw [hbay]; rfl
  · exact absurd h (by decide)

end Sys2Proof.Machine
end

section
/-! SUPPORT. What the invariants of bays, queue, account, duty and memories rest on (`State.core`), which of the shared operations leave all
of it, and the relation `Carried`: a step of the running part from one state to another that keeps each of these invariants. -/

namespace Sys2Proof.Machine

/-! ### The core of a state -/

/-- What the invariants see of one bay: its state, its contributions, its two switches. -/
structure Seat where
  state : BayState
  c12   : Nat
  c5    : Nat
  sw5   : Bool
  sw12  : Bool

/-- What the invariants see of the account: its figures and the two flags that rest on them. -/
structure Figures where
  base12         : Nat
  base5          : Nat
  usable12       : Nat
  usable5        : Nat
  committed12    : Nat
  committed5     : Nat
  fanRes         : Nat
  overCommitted  : Bool
  redundancyLost : Bool

/-- The figures of an account. -/
def Account.figures (a : Account) : Figures :=
  { base12 := a.base12, base5 := a.base5, usable12 := a.usable12, usable5 := a.usable5, committed12 := a.committed12
    committed5 := a.committed5, fanRes := a.fanRes, overCommitted := a.overCommitted, redundancyLost := a.redundancyLost }

/-- All that the invariants of bays, queue, account and duty rest on. -/
structure Core where
  phase       : Phase
  kind        : ResetKind
  count       : BayCount
  seats       : BayNo → Seat
  queue       : List (BayNo × Fin 4)
  figures     : Figures
  supplies    : Fin 4 → SupplyState
  supplySets  : Vector SupplySetting 4
  accountSet  : AccountSettings
  dmin        : Nat
  c           : Nat
  emergency   : Bool

/-- Bay n as the invariants see it. -/
def State.seat (s : State) (n : BayNo) : Seat :=
  { state := (s.bay n).record.state, c12 := (s.bay n).record.c12, c5 := (s.bay n).record.c5, sw5 := (s.line n).sw5
    sw12 := (s.line n).sw12 }

/-- The bays of the queue in their order, with their classes. -/
def State.places (s : State) : List (BayNo × Fin 4) := s.scheduler.queue.map fun e => (e.bay, e.cls)

/-- The core of a state. -/
def State.core (s : State) : Core :=
  { phase := s.phase, kind := s.resetKind, count := s.straps.bays, seats := s.seat, queue := s.places, figures := s.account.figures
    supplies := fun i => s.account.supplies[i].state, supplySets := s.settings.supplies, accountSet := s.settings.account
    dmin := s.settings.fans.dmin, c := s.fans.c, emergency := s.emergency s.fans.coolingLost }

/-- Both switches of every bay follow its state (R4), and a bay beyond the strapped count is EMPTY (R2). -/
def State.follows (s : State) : Prop :=
  ∀ n, (s.line n).sw5 = (s.bay n).record.state.powered ∧ (s.line n).sw12 = (s.bay n).record.state.spinning ∧
    (s.inCount n = false → (s.bay n).record.state = .empty)

section
variable {s t : State}

theorem State.seat_of_core (h : t.core = s.core) (n : BayNo) : t.seat n = s.seat n := congrFun (congrArg Core.seats h) n

theorem State.inCount_of_core (h : t.core = s.core) (n : BayNo) : t.inCount n = s.inCount n := by
  have hc : t.straps.bays = s.straps.bays := congrArg Core.count h
  simp only [State.inCount, hc]

/-- The rails' sums rest on the seats. -/
theorem State.sums_of_seats (h : ∀ n, t.seat n = s.seat n) : t.sum12 = s.sum12 ∧ t.sum5 = s.sum5 := by
  have hstate : ∀ n, (t.bay n).record.state = (s.bay n).record.state := fun n => congrArg Seat.state (h n)
  have h12 : ∀ n, (t.bay n).contribution12 = (s.bay n).contribution12 := fun n => by
    have hc : (t.bay n).record.c12 = (s.bay n).record.c12 := congrArg Seat.c12 (h n)
    simp only [Bay.contribution12, hstate n, hc]
  have h5 : ∀ n, (t.bay n).contribution5 = (s.bay n).contribution5 := fun n => by
    have hc : (t.bay n).record.c5 = (s.bay n).record.c5 := congrArg Seat.c5 (h n)
    simp only [Bay.contribution5, hstate n, hc]
  have hmap (f : Bay → Nat) (hf : ∀ n, f (t.bay n) = f (s.bay n)) : t.bays.toList.map f = s.bays.toList.map f := by
    rw [← Vector.toList_map, ← Vector.toList_map]
    congr 1
    ext i hi
    rw [Vector.getElem_map, Vector.getElem_map]
    exact hf ⟨i, hi⟩
  exact ⟨congrArg List.sum (hmap _ h12), congrArg List.sum (hmap _ h5)⟩

theorem State.goodSlots_of_core (h : t.core = s.core) : t.goodSlots = s.goodSlots := by
  have hst : ∀ i : Fin 4, t.account.supplies[i].state = s.account.supplies[i].state := fun i => congrFun (congrArg Core.supplies h) i
  have hset : t.settings.supplies = s.settings.supplies := congrArg Core.supplySets h
  simp only [State.goodSlots, hst, hset]

theorem State.balanced_of_core (h : t.core = s.core) (hs : s.balanced) : t.balanced := by
  have hset : t.settings.account = s.settings.account := congrArg Core.accountSet h
  have hfig : t.account.figures = s.account.figures := congrArg Core.figures h
  have hphase : t.phase = s.phase := congrArg Core.phase h
  have hst : ∀ i : Fin 4, t.account.supplies[i].state = s.account.supplies[i].state := fun i => congrFun (congrArg Core.supplies h) i
  obtain ⟨h12, h5⟩ := State.sums_of_seats (State.seat_of_core h)
  simp only [Account.figures, Figures.mk.injEq] at hfig
  obtain ⟨hb12, hb5, hu12, hu5, hc12, hc5, hres, hover, hlost⟩ := hfig
  simpa only [State.balanced, State.baseCapacity12, State.baseCapacity5, State.usableBudget12, State.usableBudget5, State.spareGone,
    State.goodSlots_of_core h, hset, hb12, hb5, hu12, hu5, hc12, hc5, hres, hover, hlost, h12, h5, hphase, hst] using hs

theorem State.dutySound_of_core (h : t.core = s.core) (hs : s.dutySound) : t.dutySound := by
  have hd : t.settings.fans.dmin = s.settings.fans.dmin := congrArg Core.dmin h
  have hc : t.fans.c = s.fans.c := congrArg Core.c h
  have he : t.emergency t.fans.coolingLost = s.emergency s.fans.coolingLost := congrArg Core.emergency h
  have hp : t.phase = s.phase := congrArg Core.phase h
  simpa only [State.dutySound, hd, hc, he, hp] using hs

theorem State.follows_of_core (h : t.core = s.core) (hs : s.follows) : t.follows := fun n => by
  have hseat := State.seat_of_core h n
  simp only [State.seat, Seat.mk.injEq] at hseat
  obtain ⟨hst, -, -, h5, h12⟩ := hseat
  rw [hst, h5, h12, State.inCount_of_core h]
  exact hs n

/-- A sound queue in terms of its places. -/
theorem State.queueSound_iff (s : State) : s.queueSound ↔
    (∀ n, (s.seat n).state = .queued ↔ n ∈ s.places.map Prod.fst) ∧ (s.places.map Prod.fst).Nodup ∧
      s.places.Pairwise (fun d e => d.2 ≤ e.2) ∧ s.emptyWhileLoading := by
  have hmap : s.places.map Prod.fst = s.scheduler.queue.map (·.bay) := by simp [State.places]
  have hpair : s.places.Pairwise (fun d e => d.2 ≤ e.2) ↔ s.scheduler.queue.Pairwise (fun d e => d.cls ≤ e.cls) :=
    List.pairwise_map
  rw [hmap, hpair]; rfl

theorem State.queueSound_of_core (h : t.core = s.core) (hs : s.queueSound) : t.queueSound := by
  have hplaces : t.places = s.places := congrArg Core.queue h
  have hp : t.phase = s.phase := congrArg Core.phase h
  rw [State.queueSound_iff] at hs ⊢
  obtain ⟨hmem, hnodup, hsorted, hload⟩ := hs
  rw [hplaces]
  refine ⟨fun n => by rw [State.seat_of_core h n]; exact hmem n, hnodup, hsorted, fun hl n => ?_⟩
  exact (congrArg Seat.state (State.seat_of_core h n)).trans (hload (hp ▸ hl) n)

end

/-! ### Operations that leave the core -/

section
variable (s : State)

/-- A state put together otherwise has the core of another where each part of the core is the same. -/
theorem State.core_of_parts {s t : State} (hphase : t.phase = s.phase) (hkind : t.resetKind = s.resetKind) (hstraps : t.straps = s.straps)
    (hseats : ∀ n, t.seat n = s.seat n) (hplaces : t.places = s.places) (hfigures : t.account.figures = s.account.figures)
    (hsupplies : ∀ i : Fin 4, t.account.supplies[i].state = s.account.supplies[i].state)
    (hsettings : t.settings.supplies = s.settings.supplies ∧ t.settings.account = s.settings.account ∧
      t.settings.fans.dmin = s.settings.fans.dmin)
    (hc : t.fans.c = s.fans.c) (he : t.emergency t.fans.coolingLost = s.emergency s.fans.coolingLost) : t.core = s.core := by
  obtain ⟨hset1, hset2, hset3⟩ := hsettings
  simp only [State.core, hphase, hkind, hstraps, hplaces, hfigures, hset1, hset2, hset3, hc, he, Core.mk.injEq, true_and, and_true]
  exact ⟨funext hseats, funext hsupplies⟩

theorem Bay.like_seat {b c : Bay} (h : b.like c) : c.record.state = b.record.state ∧ c.record.c12 = b.record.c12 ∧
    c.record.c5 = b.record.c5 := by
  rw [← (h : _ = c)]
  exact ⟨rfl, rfl, rfl⟩

@[simp] theorem State.pubBay_core (n : BayNo) : (s.pubBay n).core = s.core := by
  have heq := s.pubBay_eq n
  have hseat : ∀ m, (s.pubBay n).seat m = s.seat m := fun m => by
    obtain ⟨h1, h2, h3⟩ := Bay.like_seat (s.pubBay_like n m)
    have hline : (s.pubBay n).line m = s.line m := by rw [heq]; rfl
    simp only [State.seat, h1, h2, h3, hline]
  refine State.core_of_parts ?_ ?_ ?_ hseat ?_ ?_ ?_ ?_ ?_ ?_ <;> rw [heq] <;> first | rfl | exact fun _ => rfl | exact ⟨rfl, rfl, rfl⟩

@[simp] theorem State.pubFan_core (i : Fin 6) : (s.pubFan i).core = s.core := by
  unfold State.pubFan; dsimp only; split <;> rfl

@[simp] theorem State.pubSupply_core (i : Fin 4) : (s.pubSupply i).core = s.core := by
  unfold State.pubSupply; dsimp only; split
  · rfl
  · refine State.core_of_parts rfl rfl rfl (fun _ => rfl) rfl rfl (fun j => ?_) ⟨rfl, rfl, rfl⟩ rfl rfl
    show (s.account.supplies.set i _)[j].state = _
    by_cases hij : i.val = j.val
    · obtain rfl : i = j := Fin.ext hij
      simp
    · simp [hij]

@[simp] theorem State.pubZone_core (i : Fin 4) : (s.pubZone i).core = s.core := by
  unfold State.pubZone; dsimp only; split
  · rfl
  · refine State.core_of_parts rfl rfl rfl (fun _ => rfl) rfl rfl (fun _ => rfl) ⟨rfl, rfl, rfl⟩ rfl ?_
    have hzones : ((s.zones.set i { s.zones[i] with gen := nextGen s.status.zones[i] s.zones[i].gen }).map Zone.state) =
        s.zones.map Zone.state := by
      ext j hj
      rw [Vector.getElem_map, Vector.getElem_map, Vector.getElem_set]
      split
      · rename_i hij; subst hij; rfl
      · rfl
    have hany (v : Vector Zone 4) : (v.toList.any fun z => z.state == .critical) = (v.map Zone.state).toList.any (· == .critical) := by
      rw [Vector.toList_map, List.any_map]; rfl
    show (((s.zones.set i _).toList.any fun z => z.state == .critical) || s.fans.coolingLost || s.fans.check.isSome) = _
    rw [hany, hzones, ← hany]; rfl

@[simp] theorem State.republishSensor_core (i : Fin 8) : (s.republishSensor i).core = s.core := by
  unfold State.republishSensor; split <;> rfl
@[simp] theorem State.pubSensor_core (i : Fin 8) : (s.pubSensor i).core = s.core := by
  unfold State.pubSensor; dsimp only; split
  · rfl
  · exact s.republishSensor_core i
@[simp] theorem State.pubLight_core (n : BayNo) : (s.pubLight n).core = s.core := by rw [State.pubLight_eq]; rfl
@[simp] theorem State.deriveLights_core (n : BayNo) : (s.deriveLights n).core = s.core := by rw [State.deriveLights_eq]; rfl
@[simp] theorem State.pubEnclosure_core : s.pubEnclosure.core = s.core := by rw [State.pubEnclosure_eq]; rfl
@[simp] theorem State.lightEnclosure_core : s.lightEnclosure.core = s.core := by rw [State.lightEnclosure_eq]; rfl
@[simp] theorem State.evalEnclosure_core : s.evalEnclosure.core = s.core := by rw [State.evalEnclosure_eq]; rfl
@[simp] theorem State.pubSummary_core : s.pubSummary.core = s.core := by rw [State.pubSummary_eq]; rfl
@[simp] theorem State.pubSummaryIfChanged_core : s.pubSummaryIfChanged.core = s.core := by rw [State.pubSummaryIfChanged_eq]; rfl
@[simp] theorem State.pubSummaryIfAccount_core : s.pubSummaryIfAccount.core = s.core := by rw [State.pubSummaryIfAccount_eq]; rfl
@[simp] theorem State.holdSummary_core : s.holdSummary.core = s.core := rfl
@[simp] theorem State.releaseSummary_core (b : Bool) : (s.releaseSummary b).core = s.core := by rw [State.releaseSummary_eq]; rfl
@[simp] theorem State.pubQueue_core : s.pubQueue.core = s.core := by
  unfold State.pubQueue; split <;> rfl
@[simp] theorem State.republishReader_core (p : Port) : (s.republishReader p).core = s.core := by rw [State.republishReader_eq]; rfl
@[simp] theorem State.pubReader_core (p : Port) : (s.pubReader p).core = s.core := by rw [State.pubReader_eq]; rfl
@[simp] theorem State.republishAttention_core (p : Port) : (s.republishAttention p).core = s.core := by
  rw [State.republishAttention_eq]; rfl
@[simp] theorem State.pubAttention_core (p : Port) : (s.pubAttention p).core = s.core := by rw [State.pubAttention_eq]; rfl
@[simp] theorem State.latchEvent_core (p : Port) (i : Fin 8) : (s.latchEvent p i).core = s.core := by rw [State.latchEvent_eq]; rfl
@[simp] theorem State.deliver_core : s.deliver.core = s.core := by rw [State.deliver_eq]; rfl
@[simp] theorem State.raise_core (p : Port) (i : Fin 8) : (s.raise p i).core = s.core := rfl
@[simp] theorem State.raiseBoth_core (i : Fin 8) : (s.raiseBoth i).core = s.core := rfl
@[simp] theorem State.raiseOpt_core (e : Option (Fin 8)) : (s.raiseOpt e).core = s.core := by rw [State.raiseOpt_eq]; rfl
@[simp] theorem State.putReader_core (p : Port) (r : Reader) : (s.putReader p r).core = s.core := rfl
@[simp] theorem State.putFeed_core (n : BayNo) (f : BayFeed) : (s.putFeed n f).core = s.core := rfl
@[simp] theorem State.putLight_core (n : BayNo) (l : BayLight) : (s.putLight n l).core = s.core := rfl
@[simp] theorem State.mark_core (k : Nat) : (s.mark k).core = s.core := rfl
@[simp] theorem State.markTaken_core (a : Half) : (s.markTaken a).core = s.core := rfl
@[simp] theorem State.endAt_core (p : Port) (a : Half) (attn : Bool) (o : SlipOutcome) (f : Byte) (r : Option (List Byte)) :
    (s.endAt p a attn o f r).core = s.core := by rw [State.endAt_eq]; rfl
@[simp] theorem State.endTaken_core (h : SlipHead) (o : SlipOutcome) (c m : Bool) (r : Option (List Byte)) :
    (s.endTaken h o c m r).core = s.core := by rw [State.endTaken_eq]; rfl
@[simp] theorem State.dropOpen_core (p : Port) (a : Half) : (s.dropOpen p a).core = s.core := by rw [State.dropOpen_eq]; rfl
@[simp] theorem State.endOpen_core (p : Port) (a : Half) (o : SlipOutcome) (c : Bool) (r : Option (List Byte)) :
    (s.endOpen p a o c r).core = s.core := by rw [State.endOpen_eq]; rfl
@[simp] theorem State.endOpSlip_core (op : Option Operation) (o : SlipOutcome) (r : List Byte) :
    (s.endOpSlip op o r).core = s.core := by rw [State.endOpSlip_eq]; rfl
@[simp] theorem State.keepOpen_core (h : SlipHead) (command : Byte) (clamped : Bool) : (s.keepOpen h command clamped).core = s.core := rfl
@[simp] theorem State.setHold_core (h : HoldReason) : (s.setHold h).core = s.core := by
  unfold State.setHold; split
  · rfl
  · rw [State.pubQueue_core]; rfl
@[simp] theorem State.endRun_core : s.endRun.core = s.core := rfl
@[simp] theorem State.withReports_core (r : Reports) : ({ s with reports := r } : State).core = s.core := rfl

end

end Sys2Proof.Machine
end

section
/-! SUPPORT. The moves of one bay, its handling's end included, keep the invariants (`Carried`): what each shared operation leaves of a bay's
state and switches, of the queue's places and of the two memories, and how the queue moves with a bay. -/

namespace Sys2Proof.Machine

/-! ### The two memories -/

/-- The exchange RAM and the settings memory. -/
def State.mems (s : State) : Memory × Memory := (s.ram, s.settingsMem)

theorem State.canonical_iff (s : State) : s.memoriesCanonical ↔ Memory.wf s.mems.1 ∧ Memory.wf s.mems.2 := Iff.rfl

section
variable (s : State)

@[simp] theorem State.pubBay_mems (n : BayNo) : (s.pubBay n).mems = s.mems := by rw [State.pubBay_eq]; rfl
@[simp] theorem State.pubFan_mems (i : Fin 6) : (s.pubFan i).mems = s.mems := by rw [State.pubFan_eq]; rfl
@[simp] theorem State.pubSupply_mems (i : Fin 4) : (s.pubSupply i).mems = s.mems := by rw [State.pubSupply_eq]; rfl
@[simp] theorem State.pubZone_mems (i : Fin 4) : (s.pubZone i).mems = s.mems := by rw [State.pubZone_eq]; rfl
@[simp] theorem State.republishSensor_mems (i : Fin 8) : (s.republishSensor i).mems = s.mems := by rw [State.republishSensor_eq]; rfl
@[simp] theorem State.pubSensor_mems (i : Fin 8) : (s.pubSensor i).mems = s.mems := by rw [State.pubSensor_eq]; rfl
@[simp] theorem State.pubLight_mems (n : BayNo) : (s.pubLight n).mems = s.mems := by rw [State.pubLight_eq]; rfl
@[simp] theorem State.deriveLights_mems (n : BayNo) : (s.deriveLights n).mems = s.mems := by rw [State.deriveLights_eq]; rfl
@[simp] theorem State.pubEnclosure_mems : s.pubEnclosure.mems = s.mems := by rw [State.pubEnclosure_eq]; rfl
@[simp] theorem State.lightEnclosure_mems : s.lightEnclosure.mems = s.mems := by rw [State.lightEnclosure_eq]; rfl
@[simp] theorem State.evalEnclosure_mems : s.evalEnclosure.mems = s.mems := by rw [State.evalEnclosure_eq]; rfl
@[simp] theorem State.pubSummary_mems : s.pubSummary.mems = s.mems := by rw [State.pubSummary_eq]; rfl
@[simp] theorem State.pubSummaryIfChanged_mems : s.pubSummaryIfChanged.mems = s.mems := by rw [State.pubSummaryIfChanged_eq]; rfl
@[simp] theorem State.pubSummaryIfAccount_mems : s.pubSummaryIfAccount.mems = s.mems := by rw [State.pubSummaryIfAccount_eq]; rfl
@[simp] theorem State.holdSummary_mems : s.holdSummary.mems = s.mems := rfl
@[simp] theorem State.releaseSummary_mems (b : Bool) : (s.releaseSummary b).mems = s.mems := by rw [State.releaseSummary_eq]; rfl
@[simp] theorem State.pubQueue_mems : s.pubQueue.mems = s.mems := by rw [State.pubQueue_eq]; rfl
@[simp] theorem State.republishReader_mems (p : Port) : (s.republishReader p).mems = s.mems := by rw [State.republishReader_eq]; rfl
@[simp] theorem State.pubReader_mems (p : Port) : (s.pubReader p).mems = s.mems := by rw [State.pubReader_eq]; rfl
@[simp] theorem State.republishAttention_mems (p : Port) : (s.republishAttention p).mems = s.mems := by
  rw [State.republishAttention_eq]; rfl
@[simp] theorem State.pubAttention_mems (p : Port) : (s.pubAttention p).mems = s.mems := by rw [State.pubAttention_eq]; rfl
@[simp] theorem State.deliver_mems : s.deliver.mems = s.mems := by rw [State.deliver_eq]; rfl
@[simp] theorem State.raise_mems (p : Port) (i : Fin 8) : (s.raise p i).mems = s.mems := rfl
@[simp] theorem State.raiseBoth_mems (i : Fin 8) : (s.raiseBoth i).mems = s.mems := rfl
@[simp] theorem State.raiseOpt_mems (e : Option (Fin 8)) : (s.raiseOpt e).mems = s.mems := by rw [State.raiseOpt_eq]; rfl
@[simp] theorem State.putBay_mems (n : BayNo) (b : Bay) : (s.putBay n b).mems = s.mems := rfl
@[simp] theorem State.putLine_mems (n : BayNo) (l : BayLines) : (s.putLine n l).mems = s.mems := rfl
@[simp] theorem State.putReader_mems (p : Port) (r : Reader) : (s.putReader p r).mems = s.mems := rfl
@[simp] theorem State.putFeed_mems (n : BayNo) (f : BayFeed) : (s.putFeed n f).mems = s.mems := rfl
@[simp] theorem State.putLight_mems (n : BayNo) (l : BayLight) : (s.putLight n l).mems = s.mems := rfl
@[simp] theorem State.enter_mems (n : BayNo) (st : BayState) (why : Reason) : (s.enter n st why).mems = s.mems := rfl
@[simp] theorem State.setOp_mems (n : BayNo) (o : Option Operation) : (s.setOp n o).mems = s.mems := rfl
@[simp] theorem State.setFlags_mems (n : BayNo) (f : BayFlags → BayFlags) : (s.setFlags n f).mems = s.mems := rfl
@[simp] theorem State.setRetries_mems (n : BayNo) (r : Nat) : (s.setRetries n r).mems = s.mems := rfl
@[simp] theorem State.keepOpen_mems (h : SlipHead) (command : Byte) (clamped : Bool) : (s.keepOpen h command clamped).mems = s.mems := rfl
@[simp] theorem State.join_mems (e : QueueEntry) : (s.join e).mems = s.mems := by rw [State.join_eq]; rfl
@[simp] theorem State.leave_mems (n : BayNo) : (s.leave n).mems = s.mems := by rw [State.leave_eq]; rfl
@[simp] theorem State.reclass_mems (n : BayNo) (c : Fin 4) : (s.reclass n c).mems = s.mems := by rw [State.reclass_eq]; rfl
@[simp] theorem State.setHold_mems (h : HoldReason) : (s.setHold h).mems = s.mems := by rw [State.setHold_eq]; rfl
@[simp] theorem State.accountUpdate_mems : s.accountUpdate.mems = s.mems := by rw [State.accountUpdate_eq]; rfl
@[simp] theorem State.bayChanged_mems (n : BayNo) (e : Option (Fin 8)) : (s.bayChanged n e).mems = s.mems := by
  rw [State.bayChanged_eq]; rfl

variable {s}

/-- An operation that leaves the memories keeps them canonical. -/
theorem State.canonical_of_mems {t : State} (h : t.mems = s.mems) (hs : s.memoriesCanonical) : t.memoriesCanonical := by
  rw [State.canonical_iff] at hs ⊢
  rwa [h]

theorem State.markTaken_canonical (a : Half) (h : s.memoriesCanonical) : (s.markTaken a).memoriesCanonical :=
  ⟨Memory.wf_write _ _ _ h.1, h.2⟩
theorem State.endAt_canonical (p : Port) (a : Half) (attn : Bool) (o : SlipOutcome) (f : Byte) (r : Option (List Byte))
    (h : s.memoriesCanonical) : (s.endAt p a attn o f r).memoriesCanonical := by
  rw [State.endAt_eq]
  exact ⟨wf_writeEnd _ _ _ _ _ _ h.1, h.2⟩
theorem State.endTaken_canonical (k : SlipHead) (o : SlipOutcome) (c m : Bool) (r : Option (List Byte))
    (h : s.memoriesCanonical) : (s.endTaken k o c m r).memoriesCanonical := State.endAt_canonical _ _ _ _ _ _ h
theorem State.dropOpen_mems (t : State) (p : Port) (a : Half) : (t.dropOpen p a).mems = t.mems := by rw [State.dropOpen_eq]; rfl
theorem State.endOpen_canonical (p : Port) (a : Half) (o : SlipOutcome) (c : Bool) (r : Option (List Byte))
    (h : s.memoriesCanonical) : (s.endOpen p a o c r).memoriesCanonical := by
  unfold State.endOpen
  split
  · exact h
  · exact State.canonical_of_mems (State.dropOpen_mems _ _ _) (State.endAt_canonical _ _ _ _ _ _ h)
theorem State.endOpSlip_canonical (op : Option Operation) (o : SlipOutcome) (r : List Byte)
    (h : s.memoriesCanonical) : (s.endOpSlip op o r).memoriesCanonical := by
  unfold State.endOpSlip
  split
  · exact State.endOpen_canonical _ _ _ _ _ h
  · exact h

end

/-! ### A bay's state and switches -/

/-- A bay's state and its two switches. -/
def State.sits (s : State) (n : BayNo) : BayState × Bool × Bool := ((s.bay n).record.state, (s.line n).sw5, (s.line n).sw12)

/-- The switches of a bay follow a state. -/
def BayState.seated (st : BayState) : BayState × Bool × Bool := (st, st.powered, st.spinning)

section
variable (s : State) (n m : BayNo)

theorem State.sits_of_core {s t : State} (h : t.core = s.core) (m : BayNo) : t.sits m = s.sits m := by
  have hseat := State.seat_of_core h m
  simp only [State.seat, Seat.mk.injEq] at hseat
  obtain ⟨hst, -, -, h5, h12⟩ := hseat
  rw [State.sits, hst, h5, h12]; rfl

/-- A bay put back in the same state leaves every bay's state and switches. -/
theorem State.sits_putBay (b : Bay) (h : b.record.state = (s.bay n).record.state) : (s.putBay n b).sits m = s.sits m := by
  unfold State.sits
  rw [State.bay_putBay]
  split
  · rename_i hm; subst hm; rw [h]; rfl
  · rfl

theorem State.sits_enter (st : BayState) (why : Reason) :
    (s.enter n st why).sits m = if m = n then st.seated else s.sits m := by
  unfold State.sits
  rw [State.bay_enter, State.line_enter]
  split <;> rfl

@[simp] theorem State.sits_setOp (o : Option Operation) : (s.setOp n o).sits m = s.sits m := s.sits_putBay n m _ rfl
@[simp] theorem State.sits_setFlags (f : BayFlags → BayFlags) : (s.setFlags n f).sits m = s.sits m := s.sits_putBay n m _ rfl
@[simp] theorem State.sits_setRetries (r : Nat) : (s.setRetries n r).sits m = s.sits m := s.sits_putBay n m _ rfl
@[simp] theorem State.sits_countInsertion : (s.countInsertion n).sits m = s.sits m := s.sits_putBay n m _ rfl
@[simp] theorem State.sits_countBounce : (s.countBounce n).sits m = s.sits m := s.sits_putBay n m _ rfl
@[simp] theorem State.sits_countTrip : (s.countTrip n).sits m = s.sits m := s.sits_putBay n m _ rfl
@[simp] theorem State.sits_beginRetry : (s.beginRetry n).sits m = s.sits m := by
  unfold State.beginRetry
  dsimp only
  split
  · exact s.sits_putBay n m _ rfl
  · exact s.sits_setOp n m none
@[simp] theorem State.sits_leave : (s.leave n).sits m = s.sits m := by rw [State.leave_eq]; rfl
@[simp] theorem State.sits_join (e : QueueEntry) : (s.join e).sits m = s.sits m := by rw [State.join_eq]; rfl
@[simp] theorem State.sits_pubQueue : s.pubQueue.sits m = s.sits m := State.sits_of_core s.pubQueue_core m
@[simp] theorem State.sits_keepOpen (h : SlipHead) (c : Byte) (k : Bool) : (s.keepOpen h c k).sits m = s.sits m := rfl
@[simp] theorem State.sits_putFeed (f : BayFeed) : (s.putFeed n f).sits m = s.sits m := rfl
@[simp] theorem State.sits_voidBayFeed : (s.voidBayFeed n).sits m = s.sits m := rfl
@[simp] theorem State.sits_endOpSlip (op : Option Operation) (o : SlipOutcome) (r : List Byte) :
    (s.endOpSlip op o r).sits m = s.sits m := State.sits_of_core (s.endOpSlip_core op o r) m
@[simp] theorem State.sits_bayChanged (e : Option (Fin 8)) : (s.bayChanged n e).sits m = s.sits m := by
  unfold State.sits
  rw [State.bayChanged_state, State.line_bayChanged]

@[simp] theorem State.countInsertion_outer : (s.countInsertion n).outer = s.outer := rfl
@[simp] theorem State.countBounce_outer : (s.countBounce n).outer = s.outer := rfl
@[simp] theorem State.countTrip_outer : (s.countTrip n).outer = s.outer := rfl
@[simp] theorem State.setRetries_outer (r : Nat) : (s.setRetries n r).outer = s.outer := rfl
@[simp] theorem State.voidBayFeed_outer : (s.voidBayFeed n).outer = s.outer := rfl
@[simp] theorem State.keepOpen_outer (h : SlipHead) (c : Byte) (k : Bool) : (s.keepOpen h c k).outer = s.outer := rfl
@[simp] theorem State.beginRetry_outer : (s.beginRetry n).outer = s.outer := by
  unfold State.beginRetry; dsimp only; split <;> rfl
@[simp] theorem State.countInsertion_mems : (s.countInsertion n).mems = s.mems := rfl
@[simp] theorem State.countBounce_mems : (s.countBounce n).mems = s.mems := rfl
@[simp] theorem State.countTrip_mems : (s.countTrip n).mems = s.mems := rfl
@[simp] theorem State.voidBayFeed_mems : (s.voidBayFeed n).mems = s.mems := rfl
@[simp] theorem State.beginRetry_mems : (s.beginRetry n).mems = s.mems := by
  unfold State.beginRetry; dsimp only; split <;> rfl

/-! ### The queue's places -/

@[simp] theorem State.places_putBay (b : Bay) : (s.putBay n b).places = s.places := rfl
@[simp] theorem State.places_enter (st : BayState) (why : Reason) : (s.enter n st why).places = s.places := rfl
@[simp] theorem State.places_setOp (o : Option Operation) : (s.setOp n o).places = s.places := rfl
@[simp] theorem State.places_setFlags (f : BayFlags → BayFlags) : (s.setFlags n f).places = s.places := rfl
@[simp] theorem State.places_setRetries (r : Nat) : (s.setRetries n r).places = s.places := rfl
@[simp] theorem State.places_countInsertion : (s.countInsertion n).places = s.places := rfl
@[simp] theorem State.places_countBounce : (s.countBounce n).places = s.places := rfl
@[simp] theorem State.places_countTrip : (s.countTrip n).places = s.places := rfl
@[simp] theorem State.places_voidBayFeed : (s.voidBayFeed n).places = s.places := rfl
@[simp] theorem State.places_beginRetry : (s.beginRetry n).places = s.places := by
  unfold State.beginRetry; dsimp only; split <;> rfl
@[simp] theorem State.places_keepOpen (h : SlipHead) (c : Byte) (k : Bool) : (s.keepOpen h c k).places = s.places := rfl
theorem State.places_of_core {s t : State} (h : t.core = s.core) : t.places = s.places := congrArg Core.queue h
@[simp] theorem State.places_endOpSlip (op : Option Operation) (o : SlipOutcome) (r : List Byte) :
    (s.endOpSlip op o r).places = s.places := State.places_of_core (s.endOpSlip_core op o r)
@[simp] theorem State.places_pubQueue : s.pubQueue.places = s.places := State.places_of_core s.pubQueue_core
@[simp] theorem State.places_bayChanged (e : Option (Fin 8)) : (s.bayChanged n e).places = s.places := by
  rw [State.places, State.bayChanged_scheduler]; rfl
theorem State.places_leave : (s.leave n).places = s.places.filter fun x => x.1 != n := by
  rw [State.places, State.leave_queue, State.places, List.filter_map]; rfl

end

/-! ### How the queue moves with a bay -/

/-- The queue between s and t, as bay n moves: it stands, and bay n's waiting with it; or bay n is out of it and not QUEUED; or bay n, not
QUEUED before, has joined it and is QUEUED. -/
def QueueMoves (n : BayNo) (s t : State) : Prop :=
  (t.places = s.places ∧ ((t.sits n).1 = .queued ↔ (s.sits n).1 = .queued)) ∨
    (t.places = (s.places.filter fun x => x.1 != n) ∧ (t.sits n).1 ≠ .queued) ∨
    ((s.sits n).1 ≠ .queued ∧ (t.sits n).1 = .queued ∧ ∃ e, e.bay = n ∧ t.places = ((enqueue e s.scheduler.queue).map fun e => (e.bay, e.cls)))

/-- A queue with one more entry holds that entry and the others. -/
theorem enqueue_perm (e : QueueEntry) (q : List QueueEntry) : (enqueue e q).Perm (e :: q) := by
  unfold enqueue
  refine List.perm_middle.trans (List.Perm.cons e ?_)
  rw [List.takeWhile_append_dropWhile]

/-- In class order every entry behind the first of a higher class is of a higher class. -/
theorem cls_lt_of_mem_dropWhile {c : Fin 4} : ∀ {q : List QueueEntry}, q.Pairwise (fun d e => d.cls ≤ e.cls) →
    ∀ x ∈ q.dropWhile (fun x => decide (x.cls ≤ c)), c < x.cls
  | [], _, x, hx => by simp at hx
  | d :: q, h, x, hx => by
    rw [List.dropWhile_cons] at hx
    split at hx
    · exact cls_lt_of_mem_dropWhile h.of_cons x hx
    · rename_i hd
      have hd : c < d.cls := by simpa using hd
      obtain rfl | hx := List.mem_cons.1 hx
      · exact hd
      · exact lt_of_lt_of_le hd (List.rel_of_pairwise_cons h hx)

/-- An entry at the tail of its class leaves a queue in class order (R56). -/
theorem enqueue_sorted (e : QueueEntry) {q : List QueueEntry} (h : q.Pairwise (fun d e => d.cls ≤ e.cls)) :
    (enqueue e q).Pairwise (fun d e => d.cls ≤ e.cls) := by
  have hfront : ∀ x ∈ q.takeWhile (fun x => decide (x.cls ≤ e.cls)), x.cls ≤ e.cls := fun x hx => by
    simpa using List.mem_takeWhile_imp hx
  have hback := fun x hx => cls_lt_of_mem_dropWhile (c := e.cls) h x hx
  unfold enqueue
  refine List.pairwise_append.2 ⟨h.sublist (List.takeWhile_sublist _),
    List.pairwise_cons.2 ⟨fun x hx => (hback x hx).le, h.sublist (List.dropWhile_sublist _)⟩, fun x hx y hy => ?_⟩
  obtain rfl | hy := List.mem_cons.1 hy
  · exact hfront x hx
  · exact (hfront x hx).trans (hback y hy).le

/-- A sound queue in terms of its places and the bays' states. -/
theorem State.queueSound_iff_sits (s : State) : s.queueSound ↔
    (∀ n, (s.sits n).1 = .queued ↔ n ∈ s.places.map Prod.fst) ∧ (s.places.map Prod.fst).Nodup ∧
      s.places.Pairwise (fun d e => d.2 ≤ e.2) ∧ s.emptyWhileLoading := s.queueSound_iff

/-- The queue stays sound as one bay moves with it. -/
theorem QueueMoves.sound {n : BayNo} {s t : State} (h : QueueMoves n s t) (hother : ∀ m, m ≠ n → t.sits m = s.sits m)
    (hphase : t.phase ≠ .loading) (hs : s.queueSound) : t.queueSound := by
  rw [State.queueSound_iff_sits] at hs ⊢
  obtain ⟨hmem, hnodup, hsorted, -⟩ := hs
  have hothers : ∀ m, m ≠ n → ((t.sits m).1 = .queued ↔ m ∈ s.places.map Prod.fst) := fun m hm => by rw [hother m hm]; exact hmem m
  refine ⟨?_, ?_, ?_, fun hl => absurd hl hphase⟩ <;> obtain ⟨hp, hn⟩ | ⟨hp, hn⟩ | ⟨hs, ht, e, rfl, hp⟩ := h <;> rw [hp]
  · intro m
    by_cases hm : m = n
    · subst hm; rw [hn]; exact hmem m
    · exact hothers m hm
  · intro m
    by_cases hm : m = n
    · subst hm; simp [hn]
    · rw [hothers m hm]; simp [hm]
  · intro m
    rw [List.map_map, ((enqueue_perm e _).map _).mem_iff, List.map_cons, List.mem_cons]
    by_cases hm : m = e.bay
    · subst hm; simp [ht]
    · rw [hothers m hm, State.places, List.map_map]
      simp [hm]
  · exact hnodup
  · exact hnodup.sublist (List.filter_sublist.map _)
  · rw [List.map_map, ((enqueue_perm e _).map _).nodup_iff, List.map_cons, List.nodup_cons]
    rw [State.places, List.map_map] at hnodup hmem
    exact ⟨fun hin => hs ((hmem _).2 hin), hnodup⟩
  · exact hsorted
  · exact hsorted.sublist List.filter_sublist
  · rw [State.places, List.pairwise_map] at hsorted
    rw [List.pairwise_map]
    exact enqueue_sorted e hsorted

/-! ### The relation -/

/-- From s to t, both of the same phase, each invariant that held still holds; while the part does not run, bays all EMPTY stand as they are. -/
structure Carried (s t : State) : Prop where
  phase    : t.phase = s.phase
  kind     : t.resetKind = s.resetKind
  memories : s.memoriesCanonical → t.memoriesCanonical
  balanced : s.balanced → t.balanced
  queue    : s.queueSound → t.queueSound
  duty     : s.dutySound → t.dutySound
  follows  : s.queueSound → s.follows → t.follows
  empties  : s.phase ≠ .running → s.queueSound → (∀ n, (s.sits n).1 = .empty) → ∀ n, t.sits n = s.sits n

theorem Carried.refl (s : State) : Carried s s := ⟨rfl, rfl, id, id, id, id, fun _ => id, fun _ _ _ _ => rfl⟩

theorem Carried.trans {s t u : State} (h : Carried s t) (k : Carried t u) : Carried s u where
  phase := k.phase.trans h.phase
  kind := k.kind.trans h.kind
  memories hs := k.memories (h.memories hs)
  balanced hs := k.balanced (h.balanced hs)
  queue hs := k.queue (h.queue hs)
  duty hs := k.duty (h.duty hs)
  follows hq hs := k.follows (h.queue hq) (h.follows hq hs)
  empties hp hq he n := by
    have hsits := h.empties hp hq he
    rw [k.empties (by rw [h.phase]; exact hp) (h.queue hq) (fun m => by rw [hsits]; exact he m) n, hsits]

/-- A step that leaves the core and keeps the memories canonical. -/
theorem Carried.of_core {s t : State} (h : t.core = s.core) (hm : s.memoriesCanonical → t.memoriesCanonical) : Carried s t where
  phase := congrArg Core.phase h
  kind := congrArg Core.kind h
  memories := hm
  balanced := State.balanced_of_core h
  queue := State.queueSound_of_core h
  duty := State.dutySound_of_core h
  follows _ := State.follows_of_core h
  empties _ _ _ := State.sits_of_core h

/-- A step that leaves the core and the memories. -/
theorem Carried.of_core_mems {s t : State} (h : t.core = s.core) (hm : t.mems = s.mems) : Carried s t :=
  .of_core h (State.canonical_of_mems hm)

/-- The duty's invariant rests on the outer state. -/
theorem State.dutySound_of_outer {s t : State} (h : t.outer = s.outer) (hs : s.dutySound) : t.dutySound := by
  have hset : t.settings = s.settings := congrArg Outer.settings h
  have hfans : t.fans = s.fans := congrArg Outer.fans h
  have hzones : t.zones = s.zones := congrArg Outer.zones h
  have hphase : t.phase = s.phase := congrArg Outer.phase h
  simpa only [State.dutySound, State.emergency, hset, hfans, hzones, hphase] using hs

/-- One bay moves: every other bay's state and switches stand, bay n's switches follow its state, its entry is in the queue just while it is
QUEUED, and out of EMPTY it comes in a running part and within the count alone. -/
structure BayMoves (n : BayNo) (s t : State) : Prop where
  outer    : t.outer = s.outer
  memories : s.memoriesCanonical → t.memoriesCanonical
  others   : ∀ m, m ≠ n → t.sits m = s.sits m
  follows  : s.sits n = (s.sits n).1.seated → t.sits n = (t.sits n).1.seated
  within   : s.queueSound → (s.phase = .running ∧ s.inCount n = true) ∨ (s.sits n).1 ≠ .empty ∨ t.sits n = s.sits n
  queue    : s.queueSound → QueueMoves n s t

theorem State.follows_iff (s : State) : s.follows ↔
    ∀ n, s.sits n = (s.sits n).1.seated ∧ (s.inCount n = false → (s.sits n).1 = .empty) := by
  refine forall_congr' fun n => ?_
  simp only [State.sits, BayState.seated, Prod.mk.injEq, true_and, and_assoc]

/-- The move of a bay, taken to the end of its handling, keeps the invariants (R5). -/
theorem BayMoves.carried {n : BayNo} {s t : State} (h : BayMoves n s t) (hp : s.phase ≠ .loading) (e : Option (Fin 8)) :
    Carried s (t.bayChanged n e) where
  phase := by rw [State.bayChanged_phase]; exact congrArg Outer.phase h.outer
  kind := congrArg Outer.resetKind ((t.bayChanged_outer n e).trans h.outer)
  memories hs := State.canonical_of_mems (t.bayChanged_mems n e) (h.memories hs)
  balanced _ := (t.bayChanged_account n e).balanced
  queue hs := by
    have hq : QueueMoves n s (t.bayChanged n e) := by
      simpa only [QueueMoves, State.places_bayChanged, State.sits_bayChanged] using h.queue hs
    refine hq.sound (fun m hm => by rw [State.sits_bayChanged, h.others m hm]) ?_ hs
    rw [State.bayChanged_phase]
    exact fun hl => hp ((congrArg Outer.phase h.outer).symm.trans hl)
  duty := State.dutySound_of_outer ((t.bayChanged_outer n e).trans h.outer)
  follows hq hs := by
    rw [State.follows_iff] at hs ⊢
    intro m
    have hin : (t.bayChanged n e).inCount m = s.inCount m := by
      have hstraps : (t.bayChanged n e).straps = s.straps := congrArg Outer.straps ((t.bayChanged_outer n e).trans h.outer)
      simp only [State.inCount, hstraps]
    rw [State.sits_bayChanged, hin]
    by_cases hm : m = n
    · subst hm
      refine ⟨h.follows (hs m).1, fun hout => ?_⟩
      obtain hw | hw | hw := h.within hq
      · exact absurd (hw.2.symm.trans hout) (by decide)
      · exact absurd ((hs m).2 hout) hw
      · rw [hw]; exact (hs m).2 hout
    · rw [h.others m hm]; exact hs m
  empties hstart hq he m := by
    rw [State.sits_bayChanged]
    by_cases hm : m = n
    · subst hm
      obtain hw | hw | hw := h.within hq
      · exact absurd hw.1 hstart
      · exact absurd (he m) hw
      · exact hw
    · exact h.others m hm

/-- A bay enters a state, with its entry out of the queue: what was done before and after left its state and switches. -/
theorem BayMoves.of_enter {n : BayNo} {s t : State} {st : BayState} (outer : t.outer = s.outer)
    (memories : s.memoriesCanonical → t.memoriesCanonical) (sits : ∀ m, t.sits m = if m = n then st.seated else s.sits m)
    (within : s.queueSound → (s.phase = .running ∧ s.inCount n = true) ∨ (s.sits n).1 ≠ .empty) (queue : s.queueSound → QueueMoves n s t) : BayMoves n s t where
  outer := outer
  memories := memories
  others m hm := by rw [sits, if_neg hm]
  follows _ := by rw [sits, if_pos rfl]; rfl
  within hq := (within hq).imp_right .inl
  queue := queue

/-- The queue stands while a bay that waits in it neither before nor after moves. -/
theorem QueueMoves.stand {n : BayNo} {s t : State} (hp : t.places = s.places) (hs : (s.sits n).1 ≠ .queued) (ht : (t.sits n).1 ≠ .queued) :
    QueueMoves n s t := .inl ⟨hp, ⟨fun h => absurd h ht, fun h => absurd h hs⟩⟩

/-- A bay leaves the queue. -/
theorem QueueMoves.left {n : BayNo} {s t : State} (hp : t.places = s.places.filter fun x => x.1 != n) (ht : (t.sits n).1 ≠ .queued) :
    QueueMoves n s t := .inr (.inl ⟨hp, ht⟩)

/-- Work on bay n that leaves its state, its switches and the queue. -/
theorem BayMoves.of_stand {n : BayNo} {s t : State} (outer : t.outer = s.outer) (memories : s.memoriesCanonical → t.memoriesCanonical)
    (sits : ∀ m, t.sits m = s.sits m) (places : t.places = s.places) : BayMoves n s t where
  outer := outer
  memories := memories
  others m _ := sits m
  follows h := by rw [sits]; exact h
  within _ := .inr (.inr (sits n))
  queue _ := .inl ⟨places, by rw [sits]⟩

end Sys2Proof.Machine
end

section
/-! SUPPORT. Acting on reports keeps the invariants (`Carried`): admissions, policy moves, sheds. -/

namespace Sys2Proof.Machine

variable {s : State} {n : BayNo}

/-! ### Admission -/

@[simp] theorem State.places_withReports (s : State) (r : Reports) : ({ s with reports := r } : State).places = s.places := rfl

/-- In a sound queue the head's bay waits, and the tail is the queue without it. -/
theorem State.head_of_sound (hq : s.queueSound) (hn : headBay s.scheduler.queue = some n) : (s.sits n).1 = .queued ∧
    (s.scheduler.queue.tail.map fun e => (e.bay, e.cls)) = s.places.filter fun x => x.1 != n := by
  obtain ⟨hmem, hnodup, -⟩ := hq
  cases hl : s.scheduler.queue with
  | nil => rw [hl] at hn; cases hn
  | cons e q =>
    rw [hl] at hn hnodup
    obtain rfl : e.bay = n := by simpa [headBay] using hn
    refine ⟨(hmem _).2 (by simp [hl]), ?_⟩
    rw [State.places, hl, List.map_cons, List.filter_cons_of_neg (by simp), List.tail_cons]
    refine (List.filter_eq_self.2 fun x hx => ?_).symm
    obtain ⟨d, hd, rfl⟩ := List.mem_map.1 hx
    simp only [List.map_cons, List.nodup_cons, List.mem_map, not_exists, not_and] at hnodup
    simpa using hnodup.1 d hd

/-- The state of an admission before the end of the bay's handling (R62). -/
def State.admitting (n : BayNo) (s : State) : State :=
  let s1 := { s with scheduler := { s.scheduler with
      queue := s.scheduler.queue.tail
      lastAdmission := some s.time
      staggerAt := some (Time.plus s.time s.settings.schedule.stagger)
      hold := .none } }
  let s2 := s1.enter n .spinningUp .admitted
  (s2.setOp n ((s2.bay n).record.op.map fun o => { o with deadline := none })).pubQueue

theorem State.admitHead_eq (n : BayNo) (s : State) : s.admitHead n = (s.admitting n).bayChanged n (some srcBayChange) := rfl

theorem State.sits_admitting (s : State) (n m : BayNo) :
    (s.admitting n).sits m = if m = n then BayState.spinningUp.seated else s.sits m := by
  unfold State.admitting
  rw [State.sits_pubQueue, State.sits_setOp, State.sits_enter]
  rfl

theorem State.places_admitting (s : State) (n : BayNo) :
    (s.admitting n).places = s.scheduler.queue.tail.map fun e => (e.bay, e.cls) := by
  unfold State.admitting
  rw [State.places_pubQueue]
  rfl

theorem State.admitHead_carried (hp : s.phase ≠ .loading) (hn : headBay s.scheduler.queue = some n) : Carried s (s.admitHead n) := by
  rw [State.admitHead_eq]
  refine BayMoves.carried (.of_enter ?_ (State.canonical_of_mems ?_) (s.sits_admitting n) (fun hq => .inr ?_) fun hq => .left ?_ ?_) hp _
  · unfold State.admitting; simp; rfl
  · unfold State.admitting; simp; rfl
  · rw [(State.head_of_sound hq hn).1]; decide
  · rw [s.places_admitting, (State.head_of_sound hq hn).2]
  · rw [s.sits_admitting, if_pos rfl]; decide

/-- A property that a new hold reason keeps and that an admission of the head keeps is kept by a pass (R63). -/
theorem State.passLoop_keeps_head {P : State → Prop} (admitHead : ∀ s n, headBay s.scheduler.queue = some n → P s → P (s.admitHead n))
    (hold : ∀ s h, P s → P (s.setHold h)) (fuel : Nat) (s : State) (h : P s) : P (State.passLoop fuel s) := by
  induction fuel generalizing s with
  | zero => exact h
  | succ k ih =>
    unfold State.passLoop
    split
    · exact hold _ _ h
    · rename_i n hn
      split
      · exact ih _ (admitHead _ _ hn h)
      · exact hold _ _ h

theorem State.runPass_carried (hp : s.phase ≠ .loading) : Carried s s.runPass := by
  unfold State.runPass
  split
  · refine Carried.trans ?_ (.of_core_mems (State.withReports_core _ _) rfl)
    refine State.passLoop_keeps_head (P := Carried s) (fun t m hm ht => ht.trans (State.admitHead_carried ?_ hm))
      (fun t h ht => ht.trans (.of_core_mems (t.setHold_core h) (t.setHold_mems h))) _ s (.refl s)
    rw [ht.phase]; exact hp
  · exact .refl s

/-! ### Policy -/

/-- A bay in OFF, or otherwise out of the queue and not EMPTY, enters a state in which it does not wait. -/
theorem BayMoves.of_enter_apart {t : State} {st : BayState} (outer : t.outer = s.outer)
    (memories : s.memoriesCanonical → t.memoriesCanonical) (sits : ∀ m, t.sits m = if m = n then st.seated else s.sits m)
    (within : (s.sits n).1 ≠ .empty) (places : t.places = s.places) (hs : (s.sits n).1 ≠ .queued) (hst : st ≠ .queued) :
    BayMoves n s t :=
  .of_enter outer memories sits (fun _ => .inr within) fun _ => .stand places hs (by rw [sits, if_pos rfl]; exact hst)

/-- A bay that did not wait enters QUEUED and joins the queue. -/
theorem BayMoves.of_join {t : State} {e : QueueEntry} (he : e.bay = n) (outer : t.outer = s.outer)
    (memories : t.mems = s.mems) (sits : ∀ m, t.sits m = if m = n then BayState.queued.seated else s.sits m)
    (queue : t.scheduler.queue = s.scheduler.queue) (hs : (s.sits n).1 ≠ .empty ∧ (s.sits n).1 ≠ .queued) : BayMoves n s (t.join e) := by
  have hsits : ∀ m, (t.join e).sits m = if m = n then BayState.queued.seated else s.sits m := fun m => by rw [State.sits_join, sits]
  refine .of_enter (by rw [State.join_outer, outer]) (State.canonical_of_mems (by rw [State.join_mems, memories])) hsits
    (fun _ => .inr hs.1) fun _ => .inr (.inr ⟨hs.2, by rw [hsits, if_pos rfl]; rfl, e, he, ?_⟩)
  rw [State.places, State.join_queue, queue]

theorem State.policyMove_carried (hp : s.phase ≠ .loading) (hoff : (s.bay n).record.state = .off) : Carried s (s.policyMove n) := by
  have hsits : (s.sits n).1 = .off := hoff
  unfold State.policyMove
  split
  · split
    · exact .refl s
    · exact BayMoves.carried (.of_enter_apart (st := .logic) (by simp) (State.canonical_of_mems (by simp))
        (fun m => by simp [State.sits_enter]) (by simp [hsits]) (by simp) (by simp [hsits]) (by decide)) hp _
    · refine BayMoves.carried (.of_join ?_ (by simp) (by simp) (fun m => ?_) ?_ (by simp [hsits])) hp _
      · rfl
      · by_cases hm : m = n <;> simp [State.sits_enter, hm]
      · simp
  · split
    · exact .refl s
    · exact BayMoves.carried (.of_stand (by simp) (State.canonical_of_mems (by simp)) (fun m => by simp) (by simp)) hp _

theorem State.applyPolicy_carried (hp : s.phase ≠ .loading) (hoff : (s.bay n).record.state = .off) : Carried s (s.applyPolicy n) := by
  unfold State.applyPolicy
  split
  · exact .refl s
  · split
    · exact .refl s
    · exact State.policyMove_carried hp hoff

theorem State.walkBay_carried (hp : s.phase ≠ .loading) : Carried s (s.walkBay n) := by
  unfold State.walkBay
  split
  · rename_i h
    have hmove := State.policyMove_carried hp h.1
    exact hmove.trans (State.runPass_carried (by rw [hmove.phase]; exact hp))
  · exact .refl s

/-- A relation that every step keeps from one start is kept by a fold. -/
theorem foldl_keeps {α β : Type} {P : β → Prop} {f : β → α → β} (step : ∀ b a, P b → P (f b a)) (l : List α) (b : β) (h : P b) :
    P (l.foldl f b) := by
  induction l generalizing b with
  | nil => exact h
  | cons a l ih => exact ih _ (step _ _ h)

theorem State.wait5vWalk_carried (hp : s.phase ≠ .loading) : Carried s s.wait5vWalk :=
  foldl_keeps (P := Carried s) (fun t m ht => ht.trans (State.walkBay_carried (by rw [ht.phase]; exact hp))) _ _
    (.of_core_mems (State.withReports_core _ _) rfl)

/-! ### Sheds -/

theorem Carried.endOpSlip {t : State} (h : Carried s t) (op : Option Operation) (o : SlipOutcome) (r : List Byte) :
    Carried s (t.endOpSlip op o r) := h.trans (.of_core (t.endOpSlip_core op o r) (State.endOpSlip_canonical op o r))

theorem State.shed12_carried (hp : s.phase ≠ .loading) (k : ShedKind) : Carried s (s.shed12 k n) := by
  unfold State.shed12
  split
  · rename_i hspin
    have hsits : (s.sits n).1.spinning = true := hspin
    have hne : (s.sits n).1 ≠ .empty ∧ (s.sits n).1 ≠ .queued := by
      constructor <;> (intro h; rw [h] at hsits; cases hsits)
    dsimp only
    split
    · refine Carried.endOpSlip (BayMoves.carried (.of_enter_apart (st := .off) (by simp) (State.canonical_of_mems (by simp)) (fun m => ?_)
        hne.1 (by simp) hne.2 (by decide)) hp _) _ _ _
      by_cases hm : m = n <;> simp [State.sits_enter, hm]
    · exact Carried.endOpSlip (BayMoves.carried (.of_enter_apart (st := .logic) (by simp) (State.canonical_of_mems (by simp))
        (fun m => by simp [State.sits_enter]) hne.1 (by simp) hne.2 (by decide)) hp _) _ _ _
  · exact .refl s

theorem State.shed5_carried (hp : s.phase ≠ .loading) : Carried s (s.shed5 n) := by
  unfold State.shed5
  split
  · rename_i hpow
    have hsits : (s.sits n).1.powered = true := hpow
    have hne : (s.sits n).1 ≠ .empty := by intro h; rw [h] at hsits; cases hsits
    refine Carried.endOpSlip (BayMoves.carried (.of_enter (st := .off) (by simp) (State.canonical_of_mems (by simp))
      (fun m => by simp [State.sits_enter]) (fun _ => .inr hne) fun _ => .left ?_ ?_) hp _) _ _ _
    · simp [State.places_leave]
    · simp [State.sits_enter, BayState.seated]
  · exact .refl s

theorem State.unresolvable_core (s : State) : s.unresolvable.core = s.core := by
  unfold State.unresolvable
  split
  · rfl
  · simp only [State.raiseBoth_core, State.pubSummaryIfAccount_core]; rfl

theorem State.unresolvable_mems (s : State) : s.unresolvable.mems = s.mems := by
  unfold State.unresolvable
  split
  · rfl
  · simp only [State.raiseBoth_mems, State.pubSummaryIfAccount_mems]; rfl

theorem State.shedStep_carried (hp : s.phase ≠ .loading) : Carried s s.shedStep := by
  unfold State.shedStep
  split
  · exact .of_core_mems s.endRun_core rfl
  · split
    · exact .of_core_mems s.unresolvable_core s.unresolvable_mems
    · unfold State.shedBay
      split
      · exact State.shed5_carried hp
      · exact State.shed12_carried hp _

theorem State.thermalShed_carried (hp : s.phase ≠ .loading) : Carried s (s.thermalShed n) := by
  unfold State.thermalShed
  split
  · exact State.shed12_carried hp _
  · exact .refl s

/-- Acting on reports keeps the invariants. -/
theorem State.settle_carried (hp : s.phase ≠ .loading) : Carried s s.settle := by
  have hph : ∀ {t}, Carried s t → t.phase ≠ .loading := fun ht => by rw [ht.phase]; exact hp
  exact State.settle_keeps (P := Carried s) (fun t ht => ht.trans (State.runPass_carried (hph ht)))
    (fun t ht => ht.trans (State.wait5vWalk_carried (hph ht))) (fun t r ht => ht.trans (.of_core_mems (t.withReports_core r) rfl))
    (fun t m ht => ht.trans (State.thermalShed_carried (hph ht))) (fun t ht => ht.trans (State.shedStep_carried (hph ht))) s (.refl s)

theorem State.deliver_carried (s : State) : Carried s s.deliver := .of_core_mems s.deliver_core s.deliver_mems

/-- The end of a handling keeps the invariants. -/
theorem State.close_carried (hp : s.phase ≠ .loading) : Carried s s.close := (State.settle_carried hp).trans s.settle.deliver_carried

theorem State.pubReader_carried' (s : State) (p : Port) : Carried s (s.pubReader p) := .of_core_mems (s.pubReader_core p) (s.pubReader_mems p)

/-- The end of a slip command's handling keeps the invariants. -/
theorem State.finishSlip_carried (hp : s.phase ≠ .loading) (p : Port) : Carried s (s.finishSlip p) :=
  ((State.settle_carried hp).trans (s.settle.pubReader_carried' p)).trans (State.deliver_carried _)

theorem Carried.close {t : State} (h : Carried s t) (hp : s.phase ≠ .loading) : Carried s t.close :=
  h.trans (State.close_carried (by rw [h.phase]; exact hp))

theorem Carried.settle {t : State} (h : Carried s t) (hp : s.phase ≠ .loading) : Carried s t.settle :=
  h.trans (State.settle_carried (by rw [h.phase]; exact hp))

theorem Carried.endTaken {t : State} (h : Carried s t) (k : SlipHead) (o : SlipOutcome) (c m : Bool) (r : Option (List Byte)) :
    Carried s (t.endTaken k o c m r) := h.trans (.of_core (t.endTaken_core k o c m r) (State.endTaken_canonical k o c m r))

end Sys2Proof.Machine
end

section
/-! SUPPORT. The blocks' own work keeps the invariants (`Carried`): the account, the scheduler's and the bays' settings, zones, sensors, fans,
lights and settings. -/

namespace Sys2Proof.Machine

variable {s : State} {n : BayNo}

/-! ### All but the duty -/

/-- From s to t each invariant that held still holds, the duty's left open. -/
structure Held (s t : State) : Prop where
  phase    : t.phase = s.phase
  kind     : t.resetKind = s.resetKind
  memories : s.memoriesCanonical → t.memoriesCanonical
  balanced : s.balanced → t.balanced
  queue    : s.queueSound → t.queueSound
  follows  : s.queueSound → s.follows → t.follows
  empties  : s.phase ≠ .running → s.queueSound → (∀ n, (s.sits n).1 = .empty) → ∀ n, t.sits n = s.sits n

theorem Carried.held {s t : State} (h : Carried s t) : Held s t :=
  ⟨h.phase, h.kind, h.memories, h.balanced, h.queue, h.follows, h.empties⟩

theorem Held.carried {s t : State} (h : Held s t) (hd : s.dutySound → t.dutySound) : Carried s t :=
  ⟨h.phase, h.kind, h.memories, h.balanced, h.queue, hd, h.follows, h.empties⟩

theorem Held.trans {s t u : State} (h : Held s t) (k : Held t u) : Held s u where
  phase := k.phase.trans h.phase
  kind := k.kind.trans h.kind
  memories hs := k.memories (h.memories hs)
  balanced hs := k.balanced (h.balanced hs)
  queue hs := k.queue (h.queue hs)
  follows hq hs := k.follows (h.queue hq) (h.follows hq hs)
  empties hp hq he n := by
    have hsits := h.empties hp hq he
    rw [k.empties (by rw [h.phase]; exact hp) (h.queue hq) (fun m => by rw [hsits]; exact he m) n, hsits]

/-- The state with another's fans, zones and fan settings: what the invariants but the duty's do not see. -/
def State.withFansOf (s t : State) : State :=
  { t with fans := s.fans, zones := s.zones, settings := { t.settings with fans := s.settings.fans } }

/-- A step of fans and zones alone. -/
theorem Held.of_fans {s t : State} (h : (s.withFansOf t).core = s.core) (hm : s.memoriesCanonical → t.memoriesCanonical) : Held s t where
  phase := congrArg Core.phase h
  kind := congrArg Core.kind h
  memories := hm
  balanced hs := show (s.withFansOf t).balanced from State.balanced_of_core h hs
  queue hs := show (s.withFansOf t).queueSound from State.queueSound_of_core h hs
  follows _ hs := show (s.withFansOf t).follows from State.follows_of_core h hs
  empties _ _ _ n := show (s.withFansOf t).sits n = s.sits n from State.sits_of_core h n

/-- A step after which the account is balanced, and which leaves the bays, the queue and the duty. -/
theorem Carried.of_balanced {s t : State} (hphase : t.phase = s.phase) (hkind : t.resetKind = s.resetKind) (hstraps : t.straps = s.straps)
    (hsits : ∀ m, t.sits m = s.sits m) (hplaces : t.places = s.places) (hfans : t.fans = s.fans) (hzones : t.zones = s.zones)
    (hset : t.settings.fans = s.settings.fans) (hmems : s.memoriesCanonical → t.memoriesCanonical) (hbalanced : t.balanced) :
    Carried s t where
  phase := hphase
  kind := hkind
  memories := hmems
  balanced _ := hbalanced
  queue hs := by
    rw [State.queueSound_iff_sits] at hs ⊢
    obtain ⟨hmem, hnodup, hsorted, hload⟩ := hs
    rw [hplaces]
    refine ⟨fun m => by rw [hsits]; exact hmem m, hnodup, hsorted, fun hl m => ?_⟩
    exact (congrArg Prod.fst (hsits m)).trans (hload (hphase ▸ hl) m)
  duty hs := by simpa only [State.dutySound, State.emergency, hset, hfans, hzones, hphase] using hs
  follows _ hs := by
    rw [State.follows_iff] at hs ⊢
    intro m
    have hin : t.inCount m = s.inCount m := by simp only [State.inCount, hstraps]
    rw [hsits, hin]
    exact hs m
  empties _ _ _ := hsits

/-! ### The account -/

/-- A handling of the account, after a step that left the bays, the queue and the fans. -/
theorem Carried.accountUpdate {s t : State} (hphase : t.phase = s.phase) (hkind : t.resetKind = s.resetKind) (hstraps : t.straps = s.straps)
    (hsits : ∀ m, t.sits m = s.sits m) (hplaces : t.places = s.places) (hfans : t.fans = s.fans) (hzones : t.zones = s.zones)
    (hset : t.settings.fans = s.settings.fans) (hmems : t.mems = s.mems) : Carried s t.accountUpdate := by
  have heq := t.accountUpdate_eq
  refine .of_balanced ?_ ?_ ?_ (fun m => ?_) ?_ ?_ ?_ ?_ (State.canonical_of_mems (by rw [State.accountUpdate_mems, hmems]))
    t.accountUpdate_balanced
  · rw [heq]; exact hphase
  · rw [heq]; exact hkind
  · rw [heq]; exact hstraps
  · rw [heq]; exact hsits m
  · rw [heq]; exact hplaces
  · rw [heq]; exact hfans
  · rw [heq]; exact hzones
  · rw [heq]; exact hset

theorem State.raiseBoth_carried (s : State) (i : Fin 8) : Carried s (s.raiseBoth i) := .of_core_mems rfl rfl

theorem Carried.raiseBoth {s t : State} (h : Carried s t) (i : Fin 8) : Carried s (t.raiseBoth i) := h.trans (t.raiseBoth_carried i)

theorem Carried.raisedIf {s t : State} (h : Carried s t) (c : Prop) [Decidable c] (i : Fin 8) :
    Carried s (if c then t.raiseBoth i else t) := by
  split
  · exact h.raiseBoth i
  · exact h

theorem State.reportReservation_carried (f : Nat) : Carried s (s.reportReservation f) := by
  unfold State.reportReservation
  split
  · exact .refl s
  · exact .accountUpdate rfl rfl rfl (fun _ => rfl) rfl rfl rfl rfl rfl

/-- What sampling and publishing a supply record leave: all but that record. -/
theorem State.sampledPub_eq (s : State) (i : Fin 4) : ((s.sampleSupply i).pubSupply i) =
    { s with
      account := ((s.sampleSupply i).pubSupply i).account
      status := ((s.sampleSupply i).pubSupply i).status } := by
  rw [State.pubSupply_eq]; rfl

theorem State.sampleSupply_core (i : Fin 4) (h : s.account.supplies[i].state = (s.sampledSupply i).state) :
    (s.sampleSupply i).core = s.core := by
  refine State.core_of_parts rfl rfl rfl (fun _ => rfl) rfl rfl (fun j => ?_) ⟨rfl, rfl, rfl⟩ rfl rfl
  show (s.account.supplies.set i _)[j].state = _
  by_cases hij : i.val = j.val
  · obtain rfl : i = j := Fin.ext hij
    simpa using h.symm
  · simp [hij]

theorem State.takeSupply_carried (i : Fin 4) : Carried s (s.takeSupply i) := by
  unfold State.takeSupply
  dsimp only
  split
  · rename_i h
    exact .of_core_mems (by rw [State.pubSupply_core, State.sampleSupply_core i h]) (by rw [State.pubSupply_mems]; rfl)
  · rw [State.sampledPub_eq]
    refine Carried.raiseBoth ?_ _
    exact .accountUpdate rfl rfl rfl (fun _ => rfl) rfl rfl rfl rfl rfl

theorem State.setSlot_carried (i : Fin 4) (a : SetSlotArgs) : Carried s (s.setSlot i a) := by
  unfold State.setSlot
  dsimp only
  split
  · exact .refl s
  · rw [State.sampledPub_eq]
    split
    · exact .accountUpdate rfl rfl rfl (fun _ => rfl) rfl rfl rfl rfl rfl
    · refine Carried.raiseBoth ?_ _
      exact .accountUpdate rfl rfl rfl (fun _ => rfl) rfl rfl rfl rfl rfl

/-- A change of the shed setting moves the account's timer and a report at most (R49). -/
theorem State.shedSwitched_eq (s : State) (old new : Bool) : s.shedSwitched old new =
    { s with account := (s.shedSwitched old new).account, reports := (s.shedSwitched old new).reports } := by
  unfold State.shedSwitched
  dsimp only
  split
  · rfl
  · split <;> rfl

theorem State.setAccount_carried (a : SetAccountArgs) : Carried s (s.setAccount a).1 := by
  unfold State.setAccount
  dsimp only
  split
  · exact .refl s
  · rw [State.shedSwitched_eq]
    exact .accountUpdate rfl rfl rfl (fun _ => rfl) rfl rfl rfl rfl rfl

/-! ### The schedule and a bay's settings -/

theorem State.setSchedule_carried (a : SetScheduleArgs) : Carried s (s.setSchedule a).1 := by
  unfold State.setSchedule
  dsimp only
  split
  · exact .refl s
  · exact .of_core_mems (by rw [State.pubQueue_core]; rfl) (by rw [State.pubQueue_mems]; rfl)

theorem State.places_reclass_none (c : Fin 4) (h : s.scheduler.queue.find? (fun x => x.bay == n) = none) :
    (s.reclass n c).places = s.places := by
  unfold State.reclass
  rw [h]

theorem State.places_reclass_some (c : Fin 4) {e : QueueEntry} (h : s.scheduler.queue.find? (fun x => x.bay == n) = some e) :
    (s.reclass n c).places =
      (enqueue { e with cls := c, enqueued := s.time } (s.scheduler.queue.filter fun x => x.bay != n)).map fun e => (e.bay, e.cls) := by
  unfold State.reclass
  rw [h]
  dsimp only
  rw [State.places_of_core (State.pubSummaryIfAccount_core _), State.places_pubQueue]
  rfl

/-- A QUEUED bay's move to another class leaves the queue sound (R58). -/
theorem State.reclass_carried (hp : s.phase ≠ .loading) (c : Fin 4) : Carried s (s.reclass n c) := by
  have heq := s.reclass_eq n c
  have hsits : ∀ m, (s.reclass n c).sits m = s.sits m := fun m => by rw [heq]; rfl
  refine ⟨by rw [heq], by rw [heq], State.canonical_of_mems (s.reclass_mems n c), fun h => ?_, fun h => ?_, fun h => ?_, fun _ h => ?_,
    fun _ _ _ => hsits⟩
  · rw [heq]; exact h
  · rw [State.queueSound_iff_sits]
    have hload : (s.reclass n c).emptyWhileLoading := by
      intro hl
      rw [heq] at hl
      exact absurd hl hp
    cases hf : s.scheduler.queue.find? (fun x => x.bay == n) with
    | none =>
      have hq := State.places_reclass_none c hf
      rw [State.queueSound_iff_sits] at h
      simp only [hq, hsits]
      exact ⟨h.1, h.2.1, h.2.2.1, hload⟩
    | some e =>
      have hq := State.places_reclass_some c hf
      obtain ⟨hmem, hnodup, hsorted, -⟩ := h
      have he : e.bay = n := by simpa using List.find?_some hf
      have hin : e ∈ s.scheduler.queue := List.mem_of_find?_eq_some hf
      have hperm := (enqueue_perm { e with cls := c, enqueued := s.time } (s.scheduler.queue.filter fun x => x.bay != n)).map (·.bay)
      have hbays : (s.reclass n c).places.map Prod.fst =
          (enqueue { e with cls := c, enqueued := s.time } (s.scheduler.queue.filter fun x => x.bay != n)).map (·.bay) := by
        rw [hq, List.map_map]; rfl
      refine ⟨fun m => ?_, ?_, ?_, hload⟩
      · rw [hsits, hbays, hperm.mem_iff]
        refine (hmem m).trans ?_
        simp only [List.map_cons, List.mem_cons, List.mem_map, List.mem_filter, bne_iff_ne, he]
        constructor
        · rintro ⟨x, hx, rfl⟩
          by_cases hxn : x.bay = n
          · exact .inl hxn
          · exact .inr ⟨x, ⟨hx, hxn⟩, rfl⟩
        · rintro (rfl | ⟨x, ⟨hx, -⟩, rfl⟩)
          · exact ⟨e, hin, he⟩
          · exact ⟨x, hx, rfl⟩
      · rw [hbays, hperm.nodup_iff, List.map_cons, List.nodup_cons]
        refine ⟨?_, hnodup.sublist (List.filter_sublist.map _)⟩
        simp [he]
      · rw [hq, List.pairwise_map]
        exact enqueue_sorted _ (hsorted.sublist List.filter_sublist)
  · rw [heq]; exact h
  · rw [heq]; exact h

/-- A bay put back with its state, captures and switches leaves the core. -/
theorem State.putBay_core {b : Bay} (h : b.record.state = (s.bay n).record.state ∧ b.record.c12 = (s.bay n).record.c12 ∧
    b.record.c5 = (s.bay n).record.c5) : (s.putBay n b).core = s.core := by
  refine State.core_of_parts rfl rfl rfl (fun m => ?_) rfl rfl (fun _ => rfl) ⟨rfl, rfl, rfl⟩ rfl rfl
  unfold State.seat
  rw [State.bay_putBay]
  obtain ⟨h1, h2, h3⟩ := h
  split
  · rename_i hm; subst hm; rw [h1, h2, h3]; rfl
  · rfl

@[simp] theorem State.setOp_core (s : State) (n : BayNo) (o : Option Operation) : (s.setOp n o).core = s.core :=
  State.putBay_core ⟨rfl, rfl, rfl⟩
@[simp] theorem State.setFlags_core (s : State) (n : BayNo) (f : BayFlags → BayFlags) : (s.setFlags n f).core = s.core :=
  State.putBay_core ⟨rfl, rfl, rfl⟩

theorem State.bayFieldsChanged_carried (hp : s.phase ≠ .loading) (old new : BaySettings) : Carried s (s.bayFieldsChanged n old new) := by
  unfold State.bayFieldsChanged
  dsimp only
  refine Carried.trans ?_ (.of_core_mems (State.withReports_core _ _) rfl)
  have hwait : ∀ t : State, Carried t (if new.policy = .manual ∧ old.policy ≠ .manual then
      t.setFlags n fun f => { f with wait5v := false } else t) := fun t => by
    split
    · exact .of_core_mems (t.setFlags_core n _) rfl
    · exact .refl t
  split
  · refine (hwait s).trans (State.reclass_carried ?_ _)
    rw [(hwait s).phase]; exact hp
  · exact hwait s

/-- The state with new settings of a bay. -/
def State.withBaySet (s : State) (n : BayNo) (x : BaySettings) : State :=
  { s with settings := { s.settings with bays := s.settings.bays.set n x } }

theorem State.setBay_carried (hp : s.phase ≠ .loading) (a : SetBayArgs) : Carried s (s.setBay n a).1 := by
  have hfields (x : BaySettings) : Carried s (((s.withBaySet n x).bayFieldsChanged n (s.baySet n) x).pubBay n) := by
    have hset : Carried s (s.withBaySet n x) := .of_core_mems rfl rfl
    have hmoved := hset.trans (State.bayFieldsChanged_carried (s := s.withBaySet n x) (n := n) hp (s.baySet n) x)
    exact hmoved.trans (.of_core_mems (State.pubBay_core _ n) (State.pubBay_mems _ n))
  unfold State.setBay
  dsimp only
  split
  · exact hfields _
  · exact (hfields _).raiseBoth _

theorem State.setProfile_carried (i : Fin 8) (a : SetProfileArgs) : Carried s (s.setProfile i a).1 := .of_core_mems rfl rfl

/-! ### Zones and sensors -/

theorem State.pubZones_core (s : State) : s.pubZones.core = s.core := by simp [State.pubZones]
theorem State.pubZones_mems (s : State) : s.pubZones.mems = s.mems := by simp [State.pubZones]

theorem State.setCurve_carried (z : Fin 4) (a : SetCurveArgs) (t : State) (h : (s.setCurve z a).1 = some t) : Carried s t := by
  unfold State.setCurve at h
  dsimp only at h
  split at h
  · obtain rfl := Option.some.inj h
    exact .of_core_mems (by rw [State.pubZone_core]; rfl) (by rw [State.pubZone_mems]; rfl)
  · cases h

theorem State.setLimits_carried (z : Fin 4) (a : SetLimitsArgs) (t : State) (h : (s.setLimits z a).1 = some t) : Carried s t := by
  unfold State.setLimits at h
  dsimp only at h
  split at h
  · obtain rfl := Option.some.inj h
    exact .of_core_mems (by rw [State.pubZone_core]; rfl) (by rw [State.pubZone_mems]; rfl)
  · cases h

theorem State.setStaleTime_carried (v : Half) : Carried s (s.setStaleTime v).1 :=
  .of_core_mems (State.pubZones_core _) (State.pubZones_mems _)

theorem State.setSensor_carried (i : Fin 8) (a : SetSensorArgs) : Carried s (s.setSensor i a).1 := by
  unfold State.setSensor
  dsimp only
  exact .raisedIf (.of_core_mems (by rw [State.republishSensor_core]; rfl) (by rw [State.republishSensor_mems]; rfl)) _ _

theorem State.putSensor_carried (i : Fin 8) (u : Sensor) : Carried s (s.putSensor i u) := by
  unfold State.putSensor
  dsimp only
  exact .raisedIf (.of_core_mems (by rw [State.pubSensor_core]; rfl) (by rw [State.pubSensor_mems]; rfl)) _ _

/-- The state of an evaluation once the zones are judged, before anything is published (R94). -/
def State.zoned (s : State) : State :=
  let marked := { s with feeds := s.feeds.map fun (f : BayFeed) => f.marked s.time (s.settings.staleTime * 1000) }
  let zs := Vector.ofFn fun z => marked.evaluatedZone z
  let left := (List.finRange 4).any fun z => s.zones[z].state != .normal && s.zones[z].state != zs[z].state
  { marked with zones := zs, reports := { s.reports with pass := s.reports.pass || left } }

theorem State.evaluateZones_of_zoned (s : State) : ∃ c : Bool,
    s.evaluateZones = if c = true then s.zoned.pubZones.evalEnclosure.raiseBoth srcThermal else s.zoned.pubZones.evalEnclosure :=
  ⟨_, rfl⟩

theorem State.zoned_held (s : State) : Held s s.zoned := .of_fans rfl id

theorem State.pubZones_carried (s : State) : Carried s s.pubZones := .of_core_mems s.pubZones_core s.pubZones_mems

theorem State.evalEnclosure_carried (s : State) : Carried s s.evalEnclosure :=
  .of_core_mems (State.evalEnclosure_core s) (State.evalEnclosure_mems s)

theorem State.evaluateZones_held (s : State) : Held s s.evaluateZones := by
  obtain ⟨c, hc⟩ := s.evaluateZones_of_zoned
  rw [hc]
  exact s.zoned_held.trans ((s.zoned.pubZones_carried.trans (State.evalEnclosure_carried _)).raisedIf _ _).held

theorem State.pubZones_settings (s : State) : s.pubZones.settings = s.settings := by
  unfold State.pubZones
  rw [State.pubZone_eq, State.pubZone_eq, State.pubZone_eq, State.pubZone_eq]

theorem State.evalEnclosure_settings (s : State) : s.evalEnclosure.settings = s.settings := by rw [State.evalEnclosure_eq]

theorem State.zoned_settings (s : State) : s.zoned.settings = s.settings := rfl

theorem State.raisedIf_settings (s : State) (c : Prop) [Decidable c] (i : Fin 8) :
    (if c then s.raiseBoth i else s).settings = s.settings := by
  split <;> rfl

theorem State.evaluateZones_settings (s : State) : s.evaluateZones.settings = s.settings := by
  obtain ⟨c, hc⟩ := s.evaluateZones_of_zoned
  rw [hc, State.raisedIf_settings, State.evalEnclosure_settings, State.pubZones_settings, State.zoned_settings]

/-! ### Fans -/

theorem State.pubFans_core (s : State) : s.pubFans.core = s.core := by simp [State.pubFans]
theorem State.pubFans_mems (s : State) : s.pubFans.mems = s.mems := by simp [State.pubFans]

theorem State.fanChanged_carried (i : Fin 6) (f : Fan) : Carried s (s.fanChanged i f) := by
  unfold State.fanChanged
  dsimp only
  split
  · exact .of_core_mems (by simp only [State.raiseBoth_core, State.evalEnclosure_core, State.pubFan_core]; rfl)
      (by simp only [State.raiseBoth_mems, State.evalEnclosure_mems, State.pubFan_mems]; rfl)
  · exact .of_core_mems (by simp only [State.evalEnclosure_core, State.pubFan_core]; rfl)
      (by simp only [State.evalEnclosure_mems, State.pubFan_mems]; rfl)

theorem State.reportFans_carried (hp : s.phase ≠ .loading) : Carried s s.reportFans :=
  (State.reportReservation_carried _).settle hp

/-- The new duty lies between Dmin and 1000, and is 1000 in an emergency (R110). -/
theorem nextDuty_bounds (f : FanSettings) (emergency : Bool) (dcomp c : Nat) (h : f.dmin ≤ 1000) :
    f.dmin ≤ nextDuty f emergency dcomp c ∧ nextDuty f emergency dcomp c ≤ 1000 ∧
      (emergency = true → nextDuty f emergency dcomp c = 1000) := by
  unfold nextDuty
  split
  · exact ⟨h, le_rfl, fun _ => rfl⟩
  · rename_i he
    exact ⟨le_max_left _ _, by omega, fun h => absurd h he⟩

/-- The settings and the phase through one cooling period's evaluation stand. -/
theorem State.coolingDuty_dutySound (hp : s.phase ≠ .loading) (h : s.settings.fans.dmin ≤ 1000) : s.coolingDuty.dutySound := by
  obtain ⟨h1, h2, h3⟩ := nextDuty_bounds s.settings.fans (s.emergency s.fans.coolingLost) s.fans.dcomp s.fans.c h
  exact ⟨h1, h2, fun he => he.elim h3 fun hl => absurd hl hp⟩

/-- The state of a cooling period once its new duty stands (R104, stages 1 to 5). -/
def State.cooled (s : State) : State := ((s.evaluateZones.settle).coolingDemand.evalEnclosure).coolingDuty

theorem State.coolingDemand_held (s : State) : Held s s.coolingDemand := .of_fans rfl id
theorem State.coolingDuty_held (s : State) : Held s s.coolingDuty := .of_fans rfl id

theorem State.settle_settings (s : State) : s.settle.settings = s.settings := congrArg Outer.settings s.settle_outer

theorem State.cooled_carried (hp : s.phase ≠ .loading) : Carried s s.cooled := by
  have heval := s.evaluateZones_held
  have hsettle := heval.trans (State.settle_carried (by rw [heval.phase]; exact hp)).held
  have hlit := (hsettle.trans (State.coolingDemand_held _)).trans (State.evalEnclosure_carried _).held
  refine (hlit.trans (State.coolingDuty_held _)).carried fun hd => State.coolingDuty_dutySound ?_ ?_
  · rw [hlit.phase]; exact hp
  · rw [State.evalEnclosure_settings]
    show s.evaluateZones.settle.settings.fans.dmin ≤ 1000
    rw [State.settle_settings, State.evaluateZones_settings]
    exact hd.1.trans hd.2.1

theorem State.coolingPublish_carried (before : FanControl) : Carried s (s.coolingPublish before) := by
  unfold State.coolingPublish
  dsimp only
  split
  · exact .of_core_mems (by rw [State.raiseBoth_core, State.pubFans_core, State.evalEnclosure_core])
      (by rw [State.raiseBoth_mems, State.pubFans_mems, State.evalEnclosure_mems])
  · exact .of_core_mems (by rw [State.pubFans_core, State.evalEnclosure_core]) (by rw [State.pubFans_mems, State.evalEnclosure_mems])

theorem State.holdSummary_carried (s : State) : Carried s s.holdSummary := .of_core_mems s.holdSummary_core rfl
theorem State.releaseSummary_carried (s : State) (b : Bool) : Carried s (s.releaseSummary b) :=
  .of_core_mems (State.releaseSummary_core s b) (State.releaseSummary_mems s b)

/-- A handling with its summary published once keeps the invariants if its work does (R167). -/
theorem State.withOneSummary_carried (act : State → State) (h : Carried s.holdSummary (act s.holdSummary)) :
    Carried s (s.withOneSummary act) :=
  ((State.holdSummary_carried s).trans h).trans (State.releaseSummary_carried _ _)

theorem State.tachChecks_carried (s : State) : Carried s s.tachChecks := .of_core_mems rfl rfl

theorem State.coolingStages_carried (hp : s.phase ≠ .loading) : Carried s s.coolingStages := by
  refine State.withOneSummary_carried _ ?_
  have hcooled := State.cooled_carried (s := s.holdSummary) hp
  have hreported := hcooled.trans (State.reportFans_carried (by rw [hcooled.phase]; exact hp))
  exact (hreported.trans (State.tachChecks_carried _)).trans (State.coolingPublish_carried _)

/-- The settings that a SET_FANS leaves have a Dmin of at most 1000. -/
theorem FanSettings.apply_dmin (a : SetFansArgs) (f : FanSettings) (h : f.dmin ≤ 1000) : (FanSettings.apply a f).1.dmin ≤ 1000 := by
  rw [FanSettings.apply_eq]
  cases ha : a.dmin with
  | none => simpa [ha] using h
  | some v => simp

/-- The state with new fan settings, new fans, and a new C (R122). -/
def State.refanned (f : FanSettings) (fans : Vector Fan 6) (c : Nat) (s : State) : State :=
  { s with settings := { s.settings with fans := f }, fans := { s.fans with fans := fans, c := c } }

theorem State.refanned_carried (f : FanSettings) (fans : Vector Fan 6) (hf : s.dutySound → f.dmin ≤ 1000) :
    Carried s (s.refanned f fans (max s.fans.c f.dmin)) := by
  refine Held.carried (.of_fans rfl id) fun h => ⟨le_max_right _ _, max_le h.2.1 (hf h), fun he => ?_⟩
  have hc : s.fans.c = 1000 := h.2.2 he
  show max s.fans.c f.dmin = 1000
  have := hf h
  omega

theorem State.pubFans_carried (s : State) : Carried s s.pubFans := .of_core_mems s.pubFans_core s.pubFans_mems

/-- The work of a SET_FANS that changes something, with the summary record held back (R122, R124). -/
def State.refanWork (f : FanSettings) (fans : Vector Fan 6) (c : Nat) (moved : Bool) (h : State) : State :=
  if moved then (h.refanned f fans c).pubFans.evalEnclosure.reportFans else (h.refanned f fans c).pubFans.evalEnclosure

theorem State.setFans_eq (a : SetFansArgs) (h : (FanSettings.apply a s.settings.fans).1 ≠ s.settings.fans) :
    ∃ (fans : Vector Fan 6) (moved event : Bool),
      (s.setFans a).1 =
        if event = true then (s.withOneSummary (State.refanWork (FanSettings.apply a s.settings.fans).1 fans
          (max s.fans.c (FanSettings.apply a s.settings.fans).1.dmin) moved)).raiseBoth srcFan
        else s.withOneSummary (State.refanWork (FanSettings.apply a s.settings.fans).1 fans
          (max s.fans.c (FanSettings.apply a s.settings.fans).1.dmin) moved) := by
  unfold State.setFans
  dsimp only
  rw [if_neg h]
  exact ⟨_, _, _, rfl⟩

theorem State.refanWork_carried (hp : s.phase ≠ .loading) (f : FanSettings) (fans : Vector Fan 6) (moved : Bool)
    (hf : s.dutySound → f.dmin ≤ 1000) : Carried s (s.refanWork f fans (max s.fans.c f.dmin) moved) := by
  have hmid := ((State.refanned_carried f fans hf).trans (State.pubFans_carried _)).trans (State.evalEnclosure_carried _)
  unfold State.refanWork
  split
  · exact hmid.trans (State.reportFans_carried (by rw [hmid.phase]; exact hp))
  · exact hmid

theorem State.setFans_carried (hp : s.phase ≠ .loading) (a : SetFansArgs) : Carried s (s.setFans a).1 := by
  by_cases h : (FanSettings.apply a s.settings.fans).1 = s.settings.fans
  · unfold State.setFans
    dsimp only
    rw [if_pos h]
    exact .refl s
  · obtain ⟨fans, moved, event, heq⟩ := State.setFans_eq a h
    rw [heq]
    refine Carried.raisedIf (State.withOneSummary_carried _ ?_) _ _
    exact State.refanWork_carried (s := s.holdSummary) hp _ fans moved fun h => FanSettings.apply_dmin a _ (h.1.trans h.2.1)

end Sys2Proof.Machine
end
section
/-! SUPPORT. The bay commands and the events of a bay keep the invariants (`Carried`). -/

namespace Sys2Proof.Machine

variable {s : State} {n : BayNo}

/-! ### What goes before a bay's move -/

/-- Between s and t, work for bay n that leaves every bay's state and switches; its entry may have left the queue. -/
structure Prepared (n : BayNo) (s t : State) : Prop where
  outer    : t.outer = s.outer
  memories : s.memoriesCanonical → t.memoriesCanonical
  sits     : ∀ m, t.sits m = s.sits m
  queue    : t.places = s.places ∨ t.places = s.places.filter fun x => x.1 != n

theorem Prepared.refl (s : State) : Prepared n s s := ⟨rfl, id, fun _ => rfl, .inl rfl⟩

theorem Prepared.of_outer {t u : State} (h : Prepared n s t) (outer : u.outer = t.outer) (memories : u.mems = t.mems)
    (sits : ∀ m, u.sits m = t.sits m) (places : u.places = t.places) : Prepared n s u :=
  ⟨outer.trans h.outer, fun hs => State.canonical_of_mems memories (h.memories hs), fun m => (sits m).trans (h.sits m),
    by rw [places]; exact h.queue⟩

theorem Prepared.keepOpen {t : State} (h : Prepared n s t) (k : SlipHead) (c : Byte) (b : Bool) : Prepared n s (t.keepOpen k c b) :=
  h.of_outer (t.keepOpen_outer k c b) (t.keepOpen_mems k c b) (fun m => t.sits_keepOpen m k c b) (t.places_keepOpen k c b)

theorem Prepared.setOp {t : State} (h : Prepared n s t) (o : Option Operation) : Prepared n s (t.setOp n o) :=
  h.of_outer (t.setOp_outer n o) (t.setOp_mems n o) (fun m => t.sits_setOp n m o) (t.places_setOp n o)

theorem Prepared.setFlags {t : State} (h : Prepared n s t) (f : BayFlags → BayFlags) : Prepared n s (t.setFlags n f) :=
  h.of_outer (t.setFlags_outer n f) (t.setFlags_mems n f) (fun m => t.sits_setFlags n m f) (t.places_setFlags n f)

theorem Prepared.setRetries {t : State} (h : Prepared n s t) (r : Nat) : Prepared n s (t.setRetries n r) :=
  h.of_outer (t.setRetries_outer n r) (t.setRetries_mems n r) (fun m => t.sits_setRetries n m r) (t.places_setRetries n r)

theorem Prepared.voidBayFeed {t : State} (h : Prepared n s t) : Prepared n s (t.voidBayFeed n) :=
  h.of_outer (t.voidBayFeed_outer n) (t.voidBayFeed_mems n) (fun m => t.sits_voidBayFeed n m) (t.places_voidBayFeed n)

theorem Prepared.endOpSlip {t : State} (h : Prepared n s t) (op : Option Operation) (o : SlipOutcome) (r : List Byte) :
    Prepared n s (t.endOpSlip op o r) :=
  ⟨(t.endOpSlip_outer op o r).trans h.outer, fun hs => State.endOpSlip_canonical op o r (h.memories hs),
    fun m => (t.sits_endOpSlip m op o r).trans (h.sits m), by rw [t.places_endOpSlip op o r]; exact h.queue⟩

theorem Prepared.leave {t : State} (h : Prepared n s t) : Prepared n s (t.leave n) where
  outer := (t.leave_outer n).trans h.outer
  memories hs := State.canonical_of_mems (t.leave_mems n) (h.memories hs)
  sits m := (t.sits_leave n m).trans (h.sits m)
  queue := .inr (by rw [State.places_leave]; obtain hq | hq := h.queue <;> rw [hq]; simp)

theorem Prepared.places_leave {t : State} (h : Prepared n s t) : (t.leave n).places = s.places.filter fun x => x.1 != n := by
  rw [State.places_leave]
  obtain hq | hq := h.queue <;> rw [hq]
  simp

theorem Prepared.supersede {t : State} (h : Prepared n s t) : Prepared n s (t.supersede n) := by
  unfold State.supersede
  split
  · exact ((h.endOpSlip _ _ _).leave).setOp none
  · exact h

/-- A bay not waiting stays so, or leaves the queue. -/
theorem Prepared.apart {t u : State} (h : Prepared n s t) (hp : u.places = t.places) (hs : (s.sits n).1 ≠ .queued)
    (hu : (u.sits n).1 ≠ .queued) : QueueMoves n s u := by
  obtain hq | hq := h.queue
  · exact .stand (hp.trans hq) hs hu
  · exact .left (hp.trans hq) hu

/-- A prepared bay, not waiting before, enters a state in which it does not wait. -/
theorem Prepared.enter {t u : State} {st : BayState} (h : Prepared n s t) (outer : u.outer = t.outer) (memories : u.mems = t.mems)
    (sits : ∀ m, u.sits m = if m = n then st.seated else t.sits m) (places : u.places = t.places)
    (within : (s.sits n).1 ≠ .empty) (hs : (s.sits n).1 ≠ .queued) (hst : st ≠ .queued) : BayMoves n s u := by
  have hsits : ∀ m, u.sits m = if m = n then st.seated else s.sits m := fun m => by rw [sits, h.sits]
  exact .of_enter (outer.trans h.outer) (fun hm => State.canonical_of_mems memories (h.memories hm)) hsits (fun _ => .inr within)
    fun _ => h.apart places hs (by rw [hsits, if_pos rfl]; exact hst)

/-- A prepared bay out of the queue enters a state in which it does not wait. -/
theorem Prepared.enter_out {t u : State} {st : BayState} (h : Prepared n s t) (hleft : t.places = s.places.filter fun x => x.1 != n)
    (outer : u.outer = t.outer) (memories : u.mems = t.mems) (sits : ∀ m, u.sits m = if m = n then st.seated else t.sits m)
    (places : u.places = t.places) (within : (s.sits n).1 ≠ .empty) (hst : st ≠ .queued) : BayMoves n s u := by
  have hsits : ∀ m, u.sits m = if m = n then st.seated else s.sits m := fun m => by rw [sits, h.sits]
  exact .of_enter (outer.trans h.outer) (fun hm => State.canonical_of_mems memories (h.memories hm)) hsits (fun _ => .inr within)
    fun _ => .left (places.trans hleft) (by rw [hsits, if_pos rfl]; exact hst)

theorem Prepared.enter_left {t u : State} {st : BayState} (h : Prepared n s t) (outer : u.outer = (t.leave n).outer)
    (memories : u.mems = (t.leave n).mems) (sits : ∀ m, u.sits m = if m = n then st.seated else (t.leave n).sits m)
    (places : u.places = (t.leave n).places) (within : (s.sits n).1 ≠ .empty) (hst : st ≠ .queued) : BayMoves n s u :=
  h.leave.enter_out h.places_leave outer memories sits places within hst

/-- Prepared work alone, for a bay that does not wait. -/
theorem Prepared.moves {t : State} (h : Prepared n s t) (hs : (s.sits n).1 ≠ .queued) : BayMoves n s t where
  outer := h.outer
  memories := h.memories
  others m _ := h.sits m
  follows hf := by rw [h.sits]; exact hf
  within _ := .inr (.inr (h.sits n))
  queue _ := h.apart rfl hs (by rw [h.sits]; exact hs)

/-! ### Stops -/

theorem Prepared.stopToOff {t : State} (h : Prepared n s t) (hp : s.phase ≠ .loading) (hne : (s.sits n).1 ≠ .empty) (why : Reason)
    (ready : Bool) : Carried s (t.stopToOff n why ready) :=
  (h.enter_left (st := .off) (by simp) (by simp) (fun m => by simp [State.sits_enter]) (by simp) hne (by decide)).carried hp _

theorem Prepared.stopToPark {t : State} (h : Prepared n s t) (hp : s.phase ≠ .loading) (hne : (s.sits n).1 ≠ .empty)
    (hq : (s.sits n).1 ≠ .queued) (why : Reason) (o : Operation) : Carried s (t.stopToPark n why o) :=
  (h.enter (st := .spinningDown) (by simp) (by simp) (fun m => by simp [State.sits_enter]) (by simp) hne hq (by decide)).carried hp _

/-- Work on bay n that leaves its state, its switches and the queue, taken to its handling's end. -/
theorem Prepared.stand {t : State} (h : Prepared n s t) (hp : s.phase ≠ .loading) (hq : t.places = s.places) (e : Option (Fin 8)) :
    Carried s (t.bayChanged n e) :=
  (BayMoves.of_stand h.outer h.memories h.sits hq).carried hp e

theorem Prepared.changed {t : State} (h : Prepared n s t) (hp : s.phase ≠ .loading) (hs : (s.sits n).1 ≠ .queued) (e : Option (Fin 8)) :
    Carried s (t.bayChanged n e) := (h.moves hs).carried hp e

theorem State.latchStop_carried {t : State} (h : Prepared n s t) (hp : s.phase ≠ .loading) (hplaces : t.places = s.places)
    (hpow : (t.bay n).record.state.powered = true) : Carried s (t.latchStop n) := by
  have hst : (s.sits n).1 = (t.bay n).record.state := congrArg Prod.fst (h.sits n).symm
  have hne : (s.sits n).1 ≠ .empty := by rw [hst]; intro he; rw [he] at hpow; cases hpow
  unfold State.latchStop
  split
  · exact h.stand hp hplaces _
  · exact h.stand hp hplaces _
  · exact h.stand hp hplaces _
  · dsimp only
    split
    · exact h.supersede.stopToOff hp hne _ _
    · exact h.supersede.stopToOff hp hne _ _
    · rename_i hr
      exact h.supersede.stopToPark hp hne (by rw [hst, hr]; decide) _ _
    · rename_i hr
      exact h.supersede.stopToPark hp hne (by rw [hst, hr]; decide) _ _
    · rename_i hq _ _
      exact (h.supersede.setOp _).changed hp (by rw [hst]; exact hq) _

/-! ### The bay commands -/

theorem State.endBay_carried {t : State} (h : Carried s t) (k : SlipHead) (o : SlipOutcome) : Carried s (t.endBay k n o) :=
  h.endTaken _ _ _ _ _

theorem State.restFlags_carried (hp : s.phase ≠ .loading) (ready : Bool) : Carried s (s.restFlags n ready) := by
  unfold State.restFlags
  dsimp only
  split
  · exact .refl s
  · exact ((Prepared.refl s).setFlags _).stand hp rfl _

theorem State.powerOn_carried (hp : s.phase ≠ .loading) (k : SlipHead) : Carried s (s.powerOn k n) := by
  unfold State.powerOn
  split
  · exact State.endBay_carried (.refl s) k _
  · exact State.endBay_carried (.refl s) k _
  · exact State.endBay_carried (.refl s) k _
  · rename_i hoff
    have hsits : (s.sits n).1 = .off := hoff
    split
    · refine State.endBay_carried ?_ k _
      exact ((Prepared.refl s).enter (st := .logic) (by simp) (by simp) (fun m => by simp [State.sits_enter]) (by simp)
        (by rw [hsits]; decide) (by rw [hsits]; decide) (by decide)).carried hp _
    · exact State.endBay_carried (.refl s) k _
  · exact State.endBay_carried (.refl s) k _

theorem State.stopBay_carried (hp : s.phase ≠ .loading) (k : SlipHead) (kind : OpKind) (command : Byte) (ready : Bool) :
    Carried s (s.stopBay k kind command ready n) := by
  have hsup := (Prepared.refl (n := n) s).supersede
  unfold State.stopBay
  dsimp only
  split
  · exact State.endBay_carried (.refl s) k _
  · exact State.endBay_carried (.refl s) k _
  · exact State.endBay_carried (.refl s) k _
  · exact State.endBay_carried (State.restFlags_carried hp ready) k _
  · rename_i h1 h2 h3 h4
    have hne : (s.sits n).1 ≠ .empty := h1
    split
    · split
      · exact State.endBay_carried (hsup.stopToOff hp hne _ _) k _
      · exact State.endBay_carried (hsup.stopToOff hp hne _ _) k _
      · rename_i hr
        have hst : (s.sits n).1 = .spinningDown := hr
        exact ((hsup.keepOpen k command false).setOp _).changed hp (by rw [hst]; decide) _
      · rename_i hq _
        exact (hsup.keepOpen k command false).stopToPark hp hne hq _ _
    · exact State.endBay_carried (.refl s) k _

theorem State.clearFault_carried (hp : s.phase ≠ .loading) (k : SlipHead) : Carried s (s.clearFault k n) := by
  unfold State.clearFault
  split
  · rename_i hr
    have hst : (s.sits n).1 = .faulted := hr
    refine State.endBay_carried ?_ k _
    have hoff : Carried s ((((s.setRetries n 0).setOp n none).enter n .off .cleared).bayChanged n (some srcBayChange)) :=
      ((((Prepared.refl s).setRetries 0).setOp none).enter (st := .off) (by simp) (by simp) (fun m => by simp [State.sits_enter])
        (by simp) (by rw [hst]; decide) (by rw [hst]; decide) (by decide)).carried hp _
    refine hoff.trans (State.applyPolicy_carried (by rw [hoff.phase]; exact hp) ?_)
    rw [State.bayChanged_state, State.bay_enter, if_pos rfl]; rfl
  · exact State.endBay_carried (.refl s) k _

theorem State.setBaySlip_carried (hp : s.phase ≠ .loading) (k : SlipHead) (a : SetBayArgs) : Carried s (s.setBaySlip k a n) :=
  (State.setBay_carried hp a).endTaken _ _ _ _ _

/-- A bay at rest in OFF or LOGIC queued by a slip (R68). -/
theorem State.queueSpinUp_carried (hp : s.phase ≠ .loading) (k : SlipHead) (seconds : Half)
    (hst : (s.bay n).record.state = .off ∨ (s.bay n).record.state = .logic) : Carried s (s.queueSpinUp k n seconds) := by
  have hne : (s.sits n).1 ≠ .empty ∧ (s.sits n).1 ≠ .queued := by
    obtain h | h := hst <;> (have hs : (s.sits n).1 = _ := h; rw [hs]; decide)
  unfold State.queueSpinUp
  dsimp only
  refine BayMoves.carried (.of_join (n := n) rfl ?_ ?_ (fun m => ?_) ?_ hne) hp _
  · split <;> simp
  · split <;> simp
  · split <;> by_cases hm : m = n <;> simp [State.sits_enter, hm]
  · split <;> rfl

theorem State.spinUp_carried (hp : s.phase ≠ .loading) (k : SlipHead) (seconds : Half) : Carried s (s.spinUp k seconds n) := by
  have hend (o : SlipOutcome) (c m : Bool) (r : Option (List Byte)) : Carried s (s.endTaken k o c m r) := (Carried.refl s).endTaken _ _ _ _ _
  unfold State.spinUp
  dsimp only
  split
  case h_8 hr =>
    split
    · exact hend _ _ _ _
    · split
      · exact State.queueSpinUp_carried hp k seconds (.inl hr)
      · exact hend _ _ _ _
  case h_9 hr =>
    split
    · exact hend _ _ _ _
    · exact State.queueSpinUp_carried hp k seconds (.inr hr)
  all_goals exact hend _ _ _ _

theorem State.spinDown_carried (hp : s.phase ≠ .loading) (k : SlipHead) : Carried s (s.spinDown k n) := by
  unfold State.spinDown
  split
  case h_9 hr =>
    have hst : (s.sits n).1 = .ready := hr
    split
    · exact State.endBay_carried (.refl s) k _
    · exact ((Prepared.refl s).keepOpen k cmdSpinDown false).stopToPark hp (by rw [hst]; decide) (by rw [hst]; decide) _ _
  all_goals exact State.endBay_carried (.refl s) k _

theorem State.cancelSpinUp_carried (hp : s.phase ≠ .loading) : Carried s (s.cancelSpinUp n) := by
  unfold State.cancelSpinUp
  split
  · rename_i hr
    have hst : (s.sits n).1 = .queued := hr
    refine Carried.endOpSlip ?_ _ _ _
    exact ((Prepared.refl s).enter_left (st := .logic) (by simp) (by simp) (fun m => by simp [State.sits_enter])
      (by simp) (by rw [hst]; decide) (by decide)).carried hp _
  · rename_i hr
    have hst : (s.sits n).1 = .spinningUp := hr
    split
    · exact (Prepared.refl s).stopToPark hp (by rw [hst]; decide) (by rw [hst]; decide) _ _
    · exact .refl s
  · exact .refl s

/-! ### The events of a bay -/

/-- A bay's lines with other inputs, their switches as they stand. -/
theorem State.putLine_carried (l : BayLines) (h5 : l.sw5 = (s.line n).sw5) (h12 : l.sw12 = (s.line n).sw12) : Carried s (s.putLine n l) := by
  refine .of_core_mems (State.core_of_parts rfl rfl rfl (fun m => ?_) rfl rfl (fun _ => rfl) ⟨rfl, rfl, rfl⟩ rfl rfl) rfl
  unfold State.seat
  rw [State.line_putLine]
  split
  · rename_i hm; subst hm; rw [h5, h12]; rfl
  · rfl

/-- A bay with other timers and captures that no invariant sees. -/
theorem State.putBay_carried {b : Bay} (h : b.record.state = (s.bay n).record.state ∧ b.record.c12 = (s.bay n).record.c12 ∧
    b.record.c5 = (s.bay n).record.c5) : Carried s (s.putBay n b) := .of_core_mems (State.putBay_core h) rfl

/-! Each event's work before its handling closes, then the event. -/

theorem State.enterSettling_carried (hrun : s.phase = .running) (hin : s.inCount n = true) (hr : (s.bay n).record.state = .empty) :
    Carried s ((s.enterSettling n).bayChanged n none) := by
  have hst : (s.sits n).1 = .empty := hr
  have hsits : ∀ m, (s.enterSettling n).sits m = if m = n then BayState.settling.seated else s.sits m := fun m => by
    simp [State.enterSettling, State.sits_enter]
  refine BayMoves.carried (.of_enter (st := .settling) ?_ (State.canonical_of_mems ?_) hsits (fun _ => .inl ⟨hrun, hin⟩) fun _ => .stand ?_ ?_ ?_)
    (by rw [hrun]; decide) _
  · simp [State.enterSettling]
  · simp [State.enterSettling]
  · simp [State.enterSettling]
  · rw [hst]; decide
  · rw [hsits, if_pos rfl]; decide

theorem State.takePresence_carried (hrun : s.phase = .running) (hin : s.inCount n = true) : Carried s (s.takePresence n) := by
  unfold State.takePresence
  dsimp only
  split
  · rename_i hr
    exact (State.enterSettling_carried hrun hin hr).close (by rw [hrun]; decide)
  · exact State.putBay_carried ⟨rfl, rfl, rfl⟩
  · exact State.putBay_carried ⟨rfl, rfl, rfl⟩

theorem State.takeAbsence_carried : Carried s (s.takeAbsence n) := by
  unfold State.takeAbsence
  dsimp only
  split
  · exact .refl s
  · exact State.putBay_carried ⟨rfl, rfl, rfl⟩
  · exact State.putBay_carried ⟨rfl, rfl, rfl⟩

theorem State.inserted_carried (hp : s.phase ≠ .loading) (hr : (s.bay n).record.state = .settling) :
    Carried s ((((((s.countInsertion n).enter n .off .inserted).setOp n none).setFlags n fun f =>
      { f with latchOpen := (s.line n).latch }).bayChanged n (some srcBayChange)).applyPolicy n) := by
  have hst : (s.sits n).1 = .settling := hr
  have hoff : Carried s (((((s.countInsertion n).enter n .off .inserted).setOp n none).setFlags n fun f =>
      { f with latchOpen := (s.line n).latch }).bayChanged n (some srcBayChange)) :=
    ((Prepared.refl s).enter (st := .off) (by simp) (by simp) (fun m => by simp [State.sits_enter])
      (by simp) (by rw [hst]; decide) (by rw [hst]; decide) (by decide)).carried hp _
  refine hoff.trans (State.applyPolicy_carried (by rw [hoff.phase]; exact hp) ?_)
  rw [State.bayChanged_state]
  simp [State.setFlags, State.setOp, State.bay_enter, Bay.entering]

theorem State.settleBay_carried (hp : s.phase ≠ .loading) (hr : (s.bay n).record.state = .settling) : Carried s (s.settleBay n) :=
  (State.inserted_carried hp hr).close hp

theorem State.bounced_carried (hp : s.phase ≠ .loading) (hr : (s.bay n).record.state = .settling) :
    Carried s ((((s.countBounce n).enter n .empty .bounce).setOp n none).bayChanged n none) := by
  have hst : (s.sits n).1 = .settling := hr
  exact ((Prepared.refl s).enter (st := .empty) (by simp) (by simp) (fun m => by simp [State.sits_enter])
    (by simp) (by rw [hst]; decide) (by rw [hst]; decide) (by decide)).carried hp _

theorem State.bounceBay_carried (hp : s.phase ≠ .loading) (hr : (s.bay n).record.state = .settling) : Carried s (s.bounceBay n) :=
  (State.bounced_carried hp hr).close hp

theorem State.emptied_carried (hp : s.phase ≠ .loading) (hfrom : (s.bay n).record.state.fromOff = true) (e : Option (Fin 8)) :
    Carried s (((((((s.leave n).endOpSlip (s.bay n).record.op .removed (bayResult s n)).setOp n none).setRetries n 0).voidBayFeed n).enter n
      .empty .removed).bayChanged n e) := by
  have hne : (s.sits n).1 ≠ .empty := fun he => by
    have hr : (s.bay n).record.state = .empty := he
    rw [hr] at hfrom; cases hfrom
  have hended := (((((Prepared.refl (n := n) s).leave.endOpSlip (s.bay n).record.op .removed (bayResult s n)).setOp none).setRetries 0).voidBayFeed)
  refine (hended.enter_out (st := .empty) ?_ (by simp) (by simp) (fun m => by simp [State.sits_enter]) (by simp) hne (by decide)).carried hp _
  simp [State.places_leave]

theorem State.removeBay_carried (hp : s.phase ≠ .loading) (hfrom : (s.bay n).record.state.fromOff = true) : Carried s (s.removeBay n) :=
  (State.emptied_carried hp hfrom _).close hp

theorem State.latchTaken_carried (hp : s.phase ≠ .loading) :
    Carried s (if ((s.bay n).record.state.powered && (s.baySet n).latchStop) = true then
      (s.setFlags n fun f => { f with latchOpen := true }).latchStop n
      else (s.setFlags n fun f => { f with latchOpen := true }).bayChanged n (some srcBayChange)) := by
  have hset := (Prepared.refl (n := n) s).setFlags fun f => { f with latchOpen := true }
  split
  · rename_i h
    refine State.latchStop_carried hset hp rfl ?_
    have hst : ((s.setFlags n fun f => { f with latchOpen := true }).bay n).record.state = (s.bay n).record.state :=
      congrArg Prod.fst (hset.sits n)
    rw [hst]
    exact (Bool.and_eq_true_iff.1 h).1
  · exact hset.stand hp rfl _

theorem State.takeLatchOpen_carried (hp : s.phase ≠ .loading) : Carried s (s.takeLatchOpen n) := (State.latchTaken_carried hp).close hp

theorem State.latchClosed_carried (hp : s.phase ≠ .loading) :
    Carried s (((s.setFlags n fun f => { f with latchOpen := false }).bayChanged n (some srcBayChange)).close) :=
  Carried.close (((Prepared.refl s).setFlags _).stand hp rfl _) hp

theorem State.faulted_carried (hp : s.phase ≠ .loading) (hpow : (s.bay n).record.state.powered = true) (op : Option Operation) (o : SlipOutcome)
    (r : List Byte) :
    Carried s ((((((s.leave n).enter n .faulted .trip).countTrip n).beginRetry n).bayChanged n (some srcBayFault)).endOpSlip op o r) := by
  have hne : (s.sits n).1 ≠ .empty := fun he => by
    have hr : (s.bay n).record.state = .empty := he
    rw [hr] at hpow; cases hpow
  refine Carried.endOpSlip (Prepared.enter_left (st := .faulted) (Prepared.refl s) ?_ ?_ (fun m => ?_) ?_ hne
    (by decide) |>.carried hp _) _ _ _
  all_goals simp [State.sits_enter]

theorem State.tripBay_carried (hp : s.phase ≠ .loading) (hpow : (s.bay n).record.state.powered = true) : Carried s (s.tripBay n) :=
  (State.faulted_carried hp hpow _ _ _).close hp

theorem State.retried_carried (hp : s.phase ≠ .loading) (hr : (s.bay n).record.state = .faulted) (r : Nat) :
    Carried s (((((s.setRetries n r).setOp n none).enter n .off .retry).bayChanged n (some srcBayChange)).applyPolicy n) := by
  have hst : (s.sits n).1 = .faulted := hr
  have hoff : Carried s ((((s.setRetries n r).setOp n none).enter n .off .retry).bayChanged n (some srcBayChange)) :=
    ((((Prepared.refl s).setRetries r).setOp none).enter (st := .off) (by simp) (by simp) (fun m => by simp [State.sits_enter])
      (by simp) (by rw [hst]; decide) (by rw [hst]; decide) (by decide)).carried hp _
  refine hoff.trans (State.applyPolicy_carried (by rw [hoff.phase]; exact hp) ?_)
  rw [State.bayChanged_state, State.bay_enter, if_pos rfl]; rfl

theorem State.retryBay_carried (hp : s.phase ≠ .loading) (hr : (s.bay n).record.state = .faulted) : Carried s (s.retryBay n) :=
  (State.retried_carried hp hr _).close hp

/-- A bay that enters a state, its operation over, with the end of its slip. -/
theorem State.entered_carried (hp : s.phase ≠ .loading) (st : BayState) (why : Reason) (f : BayFlags → BayFlags) (e : Option (Fin 8))
    (op : Option Operation) (o : SlipOutcome) (r : List Byte) (hne : (s.sits n).1 ≠ .empty) (hq : (s.sits n).1 ≠ .queued) (hst : st ≠ .queued) :
    Carried s ((((s.enter n st why).setOp n none).bayChanged n e).endOpSlip op o r) ∧
      Carried s (((((s.enter n st why).setOp n none).setFlags n f).bayChanged n e).endOpSlip op o r) :=
  ⟨Carried.endOpSlip (((Prepared.refl s).enter (st := st) (by simp) (by simp) (fun m => by simp [State.sits_enter])
      (by simp) hne hq hst).carried hp _) _ _ _,
    Carried.endOpSlip (((Prepared.refl s).enter (st := st) (by simp) (by simp) (fun m => by simp [State.sits_enter])
      (by simp) hne hq hst).carried hp _) _ _ _⟩

theorem State.spunUp_carried (hp : s.phase ≠ .loading) (hr : (s.bay n).record.state = .spinningUp) : Carried s (s.spunUp n) := by
  have hst : (s.sits n).1 = .spinningUp := hr
  exact (State.entered_carried hp .ready .spunUp id _ _ _ _ (by rw [hst]; decide) (by rw [hst]; decide) (by decide)).1.close hp

theorem State.parked_carried (hp : s.phase ≠ .loading) (hr : (s.bay n).record.state = .spinningDown) : Carried s (s.parked n) := by
  have hst : (s.sits n).1 = .spinningDown := hr
  unfold State.parked
  dsimp only
  split
  · exact (State.entered_carried hp .off .parked _ _ _ _ _ (by rw [hst]; decide) (by rw [hst]; decide) (by decide)).2.close hp
  · exact (State.entered_carried hp .logic .parked id _ _ _ _ (by rw [hst]; decide) (by rw [hst]; decide) (by decide)).1.close hp

theorem State.deadline_carried (hp : s.phase ≠ .loading) (hr : (s.bay n).record.state = .queued) (op : Option Operation) (o : SlipOutcome)
    (r : List Byte) : Carried s (((((s.leave n).enter n .logic .deadline).setOp n none).bayChanged n (some srcBayChange)).endOpSlip op o r) := by
  have hst : (s.sits n).1 = .queued := hr
  exact Carried.endOpSlip (((Prepared.refl s).enter_left (st := .logic) (by simp) (by simp)
    (fun m => by simp [State.sits_enter]) (by simp) (by rw [hst]; decide) (by decide)).carried hp _) _ _ _

theorem State.timeOut_carried (hp : s.phase ≠ .loading) (hr : (s.bay n).record.state = .queued) : Carried s (s.timeOut n) :=
  (State.deadline_carried hp hr _ _ _).close hp

end Sys2Proof.Machine
end
section
/-! SUPPORT. The control slips and a slip command's whole work keep the invariants (`Carried`). -/

namespace Sys2Proof.Machine

variable {s : State} {n : BayNo}

theorem State.refuse_carried (k : SlipHead) (o : SlipOutcome) : Carried s (s.refuse k o) := (Carried.refl s).endTaken _ _ _ _ _

theorem State.onBay_carried (k : SlipHead) {f : BayNo → State → State} (h : ∀ n, Carried s (f n s)) : Carried s (s.onBay k f) := by
  unfold State.onBay
  split
  · exact State.refuse_carried k _
  · exact h _

/-- A command on the enclosure: refused for another target. -/
theorem Carried.onEnclosure {t : State} (k : SlipHead) (h : Carried s t) :
    Carried s (if k.target = enclosureTarget then t else s.refuse k .badTarget) := by
  split
  · exact h
  · exact State.refuse_carried k _

theorem Carried.endSettled {t : State} (h : Carried s t) (hp : s.phase ≠ .loading) (k : SlipHead) (c : Bool) (r : State → List Byte) :
    Carried s (t.endSettled k c r) := (h.settle hp).endTaken _ _ _ _ _

theorem State.setSlotSlip_carried (hp : s.phase ≠ .loading) (k : SlipHead) (a : SetSlotArgs) : Carried s (s.setSlotSlip k a) := by
  unfold State.setSlotSlip
  split
  · exact State.refuse_carried k _
  · exact (State.setSlot_carried _ a).endSettled hp k _ _

theorem State.setAccountSlip_carried (hp : s.phase ≠ .loading) (k : SlipHead) (a : SetAccountArgs) : Carried s (s.setAccountSlip k a) :=
  ((State.setAccount_carried a).endSettled hp k _ _).onEnclosure k

theorem State.setScheduleSlip_carried (hp : s.phase ≠ .loading) (k : SlipHead) (a : SetScheduleArgs) :
    Carried s (s.setScheduleSlip k a) := ((State.setSchedule_carried a).endSettled hp k _ _).onEnclosure k

theorem State.setProfileSlip_carried (k : SlipHead) (a : SetProfileArgs) : Carried s (s.setProfileSlip k a) := by
  unfold State.setProfileSlip
  split
  · exact State.refuse_carried k _
  · exact (State.setProfile_carried _ a).endTaken _ _ _ _ _

theorem State.setCurveSlip_carried (k : SlipHead) (a : SetCurveArgs) : Carried s (s.setCurveSlip k a) := by
  unfold State.setCurveSlip
  split
  · exact State.refuse_carried k _
  · split
    · exact (Carried.refl s).endTaken _ _ _ _ _
    · rename_i h
      exact (State.setCurve_carried _ a _ (congrArg Prod.fst h)).endTaken _ _ _ _ _

theorem State.setLimitsSlip_carried (k : SlipHead) (a : SetLimitsArgs) : Carried s (s.setLimitsSlip k a) := by
  unfold State.setLimitsSlip
  split
  · exact State.refuse_carried k _
  · split
    · exact (Carried.refl s).endTaken _ _ _ _ _
    · rename_i h
      exact (State.setLimits_carried _ a _ (congrArg Prod.fst h)).endTaken _ _ _ _ _

theorem State.setStaleTimeSlip_carried (k : SlipHead) (v : Half) : Carried s (s.setStaleTimeSlip k v) :=
  ((State.setStaleTime_carried v).endTaken _ _ _ _ _).onEnclosure k

theorem State.setSensorSlip_carried (k : SlipHead) (a : SetSensorArgs) : Carried s (s.setSensorSlip k a) := by
  unfold State.setSensorSlip
  split
  · exact State.refuse_carried k _
  · exact (State.setSensor_carried _ a).endTaken _ _ _ _ _

theorem State.putFloor_carried (p : Port) (f : Option Floor) : Carried s (s.putFloor p f) :=
  .of_core_mems ((State.pubSummaryIfChanged_core _).trans rfl) (State.pubSummaryIfChanged_mems _)

theorem State.setFloorSlip_carried (k : SlipHead) (d e : Half) : Carried s (s.setFloorSlip k d e) :=
  ((State.putFloor_carried k.port _).endTaken _ _ _ _ _).onEnclosure k

theorem State.setFansSlip_carried (hp : s.phase ≠ .loading) (k : SlipHead) (a : SetFansArgs) : Carried s (s.setFansSlip k a) :=
  ((State.setFans_carried hp a).endSettled hp k _ _).onEnclosure k

/-- The state in which a check begins: C at 1000 (R119). -/
def State.checking (s : State) (c : FanCheck) : State := { s with fans := { s.fans with c := 1000, check := some c } }

theorem State.checking_carried (c : FanCheck) : Carried s (s.checking c) :=
  Held.carried (.of_fans rfl id) fun h => ⟨h.1.trans h.2.1, le_rfl, fun _ => rfl⟩

theorem State.fanCheck_carried (hp : s.phase ≠ .loading) (k : SlipHead) : Carried s (s.fanCheck k) := by
  unfold State.fanCheck
  split
  · exact State.refuse_carried k _
  · split
    · exact State.refuse_carried k _
    · refine State.withOneSummary_carried _ ?_
      have hc := State.checking_carried (s := s.holdSummary)
        { origin := k.port, slip := some k.addr, start := s.time, peaks := Vector.replicate 6 0 }
      exact (hc.trans (State.reportFans_carried (by rw [hc.phase]; exact hp))).trans (.of_core_mems rfl rfl)

theorem State.putSlot_carried (p : Port) (place : LightPlace) (c : Colour) (r : Option Request) : Carried s (s.putSlot p place c r) := by
  unfold State.putSlot State.putChannel
  cases place with
  | bay n => exact .of_core_mems (by simp) (by simp)
  | enclosure => exact .of_core_mems ((State.pubEnclosure_core _).trans rfl) (State.pubEnclosure_mems _)

theorem State.putEnable_carried (b : Bool) : Carried s (s.putEnable n b) := by
  unfold State.putEnable
  exact .of_core_mems (by simp) (by simp)

theorem State.setLight_carried (k : SlipHead) (a : SetLightArgs) : Carried s (s.setLight k a) := by
  unfold State.setLight
  split
  · exact State.refuse_carried k _
  · split
    · exact (State.putSlot_carried _ _ _ _).endTaken _ _ _ _ _
    · exact (State.putSlot_carried _ _ _ _).endTaken _ _ _ _ _
    · exact (State.putEnable_carried _).endTaken _ _ _ _ _
    · exact State.refuse_carried k _

theorem State.setPattern_carried (i : Fin 8) (a : SetPatternArgs) : Carried s (s.setPattern i a) :=
  .of_core_mems ((State.pubEnclosure_core _).trans rfl) (State.pubEnclosure_mems _)

theorem State.setPatternSlip_carried (k : SlipHead) (a : SetPatternArgs) : Carried s (s.setPatternSlip k a) := by
  unfold State.setPatternSlip
  split
  · exact State.refuse_carried k _
  · split
    · exact State.refuse_carried k _
    · exact (State.setPattern_carried _ a).endTaken _ _ _ _ _

theorem State.endOpen_carried (p : Port) (a : Half) (o : SlipOutcome) (c : Bool) (r : Option (List Byte)) :
    Carried s (s.endOpen p a o c r) := .of_core (s.endOpen_core p a o c r) (State.endOpen_canonical p a o c r)

theorem State.endCheckSlip_carried (c : FanCheck) (o : SlipOutcome) (r : Option (List Byte)) : Carried s (s.endCheckSlip c o r) := by
  unfold State.endCheckSlip
  split
  · exact .refl s
  · exact State.endOpen_carried _ _ _ _ _

/-- A check over leaves the duty where it was; the emergency can only end. -/
theorem State.unchecked_carried : Carried s { s with fans := { s.fans with check := none } } := by
  refine Held.carried (.of_fans rfl id) fun h => ⟨h.1, h.2.1, fun he => h.2.2 ?_⟩
  obtain he | he := he
  · left
    revert he
    unfold State.emergency
    simp only [Option.isSome_none, Bool.or_false, Bool.or_eq_true]
    intro he
    simp only [he, true_or]
  · exact .inr he

theorem State.pubSummaryIfChanged_carries (s : State) : Carried s s.pubSummaryIfChanged :=
  .of_core_mems s.pubSummaryIfChanged_core s.pubSummaryIfChanged_mems

theorem State.cancelCheck_carried : Carried s s.cancelCheck := by
  unfold State.cancelCheck
  split
  · exact .refl s
  · exact Carried.trans (State.unchecked_carried.trans (State.endCheckSlip_carried _ .cancelled none)) (State.pubSummaryIfChanged_carries _)

theorem State.cancelSlip_carried (hp : s.phase ≠ .loading) (k : SlipHead) (a : Half) : Carried s (s.cancelSlip k a) := by
  unfold State.cancelSlip
  split
  · exact State.refuse_carried k _
  · split
    · exact (Carried.refl s).endTaken _ _ _ _ _
    · split
      · dsimp only
        split
        · exact (Carried.refl s).endTaken _ _ _ _ _
        · exact (State.cancelSpinUp_carried hp).endTaken _ _ _ _ _
      · split
        · exact State.cancelCheck_carried.endTaken _ _ _ _ _
        · exact (Carried.refl s).endTaken _ _ _ _ _

theorem State.noteSlip_carried (k : SlipHead) : Carried s (s.noteSlip k) := ((Carried.refl s).endTaken _ _ _ _ _).onEnclosure k

theorem State.setSource_carried (p : Port) (i : Fin 8) (a : SetAttentionArgs) : Carried s (s.setSource p i a).1 :=
  .of_core_mems ((State.pubAttention_core _ p).trans rfl) (State.pubAttention_mems _ p)

theorem State.setAttentionSlip_carried (k : SlipHead) (a : SetAttentionArgs) : Carried s (s.setAttentionSlip k a) := by
  unfold State.setAttentionSlip
  split
  · exact State.refuse_carried k _
  · exact (State.setSource_carried _ _ a).endTaken _ _ _ _ _

theorem State.storeSlip_carried (k : SlipHead) : Carried s (s.storeSlip k) := by
  unfold State.storeSlip
  split
  · exact State.refuse_carried k _
  · split
    · exact State.refuse_carried k _
    · exact .of_core_mems rfl rfl

theorem State.reloadSlip_carried (k : SlipHead) : Carried s (s.reloadSlip k) := by
  unfold State.reloadSlip
  split
  · exact State.refuse_carried k _
  · split
    · exact State.refuse_carried k _
    · exact .of_core_mems rfl rfl

theorem State.putWindowSetting_carried (p : Port) (w : WindowSetting) : Carried s (s.putWindowSetting p w) := .of_core_mems rfl rfl

theorem State.setWindowsSlip_carried (k : SlipHead) (w : WindowSetting) : Carried s (s.setWindowsSlip k w) := by
  have hwrite (p : Port) (c : Prop) [Decidable c] (r : Option (List Byte)) :
      Carried s (if c then (s.putWindowSetting p w).endTaken k .ok false false r else s.refuse k .badValue) := by
    split
    · exact (State.putWindowSetting_carried p w).endTaken _ _ _ _ _
    · exact State.refuse_carried k _
  unfold State.setWindowsSlip
  dsimp only
  split
  · exact hwrite _ _ _
  · split
    · exact hwrite _ _ _
    · exact State.refuse_carried k _

/-- The work of every slip command keeps the invariants. -/
theorem slipWork_carried (hp : s.phase ≠ .loading) (c : Instr) : Carried s (slipWork c s) := by
  cases c
  case powerOn k => exact State.onBay_carried k fun _ => State.powerOn_carried hp k
  case powerOff k => exact State.onBay_carried k fun _ => State.stopBay_carried hp k _ _ _
  case prepareRemoval k => exact State.onBay_carried k fun _ => State.stopBay_carried hp k _ _ _
  case clearFault k => exact State.onBay_carried k fun _ => State.clearFault_carried hp k
  case setBay k a => exact State.onBay_carried k fun _ => State.setBaySlip_carried hp k a
  case spinUp k d => exact State.onBay_carried k fun _ => State.spinUp_carried hp k d
  case spinDown k => exact State.onBay_carried k fun _ => State.spinDown_carried hp k
  case setSchedule k a => exact State.setScheduleSlip_carried hp k a
  case setSupplySlot k a => exact State.setSlotSlip_carried hp k a
  case setSupplyEnclosure k a => exact State.setAccountSlip_carried hp k a
  case setProfile k a => exact State.setProfileSlip_carried k a
  case setZoneCurve k a => exact State.setCurveSlip_carried k a
  case setZoneLimits k a => exact State.setLimitsSlip_carried k a
  case setZoneStaleTime k v => exact State.setStaleTimeSlip_carried k v
  case setSensor k a => exact State.setSensorSlip_carried k a
  case setFloor k d e => exact State.setFloorSlip_carried k d e
  case setFans k a => exact State.setFansSlip_carried hp k a
  case fanCheck k => exact State.fanCheck_carried hp k
  case setLight k a => exact State.setLight_carried k a
  case setPattern k a => exact State.setPatternSlip_carried k a
  case cancel k a => exact State.cancelSlip_carried hp k a
  case note k => exact State.noteSlip_carried k
  case setAttention k a => exact State.setAttentionSlip_carried k a
  case storeSettings k => exact State.storeSlip_carried k
  case reloadSettings k => exact State.reloadSlip_carried k
  case setWindows k w => exact State.setWindowsSlip_carried k w
  all_goals exact .refl s

/-- A slip is handed to the block of its command, or refused (R158). -/
theorem State.dispatch_cases (k : SlipHead) (code : Byte) (c : SlipCopy) :
    (∃ i, i.slip? = some k ∧ ∀ s, State.dispatch k code c s = slipWork i s) ∨
      ∃ o, (o = .badTarget ∨ o = .badValue ∨ o = .badCommand) ∧ ∀ s, State.dispatch k code c s = State.refuse k o s := by
  unfold State.dispatch
  split
  · exact .inl ⟨.note k, rfl, fun _ => rfl⟩
  · exact .inl ⟨.cancel k (c.half 4), rfl, fun _ => rfl⟩
  · exact .inl ⟨.powerOn k, rfl, fun _ => rfl⟩
  · exact .inl ⟨.powerOff k, rfl, fun _ => rfl⟩
  · exact .inl ⟨.prepareRemoval k, rfl, fun _ => rfl⟩
  · exact .inl ⟨.clearFault k, rfl, fun _ => rfl⟩
  · exact .inl ⟨.setBay k c.bayArgs, rfl, fun _ => rfl⟩
  · exact .inl ⟨.spinUp k (c.half 4), rfl, fun _ => rfl⟩
  · exact .inl ⟨.spinDown k, rfl, fun _ => rfl⟩
  · exact .inl ⟨.setSchedule k c.scheduleArgs, rfl, fun _ => rfl⟩
  · by_cases h : k.target = enclosureTarget
    · exact .inl ⟨.setSupplyEnclosure k c.accountArgs, rfl, fun s => if_pos h⟩
    · exact .inl ⟨.setSupplySlot k c.slotArgs, rfl, fun s => if_neg h⟩
  · exact .inl ⟨.setProfile k c.profileArgs, rfl, fun _ => rfl⟩
  · unfold State.setZoneSlip
    split
    · exact .inl ⟨.setZoneStaleTime k (c.half 4), rfl, fun _ => rfl⟩
    · split
      · exact .inr ⟨.badTarget, .inl rfl, fun _ => rfl⟩
      · split
        · exact .inl ⟨.setZoneCurve k c.curveArgs, rfl, fun _ => rfl⟩
        · split
          · exact .inl ⟨.setZoneLimits k c.limitsArgs, rfl, fun _ => rfl⟩
          · exact .inr ⟨.badValue, .inr (.inl rfl), fun _ => rfl⟩
  · exact .inl ⟨.setSensor k c.sensorArgs, rfl, fun _ => rfl⟩
  · exact .inl ⟨.setFloor k (c.half 4) (c.half 6), rfl, fun _ => rfl⟩
  · exact .inl ⟨.setFans k c.fansArgs, rfl, fun _ => rfl⟩
  · exact .inl ⟨.fanCheck k, rfl, fun _ => rfl⟩
  · exact .inl ⟨.setLight k c.lightArgs, rfl, fun _ => rfl⟩
  · exact .inl ⟨.setPattern k c.patternArgs, rfl, fun _ => rfl⟩
  · exact .inl ⟨.setAttention k c.attentionArgs, rfl, fun _ => rfl⟩
  · exact .inl ⟨.storeSettings k, rfl, fun _ => rfl⟩
  · exact .inl ⟨.reloadSettings k, rfl, fun _ => rfl⟩
  · exact .inl ⟨.setWindows k { code := c.byte 4, base := c.half 6 }, rfl, fun _ => rfl⟩
  · exact .inr ⟨.badCommand, .inr (.inr rfl), fun _ => rfl⟩

theorem State.dispatch_carried (hp : s.phase ≠ .loading) (k : SlipHead) (code : Byte) (c : SlipCopy) :
    Carried s (s.dispatch k code c) := by
  obtain ⟨i, -, h⟩ | ⟨o, -, h⟩ := State.dispatch_cases k code c <;> rw [h]
  · exact slipWork_carried hp i
  · exact State.refuse_carried k o

theorem State.markTaken_carried (a : Half) : Carried s (s.markTaken a) := .of_core rfl (State.markTaken_canonical a)

/-- A slip command by itself keeps the invariants. -/
theorem slipCommand_carried (hp : s.phase ≠ .loading) (k : SlipHead) (c : Instr) : Carried s (s.slipCommand k (slipWork c)) := by
  unfold State.slipCommand
  split
  · have hw := (State.markTaken_carried (s := s) k.addr).trans (slipWork_carried (s := s.markTaken k.addr) hp c)
    exact hw.trans (State.finishSlip_carried (by rw [hw.phase]; exact hp) _)
  · exact .refl s

end Sys2Proof.Machine
end
section
/-! SUPPORT. The readers, the two links and the blocks' events keep the invariants (`Carried`), and with them every command but the resets and
START_UP. -/

namespace Sys2Proof.Machine

variable {s : State} {n : BayNo}

/-! ### The readers -/

theorem State.rest_carried (p : Port) (st : ReaderState) (w : Half) : Carried s (s.rest p st w) := .of_core_mems rfl rfl
theorem State.toCursor_carried (p : Port) (link : Half) : Carried s (s.toCursor p link) := .of_core_mems rfl rfl

theorem State.chainFault_carried (p : Port) (word link : Half) : Carried s (s.chainFault p word link) := by
  unfold State.chainFault
  dsimp only
  split <;> exact .of_core_mems rfl rfl

theorem State.takeAt_carried (hp : s.phase ≠ .loading) (p : Port) (a : Half) : Carried s (s.takeAt p a) := by
  unfold State.takeAt
  dsimp only
  exact ((State.markTaken_carried a).trans (State.dispatch_carried (s := s.markTaken a) hp _ _ _)).settle hp

/-- A reader's walk keeps what its rests, its faults, its cursors and its takes keep (R155 to R159). -/
theorem State.walk_keeps {P : State → Prop} (p : Port) (rest : ∀ s st w, P s → P (s.rest p st w))
    (fault : ∀ s w l, P s → P (s.chainFault p w l)) (cursor : ∀ s l, P s → P (s.toCursor p l)) (take : ∀ s a, P s → P (s.takeAt p a))
    (fuel : Nat) (w : WalkPoint) (s : State) (h : P s) : P (State.walk p fuel w s) := by
  induction fuel generalizing w s with
  | zero => exact rest _ _ _ h
  | succ k ih =>
    cases w with
    | link word =>
      unfold State.walk
      dsimp only
      split
      · exact rest _ _ _ h
      · split
        · exact ih _ _ (cursor _ _ h)
        · exact fault _ _ _ h
    | post =>
      unfold State.walk
      dsimp only
      split
      · exact rest _ _ _ h
      · split
        · split
          · exact rest _ _ _ (take _ _ h)
          · exact ih _ _ (take _ _ h)
        · exact rest _ _ _ h

theorem State.walk_carried (hp : s.phase ≠ .loading) (p : Port) (fuel : Nat) (w : WalkPoint) : Carried s (s.walk p fuel w) :=
  State.walk_keeps (P := Carried s) p (fun _ st w h => h.trans (State.rest_carried p st w))
    (fun _ w l h => h.trans (State.chainFault_carried p w l)) (fun _ l h => h.trans (State.toCursor_carried p l))
    (fun _ a h => h.trans (State.takeAt_carried (by rw [h.phase]; exact hp) p a)) fuel w s (.refl s)

theorem State.walkFrom_carried (hp : s.phase ≠ .loading) (p : Port) (w : WalkPoint) : Carried s (s.walkFrom p w) :=
  (State.walk_carried hp p walkFuel w).trans (State.pubReader_carried' _ p)

theorem State.wake_carried (hp : s.phase ≠ .loading) (p : Port) (stored : List Nat) : Carried s (s.wake p stored) := by
  unfold State.wake
  dsimp only
  split
  · split
    · exact State.walkFrom_carried hp p _
    · exact .refl s
  · split
    · exact State.walkFrom_carried hp p _
    · exact .refl s
  · split
    · exact State.walkFrom_carried hp p _
    · exact .refl s
  · split
    · exact State.walkFrom_carried hp p _
    · exact .refl s
  · exact .refl s

theorem State.startReader_carried (hp : s.phase ≠ .loading) (p : Port) : Carried s (s.startReader p) := by
  unfold State.startReader
  split
  · exact (State.rest_carried p _ _).trans (State.pubReader_carried' _ p)
  · exact State.walkFrom_carried hp p _

/-! ### What leaves the core, the reports and the readers' states -/

/-- From s to t the core, the reports and the readers' states stand, and the memories stay canonical. -/
structure Kept (s t : State) : Prop where
  core     : t.core = s.core
  memories : s.memoriesCanonical → t.memoriesCanonical
  reports  : t.reports = s.reports
  readers  : ∀ p, (t.reader p).state = (s.reader p).state

theorem Kept.refl (s : State) : Kept s s := ⟨rfl, id, rfl, fun _ => rfl⟩

theorem Kept.trans {s t u : State} (h : Kept s t) (k : Kept t u) : Kept s u :=
  ⟨k.core.trans h.core, fun hs => k.memories (h.memories hs), k.reports.trans h.reports, fun p => (k.readers p).trans (h.readers p)⟩

theorem Kept.carried {s t : State} (h : Kept s t) : Carried s t := .of_core h.core h.memories

/-- A step that leaves the core, the memories, the reports and the readers. -/
theorem Kept.of_mems {s t : State} (core : t.core = s.core) (mems : t.mems = s.mems) (reports : t.reports = s.reports)
    (readers : t.readers = s.readers) : Kept s t :=
  ⟨core, State.canonical_of_mems mems, reports, fun p => by rw [State.reader, readers]; rfl⟩

/-! ### Reads -/

theorem State.takeSource_kept (p : Port) (i : Fin 8) : Kept s (s.takeSource p i) :=
  .of_mems ((State.pubAttention_core _ p).trans rfl) (State.pubAttention_mems _ p) (by unfold State.takeSource; rw [State.pubAttention_eq])
    (by unfold State.takeSource; rw [State.pubAttention_eq])

theorem State.readTake_kept (p : Port) : Kept s (s.readTake p).2 := by
  unfold State.readTake
  split
  · exact .refl s
  · exact State.takeSource_kept p _

theorem State.readByte_kept (p : Port) (start a : Nat) : Kept s (s.readByte p start a).2 := by
  unfold State.readByte
  split
  · exact .refl s
  · split
    · split
      · exact .refl s
      · exact .of_mems rfl rfl rfl rfl
    · split
      · exact .refl s
      · split
        · exact .refl s
        · split
          · exact State.readTake_kept p
          · split
            · exact .refl s
            · split <;> exact .refl s

theorem State.readRun_kept (p : Port) (start : Nat) (k a : Nat) (s : State) : Kept s (s.readRun p start k a).2 := by
  induction k generalizing a s with
  | zero => exact .refl s
  | succ k ih => exact (State.readByte_kept p start a).trans (ih _ _)

theorem State.putOut_kept (p : Port) (out : List Byte) : Kept s (s.putOut p out) := .of_mems rfl rfl rfl rfl

theorem State.readTransaction_kept (p : Port) (start count : Nat) : Kept s (s.readTransaction p start count) :=
  (State.readRun_kept p start count start s).trans (State.putOut_kept p _)

theorem State.statusTransaction_kept (p : Port) (count : Nat) : Kept s (s.statusTransaction p count) := .of_mems rfl rfl rfl rfl
theorem State.idleTransaction_kept (p : Port) (count : Nat) : Kept s (s.idleTransaction p count) := .of_mems rfl rfl rfl rfl

/-! ### A port reset -/

theorem State.endAt_kept (p : Port) (a : Half) (attn : Bool) (o : SlipOutcome) (f : Byte) (r : Option (List Byte)) :
    Kept s (s.endAt p a attn o f r) :=
  ⟨s.endAt_core p a attn o f r, State.endAt_canonical p a attn o f r, by rw [State.endAt_eq], fun q => by rw [State.endAt_eq]; rfl⟩

/-- A reader with another open-slip table. -/
theorem State.putTable_kept (p : Port) (l : List OpenSlip) : Kept s (s.putReader p { s.reader p with table := l }) :=
  ⟨rfl, id, rfl, fun q => by cases p <;> cases q <;> rfl⟩

theorem State.abandonSlips_kept (p : Port) : Kept s (s.abandonSlips p) := by
  unfold State.abandonSlips
  exact (foldl_keeps (P := Kept s) (fun t e h => h.trans (State.endAt_kept _ _ _ _ _ _)) _ _ (.refl s)).trans (State.putTable_kept p [])

/-- The queue with the entries of a port's operations without their slips (R81). -/
def State.forgetEntries (p : Port) (s : State) : State :=
  let mine (n : BayNo) : Bool :=
    match (s.bay n).record.op with
    | some o => o.origin == .slip p
    | none => false
  { s with scheduler := { s.scheduler with
      queue := s.scheduler.queue.map fun e => if mine e.bay then { e with slip := none } else e } }

/-- One bay's operation without a port's slip (R28). -/
def State.forgetOp (p : Port) (t : State) (n : BayNo) : State :=
  let op := (t.bay n).record.op.map (Operation.forget p)
  if op = (t.bay n).record.op then t else (t.setOp n op).pubBay n

/-- The fan check and the store without a port's slip (R127, R181). -/
def State.forgetUnits (p : Port) (u : State) : State :=
  { u with
    fans := { u.fans with check := u.fans.check.map fun k => if k.origin = p then { k with slip := none } else k }
    store := match u.store with
      | .storing q a image => .storing q (if q = p then none else a) image
      | .reloading q a => .reloading q (if q = p then none else a)
      | .none => .none }

theorem State.forgetEntries_kept (p : Port) : Kept s (s.forgetEntries p) := by
  refine .of_mems (State.core_of_parts rfl rfl rfl (fun _ => rfl) ?_ rfl (fun _ => rfl) ⟨rfl, rfl, rfl⟩ rfl rfl) rfl rfl rfl
  simp only [State.places, State.forgetEntries, List.map_map]
  refine List.map_congr_left fun e _ => ?_
  simp only [Function.comp]
  split <;> rfl

theorem State.forgetOp_kept (p : Port) : Kept s (s.forgetOp p n) := by
  unfold State.forgetOp
  dsimp only
  split
  · exact .refl s
  · exact .of_mems (by rw [State.pubBay_core, State.setOp_core]) (by rw [State.pubBay_mems, State.setOp_mems])
      (by rw [State.pubBay_eq]; rfl) (by rw [State.pubBay_eq]; rfl)

theorem State.forgetUnits_kept (p : Port) : Kept s (s.forgetUnits p) := by
  refine .of_mems (State.core_of_parts rfl rfl rfl (fun _ => rfl) rfl rfl (fun _ => rfl) ⟨rfl, rfl, rfl⟩ rfl ?_) rfl rfl rfl
  simp [State.emergency, State.forgetUnits]

theorem State.forgetSlips_kept (p : Port) : Kept s (s.forgetSlips p) := by
  unfold State.forgetSlips
  dsimp only
  generalize hu : List.foldl _ _ _ = u
  have hfold : Kept s u := by
    rw [← hu]
    exact foldl_keeps (P := Kept s) (fun _ _ h => h.trans (State.forgetOp_kept p)) _ _ (State.forgetEntries_kept p)
  exact hfold.trans (State.forgetUnits_kept p)

/-- A bay light put and published. -/
theorem State.relit_kept (l : BayLight) : Kept s ((s.putLight n l).pubLight n) :=
  .of_mems (by simp) (by simp) (by rw [State.pubLight_eq]; rfl) (by rw [State.pubLight_eq]; rfl)

/-- The enclosure light put and published. -/
theorem State.enclosureRelit_kept (l : Lights) : Kept s ({ s with lights := l } : State).pubEnclosure :=
  .of_mems ((State.pubEnclosure_core _).trans rfl) (State.pubEnclosure_mems _) (by rw [State.pubEnclosure_eq])
    (by rw [State.pubEnclosure_eq])

theorem State.emptyPortSlots_kept (p : Port) : Kept s (s.emptyPortSlots p) := by
  unfold State.emptyPortSlots
  dsimp only
  generalize hu : List.foldl _ _ _ = u
  have hfold : Kept s u := by
    rw [← hu]
    exact foldl_keeps (P := Kept s) (fun t m h => h.trans (State.relit_kept _)) _ _ (.refl s)
  exact hfold.trans (State.enclosureRelit_kept _)

theorem State.putFloor_kept (p : Port) (f : Option Floor) : Kept s (s.putFloor p f) := by
  refine .of_mems ((State.pubSummaryIfChanged_core _).trans rfl) (State.pubSummaryIfChanged_mems _) ?_ ?_ <;>
    rw [State.putFloor, State.pubSummaryIfChanged_eq]

theorem State.clearAttention_kept (p : Port) : Kept s (s.clearAttention p) := by
  refine .of_mems ((State.republishAttention_core _ p).trans rfl) (State.republishAttention_mems _ p) ?_ ?_ <;>
    rw [State.clearAttention, State.republishAttention_eq]

theorem State.clearPort_kept (p : Port) : Kept s (s.clearPort p) := by
  have hended := (State.abandonSlips_kept (s := s) p).trans (State.forgetSlips_kept p)
  unfold State.clearPort
  dsimp only
  generalize State.forgetSlips p _ = u at hended
  have hslots := hended.trans (State.emptyPortSlots_kept p)
  generalize State.emptyPortSlots p u = v at hslots
  exact (hslots.trans (State.putFloor_kept p none)).trans (State.clearAttention_kept p)

theorem State.voidPortFeed_carried (p : Port) : Carried s (s.voidPortFeed p) := .of_core_mems rfl rfl

theorem State.resetWindow_carried (p : Port) : Carried s (s.resetWindow p) := by
  unfold State.resetWindow
  dsimp only
  split
  · exact .of_core_mems rfl rfl
  · split
    · exact .of_core_mems rfl rfl
    · exact .of_core rfl fun h => ⟨Memory.wf_clear _ _ _ h.1, h.2⟩

theorem State.restartReader_carried (hp : s.phase ≠ .loading) (p : Port) : Carried s (s.restartReader p) := by
  unfold State.restartReader
  refine Carried.trans ?_ (.of_core_mems (State.republishReader_core _ p) (State.republishReader_mems _ p))
  split
  · exact State.rest_carried p _ _
  · exact State.walk_carried hp p _ _

theorem State.clearReader_carried (p : Port) : Carried s (s.clearReader p) := .of_core_mems rfl rfl

theorem State.resetPort_carried (hp : s.phase ≠ .loading) (p : Port) : Carried s (s.resetPort p) := by
  unfold State.resetPort
  dsimp only
  split
  · exact (State.clearPort_kept p).carried
  · have h := ((State.clearPort_kept (s := s) p).carried.trans (State.resetWindow_carried p)).trans (State.clearReader_carried p)
    exact h.trans (State.restartReader_carried (by rw [h.phase]; exact hp) p)

/-! ### Writes -/

theorem State.writeDone_kept (p : Port) : Kept s (s.writeDone p) := by
  unfold State.writeDone
  dsimp only
  split
  · exact .refl s
  · refine .of_mems ((State.pubAttention_core _ p).trans rfl) (State.pubAttention_mems _ p) ?_ ?_ <;> rw [State.pubAttention_eq]

theorem State.deny_kept (p : Port) : Kept s (s.deny p) := .of_mems rfl rfl rfl rfl

theorem State.storeByte_kept (a : Nat) (v : Byte) : Kept s { s with ram := Memory.write s.ram a v } :=
  ⟨rfl, fun h => ⟨Memory.wf_write _ _ _ h.1, h.2⟩, rfl, fun _ => rfl⟩

/-- One byte of a WRITE does one of four things (R150). -/
theorem State.writeByte_cases (p : Port) (start a : Nat) (v : Byte) (s : State) :
    Kept s (s.writeByte p start a v) ∨ s.writeByte p start a v = s.resetPort p := by
  unfold State.writeByte
  split
  · exact .inl (State.storeByte_kept a v)
  · split
    · exact .inl (State.deny_kept p)
    · split
      · exact .inl (.refl s)
      · split
        · exact .inl (State.writeDone_kept p)
        · split
          · exact .inr rfl
          · exact .inl (State.deny_kept p)

theorem State.writeByte_carried (hp : s.phase ≠ .loading) (p : Port) (start a : Nat) (v : Byte) : Carried s (s.writeByte p start a v) := by
  obtain h | h := State.writeByte_cases p start a v s
  · exact h.carried
  · rw [h]
    exact State.resetPort_carried hp p

theorem State.writeBytes_carried (p : Port) (start : Nat) (data : List Byte) (a : Nat) (s : State) (hp : s.phase ≠ .loading) :
    Carried s (s.writeBytes p start a data) := by
  induction data generalizing a s with
  | nil => exact .refl s
  | cons v data ih =>
    have h := State.writeByte_carried hp p start a v
    exact h.trans (ih _ _ (by rw [h.phase]; exact hp))

theorem State.feedByte_kept (p : Port) (v : Byte) : Kept s (s.feedByte p n v) := by
  unfold State.feedByte
  split
  · exact .of_mems rfl rfl rfl rfl
  · exact .refl s

theorem State.feedWrites_kept (p : Port) (stored : List Nat) : Kept s (s.feedWrites p stored) := by
  unfold State.feedWrites
  split
  · exact .refl s
  · refine foldl_keeps (P := Kept s) (fun t m h => ?_) _ _ (.refl s)
    split
    · exact h.trans (State.feedByte_kept p _)
    · exact h

theorem State.writeTransaction_carried (p : Port) (start : Nat) (data : List Byte) : Carried s (s.writeTransaction p start data) := by
  unfold State.writeTransaction
  dsimp only
  refine Carried.trans ?_ (State.putOut_kept p _).carried
  split
  · exact .refl s
  · rename_i hp
    have hfed := (State.writeBytes_carried p start data start s hp).trans (State.feedWrites_kept p (s.storedBy p start data.length)).carried
    exact (hfed.trans (State.wake_carried (by rw [hfed.phase]; exact hp) p _)).close hp

/-! ### The blocks' events -/

theorem State.fields_carried {t : State} (h : t.core = s.core) (hm : t.mems = s.mems) (hp : s.phase ≠ .loading) : Carried s t.close :=
  (Carried.of_core_mems h hm).close hp

theorem State.sampled_carried (hp : s.phase ≠ .loading) (x : Nat) (e : Option (Fin 8)) :
    Carried s ((s.putBay n ((s.bay n).sampled s.time (s.profileOf n) x)).bayChanged n e) := by
  have hstate : ((s.bay n).sampled s.time (s.profileOf n) x).record.state = (s.bay n).record.state := by
    unfold Bay.sampled
    dsimp only
    split <;> rfl
  exact BayMoves.carried (.of_stand (by simp) (State.canonical_of_mems (by simp)) (fun m => s.sits_putBay n m _ hstate) (by simp)) hp _

theorem State.takeSample_carried (hp : s.phase ≠ .loading) (x : Nat) : Carried s (s.takeSample n x) :=
  (State.sampled_carried hp x _).close hp

/-- A zone put back in its state leaves the emergency. -/
theorem State.putZone_carried (i : Fin 4) {z : Zone} (h : z.state = s.zones[i].state) : Carried s { s with zones := s.zones.set i z } := by
  refine .of_core_mems (State.core_of_parts rfl rfl rfl (fun _ => rfl) rfl rfl (fun _ => rfl) ⟨rfl, rfl, rfl⟩ rfl ?_) rfl
  have hzones : (s.zones.set i z).map Zone.state = s.zones.map Zone.state := by
    ext j hj
    rw [Vector.getElem_map, Vector.getElem_map, Vector.getElem_set]
    split
    · rename_i hij; subst hij; rw [h]; rfl
    · rfl
  have hany (v : Vector Zone 4) : (v.toList.any fun z => z.state == .critical) = (v.map Zone.state).toList.any (· == .critical) := by
    rw [Vector.toList_map, List.any_map]; rfl
  show (((s.zones.set i z).toList.any fun z => z.state == .critical) || s.fans.coolingLost || s.fans.check.isSome) = _
  rw [hany, hzones, ← hany]; rfl

theorem State.spentTimer_carried (z : Fin 4) (r : Reports) :
    Carried s { (({ s with zones := s.zones.set z { s.zones[z] with timer := .spent } } : State).pubZone z).raiseBoth srcThermal with reports := r } := by
  have hspent := State.putZone_carried (s := s) z (z := { s.zones[z] with timer := .spent }) rfl
  have hraised := (hspent.trans (.of_core_mems (State.pubZone_core _ z) (State.pubZone_mems _ z))).raiseBoth srcThermal
  exact hraised.trans (.of_core_mems (State.withReports_core _ _) rfl)

theorem State.criticalExpiry_carried (hp : s.phase ≠ .loading) (z : Fin 4) : Carried s (s.criticalExpiry z) :=
  (State.spentTimer_carried z _).close hp

/-- The end of a check before its handling closes (R120). -/
def State.checkEndedTold (k : FanCheck) (s : State) : State :=
  let t := ({ s with fans := { s.fans with fans := s.judgedFans k, check := none } } : State).pubFans
  let u := (t.endCheckSlip k .ok (some (t.checkResult k))).pubSummaryIfChanged
  if weakMoved s.fans.fans (s.judgedFans k) then u.raiseBoth srcFan else u

theorem State.checkEndedTold_carried (k : FanCheck) : Carried s (s.checkEndedTold k) := by
  have hover : Carried s { s with fans := { s.fans with fans := s.judgedFans k, check := none } } :=
    State.unchecked_carried.trans (.of_core_mems rfl rfl)
  refine Carried.raisedIf ?_ _ _
  exact ((hover.trans (State.pubFans_carried _)).trans (State.endCheckSlip_carried _ _ _)).trans (State.pubSummaryIfChanged_carries _)

theorem State.endCheck_carried (hp : s.phase ≠ .loading) (k : FanCheck) : Carried s (s.endCheck k) := (State.checkEndedTold_carried k).close hp

theorem State.endStore_carried (p : Port) (slip : Option Half) (o : SlipOutcome) (c : Bool) (r : List Byte) :
    Carried s (s.endStore p slip o c r) := by
  have hover : Carried s { s with store := .none } := .of_core_mems rfl rfl
  unfold State.endStore
  dsimp only
  split
  · exact hover
  · exact hover.trans (State.endOpen_carried _ _ _ _ _)

theorem Applied.andSet_carried {a : Applied} {f : State → State × Bool} (h : Carried s a.state) (hp : s.phase ≠ .loading)
    (hf : ∀ t : State, t.phase ≠ .loading → Carried t (f t).1) : Carried s (a.andSet f).state := by
  have hph : a.state.phase ≠ .loading := by rw [h.phase]; exact hp
  exact (h.trans (hf _ hph)).settle hp

theorem Applied.andPart_carried {a : Applied} {f : State → Option State × Bool} (h : Carried s a.state) (hp : s.phase ≠ .loading)
    (hf : ∀ t u : State, (f t).1 = some u → Carried t u) : Carried s (a.andPart f).state := by
  unfold Applied.andPart
  split
  · rename_i t c heq
    exact (h.trans (hf _ _ (congrArg Prod.fst heq))).settle hp
  · exact h

theorem Applied.powerSections_carried (m : Memory) {a : Applied} (h : Carried s a.state) (hp : s.phase ≠ .loading) :
    Carried s (a.powerSections m).state := by
  unfold Applied.powerSections
  dsimp only
  refine Applied.andSet_carried (Applied.andSet_carried ?_ hp fun t _ => State.setAccount_carried _) hp fun t _ => State.setSchedule_carried _
  refine foldl_keeps (P := fun a : Applied => Carried s a.state) (fun b i hb => Applied.andSet_carried hb hp fun t _ => State.setSlot_carried _ _) _ _ ?_
  refine foldl_keeps (P := fun a : Applied => Carried s a.state) (fun b i hb => Applied.andSet_carried hb hp fun t _ => State.setProfile_carried _ _) _ _ ?_
  refine Applied.andSet_carried ?_ hp fun t _ => .of_core_mems rfl rfl
  exact foldl_keeps (P := fun a : Applied => Carried s a.state) (fun b i hb => Applied.andSet_carried hb hp fun t ht => State.setBay_carried ht _) _ _ h

theorem Applied.otherSections_carried (m : Memory) {a : Applied} (h : Carried s a.state) (hp : s.phase ≠ .loading) :
    Carried s (a.otherSections m).state := by
  unfold Applied.otherSections
  dsimp only
  refine foldl_keeps (P := fun a : Applied => Carried s a.state) (fun b i hb => Applied.andSet_carried hb hp fun t _ => State.setSource_carried _ _ _) _ _ ?_
  refine foldl_keeps (P := fun a : Applied => Carried s a.state) (fun b i hb => Applied.andSet_carried hb hp fun t _ => State.setSource_carried _ _ _) _ _ ?_
  refine foldl_keeps (P := fun a : Applied => Carried s a.state) (fun b i hb => Applied.andSet_carried hb hp fun t _ => State.setPattern_carried _ _) _ _ ?_
  refine Applied.andSet_carried ?_ hp fun t ht => State.setFans_carried ht _
  refine foldl_keeps (P := fun a : Applied => Carried s a.state) (fun b i hb => Applied.andSet_carried hb hp fun t _ => State.setSensor_carried _ _) _ _ ?_
  refine Applied.andSet_carried ?_ hp fun t _ => State.setStaleTime_carried _
  exact foldl_keeps (P := fun a : Applied => Carried s a.state) (fun b i hb => Applied.andPart_carried
    (Applied.andPart_carried hb hp fun t u => State.setCurve_carried _ _ u) hp fun t u => State.setLimits_carried _ _ u) _ _ h

theorem State.setImageWindows_carried (m : Memory) : Carried s (s.setImageWindows m) := by
  unfold State.setImageWindows
  split <;> exact .of_core_mems rfl rfl

/-- The state with its settings' origin the image (R181). -/
def State.fromImage (s : State) : State := { s with origin := .image, cause := .none }

/-- An image applied, before the handling closes (R181). -/
def State.imageApplied (p : Port) (slip : Option Half) (m : Memory) (s : State) : State :=
  let a := Applied.otherSections m (Applied.powerSections m { state := s.holdSummary, clamped := false, refused := 0 })
  (((a.state.setImageWindows m).fromImage.releaseSummary s.reports.summaryHeld).evalEnclosure.endStore p slip .ok a.clamped
    [0, BitVec.ofNat 8 a.refused, flagByte (!imageWindowsAccepted m)])

theorem State.imageApplied_carried (hp : s.phase ≠ .loading) (p : Port) (slip : Option Half) (m : Memory) : Carried s (s.imageApplied p slip m) := by
  refine Carried.trans ?_ (State.endStore_carried _ _ _ _ _)
  refine Carried.trans (Carried.trans ?_ (State.releaseSummary_carried _ _)) (State.evalEnclosure_carried _)
  have ha : Carried s (Applied.otherSections m (Applied.powerSections m { state := s.holdSummary, clamped := false, refused := 0 })).state :=
    Applied.otherSections_carried m (Applied.powerSections_carried m (State.holdSummary_carried s) hp) hp
  exact (ha.trans (State.setImageWindows_carried m)).trans (Carried.of_core_mems (t := State.fromImage _) rfl rfl)

theorem State.applyImage_carried (hp : s.phase ≠ .loading) (p : Port) (slip : Option Half) (m : Memory) : Carried s (s.applyImage p slip m) :=
  (State.imageApplied_carried hp p slip m).close hp

end Sys2Proof.Machine
end
section
/-! SUPPORT. Every command but the resets and START_UP keeps the invariants (`Carried`). -/

namespace Sys2Proof.Machine

variable {s t : State} {n : BayNo}

theorem State.running_not_loading (h : s.running = true) : s.phase ≠ .loading := by
  rw [State.running_iff] at h
  rw [h]
  decide

/-- A command that is neither a reset nor START_UP. -/
def ordinary (c : Instr) : Prop :=
  match c with
  | .coldReset _ _ | .warmReset _ _ | .startUp _ => False
  | _ => True

/-- An event taken by a running part alone. -/
theorem Carried.whileRunning {c : Prop} [Decidable c] {t u : State} (ht : s.running = true → c → Carried s t) (hu : Carried s u) :
    Carried s (if s.running = true ∧ c then t else u) := by
  split
  · rename_i h; exact ht h.1 h.2
  · exact hu

theorem Carried.afterLine {c d : Prop} [Decidable (c ∧ s.running = true ∧ d)] {t u : State} (ht : c → s.running = true → d → Carried s t)
    (hu : Carried s u) : Carried s (if c ∧ s.running = true ∧ d then t else u) := by
  split
  · rename_i h; exact ht h.1 h.2.1 h.2.2
  · exact hu

theorem execPresenceAssert_carried (h : execPresenceAssert n s = .next t) : Carried s t := by
  obtain rfl := Host.Outcome.next.inj h
  have hline : Carried s (s.putLine n { s.line n with presence := true }) := State.putLine_carried _ rfl rfl
  exact .afterLine (fun _ hr hin => hline.trans (State.takePresence_carried ((State.running_iff _).1 hr) hin)) hline

theorem execPresenceDeassert_carried (h : execPresenceDeassert n s = .next t) : Carried s t := by
  obtain rfl := Host.Outcome.next.inj h
  have hline : Carried s (s.putLine n { s.line n with presence := false }) := State.putLine_carried _ rfl rfl
  exact .afterLine (fun _ _ _ => hline.trans State.takeAbsence_carried) hline

theorem execLatchOpen_carried (h : execLatchOpen n s = .next t) : Carried s t := by
  obtain rfl := Host.Outcome.next.inj h
  have hline : Carried s (s.putLine n { s.line n with latch := true }) := State.putLine_carried _ rfl rfl
  exact .whileRunning (fun hr _ => hline.trans (State.takeLatchOpen_carried (State.running_not_loading hr))) hline

theorem execLatchClose_carried (h : execLatchClose n s = .next t) : Carried s t := by
  obtain rfl := Host.Outcome.next.inj h
  have hline : Carried s (s.putLine n { s.line n with latch := false }) := State.putLine_carried _ rfl rfl
  exact .whileRunning (fun hr _ => hline.trans (State.latchClosed_carried (State.running_not_loading hr))) hline

theorem execSwitchTrip_carried (h : execSwitchTrip n s = .next t) : Carried s t := by
  obtain rfl := Host.Outcome.next.inj h
  have hline : Carried s (s.putLine n { s.line n with trip := (s.line n).trip || (s.line n).sw5 || (s.line n).sw12 }) :=
    State.putLine_carried _ rfl rfl
  exact .whileRunning (fun hr hpow => hline.trans (State.tripBay_carried (State.running_not_loading hr) hpow)) hline

theorem execSensorRead_carried (i : Fin 8) (r : Option (BitVec 16)) (h : execSensorRead i r s = .next t) : Carried s t := by
  obtain rfl := Host.Outcome.next.inj h
  have hnext : Carried s s.nextRead := .of_core_mems rfl rfl
  refine .whileRunning (fun hr _ => ?_) (.refl s)
  split
  · exact hnext
  · exact (hnext.trans (State.putSensor_carried i _)).close (State.running_not_loading hr)

theorem execFanPresenceReport_carried (i : Fin 6) (b : Bool) (h : execFanPresenceReport i b s = .next t) : Carried s t := by
  obtain rfl := Host.Outcome.next.inj h
  exact .whileRunning (fun hr _ => (State.fanChanged_carried i _).close (State.running_not_loading hr)) (.of_core_mems rfl rfl)

theorem execTachReport_carried (i : Fin 6) (k : Nat) (h : execTachReport i k s = .next t) : Carried s t := by
  obtain rfl := Host.Outcome.next.inj h
  refine .whileRunning (fun _ _ => .of_core_mems ?_ rfl) (.refl s)
  refine State.core_of_parts rfl rfl rfl (fun _ => rfl) rfl rfl (fun _ => rfl) ⟨rfl, rfl, rfl⟩ rfl ?_
  simp [State.emergency, State.putFan]

theorem execFanCheckEnd_carried (h : execFanCheckEnd s = .next t) : Carried s t := by
  obtain rfl := Host.Outcome.next.inj h
  split
  · exact .refl s
  · exact .whileRunning (fun hr _ => State.endCheck_carried (State.running_not_loading hr) _) (.refl s)

/-- The settings memory after writes of an image (R180). -/
theorem State.afterWrites_carried (image : List Byte) (k : Nat) :
    Carried s { s with settingsMem := s.settingsMem.afterWrites image k } :=
  .of_core rfl fun h => ⟨h.1, Memory.wf_afterWrites _ _ _ h.2⟩

theorem execStoreSettingsEnd_carried (h : execStoreSettingsEnd s = .next t) : Carried s t := by
  obtain rfl := Host.Outcome.next.inj h
  split
  · split
    · rename_i hr
      exact ((State.afterWrites_carried _ _).trans (State.endStore_carried _ _ _ _ _)).close (State.running_not_loading hr)
    · exact .refl s
  · exact .refl s

theorem execStoreWriteFailed_carried (k : Nat) (h : execStoreWriteFailed k s = .next t) : Carried s t := by
  obtain rfl := Host.Outcome.next.inj h
  split
  · split
    · rename_i hr
      exact ((State.afterWrites_carried _ _).trans (State.endStore_carried _ _ _ _ _)).close (State.running_not_loading hr)
    · exact .refl s
  · exact .refl s

theorem execReloadReadEnd_carried (b : Bool) (h : execReloadReadEnd b s = .next t) : Carried s t := by
  obtain rfl := Host.Outcome.next.inj h
  split
  · split
    · rename_i hr
      split
      · exact State.applyImage_carried (State.running_not_loading hr) _ _ _
      · exact (State.endStore_carried _ _ _ _ _).close (State.running_not_loading hr)
    · exact .refl s
  · exact .refl s

/-- The state with its next cooling period due. -/
def State.cooledAgain (s : State) : State := { s with coolingAt := some (Time.plus s.time Config.periodMs) }

theorem execCoolingPeriod_carried (h : execCoolingPeriod s = .next t) : Carried s t := by
  obtain rfl := Host.Outcome.next.inj h
  have hat : Carried s s.cooledAgain := .of_core_mems rfl rfl
  refine .whileRunning (fun hr _ => ?_) (.refl s)
  have hp := State.running_not_loading hr
  exact (hat.trans (State.coolingStages_carried (s := s.cooledAgain) hp)).close hp

theorem execFloorExpiry_carried (p : Port) (h : execFloorExpiry p s = .next t) : Carried s t := by
  obtain rfl := Host.Outcome.next.inj h
  exact .whileRunning (fun _ _ => State.putFloor_carried p none) (.refl s)

/-- Lights and the next refresh alone. -/
theorem State.refreshed_carried (l : Lights) (a : Option Time) : Carried s { s with lights := l, refreshAt := a } := .of_core_mems rfl rfl

theorem execChainRefresh_carried (a : BitVec 60) (h : execChainRefresh a s = .next t) : Carried s t := by
  obtain rfl := Host.Outcome.next.inj h
  exact .whileRunning (fun _ _ => State.refreshed_carried _ _) (.refl s)

theorem execLightExpiry_carried (p : Port) (place : LightPlace) (c : Colour) (h : execLightExpiry p place c s = .next t) : Carried s t := by
  obtain rfl := Host.Outcome.next.inj h
  exact .whileRunning (fun _ _ => State.putSlot_carried p place c none) (.refl s)

/-- A slip command's execution keeps the invariants. -/
theorem exec_slip_carried (c : Instr) {k : SlipHead} (hc : c.slip? = some k) (h : exec c s = .next t) : Carried s t := by
  cases ht : s.takeable k with
  | false =>
    rw [exec_slip_untaken c k s hc ht] at h
    obtain rfl := Host.Outcome.next.inj h
    exact .refl _
  | true =>
    rw [exec_slip_taken c k s hc ht] at h
    obtain rfl := Host.Outcome.next.inj h
    have hp : s.phase ≠ .loading := by rw [s.takeable_running k ht]; decide
    have hw := (State.markTaken_carried (s := s) k.addr).trans (slipWork_carried (s := s.markTaken k.addr) hp c)
    exact hw.trans (State.finishSlip_carried (by rw [hw.phase]; exact hp) _)

/-- Every command but the resets and START_UP keeps the invariants. -/
theorem exec_carried (c : Instr) (hc : ordinary c) (h : exec c s = .next t) : Carried s t := by
  cases hslip : c.slip? with
  | some k => exact exec_slip_carried c hslip h
  | none =>
    cases c <;> simp only [Instr.slip?, reduceCtorEq, ordinary] at hslip hc
    case read p a k => obtain rfl := Host.Outcome.next.inj h; exact (State.readTransaction_kept p _ _).carried
    case write p a d => obtain rfl := Host.Outcome.next.inj h; exact State.writeTransaction_carried p _ _
    case waitingRoomWake p =>
      obtain rfl := Host.Outcome.next.inj h
      split
      · rename_i hr
        have hp : s.phase ≠ .loading := by rw [hr.1]; decide
        exact (State.walkFrom_carried hp p _).close hp
      · exact .refl s
    case status p k => obtain rfl := Host.Outcome.next.inj h; exact (State.statusTransaction_kept p k).carried
    case voidTransaction p o k => obtain rfl := Host.Outcome.next.inj h; exact (State.idleTransaction_kept p k).carried
    case take p => obtain rfl := Host.Outcome.next.inj h; exact (State.readTransaction_kept p _ _).carried
    case done p v => obtain rfl := Host.Outcome.next.inj h; exact State.writeTransaction_carried p _ _
    case portReset p v => obtain rfl := Host.Outcome.next.inj h; exact State.writeTransaction_carried p _ _
    case registerWriteDiscarded p v => obtain rfl := Host.Outcome.next.inj h; exact State.writeTransaction_carried p _ _
    case presenceAssert n => exact execPresenceAssert_carried h
    case presenceDeassert n => exact execPresenceDeassert_carried h
    case settleExpiry n =>
      obtain rfl := Host.Outcome.next.inj h
      exact .whileRunning (fun hr hd => State.settleBay_carried (State.running_not_loading hr) hd.1) (.refl s)
    case bounce n =>
      obtain rfl := Host.Outcome.next.inj h
      exact .whileRunning (fun hr hd => State.bounceBay_carried (State.running_not_loading hr) hd.1) (.refl s)
    case surpriseRemoval n =>
      obtain rfl := Host.Outcome.next.inj h
      exact .whileRunning (fun hr hd => State.removeBay_carried (State.running_not_loading hr) hd.1) (.refl s)
    case latchOpen n => exact execLatchOpen_carried h
    case latchClose n => exact execLatchClose_carried h
    case switchTrip n => exact execSwitchTrip_carried h
    case backoffExpiry n =>
      obtain rfl := Host.Outcome.next.inj h
      exact .whileRunning (fun hr hd => State.retryBay_carried (State.running_not_loading hr) hd.1) (.refl s)
    case spinWindowEnd n =>
      obtain rfl := Host.Outcome.next.inj h
      exact .whileRunning (fun hr hd => State.spunUp_carried (State.running_not_loading hr) hd.1) (.refl s)
    case parkWindowEnd n =>
      obtain rfl := Host.Outcome.next.inj h
      exact .whileRunning (fun hr hd => State.parked_carried (State.running_not_loading hr) hd.1) (.refl s)
    case staggerExpiry =>
      obtain rfl := Host.Outcome.next.inj h
      exact .whileRunning (fun hr _ => State.fields_carried rfl rfl (State.running_not_loading hr)) (.refl s)
    case deadlineExpiry n =>
      obtain rfl := Host.Outcome.next.inj h
      exact .whileRunning (fun hr hd => State.timeOut_carried (State.running_not_loading hr) hd.1) (.refl s)
    case supplyInputChange i b g =>
      obtain rfl := Host.Outcome.next.inj h
      have hline : Carried s { s with supplyLines := s.supplyLines.set i { present := b, good := g } } := .of_core_mems rfl rfl
      exact .whileRunning (fun hr _ => (hline.trans (State.takeSupply_carried i)).close (State.running_not_loading hr)) hline
    case shedDelayExpiry =>
      obtain rfl := Host.Outcome.next.inj h
      exact .whileRunning (fun hr _ => State.fields_carried rfl rfl (State.running_not_loading hr)) (.refl s)
    case currentSample n x =>
      obtain rfl := Host.Outcome.next.inj h
      exact .whileRunning (fun hr _ => State.takeSample_carried (State.running_not_loading hr) _) (.refl s)
    case sensorScan =>
      obtain rfl := Host.Outcome.next.inj h
      exact .whileRunning (fun _ _ => .of_core_mems rfl rfl) (.refl s)
    case sensorRead i r => exact execSensorRead_carried i r h
    case coolingPeriod => exact execCoolingPeriod_carried h
    case criticalTimerExpiry z =>
      obtain rfl := Host.Outcome.next.inj h
      exact .whileRunning (fun hr _ => State.criticalExpiry_carried (State.running_not_loading hr) z) (.refl s)
    case fanPresenceReport i b => exact execFanPresenceReport_carried i b h
    case startingExpiry i =>
      obtain rfl := Host.Outcome.next.inj h
      exact .whileRunning (fun hr _ => (State.fanChanged_carried i _).close (State.running_not_loading hr)) (.refl s)
    case tachReport i k => exact execTachReport_carried i k h
    case fanCheckEnd => exact execFanCheckEnd_carried h
    case floorExpiry p => exact execFloorExpiry_carried p h
    case chainRefresh a => exact execChainRefresh_carried a h
    case lightExpiry p place c => exact execLightExpiry_carried p place c h
    case storeSettingsEnd => exact execStoreSettingsEnd_carried h
    case storeWriteFailed k => exact execStoreWriteFailed_carried k h
    case reloadReadEnd b => exact execReloadReadEnd_carried b h

/-- Taking a command from the queue, or a millisecond, leaves the invariants. -/
theorem State.fetched_carried (rest : List Instr) : Carried s { s with pending := rest } := .of_core_mems rfl rfl

/-- A step: a tick, a command kept by `exec_carried`, a reset, or START_UP. -/
theorem step_cases (h : step s = .next t) :
    Carried s t ∨ ∃ c rest, s.pending = c :: rest ∧ ¬ ordinary c ∧ exec c { s with pending := rest } = .next t := by
  unfold step at h
  split at h
  · obtain rfl := Host.Outcome.next.inj h
    exact .inl (.of_core_mems rfl rfl)
  · rename_i c rest hq
    by_cases hc : ordinary c
    · exact .inl ((State.fetched_carried rest).trans (exec_carried c hc h))
    · exact .inr ⟨c, rest, hq, hc, h⟩

end Sys2Proof.Machine
end
section
/-! SUPPORT. Resets, start-up, and with them every step, keep the invariants. -/

namespace Sys2Proof.Machine

variable {s t : State} {n : BayNo}

/-! ### The settings load -/

theorem State.loading_bay (k : ResetKind) (w : Surroundings) (n : BayNo) : (State.loading k w).bay n = .cold := Vector.getElem_replicate ..

theorem State.loading_reader (k : ResetKind) (w : Surroundings) (p : Port) : (State.loading k w).reader p = .cold := by cases p <;> rfl

theorem State.loading_queueSound (k : ResetKind) (w : Surroundings) : (State.loading k w).queueSound := by
  refine ⟨fun n => ?_, List.nodup_nil, List.Pairwise.nil, fun _ n => ?_⟩
  · rw [State.loading_bay]
    exact ⟨fun h => absurd h (by decide), fun h => absurd h List.not_mem_nil⟩
  · rw [State.loading_bay]; rfl

theorem State.loading_dutySound (k : ResetKind) (w : Surroundings) : (State.loading k w).dutySound :=
  ⟨show Settings.default.fans.dmin ≤ 1000 by decide, le_rfl, fun _ => rfl⟩

/-- While every bay is EMPTY nothing is committed. -/
theorem State.loading_sums (k : ResetKind) (w : Surroundings) : (State.loading k w).sum12 = 0 ∧ (State.loading k w).sum5 = 0 := by
  have hbays : (State.loading k w).bays.toList = List.replicate 60 Bay.cold := Vector.toList_replicate
  unfold State.sum12 State.sum5
  rw [hbays, List.map_replicate, List.map_replicate]
  decide

theorem State.loading_balanced (k : ResetKind) (w : Surroundings) : (State.loading k w).balanced := by
  obtain ⟨h12, h5⟩ := State.loading_sums k w
  have hbase12 : (State.loading k w).baseCapacity12 = 0 := rfl
  have hbase5 : (State.loading k w).baseCapacity5 = 0 := rfl
  have hover : (State.loading k w).account.overCommitted = false := rfl
  refine ⟨rfl, rfl, ?_, ?_, h12.symm, h5.symm, ?_, .inl rfl⟩
  · rw [State.usableBudget12, hbase12, Nat.zero_sub, Nat.zero_sub]; rfl
  · rw [State.usableBudget5, hbase5, Nat.zero_sub]; rfl
  · rw [h12, h5, hover]
    constructor
    · exact fun h => absurd h (by decide)
    · exact fun h => absurd h (by omega)

theorem State.interruptedMemory_wf (k : Nat) (h : Memory.wf s.settingsMem) : Memory.wf (s.interruptedMemory k) := by
  unfold State.interruptedMemory
  split
  · exact Memory.wf_afterWrites _ _ _ h
  · exact h

/-! ### Start-up as an induction over its steps -/

/-- Within start-up P holds; once a reset has abandoned it, Q. -/
def Under (P Q : State → Prop) (u : State) : Prop := (u.phase = .starting ∧ P u) ∨ (u.phase = .loading ∧ Q u)

/-- A transaction keeps the invariants; a reset leaves the new load. -/
theorem State.takeEvent_cases (e : StartUpEvent) (s : State) :
    Carried s (s.takeEvent e) ∨ (∃ straps, s.takeEvent e = .loading .cold (s.coldSurroundings straps 0)) ∨
      ∃ straps, s.takeEvent e = .loading .warm (s.warmSurroundings straps 0) := by
  cases e with
  | read p a k => exact .inl (State.readTransaction_kept p _ _).carried
  | write p a d => exact .inl (State.writeTransaction_carried p _ _)
  | status p k => exact .inl (State.statusTransaction_kept p k).carried
  | void p o k => exact .inl (State.idleTransaction_kept p k).carried
  | coldReset straps => exact .inr (.inl ⟨straps, rfl⟩)
  | warmReset straps => exact .inr (.inr ⟨straps, rfl⟩)

/-- An event within start-up keeps the invariants, or is a reset. -/
theorem State.takeWithin_cases (e : StartUpEvent) (s : State) :
    Carried s (s.takeWithin e) ∨ (∃ straps, s.takeWithin e = .loading .cold (s.coldSurroundings straps 0)) ∨
      ∃ straps, s.takeWithin e = .loading .warm (s.warmSurroundings straps 0) := by
  unfold State.takeWithin
  split
  · rename_i hs
    obtain h | ⟨straps, h⟩ | ⟨straps, h⟩ := State.takeEvent_cases e { s with late := [], reports := .silent }
    · left
      have hq : Carried s ({ s with late := [], reports := .silent } : State) := .of_core_mems rfl rfl
      dsimp only
      split
      · exact (hq.trans h).trans (.of_core_mems rfl rfl)
      · exact hq.trans h
    · exact .inr (.inl ⟨straps, by rw [h]; rfl⟩)
    · exact .inr (.inr ⟨straps, by rw [h]; rfl⟩)
  · exact State.takeEvent_cases e s

/-- Predicates on the states of start-up, by the number of steps made (P), and on those after it (Q). -/
structure StartKeeps (P : Nat → State → Prop) (Q : State → Prop) : Prop where
  carried  : ∀ k s t, s.phase = .starting → Carried s t → P k s → P k t
  carried' : ∀ s t, Carried s t → Q s → Q t
  cold     : ∀ k s straps, P k s → Q (.loading .cold (s.coldSurroundings straps 0))
  warm     : ∀ k s straps, P k s → Q (.loading .warm (s.warmSurroundings straps 0))
  cold'    : ∀ s straps, Q s → Q (.loading .cold (s.coldSurroundings straps 0))
  warm'    : ∀ s straps, Q s → Q (.loading .warm (s.warmSurroundings straps 0))

variable {P : Nat → State → Prop} {Q : State → Prop}

theorem StartKeeps.takeWithin (h : StartKeeps P Q) (k : Nat) (e : StartUpEvent) (hs : Under (P k) Q s) : Under (P k) Q (s.takeWithin e) := by
  obtain hc | ⟨straps, hc⟩ | ⟨straps, hc⟩ := State.takeWithin_cases e s
  · obtain ⟨hp, hs⟩ | ⟨hp, hs⟩ := hs
    · exact .inl ⟨hc.phase.trans hp, h.carried k _ _ hp hc hs⟩
    · exact .inr ⟨hc.phase.trans hp, h.carried' _ _ hc hs⟩
  · rw [hc]
    obtain ⟨-, hs⟩ | ⟨-, hs⟩ := hs
    · exact .inr ⟨rfl, h.cold k _ _ hs⟩
    · exact .inr ⟨rfl, h.cold' _ _ hs⟩
  · rw [hc]
    obtain ⟨-, hs⟩ | ⟨-, hs⟩ := hs
    · exact .inr ⟨rfl, h.warm k _ _ hs⟩
    · exact .inr ⟨rfl, h.warm' _ _ hs⟩

theorem StartKeeps.gap (h : StartKeeps P Q) (k : Nat) (during : List (Fin 7 × StartUpEvent)) (i : Fin 7) (hs : Under (P k) Q s) :
    Under (P k) Q (s.gap during i) := by
  unfold State.gap
  split
  · exact foldl_keeps (P := Under (P k) Q) (fun _ e ht => h.takeWithin k e.2 ht) _ _ hs
  · exact hs

/-- A step of start-up takes P k to P (k + 1). -/
theorem StartKeeps.stage (h : StartKeeps P Q) (k : Nat) (during : List (Fin 7 × StartUpEvent)) (i : Fin 7) {act : State → State}
    (hact : ∀ u, u.phase = .starting → P k u → (act u).phase = .starting ∧ P (k + 1) (act u)) (hs : Under (P k) Q s) :
    Under (P (k + 1)) Q (s.stage during i act) := by
  unfold State.stage
  obtain ⟨hp, hs⟩ | ⟨hp, hs⟩ := hs
  · rw [if_pos hp]
    exact h.gap (k + 1) during i (.inl (hact s hp hs))
  · rw [if_neg (by rw [hp]; decide)]
    exact .inr ⟨hp, hs⟩

/-- A step of start-up that keeps the invariants. -/
theorem StartKeeps.carriedStage (h : StartKeeps P Q) (k : Nat) (during : List (Fin 7 × StartUpEvent)) (i : Fin 7) {act : State → State}
    (hact : ∀ u, u.phase = .starting → Carried u (act u)) (hnext : ∀ u, P k u → P (k + 1) u) (hs : Under (P k) Q s) :
    Under (P (k + 1)) Q (s.stage during i act) :=
  h.stage k during i (fun u hp hu => ⟨(hact u hp).phase.trans hp, hnext _ (h.carried k _ _ hp (hact u hp) hu)⟩) hs

/-! ### The steps -/

theorem State.starting_not_loading (h : s.phase = .starting) : s.phase ≠ .loading := by rw [h]; decide

theorem State.startPolicies_carried (h : s.phase = .starting) : Carried s s.startPolicies := by
  unfold State.startPolicies
  split
  · exact .refl s
  · refine foldl_keeps (P := Carried s) (fun u m hu => ?_) _ _ (.refl s)
    have hp : u.phase ≠ .loading := State.starting_not_loading (hu.phase.trans h)
    unfold State.startPolicy
    split
    · rename_i hoff
      exact (hu.trans (State.applyPolicy_carried hp hoff.1)).settle (State.starting_not_loading h)
    · exact hu

theorem State.lightEnclosure_carried (s : State) : Carried s s.lightEnclosure :=
  .of_core_mems s.lightEnclosure_core s.lightEnclosure_mems

/-- Another status area alone. -/
theorem State.putStatus_carried (x : Status) : Carried s { s with status := x } := .of_core_mems rfl rfl

theorem State.publishAll_carried (s : State) : Carried s s.publishAll := State.putStatus_carried _

theorem State.accountStep_carried (h : s.phase = .starting) : Carried s s.accountUpdate.settle :=
  (Carried.accountUpdate rfl rfl rfl (fun _ => rfl) rfl rfl rfl rfl rfl).settle (State.starting_not_loading h)

/-- Start-up from the settings load: its first step, the step that finds the bays, the last that starts the readers, and what they keep. -/
theorem StartKeeps.startUp (h : StartKeeps P Q) (answered : Bool) (during : List (Fin 7 × StartUpEvent))
    (first : (s.distribute answered).phase = .starting ∧ P 0 (s.distribute answered)) (next : ∀ k u, k ≠ 1 → k ≠ 2 → P k u → P (k + 1) u)
    (bays : ∀ u, u.phase = .starting → P 1 u → u.startBays.phase = .starting ∧ P 2 u.startBays)
    (account : ∀ u, u.phase = .starting → P 2 u → P 3 u.accountUpdate.settle)
    (readers : ∀ u, u.phase = .starting → P 6 u → Q { u with phase := .running }) : Q (s.startUp answered during) := by
  have h0 := h.gap 0 during 0 (.inl first)
  have h1 := h.carriedStage 0 during 1 (act := State.raiseBoth srcLoadDone) (fun u _ => u.raiseBoth_carried _)
    (fun u => next 0 u (by omega) (by omega)) h0
  have h2 := h.stage 1 during 2 (act := State.startBays) bays h1
  have h3 := h.stage 2 during 3 (act := fun u => u.accountUpdate.settle)
    (fun u hp hu => ⟨(State.accountStep_carried hp).phase.trans hp, account u hp hu⟩) h2
  have h4 := h.carriedStage 3 during 4 (act := State.startPolicies) (fun u hp => State.startPolicies_carried hp)
    (fun u => next 3 u (by omega) (by omega)) h3
  have h5 := h.carriedStage 4 during 5 (act := State.lightEnclosure) (fun u _ => u.lightEnclosure_carried)
    (fun u => next 4 u (by omega) (by omega)) h4
  have h6 := h.carriedStage 5 during 6 (act := fun u => u.publishAll.deliver)
    (fun u _ => u.publishAll_carried.trans (State.deliver_carried _)) (fun u => next 5 u (by omega) (by omega)) h5
  unfold State.startUp
  dsimp only
  generalize State.stage during 6 _ _ = u at h6
  obtain ⟨hp, hu⟩ | ⟨hp, hu⟩ := h6
  · rw [if_pos hp]
    have hrun := readers u hp hu
    have hr : ({ u with phase := .running } : State).phase ≠ .loading := show Phase.running ≠ .loading by decide
    generalize hv : ({ u with phase := .running } : State) = v at hrun hr
    have ha := State.startReader_carried hr .a
    have hb := ha.trans (State.startReader_carried (by rw [ha.phase]; exact hr) .b)
    have hend := hb.close hr
    unfold State.startReaders
    rw [hv]
    exact h.carried' _ _ hend hrun
  · rw [if_neg (by rw [hp]; decide)]
    exact hu

/-! ### The first step -/

/-- What the first step of start-up leaves: bays, lines, queue, memories, straps, kind and C. -/
theorem State.distribute_fields (a : Bool) (s : State) : (s.distribute a).phase = .starting ∧ (s.distribute a).resetKind = s.resetKind ∧
    (s.distribute a).straps = s.straps ∧ (s.distribute a).bays = s.bays ∧ (s.distribute a).lines = s.lines ∧
    (s.distribute a).scheduler = s.scheduler ∧ (s.distribute a).mems = s.mems ∧ (s.distribute a).fans.c = s.fans.c ∧
    (s.distribute a).settings = Settings.loaded s.settingsMem (s.imageCause a) := by
  unfold State.distribute
  rw [State.startAccount_eq]
  exact ⟨rfl, rfl, rfl, rfl, rfl, rfl, rfl, rfl, rfl⟩

theorem State.distribute_phase (a : Bool) (s : State) : (s.distribute a).phase = .starting := (State.distribute_fields a s).1

theorem State.distribute_sits (a : Bool) (s : State) (n : BayNo) : (s.distribute a).sits n = s.sits n := by
  obtain ⟨-, -, -, hbays, hlines, -⟩ := State.distribute_fields a s
  rw [State.sits, State.bay, State.line, hbays, hlines]; rfl

theorem State.distribute_mems (a : Bool) (s : State) : (s.distribute a).mems = s.mems := (State.distribute_fields a s).2.2.2.2.2.2.1

/-- From a settings load with a sound queue, every bay is EMPTY and the queue empty. -/
theorem State.load_empty (hq : s.queueSound) (hl : s.phase = .loading) : (∀ n, (s.sits n).1 = .empty) ∧ s.places = [] := by
  rw [State.queueSound_iff_sits] at hq
  obtain ⟨hmem, -, -, hload⟩ := hq
  refine ⟨hload hl, List.eq_nil_iff_forall_not_mem.2 fun x hx => ?_⟩
  have hst := (hmem x.1).2 (List.mem_map_of_mem hx)
  have hempty : (s.sits x.1).1 = .empty := hload hl x.1
  rw [hempty] at hst
  cases hst

theorem State.distribute_queueSound (a : Bool) (hq : s.queueSound) : (s.distribute a).queueSound := by
  obtain ⟨hphase, -, -, -, -, hsched, -⟩ := State.distribute_fields a s
  rw [State.queueSound_iff_sits] at hq ⊢
  obtain ⟨hmem, hnodup, hsorted, -⟩ := hq
  have hplaces : (s.distribute a).places = s.places := by rw [State.places, hsched]; rfl
  rw [hplaces]
  refine ⟨fun n => by rw [State.distribute_sits]; exact hmem n, hnodup, hsorted, fun hl => ?_⟩
  rw [hphase] at hl
  cases hl

theorem Settings.loaded_dmin (m : Memory) (c : Cause) : (Settings.loaded m c).fans.dmin ≤ 1000 := by
  have hdefault : Settings.default.fans.dmin ≤ 1000 := by decide
  cases c with
  | none => exact FanSettings.apply_dmin _ _ hdefault
  | _ => exact hdefault

theorem State.distribute_dutySound (a : Bool) (hd : s.dutySound) (hl : s.phase = .loading) : (s.distribute a).dutySound := by
  obtain ⟨-, -, -, -, -, -, -, hc, hset⟩ := State.distribute_fields a s
  have hfull : (s.distribute a).fans.c = 1000 := hc.trans (hd.2.2 (.inr hl))
  refine ⟨?_, hfull.le, fun _ => hfull⟩
  rw [hfull, hset]
  exact Settings.loaded_dmin _ _

/-! ### The bays found (R29, R30) -/

/-- A fold over bays whose step moves one bay's state and switches makes every bay of the list stand as the step says. -/
theorem foldl_sits {step : State → BayNo → State} {R : State → Prop} {x : BayNo → BayState × Bool × Bool}
    {good : BayNo → BayState × Bool × Bool → Prop} (keeps : ∀ u n, R u → R (step u n))
    (others : ∀ u n m, m ≠ n → (step u n).sits m = u.sits m) (self : ∀ u n, R u → u.sits n = x n → good n ((step u n).sits n))
    (l : List BayNo) (hl : l.Nodup) (u : State) (hu : R u) (hraw : ∀ n ∈ l, u.sits n = x n) (hgood : ∀ n, n ∉ l → good n (u.sits n)) :
    R (l.foldl step u) ∧ ∀ n, good n ((l.foldl step u).sits n) := by
  induction l generalizing u with
  | nil => exact ⟨hu, fun n => hgood n List.not_mem_nil⟩
  | cons a l ih =>
    obtain ⟨ha, hnd⟩ := List.nodup_cons.1 hl
    refine ih hnd _ (keeps u a hu) (fun n hn => ?_) (fun n hn => ?_)
    · have hne : n ≠ a := fun h => ha (h ▸ hn)
      rw [others u a n hne]
      exact hraw n (List.mem_cons_of_mem _ hn)
    · by_cases h : n = a
      · subst h
        exact self u n hu (hraw n List.mem_cons_self)
      · rw [others u a n h]
        exact hgood n fun hm => (List.mem_cons.1 hm).elim h hn

theorem State.sits_enterRediscovered (n m : BayNo) (st : BayState) (s : State) :
    (s.enterRediscovered n st).sits m = if m = n then st.seated else s.sits m := by
  unfold State.enterRediscovered
  split
  · rw [State.sits_putFeed, State.sits_enter, State.sits_enter]
    split <;> rfl
  · rw [State.sits_beginRetry, State.sits_countTrip, State.sits_enter]
  · rw [State.sits_enter]

theorem State.enterRediscovered_outer (n : BayNo) (st : BayState) (s : State) : (s.enterRediscovered n st).outer = s.outer := by
  unfold State.enterRediscovered
  split
  · rfl
  · rw [State.beginRetry_outer, State.countTrip_outer, State.enter_outer]
  · rfl

theorem State.enterRediscovered_places (n : BayNo) (st : BayState) (s : State) : (s.enterRediscovered n st).places = s.places := by
  unfold State.enterRediscovered
  split
  · rfl
  · rw [State.places_beginRetry, State.places_countTrip, State.places_enter]
  · rfl

theorem State.enterRediscovered_mems (n : BayNo) (st : BayState) (s : State) : (s.enterRediscovered n st).mems = s.mems := by
  unfold State.enterRediscovered
  split
  · rfl
  · rw [State.beginRetry_mems, State.countTrip_mems, State.enter_mems]
  · rfl

theorem State.sits_deriveLights (n m : BayNo) (s : State) : (s.deriveLights n).sits m = s.sits m :=
  State.sits_of_core (State.deriveLights_core s n) m

theorem rediscoveredState_not_queued (l : BayLines) : rediscoveredState l ≠ .queued := by
  unfold rediscoveredState
  repeat' split
  all_goals decide

/-- What a step of the finding of bays leaves. -/
def Found (s u : State) : Prop := u.outer = s.outer ∧ u.mems = s.mems ∧ u.places = s.places

theorem State.sampleBay_found (u : State) (n : BayNo) : Found u (u.sampleBay n) := by
  unfold State.sampleBay
  split
  · exact ⟨rfl, rfl, rfl⟩
  · exact ⟨rfl, rfl, rfl⟩

theorem State.rediscover_found (u : State) (n : BayNo) : Found u (u.rediscover n) := by
  unfold State.rediscover
  split
  · dsimp only
    refine ⟨?_, ?_, ?_⟩
    · rw [State.deriveLights_outer, State.setFlags_outer, State.enterRediscovered_outer]
    · rw [State.deriveLights_mems, State.setFlags_mems, State.enterRediscovered_mems]
    · rw [State.places_of_core (State.deriveLights_core _ n), State.places_setFlags, State.enterRediscovered_places]
  · exact ⟨rfl, rfl, rfl⟩

theorem Found.trans {s t u : State} (h : Found s t) (k : Found t u) : Found s u :=
  ⟨k.1.trans h.1, k.2.1.trans h.2.1, k.2.2.trans h.2.2⟩

theorem State.startBays_found (s : State) : Found s s.startBays := by
  unfold State.startBays
  split
  · exact foldl_keeps (P := Found s) (fun u n h => h.trans (u.sampleBay_found n)) _ _ ⟨rfl, rfl, rfl⟩
  · exact foldl_keeps (P := Found s) (fun u n h => h.trans (u.rediscover_found n)) _ _ ⟨rfl, rfl, rfl⟩

theorem State.sits_sampleBay (u : State) (n m : BayNo) : (u.sampleBay n).sits m =
    if m = n ∧ u.inCount n = true ∧ (u.line n).presence = true then BayState.settling.seated else u.sits m := by
  unfold State.sampleBay
  split
  · rename_i h
    rw [State.enterSettling, State.sits_setOp, State.sits_enter]
    by_cases hm : m = n <;> simp [hm, h]
  · rename_i h
    rw [if_neg fun hc => h hc.2]

theorem State.sits_rediscover (u : State) (n m : BayNo) : (u.rediscover n).sits m =
    if m = n then (if u.inCount n then (rediscoveredState (u.line n)).seated else ((u.sits n).1, false, false)) else u.sits m := by
  unfold State.rediscover
  by_cases hin : u.inCount n = true
  · rw [if_pos hin, if_pos hin]
    dsimp only
    rw [State.sits_deriveLights, State.sits_setFlags, State.sits_enterRediscovered]
  · rw [if_neg hin, if_neg hin, State.sits, State.line_putLine]
    split
    · rename_i h; subst h; rfl
    · rfl

/-- A bay as start-up finds it: out of the queue; with the switches of its state, and EMPTY beyond the count. -/
def FoundBay (s : State) (n : BayNo) (x : BayState × Bool × Bool) : Prop :=
  x.1 ≠ .queued ∧ ((s.resetKind = .cold → s.sits n = BayState.empty.seated) → x = x.1.seated ∧ (s.inCount n = false → x.1 = .empty))

theorem Found.inCount {s u : State} (h : Found s u) (n : BayNo) : u.inCount n = s.inCount n := by
  have hstraps : u.straps = s.straps := congrArg Outer.straps h.1
  simp only [State.inCount, hstraps]

theorem mem_bayNumbers (n : BayNo) : n ∈ bayNumbers := List.mem_finRange n

/-- Every bay EMPTY before, start-up finds each out of the queue, and with its switches as its state gives. -/
theorem State.startBays_sits (he : ∀ n, (s.sits n).1 = .empty) (n : BayNo) : FoundBay s n (s.startBays.sits n) := by
  unfold State.startBays
  split
  · rename_i hk
    refine (foldl_sits (R := Found s) (x := s.sits) (good := FoundBay s) (fun u m h => h.trans (u.sampleBay_found m)) (fun u m k hk => ?_)
      (fun u m h hraw => ?_) bayNumbers (List.nodup_finRange 60) s ⟨rfl, rfl, rfl⟩ (fun _ _ => rfl)
      fun m hm => absurd (mem_bayNumbers m) hm).2 n
    · rw [State.sits_sampleBay, if_neg fun hc => hk hc.1]
    · rw [State.sits_sampleBay]
      split
      · rename_i hc
        refine ⟨by decide, fun _ => ⟨rfl, fun hout => ?_⟩⟩
        rw [← h.inCount, hc.2.1] at hout
        cases hout
      · rw [hraw]
        refine ⟨by rw [he]; decide, fun hopen => ?_⟩
        rw [hopen hk]
        exact ⟨rfl, fun _ => rfl⟩
  · refine (foldl_sits (R := Found s) (x := s.sits) (good := FoundBay s) (fun u m h => h.trans (u.rediscover_found m)) (fun u m k hk => ?_)
      (fun u m h hraw => ?_) bayNumbers (List.nodup_finRange 60) s ⟨rfl, rfl, rfl⟩ (fun _ _ => rfl)
      fun m hm => absurd (mem_bayNumbers m) hm).2 n
    · rw [State.sits_rediscover, if_neg hk]
    · rw [State.sits_rediscover, if_pos rfl]
      split
      · rename_i hin
        refine ⟨rediscoveredState_not_queued _, fun _ => ⟨rfl, fun hout => ?_⟩⟩
        rw [← h.inCount, hin] at hout
        cases hout
      · rw [hraw, he]
        exact ⟨by decide, fun _ => ⟨rfl, fun _ => rfl⟩⟩

theorem State.startBays_phase (s : State) : s.startBays.phase = s.phase := congrArg Outer.phase s.startBays_found.1

theorem State.startBays_queueSound (hp : s.phase = .starting) (hq : s.queueSound) (he : ∀ n, (s.sits n).1 = .empty) :
    s.startBays.queueSound := by
  have hplaces : s.places = [] := by
    rw [State.queueSound_iff_sits] at hq
    refine List.eq_nil_iff_forall_not_mem.2 fun x hx => ?_
    have hst := (hq.1 x.1).2 (List.mem_map_of_mem hx)
    rw [he] at hst
    cases hst
  rw [State.queueSound_iff_sits, s.startBays_found.2.2, hplaces]
  refine ⟨fun n => ⟨fun h => absurd h (State.startBays_sits he n).1, fun h => absurd h List.not_mem_nil⟩, List.nodup_nil, List.Pairwise.nil,
    fun hl => ?_⟩
  rw [State.startBays_phase, hp] at hl
  cases hl

theorem State.startBays_follows (he : ∀ n, (s.sits n).1 = .empty) (hopen : s.resetKind = .cold → ∀ n, s.sits n = BayState.empty.seated) :
    s.startBays.follows := by
  rw [State.follows_iff]
  intro n
  rw [s.startBays_found.inCount]
  exact (State.startBays_sits he n).2 fun hk => hopen hk n

/-! ### The five invariants -/

/-- The canonical memories through start-up. -/
theorem memories_startKeeps : StartKeeps (fun _ => State.memoriesCanonical) State.memoriesCanonical where
  carried _ _ _ _ h := h.memories
  carried' _ _ h := h.memories
  cold _ _ _ h := ⟨Memory.wf_nil, State.interruptedMemory_wf _ h.2⟩
  warm _ _ _ h := ⟨h.1, State.interruptedMemory_wf _ h.2⟩
  cold' _ _ h := ⟨Memory.wf_nil, State.interruptedMemory_wf _ h.2⟩
  warm' _ _ h := ⟨h.1, State.interruptedMemory_wf _ h.2⟩

/-- The account through start-up: balanced from its fourth step on. -/
theorem balanced_startKeeps : StartKeeps (fun k s => 3 ≤ k → s.balanced) State.balanced where
  carried _ _ _ _ h hs hk := h.balanced (hs hk)
  carried' _ _ h := h.balanced
  cold _ _ _ _ := State.loading_balanced _ _
  warm _ _ _ _ := State.loading_balanced _ _
  cold' _ _ _ := State.loading_balanced _ _
  warm' _ _ _ := State.loading_balanced _ _

/-- The queue through start-up: sound, with every bay EMPTY up to the third step. -/
theorem queue_startKeeps : StartKeeps (fun k s => s.queueSound ∧ (k ≤ 1 → ∀ n, (s.sits n).1 = .empty)) State.queueSound where
  carried _ _ _ hp h hs := ⟨h.queue hs.1, fun hk n => by rw [h.empties (by rw [hp]; decide) hs.1 (hs.2 hk)]; exact hs.2 hk n⟩
  carried' _ _ h := h.queue
  cold _ _ _ _ := State.loading_queueSound _ _
  warm _ _ _ _ := State.loading_queueSound _ _
  cold' _ _ _ := State.loading_queueSound _ _
  warm' _ _ _ := State.loading_queueSound _ _

/-- The duty through start-up. -/
theorem duty_startKeeps : StartKeeps (fun _ => State.dutySound) State.dutySound where
  carried _ _ _ _ h := h.duty
  carried' _ _ h := h.duty
  cold _ _ _ _ := State.loading_dutySound _ _
  warm _ _ _ _ := State.loading_dutySound _ _
  cold' _ _ _ := State.loading_dutySound _ _
  warm' _ _ _ := State.loading_dutySound _ _

/-! ### The switches -/

theorem Carried.switches {s t : State} (h : Carried s t) (hq : s.queueSound) (hs : s.switchesFollow) : t.switchesFollow := by
  obtain ⟨hrun, hload, hempty⟩ := hs
  refine ⟨fun hp => h.follows hq (hrun (h.phase.symm.trans hp)), fun hp hk n => ?_, fun hp n => ?_⟩
  all_goals
    have hl : s.phase = .loading := h.phase.symm.trans hp
    have hstill := h.empties (by rw [hl]; decide) hq (hempty hl) n
  · have h5 := congrArg (fun x => x.2.1) hstill
    have h12 := congrArg (fun x => x.2.2) hstill
    obtain ⟨o5, o12⟩ := hload hl (h.kind.symm.trans hk) n
    exact ⟨h5.trans o5, h12.trans o12⟩
  · exact (congrArg Prod.fst hstill).trans (hempty hl n)

theorem State.loading_emptyWhileLoading (k : ResetKind) (w : Surroundings) : (State.loading k w).emptyWhileLoading := fun _ n => by
  rw [State.loading_bay]; rfl

theorem State.loading_cold_switches (straps : Straps) (k : Nat) : (State.loading .cold (s.coldSurroundings straps k)).switchesFollow := by
  refine ⟨fun h => (by cases h), fun _ _ n => ?_, State.loading_emptyWhileLoading _ _⟩
  simp [State.loading, State.coldSurroundings, State.line]

theorem State.loading_warm_switches (w : Surroundings) : (State.loading .warm w).switchesFollow :=
  ⟨fun h => (by cases h), fun _ hk => (by cases hk), State.loading_emptyWhileLoading _ _⟩

theorem State.distribute_open (a : Bool) (hq : s.queueSound) (hs : s.switchesFollow) (hl : s.phase = .loading) :
    (∀ n, ((s.distribute a).sits n).1 = .empty) ∧
      ((s.distribute a).resetKind = .cold → ∀ n, (s.distribute a).sits n = BayState.empty.seated) := by
  obtain ⟨-, hload, hempty⟩ := hs
  refine ⟨fun n => by rw [State.distribute_sits]; exact hempty hl n, fun hk n => ?_⟩
  obtain ⟨h5, h12⟩ := hload hl ((State.distribute_fields a s).2.1.symm.trans hk) n
  rw [State.distribute_sits, State.sits, hempty hl n, h5, h12]; rfl

/-! ### The end of start-up -/

theorem State.balanced_running (hp : s.phase = .starting) (h : s.balanced) : ({ s with phase := .running } : State).balanced := by
  obtain ⟨h1, h2, h3, h4, h5, h6, h7, h8⟩ := h
  refine ⟨h1, h2, h3, h4, h5, h6, h7, .inr ?_⟩
  exact h8.resolve_left (by rw [hp]; decide)

theorem State.queueSound_running (h : s.queueSound) : ({ s with phase := .running } : State).queueSound :=
  ⟨h.1, h.2.1, h.2.2.1, fun hl => (by cases hl)⟩

theorem State.dutySound_running (h : s.dutySound) : ({ s with phase := .running } : State).dutySound :=
  ⟨h.1, h.2.1, fun he => h.2.2 (.inl (he.resolve_right fun hl => by cases hl))⟩

theorem State.switches_running (h : s.follows) : ({ s with phase := .running } : State).switchesFollow :=
  ⟨fun _ => h, fun hl => (by cases hl), fun hl => (by cases hl)⟩

/-- The switches through start-up: until the bays are found, EMPTY and as the reset left them; then as the bays' states give. -/
theorem switches_startKeeps : StartKeeps
    (fun k s => s.queueSound ∧
      (k ≤ 1 → (∀ n, (s.sits n).1 = .empty) ∧ (s.resetKind = .cold → ∀ n, s.sits n = BayState.empty.seated)) ∧ (2 ≤ k → s.follows))
    (fun s => s.queueSound ∧ s.switchesFollow) where
  carried _ s t hp h hs := by
    have hstill (he : ∀ n, (s.sits n).1 = .empty) := h.empties (by rw [hp]; decide) hs.1 he
    refine ⟨h.queue hs.1, fun hk => ?_, fun hk => h.follows hs.1 (hs.2.2 hk)⟩
    obtain ⟨he, hopen⟩ := hs.2.1 hk
    refine ⟨fun n => by rw [hstill he]; exact he n, fun hc n => ?_⟩
    rw [hstill he]
    exact hopen (h.kind.symm.trans hc) n
  carried' _ _ h hs := ⟨h.queue hs.1, h.switches hs.1 hs.2⟩
  cold _ _ _ _ := ⟨State.loading_queueSound _ _, State.loading_cold_switches _ _⟩
  warm _ _ _ _ := ⟨State.loading_queueSound _ _, State.loading_warm_switches _⟩
  cold' _ _ _ := ⟨State.loading_queueSound _ _, State.loading_cold_switches _ _⟩
  warm' _ _ _ := ⟨State.loading_queueSound _ _, State.loading_warm_switches _⟩

/-! ### A step -/

/-- What every step keeps: a predicate kept by every ordinary command, true of both resets' loads, and kept by START_UP. -/
theorem step_keeps {Q : State → Prop} (carried : ∀ s t, Carried s t → Q s → Q t)
    (cold : ∀ s straps k, Q s → Q (.loading .cold (s.coldSurroundings straps k)))
    (warm : ∀ s straps k, Q s → Q (.loading .warm (s.warmSurroundings straps k)))
    (startUp : ∀ s answered during, s.phase = .loading → Q s → Q (s.startUp answered during)) (hs : Q s) (h : step s = .next t) : Q t := by
  obtain hc | ⟨c, rest, -, hc, h⟩ := step_cases h
  · exact carried s t hc hs
  · have hr : Q { s with pending := rest } := carried _ _ (State.fetched_carried rest) hs
    generalize ({ s with pending := rest } : State) = u at h hr
    cases c <;> simp only [ordinary, not_true_eq_false] at hc
    case coldReset straps k => obtain rfl := Host.Outcome.next.inj h; exact cold u straps k hr
    case warmReset straps k => obtain rfl := Host.Outcome.next.inj h; exact warm u straps k hr
    case startUp run =>
      obtain rfl := Host.Outcome.next.inj h
      split
      · rename_i hl
        exact startUp u run.answered run.during hl hr
      · exact hr

/-- Settles O6: ordinary commands keep the memories canonical, as do both resets and start-up's steps. -/
theorem memoriesStayCanonical : Obligations.MemoriesStayCanonical := fun s t hs h =>
  step_keeps (Q := State.memoriesCanonical) (fun _ _ h => h.memories) (fun _ _ _ h => ⟨Memory.wf_nil, State.interruptedMemory_wf _ h.2⟩)
    (fun _ _ _ h => ⟨h.1, State.interruptedMemory_wf _ h.2⟩)
    (fun u a d _ hu => memories_startKeeps.startUp a d ⟨u.distribute_phase a, State.canonical_of_mems (u.distribute_mems a) hu⟩
      (fun _ _ _ _ => id) (fun v hp hv => ⟨v.startBays_phase.trans hp, State.canonical_of_mems v.startBays_found.2.1 hv⟩)
      (fun _ hp => (State.accountStep_carried hp).memories) fun _ _ hv => hv) hs h

/-- Settles O7: every handling of the account leaves it balanced, and nothing else moves what its figures rest on; start-up's fourth step sets
it. -/
theorem accountStaysBalanced : Obligations.AccountStaysBalanced := fun s t hs h =>
  step_keeps (Q := State.balanced) (fun _ _ h => h.balanced) (fun _ _ _ _ => State.loading_balanced _ _)
    (fun _ _ _ _ => State.loading_balanced _ _)
    (fun u a d _ _ => balanced_startKeeps.startUp a d ⟨u.distribute_phase a, fun hk => absurd hk (by decide)⟩
      (fun k v h1 h2 hv hk => hv (by omega)) (fun v hp _ => ⟨v.startBays_phase.trans hp, fun hk => absurd hk (by decide)⟩)
      (fun v hp _ _ => (State.settle_carried (by rw [State.accountUpdate_eq]; exact State.starting_not_loading hp)).balanced
        v.accountUpdate_balanced)
      fun v hp hv => State.balanced_running hp (hv (by decide))) hs h

/-- Settles O8: a bay joins, leaves and moves in the queue together with its state. -/
theorem queueStaysSound : Obligations.QueueStaysSound := fun s t hs h =>
  step_keeps (Q := State.queueSound) (fun _ _ h => h.queue) (fun _ _ _ _ => State.loading_queueSound _ _)
    (fun _ _ _ _ => State.loading_queueSound _ _)
    (fun u a d hl hu => queue_startKeeps.startUp a d
      ⟨u.distribute_phase a, State.distribute_queueSound a hu, fun _ n => by rw [State.distribute_sits]; exact (State.load_empty hu hl).1 n⟩
      (fun k v h1 h2 hv => ⟨hv.1, fun hk => hv.2 (by omega)⟩)
      (fun v hp hv => ⟨v.startBays_phase.trans hp, State.startBays_queueSound hp hv.1 (hv.2 le_rfl), fun hk => absurd hk (by decide)⟩)
      (fun v hp hv => ⟨(State.accountStep_carried hp).queue hv.1, fun hk => absurd hk (by decide)⟩)
      fun v hp hv => State.queueSound_running hv.1) hs h

/-- Settles O10: C moves by the cooling period, SET_FANS and FAN_CHECK alone, and an emergency begins with C at 1000. -/
theorem dutyStaysSound : Obligations.DutyStaysSound := fun s t hs h =>
  step_keeps (Q := State.dutySound) (fun _ _ h => h.duty) (fun _ _ _ _ => State.loading_dutySound _ _)
    (fun _ _ _ _ => State.loading_dutySound _ _)
    (fun u a d hl hu => duty_startKeeps.startUp a d ⟨u.distribute_phase a, State.distribute_dutySound a hu hl⟩
      (fun _ _ _ _ => id) (fun v hp hv => ⟨v.startBays_phase.trans hp, State.dutySound_of_outer v.startBays_found.1 hv⟩)
      (fun _ hp => (State.accountStep_carried hp).duty) fun v hp hv => State.dutySound_running hv) hs h

/-- Settles O11: a bay's switches move with its state and with nothing else. -/
theorem switchesFollowBays : Obligations.SwitchesFollowBays := fun s t hq hs h =>
  (step_keeps (Q := fun s => s.queueSound ∧ s.switchesFollow) (fun _ _ h hs => ⟨h.queue hs.1, h.switches hs.1 hs.2⟩)
    (fun _ _ _ _ => ⟨State.loading_queueSound _ _, State.loading_cold_switches _ _⟩)
    (fun _ _ _ _ => ⟨State.loading_queueSound _ _, State.loading_warm_switches _⟩)
    (fun u a d hl hu => switches_startKeeps.startUp a d
      ⟨u.distribute_phase a, State.distribute_queueSound a hu.1, fun _ => State.distribute_open a hu.1 hu.2 hl, fun hk => absurd hk (by decide)⟩
      (fun k v h1 h2 hv => ⟨hv.1, fun hk => hv.2.1 (by omega), fun hk => hv.2.2 (by omega)⟩)
      (fun v hp hv => ⟨v.startBays_phase.trans hp, State.startBays_queueSound hp hv.1 (hv.2.1 le_rfl).1, fun hk => absurd hk (by decide),
        fun _ => State.startBays_follows (hv.2.1 le_rfl).1 (hv.2.1 le_rfl).2⟩)
      (fun v hp hv => ⟨(State.accountStep_carried hp).queue hv.1, fun hk => absurd hk (by decide),
        fun _ => (State.accountStep_carried hp).follows hv.1 (hv.2.2 le_rfl)⟩)
      fun v hp hv => ⟨State.queueSound_running hv.1, State.switches_running (hv.2.2 (by decide))⟩) ⟨hq, hs⟩ h).2

end Sys2Proof.Machine
end
section
/-! SUPPORT. The rules of a bay's work (`BayWork`): for each operation on a bay, that it is work on that bay, and what it makes of the bay's
record, lines and feed, of the exchange, the queue and the events. -/

namespace Sys2Proof.Machine

variable (s : State) (n m : BayNo)

/-! ### Bay, line and feed -/

@[simp] theorem State.bay_markTaken (a : Half) : (s.markTaken a).bay m = s.bay m := rfl
@[simp] theorem State.bay_putLine (l : BayLines) : (s.putLine n l).bay m = s.bay m := rfl
@[simp] theorem State.bay_leave : (s.leave n).bay m = s.bay m := by rw [State.leave_eq]; rfl
@[simp] theorem State.bay_join (e : QueueEntry) : (s.join e).bay m = s.bay m := by rw [State.join_eq]; rfl
@[simp] theorem State.bay_keepOpen (h : SlipHead) (c : Byte) (k : Bool) : (s.keepOpen h c k).bay m = s.bay m := rfl
@[simp] theorem State.bay_voidBayFeed : (s.voidBayFeed n).bay m = s.bay m := rfl
@[simp] theorem State.bay_endOpSlip (op : Option Operation) (o : SlipOutcome) (r : List Byte) : (s.endOpSlip op o r).bay m = s.bay m := by
  rw [State.endOpSlip_eq]; rfl
@[simp] theorem State.line_markTaken (a : Half) : (s.markTaken a).line m = s.line m := rfl
@[simp] theorem State.line_putBay (b : Bay) : (s.putBay n b).line m = s.line m := rfl
@[simp] theorem State.line_setOp (o : Option Operation) : (s.setOp n o).line m = s.line m := rfl
@[simp] theorem State.line_setFlags (f : BayFlags → BayFlags) : (s.setFlags n f).line m = s.line m := rfl
@[simp] theorem State.line_setRetries (r : Nat) : (s.setRetries n r).line m = s.line m := rfl
@[simp] theorem State.line_countInsertion : (s.countInsertion n).line m = s.line m := rfl
@[simp] theorem State.line_countBounce : (s.countBounce n).line m = s.line m := rfl
@[simp] theorem State.line_countTrip : (s.countTrip n).line m = s.line m := rfl
@[simp] theorem State.line_beginRetry : (s.beginRetry n).line m = s.line m := by
  unfold State.beginRetry; dsimp only; split <;> rfl
@[simp] theorem State.line_leave : (s.leave n).line m = s.line m := by rw [State.leave_eq]; rfl
@[simp] theorem State.line_join (e : QueueEntry) : (s.join e).line m = s.line m := by rw [State.join_eq]; rfl
@[simp] theorem State.line_keepOpen (h : SlipHead) (c : Byte) (k : Bool) : (s.keepOpen h c k).line m = s.line m := rfl
@[simp] theorem State.line_voidBayFeed : (s.voidBayFeed n).line m = s.line m := rfl
@[simp] theorem State.line_endOpSlip (op : Option Operation) (o : SlipOutcome) (r : List Byte) : (s.endOpSlip op o r).line m = s.line m := by
  rw [State.endOpSlip_eq]; rfl
@[simp] theorem State.feed_markTaken (a : Half) : (s.markTaken a).feed m = s.feed m := rfl
@[simp] theorem State.feed_putBay (b : Bay) : (s.putBay n b).feed m = s.feed m := rfl
@[simp] theorem State.feed_putLine (l : BayLines) : (s.putLine n l).feed m = s.feed m := rfl
@[simp] theorem State.feed_setOp (o : Option Operation) : (s.setOp n o).feed m = s.feed m := rfl
@[simp] theorem State.feed_setFlags (f : BayFlags → BayFlags) : (s.setFlags n f).feed m = s.feed m := rfl
@[simp] theorem State.feed_setRetries (r : Nat) : (s.setRetries n r).feed m = s.feed m := rfl
@[simp] theorem State.feed_countInsertion : (s.countInsertion n).feed m = s.feed m := rfl
@[simp] theorem State.feed_countBounce : (s.countBounce n).feed m = s.feed m := rfl
@[simp] theorem State.feed_countTrip : (s.countTrip n).feed m = s.feed m := rfl
@[simp] theorem State.feed_beginRetry : (s.beginRetry n).feed m = s.feed m := by
  unfold State.beginRetry; dsimp only; split <;> rfl
@[simp] theorem State.feed_leave : (s.leave n).feed m = s.feed m := by rw [State.leave_eq]; rfl
@[simp] theorem State.feed_join (e : QueueEntry) : (s.join e).feed m = s.feed m := by rw [State.join_eq]; rfl
@[simp] theorem State.feed_keepOpen (h : SlipHead) (c : Byte) (k : Bool) : (s.keepOpen h c k).feed m = s.feed m := rfl
@[simp] theorem State.feed_endOpSlip (op : Option Operation) (o : SlipOutcome) (r : List Byte) : (s.endOpSlip op o r).feed m = s.feed m := by
  rw [State.endOpSlip_eq]; rfl

/-- Entry to a state other than SPINNING_UP leaves the feed. -/
theorem State.feed_enter_apart {st : BayState} (why : Reason) (h : st ≠ .spinningUp) : (s.enter n st why).feed m = s.feed m := by
  rw [State.feed_enter]
  split
  · rename_i hm; subst hm
    exact if_neg h
  · rfl

/-! ### The exchange and the queue -/

@[simp] theorem State.exchange_putBay (b : Bay) : (s.putBay n b).exchange = s.exchange := rfl
@[simp] theorem State.exchange_putLine (l : BayLines) : (s.putLine n l).exchange = s.exchange := rfl
@[simp] theorem State.exchange_setRetries (r : Nat) : (s.setRetries n r).exchange = s.exchange := rfl
@[simp] theorem State.exchange_countInsertion : (s.countInsertion n).exchange = s.exchange := rfl
@[simp] theorem State.exchange_countBounce : (s.countBounce n).exchange = s.exchange := rfl
@[simp] theorem State.exchange_countTrip : (s.countTrip n).exchange = s.exchange := rfl
@[simp] theorem State.exchange_voidBayFeed : (s.voidBayFeed n).exchange = s.exchange := rfl
@[simp] theorem State.exchange_beginRetry : (s.beginRetry n).exchange = s.exchange := by
  unfold State.beginRetry; dsimp only; split <;> rfl

@[simp] theorem State.queue_markTaken (a : Half) : (s.markTaken a).scheduler = s.scheduler := rfl
@[simp] theorem State.queue_putBay (b : Bay) : (s.putBay n b).scheduler = s.scheduler := rfl
@[simp] theorem State.queue_putLine (l : BayLines) : (s.putLine n l).scheduler = s.scheduler := rfl
@[simp] theorem State.queue_enter (st : BayState) (why : Reason) : (s.enter n st why).scheduler = s.scheduler := rfl
@[simp] theorem State.queue_setOp (o : Option Operation) : (s.setOp n o).scheduler = s.scheduler := rfl
@[simp] theorem State.queue_setFlags (f : BayFlags → BayFlags) : (s.setFlags n f).scheduler = s.scheduler := rfl
@[simp] theorem State.queue_setRetries (r : Nat) : (s.setRetries n r).scheduler = s.scheduler := rfl
@[simp] theorem State.queue_countInsertion : (s.countInsertion n).scheduler = s.scheduler := rfl
@[simp] theorem State.queue_countBounce : (s.countBounce n).scheduler = s.scheduler := rfl
@[simp] theorem State.queue_countTrip : (s.countTrip n).scheduler = s.scheduler := rfl
@[simp] theorem State.queue_voidBayFeed : (s.voidBayFeed n).scheduler = s.scheduler := rfl
@[simp] theorem State.queue_beginRetry : (s.beginRetry n).scheduler = s.scheduler := by
  unfold State.beginRetry; dsimp only; split <;> rfl
@[simp] theorem State.queue_keepOpen (h : SlipHead) (c : Byte) (k : Bool) : (s.keepOpen h c k).scheduler = s.scheduler := rfl
@[simp] theorem State.queue_endOpSlip (op : Option Operation) (o : SlipOutcome) (r : List Byte) :
    (s.endOpSlip op o r).scheduler = s.scheduler := by rw [State.endOpSlip_eq]

/-! ### Events -/

@[simp] theorem State.late_markTaken (a : Half) : (s.markTaken a).late = s.late := rfl
@[simp] theorem State.late_putBay (b : Bay) : (s.putBay n b).late = s.late := rfl
@[simp] theorem State.late_putLine (l : BayLines) : (s.putLine n l).late = s.late := rfl
@[simp] theorem State.late_enter (st : BayState) (why : Reason) : (s.enter n st why).late = s.late := rfl
@[simp] theorem State.late_setOp (o : Option Operation) : (s.setOp n o).late = s.late := rfl
@[simp] theorem State.late_setFlags (f : BayFlags → BayFlags) : (s.setFlags n f).late = s.late := rfl
@[simp] theorem State.late_setRetries (r : Nat) : (s.setRetries n r).late = s.late := rfl
@[simp] theorem State.late_countInsertion : (s.countInsertion n).late = s.late := rfl
@[simp] theorem State.late_countBounce : (s.countBounce n).late = s.late := rfl
@[simp] theorem State.late_countTrip : (s.countTrip n).late = s.late := rfl
@[simp] theorem State.late_voidBayFeed : (s.voidBayFeed n).late = s.late := rfl
@[simp] theorem State.late_beginRetry : (s.beginRetry n).late = s.late := by
  unfold State.beginRetry; dsimp only; split <;> rfl
@[simp] theorem State.late_leave : (s.leave n).late = s.late := by rw [State.leave_eq]
@[simp] theorem State.late_join (e : QueueEntry) : (s.join e).late = s.late := by rw [State.join_eq]
@[simp] theorem State.late_keepOpen (h : SlipHead) (c : Byte) (k : Bool) : (s.keepOpen h c k).late = s.late := rfl

/-- The end of an operation's slip raises SLIP_ENDED alone, and raises it where its entry asks for it (R154). -/
theorem State.endOpSlip_late (op : Option Operation) (o : SlipOutcome) (r : List Byte) :
    (∃ l, (s.endOpSlip op o r).late = s.late ++ l ∧ ∀ e ∈ l, e.2 = srcSlipEnded) ∧ OpSlipTold op s (s.endOpSlip op o r) := by
  unfold State.endOpSlip
  split
  · rename_i k p a st d c
    unfold State.endOpen
    split
    · rename_i hnone
      refine ⟨⟨[], (List.append_nil _).symm, by simp⟩, fun q p' a' e hop horigin hslip hfind _ => ?_⟩
      obtain rfl := Option.some.inj hop
      obtain rfl := Origin.slip.inj horigin
      obtain rfl := Option.some.inj hslip
      rw [hnone] at hfind
      cases hfind
    · rename_i e' hfound
      have hlate (w : State) : ((s.endAt p a e'.attn o (resultFlags (e'.clamped || false) false) (some r)).dropOpen p a).late =
          s.late ++ (if e'.attn then [(p, srcSlipEnded)] else []) := by
        rw [State.dropOpen_eq, State.endAt_eq]
      refine ⟨⟨_, hlate s, ?_⟩, fun q p' a' e hop horigin hslip hfind hattn => ?_⟩
      · split <;> simp
      · obtain rfl := Option.some.inj hop
        obtain rfl := Origin.slip.inj horigin
        obtain rfl := Option.some.inj hslip
        obtain rfl := Option.some.inj (hfound.symm.trans hfind)
        rw [hlate s, hattn]
        simp
  · rename_i hno
    refine ⟨⟨[], (List.append_nil _).symm, by simp⟩, fun q p a e hop horigin hslip _ _ => ?_⟩
    obtain ⟨k, or, sl, st, d, c⟩ := q
    subst hop
    simp only at horigin hslip
    subst horigin hslip
    exact absurd rfl (hno k p a st d c)

/-! ### Work on a bay -/

variable {s n}

/-- Work that leaves the state of bay n, the scheduler and the reports, and every other bay with its lines, feed and light. -/
theorem BayWork.of_stand {t : State} (outer : t.outer = s.outer) (account : t.account = s.account) (attention : t.attention = s.attention)
    (readers : ReadersStand s t) (bays : ∀ m, m ≠ n → t.bay m = s.bay m) (lines : ∀ m, m ≠ n → t.line m = s.line m)
    (feeds : ∀ m, m ≠ n → t.feed m = s.feed m) (lights : t.lights = s.lights) (scheduler : t.scheduler = s.scheduler)
    (reports : t.reports = s.reports) (state : (t.bay n).record.state = (s.bay n).record.state) : BayWork n s t where
  outer := outer
  account := account
  attention := attention
  readers := readers
  bays := bays
  lines := lines
  feeds := feeds
  lights m _ := by rw [State.light, lights]; rfl
  ports c := by rw [State.light, lights]; rfl
  enable := by rw [State.light, lights]; rfl
  enclosure := by rw [lights]
  admission := by rw [scheduler]; exact ⟨rfl, rfl, rfl⟩
  kept := by rw [reports]; exact ⟨id, id⟩
  pass hs ht := absurd (state.trans hs) ht
  head h := absurd (by rw [scheduler]) h
  run h := absurd state h

theorem BayWork.refl (n : BayNo) (s : State) : BayWork n s s :=
  .of_stand rfl rfl rfl (.refl s) (fun _ _ => rfl) (fun _ _ => rfl) (fun _ _ => rfl) rfl rfl rfl rfl

/-- A bay put back in its state. -/
theorem State.putBay_work {b : Bay} (h : b.record.state = (s.bay n).record.state) : BayWork n s (s.putBay n b) :=
  .of_stand rfl rfl rfl (.of_eq rfl) (fun m hm => by rw [State.bay_putBay, if_neg hm]) (fun _ _ => rfl) (fun _ _ => rfl) rfl rfl rfl
    (by rw [State.bay_putBay_same]; exact h)

theorem State.setOp_work (o : Option Operation) : BayWork n s (s.setOp n o) := State.putBay_work rfl
theorem State.setFlags_work (f : BayFlags → BayFlags) : BayWork n s (s.setFlags n f) := State.putBay_work rfl
theorem State.setRetries_work (r : Nat) : BayWork n s (s.setRetries n r) := State.putBay_work rfl
theorem State.countInsertion_work : BayWork n s (s.countInsertion n) := State.putBay_work rfl
theorem State.countBounce_work : BayWork n s (s.countBounce n) := State.putBay_work rfl
theorem State.countTrip_work : BayWork n s (s.countTrip n) := State.putBay_work rfl

theorem State.beginRetry_work : BayWork n s (s.beginRetry n) := by
  unfold State.beginRetry
  dsimp only
  split <;> exact State.putBay_work rfl

theorem State.putLine_work (l : BayLines) : BayWork n s (s.putLine n l) :=
  .of_stand rfl rfl rfl (.of_eq rfl) (fun _ _ => rfl) (fun m hm => by rw [State.line_putLine, if_neg hm]) (fun _ _ => rfl) rfl rfl rfl rfl

theorem State.voidBayFeed_work : BayWork n s (s.voidBayFeed n) :=
  .of_stand rfl rfl rfl (.of_eq rfl) (fun _ _ => rfl) (fun _ _ => rfl)
    (fun m hm => by rw [State.voidBayFeed, State.feed_putFeed, if_neg hm]) rfl rfl rfl rfl

theorem State.keepOpen_work (h : SlipHead) (c : Byte) (k : Bool) : BayWork n s (s.keepOpen h c k) :=
  .of_stand rfl rfl rfl (s.keepOpen_readersStand h c k) (fun _ _ => rfl) (fun _ _ => rfl) (fun _ _ => rfl) rfl rfl rfl rfl

theorem State.endOpSlip_work (op : Option Operation) (o : SlipOutcome) (r : List Byte) : BayWork n s (s.endOpSlip op o r) := by
  have heq := s.endOpSlip_eq op o r
  refine .of_stand (by simp) ?_ ?_ (s.endOpSlip_readersStand op o r) (fun _ _ => by simp) (fun _ _ => by simp) (fun _ _ => by simp) ?_
    (by simp) ?_ (by simp) <;> rw [heq]

theorem State.pubQueue_marks : s.pubQueue.scheduler.lastAdmission = s.scheduler.lastAdmission ∧
    s.pubQueue.scheduler.staggerAt = s.scheduler.staggerAt ∧ s.pubQueue.scheduler.hold = s.scheduler.hold := by
  obtain ⟨g, hg⟩ := s.pubQueue_scheduler
  rw [hg]
  exact ⟨rfl, rfl, rfl⟩

theorem State.leave_work : BayWork n s (s.leave n) where
  outer := s.leave_outer n
  account := by rw [State.leave_eq]
  attention := by rw [State.leave_eq]
  readers := .of_eq (s.leave_readers n)
  bays m _ := s.bay_leave n m
  lines m _ := s.line_leave n m
  feeds m _ := s.feed_leave n m
  lights m _ := by rw [State.leave_eq]; rfl
  ports c := by rw [State.leave_eq]; rfl
  enable := by rw [State.leave_eq]; rfl
  enclosure := by rw [State.leave_eq]
  admission := by
    unfold State.leave
    split
    · exact State.pubQueue_marks
    · exact ⟨rfl, rfl, rfl⟩
  kept := by
    unfold State.leave
    split
    · rw [State.pubQueue_eq]
      exact ⟨fun h => by simp [h], id⟩
    · exact ⟨id, id⟩
  pass hs ht := absurd (by rw [State.bay_leave]; exact hs) ht
  head h := s.leave_head n h
  run h := absurd (by rw [State.bay_leave]) h

theorem State.join_work (e : QueueEntry) : BayWork n s (s.join e) where
  outer := s.join_outer e
  account := by rw [State.join_eq]
  attention := by rw [State.join_eq]
  readers := .of_eq (s.join_readers e)
  bays m _ := s.bay_join m e
  lines m _ := s.line_join m e
  feeds m _ := s.feed_join m e
  lights m _ := by rw [State.join_eq]; rfl
  ports c := by rw [State.join_eq]; rfl
  enable := by rw [State.join_eq]; rfl
  enclosure := by rw [State.join_eq]
  admission := State.pubQueue_marks
  kept := by
    unfold State.join
    dsimp only
    rw [State.pubQueue_eq]
    exact ⟨fun h => by simp [h], id⟩
  pass hs ht := absurd (by rw [State.bay_join]; exact hs) ht
  head h := s.join_head e h
  run h := absurd (by rw [State.bay_join]) h

/-! ### Events through a handling -/

theorem OnlyTold.of_late {l : List (Fin 8)} {t : State} (h : t.late = s.late) : OnlyTold l s t := fun e he => .inl (h ▸ he)

theorem OnlyTold.trans {l : List (Fin 8)} {t u : State} (h : OnlyTold l s t) (k : OnlyTold l t u) : OnlyTold l s u := fun e he =>
  (k e he).elim (h e) .inr

theorem OnlyTold.mono {l l' : List (Fin 8)} {t : State} (h : OnlyTold l s t) (hl : ∀ i ∈ l, i ∈ l') : OnlyTold l' s t := fun e he =>
  (h e he).imp_right (hl _)

/-- From one state's events to another's that begin alike. -/
theorem OnlyTold.from {l : List (Fin 8)} {t u : State} (h : OnlyTold l t u) (ht : t.late = s.late) : OnlyTold l s u := fun e he =>
  ht ▸ h e he

/-- A changed bay's handling without an event of its own raises POWER at most. -/
theorem State.bayChanged_onlyPower (s : State) (n : BayNo) : OnlyTold [srcPower] s (s.bayChanged n none) := by
  have hbefore : ((s.pubBay n).deriveLights n).late = s.late := by rw [State.deriveLights_eq, State.pubBay_eq]
  intro e he
  have hlate : (s.bayChanged n none).late = ((s.pubBay n).deriveLights n).accountUpdate.late := rfl
  rw [hlate, State.accountUpdate_late, hbefore, List.mem_append] at he
  refine he.imp_right fun h => ?_
  split at h
  · simp only [List.mem_cons, List.not_mem_nil, or_false] at h
    obtain rfl | rfl := h <;> simp
  · cases h

theorem State.endOpSlip_onlyTold (s : State) (op : Option Operation) (o : SlipOutcome) (r : List Byte) :
    OnlyTold [srcSlipEnded] s (s.endOpSlip op o r) := by
  obtain ⟨⟨l, hlate, hl⟩, -⟩ := s.endOpSlip_late op o r
  intro e he
  rw [hlate, List.mem_append] at he
  exact he.imp_right fun h => by rw [hl e h]; simp

theorem State.told_endOpSlip {i : Fin 8} (h : s.told i) (op : Option Operation) (o : SlipOutcome) (r : List Byte) :
    (s.endOpSlip op o r).told i := by
  obtain ⟨⟨l, hlate, -⟩, -⟩ := s.endOpSlip_late op o r
  intro p
  rw [hlate]
  exact List.mem_append_left _ (h p)

/-- The events raised before the end of a bay's handling stand after it. -/
theorem State.bayChanged_late_subset (s : State) (n : BayNo) (e : Option (Fin 8)) : ∀ x ∈ s.late, x ∈ (s.bayChanged n e).late := by
  have hbefore : ((s.pubBay n).deriveLights n).late = s.late := by rw [State.deriveLights_eq, State.pubBay_eq]
  intro x hx
  have haccount : x ∈ ((s.pubBay n).deriveLights n).accountUpdate.late := by
    rw [State.accountUpdate_late, hbefore]
    exact List.mem_append_left _ hx
  unfold State.bayChanged
  cases e with
  | none => exact haccount
  | some i =>
    show x ∈ (State.raiseBoth i _).late
    rw [State.raiseBoth_late]
    exact List.mem_append_left _ (List.mem_append_left _ haccount)

/-- Which entry an operation's slip has rests on the exchange. -/
theorem OpSlipTold.from {op : Option Operation} {t u : State} (h : OpSlipTold op t u) (hx : t.exchange.tables = s.exchange.tables) :
    OpSlipTold op s u := by
  intro q p a e hop horigin hslip hfind hattn
  refine h q p a e hop horigin hslip ?_ hattn
  have htable : (t.reader p).table = (s.reader p).table := by
    have ha := congrArg PerPort.a hx
    have hb := congrArg PerPort.b hx
    cases p
    · exact ha
    · exact hb
  rw [State.findOpen, htable]
  exact hfind

theorem OpSlipTold.to {op : Option Operation} {t u : State} (h : OpSlipTold op s t) (hl : ∀ e ∈ t.late, e ∈ u.late) : OpSlipTold op s u :=
  fun q p a e hop horigin hslip hfind hattn => hl _ (h q p a e hop horigin hslip hfind hattn)

/-! ### A slip's end after a bay's handling -/

@[simp] theorem State.endOpSlip_statusBays (s : State) (op : Option Operation) (o : SlipOutcome) (r : List Byte) :
    (s.endOpSlip op o r).status.bays = s.status.bays := by
  have hpub (t : State) (p : Port) : (t.pubReader p).status.bays = t.status.bays := by
    unfold State.pubReader State.republishReader
    split
    · rfl
    · split <;> rfl
  unfold State.endOpSlip
  split
  · unfold State.endOpen
    split
    · rfl
    · unfold State.dropOpen
      rw [hpub, State.endAt_eq]; rfl
  · rfl

/-- What the lamp conditions of the enclosure rest on. -/
theorem State.enclosureAmber_endOpSlip (s : State) (op : Option Operation) (o : SlipOutcome) (r : List Byte) :
    (s.endOpSlip op o r).enclosureAmber = s.enclosureAmber := by
  rw [State.endOpSlip_eq]; rfl

/-- The end of an operation's slip is part of a bay's handling. -/
theorem BayHandled.endOpSlip {t : State} (h : BayHandled n s t) (op : Option Operation) (o : SlipOutcome) (r : List Byte) :
    BayHandled n s (t.endOpSlip op o r) := by
  have heq := t.endOpSlip_eq op o r
  have hlights : (t.endOpSlip op o r).lights = t.lights := by rw [heq]
  have hphase : (t.endOpSlip op o r).phase = t.phase := by rw [heq]
  have hreports : (t.endOpSlip op o r).reports = t.reports := by rw [heq]
  have haccount : (t.endOpSlip op o r).account = t.account := by rw [heq]
  have hlight : ∀ m, (t.endOpSlip op o r).light m = t.light m := fun m => by rw [State.light, hlights]; rfl
  exact
    { outer := (t.endOpSlip_outer op o r).trans h.outer
      attention := by rw [heq]; exact h.attention
      readers := h.readers.trans (t.endOpSlip_readersStand op o r)
      bays := fun m hm => by rw [State.bay_endOpSlip]; exact h.bays m hm
      lines := fun m hm => by rw [State.line_endOpSlip]; exact h.lines m hm
      feeds := fun m hm => by rw [State.feed_endOpSlip]; exact h.feeds m hm
      lights := fun m hm => by rw [hlight]; exact h.lights m hm
      ports := fun place c => by
        rw [← h.ports place c]
        cases place with
        | bay m =>
          show (((t.endOpSlip op o r).light m).channel c).ports = ((t.light m).channel c).ports
          rw [hlight]
        | enclosure =>
          show ((t.endOpSlip op o r).lights.enclosure.channel c).ports = (t.lights.enclosure.channel c).ports
          rw [hlights]
      enable := by rw [hlight]; exact h.enable
      admission := by rw [State.queue_endOpSlip]; exact h.admission
      balanced := State.balanced_of_core (t.endOpSlip_core op o r) h.balanced
      shown := fun hrun => by
        refine State.shown_of_eq ?_ ?_ (t.endOpSlip_statusBays op o r) (h.shown (hphase ▸ hrun)) <;> rw [heq]
      lit := fun hin => by
        have hin' : t.inCount n = true := by rw [heq] at hin; exact hin
        unfold State.lit
        rw [hlight, State.bay_endOpSlip]
        exact h.lit hin'
      enclosure := by
        obtain ⟨⟨hrun, hstart⟩, hblue⟩ := h.enclosure
        refine ⟨⟨fun hp => ?_, fun hp => ?_⟩, by rw [hlights]; exact hblue⟩
        · rw [hlights, State.enclosureAmber_endOpSlip]; exact hrun (hphase ▸ hp)
        · rw [hlights]; exact hstart (hphase ▸ hp)
      pass := by rw [State.bay_endOpSlip, hreports]; exact h.pass
      head := by rw [State.queue_endOpSlip, hreports]; exact h.head
      run := by rw [State.bay_endOpSlip, hreports, haccount]; exact h.run }

end Sys2Proof.Machine
end

section
/-! SUPPORT. The inputs and timers of a bay (R6 to R8, R16, R17, R20, R66): each event's work on its bay, brought to its end. -/

namespace Sys2Proof.Machine

variable {s : State} {n : BayNo}

/-! ### The finished handling of a bay -/

@[simp] theorem State.bay_countInsertion (s : State) (n : BayNo) : (s.countInsertion n).bay n =
    { s.bay n with record := { (s.bay n).record with insertions := (s.bay n).record.insertions + 1 } } := State.bay_putBay_same ..
@[simp] theorem State.bay_countBounce (s : State) (n : BayNo) : (s.countBounce n).bay n =
    { s.bay n with record := { (s.bay n).record with bounces := (s.bay n).record.bounces + 1 } } := State.bay_putBay_same ..
@[simp] theorem State.bay_countTrip (s : State) (n : BayNo) : (s.countTrip n).bay n =
    { s.bay n with record := { (s.bay n).record with trips := (s.bay n).record.trips + 1 } } := State.bay_putBay_same ..
@[simp] theorem State.bay_setOp_same (s : State) (n : BayNo) (o : Option Operation) : (s.setOp n o).bay n =
    { s.bay n with record := { (s.bay n).record with op := o } } := State.bay_putBay_same ..
@[simp] theorem State.bay_setFlags_same (s : State) (n : BayNo) (f : BayFlags → BayFlags) : (s.setFlags n f).bay n =
    { s.bay n with record := { (s.bay n).record with flags := f (s.bay n).record.flags } } := State.bay_putBay_same ..
@[simp] theorem State.bay_setRetries_same (s : State) (n : BayNo) (r : Nat) : (s.setRetries n r).bay n =
    { s.bay n with record := { (s.bay n).record with retries := r } } := State.bay_putBay_same ..
@[simp] theorem State.bay_enter_same (s : State) (n : BayNo) (st : BayState) (why : Reason) : (s.enter n st why).bay n =
    (s.bay n).entering st why s.time s.settings.timing (s.profileOf n) := by rw [State.bay_enter, if_pos rfl]
@[simp] theorem State.line_enter_same (s : State) (n : BayNo) (st : BayState) (why : Reason) : (s.enter n st why).line n =
    (s.line n).follow st := by rw [State.line_enter, if_pos rfl]
/-! ### What the parts of a bay's work leave of the time and the settings -/

@[simp] theorem State.leave_time (s : State) (n : BayNo) : (s.leave n).time = s.time := congrArg Outer.time (s.leave_outer n)
@[simp] theorem State.leave_settings (s : State) (n : BayNo) : (s.leave n).settings = s.settings := congrArg Outer.settings (s.leave_outer n)
@[simp] theorem State.join_time (s : State) (e : QueueEntry) : (s.join e).time = s.time := congrArg Outer.time (s.join_outer e)
@[simp] theorem State.join_settings (s : State) (e : QueueEntry) : (s.join e).settings = s.settings := congrArg Outer.settings (s.join_outer e)
@[simp] theorem State.endOpSlip_time (s : State) (op : Option Operation) (o : SlipOutcome) (r : List Byte) : (s.endOpSlip op o r).time = s.time := congrArg Outer.time (s.endOpSlip_outer op o r)
@[simp] theorem State.endOpSlip_settings (s : State) (op : Option Operation) (o : SlipOutcome) (r : List Byte) : (s.endOpSlip op o r).settings = s.settings := congrArg Outer.settings (s.endOpSlip_outer op o r)
@[simp] theorem State.voidBayFeed_time (s : State) (n : BayNo) : (s.voidBayFeed n).time = s.time := rfl
@[simp] theorem State.voidBayFeed_settings (s : State) (n : BayNo) : (s.voidBayFeed n).settings = s.settings := rfl
@[simp] theorem State.countInsertion_time (s : State) (n : BayNo) : (s.countInsertion n).time = s.time := rfl
@[simp] theorem State.countInsertion_settings (s : State) (n : BayNo) : (s.countInsertion n).settings = s.settings := rfl
@[simp] theorem State.countBounce_time (s : State) (n : BayNo) : (s.countBounce n).time = s.time := rfl
@[simp] theorem State.countBounce_settings (s : State) (n : BayNo) : (s.countBounce n).settings = s.settings := rfl
@[simp] theorem State.countTrip_time (s : State) (n : BayNo) : (s.countTrip n).time = s.time := rfl
@[simp] theorem State.countTrip_settings (s : State) (n : BayNo) : (s.countTrip n).settings = s.settings := rfl
@[simp] theorem State.bayChanged_time (s : State) (n : BayNo) (e : Option (Fin 8)) : (s.bayChanged n e).time = s.time :=
  congrArg Outer.time (s.bayChanged_outer n e)

/-- The profile in force for a bay rests on the settings. -/
theorem State.profileOf_of_settings {s t : State} (h : t.settings = s.settings) (n : BayNo) : t.profileOf n = s.profileOf n :=
   congrArg (fun c : Settings => c.profiles[c.bays[n].profile]) h

/-- What an operation of internal origin begins with rests on the time. -/
theorem State.internalOp_of_time {s t : State} (h : t.time = s.time) (k : OpKind) : t.internalOp k = s.internalOp k := by
  unfold State.internalOp; rw [h]

@[simp] theorem State.feed_voidBayFeed_same (s : State) (n : BayNo) :
    (s.voidBayFeed n).feed n = { s.feed n with entries := ⟨.void, .void⟩, latest := none } := by
  simp [State.feed, State.voidBayFeed, State.putFeed]

/-- The flags of a bay that leaves `old` for a state other than EMPTY and LOGIC (Table 1-2). -/
def BayFlags.leaving (old : BayState) (f : BayFlags) : BayFlags :=
  { f with removalReady := f.removalReady && decide (old ≠ .off), drawHigh := f.drawHigh && decide (old ≠ .ready) }

/-- On leaving OFF or READY no flag but the one of that state clears. -/
theorem BayFlags.leaving_of_ne_off {old : BayState} (h : old ≠ .off) (f : BayFlags) :
    f.leaving old = { f with drawHigh := f.drawHigh && decide (old ≠ .ready) } := by simp [BayFlags.leaving, h]

/-! ### The bay that enters a state (R5, R6, R11) -/

section
variable (why : Reason) (now : Time) (timing : Timing) (p : Profile) (b : Bay)

theorem Bay.entering_empty : b.entering .empty why now timing p =
    { b.stands .empty why now 0 0 .clear b.record.op with absenceAt := none } := rfl
theorem Bay.entering_off : b.entering .off why now timing p =
    b.stands .off why now 0 0 (b.record.flags.leaving b.record.state) b.record.op := rfl
theorem Bay.entering_logic : b.entering .logic why now timing p =
    b.stands .logic why now 0 p.i5 (flagsEntering b.record.state .logic why b.record.flags) b.record.op := rfl
theorem Bay.entering_queued : b.entering .queued why now timing p =
    b.stands .queued why now b.record.c12 b.record.c5 (b.record.flags.leaving b.record.state) b.record.op := rfl
theorem Bay.entering_spinningUp : b.entering .spinningUp why now timing p =
    { b.stands .spinningUp why now p.peak12 b.record.c5 (b.record.flags.leaving b.record.state) b.record.op with
      spinAt := some (Time.plus now p.spin) } := rfl
theorem Bay.entering_ready : b.entering .ready why now timing p =
    b.stands .ready why now p.steady12 b.record.c5 (b.record.flags.leaving b.record.state) b.record.op := rfl
theorem Bay.entering_spinningDown : b.entering .spinningDown why now timing p =
    { b.stands .spinningDown why now b.record.c12 b.record.c5 (b.record.flags.leaving b.record.state) b.record.op with
      parkAt := some (Time.plus now p.park) } := rfl
theorem Bay.entering_faulted : b.entering .faulted why now timing p =
    b.stands .faulted why now 0 0 (b.record.flags.leaving b.record.state) b.record.op := rfl

end

/-- A handling of bay n whose work left it as `b`, its lines as `l`, its feed as `f`, the exchange as `x` and the queue as `q`. -/
structure BayLeft (n : BayNo) (s : State) (b : Bay) (l : BayLines) (f : BayFeed) (x : Exchange) (q : List QueueEntry) (u : State) : Prop where
  handled  : BayHandled n s u
  bay      : (u.bay n).like b
  line     : u.line n = l
  feed     : u.feed n = f
  exchange : u.exchange = x
  queue    : u.scheduler.queue = q

/-- Work on bay n brought to its end leaves what the work left. -/
theorem BayWork.left {t : State} {b : Bay} {l : BayLines} {f : BayFeed} {x : Exchange} {q : List QueueEntry} (h : BayWork n s t)
    (bay : t.bay n = b) (line : t.line n = l) (feed : t.feed n = f) (exchange : t.exchange = x) (queue : t.scheduler.queue = q)
    (e : Option (Fin 8)) : BayLeft n s b l f x q (t.bayChanged n e) :=
  ⟨h.handled e, bay ▸ t.bayChanged_like n e, by simp [line], by simp [feed], by simp [exchange], by simp [queue]⟩

/-- The events of a handling whose work raised none. -/
theorem State.bayChanged_events {t : State} (h : t.late = s.late) (n : BayNo) (i : Fin 8) :
    (t.bayChanged n (some i)).told i ∧ OnlyTold [i, srcPower] s (t.bayChanged n (some i)) :=
  ⟨t.bayChanged_told n i, (t.bayChanged_onlyTold n i).from h⟩

@[simp] theorem State.bayResult_endOpSlip (s : State) (n : BayNo) (op : Option Operation) (o : SlipOutcome) (r : List Byte) :
    bayResult (s.endOpSlip op o r) n = bayResult s n := by
  unfold bayResult; rw [State.bay_endOpSlip]

/-- The end of an operation's slip is told, by itself and with nothing else (R12, R154). -/
theorem State.endOpSlip_told (s : State) (op : Option Operation) (o : SlipOutcome) (r : List Byte) : OpSlipTold op s (s.endOpSlip op o r) :=
  (s.endOpSlip_late op o r).2

/-- Where an operation's slip ends before the rest of a bay's work, its end is told, and nothing else by then (R12). -/
theorem State.endsFirst_told {t u : State} {op : Option Operation} {o : SlipOutcome} {r : List Byte}
    (exchange : t.exchange.tables = s.exchange.tables) (late : t.late = s.late) (hu : u.late = (t.endOpSlip op o r).late) :
    OpSlipTold op s u ∧ OnlyTold [srcSlipEnded] s u :=
  ⟨((State.endOpSlip_told t op o r).from exchange).to fun x hx => by rw [hu]; exact hx,
    ((t.endOpSlip_onlyTold op o r).from late).trans (.of_late hu)⟩

/-- A handling of bay n that leaves what `BayLeft` says, has told an event and the end of the slip of the operation that it ended, and
nothing else but POWER. -/
structure BayTold (n : BayNo) (s : State) (op : Option Operation) (i : Fin 8) (b : Bay) (l : BayLines) (x : Exchange)
    (q : List QueueEntry) (u : State) : Prop where
  left    : BayLeft n s b l (s.feed n) x q u
  opTold  : OpSlipTold op s u
  told    : u.told i
  only    : OnlyTold [i, srcPower, srcSlipEnded] s u

/-- Work on bay n that told nothing, brought to its end, and then the end of the slip of the operation that is over. -/
theorem BayWork.endsOp {t : State} {b : Bay} {l : BayLines} {q : List QueueEntry} (h : BayWork n s t) (bay : t.bay n = b) (line : t.line n = l)
    (feed : t.feed n = s.feed n) (exchange : t.exchange = s.exchange) (queue : t.scheduler.queue = q) (late : t.late = s.late)
    (op : Option Operation) (o : SlipOutcome) (i : Fin 8) :
    let u := (t.bayChanged n (some i)).endOpSlip op o (bayResult (t.bayChanged n (some i)) n)
    BayTold n s op i b l (s.exchange.opEnded op o (bayResult u n) s.time) q u := by
  obtain ⟨handled, bay, line, feed, exchange, queue⟩ := h.left bay line feed exchange queue (some i)
  have htime : (t.bayChanged n (some i)).time = s.time := congrArg Outer.time handled.outer
  obtain ⟨told, only⟩ := State.bayChanged_events late n i
  exact
    { left := ⟨handled.endOpSlip .., by simpa using bay, by simpa using line, by simpa using feed,
        by rw [State.exchange_endOpSlip, State.bayResult_endOpSlip, exchange, htime], by simpa using queue⟩
      opTold := (State.endOpSlip_told _ op o _).from (congrArg Exchange.tables exchange)
      told := State.told_endOpSlip told op o _
      only := (only.mono (by simp)).trans ((State.endOpSlip_onlyTold _ op o _).mono (by simp)) }

end Sys2Proof.Machine
end

section
/-! SUPPORT. The presence input (R6, R7). -/

namespace Sys2Proof.Machine

variable {s : State} {n : BayNo}

/-- A drive seen in EMPTY: SETTLING with a full settle timer and a SETTLE operation (R6). -/
theorem State.enterSettling_bay (hst : (s.bay n).record.state = .empty) : (s.enterSettling n).bay n =
    { (s.bay n).stands .settling .presence s.time 0 0 (s.bay n).record.flags (some (s.internalOp .settle)) with
      settleAt := some (Time.plus s.time s.settings.timing.settle), absenceAt := none } := by
  unfold State.enterSettling
  rw [State.bay_setOp_same, State.bay_enter_same]
  simp [Bay.entering, Bay.stands, flagsEntering, capture, BayState.fromOff, hst]

theorem State.takePresence_empty (hst : (s.bay n).record.state = .empty) :
    s.takePresence n = ((s.enterSettling n).bayChanged n none).close := by
  simp only [State.takePresence, hst]

theorem State.takePresence_settling (hst : (s.bay n).record.state = .settling) : s.takePresence n =
    s.putBay n { s.bay n with settleAt := some (Time.plus s.time s.settings.timing.settle), absenceAt := none } := by
  simp only [State.takePresence, hst]

theorem State.takePresence_fromOff (hst : (s.bay n).record.state.fromOff = true) :
    s.takePresence n = s.putBay n { s.bay n with absenceAt := none } := by
  unfold State.takePresence; dsimp only
  split <;> simp_all [BayState.fromOff]

theorem State.takeAbsence_empty (hst : (s.bay n).record.state = .empty) : s.takeAbsence n = s := by
  simp only [State.takeAbsence, hst]

theorem State.takeAbsence_settling (hst : (s.bay n).record.state = .settling) : s.takeAbsence n =
    s.putBay n { s.bay n with settleAt := none, absenceAt := some (Time.plus s.time s.settings.timing.debounce) } := by
  simp only [State.takeAbsence, hst]

theorem State.takeAbsence_fromOff (hst : (s.bay n).record.state.fromOff = true) :
    s.takeAbsence n = s.putBay n { s.bay n with absenceAt := some (Time.plus s.time s.settings.timing.debounce) } := by
  unfold State.takeAbsence; dsimp only
  split <;> simp_all [BayState.fromOff]

theorem exec_presenceAssert (s : State) (n : BayNo) : exec (.presenceAssert n) s =
    .next (if (s.line n).presence = false ∧ s.running = true ∧ s.inCount n = true
      then (s.putLine n { s.line n with presence := true }).takePresence n
      else s.putLine n { s.line n with presence := true }) := rfl

theorem exec_presenceDeassert (s : State) (n : BayNo) : exec (.presenceDeassert n) s =
    .next (if (s.line n).presence = true ∧ s.running = true ∧ s.inCount n = true
      then (s.putLine n { s.line n with presence := false }).takeAbsence n
      else s.putLine n { s.line n with presence := false }) := rfl

/-- Settles O14, by the bay's state: the move out of EMPTY is work on the bay brought to its end, every other case moves one timer. -/
theorem presenceTaken : Obligations.PresenceTaken := by
  refine ⟨fun s n hrun hin hpin hst => ?_, fun s n => ?_⟩
  · let t := s.putLine n { s.line n with presence := true }
    have hwork : BayWork n s (t.enterSettling n) :=
      (State.putLine_work _).trans ((t.enter_work n _ _).trans (State.setOp_work _))
    have hfeed : (t.enterSettling n).feed n = s.feed n := t.feed_enter_apart n n .presence (by decide)
    have hline : (t.enterSettling n).line n = { (s.line n).switched false false with presence := true } := by
      show ((t.enter n .settling .presence).setOp n _).line n = _
      rw [State.line_setOp, State.line_enter_same, State.line_putLine_same]; rfl
    obtain ⟨handled, bay, line, feed, exchange, queue⟩ :=
      hwork.left (t.enterSettling_bay hst) hline hfeed (x := s.exchange) (q := s.scheduler.queue) rfl rfl none
    refine ⟨_, ?_, handled, bay, line, feed, exchange, queue, ((t.enterSettling n).bayChanged_onlyPower n).from rfl⟩
    rw [exec_presenceAssert, if_pos ⟨hpin, (State.running_iff s).2 hrun, hin⟩, State.takePresence_empty (s := t) hst]
  · intro up down b taken
    have htaken : taken ↔ s.running = true ∧ s.inCount n = true := by rw [State.running_iff]
    refine ⟨fun h => ?_, fun h hp hst => ?_, fun h hp hst => ?_, fun h => ?_, fun h hp hst => ?_, fun h hp hst => ?_⟩
    · rw [exec_presenceAssert, if_neg]
      rintro ⟨hp, ht⟩
      simp_all
    · rw [exec_presenceAssert, if_pos ⟨hp, htaken.1 h⟩, State.takePresence_settling (s := up) hst]; rfl
    · rw [exec_presenceAssert, if_pos ⟨hp, htaken.1 h⟩, State.takePresence_fromOff (s := up) hst]; rfl
    · rw [exec_presenceDeassert]
      split
      next ht =>
        have hempty : b.record.state = .empty := by simp_all
        rw [State.takeAbsence_empty (s := down) hempty]
      next => rfl
    · rw [exec_presenceDeassert, if_pos ⟨hp, htaken.1 h⟩, State.takeAbsence_settling (s := down) hst]; rfl
    · rw [exec_presenceDeassert, if_pos ⟨hp, htaken.1 h⟩, State.takeAbsence_fromOff (s := down) hst]; rfl

end Sys2Proof.Machine
end

section
/-! SUPPORT. The absence timer's expiry (R6, R20), the latch level (R8) and a trip (R17). -/

namespace Sys2Proof.Machine

variable {s : State} {n : BayNo}

theorem exec_bounce (hrun : s.phase = .running) (hst : (s.bay n).record.state = .settling)
    (hdue : Time.due s.time (s.bay n).absenceAt = true) :
    exec (.bounce n) s = .next ((((s.countBounce n).enter n .empty .bounce).setOp n none).bayChanged n none).close :=
  congrArg _ (if_pos ⟨(State.running_iff s).2 hrun, hst, hdue⟩)

/-- The state of a removed bay before the end of its handling (R20). -/
def State.removed (n : BayNo) (s : State) : State :=
  let ended := ((s.leave n).endOpSlip (s.bay n).record.op .removed (bayResult s n)).setOp n none
  ((ended.setRetries n 0).voidBayFeed n).enter n .empty .removed

theorem exec_surpriseRemoval (hrun : s.phase = .running) (hst : (s.bay n).record.state.fromOff = true)
    (hdue : Time.due s.time (s.bay n).absenceAt = true) :
    exec (.surpriseRemoval n) s = .next ((s.removed n).bayChanged n
      (some (if (s.bay n).record.state.powered then srcBayFault else srcBayChange))).close :=
  congrArg _ (if_pos ⟨(State.running_iff s).2 hrun, hst, hdue⟩)

theorem State.removed_work (s : State) (n : BayNo) : BayWork n s (s.removed n) :=
  (((State.leave_work.trans (State.endOpSlip_work ..)).trans (State.setOp_work _)).trans
    ((State.setRetries_work _).trans State.voidBayFeed_work)).trans (State.enter_work _ n _ _)

/-- The removed bay's slip is told, and nothing else before the end of the handling (R12, R20). -/
theorem State.removed_told (s : State) (n : BayNo) :
    OpSlipTold (s.bay n).record.op s (s.removed n) ∧ OnlyTold [srcSlipEnded] s (s.removed n) := by
  refine State.endsFirst_told (t := s.leave n) (o := .removed) (r := bayResult s n) (by simp) (by simp) ?_
  simp only [State.removed, State.late_enter, State.late_voidBayFeed, State.late_setRetries, State.late_setOp]

/-- Settles O16: a bounce and a removal are each work on the bay brought to its end. -/
theorem absenceExpiryEmptiesBay : Obligations.AbsenceExpiryEmptiesBay := by
  constructor
  · intro s n hrun hst hdue b e
    let t := ((s.countBounce n).enter n .empty .bounce).setOp n none
    have hwork : BayWork n s t := (State.countBounce_work.trans (State.enter_work _ n _ _)).trans (State.setOp_work _)
    have hbay : t.bay n = { e with absenceAt := none, record := { e.record with bounces := b.record.bounces + 1 } } := by
      rw [State.bay_setOp_same, State.bay_enter_same, State.bay_countBounce]; rfl
    have hline : t.line n = (s.line n).switched false false := by
      rw [State.line_setOp, State.line_enter_same]; rfl
    have hfeed : t.feed n = s.feed n := by
      rw [State.feed_setOp, State.feed_enter_apart _ _ _ _ (by decide), State.feed_countBounce]
    obtain ⟨handled, bay, line, feed, exchange, queue⟩ :=
      hwork.left hbay hline hfeed (x := s.exchange) (q := s.scheduler.queue) rfl rfl none
    exact ⟨_, exec_bounce hrun hst hdue, handled, bay, line, feed, exchange, queue, (t.bayChanged_onlyPower n).from rfl⟩
  · intro s n hrun hst hdue b e event
    let t := s.removed n
    have hbay : t.bay n = { e with absenceAt := none, record := { e.record with retries := 0 } } := by
      unfold t State.removed
      rw [State.bay_enter_same, State.bay_voidBayFeed, State.bay_setRetries_same, State.bay_setOp_same, State.bay_endOpSlip, State.bay_leave,
        Bay.entering_empty]
      simp [Bay.stands, e, b]
    have hline : t.line n = (s.line n).switched false false := by
      unfold t State.removed
      rw [State.line_enter_same]
      simp
      rfl
    have hfeed : t.feed n = { s.feed n with entries := ⟨.void, .void⟩, latest := none } := by
      unfold t State.removed
      rw [State.feed_enter_apart _ _ _ _ (by decide), State.feed_voidBayFeed_same]
      simp
    have hexchange : t.exchange = s.exchange.opEnded b.record.op .removed (bayResult s n) s.time := by
      unfold t State.removed
      simp [State.exchange_endOpSlip, b]
    have hqueue : t.scheduler.queue = s.queueWithout n := by
      unfold t State.removed
      simp [State.leave_queue]; rfl
    obtain ⟨handled, bay, line, feed, exchange, queue⟩ := (s.removed_work n).left hbay hline hfeed hexchange hqueue (some event)
    refine ⟨_, exec_surpriseRemoval hrun hst hdue, handled, bay, line, feed, exchange, queue, ?_, t.bayChanged_told n _, ?_⟩
    · exact (s.removed_told n).1.to fun x hx => t.bayChanged_late_subset n _ x hx
    · exact ((s.removed_told n).2.mono (by simp)).trans ((t.bayChanged_onlyTold n event).mono (by simp))

/-! ### The latch level -/

theorem exec_latchOpen_stands (h : ¬ (s.phase = .running ∧ (s.bay n).record.state.fromOff = true) ∨ (s.bay n).record.flags.latchOpen = true) :
    exec (.latchOpen n) s = .next (s.putLine n { s.line n with latch := true }) :=
  congrArg _ (if_neg fun ⟨hrun, hst, hopen⟩ => h.elim (· ⟨(State.running_iff s).1 hrun, hst⟩) (by simp [hopen]))

theorem exec_latchOpen_taken (hrun : s.phase = .running) (hst : (s.bay n).record.state.fromOff = true)
    (hopen : (s.bay n).record.flags.latchOpen = false) :
    exec (.latchOpen n) s = .next ((s.putLine n { s.line n with latch := true }).takeLatchOpen n) :=
  congrArg _ (if_pos ⟨(State.running_iff s).2 hrun, hst, hopen⟩)

theorem exec_latchClose_stands (h : ¬ (s.phase = .running ∧ (s.bay n).record.state.fromOff = true) ∨ (s.bay n).record.flags.latchOpen = false) :
    exec (.latchClose n) s = .next (s.putLine n { s.line n with latch := false }) :=
  congrArg _ (if_neg fun ⟨hrun, hst, hopen⟩ => h.elim (· ⟨(State.running_iff s).1 hrun, hst⟩) (by simp [hopen]))

theorem exec_latchClose_taken (hrun : s.phase = .running) (hst : (s.bay n).record.state.fromOff = true)
    (hopen : (s.bay n).record.flags.latchOpen = true) :
    exec (.latchClose n) s = .next (((s.putLine n { s.line n with latch := false }).setFlags n fun f =>
      { f with latchOpen := false }).bayChanged n (some srcBayChange)).close :=
  congrArg _ (if_pos ⟨(State.running_iff s).2 hrun, hst, hopen⟩)

/-- The latch pin moved and LATCH_OPEN with it, brought to its end (R8). -/
theorem State.latched_left (s : State) (n : BayNo) (l : BayLines) (f : BayFlags → BayFlags) :
    BayLeft n s { s.bay n with record := { (s.bay n).record with flags := f (s.bay n).record.flags } } l (s.feed n) s.exchange
      s.scheduler.queue (((s.putLine n l).setFlags n f).bayChanged n (some srcBayChange)) := by
  have hwork : BayWork n s ((s.putLine n l).setFlags n f) := (State.putLine_work _).trans (State.setFlags_work _)
  refine hwork.left ?_ ?_ rfl rfl rfl _
  · rw [State.bay_setFlags_same, State.bay_putLine]
  · rw [State.line_setFlags, State.line_putLine_same]

/-- Settles O17: each latch level that is taken moves one flag of its bay. -/
theorem latchLevelReported : Obligations.LatchLevelReported := by
  intro s n b f taken
  refine ⟨exec_latchOpen_stands, exec_latchClose_stands, fun ⟨hrun, hst⟩ hopen hstop => ?_, fun ⟨hrun, hst⟩ hopen => ?_⟩
  · let t := s.putLine n { s.line n with latch := true }
    obtain ⟨handled, bay, line, feed, exchange, queue⟩ := s.latched_left n { s.line n with latch := true } fun f => { f with latchOpen := true }
    refine ⟨_, ?_, handled, bay, line, feed, exchange, queue, State.bayChanged_events rfl n _⟩
    rw [exec_latchOpen_taken hrun hst hopen]
    exact congrArg (fun u : State => Host.Outcome.next u.close) (if_neg (show ¬ (b.record.state.powered && (s.baySet n).latchStop) = true by simp [hstop]))
  · obtain ⟨handled, bay, line, feed, exchange, queue⟩ := s.latched_left n { s.line n with latch := false } fun f => { f with latchOpen := false }
    exact ⟨_, exec_latchClose_taken hrun hst hopen, handled, bay, line, feed, exchange, queue, State.bayChanged_events rfl n _⟩

/-! ### A trip -/

/-- The state of a tripped bay before the end of its handling (R17). -/
def State.tripped (n : BayNo) (s : State) : State := (((s.leave n).enter n .faulted .trip).countTrip n).beginRetry n

theorem exec_switchTrip (hrun : s.phase = .running) (hst : (s.bay n).record.state.powered = true) :
    let t := s.putLine n { s.line n with trip := (s.line n).trip || (s.line n).sw5 || (s.line n).sw12 }
    let u := (t.tripped n).bayChanged n (some srcBayFault)
    exec (.switchTrip n) s = .next (u.endOpSlip (s.bay n).record.op .faulted (bayResult u n)).close :=
  congrArg _ (if_pos ⟨(State.running_iff s).2 hrun, hst⟩)

theorem State.bay_beginRetry_same (s : State) (n : BayNo) : (s.beginRetry n).bay n =
    { s.bay n with
      record := { (s.bay n).record with
        op := if (s.bay n).record.retries < s.settings.timing.retryLimit then some (s.internalOp .retryWait) else none }
      backoffAt := if (s.bay n).record.retries < s.settings.timing.retryLimit
        then some (Time.plus s.time (backoffSeconds s.settings.timing.retryBase (s.bay n).record.retries * 1000))
        else (s.bay n).backoffAt } := by
  unfold State.beginRetry
  dsimp only
  split
  · rw [State.bay_putBay_same]
  · rw [State.bay_setOp_same]

/-- Settles O19: the trip is work on its bay, then the end of the operation's slip. -/
theorem tripFaultsBay : Obligations.TripFaultsBay := by
  intro s n hrun hst b r retry e wait
  let t := s.putLine n { s.line n with trip := (s.line n).trip || (s.line n).sw5 || (s.line n).sw12 }
  have hwork : BayWork n s (t.tripped n) := (State.putLine_work _).trans
    (((State.leave_work.trans (State.enter_work _ n _ _)).trans State.countTrip_work).trans State.beginRetry_work)
  have hbay : (t.tripped n).bay n =
      { e with
        record := { e.record with trips := r.trips + 1 }
        backoffAt := if retry then some (Time.plus s.time (wait * 1000)) else none } := by
    unfold State.tripped
    rw [State.bay_beginRetry_same, State.bay_countTrip, State.bay_enter_same, State.bay_leave, State.bay_putLine, Bay.entering_faulted,
      BayFlags.leaving_of_ne_off (by rintro h; simp [h, BayState.powered] at hst)]
    simp [Bay.stands, e, b, r, retry, wait, t, State.internalOp, backoffSeconds, Config.backoffCapS]
  have hline : (t.tripped n).line n = (s.line n).switched false false := by
    unfold State.tripped
    rw [State.line_beginRetry, State.line_countTrip, State.line_enter_same, State.line_leave, State.line_putLine_same]
    simp [BayLines.follow, BayLines.switched, BayState.powered, BayState.spinning]
  have hfeed : (t.tripped n).feed n = s.feed n := by
    unfold State.tripped
    rw [State.feed_beginRetry, State.feed_countTrip, State.feed_enter_apart _ _ _ _ (by decide), State.feed_leave, State.feed_putLine]
  obtain ⟨⟨handled, bay, line, feed, exchange, queue⟩, opTold, told, only⟩ :=
    hwork.endsOp hbay hline hfeed (by simp [State.tripped, t]) (by simp [State.tripped, t, State.leave_queue]; rfl)
      (by simp [State.tripped, t]) r.op .faulted srcBayFault
  exact ⟨_, exec_switchTrip hrun hst, handled, bay, line, feed, exchange, queue, opTold, told, only⟩

end Sys2Proof.Machine
end

section
/-! SUPPORT. The ends of the spin and park windows (R16, R66), sheds (R22, R23) and a deadline in the queue (R71). -/

namespace Sys2Proof.Machine

variable {s : State} {n : BayNo}

/-! ### The spin window and the park window -/

theorem exec_spinWindowEnd (hrun : s.phase = .running) (hst : (s.bay n).record.state = .spinningUp)
    (hdue : Time.due s.time (s.bay n).spinAt = true) :
    let u := ((s.enter n .ready .spunUp).setOp n none).bayChanged n (some srcBayChange)
    exec (.spinWindowEnd n) s = .next (u.endOpSlip (s.bay n).record.op .ok (bayResult u n)).close :=
  congrArg _ (if_pos ⟨(State.running_iff s).2 hrun, hst, hdue⟩)

theorem exec_parkWindowEnd (hrun : s.phase = .running) (hst : (s.bay n).record.state = .spinningDown)
    (hdue : Time.due s.time (s.bay n).parkAt = true) : exec (.parkWindowEnd n) s = .next (s.parked n) :=
  congrArg _ (if_pos ⟨(State.running_iff s).2 hrun, hst, hdue⟩)

/-- A stop arrives in OFF at the end of its park window (R16). -/
theorem State.parked_stop (h : stopInFlight (s.bay n).record.op = true) :
    let t := ((s.enter n .off .parked).setOp n none).setFlags n fun f => { f with removalReady := readiesRemoval (s.bay n).record.op }
    let u := t.bayChanged n (some srcBayChange)
    s.parked n = (u.endOpSlip (s.bay n).record.op .ok (bayResult u n)).close := by
  unfold State.parked
  rw [if_pos h]

/-- How the slip of an operation that is no stop ends at the end of the park window (R16). -/
def parkOutcome : Option Operation → SlipOutcome
  | some o => if o.kind = .spinUp then .cancelled else .ok
  | none => .ok

/-- Any other operation arrives in LOGIC (R16). -/
theorem State.parked_spin (h : stopInFlight (s.bay n).record.op = false) :
    let u := ((s.enter n .logic .parked).setOp n none).bayChanged n (some srcBayChange)
    s.parked n = (u.endOpSlip (s.bay n).record.op (parkOutcome (s.bay n).record.op) (bayResult u n)).close := by
  unfold State.parked
  rw [if_neg (by simp [h])]
  dsimp only
  congr 2
  generalize (s.bay n).record.op = op
  obtain _ | ⟨k, o, a, t, d, m⟩ := op
  · rfl
  · cases k <;> rfl

/-- A bay that leaves SPINNING_UP or SPINNING_DOWN keeps its flags (Table 1-2). -/
theorem BayFlags.leaving_spin {old : BayState} (h : old = .spinningUp ∨ old = .spinningDown) (f : BayFlags) : f.leaving old = f := by
  obtain rfl | rfl := h <;> simp [BayFlags.leaving]

/-- Settles O20: each window's end is work on its bay, then the end of the operation's slip. -/
theorem windowsEndByKind : Obligations.WindowsEndByKind := by
  constructor
  · intro s n hrun hst hdue b
    let t := (s.enter n .ready .spunUp).setOp n none
    have hwork : BayWork n s t := (State.enter_work _ n _ _).trans (State.setOp_work _)
    have hbay : t.bay n = b.stands .ready .spunUp s.time (s.profileOf n).steady12 b.record.c5 b.record.flags none := by
      rw [State.bay_setOp_same, State.bay_enter_same, Bay.entering_ready, BayFlags.leaving_spin (.inl hst)]; rfl
    have hline : t.line n = (s.line n).switched true true := by rw [State.line_setOp, State.line_enter_same]; rfl
    have hfeed : t.feed n = s.feed n := by rw [State.feed_setOp, State.feed_enter_apart _ _ _ _ (by decide)]
    obtain ⟨⟨handled, bay, line, feed, exchange, queue⟩, opTold, told, only⟩ :=
      hwork.endsOp hbay hline hfeed rfl rfl rfl b.record.op .ok srcBayChange
    exact ⟨_, exec_spinWindowEnd hrun hst hdue, handled, bay, line, feed, exchange, queue, opTold, told, only⟩
  · intro s n hrun hst hdue b f op
    cases hstop : stopInFlight op with
    | true =>
      let t := ((s.enter n .off .parked).setOp n none).setFlags n fun f => { f with removalReady := readiesRemoval op }
      have hwork : BayWork n s t := ((State.enter_work _ n _ _).trans (State.setOp_work _)).trans (State.setFlags_work _)
      have hbay : t.bay n = b.stands .off .parked s.time 0 0 { f with removalReady := readiesRemoval op } none := by
        rw [State.bay_setFlags_same, State.bay_setOp_same, State.bay_enter_same, Bay.entering_off, BayFlags.leaving_spin (.inr hst)]; rfl
      have hline : t.line n = (s.line n).switched false false := by
        rw [State.line_setFlags, State.line_setOp, State.line_enter_same]; rfl
      have hfeed : t.feed n = s.feed n := by
        rw [State.feed_setFlags, State.feed_setOp, State.feed_enter_apart _ _ _ _ (by decide)]
      obtain ⟨⟨handled, bay, line, feed, exchange, queue⟩, opTold, told, only⟩ :=
        hwork.endsOp hbay hline hfeed rfl rfl rfl op .ok srcBayChange
      refine ⟨_, (exec_parkWindowEnd hrun hst hdue).trans (congrArg _ (State.parked_stop hstop)), handled, feed, queue, opTold, told, only,
        fun q hq hkind => ⟨?_, line, exchange⟩, fun q hq hkind => absurd hstop ?_⟩
      · have hready : readiesRemoval op = decide (q.kind ≠ .powerOff) := by
          rw [hq]; obtain h | h | h := hkind <;> simp [readiesRemoval, h]
        rw [← hready]; exact bay
      · rw [hq]; obtain h | h := hkind <;> simp [stopInFlight, h]
    | false =>
      let t := (s.enter n .logic .parked).setOp n none
      have hwork : BayWork n s t := (State.enter_work _ n _ _).trans (State.setOp_work _)
      have hbay : t.bay n = b.stands .logic .parked s.time 0 (s.profileOf n).i5
          { wait5v := false, latchOpen := f.latchOpen, removalReady := false, drawHigh := false, shedThermal := false,
            shedPower := false } none := by
        rw [State.bay_setOp_same, State.bay_enter_same, Bay.entering_logic]; rfl
      have hline : t.line n = (s.line n).switched true false := by rw [State.line_setOp, State.line_enter_same]; rfl
      have hfeed : t.feed n = s.feed n := by rw [State.feed_setOp, State.feed_enter_apart _ _ _ _ (by decide)]
      obtain ⟨⟨handled, bay, line, feed, exchange, queue⟩, opTold, told, only⟩ :=
        hwork.endsOp hbay hline hfeed rfl rfl rfl op (parkOutcome op) srcBayChange
      refine ⟨_, (exec_parkWindowEnd hrun hst hdue).trans (congrArg _ (State.parked_spin hstop)), handled, feed, queue, opTold, told, only,
        fun q hq hkind => absurd hstop ?_, fun q hq hkind => ⟨bay, line, ?_⟩⟩
      · rw [hq]; obtain h | h | h := hkind <;> simp [stopInFlight, h]
      · have hout : parkOutcome op = if q.kind = .spinUp then .cancelled else .ok := by rw [hq]; rfl
        rw [← hout]; exact exchange

/-! ### Sheds -/

theorem readiesRemoval_eq (op : Option Operation) : readiesRemoval op =
    match op with
    | none => false
    | some o => decide (o.kind = .prepareRemoval ∨ o.kind = .latchStop) := by
  obtain _ | ⟨k, o, a, t, d, m⟩ := op
  · rfl
  · cases k <;> rfl

theorem State.shed12_declined (k : ShedKind) (h : (s.bay n).record.state.spinning = false) : s.shed12 k n = s := by
  unfold State.shed12; rw [if_neg (by simp [h])]

theorem State.shed12_stop (k : ShedKind) (h : (s.bay n).record.state.spinning = true) (hstop : stopInFlight (s.bay n).record.op = true) :
    let t := (((s.enter n .logic k.reason).setOp n none).enter n .off k.reason).setFlags n fun f =>
      { k.flag f with removalReady := readiesRemoval (s.bay n).record.op }
    let u := t.bayChanged n (some srcBayChange)
    s.shed12 k n = u.endOpSlip (s.bay n).record.op .ok (bayResult u n) := by
  unfold State.shed12; rw [if_pos h]; exact if_pos hstop

theorem State.shed12_logic (k : ShedKind) (h : (s.bay n).record.state.spinning = true) (hstop : stopInFlight (s.bay n).record.op = false) :
    let u := ((s.enter n .logic k.reason).setOp n none).bayChanged n (some srcBayChange)
    s.shed12 k n = u.endOpSlip (s.bay n).record.op .shed (bayResult u n) := by
  unfold State.shed12; rw [if_pos h]; exact if_neg (by simp [hstop])

theorem State.shed5_declined (h : (s.bay n).record.state.powered = false) : s.shed5 n = s := by
  unfold State.shed5; rw [if_neg (by simp [h])]

/-- The state of a bay shed on the 5 V rail before the end of its handling (R23). -/
def State.shedOff (n : BayNo) (s : State) : State :=
  (((s.leave n).enter n .off .shedPower).setOp n none).setFlags n fun f =>
    { f with shedPower := true, removalReady := readiesRemoval (s.bay n).record.op }

theorem State.shed5_powered (h : (s.bay n).record.state.powered = true) :
    let u := (s.shedOff n).bayChanged n (some srcBayChange)
    s.shed5 n = u.endOpSlip (s.bay n).record.op (if stopInFlight (s.bay n).record.op then .ok else .shed) (bayResult u n) := by
  unfold State.shed5; rw [if_pos h]; rfl

theorem BayState.ne_off_of_powered {st : BayState} (h : st.powered = true) : st ≠ .off := by
  rintro rfl; simp [BayState.powered] at h

/-- The flags of a bay that a 12 V shed takes to LOGIC: its own SHED flag set, the other kept, REMOVAL_READY and DRAW_HIGH clear (Table 1-2). -/
theorem flagsEntering_logic_shed (k : ShedKind) (old : BayState) (f : BayFlags) :
    flagsEntering old .logic (if decide (k = .thermal12) = true then .shedThermal else .shedPower) f =
      { wait5v := false, latchOpen := f.latchOpen, removalReady := false, drawHigh := false,
        shedThermal := decide (k = .thermal12) || f.shedThermal, shedPower := !decide (k = .thermal12) || f.shedPower } := by
  cases k <;> simp [flagsEntering]

/-- Settles O27: a 12 V shed with and without a stop in flight, and a 5 V shed, are each work on the bay, then the end of its slip. -/
theorem shedTakenByBay : Obligations.ShedTakenByBay := by
  intro s n k b f op stop ready thermal why u w
  have hready : readiesRemoval op = ready := readiesRemoval_eq op
  refine ⟨fun _ hspin => ?_, State.shed12_declined k, fun hpow => ?_, State.shed5_declined⟩
  · have hwhy : k.reason = why := by cases k <;> rfl
    let l := (s.enter n .logic k.reason).setOp n none
    have hlwork : BayWork n s l := (State.enter_work _ n _ _).trans (State.setOp_work _)
    have hlbay : l.bay n = b.stands .logic why s.time 0 (s.profileOf n).i5
        { wait5v := false, latchOpen := f.latchOpen, removalReady := false, drawHigh := false,
          shedThermal := thermal || f.shedThermal, shedPower := !thermal || f.shedPower } none := by
      rw [State.bay_setOp_same, State.bay_enter_same, Bay.entering_logic, hwhy, flagsEntering_logic_shed]; rfl
    have hlline : l.line n = (s.line n).switched true false := by rw [State.line_setOp, State.line_enter_same]; rfl
    have hlfeed : l.feed n = s.feed n := by rw [State.feed_setOp, State.feed_enter_apart _ _ _ _ (by decide)]
    cases hstop : stopInFlight op with
    | false =>
      obtain ⟨⟨handled, bay, line, feed, exchange, queue⟩, opTold, told, -⟩ :=
        hlwork.endsOp hlbay hlline hlfeed rfl rfl rfl op .shed srcBayChange
      have hu : u = _ := State.shed12_logic k hspin hstop
      rw [hu]
      exact ⟨handled, feed, queue, told, opTold, fun _ => ⟨bay, line, exchange⟩, fun h => absurd (hstop.symm.trans h) (by decide)⟩
    | true =>
      let t := (l.enter n .off k.reason).setFlags n fun f => { k.flag f with removalReady := readiesRemoval op }
      have hwork : BayWork n s t := (hlwork.trans (State.enter_work _ n _ _)).trans (State.setFlags_work _)
      have hbay : t.bay n = b.stands .off why s.time 0 0
          { wait5v := false, latchOpen := f.latchOpen, removalReady := ready, drawHigh := false,
            shedThermal := thermal || f.shedThermal, shedPower := !thermal || f.shedPower } none := by
        rw [State.bay_setFlags_same, State.bay_enter_same, Bay.entering_off, hlbay, hready, hwhy]
        cases k <;> rfl
      have hline : t.line n = (s.line n).switched false false := by
        rw [State.line_setFlags, State.line_enter_same, hlline]
        simp [BayLines.follow, BayLines.switched, BayState.powered, BayState.spinning]
      have hfeed : t.feed n = s.feed n := by
        rw [State.feed_setFlags, State.feed_enter_apart _ _ _ _ (by decide), hlfeed]
      obtain ⟨⟨handled, bay, line, feed, exchange, queue⟩, opTold, told, -⟩ :=
        hwork.endsOp hbay hline hfeed rfl rfl rfl op .ok srcBayChange
      have hu : u = _ := State.shed12_stop k hspin hstop
      rw [hu]
      exact ⟨handled, feed, queue, told, opTold, fun h => absurd (h.symm.trans hstop) (by decide), fun _ => ⟨bay, line, exchange⟩⟩
  · let t := s.shedOff n
    have hwork : BayWork n s t :=
      ((State.leave_work.trans (State.enter_work _ n _ _)).trans (State.setOp_work _)).trans (State.setFlags_work _)
    have hbay : t.bay n = b.stands .off .shedPower s.time 0 0
        { f with removalReady := ready, drawHigh := f.drawHigh && decide (b.record.state ≠ .ready), shedPower := true } none := by
      unfold t State.shedOff
      rw [State.bay_setFlags_same, State.bay_setOp_same, State.bay_enter_same, State.bay_leave, Bay.entering_off,
        BayFlags.leaving_of_ne_off (BayState.ne_off_of_powered hpow), State.leave_time]
      rw [← hready]; rfl
    have hline : t.line n = (s.line n).switched false false := by
      unfold t State.shedOff
      rw [State.line_setFlags, State.line_setOp, State.line_enter_same, State.line_leave]; rfl
    have hfeed : t.feed n = s.feed n := by
      unfold t State.shedOff
      rw [State.feed_setFlags, State.feed_setOp, State.feed_enter_apart _ _ _ _ (by decide), State.feed_leave]
    obtain ⟨⟨handled, bay, line, feed, exchange, queue⟩, opTold, told, only⟩ :=
      hwork.endsOp hbay hline hfeed (by simp [t, State.shedOff]) (s.leave_queue n) (by simp [t, State.shedOff]) op
        (if stop then .ok else .shed) srcBayChange
    have hw : w = _ := State.shed5_powered hpow
    rw [hw]
    exact ⟨handled, feed, queue, told, opTold, bay, line, exchange⟩

/-! ### The queue's entries -/

/-- An entry joins between those of its class and better, and those of a worse class (R56). -/
theorem enqueue_split (e : QueueEntry) {q : List QueueEntry} (h : q.Pairwise (fun d f => d.cls ≤ f.cls)) :
    ∃ front back, q = front ++ back ∧ enqueue e q = front ++ e :: back ∧ (∀ d ∈ front, d.cls ≤ e.cls) ∧ (∀ d ∈ back, e.cls < d.cls) := by
  refine ⟨_, _, (List.takeWhile_append_dropWhile (p := fun x => decide (x.cls ≤ e.cls)) (l := q)).symm, rfl, fun d hd => ?_, ?_⟩
  · simpa using List.mem_takeWhile_imp hd
  · have hback := h.sublist (List.dropWhile_sublist fun x => decide (x.cls ≤ e.cls))
    have hhead := List.head?_dropWhile_not (fun x : QueueEntry => decide (x.cls ≤ e.cls)) q
    generalize q.dropWhile (fun x => decide (x.cls ≤ e.cls)) = back at hback hhead
    cases back with
    | nil => simp
    | cons d back =>
      have hd : e.cls < d.cls := by simpa using hhead
      rintro x hx
      obtain rfl | hx := List.mem_cons.1 hx
      · exact hd
      · exact lt_of_lt_of_le hd (List.rel_of_pairwise_cons hback hx)

theorem exec_deadlineExpiry {o : Operation} (hrun : s.phase = .running) (hst : (s.bay n).record.state = .queued)
    (hop : (s.bay n).record.op = some o) (hdue : Time.due s.time o.deadline = true) :
    exec (.deadlineExpiry n) s = .next (s.timeOut n) :=
  congrArg _ (if_pos ⟨(State.running_iff s).2 hrun, hst, by rw [State.deadlineOf, hop]; exact hdue⟩)

/-- Settles O30: where an entry joins, and a deadline that takes its bay out of the queue to LOGIC. -/
theorem queueEntriesJoinAndTimeOut : Obligations.QueueEntriesJoinAndTimeOut := by
  constructor
  · intro e q hq
    obtain ⟨front, back, hsplit, hjoined, hfront, hback⟩ := enqueue_split e hq
    exact ⟨front, back, hsplit, hjoined, hfront, hback, enqueue_sorted e hq⟩
  · intro s n o hrun hst hop hdue b f
    let t := ((s.leave n).enter n .logic .deadline).setOp n none
    have hwork : BayWork n s t := (State.leave_work.trans (State.enter_work _ n _ _)).trans (State.setOp_work _)
    have hbay : t.bay n = b.stands .logic .deadline s.time 0 (s.profileOf n).i5
        { wait5v := false, latchOpen := f.latchOpen, removalReady := false, drawHigh := false, shedThermal := false,
          shedPower := false } none := by
      rw [State.bay_setOp_same, State.bay_enter_same, State.bay_leave, Bay.entering_logic, State.leave_time,
        State.profileOf_of_settings (s.leave_settings n)]; rfl
    have hline : t.line n = (s.line n).switched true false := by
      rw [State.line_setOp, State.line_enter_same, State.line_leave]; rfl
    have hfeed : t.feed n = s.feed n := by
      rw [State.feed_setOp, State.feed_enter_apart _ _ _ _ (by decide), State.feed_leave]
    obtain ⟨⟨handled, bay, line, feed, exchange, queue⟩, opTold, told, only⟩ :=
      hwork.endsOp hbay hline hfeed (s.exchange_leave n) (s.leave_queue n) (s.late_leave n) b.record.op .timedOut srcBayChange
    refine ⟨_, exec_deadlineExpiry hrun hst hop hdue, handled, bay, line, feed, ?_, queue, hop ▸ opTold, told, only⟩
    rw [← hop]; exact exchange

end Sys2Proof.Machine
end

section
/-! SUPPORT. Stops (R14, R15, R21, R25, R26): a bay freed of a superseded operation, to OFF at once or into its park window. -/

namespace Sys2Proof.Machine

variable {s : State} {n : BayNo}

/-! ### A freed bay -/

/-- A bay that does not wait in the queue has no entry there. -/
theorem State.queueWithout_of_ne_queued (h : s.queueSound) (hst : (s.bay n).record.state ≠ .queued) :
    s.queueWithout n = s.scheduler.queue := by
  obtain ⟨hin, -⟩ := h
  refine List.filter_eq_self.2 fun e he => ?_
  have hne : e.bay ≠ n := fun hn => hst ((hin n).2 (hn ▸ List.mem_map_of_mem he))
  simpa using hne

/-- Work on bay n that freed it of operation `op`, whose slip is told if it ended: its bay then, its lines, the exchange; its entry may be
out of the queue. -/
structure Freed (n : BayNo) (s : State) (op : Option Operation) (b : Bay) (l : BayLines) (x : Exchange) (t : State) : Prop where
  work     : BayWork n s t
  bay      : t.bay n = b
  line     : t.line n = l
  feed     : t.feed n = s.feed n
  exchange : t.exchange = x
  without  : t.queueWithout n = s.queueWithout n
  queue    : s.queueWithout n = s.scheduler.queue → t.scheduler.queue = s.scheduler.queue
  opTold   : OpSlipTold op s t
  only     : OnlyTold [srcSlipEnded] s t

theorem State.supersede_of_supersedable (h : supersedable (s.bay n).record.op = true) :
    s.supersede n = ((s.endOpSlip (s.bay n).record.op .superseded (bayResult s n)).leave n).setOp n none := by
  unfold State.supersede; rw [if_pos h]

theorem State.supersede_of_none (h : (s.bay n).record.op = none) : s.supersede n = s := by
  unfold State.supersede; rw [h]; rfl

/-- No operation has a slip to tell of. -/
theorem OpSlipTold.none (s u : State) : OpSlipTold none s u := fun _ _ _ _ h => absurd h (by simp)

/-- The operation that a stop leaves standing: one that may not be superseded (R14). -/
def unsuperseded (op : Option Operation) : Option Operation := if supersedable op then none else op

/-- The operation that a stop supersedes, if there is one (R14). -/
def superseded (op : Option Operation) : Option Operation := if supersedable op then op else none

theorem superseded_of_free {op : Option Operation} (h : op = none ∨ supersedable op = true) : superseded op = op := by
  obtain rfl | h := h
  · rfl
  · exact if_pos h

/-- Superseding frees the bay of its operation, if it is one that may be superseded (R14). -/
theorem State.supersede_freed (s : State) (n : BayNo) :
    Freed n s (superseded (s.bay n).record.op) { s.bay n with record := { (s.bay n).record with op := unsuperseded (s.bay n).record.op } } (s.line n)
      (s.exchange.opEnded (superseded (s.bay n).record.op) .superseded (bayResult s n) s.time) (s.supersede n) := by
  cases hsup : supersedable (s.bay n).record.op with
  | false =>
    have hstands : s.supersede n = s := by unfold State.supersede; rw [if_neg (by simp [hsup])]
    have hop : unsuperseded (s.bay n).record.op = (s.bay n).record.op := if_neg (by simp [hsup])
    have hsuperseded : superseded (s.bay n).record.op = none := if_neg (by simp [hsup])
    rw [hstands, hop, hsuperseded]
    exact ⟨.refl n s, rfl, rfl, rfl, rfl, rfl, fun _ => rfl, .none s s, .of_late rfl⟩
  | true =>
    have hop : unsuperseded (s.bay n).record.op = none := if_pos hsup
    rw [State.supersede_of_supersedable hsup, hop, superseded_of_free (.inr hsup)]
    have hqueue : (((s.endOpSlip (s.bay n).record.op .superseded (bayResult s n)).leave n).setOp n none).scheduler.queue =
        s.queueWithout n := by
      rw [State.queue_setOp, State.leave_queue, State.queue_endOpSlip]; rfl
    obtain ⟨hopTold, honly⟩ := State.endsFirst_told (s := s) (t := s) (op := (s.bay n).record.op) (o := .superseded) (r := bayResult s n)
      (u := ((s.endOpSlip (s.bay n).record.op .superseded (bayResult s n)).leave n).setOp n none) rfl rfl (by simp)
    exact
      { work := ((State.endOpSlip_work ..).trans State.leave_work).trans (State.setOp_work _)
        bay := by rw [State.bay_setOp_same, State.bay_leave, State.bay_endOpSlip]
        line := by simp
        feed := by simp
        exchange := by simp [State.exchange_endOpSlip]
        without := by rw [State.queueWithout, hqueue]; simp [State.queueWithout]
        queue := fun h => hqueue.trans h
        opTold := hopTold
        only := honly }

/-- A freed bay whose command's slip is kept open. -/
theorem Freed.keepOpen {op : Option Operation} {b : Bay} {l : BayLines} {x : Exchange} {t : State} (h : Freed n s op b l x t) (k : SlipHead)
    (command : Byte) (clamped : Bool) : Freed n s op b l (x.kept k command clamped s.time) (t.keepOpen k command clamped) :=
  { work := h.work.trans (State.keepOpen_work ..)
    bay := h.bay
    line := h.line
    feed := h.feed
    exchange := by
      have htime : t.time = s.time := congrArg Outer.time h.work.outer
      rw [State.exchange_keepOpen, h.exchange, htime]
    without := h.without
    queue := h.queue
    opTold := h.opTold.to fun _ => id
    only := h.only }

/-- Work before the freeing is part of it. -/
theorem Freed.after {op : Option Operation} {b : Bay} {l : BayLines} {x : Exchange} {t u : State} (h : Freed n t op b l x u)
    (work : BayWork n s t) (feed : t.feed n = s.feed n) (tables : t.exchange.tables = s.exchange.tables) (queue : t.scheduler.queue = s.scheduler.queue)
    (late : t.late = s.late) : Freed n s op b l x u :=
  { work := work.trans h.work
    bay := h.bay
    line := h.line
    feed := h.feed.trans feed
    exchange := h.exchange
    without := h.without.trans (by unfold State.queueWithout; rw [queue])
    queue := fun hq => (h.queue (by rw [State.queueWithout, queue]; exact hq)).trans queue
    opTold := h.opTold.from tables
    only := h.only.from late }

/-! ### To OFF, into the park window, or on in it -/

variable {op : Option Operation} {b : Bay} {l : BayLines} {x : Exchange} {t : State}

/-- The end of a freed bay's handling tells its event. -/
theorem Freed.ends {v : State} {c : Bay} {m : BayLines} {q : List QueueEntry} (h : Freed n s op b l x t) (work : BayWork n t v)
    (bay : v.bay n = c) (line : v.line n = m) (feed : v.feed n = t.feed n) (exchange : v.exchange = t.exchange) (queue : v.scheduler.queue = q)
    (late : v.late = t.late) (i : Fin 8) : BayTold n s op i c m x q (v.bayChanged n (some i)) :=
  { left := (h.work.trans work).left bay line (feed.trans h.feed) (exchange.trans h.exchange) queue _
    opTold := h.opTold.to fun e he => v.bayChanged_late_subset n _ e (late ▸ he)
    told := v.bayChanged_told n i
    only := (h.only.mono (by simp)).trans (((v.bayChanged_onlyTold n i).from late).mono (by simp)) }

/-- A stop that takes a freed bay to OFF at once (R14). -/
theorem Freed.stopToOff (h : Freed n s op b l x t) (hst : b.record.state = .logic ∨ b.record.state = .queued)
    (why : Reason) (ready : Bool) :
    BayTold n s op srcBayChange (b.stands .off why s.time 0 0 { b.record.flags with removalReady := ready } none) (l.switched false false) x
      (s.queueWithout n) (t.stopToOff n why ready) := by
  have htime : t.time = s.time := congrArg Outer.time h.work.outer
  refine h.ends (v := (((t.leave n).enter n .off why).setOp n none).setFlags n fun f => { f with removalReady := ready })
    (((State.leave_work.trans (State.enter_work _ n _ _)).trans (State.setOp_work _)).trans (State.setFlags_work _)) ?_ ?_ ?_ ?_ ?_ ?_ srcBayChange
  · rw [State.bay_setFlags_same, State.bay_setOp_same, State.bay_enter_same, State.bay_leave, Bay.entering_off, State.leave_time, htime, h.bay]
    obtain hst | hst := hst <;> simp [Bay.stands, BayFlags.leaving, hst]
  · rw [State.line_setFlags, State.line_setOp, State.line_enter_same, State.line_leave, h.line]; rfl
  · rw [State.feed_setFlags, State.feed_setOp, State.feed_enter_apart _ _ _ _ (by decide), State.feed_leave]
  · simp
  · exact (t.leave_queue n).trans h.without
  · simp

/-- A stop that takes a freed bay into its park window under a new operation (R15). -/
theorem Freed.stopToPark (h : Freed n s op b l x t) (hst : b.record.state = .ready ∨ b.record.state = .spinningUp)
    (hq : s.queueWithout n = s.scheduler.queue) (why : Reason) (o : Operation) :
    BayTold n s op srcBayChange
      { b.stands .spinningDown why s.time b.record.c12 b.record.c5
          { b.record.flags with drawHigh := b.record.flags.drawHigh && decide (b.record.state ≠ .ready) } (some o) with
        parkAt := some (Time.plus s.time (s.profileOf n).park) } (l.switched true true) x s.scheduler.queue (t.stopToPark n why o) := by
  have htime : t.time = s.time := congrArg Outer.time h.work.outer
  have hset : t.settings = s.settings := congrArg Outer.settings h.work.outer
  refine h.ends (v := (t.enter n .spinningDown why).setOp n (some o)) ((State.enter_work _ n _ _).trans (State.setOp_work _)) ?_ ?_ ?_ rfl
    (h.queue hq) rfl srcBayChange
  · rw [State.bay_setOp_same, State.bay_enter_same, Bay.entering_spinningDown, htime, State.profileOf_of_settings hset, h.bay,
      BayFlags.leaving_of_ne_off (by obtain h | h := hst <;> simp [h])]
    rfl
  · rw [State.line_setOp, State.line_enter_same, h.line]
    simp [BayLines.follow, BayLines.switched, BayState.powered, BayState.spinning]
  · rw [State.feed_setOp, State.feed_enter_apart _ _ _ _ (by decide)]

/-- A stop that goes on with a freed bay's park window under a new operation (R14). -/
theorem Freed.stopParking (h : Freed n s op b l x t) (hq : s.queueWithout n = s.scheduler.queue) (o : Operation) (i : Fin 8) :
    BayTold n s op i { b with record := { b.record with op := some o } } l x s.scheduler.queue
      ((t.setOp n (some o)).bayChanged n (some i)) := by
  refine h.ends (State.setOp_work _) ?_ ?_ rfl rfl (h.queue hq) rfl i
  · rw [State.bay_setOp_same, h.bay]
  · rw [State.line_setOp, h.line]

/-- As `Freed.stopParking`, with no event of the bay's own (R26). -/
theorem Freed.parksOn (h : Freed n s op b l x t) (hq : s.queueWithout n = s.scheduler.queue) (o : Operation) :
    let u := (t.setOp n (some o)).bayChanged n none
    BayLeft n s { b with record := { b.record with op := some o } } l (s.feed n) x s.scheduler.queue u ∧ OpSlipTold op s u ∧
      OnlyTold [srcPower, srcSlipEnded] s u := by
  let v := t.setOp n (some o)
  have hbay : v.bay n = { b with record := { b.record with op := some o } } := by rw [State.bay_setOp_same, h.bay]
  have hline : v.line n = l := by rw [State.line_setOp, h.line]
  exact ⟨(h.work.trans (State.setOp_work _)).left hbay hline h.feed h.exchange (h.queue hq) none,
    h.opTold.to fun e he => v.bayChanged_late_subset n none e he,
    (h.only.mono (by simp)).trans ((v.bayChanged_onlyPower n).mono (by simp))⟩

end Sys2Proof.Machine
end

section
/-! SUPPORT. A latch stop (R8, R21) and POWER_OFF and PREPARE_REMOVAL (R25, R26). -/

namespace Sys2Proof.Machine

variable {s : State} {n : BayNo}

theorem State.latchStop_stopping (h : stopInFlight (s.bay n).record.op = true) : s.latchStop n = s.bayChanged n (some srcBayChange) := by
  unfold State.latchStop
  generalize (s.bay n).record.op = op at h
  obtain _ | ⟨k, o, a, t, d, m⟩ := op
  · simp [stopInFlight] at h
  · cases k <;> first | rfl | simp [stopInFlight] at h

/-- What a latch stop does to a bay with no stop in flight (R21). -/
def State.latchFreed (n : BayNo) (s : State) : State :=
  let t := s.supersede n
  match (s.bay n).record.state with
  | .logic | .queued => t.stopToOff n .latch true
  | .ready | .spinningUp => t.stopToPark n .latch (s.internalOp .latchStop)
  | _ => (t.setOp n (some (s.internalOp .latchStop))).bayChanged n (some srcBayChange)

theorem State.latchStop_free (h : stopInFlight (s.bay n).record.op = false) : s.latchStop n = s.latchFreed n := by
  unfold State.latchStop
  split
  · simp_all [stopInFlight]
  · simp_all [stopInFlight]
  · simp_all [stopInFlight]
  · rfl

/-- The latch seen open (R8): its pin and LATCH_OPEN. -/
def State.latchedOpen (n : BayNo) (s : State) : State :=
  (s.putLine n { s.line n with latch := true }).setFlags n fun f => { f with latchOpen := true }

theorem State.takeLatchOpen_stop (hpow : (s.bay n).record.state.powered = true) (hstop : (s.baySet n).latchStop = true) :
    (s.putLine n { s.line n with latch := true }).takeLatchOpen n = ((s.latchedOpen n).latchStop n).close :=
  congrArg State.close (if_pos (show ((s.bay n).record.state.powered && (s.baySet n).latchStop) = true by rw [hpow, hstop]; rfl))

theorem State.latchFreed_toOff (hst : (s.bay n).record.state = .logic ∨ (s.bay n).record.state = .queued) :
    s.latchFreed n = (s.supersede n).stopToOff n .latch true := by
  unfold State.latchFreed
  obtain hst | hst := hst <;> rw [hst]

theorem State.latchFreed_toPark (hst : (s.bay n).record.state = .ready ∨ (s.bay n).record.state = .spinningUp) :
    s.latchFreed n = (s.supersede n).stopToPark n .latch (s.internalOp .latchStop) := by
  unfold State.latchFreed
  obtain hst | hst := hst <;> rw [hst]

theorem State.latchFreed_parking (hst : (s.bay n).record.state = .spinningDown) :
    s.latchFreed n = ((s.supersede n).setOp n (some (s.internalOp .latchStop))).bayChanged n (some srcBayChange) := by
  unfold State.latchFreed
  rw [hst]

/-- The powered states, as a stop divides them (R14, R21). -/
theorem BayState.powered_cases {st : BayState} (h : st.powered = true) :
    (st = .logic ∨ st = .queued) ∨ (st = .ready ∨ st = .spinningUp) ∨ st = .spinningDown := by
  cases st <;> simp_all [BayState.powered]

/-- An operation that may be superseded is no stop. -/
theorem not_stopping_of_free {op : Option Operation} (h : op = none ∨ supersedable op = true) : stopInFlight op = false := by
  obtain rfl | h := h
  · rfl
  · obtain _ | ⟨k, o, a, t, d, m⟩ := op
    · rfl
    · cases k <;> simp_all [supersedable, stopInFlight]

/-- Settles O18: a stop in flight goes on; else the bay is freed of its operation, and goes on by its state. -/
theorem latchStopProceedsByState : Obligations.LatchStopProceedsByState := by
  intro s n hrun hsound hpow hopen hstop b st op f ended free
  have hexec : exec (.latchOpen n) s = .next (((s.latchedOpen n).latchStop n)).close := by
    have hfrom : (s.bay n).record.state.fromOff = true := by
      obtain (h | h) | (h | h) | h := BayState.powered_cases hpow <;> rw [h] <;> rfl
    rw [exec_latchOpen_taken hrun hfrom hopen, State.takeLatchOpen_stop hpow hstop]
  have hlatched : BayLeft n s { b with record := { b.record with flags := f } } { s.line n with latch := true } (s.feed n) s.exchange
      s.scheduler.queue ((s.latchedOpen n).bayChanged n (some srcBayChange)) :=
    s.latched_left n { s.line n with latch := true } fun f => { f with latchOpen := true }
  let a := s.latchedOpen n
  have habay : a.bay n = { b with record := { b.record with flags := f } } := by
    unfold a State.latchedOpen; rw [State.bay_setFlags_same, State.bay_putLine]
  have haline : a.line n = { s.line n with latch := true } := by
    unfold a State.latchedOpen; rw [State.line_setFlags, State.line_putLine_same]
  cases hflight : stopInFlight op with
  | true =>
    obtain ⟨handled, bay, line, feed, exchange, queue⟩ := hlatched
    have hnot : ¬ free := fun h => absurd (hflight.symm.trans (not_stopping_of_free h)) (by decide)
    refine ⟨_, ?_, handled, feed, State.bayChanged_told _ n _, ((State.bayChanged_onlyTold _ n _).from rfl).mono (by simp),
      fun _ => ⟨bay, line, exchange, queue⟩, fun h => absurd h hnot, fun h => absurd h hnot, fun h => absurd h hnot⟩
    rw [hexec, State.latchStop_stopping]
    rw [habay]; exact hflight
  | false =>
    have hfreed : Freed n s (superseded op) { b with record := { b.record with flags := f, op := unsuperseded op } }
        { s.line n with latch := true } (s.exchange.opEnded (superseded op) .superseded
          [BitVec.ofNat 8 st.code, BitVec.ofNat 8 b.record.reason.code, f.byte] s.time) (a.supersede n) := by
      have hfreed := a.supersede_freed n
      rw [haline, bayResult, habay] at hfreed
      exact hfreed.after ((State.putLine_work _).trans (State.setFlags_work _)) rfl rfl rfl rfl
    have hstop' : a.latchStop n = a.latchFreed n := State.latchStop_free (by rw [habay]; exact hflight)
    have hop (h : free) : superseded op = op := superseded_of_free h
    have hx (h : free) : s.exchange.opEnded (superseded op) .superseded
        [BitVec.ofNat 8 st.code, BitVec.ofNat 8 b.record.reason.code, f.byte] s.time = ended := by rw [hop h]
    have hflags : (a.bay n).record.state = st := by rw [habay]
    obtain hlow | hhigh | hdown := BayState.powered_cases (st := st) hpow
    · obtain ⟨⟨handled, bay, line, feed, exchange, queue⟩, opTold, told, only⟩ := hfreed.stopToOff hlow .latch true
      refine ⟨_, ?_, handled, feed, told, only, fun h => absurd h (by decide),
        fun h _ => ⟨bay, line, exchange.trans (hx h), queue, hop h ▸ opTold⟩, fun _ h => ?_, fun _ h => ?_⟩
      · rw [hexec, hstop', State.latchFreed_toOff (by rw [hflags]; exact hlow)]
      · obtain hlow | hlow := hlow <;> simp [hlow] at h
      · obtain hlow | hlow := hlow <;> simp [hlow] at h
    · have hqueued : st ≠ .queued := by obtain h | h := hhigh <;> simp [h]
      obtain ⟨⟨handled, bay, line, feed, exchange, queue⟩, opTold, told, only⟩ :=
        hfreed.stopToPark hhigh (State.queueWithout_of_ne_queued hsound hqueued) .latch (s.internalOp .latchStop)
      refine ⟨_, ?_, handled, feed, told, only, fun h => absurd h (by decide), fun _ h => ?_,
        fun h _ => ⟨bay, line, exchange.trans (hx h), queue, hop h ▸ opTold⟩, fun _ h => ?_⟩
      · rw [hexec, hstop', State.latchFreed_toPark (by rw [hflags]; exact hhigh)]; rfl
      · obtain hhigh | hhigh := hhigh <;> simp [hhigh] at h
      · obtain hhigh | hhigh := hhigh <;> simp [hhigh] at h
    · have hqueued : st ≠ .queued := by simp [hdown]
      obtain ⟨⟨handled, bay, line, feed, exchange, queue⟩, opTold, told, only⟩ :=
        hfreed.stopParking (State.queueWithout_of_ne_queued hsound hqueued) (s.internalOp .latchStop) srcBayChange
      refine ⟨_, ?_, handled, feed, told, only, fun h => absurd h (by decide), fun _ h => ?_, fun _ h => ?_,
        fun h _ => ⟨bay, line, exchange.trans (hx h), queue, hop h ▸ opTold⟩⟩
      · rw [hexec, hstop', State.latchFreed_parking (by rw [hflags]; exact hdown)]; rfl
      · simp [hdown] at h
      · simp [hdown] at h

/-! ### POWER_OFF and PREPARE_REMOVAL -/

section
variable {h : SlipHead} {kind : OpKind} {command : Byte} {ready : Bool}

theorem exec_stop_taken (ht : s.takeable h = true) (hn : s.bayTarget h.target = some n) (ready : Bool) :
    exec (if ready then .prepareRemoval h else .powerOff h) s =
      .next (((s.markTaken h.addr).stopBay h (if ready then .prepareRemoval else .powerOff) (if ready then 0x12 else 0x11) ready n).finishSlip
        h.port) := by
  cases ready
  · exact congrArg _ (State.slipCommand_onBay (fun n u => u.stopBay h .powerOff cmdPowerOff false n) ht hn)
  · exact congrArg _ (State.slipCommand_onBay (fun n u => u.stopBay h .prepareRemoval cmdPrepareRemoval true n) ht hn)

theorem State.stopBay_badState (hst : (s.bay n).record.state = .empty ∨ (s.bay n).record.state = .settling ∨
    (s.bay n).record.state = .faulted) : s.stopBay h kind command ready n = s.endBay h n .badState := by
  unfold State.stopBay
  obtain hst | hst | hst := hst <;> simp only [hst]

theorem State.stopBay_off (hst : (s.bay n).record.state = .off) :
    s.stopBay h kind command ready n = (s.restFlags n ready).endBay h n .ok := by
  unfold State.stopBay
  simp only [hst]

theorem State.stopBay_busy (hst : (s.bay n).record.state.powered = true)
    (hbusy : ¬ ((s.bay n).record.op = none ∨ supersedable (s.bay n).record.op = true)) :
    s.stopBay h kind command ready n = s.endBay h n .bayBusy := by
  have hbusy' : ¬ ((s.bay n).record.op.isNone = true ∨ supersedable (s.bay n).record.op = true) := by simpa using hbusy
  unfold State.stopBay
  obtain (hst | hst) | (hst | hst) | hst := BayState.powered_cases hst <;> simp only [hst, if_neg hbusy']

theorem State.stopBay_toOff (hst : (s.bay n).record.state = .logic ∨ (s.bay n).record.state = .queued)
    (hfree : (s.bay n).record.op = none ∨ supersedable (s.bay n).record.op = true) :
    s.stopBay h kind command ready n = ((s.supersede n).stopToOff n .command ready).endBay h n .ok := by
  have hfree' : (s.bay n).record.op.isNone = true ∨ supersedable (s.bay n).record.op = true := by simpa using hfree
  unfold State.stopBay
  obtain hst | hst := hst <;> simp only [hst, if_pos hfree']

theorem State.stopBay_toPark (hst : (s.bay n).record.state = .ready ∨ (s.bay n).record.state = .spinningUp)
    (hfree : (s.bay n).record.op = none ∨ supersedable (s.bay n).record.op = true) :
    s.stopBay h kind command ready n = ((s.supersede n).keepOpen h command false).stopToPark n .command (s.slipOp h kind none) := by
  have hfree' : (s.bay n).record.op.isNone = true ∨ supersedable (s.bay n).record.op = true := by simpa using hfree
  unfold State.stopBay
  obtain hst | hst := hst <;> simp only [hst, if_pos hfree']

theorem State.stopBay_parking (hst : (s.bay n).record.state = .spinningDown)
    (hfree : (s.bay n).record.op = none ∨ supersedable (s.bay n).record.op = true) :
    s.stopBay h kind command ready n =
      (((s.supersede n).keepOpen h command false).setOp n (some (s.slipOp h kind none))).bayChanged n none := by
  have hfree' : (s.bay n).record.op.isNone = true ∨ supersedable (s.bay n).record.op = true := by simpa using hfree
  unfold State.stopBay
  simp only [hst, if_pos hfree']

end

/-- The flags of a bay that rests in OFF after a stop command: WAIT_5V clear, REMOVAL_READY for a removal (R25, R26). -/
def BayFlags.rested (f : BayFlags) (ready : Bool) : BayFlags := { f with wait5v := false, removalReady := f.removalReady || ready }

theorem State.restFlags_same (ready : Bool) (hf : (s.bay n).record.flags.rested ready = (s.bay n).record.flags) : s.restFlags n ready = s :=
  if_pos hf

theorem State.restFlags_moved (ready : Bool) (hf : (s.bay n).record.flags.rested ready ≠ (s.bay n).record.flags) :
    s.restFlags n ready = (s.setFlags n fun _ => (s.bay n).record.flags.rested ready).bayChanged n (some srcBayChange) :=
  if_neg hf

/-- Settles O22: R25's and R26's cases by the bay's state and operation. -/
theorem stopByState : Obligations.StopByState := by
  intro s h n ready htake htarget hsound cmd kind code b st op f rest refused ended free new
  let t := s.markTaken h.addr
  have hexec : exec cmd s = .next ((t.stopBay h kind code ready n).finishSlip h.port) := exec_stop_taken htake htarget ready
  have hrefused {o : SlipOutcome} (hwork : t.stopBay h kind code ready n = t.endBay h n o) : refused o := by
    show exec cmd s = _
    rw [hexec, hwork, State.endBay_markTaken]
  have hends {u : State} (hwork : t.stopBay h kind code ready n = u.endBay h n .ok) :
      exec cmd s = .next ((u.endTaken h .ok false false (some (bayResult u n))).finishSlip h.port) := by
    rw [hexec, hwork]; rfl
  have hfreed : Freed n s (superseded op) { b with record := { b.record with op := unsuperseded op } } (s.line n)
      ((s.exchange.take h.addr).opEnded (superseded op) .superseded (bayResult s n) s.time) (t.supersede n) :=
    (t.supersede_freed n).after (s.markTaken_work n _) rfl rfl rfl rfl
  have hop (h : free) : superseded op = op := superseded_of_free h
  have hx (hf : free) : (s.exchange.take h.addr).opEnded (superseded op) .superseded (bayResult s n) s.time = ended := by rw [hop hf]
  refine ⟨fun hst => hrefused (State.stopBay_badState hst), fun hst hrest => hrefused ?_, fun hst hbusy => hrefused (State.stopBay_busy hst hbusy),
    fun hst hrest => ?_, fun hst hfree => ?_, fun hst hfree => ?_, fun hst hfree => ?_⟩
  · rw [State.stopBay_off (s := t) hst, State.restFlags_same (s := t) ready hrest]
  · have hwork : BayWork n s (t.setFlags n fun _ => rest) := (s.markTaken_work n _).trans (State.setFlags_work _)
    obtain ⟨handled, bay, line, feed, exchange, queue⟩ := hwork.left (State.bay_setFlags_same ..) rfl rfl rfl rfl (some srcBayChange)
    refine ⟨_, hends ?_, handled, bay, line, feed, exchange, queue, State.bayChanged_events rfl n _⟩
    rw [State.stopBay_off (s := t) hst, State.restFlags_moved (s := t) ready hrest]; rfl
  · obtain ⟨⟨handled, bay, line, feed, exchange, queue⟩, opTold, told, only⟩ := hfreed.stopToOff hst .command ready
    exact ⟨_, hends (State.stopBay_toOff hst hfree), handled, bay, line, feed, exchange.trans (hx hfree), queue, hop hfree ▸ opTold, told, only⟩
  · have hqueued : st ≠ .queued := by obtain h | h := hst <;> simp [h]
    obtain ⟨⟨handled, bay, line, feed, exchange, queue⟩, opTold, told, only⟩ :=
      (hfreed.keepOpen h code false).stopToPark hst.symm (State.queueWithout_of_ne_queued hsound hqueued) .command new
    refine ⟨_, ?_, handled, bay, line, feed, exchange.trans (by rw [hx hfree]), queue, hop hfree ▸ opTold, told, only⟩
    rw [hexec, State.stopBay_toPark (s := t) hst.symm hfree]; rfl
  · have hqueued : st ≠ .queued := by simp [hst]
    obtain ⟨⟨handled, bay, line, feed, exchange, queue⟩, opTold, only⟩ :=
      (hfreed.keepOpen h code false).parksOn (State.queueWithout_of_ne_queued hsound hqueued) new
    refine ⟨_, ?_, handled, bay, line, feed, exchange.trans (by rw [hx hfree]), queue, hop hfree ▸ opTold, only⟩
    rw [hexec, State.stopBay_parking (s := t) hst hfree]; rfl

end Sys2Proof.Machine
end

section
/-! SUPPORT. SPIN_UP and SPIN_DOWN by the state of their bay (R68, R69, R76, R77). -/

namespace Sys2Proof.Machine

variable {s : State} {h : SlipHead} {n : BayNo} {seconds : Half}

theorem exec_spinUp_taken (ht : s.takeable h = true) (hn : s.bayTarget h.target = some n) (seconds : Half) :
    exec (.spinUp h seconds) s = .next (((s.markTaken h.addr).spinUp h seconds n).finishSlip h.port) :=
  congrArg _ (State.slipCommand_onBay (fun n u => u.spinUp h seconds n) ht hn)

theorem exec_spinDown_taken (ht : s.takeable h = true) (hn : s.bayTarget h.target = some n) :
    exec (.spinDown h) s = .next (((s.markTaken h.addr).spinDown h n).finishSlip h.port) :=
  congrArg _ (State.slipCommand_onBay (fun n u => u.spinDown h n) ht hn)

/-- A bay that leaves neither OFF nor READY keeps its flags (Table 1-2). -/
theorem BayFlags.leaving_neither {old : BayState} (hoff : old ≠ .off) (hready : old ≠ .ready) (f : BayFlags) : f.leaving old = f := by
  simp [BayFlags.leaving, hoff, hready]

/-- A bay that leaves READY clears DRAW_HIGH (Table 1-2). -/
theorem BayFlags.leaving_ready (f : BayFlags) : f.leaving .ready = { f with drawHigh := false } := by simp [BayFlags.leaving]

/-! ### SPIN_UP -/

/-- A SPIN_UP that ends at its take. -/
def State.spinUpEnds (h : SlipHead) (seconds : Half) (n : BayNo) (o : SlipOutcome) (s : State) : State :=
  s.endTaken h o (deadlineClamped seconds) false (some (bayResult s n))

theorem State.spinUp_badState (hst : (s.bay n).record.state = .empty ∨ (s.bay n).record.state = .settling ∨
    (s.bay n).record.state = .faulted) : s.spinUp h seconds n = s.spinUpEnds h seconds n .badState := by
  unfold State.spinUp
  obtain hst | hst | hst := hst <;> simp only [hst] <;> rfl

theorem State.spinUp_ready (hst : (s.bay n).record.state = .ready) : s.spinUp h seconds n = s.spinUpEnds h seconds n .ok := by
  unfold State.spinUp
  simp only [hst]; rfl

theorem State.spinUp_spinning (hst : (s.bay n).record.state = .queued ∨ (s.bay n).record.state = .spinningUp ∨
    (s.bay n).record.state = .spinningDown) : s.spinUp h seconds n = s.spinUpEnds h seconds n .bayBusy := by
  unfold State.spinUp
  obtain hst | hst | hst := hst <;> simp only [hst] <;> rfl

theorem State.spinUp_busy (hst : (s.bay n).record.state = .off ∨ (s.bay n).record.state = .logic) (hop : (s.bay n).record.op ≠ none) :
    s.spinUp h seconds n = s.spinUpEnds h seconds n .bayBusy := by
  have hsome : (s.bay n).record.op.isSome = true := Option.isSome_iff_ne_none.2 hop
  unfold State.spinUp
  obtain hst | hst := hst <;> simp only [hst, if_pos hsome] <;> rfl

theorem State.spinUp_noBudget (hst : (s.bay n).record.state = .off) (hop : (s.bay n).record.op = none)
    (hfit : ¬ s.account.committed5 + (s.profileOf n).i5 ≤ s.account.usable5) :
    s.spinUp h seconds n = s.spinUpEnds h seconds n .noBudget := by
  have hfits : ¬ s.fits5 n = true := by simpa [State.fits5] using hfit
  unfold State.spinUp
  simp only [hst, hop]
  exact if_neg hfits

theorem State.spinUp_queues (hst : (s.bay n).record.state = .off ∧ s.account.committed5 + (s.profileOf n).i5 ≤ s.account.usable5 ∨
    (s.bay n).record.state = .logic) (hop : (s.bay n).record.op = none) : s.spinUp h seconds n = s.queueSpinUp h n seconds := by
  unfold State.spinUp
  obtain ⟨hst, hfit⟩ | hst := hst
  · have hfits : s.fits5 n = true := by simpa [State.fits5] using hfit
    simp only [hst, hop]
    exact if_pos hfits
  · simp only [hst, hop]; rfl

theorem BayWork.time {t : State} (w : BayWork n s t) : t.time = s.time := congrArg Outer.time w.outer
theorem BayWork.settings {t : State} (w : BayWork n s t) : t.settings = s.settings := congrArg Outer.settings w.outer

/-- The bay in LOGIC that a SPIN_UP queues: from OFF through LOGIC, or as it stands (R68). -/
def State.readied (n : BayNo) (s : State) : State := if (s.bay n).record.state = .off then s.enter n .logic .command else s

/-- The bay queued, its operation opened and its slip kept open, before its entry joins (R68). -/
def State.spinQueued (h : SlipHead) (n : BayNo) (seconds : Half) (s : State) : State :=
  ((((s.readied n).enter n .queued .command).setFlags n fun f => { f with shedThermal := false, shedPower := false }).setOp n
    (some (s.slipOp h .spinUp (spinDeadline seconds s.time)))).keepOpen h cmdSpinUp (deadlineClamped seconds)

theorem State.queueSpinUp_eq : s.queueSpinUp h n seconds =
    (State.join ((s.spinQueued h n seconds).entryOf n (some h.addr) (spinDeadline seconds s.time)) (s.spinQueued h n seconds)).bayChanged n
      (some srcBayChange) := rfl

theorem State.readied_off (hst : (s.bay n).record.state = .off) : s.readied n = s.enter n .logic .command := if_pos hst

theorem State.readied_logic (hst : (s.bay n).record.state = .logic) : s.readied n = s := if_neg (by simp [hst])

theorem State.readied_work : BayWork n s (s.readied n) := by
  unfold State.readied
  split
  · exact State.enter_work _ n _ _
  · exact .refl n s

theorem State.spinQueued_work : BayWork n s (s.spinQueued h n seconds) :=
  (((State.readied_work.trans (State.enter_work _ n _ _)).trans (State.setFlags_work _)).trans (State.setOp_work _)).trans
    (State.keepOpen_work ..)

@[simp] theorem State.readied_exchange : (s.readied n).exchange = s.exchange := by
  unfold State.readied; split <;> rfl
@[simp] theorem State.readied_scheduler : (s.readied n).scheduler = s.scheduler := by
  unfold State.readied; split <;> rfl
@[simp] theorem State.readied_late : (s.readied n).late = s.late := by
  unfold State.readied; split <;> rfl
@[simp] theorem State.readied_time : (s.readied n).time = s.time := congrArg Outer.time State.readied_work.outer
@[simp] theorem State.readied_feed : (s.readied n).feed n = s.feed n := by
  unfold State.readied; split
  · exact State.feed_enter_apart _ _ _ _ (by decide)
  · rfl

/-! ### SPIN_DOWN -/

theorem State.spinDown_badState (hst : (s.bay n).record.state = .empty ∨ (s.bay n).record.state = .settling ∨
    (s.bay n).record.state = .faulted ∨ (s.bay n).record.state = .queued ∨ (s.bay n).record.state = .spinningUp) :
    s.spinDown h n = s.endBay h n .badState := by
  unfold State.spinDown
  obtain hst | hst | hst | hst | hst := hst <;> rw [hst]

theorem State.spinDown_ok (hst : (s.bay n).record.state = .off ∨ (s.bay n).record.state = .logic) : s.spinDown h n = s.endBay h n .ok := by
  unfold State.spinDown
  obtain hst | hst := hst <;> rw [hst]

theorem State.spinDown_busy (hst : (s.bay n).record.state = .spinningDown ∨ (s.bay n).record.state = .ready ∧ (s.bay n).record.op ≠ none) :
    s.spinDown h n = s.endBay h n .bayBusy := by
  unfold State.spinDown
  obtain hst | ⟨hst, hop⟩ := hst
  · rw [hst]
  · rw [hst]; exact if_pos (Option.isSome_iff_ne_none.2 hop)

theorem State.spinDown_parks (hst : (s.bay n).record.state = .ready) (hop : (s.bay n).record.op = none) :
    s.spinDown h n = (s.keepOpen h cmdSpinDown false).stopToPark n .command (s.slipOp h .spinDown none) := by
  unfold State.spinDown
  rw [hst]; exact if_neg (by simp [hop])

/-- Settles O33, by the bay's state: each refusal at the take, SPIN_UP's way into the queue, SPIN_DOWN's into the park window. -/
theorem spinUpAndDownByState : Obligations.SpinUpAndDownByState := by
  constructor
  · intro s h seconds n htake htarget b f p clamped deadline ends op fits
    let t := s.markTaken h.addr
    have hexec : exec (.spinUp h seconds) s = .next ((t.spinUp h seconds n).finishSlip h.port) := exec_spinUp_taken htake htarget seconds
    have hends {o : SlipOutcome} (hwork : t.spinUp h seconds n = t.spinUpEnds h seconds n o) : ends o := by
      show exec (.spinUp h seconds) s = _
      rw [hexec, hwork]
      exact congrArg (fun u => Host.Outcome.next (State.finishSlip h.port u)) (State.endTaken_markTaken s h o _ _ _)
    refine ⟨fun hst => hends (State.spinUp_badState hst), fun hst => hends (State.spinUp_ready hst),
      fun hst => hends (State.spinUp_spinning hst), fun hst hop => hends (State.spinUp_busy hst hop),
      fun hst hop hfit => hends (State.spinUp_noBudget hst hop hfit), fun hst hop => ?_⟩
    let v := t.spinQueued h n seconds
    let e := v.entryOf n (some h.addr) (spinDeadline seconds t.time)
    have hqueued : BayWork n s v := (s.markTaken_work n _).trans State.spinQueued_work
    have hwork : BayWork n s (v.join e) := hqueued.trans (State.join_work e)
    have hbay : (v.join e).bay n = b.stands .queued .command s.time (if b.record.state = .off then 0 else b.record.c12)
           (if b.record.state = .off then p.i5 else b.record.c5)
           (if b.record.state = .off then
             { wait5v := false, latchOpen := f.latchOpen, removalReady := false, drawHigh := false, shedThermal := false,
               shedPower := false }
           else { f with shedThermal := false, shedPower := false })
           (some op) := by
      rw [State.bay_join]
      unfold v State.spinQueued
      rw [State.bay_keepOpen, State.bay_setOp_same, State.bay_setFlags_same, State.bay_enter_same, Bay.entering_queued, State.readied_time]
      obtain ⟨hoff, -⟩ | hlogic := hst
      · rw [State.readied_off (s := t) hoff, State.bay_enter_same, Bay.entering_logic, if_pos hoff, if_pos hoff, if_pos hoff]
        rfl
      · rw [State.readied_logic (s := t) hlogic, if_neg (by simp [hlogic]), if_neg (by simp [hlogic]), if_neg (by simp [hlogic])]
        have hflags : (t.bay n).record.flags.leaving (t.bay n).record.state = f :=
          BayFlags.leaving_neither (by rw [show (t.bay n).record.state = .logic from hlogic]; decide)
            (by rw [show (t.bay n).record.state = .logic from hlogic]; decide) _
        rw [hflags]
        rfl
    have hline : (v.join e).line n = (s.line n).switched true false := by
      rw [State.line_join]
      unfold v State.spinQueued
      rw [State.line_keepOpen, State.line_setOp, State.line_setFlags, State.line_enter_same]
      obtain ⟨hoff, -⟩ | hlogic := hst
      · rw [State.readied_off (s := t) hoff, State.line_enter_same]
        simp [BayLines.follow, BayLines.switched, BayState.powered, BayState.spinning, t]
      · rw [State.readied_logic (s := t) hlogic]; rfl
    have hfeed : (v.join e).feed n = s.feed n := by
      rw [State.feed_join]
      unfold v State.spinQueued
      rw [State.feed_keepOpen, State.feed_setOp, State.feed_setFlags, State.feed_enter_apart _ _ _ _ (by decide), State.readied_feed]; rfl
    have hexchange : (v.join e).exchange = (s.exchange.take h.addr).kept h 0x20 clamped s.time := by
      rw [State.exchange_join]
      unfold v State.spinQueued
      rw [State.exchange_keepOpen, State.exchange_setOp, State.exchange_setFlags, State.exchange_enter, State.readied_exchange,
        State.setOp_time, State.setFlags_time, State.enter_time, State.readied_time]
      rfl
    have hqueue : (v.join e).scheduler.queue = enqueue
        { bay := n, cls := (s.baySet n).cls, enqueued := s.time, slip := some h.addr, deadline := deadline } s.scheduler.queue := by
      have hset : v.settings = s.settings := hqueued.settings
      have htime : v.time = s.time := hqueued.time
      have hsched : v.scheduler = s.scheduler := by simp [v, State.spinQueued, t]
      have hbaySet : v.baySet n = s.baySet n := by unfold State.baySet; rw [hset]
      rw [State.join_queue, hsched]
      show enqueue { bay := n, cls := (v.baySet n).cls, enqueued := v.time, slip := some h.addr, deadline := deadline } _ = _
      rw [hbaySet, htime]
    obtain ⟨handled, bay, line, feed, exchange, queue⟩ := hwork.left hbay hline hfeed hexchange hqueue (some srcBayChange)
    refine ⟨_, ?_, handled, bay, line, feed, exchange, queue, State.bayChanged_events (by simp [v, State.spinQueued, t]) n _⟩
    rw [hexec, State.spinUp_queues (s := t) hst hop, State.queueSpinUp_eq]
  · intro s h n htake htarget b ends op
    let t := s.markTaken h.addr
    have hexec : exec (.spinDown h) s = .next ((t.spinDown h n).finishSlip h.port) := exec_spinDown_taken htake htarget
    have hends {o : SlipOutcome} (hwork : t.spinDown h n = t.endBay h n o) : ends o := by
      show exec (.spinDown h) s = _
      rw [hexec, hwork, State.endBay_markTaken]
    refine ⟨fun hst => hends (State.spinDown_badState hst), fun hst => hends (State.spinDown_ok hst),
      fun hst => hends (State.spinDown_busy hst), fun hst hop => ?_⟩
    let v := ((t.keepOpen h cmdSpinDown false).enter n .spinningDown .command).setOp n (some op)
    have hwork : BayWork n s v := (((s.markTaken_work n _).trans (State.keepOpen_work ..)).trans (State.enter_work _ n _ _)).trans
      (State.setOp_work _)
    have hbay : v.bay n = { b.stands .spinningDown .command s.time b.record.c12 b.record.c5 { b.record.flags with drawHigh := false }
        (some op) with parkAt := some (Time.plus s.time (s.profileOf n).park) } := by
      rw [State.bay_setOp_same, State.bay_enter_same, Bay.entering_spinningDown, State.bay_keepOpen, State.bay_markTaken,
        show (s.bay n).record.state = .ready from hst, BayFlags.leaving_ready]
      rfl
    have hline : v.line n = (s.line n).switched true true := by rw [State.line_setOp, State.line_enter_same]; rfl
    have hfeed : v.feed n = s.feed n := by rw [State.feed_setOp, State.feed_enter_apart _ _ _ _ (by decide)]; rfl
    have hexchange : v.exchange = (s.exchange.take h.addr).kept h 0x21 false s.time := by
      rw [State.exchange_setOp, State.exchange_enter, State.exchange_keepOpen]; rfl
    obtain ⟨handled, bay, line, feed, exchange, queue⟩ := hwork.left hbay hline hfeed hexchange (q := s.scheduler.queue) rfl (some srcBayChange)
    refine ⟨_, ?_, handled, bay, line, feed, exchange, queue, State.bayChanged_events rfl n _⟩
    rw [hexec, State.spinDown_parks (s := t) hst hop]; rfl

end Sys2Proof.Machine
end

section
/-! SUPPORT. Sums over the bays, and how the change of one bay moves them (R36, R59). -/

namespace Sys2Proof.Machine

variable {s t : State} {n : BayNo}

/-- A sum over the bays' list is a sum over the bay numbers. -/
theorem State.sum_bays (s : State) (f : Bay → Nat) : (s.bays.toList.map f).sum = ∑ m : BayNo, f (s.bay m) := by
  have hlist : s.bays.toList = List.ofFn s.bay := by
    refine List.ext_getElem (by simp) fun i hi hj => ?_
    rw [List.getElem_ofFn]; rfl
  rw [hlist, List.map_ofFn, List.sum_ofFn]; rfl

/-- Where one bay alone changed, a sum over the bays moves by that bay's part. -/
theorem State.sum_bays_moved (h : ∀ m, m ≠ n → t.bay m = s.bay m) (f : Bay → Nat) :
    (t.bays.toList.map f).sum + f (s.bay n) = (s.bays.toList.map f).sum + f (t.bay n) := by
  have ht := Finset.add_sum_erase Finset.univ (fun m => f (t.bay m)) (Finset.mem_univ n)
  have hs := Finset.add_sum_erase Finset.univ (fun m => f (s.bay m)) (Finset.mem_univ n)
  rw [State.sum_bays, State.sum_bays, ← ht, ← hs]
  have hrest : ∑ m ∈ Finset.univ.erase n, f (t.bay m) = ∑ m ∈ Finset.univ.erase n, f (s.bay m) :=
    Finset.sum_congr rfl fun m hm => by rw [h m (Finset.ne_of_mem_erase hm)]
  omega

theorem State.sum5_moved (h : ∀ m, m ≠ n → t.bay m = s.bay m) :
    t.sum5 + (s.bay n).contribution5 = s.sum5 + (t.bay n).contribution5 := State.sum_bays_moved h _
theorem State.sum12_moved (h : ∀ m, m ≠ n → t.bay m = s.bay m) :
    t.sum12 + (s.bay n).contribution12 = s.sum12 + (t.bay n).contribution12 := State.sum_bays_moved h _

/-- The usable budgets rest on the outer state. -/
theorem State.budgets_of_outer (h : t.outer = s.outer) : t.usableBudget12 = s.usableBudget12 ∧ t.usableBudget5 = s.usableBudget5 := by
  have hset : t.settings = s.settings := congrArg Outer.settings h
  have hsup : t.account.supplies = s.account.supplies := congrArg Outer.supplies h
  have hres : t.account.fanRes = s.account.fanRes := congrArg Outer.fanRes h
  unfold State.usableBudget12 State.usableBudget5 State.baseCapacity12 State.baseCapacity5 State.goodSlots
  rw [hset, hsup, hres]
  exact ⟨rfl, rfl⟩

end Sys2Proof.Machine
end

section
/-! SUPPORT. The policy of a bay that comes to rest in OFF (R9), and the WAIT_5V walk (R10). -/

namespace Sys2Proof.Machine

variable {s t u : State} {n : BayNo}

/-! ### Handlings of one bay after one another -/

theorem Bay.like_trans {b c d : Bay} (h : b.like c) (k : c.like d) : b.like d := by
  unfold Bay.like at h k ⊢
  rw [← k, ← h]

theorem Bay.like_state {b c : Bay} (h : b.like c) : b.record.state = c.record.state := by rw [← (h : _ = c)]
theorem Bay.like_flags {b c : Bay} (h : b.like c) : b.record.flags = c.record.flags := by rw [← (h : _ = c)]
theorem Bay.like_op {b c : Bay} (h : b.like c) : b.record.op = c.record.op := by rw [← (h : _ = c)]
theorem Bay.like_contribution5 {b c : Bay} (h : b.like c) : b.contribution5 = c.contribution5 := by rw [← (h : _ = c)]; rfl
theorem Bay.like_contribution12 {b c : Bay} (h : b.like c) : b.contribution12 = c.contribution12 := by rw [← (h : _ = c)]; rfl

/-- Bays that differ in a generation stand alike in a new state. -/
theorem Bay.like_stands {b c : Bay} (h : b.like c) (st : BayState) (why : Reason) (now : Time) (c12 c5 : Nat) (f : BayFlags)
    (op : Option Operation) : (b.stands st why now c12 c5 f op).like (c.stands st why now c12 c5 f op) := by
  rw [← (h : _ = c)]; rfl

/-- Handlings of one bay after one another are one handling of it, if the second keeps the admission opportunity of the first and starts
the shed run where R47 says so of both together. -/
theorem BayHandled.andThen (h : BayHandled n s t) (k : BayHandled n t u) (kept : t.reports.pass = true → u.reports.pass = true)
    (run : (u.bay n).record.state ≠ (s.bay n).record.state → s.spentDelay → u.account.overCommitted = true →
      ((u.bay n).record.state.spinning = true ∨
        (u.account.usable5 < u.account.committed5 ∧ (u.bay n).record.state.powered = true)) → u.reports.run = true) :
    BayHandled n s u where
  outer := k.outer.trans h.outer
  attention := k.attention.trans h.attention
  readers := h.readers.trans k.readers
  bays m hm := (k.bays m hm).trans (h.bays m hm)
  lines m hm := (k.lines m hm).trans (h.lines m hm)
  feeds m hm := (k.feeds m hm).trans (h.feeds m hm)
  lights m hm := (k.lights m hm).trans (h.lights m hm)
  ports place c := (k.ports place c).trans (h.ports place c)
  enable := k.enable.trans h.enable
  admission := ⟨k.admission.1.trans h.admission.1, k.admission.2.1.trans h.admission.2.1, k.admission.2.2.trans h.admission.2.2⟩
  balanced := k.balanced
  shown := k.shown
  lit := k.lit
  enclosure := by
    have hphase : u.phase = t.phase := congrArg Outer.phase k.outer
    exact ⟨⟨k.enclosure.1.1, fun hu => (k.enclosure.1.2 hu).trans (h.enclosure.1.2 (hphase ▸ hu))⟩, k.enclosure.2.trans h.enclosure.2⟩
  pass hs hu := by
    by_cases ht : (t.bay n).record.state = .spinningUp
    · exact k.pass ht hu
    · exact kept (h.pass hs ht)
  head hu := by
    by_cases ht : headBay t.scheduler.queue = headBay s.scheduler.queue
    · exact k.head (ht ▸ hu)
    · exact kept (h.head ht)
  run := run

/-! ### A policy move -/

/-- The flags of a bay that its policy takes to LOGIC or QUEUED: LATCH_OPEN alone as it was (Table 1-2). -/
def BayFlags.latchAlone (f : BayFlags) : BayFlags :=
  { wait5v := false, latchOpen := f.latchOpen, removalReady := false, drawHigh := false, shedThermal := false, shedPower := false }

theorem State.policyMove_toLogic (fits : s.fits5 n = true) (policy : (s.baySet n).policy = .logicOnly) :
    s.policyMove n = (s.enter n .logic .policy).bayChanged n (some srcBayChange) := by
  unfold State.policyMove
  rw [if_pos fits, policy]

/-- A bay that its policy queues, before its entry joins (R9). -/
def State.policyQueued (n : BayNo) (s : State) : State :=
  ((s.enter n .logic .policy).enter n .queued .policy).setOp n (some (s.internalOp .spinUp))

theorem State.policyMove_toQueue (fits : s.fits5 n = true) (policy : (s.baySet n).policy = .autoSpin) :
    s.policyMove n = (State.join ((s.policyQueued n).entryOf n none none) (s.policyQueued n)).bayChanged n (some srcBayChange) := by
  unfold State.policyMove
  rw [if_pos fits, policy]; rfl

theorem State.policyMove_manual (policy : (s.baySet n).policy = .manual) (fits : s.fits5 n = true) : s.policyMove n = s := by
  unfold State.policyMove
  rw [if_pos fits, policy]

theorem State.policyMove_waits (fits : ¬ s.fits5 n = true) (waits : (s.bay n).record.flags.wait5v = false) :
    s.policyMove n = (s.setFlags n fun f => { f with wait5v := true }).bayChanged n (some srcBayChange) := by
  unfold State.policyMove
  rw [if_neg fits, if_neg (by simp [waits])]

theorem State.policyMove_waiting (fits : ¬ s.fits5 n = true) (waits : (s.bay n).record.flags.wait5v = true) : s.policyMove n = s := by
  unfold State.policyMove
  rw [if_neg fits, if_pos waits]

/-- A handling of bay n that made BAY_CHANGE and, beside it, POWER alone; the reports before it stand. -/
structure BayMoved (n : BayNo) (s : State) (b : Bay) (l : BayLines) (q : List QueueEntry) (u : State) : Prop where
  left : BayLeft n s b l (s.feed n) s.exchange q u
  told : u.told srcBayChange
  only : OnlyTold [srcBayChange, srcPower] s u
  pass : s.reports.pass = true → u.reports.pass = true

theorem BayWork.moved {b : Bay} {l : BayLines} {q : List QueueEntry} (w : BayWork n s t) (bay : t.bay n = b) (line : t.line n = l)
    (feed : t.feed n = s.feed n) (exchange : t.exchange = s.exchange) (queue : t.scheduler.queue = q) (late : t.late = s.late) :
    BayMoved n s b l q (t.bayChanged n (some srcBayChange)) :=
  { left := w.left bay line feed exchange queue _
    told := t.bayChanged_told n _
    only := (t.bayChanged_onlyTold n _).from late
    pass := fun h => (t.bayChanged_reports n _).1 (w.kept.1 h) }

/-- A policy move to LOGIC (R9). -/
theorem State.policyMove_logicOnly (fits : s.fits5 n = true) (policy : (s.baySet n).policy = .logicOnly) :
    BayMoved n s ((s.bay n).stands .logic .policy s.time 0 (s.profileOf n).i5 (s.bay n).record.flags.latchAlone (s.bay n).record.op)
      ((s.line n).switched true false) s.scheduler.queue (s.policyMove n) := by
  rw [State.policyMove_toLogic fits policy]
  refine (s.enter_work n _ _).moved ?_ ?_ (s.feed_enter_apart _ _ _ (by decide)) rfl rfl rfl
  · rw [State.bay_enter_same]; rfl
  · rw [State.line_enter_same]; rfl

theorem State.policyQueued_work : BayWork n s (s.policyQueued n) :=
  ((State.enter_work _ n _ _).trans (State.enter_work _ n _ _)).trans (State.setOp_work _)

/-- A policy move through LOGIC into the queue (R9). -/
theorem State.policyMove_autoSpin (fits : s.fits5 n = true) (policy : (s.baySet n).policy = .autoSpin) :
    BayMoved n s
      ((s.bay n).stands .queued .policy s.time 0 (s.profileOf n).i5 (s.bay n).record.flags.latchAlone (some (s.internalOp .spinUp)))
      ((s.line n).switched true false) (enqueue (s.entryOf n none none) s.scheduler.queue) (s.policyMove n) := by
  rw [State.policyMove_toQueue fits policy]
  refine (State.policyQueued_work.trans (State.join_work _)).moved ?_ ?_ ?_ (State.exchange_join _ _) (State.join_queue _ _) (State.late_join _ _)
  · rw [State.bay_join]
    unfold State.policyQueued
    rw [State.bay_setOp_same, State.bay_enter_same, State.bay_enter_same]; rfl
  · rw [State.line_join]
    unfold State.policyQueued
    rw [State.line_setOp, State.line_enter_same, State.line_enter_same]
    simp [BayLines.follow, BayLines.switched, BayState.powered, BayState.spinning]
  · rw [State.feed_join]
    unfold State.policyQueued
    rw [State.feed_setOp, State.feed_enter_apart _ _ _ _ (by decide), State.feed_enter_apart _ _ _ _ (by decide)]

/-- A bay without room waits with WAIT_5V (R9). -/
theorem State.policyMove_noRoom (fits : ¬ s.fits5 n = true) (waits : (s.bay n).record.flags.wait5v = false) :
    BayMoved n s { s.bay n with record := { (s.bay n).record with flags := { (s.bay n).record.flags with wait5v := true } } } (s.line n)
      s.scheduler.queue (s.policyMove n) := by
  rw [State.policyMove_waits fits waits]
  exact (State.setFlags_work _).moved (State.bay_setFlags_same ..) rfl rfl rfl rfl rfl

/-! ### At rest in OFF -/

/-- A bay not powered contributes nothing on the 5 V rail. -/
theorem Bay.contribution5_unpowered {b : Bay} (h : b.record.state.powered = false) : b.contribution5 = 0 := by
  unfold Bay.contribution5
  split <;> simp_all [BayState.powered]

/-- While bay n draws nothing, the 5 V fit of a balanced account is the room that sums and supplies give (R38). -/
theorem State.fits5_iff_roomFor (outer : t.outer = s.outer) (bays : ∀ m, m ≠ n → t.bay m = s.bay m) (balanced : t.balanced)
    (hs : (s.bay n).contribution5 = 0) (ht : (t.bay n).contribution5 = 0) : t.fits5 n = true ↔ s.roomFor n := by
  obtain ⟨-, -, -, husable, -, hcommitted, -, -⟩ := balanced
  have hsum := State.sum5_moved bays
  have hset : t.settings = s.settings := congrArg Outer.settings outer
  unfold State.fits5 State.roomFor
  rw [decide_eq_true_iff, husable, hcommitted, State.profileOf_of_settings hset, (State.budgets_of_outer outer).2]
  omega

/-- A bay that a policy moved is no candidate of a 5 V shed that would not be: it passed the fit (R38, R44). -/
theorem State.fitted_within (k : BayHandled n t u) (balanced : t.balanced) (fits : t.fits5 n = true) (ht : (t.bay n).contribution5 = 0)
    (hu : (u.bay n).contribution5 = (t.profileOf n).i5) : u.account.committed5 ≤ u.account.usable5 := by
  obtain ⟨-, -, -, husable, -, hcommitted, -, -⟩ := balanced
  obtain ⟨-, -, -, husable', -, hcommitted', -, -⟩ := k.balanced
  have hsum := State.sum5_moved k.bays
  have hfit : t.account.committed5 + (t.profileOf n).i5 ≤ t.account.usable5 := by simpa [State.fits5] using fits
  rw [husable, hcommitted] at hfit
  rw [husable', hcommitted', (State.budgets_of_outer k.outer).2]
  omega

/-- What a bay come to rest in OFF as `rest` goes on to: all that R9 says of its handling. -/
structure RestApplied (n : BayNo) (rest : Bay) (s : State) (x : Exchange) (u : State) : Prop where
  handled  : BayHandled n s u
  applied  : PolicyApplied n rest s u
  feed     : u.feed n = s.feed n
  exchange : u.exchange = x
  told     : u.told srcBayChange
  only     : OnlyTold [srcBayChange, srcPower] s u

theorem State.told_mono {i : Fin 8} (h : s.told i) (hl : ∀ e ∈ s.late, e ∈ t.late) : t.told i := fun p => hl _ (h p)

theorem State.applyPolicy_stays (h : s.latchHolds n = true ∨ (s.baySet n).policy = .manual) : s.applyPolicy n = s := by
  unfold State.applyPolicy
  obtain h | h := h
  · rw [if_pos h]
  · rw [h]; split <;> rfl

theorem State.applyPolicy_moves (h : s.latchHolds n = false) (policy : (s.baySet n).policy ≠ .manual) :
    s.applyPolicy n = s.policyMove n := by
  unfold State.applyPolicy
  rw [if_neg (by simp [h])]
  split
  · exact absurd (by assumption) policy
  · rfl

/-- A bay moved into no spinning state, and either within the 5 V budget or not powered, starts no shed run (R44, R47). -/
theorem BayMoved.no_run {b : Bay} {l : BayLines} {q : List QueueEntry} (m : BayMoved n t b l q u) (hspin : b.record.state.spinning = false)
    (h : u.account.committed5 ≤ u.account.usable5 ∨ b.record.state.powered = false) :
    ¬ ((u.bay n).record.state.spinning = true ∨
      (u.account.usable5 < u.account.committed5 ∧ (u.bay n).record.state.powered = true)) := by
  rw [Bay.like_state m.left.bay, hspin]
  rintro (h' | ⟨hover, hpow⟩)
  · exact absurd h' (by decide)
  · obtain h | h := h
    · omega
    · exact absurd (h.symm.trans hpow) (by decide)

/-- A move that follows a handling of the same bay is part of it. -/
theorem BayMoved.after {b : Bay} {l : BayLines} {q : List QueueEntry} {x : Exchange} (m : BayMoved n t b l q u) (handled : BayHandled n s t)
    (feed : t.feed n = s.feed n) (exchange : t.exchange = x) (only : OnlyTold [srcBayChange, srcPower] s t)
    (calm : ¬ ((u.bay n).record.state.spinning = true ∨
      (u.account.usable5 < u.account.committed5 ∧ (u.bay n).record.state.powered = true))) :
    BayHandled n s u ∧ u.feed n = s.feed n ∧ u.exchange = x ∧ u.told srcBayChange ∧ OnlyTold [srcBayChange, srcPower] s u :=
  ⟨handled.andThen m.left.handled m.pass fun _ _ _ h => absurd h calm, m.left.feed.trans feed, m.left.exchange.trans exchange, m.told,
    only.trans m.only⟩

/-- Once a bay has come to rest in OFF, its policy applied ends the handling as R9 says. -/
theorem State.applyPolicy_applied {rest : Bay} {x : Exchange}
    (l : BayLeft n s rest ((s.line n).switched false false) (s.feed n) x s.scheduler.queue t) (told : t.told srcBayChange)
    (only : OnlyTold [srcBayChange, srcPower] s t) (idle : (s.bay n).record.state.powered = false) (off : rest.record.state = .off)
    (noOp : rest.record.op = none) : RestApplied n rest s x (t.applyPolicy n) := by
  obtain ⟨handled, bay, line, feed, exchange, queue⟩ := l
  have hset : t.settings = s.settings := congrArg Outer.settings handled.outer
  have htime : t.time = s.time := congrArg Outer.time handled.outer
  have hbaySet : t.baySet n = s.baySet n := by unfold State.baySet; rw [hset]
  have hoff : (t.bay n).record.state = .off := (Bay.like_state bay).trans off
  have hflags := Bay.like_flags bay
  have hprofile : t.profileOf n = s.profileOf n := State.profileOf_of_settings hset n
  have hlatch : t.latchHolds n = (rest.record.flags.latchOpen && (s.baySet n).latchStop) := by
    unfold State.latchHolds; rw [hflags, hbaySet]
  have hdraws : (t.bay n).contribution5 = 0 := Bay.contribution5_unpowered (by rw [hoff]; rfl)
  have hroom : t.fits5 n = true ↔ s.roomFor n :=
    State.fits5_iff_roomFor handled.outer handled.bays handled.balanced (Bay.contribution5_unpowered idle) hdraws
  by_cases hmoves : s.policyMoves n rest
  swap
  · have hstays : t.applyPolicy n = t := State.applyPolicy_stays (by
      rw [hlatch, hbaySet]
      by_contra h
      simp only [not_or, Bool.not_eq_true] at h
      exact hmoves h)
    rw [hstays]
    exact ⟨handled, ⟨fun _ => ⟨bay, line, queue⟩, fun h => absurd h hmoves, fun h => absurd h hmoves, fun h => absurd h hmoves⟩, feed,
      exchange, told, only⟩
  · obtain ⟨hheld, hpolicy⟩ := id hmoves
    rw [State.applyPolicy_moves (hlatch.trans hheld) (hbaySet ▸ hpolicy)]
    by_cases hfits : t.fits5 n = true
    · have hfit := hroom.1 hfits
      have hline : ((t.line n).switched true false) = { (s.line n).switched true false with trip := false } := by
        rw [line]; simp [BayLines.switched]
      cases hp : (s.baySet n).policy with
      | manual => exact absurd hp hpolicy
      | logicOnly =>
        have m := State.policyMove_logicOnly hfits (hbaySet ▸ hp)
        have hwithin := State.fitted_within m.left.handled handled.balanced hfits hdraws (Bay.like_contribution5 m.left.bay)
        obtain ⟨handled', feed', exchange', told', only'⟩ := m.after handled feed exchange only
          (m.no_run rfl (.inl hwithin))
        have hbay : (State.bay (t.policyMove n) n).like (rest.stands .logic .policy s.time 0 (s.profileOf n).i5
            rest.record.flags.latchAlone none) := by
          refine Bay.like_trans m.left.bay ?_
          rw [hflags, Bay.like_op bay, noOp, htime, hprofile]
          exact Bay.like_stands bay ..
        exact ⟨handled', ⟨fun h => absurd hmoves h, fun _ h => absurd hfit h,
          fun _ _ _ => ⟨hbay, m.left.line.trans hline, m.left.queue.trans queue⟩, fun _ _ h => absurd (hp.symm.trans h) (by decide)⟩,
          feed', exchange', told', only'⟩
      | autoSpin =>
        have m := State.policyMove_autoSpin hfits (hbaySet ▸ hp)
        have hwithin := State.fitted_within m.left.handled handled.balanced hfits hdraws (Bay.like_contribution5 m.left.bay)
        obtain ⟨handled', feed', exchange', told', only'⟩ := m.after handled feed exchange only
          (m.no_run rfl (.inl hwithin))
        have hbay : (State.bay (t.policyMove n) n).like (rest.stands .queued .policy s.time 0 (s.profileOf n).i5
            rest.record.flags.latchAlone (some (s.internalOp .spinUp))) := by
          refine Bay.like_trans m.left.bay ?_
          rw [hflags, htime, hprofile, State.internalOp_of_time htime]
          exact Bay.like_stands bay ..
        have hentry : t.entryOf n none none = s.entryOf n none none := by unfold State.entryOf; rw [hbaySet, htime]
        exact ⟨handled', ⟨fun h => absurd hmoves h, fun _ h => absurd hfit h, fun _ _ h => absurd (hp.symm.trans h) (by decide),
          fun _ _ _ => ⟨hbay, m.left.line.trans hline, m.left.queue.trans (by rw [hentry, queue])⟩⟩,
          feed', exchange', told', only'⟩
    · have hnot : ¬ s.roomFor n := fun h => hfits (hroom.2 h)
      have happlied {u : State} (hbay : (u.bay n).like { rest with record := { rest.record with flags :=
            { rest.record.flags with wait5v := true } } }) (hline : u.line n = (s.line n).switched false false)
          (hqueue : u.scheduler.queue = s.scheduler.queue) : PolicyApplied n rest s u :=
        ⟨fun h => absurd hmoves h, fun _ _ => ⟨hbay, hline, hqueue⟩, fun _ h => absurd h hnot, fun _ h => absurd h hnot⟩
      cases hwaits : (t.bay n).record.flags.wait5v with
      | true =>
        have hrest : rest.record.flags.wait5v = true := hflags ▸ hwaits
        have hsame : { rest with record := { rest.record with flags := { rest.record.flags with wait5v := true } } } = rest := by
          rw [← hrest]
        rw [State.policyMove_waiting hfits hwaits]
        exact ⟨handled, happlied (hsame ▸ bay) line queue, feed, exchange, told, only⟩
      | false =>
        have m := State.policyMove_noRoom hfits hwaits
        obtain ⟨handled', feed', exchange', told', only'⟩ := m.after handled feed exchange only
          (m.no_run (by rw [hoff]; decide) (.inr (by rw [hoff]; rfl)))
        have hbay : (State.bay (t.policyMove n) n).like { rest with record := { rest.record with flags :=
            { rest.record.flags with wait5v := true } } } := by
          refine Bay.like_trans m.left.bay ?_
          rw [hflags, ← (bay : _ = rest)]; rfl
        exact ⟨handled', happlied hbay (m.left.line.trans line) (m.left.queue.trans queue), feed', exchange', told', only'⟩

/-! ### The three ways to rest in OFF -/

theorem exec_settleExpiry (hrun : s.phase = .running) (hst : (s.bay n).record.state = .settling)
    (hdue : Time.due s.time (s.bay n).settleAt = true) :
    let t := (((s.countInsertion n).enter n .off .inserted).setOp n none).setFlags n fun f => { f with latchOpen := (s.line n).latch }
    exec (.settleExpiry n) s = .next ((t.bayChanged n (some srcBayChange)).applyPolicy n).close :=
  congrArg _ (if_pos ⟨(State.running_iff s).2 hrun, hst, hdue⟩)

theorem exec_backoffExpiry (hrun : s.phase = .running) (hst : (s.bay n).record.state = .faulted)
    (hdue : Time.due s.time (s.bay n).backoffAt = true) :
    let t := ((s.setRetries n ((s.bay n).record.retries + 1)).setOp n none).enter n .off .retry
    exec (.backoffExpiry n) s = .next ((t.bayChanged n (some srcBayChange)).applyPolicy n).close :=
  congrArg _ (if_pos ⟨(State.running_iff s).2 hrun, hst, hdue⟩)

theorem exec_clearFault_taken {h : SlipHead} (ht : s.takeable h = true) (hn : s.bayTarget h.target = some n) :
    exec (.clearFault h) s = .next (((s.markTaken h.addr).clearFault h n).finishSlip h.port) :=
  congrArg _ (State.slipCommand_onBay (fun n u => u.clearFault h n) ht hn)

theorem State.clearFault_badState {h : SlipHead} (hst : (s.bay n).record.state ≠ .faulted) : s.clearFault h n = s.endBay h n .badState := by
  unfold State.clearFault
  split
  · exact absurd (by assumption) hst
  · rfl

theorem State.clearFault_faulted {h : SlipHead} (hst : (s.bay n).record.state = .faulted) :
    s.clearFault h n =
      (State.applyPolicy n ((((s.setRetries n 0).setOp n none).enter n .off .cleared).bayChanged n (some srcBayChange))).endBay h n .ok := by
  unfold State.clearFault
  rw [hst]

/-- A bay that comes to rest in OFF from a state not powered, its work done, goes on as R9 says. -/
theorem BayWork.rests {v : State} {rest : Bay} {x : Exchange} (w : BayWork n s v) (bay : v.bay n = rest)
    (line : v.line n = (s.line n).switched false false) (feed : v.feed n = s.feed n) (exchange : v.exchange = x)
    (queue : v.scheduler = s.scheduler) (late : v.late = s.late) (idle : (s.bay n).record.state.powered = false)
    (off : rest.record.state = .off) (noOp : rest.record.op = none) :
    RestApplied n rest s x ((v.bayChanged n (some srcBayChange)).applyPolicy n) :=
  State.applyPolicy_applied (w.left bay line feed exchange (congrArg _ queue) _) (v.bayChanged_told n _)
    ((v.bayChanged_onlyTold n _).from late) idle off noOp

/-! ### The WAIT_5V walk -/

theorem State.changeReports_walk (old st : BayState) : (s.changeReports old st).walk = s.reports.walk := rfl

/-- A walk that is due stays due through a bay's handling. -/
theorem State.bayChanged_walk (s : State) (n : BayNo) (e : Option (Fin 8)) (h : s.reports.walk = true) : (s.bayChanged n e).reports.walk = true := by
  have hbefore : ((s.pubBay n).deriveLights n).reports = s.reports := by rw [State.deriveLights_eq, State.pubBay_eq]
  unfold State.bayChanged
  rw [State.raiseOpt_reports, State.accountUpdate_eq]
  simp only [State.accountReports, hbefore, h, Bool.true_or]

theorem State.policyMove_walk (h : s.reports.walk = true) : (s.policyMove n).reports.walk = true := by
  unfold State.policyMove
  split
  · split
    · exact h
    · exact State.bayChanged_walk _ _ _ h
    · refine State.bayChanged_walk _ _ _ ?_
      unfold State.join
      dsimp only
      rw [State.reports_pubQueue]
      exact h
  · split
    · exact h
    · exact State.bayChanged_walk _ _ _ h

theorem State.runPass_walk (h : s.reports.walk = true) : s.runPass.reports.walk = true := by
  have hloop : ∀ fuel, (State.passLoop fuel s).reports.walk = true := fun fuel =>
    State.passLoop_keeps (P := fun t => t.reports.walk = true)
      (fun t n ht => by
        unfold State.admitHead
        refine State.bayChanged_walk _ _ _ ?_
        rw [State.reports_pubQueue]
        exact ht)
      (fun t r ht => by rw [State.reports_setHold]; exact ht) fuel s h
  unfold State.runPass
  split
  · exact hloop _
  · exact h

/-- The state of a WAIT_5V walk once it has taken the first k bays. -/
def State.walked (s : State) (k : Nat) : State := (bayNumbers.take k).foldl State.walkBay { s with reports := { s.reports with walk := false } }

theorem State.walked_succ (s : State) (n : BayNo) : s.walked (n.val + 1) = State.walkBay (s.walked n.val) n := by
  have hget : bayNumbers[n.val]? = some n := by
    unfold bayNumbers
    rw [List.getElem?_eq_getElem (by simp)]
    simp
  unfold State.walked
  rw [List.take_add_one, hget, List.foldl_append]
  rfl

theorem State.walked_pass (s : State) (h : s.reports.pass = false) (k : Nat) : (s.walked k).reports.pass = false := by
  unfold State.walked
  generalize bayNumbers.take k = l
  have step : ∀ t : State, t.reports.pass = false → (l.foldl State.walkBay t).reports.pass = false := by
    induction l with
    | nil => exact fun _ ht => ht
    | cons m l ih =>
      intro t ht
      refine ih _ ?_
      unfold State.walkBay
      split
      · exact State.runPass_due _
      · exact ht
  exact step _ h

theorem State.walkBay_idle (h : ¬ s.waitsFor5 n) : State.walkBay s n = s := if_neg h

theorem State.walkBay_waits (h : s.waitsFor5 n) : State.walkBay s n = (s.policyMove n).runPass := if_pos h

/-- A bay that does not wait, or has no room, or is MANUAL keeps its turn in the walk unused (R10). -/
theorem State.walkBay_stays (hpass : s.reports.pass = false) (h : ¬ (s.waitsFor5 n ∧
    s.account.committed5 + (s.profileOf n).i5 ≤ s.account.usable5 ∧ (s.baySet n).policy ≠ .manual)) : State.walkBay s n = s := by
  by_cases hwaits : s.waitsFor5 n
  · have hmove : s.policyMove n = s := by
      by_cases hfits : s.fits5 n = true
      · refine State.policyMove_manual ?_ hfits
        by_contra hpolicy
        exact h ⟨hwaits, by simpa [State.fits5] using hfits, hpolicy⟩
      · exact State.policyMove_waiting hfits hwaits.2.1
    rw [State.walkBay_waits hwaits, hmove, State.runPass_idle hpass]
  · exact State.walkBay_idle hwaits

/-- A waiting bay with room is moved by its policy (R9, R10). -/
theorem State.policyMove_waitMoved (hfits : s.fits5 n = true) (hpolicy : (s.baySet n).policy ≠ .manual) :
    WaitMoved n s (s.policyMove n) := by
  cases hp : (s.baySet n).policy with
  | manual => exact absurd hp hpolicy
  | logicOnly =>
    obtain ⟨⟨handled, bay, line, feed, exchange, queue⟩, told, only, -⟩ := State.policyMove_logicOnly hfits hp
    exact ⟨handled, feed, exchange, ⟨told, only⟩, line, fun _ => ⟨bay, queue⟩, fun h => absurd (hp.symm.trans h) (by decide)⟩
  | autoSpin =>
    obtain ⟨⟨handled, bay, line, feed, exchange, queue⟩, told, only, -⟩ := State.policyMove_autoSpin hfits hp
    exact ⟨handled, feed, exchange, ⟨told, only⟩, line, fun h => absurd (hp.symm.trans h) (by decide), fun _ => ⟨bay, queue⟩⟩

/-- A report for a further walk stands through a bay's turn. -/
theorem State.walkBay_walk (h : s.reports.walk = true) : (State.walkBay s n).reports.walk = true := by
  unfold State.walkBay
  split
  · exact State.runPass_walk (State.policyMove_walk h)
  · exact h

/-- Settles O15: the three ways to rest in OFF, and the WAIT_5V walk bay by bay. -/
theorem policyAppliedAtRest : Obligations.PolicyAppliedAtRest := by
  refine ⟨?_, ?_, ?_, ?_⟩
  · intro s n hrun hst hdue r rest
    let v := (((s.countInsertion n).enter n .off .inserted).setOp n none).setFlags n fun f => { f with latchOpen := (s.line n).latch }
    have hwork : BayWork n s v := ((State.countInsertion_work.trans (State.enter_work _ n _ _)).trans (State.setOp_work _)).trans
      (State.setFlags_work _)
    have hbay : v.bay n = { rest with record := { rest.record with insertions := r.insertions + 1 } } := by
      rw [State.bay_setFlags_same, State.bay_setOp_same, State.bay_enter_same, State.bay_countInsertion, Bay.entering_off,
        show (s.bay n).record.state = .settling from hst, BayFlags.leaving_neither (by decide) (by decide)]
      rfl
    have hline : v.line n = (s.line n).switched false false := by
      rw [State.line_setFlags, State.line_setOp, State.line_enter_same]; rfl
    have hfeed : v.feed n = s.feed n := by
      rw [State.feed_setFlags, State.feed_setOp, State.feed_enter_apart _ _ _ _ (by decide), State.feed_countInsertion]
    obtain ⟨handled, applied, feed, exchange, told, only⟩ := hwork.rests hbay hline hfeed (x := s.exchange) rfl rfl rfl (by rw [hst]; rfl) rfl rfl
    exact ⟨_, exec_settleExpiry hrun hst hdue, handled, applied, feed, exchange, told, only⟩
  · intro s n hrun hst hdue r rest
    let v := ((s.setRetries n (r.retries + 1)).setOp n none).enter n .off .retry
    have hwork : BayWork n s v := ((State.setRetries_work _).trans (State.setOp_work _)).trans (State.enter_work _ n _ _)
    have hbay : v.bay n = { rest with record := { rest.record with retries := r.retries + 1 } } := by
      rw [State.bay_enter_same, State.bay_setOp_same, State.bay_setRetries_same, Bay.entering_off,
        show (s.bay n).record.state = .faulted from hst, BayFlags.leaving_neither (by decide) (by decide)]
      rfl
    have hline : v.line n = (s.line n).switched false false := by rw [State.line_enter_same]; rfl
    have hfeed : v.feed n = s.feed n := State.feed_enter_apart _ _ _ _ (by decide)
    obtain ⟨handled, applied, feed, exchange, told, only⟩ := hwork.rests hbay hline hfeed (x := s.exchange) rfl rfl rfl (by rw [hst]; rfl) rfl rfl
    exact ⟨_, exec_backoffExpiry hrun hst hdue, handled, applied, feed, exchange, told, only⟩
  · intro s h n htake htarget b rest
    let t := s.markTaken h.addr
    have hexec : exec (.clearFault h) s = .next ((t.clearFault h n).finishSlip h.port) := exec_clearFault_taken htake htarget
    refine ⟨fun hst => ?_, fun hst => ?_⟩
    · rw [hexec, State.clearFault_badState (s := t) hst, State.endBay_markTaken]
    · let v := ((t.setRetries n 0).setOp n none).enter n .off .cleared
      have hwork : BayWork n s v := (((s.markTaken_work n _).trans (State.setRetries_work _)).trans (State.setOp_work _)).trans
        (State.enter_work _ n _ _)
      have hbay : v.bay n = { rest with record := { rest.record with retries := 0 } } := by
        rw [State.bay_enter_same, State.bay_setOp_same, State.bay_setRetries_same, Bay.entering_off, State.bay_markTaken,
          show (s.bay n).record.state = .faulted from hst, BayFlags.leaving_neither (by decide) (by decide)]
        rfl
      have hline : v.line n = (s.line n).switched false false := by rw [State.line_enter_same]; rfl
      have hfeed : v.feed n = s.feed n := State.feed_enter_apart _ _ _ _ (by decide)
      have hidle : (s.bay n).record.state.powered = false := by rw [show (s.bay n).record.state = .faulted from hst]; rfl
      obtain ⟨handled, applied, feed, exchange, told, only⟩ :=
        hwork.rests hbay hline hfeed (x := s.exchange.take h.addr) rfl rfl rfl hidle rfl rfl
      refine ⟨_, ?_, handled, applied, feed, exchange, told, only⟩
      rw [hexec, State.clearFault_faulted (s := t) hst]; rfl
  · intro s hpass
    refine ⟨s.walked, rfl, ?_, fun n => ?_⟩
    · have hall : bayNumbers.take 60 = bayNumbers := List.take_of_length_le (by simp [bayNumbers])
      unfold State.wait5vWalk State.walked
      rw [hall]
    · intro x y moves
      have hy : y = State.walkBay x n := s.walked_succ n
      have hidle : x.reports.pass = false := s.walked_pass hpass n.val
      refine ⟨fun h => ?_, fun ⟨hwaits, hfits, hpolicy⟩ => ⟨x.policyMove n, hy.trans (State.walkBay_waits hwaits), ?_⟩, fun h => ?_⟩
      · rw [hy, State.walkBay_stays hidle h]
      · exact State.policyMove_waitMoved (by simpa [State.fits5] using hfits) hpolicy
      · rw [hy]
        exact State.walkBay_walk h

end Sys2Proof.Machine
end

section
/-! SUPPORT. SET_BAY (R27, R58): what its changed fields do, and its clamps. -/

namespace Sys2Proof.Machine

variable {s : State} {n : BayNo}

/-! ### The changed fields -/

/-- WAIT_5V once a bay's settings have changed: it clears where the policy becomes MANUAL (R27). -/
def waitAfter (old new : BaySettings) (wait : Bool) : Bool := wait && !(decide (new.policy = .manual) && decide (old.policy ≠ .manual))

/-- Bay n with WAIT_5V as its changed policy leaves it. -/
def State.policySet (n : BayNo) (old new : BaySettings) (s : State) : State :=
  if new.policy = .manual ∧ old.policy ≠ .manual then s.setFlags n fun f => { f with wait5v := false } else s

/-- Bay n's entry as its changed class leaves it. -/
def State.classSet (n : BayNo) (old new : BaySettings) (s : State) : State :=
  if new.cls ≠ old.cls ∧ ((s.bay n).record.state == .queued) = true then s.reclass n new.cls else s

theorem State.policySet_eq (old new : BaySettings) : s.policySet n old new = { s with bays := (s.policySet n old new).bays } := by
  unfold State.policySet; split <;> rfl

theorem State.policySet_scheduler (old new : BaySettings) : (s.policySet n old new).scheduler = s.scheduler := by rw [State.policySet_eq]
theorem State.policySet_time (old new : BaySettings) : (s.policySet n old new).time = s.time := by rw [State.policySet_eq]

theorem State.policySet_bay (old new : BaySettings) : (s.policySet n old new).bay n =
    { s.bay n with record := { (s.bay n).record with flags := { (s.bay n).record.flags with
        wait5v := waitAfter old new (s.bay n).record.flags.wait5v } } } := by
  unfold State.policySet waitAfter
  split
  next h => rw [State.bay_setFlags_same]; simp [h.1, h.2]
  next h =>
    have hkept : (!(decide (new.policy = .manual) && decide (old.policy ≠ .manual))) = true := by simpa [imp_iff_not_or] using h
    rw [hkept, Bool.and_true]

theorem State.policySet_bay_of_ne (old new : BaySettings) {m : BayNo} (h : m ≠ n) : (s.policySet n old new).bay m = s.bay m := by
  unfold State.policySet
  split
  · rw [State.bay_setFlags, if_neg h]
  · rfl

theorem State.classSet_eq (old new : BaySettings) : s.classSet n old new =
    { s with scheduler := (s.classSet n old new).scheduler, status := (s.classSet n old new).status,
             reports := (s.classSet n old new).reports } := by
  unfold State.classSet
  split
  · exact s.reclass_eq n new.cls
  · rfl

theorem State.classSet_stands {old new : BaySettings} (h : (s.bay n).record.state ≠ .queued ∨ new.cls = old.cls) : s.classSet n old new = s :=
  if_neg fun ⟨hcls, hst⟩ => h.elim (· (by simpa using hst)) hcls

theorem State.pubQueue_queue (s : State) : s.pubQueue.scheduler.queue = s.scheduler.queue := by
  obtain ⟨g, hg⟩ := s.pubQueue_scheduler
  rw [hg]
theorem State.pubSummaryIfAccount_scheduler (s : State) : s.pubSummaryIfAccount.scheduler = s.scheduler := by rw [State.pubSummaryIfAccount_eq]
theorem State.pubSummaryIfAccount_reports (s : State) : s.pubSummaryIfAccount.reports = s.reports := by rw [State.pubSummaryIfAccount_eq]

/-- A QUEUED bay's entry moves to the tail of its new class; an opportunity where it was the head or becomes it (R58, R64). -/
theorem State.classSet_moves {old new : BaySettings} (hst : (s.bay n).record.state = .queued) (hcls : new.cls ≠ old.cls) {e : QueueEntry}
    (he : s.scheduler.queue.find? (fun x => x.bay == n) = some e) :
    (s.classSet n old new).scheduler.queue = enqueue { e with cls := new.cls, enqueued := s.time } (s.queueWithout n) ∧
      (headBay s.scheduler.queue = some n ∨ headBay (s.classSet n old new).scheduler.queue = some n →
        (s.classSet n old new).reports.pass = true) := by
  have hmoves : s.classSet n old new = s.reclass n new.cls := if_pos ⟨hcls, by simp [hst]⟩
  rw [hmoves]
  unfold State.reclass
  rw [he]
  dsimp only
  rw [State.pubSummaryIfAccount_scheduler, State.pubSummaryIfAccount_reports, State.pubQueue_queue, State.reports_pubQueue]
  refine ⟨rfl, fun h => ?_⟩
  obtain h | h := h <;> simp [h]

/-- What the changed fields do, in its two moves and its reports (R27, R47, R58, R64). -/
theorem State.bayFieldsChanged_moves (old new : BaySettings) :
    let c := (s.policySet n old new).classSet n old new
    s.bayFieldsChanged n old new = { c with reports := { c.reports with
      run := c.reports.run || ((decide (new.cls ≠ old.cls) || decide (new.shedEligible ≠ old.shedEligible)) && s.rerunReady)
      pass := c.reports.pass || (decide (new.profile ≠ old.profile) && (s.bay n).record.state == .queued) } } := by
  have hstate : ((s.policySet n old new).bay n).record.state = (s.bay n).record.state := by rw [State.policySet_bay]
  unfold State.classSet
  rw [hstate]
  rfl

theorem State.bayFieldsChanged_eq (old new : BaySettings) : s.bayFieldsChanged n old new =
    { s with bays := (s.policySet n old new).bays, scheduler := (s.bayFieldsChanged n old new).scheduler,
             status := (s.bayFieldsChanged n old new).status, reports := (s.bayFieldsChanged n old new).reports } := by
  rw [State.bayFieldsChanged_moves, State.classSet_eq, State.policySet_eq]

theorem State.bayFieldsChanged_bay (old new : BaySettings) (m : BayNo) :
    (s.bayFieldsChanged n old new).bay m = (s.policySet n old new).bay m := by
  rw [State.bayFieldsChanged_eq]; rfl

/-- The settings of bay n stored and acted on, its record published (R27). -/
def State.bayStored (n : BayNo) (new : BaySettings) (s : State) : State :=
  ((s.withBaySet n new).bayFieldsChanged n (s.baySet n) new).pubBay n

theorem State.bayStored_eq (new : BaySettings) : s.bayStored n new =
    { s with settings := (s.withBaySet n new).settings, bays := (s.bayStored n new).bays, scheduler := (s.bayStored n new).scheduler,
             status := (s.bayStored n new).status, reports := (s.bayStored n new).reports } := by
  unfold State.bayStored
  rw [State.pubBay_eq, State.bayFieldsChanged_eq]; rfl

theorem State.bayStored_late (new : BaySettings) : (s.bayStored n new).late = s.late := by rw [State.bayStored_eq]

theorem State.bayStored_bay_of_ne (new : BaySettings) {m : BayNo} (h : m ≠ n) : (s.bayStored n new).bay m = s.bay m := by
  unfold State.bayStored
  rw [State.bay_pubBay_of_ne _ h, State.bayFieldsChanged_bay, State.policySet_bay_of_ne _ _ h]; rfl

theorem State.bayStored_like (new : BaySettings) : ((s.bayStored n new).bay n).like
    { s.bay n with record := { (s.bay n).record with flags := { (s.bay n).record.flags with
        wait5v := waitAfter (s.baySet n) new (s.bay n).record.flags.wait5v } } } := by
  have hbay : ((s.withBaySet n new).bayFieldsChanged n (s.baySet n) new).bay n = _ :=
    (State.bayFieldsChanged_bay (s.baySet n) new n).trans (State.policySet_bay (s.baySet n) new)
  exact Bay.like_trans (Bay.like_symm (State.pubBay_like _ n n)) (by rw [hbay]; rfl)

theorem State.bayStored_scheduler (new : BaySettings) : (s.bayStored n new).scheduler =
    (((s.withBaySet n new).policySet n (s.baySet n) new).classSet n (s.baySet n) new).scheduler := by
  unfold State.bayStored
  rw [State.pubBay_eq, State.bayFieldsChanged_moves]

theorem State.bayStored_reports (new : BaySettings) : (s.bayStored n new).reports =
    let c := ((s.withBaySet n new).policySet n (s.baySet n) new).classSet n (s.baySet n) new
    { c.reports with
      run := c.reports.run || ((decide (new.cls ≠ (s.baySet n).cls) || decide (new.shedEligible ≠ (s.baySet n).shedEligible)) && s.rerunReady)
      pass := c.reports.pass || (decide (new.profile ≠ (s.baySet n).profile) && (s.bay n).record.state == .queued) } := by
  unfold State.bayStored
  rw [State.pubBay_eq, State.bayFieldsChanged_moves]; rfl

/-- SET_BAY raises BAY_CHANGE just where WAIT_5V cleared (R27). -/
theorem State.setBay_cases (a : SetBayArgs) :
    let new := (BaySettings.apply a (s.baySet n)).1
    let kept := waitAfter (s.baySet n) new (s.bay n).record.flags.wait5v = (s.bay n).record.flags.wait5v
    (kept → (s.setBay n a).1 = s.bayStored n new) ∧ (¬ kept → (s.setBay n a).1 = (s.bayStored n new).raiseBoth srcBayChange) := by
  intro new kept
  have hflags : ((s.bayStored n new).bay n).record.flags.wait5v = waitAfter (s.baySet n) new (s.bay n).record.flags.wait5v := by
    rw [Bay.like_flags (State.bayStored_like new)]
  exact ⟨fun h => if_pos (hflags.trans h), fun h => if_neg fun hw => h (hflags.symm.trans hw)⟩

/-! ### The clamps -/

@[simp] theorem finOf_val (m : Nat) [NeZero m] (v : Nat) (h : v < m) : (finOf m v).val = v := Nat.mod_eq_of_lt h

theorem Policy.code_ofCode {v : Nat} (h : v ≤ 2) : (Policy.ofCode v).code = v := by
  interval_cases v <;> rfl

theorem Policy.code_le (p : Policy) : p.code ≤ 2 := by cases p <;> decide

/-- Each of SET_BAY's six fields is as given, clamped to its greatest value, or as it stood (R27). -/
theorem BaySettings.apply_fields (a : SetBayArgs) (b : BaySettings) :
    let given (hi now : Nat) : Option Byte → Nat := fun | none => now | some v => min hi v.toNat
    let new := (BaySettings.apply a b).1
    new.policy.code = given 2 b.policy.code a.policy ∧ new.cls.val = given 3 b.cls.val a.cls ∧
      new.zone.val = given 3 b.zone.val a.zone ∧ new.profile.val = given 7 b.profile.val a.profile ∧
      (new.shedEligible = true ↔ given 1 (if b.shedEligible then 1 else 0) a.shed = 1) ∧
      (new.latchStop = true ↔ given 1 (if b.latchStop then 1 else 0) a.latch = 1) := by
  intro given new
  have hgiven {hi now : Nat} (x : Option Byte) : (givenByte 0 hi now x).1 = given hi now x := by rw [givenByte_upto] <;> cases x <;> rfl
  have hle {hi now : Nat} (h : now ≤ hi) (x : Option Byte) : given hi now x ≤ hi := by
    cases x with
    | none => exact h
    | some v => exact min_le_left _ _
  refine ⟨?_, ?_, ?_, ?_, ?_, ?_⟩
  · show (Policy.ofCode (givenByte 0 2 b.policy.code a.policy).1).code = _
    rw [hgiven, Policy.code_ofCode (hle b.policy.code_le _)]
  · show (finOf 4 (givenByte 0 3 b.cls.val a.cls).1).val = _
    rw [hgiven, finOf_val _ _ (Nat.lt_succ_of_le (hle (by omega) _))]
  · show (finOf 4 (givenByte 0 3 b.zone.val a.zone).1).val = _
    rw [hgiven, finOf_val _ _ (Nat.lt_succ_of_le (hle (by omega) _))]
  · show (finOf 8 (givenByte 0 7 b.profile.val a.profile).1).val = _
    rw [hgiven, finOf_val _ _ (Nat.lt_succ_of_le (hle (by omega) _))]
  · show decide ((givenByte 0 1 (if b.shedEligible then 1 else 0) a.shed).1 = 1) = true ↔ _
    rw [hgiven, decide_eq_true_iff]
  · show decide ((givenByte 0 1 (if b.latchStop then 1 else 0) a.latch).1 = 1) = true ↔ _
    rw [hgiven, decide_eq_true_iff]

/-- SET_BAY was clamped just where a given field lies beyond its greatest value (R27). -/
theorem BaySettings.apply_clamped (a : SetBayArgs) (b : BaySettings) :
    let beyond (hi : Nat) : Option Byte → Bool := fun | none => false | some v => decide (hi < v.toNat)
    (BaySettings.apply a b).2 =
      (beyond 2 a.policy || beyond 3 a.cls || beyond 3 a.zone || beyond 7 a.profile || beyond 1 a.shed || beyond 1 a.latch) := by
  simp only [BaySettings.apply, givenByte_upto] <;> rfl

/-! ### SET_BAY -/

theorem exec_setBay_taken {h : SlipHead} (ht : s.takeable h = true) (hn : s.bayTarget h.target = some n) (a : SetBayArgs) :
    exec (.setBay h a) s = .next (((s.markTaken h.addr).setBaySlip h a n).finishSlip h.port) :=
  congrArg _ (State.slipCommand_onBay (fun n u => u.setBaySlip h a n) ht hn)

/-- Settles O23: the settings stored, then the moves that the changed fields make, in `bayStored`. -/
theorem setBayStores : Obligations.SetBayStores := by
  intro s h a n htake htarget b f old given beyond clamped
  let t := s.markTaken h.addr
  let new := (BaySettings.apply a old).1
  let p := t.bayStored n new
  let v := (t.setBay n a).1
  have hrun : s.phase = .running := s.takeable_running h htake
  obtain ⟨hpolicy, hcls, hzone, hprofile, hshed, hlatch⟩ := BaySettings.apply_fields a old
  have hclamped : (BaySettings.apply a old).2 = clamped := BaySettings.apply_clamped a old
  obtain ⟨hkept, hraised⟩ := State.setBay_cases (s := t) (n := n) a
  have hv : v = { p with late := v.late } := by
    by_cases hw : waitAfter old new f.wait5v = f.wait5v
    · have hv : v = p := hkept hw
      rw [hv]
    · have hv : v = p.raiseBoth srcBayChange := hraised hw
      rw [hv]; rfl
  have hframe : v = { t with settings := (t.withBaySet n new).settings, bays := p.bays, scheduler := p.scheduler, status := p.status,
                             reports := p.reports, late := v.late } :=
    hv.trans (congrArg (fun q : State => { q with late := v.late }) (State.bayStored_eq new))
  have hlate : p.late = s.late := State.bayStored_late (s := t) new
  have hbays : ∀ m, v.bay m = p.bay m := fun m => by rw [hv]; rfl
  have hbaySet : v.baySet n = new := by
    rw [hframe]
    exact Vector.getElem_set_self ..
  have hlike : (v.bay n).like { b with record := { b.record with flags := { f with wait5v := waitAfter old new f.wait5v } } } :=
    hbays n ▸ State.bayStored_like (s := t) new
  have hclass := State.bayStored_scheduler (s := t) (n := n) new
  have hreports := State.bayStored_reports (s := t) (n := n) new
  have hvreports : v.reports = p.reports := by rw [hv]
  let w := (t.withBaySet n new).policySet n old new
  have hwstate : (w.bay n).record.state = b.record.state := by rw [State.policySet_bay]; rfl
  have hwsched : w.scheduler = s.scheduler := State.policySet_scheduler (s := t.withBaySet n new) old new
  have hwtime : w.time = s.time := State.policySet_time (s := t.withBaySet n new) old new
  have hmoves := fun hst hcls e he => State.classSet_moves (s := w) (n := n) (old := old) (new := new) hst hcls (e := e) he
  refine ⟨v, new, ?_, hpolicy, hcls, hzone, hprofile, hshed, hlatch, ?_, ?_, ?_, ?_, ?_, ?_, ?_, ?_, ?_, ?_, ?_, ⟨hlike, ?_⟩, ?_, ?_, ?_, ?_⟩
  · rw [exec_setBay_taken htake htarget, ← hclamped]
    show _ = Host.Outcome.next ((v.endTaken h .ok (BaySettings.apply a old).2 false (some (0 :: new.bytes))).finishSlip h.port)
    rw [← hbaySet]; rfl
  · rw [hframe]; rfl
  · rw [hframe]; rfl
  · rw [hframe]; rfl
  · rw [hframe]; rfl
  · rw [hframe]; rfl
  · rw [hframe]; rfl
  · rw [hframe]; rfl
  · rw [hframe]; rfl
  · intro m hm
    rw [hbays m, State.bayStored_bay_of_ne new hm]; rfl
  · rw [hv]
    refine State.shown_of_eq (s := p) rfl rfl rfl (State.pubBay_shown _ n ?_)
    rw [State.bayFieldsChanged_eq]; exact hrun
  · by_cases hw : waitAfter old new f.wait5v = f.wait5v
    · have hv : v = p := hkept hw
      rw [hv]
      exact .of_late hlate
    · have hv : v = p.raiseBoth srcBayChange := hraised hw
      rw [hv]
      intro e he
      rw [State.raiseBoth_late, hlate] at he
      simp only [List.append_assoc, List.mem_append, List.mem_singleton] at he
      exact he.imp_right fun h => by obtain rfl | rfl := h <;> simp
  · intro hw
    have hv : v = p.raiseBoth srcBayChange := hraised hw
    rw [hv]
    intro q
    rw [State.raiseBoth_late]
    cases q <;> simp
  · intro hst
    rw [hv]
    show p.scheduler = _
    have hstands : w.classSet n old new = w := State.classSet_stands (by rw [hwstate]; exact hst)
    exact hclass.trans ((congrArg State.scheduler hstands).trans hwsched)
  · intro e hst hne he
    obtain ⟨hqueue, hpass⟩ := hmoves (hwstate.trans hst) hne e (by rw [hwsched]; exact he)
    have hqueueWithout : w.queueWithout n = s.queueWithout n := by unfold State.queueWithout; rw [hwsched]
    have hvsched : v.scheduler = (w.classSet n old new).scheduler := by rw [hv]; exact hclass
    rw [hwtime, hqueueWithout] at hqueue
    rw [hwsched] at hpass
    refine ⟨by rw [hvsched]; exact hqueue, fun h => ?_⟩
    have hpass := hpass (by rw [← hvsched]; exact h)
    rw [hvreports, hreports]
    exact Bool.or_eq_true_iff.2 (.inl hpass)
  · intro hst hne
    rw [hvreports, hreports]
    exact Bool.or_eq_true_iff.2 (.inr (Bool.and_eq_true_iff.2 ⟨decide_eq_true hne, beq_iff_eq.2 hst⟩))
  · intro hne hover hexpired htimer hshed'
    rw [hvreports, hreports]
    have hready : t.rerunReady = true := t.rerunReady_iff.2 ⟨hover, hexpired, htimer, hshed'⟩
    refine Bool.or_eq_true_iff.2 (.inr ?_)
    rw [hready, Bool.and_true]
    exact Bool.or_eq_true_iff.2 (hne.imp decide_eq_true decide_eq_true)

end Sys2Proof.Machine
end

section
/-! SUPPORT. A handling of the account (R33 to R37, R42, R43, R47), the base of a rail, and the supply inputs (R31, R32). -/

namespace Sys2Proof.Machine

variable {s t u : State}

/-! ### Over-commit -/

theorem State.accountUpdate_account (s : State) : s.accountUpdate.account = s.evaluated s.figures := by rw [State.accountUpdate_eq]
theorem State.accountUpdate_reports_eq (s : State) : s.accountUpdate.reports = s.accountReports (s.evaluated s.figures) := by
  rw [State.accountUpdate_eq]

@[simp] theorem State.evaluated_overCommitted (s : State) (f : Account) : (s.evaluated f).overCommitted = f.exceeded := by
  rw [State.evaluated_eq]

/-- Over-commit entered: the shed delay timer starts, or its expiry is taken at once where the delay is 0 (R42, R43). -/
theorem State.evaluated_entered {f : Account} (clear : s.account.overCommitted = false) (exceeded : f.exceeded = true) :
    (s.evaluated f).shedTimer = (if s.settings.account.shed then s.shedTimerStart else none) ∧
      (s.evaluated f).delayExpired = (s.settings.account.shed && decide (s.settings.account.delay = 0)) := by
  unfold State.evaluated
  rw [if_pos exceeded, if_neg (by simp [clear])]
  exact ⟨rfl, rfl⟩

/-- While over-commit stands, nothing of it moves (R42). -/
theorem State.evaluated_stands {f : Account} (hover : s.account.overCommitted = true) (exceeded : f.exceeded = true) :
    s.evaluated f = { f with overCommitted := true } := by
  unfold State.evaluated
  rw [if_pos exceeded, if_pos hover]

/-- Over-commit cleared (R42). -/
theorem State.evaluated_cleared {f : Account} (clear : f.exceeded = false) :
    s.evaluated f = { f with overCommitted := false, unresolved := false, shedTimer := none, delayExpired := false } := by
  unfold State.evaluated
  rw [if_neg (by simp [clear])]

/-- The figures that are set afresh (R33, R35, R36). -/
theorem State.evaluated_redundancyLost (s : State) (f : Account) : (s.evaluated f).redundancyLost = f.redundancyLost := by
  rw [State.evaluated_eq]

/-- POWER is raised to both ports just where it is due (R33, R42). -/
theorem State.accountUpdate_told (h : s.powerDue (s.evaluated s.figures) = true) : s.accountUpdate.told srcPower := by
  intro p
  rw [State.accountUpdate_late, if_pos h]
  cases p <;> simp

theorem State.accountUpdate_onlyPower (s : State) : OnlyTold [srcPower] s s.accountUpdate := by
  intro e he
  rw [State.accountUpdate_late, List.mem_append] at he
  refine he.imp_right fun h => ?_
  split at h
  · simp only [List.mem_cons, List.not_mem_nil, or_false] at h
    obtain rfl | rfl := h <;> simp
  · exact absurd h (by simp)

/-! ### The base of a rail -/

theorem foldl_max_spec (l : List Nat) (a : Nat) :
    a ≤ l.foldl max a ∧ (∀ x ∈ l, x ≤ l.foldl max a) ∧ (l.foldl max a = a ∨ l.foldl max a ∈ l) := by
  induction l generalizing a with
  | nil => simp
  | cons y l ih =>
    obtain ⟨hle, hall, hmem⟩ := ih (max a y)
    refine ⟨le_trans (le_max_left _ _) hle, fun x hx => ?_, ?_⟩
    · obtain rfl | hx := List.mem_cons.1 hx
      · exact le_trans (le_max_right _ _) hle
      · exact hall x hx
    · rw [List.foldl_cons]
      obtain h | h := hmem
      · rw [h]
        obtain hmax | hmax := max_choice a y
        · exact .inl hmax
        · exact .inr (by rw [hmax]; exact List.mem_cons_self)
      · exact .inr (List.mem_cons_of_mem _ h)

/-- In SPARE_ONE the largest of two or more capacities is kept spare (R33). -/
theorem baseOf_spareOne {caps : List Nat} (h : 2 ≤ caps.length) :
    ∃ m ∈ caps, (∀ x ∈ caps, x ≤ m) ∧ baseOf .spareOne caps + m = caps.sum := by
  obtain ⟨-, hall, hmem⟩ := foldl_max_spec caps 0
  have hmax : caps.foldl max 0 ∈ caps := by
    obtain hzero | hmem := hmem
    · obtain ⟨x, hx⟩ := List.exists_mem_of_length_pos (by omega : 0 < caps.length)
      have hx0 : x = 0 := by have := hall x hx; omega
      rw [hzero, ← hx0]
      exact hx
    · exact hmem
  refine ⟨_, hmax, hall, ?_⟩
  have hle : caps.foldl max 0 ≤ caps.sum := List.le_sum_of_mem hmax
  show (if 2 ≤ caps.length then caps.sum - caps.foldl max 0 else caps.sum) + _ = _
  rw [if_pos h]
  omega

/-- Settles O24, by the over-commit evaluated on the figures (`evaluated`) and the reports that they make. -/
theorem accountHandlesChange : Obligations.AccountHandlesChange := by
  refine ⟨fun s => ?_, fun caps => ⟨rfl, ?_, ?_, fun h => baseOf_spareOne h⟩⟩
  · intro t a c
    have hc : c = s.evaluated s.figures := s.accountUpdate_account
    have hover : c.overCommitted = s.figures.exceeded := by rw [hc, State.evaluated_overCommitted]
    have hlost : c.redundancyLost = s.redundancyLostNow := by rw [hc, State.evaluated_redundancyLost]; rfl
    have hreports : t.reports = s.accountReports c := hc ▸ s.accountUpdate_reports_eq
    refine ⟨s.accountUpdate_handled, ?_, s.accountUpdate_outer, s.accountUpdate_onlyPower, fun h => ?_, fun h => ?_, ?_, fun hclear hexc => ?_,
      fun hclear => ?_, fun ho ho' => ?_, fun hspent ho hmoved => ?_, fun h => ?_, fun h => ?_, fun h => ?_, fun h => ?_⟩
    · show s.accountUpdate.ram = s.ram
      rw [State.accountUpdate_eq]
    · refine State.accountUpdate_told ?_
      rw [← hc, State.powerDue]; simp [a, h]
    · refine State.accountUpdate_told ?_
      rw [← hc, State.powerDue]; simp [a, h]
    · rw [hlost]; exact s.redundancyLostNow_iff
    · obtain ⟨htimer, hexpired⟩ := State.evaluated_entered hclear (hover.symm.trans hexc)
      rw [← hc] at htimer hexpired
      refine ⟨?_, fun hshed hdelay => ?_⟩
      · rw [htimer]
        unfold State.shedTimerStart
        cases s.settings.account.shed <;> by_cases hd : s.settings.account.delay = 0 <;> simp [hd]
      · have hready : c.delayExpired = true := by rw [hexpired, hshed, hdelay]; rfl
        have hentered : (!a.overCommitted) = true := by rw [hclear]; rfl
        rw [hreports]
        simp [State.accountReports, hexc, hready, show s.account.overCommitted = false from hclear]
    · have hcleared : c = _ := hc.trans (State.evaluated_cleared (hover.symm.trans hclear))
      refine ⟨by rw [hcleared], by rw [hcleared], fun ho => ?_⟩
      rw [hreports]
      simp [State.accountReports, hclear, show s.account.overCommitted = true from ho]
    · have hstands : c = _ := hc.trans (State.evaluated_stands ho (hover.symm.trans ho'))
      exact ⟨by rw [hstands]; rfl, by rw [hstands]; rfl⟩
    · rw [hreports]
      have hmoved' : Account.moved s.account c = true := by
        simp only [Account.moved, Bool.not_eq_true', Bool.and_eq_false_iff, decide_eq_false_iff_not]
        obtain h | h | h | h := hmoved
        · exact .inl (.inl (.inl h.symm))
        · exact .inl (.inl (.inr h.symm))
        · exact .inl (.inr h.symm)
        · exact .inr h.symm
      simp [State.accountReports, ho, s.rerunReady_iff.2 hspent, hmoved']
    · rw [hreports]; simp [State.accountReports, show c.committed12 < s.account.committed12 from h]
    · rw [hreports]; simp [State.accountReports, show s.account.usable12 < c.usable12 from h]
    · rw [hreports]; simp [State.accountReports, show c.committed5 < s.account.committed5 from h]
    · rw [hreports]; simp [State.accountReports, show s.account.usable5 < c.usable5 from h]
  · rintro rfl; rfl
  · rintro x rfl; simp [baseOf]

end Sys2Proof.Machine
end

section
/-! SUPPORT. The supply slots and the account settings (R31, R32, R49, R50). -/

namespace Sys2Proof.Machine

variable {s t u : State}

/-! ### A slot sampled -/

/-- Slot i sampled and published: its record alone, with a generation of its own. -/
theorem State.sampledPub_account (s : State) (i : Fin 4) : ∃ g, ((s.sampleSupply i).pubSupply i).account =
    { s.account with supplies := s.account.supplies.set i { s.sampledSupply i with gen := g } } := by
  have hset : (s.sampleSupply i).account.supplies[i] = s.sampledSupply i := Vector.getElem_set_self ..
  unfold State.pubSupply
  dsimp only
  rw [hset]
  split
  · exact ⟨(s.sampledSupply i).gen, rfl⟩
  · exact ⟨nextGen (s.sampleSupply i).status.supplies[i] (s.sampledSupply i).gen, by simp [State.sampleSupply, State.mark]⟩

/-- The record of a sampled slot (R31). -/
theorem State.sampledSupply_eq (s : State) (i : Fin 4) : s.sampledSupply i =
    let present := s.settings.supplies[i].fitted && s.supplyLines[i].present
    let good := s.settings.supplies[i].fitted && s.supplyLines[i].good
    { present := present, good := good, state := supplyStateOf present good, gen := s.account.supplies[i].gen } := by
  unfold State.sampledSupply
  dsimp only
  cases s.settings.supplies[i].fitted <;> rfl

theorem SupplySetting.fitted_iff (c : SupplySetting) : c.fitted = true ↔ ¬ (c.cap12 = 0 ∧ c.cap5 = 0) := by
  simp [SupplySetting.fitted, imp_iff_not_or]

/-- A handling of the account after work that left what it speaks of. -/
theorem AccountHandled.after (h : AccountHandled t u) (bays : t.bays = s.bays) (lines : t.lines = s.lines) (feeds : t.feeds = s.feeds)
    (lights : t.lights = s.lights) (scheduler : t.scheduler = s.scheduler) (readers : t.readers = s.readers)
    (attention : t.attention = s.attention) : AccountHandled s u where
  bays := h.bays.trans bays
  lines := h.lines.trans lines
  feeds := h.feeds.trans feeds
  lights := by rw [h.lights, lights]
  scheduler := h.scheduler.trans scheduler
  readers := h.readers.trans readers
  attention := h.attention.trans attention
  balanced := h.balanced
  enclosure := by
    have henc := h.enclosure
    unfold State.enclosureLit at henc ⊢
    rw [lights] at henc
    exact henc

/-- POWER raised is no part of what `AccountHandled` speaks of. -/
theorem AccountHandled.raiseBoth (h : AccountHandled s t) (i : Fin 8) : AccountHandled s (t.raiseBoth i) := h.raiseOpt (some i)

theorem State.raiseBoth_told (s : State) (i : Fin 8) : (s.raiseBoth i).told i := by
  intro p
  rw [State.raiseBoth_late]
  cases p <;> simp

theorem State.raiseBoth_onlyTold (s : State) (i : Fin 8) : OnlyTold [i] s (s.raiseBoth i) := by
  intro e he
  rw [State.raiseBoth_late] at he
  simp only [List.append_assoc, List.mem_append, List.mem_singleton] at he
  exact he.imp_right fun h => by obtain rfl | rfl := h <;> simp

/-! ### The supply inputs -/

/-- The state with slot i's input lines as they read. -/
def State.withSupplyLine (i : Fin 4) (present good : Bool) (s : State) : State :=
  { s with supplyLines := s.supplyLines.set i { present := present, good := good } }

theorem exec_supplyInputChange (s : State) (i : Fin 4) (present good : Bool) : exec (.supplyInputChange i present good) s =
    .next (if s.running = true ∧ s.settings.supplies[i].fitted = true then ((s.withSupplyLine i present good).takeSupply i).close
      else s.withSupplyLine i present good) := rfl

/-- The state with slot i sampled and its record republished. -/
def State.slotSampled (i : Fin 4) (s : State) : State := (s.sampleSupply i).pubSupply i

theorem State.slotSampled_eq (s : State) (i : Fin 4) : s.slotSampled i =
    { s with account := (s.slotSampled i).account, status := (s.slotSampled i).status } := s.sampledPub_eq i

theorem State.takeSupply_same {i : Fin 4} (h : (s.sampledSupply i).state = s.account.supplies[i].state) : s.takeSupply i = s.slotSampled i :=
  if_pos h.symm

theorem State.takeSupply_moved {i : Fin 4} (h : (s.sampledSupply i).state ≠ s.account.supplies[i].state) :
    s.takeSupply i = (s.slotSampled i).accountUpdate.raiseBoth srcPower := if_neg (Ne.symm h)

/-- Settles O25: an input change moves its slot's record, and the account where the slot's state changed. -/
theorem supplyInputsSetState : Obligations.SupplyInputsSetState := by
  intro s i present good c lines old st
  refine ⟨fun h => ?_, fun hrun hfit => ?_⟩
  · rw [exec_supplyInputChange, if_neg]
    · rfl
    · rintro ⟨hrun, hfit⟩
      obtain h | h := h
      · exact h ((State.running_iff s).1 hrun)
      · exact (SupplySetting.fitted_iff _).1 hfit h
  · let t := s.withSupplyLine i present good
    have hfitted : s.settings.supplies[i].fitted = true := (SupplySetting.fitted_iff _).2 (fun h => hfit.elim (· h.1) (· h.2))
    have hexec : exec (.supplyInputChange i present good) s = .next (t.takeSupply i).close := by
      rw [exec_supplyInputChange, if_pos ⟨(State.running_iff s).2 hrun, hfitted⟩]
    have hsampled : t.sampledSupply i = { present := present, good := good, state := st, gen := s.account.supplies[i].gen } := by
      have hline : t.supplyLines[i] = { present := present, good := good } := Vector.getElem_set_self ..
      have hset : t.settings.supplies[i].fitted = true := hfitted
      rw [State.sampledSupply_eq, hline, hset]
      rfl
    obtain ⟨g, hg⟩ := t.sampledPub_account i
    let w := t.slotSampled i
    have hw : w = { t with account := w.account, status := w.status } := t.slotSampled_eq i
    have hwaccount : w.account = { s.account with supplies := s.account.supplies.set i { present := present, good := good, state := st, gen := g } } := by
      show (t.slotSampled i).account = _
      unfold State.slotSampled
      rw [hg, hsampled]; rfl
    have hstate : (t.sampledSupply i).state = st := congrArg Supply.state hsampled
    by_cases hst : st = old.state
    · have hu : t.takeSupply i = w := State.takeSupply_same (hstate.trans hst)
      refine ⟨w, by rw [hexec, hu], ⟨g, ?_⟩, ?_, ?_, ?_, ?_, ?_, ?_, ?_, ?_, fun h => absurd hst h, fun _ => ⟨?_, ?_, ?_, ?_⟩⟩
      · rw [hw, hwaccount]; rfl
      · rw [hw]; rfl
      · rw [hw]; rfl
      · rw [hw]; rfl
      · rw [hw]; rfl
      · rw [hw]; rfl
      · rw [hw]; rfl
      · rw [hw]; rfl
      · rw [hw]; rfl
      · rw [hw]; rfl
      · rw [hw]; rfl
      · rw [hw]; rfl
      · rw [hwaccount]
    · have hu : t.takeSupply i = w.accountUpdate.raiseBoth srcPower := State.takeSupply_moved (by rw [hstate]; exact hst)
      have hhandled : AccountHandled s (w.accountUpdate.raiseBoth srcPower) := by
        refine (w.accountUpdate_handled.raiseBoth srcPower).after ?_ ?_ ?_ ?_ ?_ ?_ ?_ <;> rw [hw] <;> rfl
      have houter : (w.accountUpdate.raiseBoth srcPower).outer = w.outer := (State.raiseBoth_outer _ _).trans w.accountUpdate_outer
      have hram : (w.accountUpdate.raiseBoth srcPower).ram = s.ram := by
        show w.accountUpdate.ram = s.ram
        rw [State.accountUpdate_eq, hw]; rfl
      have hlate : w.late = s.late := by rw [hw]; rfl
      refine ⟨_, by rw [hexec, hu], ⟨g, ?_⟩, hhandled.bays, hhandled.lines, hhandled.feeds, hhandled.scheduler, hhandled.readers, hram,
        hhandled.attention, hhandled.lights, fun _ => ⟨hhandled, State.raiseBoth_told _ _, ?_⟩, fun h => absurd h hst⟩
      · rw [houter, hw, hwaccount]; rfl
      · exact (w.accountUpdate_onlyPower.from hlate).trans (State.raiseBoth_onlyTold _ _)

end Sys2Proof.Machine
end

section
/-! SUPPORT. The current samples of a READY bay (R39 to R41). -/

namespace Sys2Proof.Machine

variable {s : State} {n : BayNo}

theorem exec_currentSample (s : State) (n : BayNo) (x : Half) : exec (.currentSample n x) s =
    .next (if s.running = true ∧ s.inCount n = true ∧ (s.bay n).record.state = .ready then s.takeSample n x.toNat else s) := rfl

/-- Settles O28: a sample taken is work on its bay brought to its end, with BAY_CHANGE where DRAW_HIGH moved. -/
theorem currentSampleReconciles : Obligations.CurrentSampleReconciles := by
  intro s n x b p window average past high taken
  refine ⟨fun h => ?_, fun ⟨hrun, hin, hst⟩ => ?_⟩
  · rw [exec_currentSample, if_neg]
    rintro ⟨hrun, hin, hst⟩
    exact h ⟨(State.running_iff s).1 hrun, hin, hst⟩
  · let c := b.sampled s.time p x.toNat
    let e : Option (Fin 8) := if c.record.flags.drawHigh = b.record.flags.drawHigh then none else some srcBayChange
    have hexec : exec (.currentSample n x) s = .next ((s.putBay n c).bayChanged n e).close := by
      rw [exec_currentSample, if_pos ⟨(State.running_iff s).2 hrun, hin, hst⟩]; rfl
    have haverage : averageOf window = average := by
      have hlen : window.length ≠ 0 := by simp [window]
      exact if_neg hlen
    have hpast : b.graceOver s.time = true ↔ past := by
      show (b.reconciling || decide (10000 ≤ Time.age s.time b.record.entered)) = true ↔ _
      rw [Bool.or_eq_true, decide_eq_true_iff]
    have hstate : c.record.state = b.record.state := by
      unfold c Bay.sampled; dsimp only; split <;> rfl
    have hwork : BayWork n s (s.putBay n c) := State.putBay_work hstate
    obtain ⟨handled, bay, line, feed, exchange, queue⟩ :=
      hwork.left (b := c) (l := s.line n) (f := s.feed n) (x := s.exchange) (q := s.scheduler.queue) (State.bay_putBay_same ..) rfl rfl rfl rfl e
    refine ⟨_, hexec, handled, line, feed, exchange, queue, fun h => ?_, fun h => ?_⟩
    · have hgrace : b.graceOver s.time = false := by simpa using mt hpast.1 h
      have hrec : b.reconciling = false := by simpa using fun h' => h (.inl h')
      have hc : c = { b with samples := window, record := { b.record with average := average } } := by
        have hearly : c = { b with samples := window, reconciling := false, record := { b.record with average := averageOf window } } := by
          show Bay.sampled s.time p x.toNat b = _
          unfold Bay.sampled
          rw [hgrace]; rfl
        rw [hearly, haverage, ← hrec]
      have he : e = none := if_pos (by rw [hc])
      exact ⟨hc ▸ bay, he ▸ ((s.putBay n c).bayChanged_onlyPower n).from rfl⟩
    · have hgrace : b.graceOver s.time = true := hpast.2 h
      have hc : c = { b with samples := window, reconciling := true, record := { b.record with
          average := average, c12 := min p.peak12 (max p.steady12 average), flags := { b.record.flags with drawHigh := high } } } := by
        show Bay.sampled s.time p x.toNat b = _
        unfold Bay.sampled
        rw [hgrace]
        show _ = { b with samples := window, reconciling := true, record := BayRecord.reconciled p { b.record with average := average } }
        rw [← haverage]; rfl
      have hhigh : c.record.flags.drawHigh = high := by rw [hc]
      refine ⟨hc ▸ bay, fun hne => ?_, fun heq => ?_⟩
      · have he : e = some srcBayChange := if_neg (by rw [hhigh]; exact hne)
        exact he ▸ (s.putBay n c).bayChanged_told n _
      · have he : e = none := if_pos (by rw [hhigh]; exact heq)
        exact he ▸ ((s.putBay n c).bayChanged_onlyPower n).from rfl

end Sys2Proof.Machine
end

section
/-! SUPPORT. SET_SUPPLY on a slot and on the enclosure (R49, R50), SET_SCHEDULE (R75). -/

namespace Sys2Proof.Machine

variable {s t u : State} {h : SlipHead}

theorem targetBelow_some {n : Nat} {target : Byte} {i : Fin n} (ht : target.toNat = i.val) : targetBelow n target = some i := by
  unfold targetBelow
  rw [dif_pos (ht ▸ i.isLt)]
  exact congrArg some (Fin.ext ht)

/-! ### A slot -/

theorem SupplySetting.apply_eq (a : SetSlotArgs) (c : SupplySetting) : SupplySetting.apply a c =
    { cap12 := match a.cap12 with | none => c.cap12 | some v => v.toNat
      cap5 := match a.cap5 with | none => c.cap5 | some v => v.toNat } := by
  unfold SupplySetting.apply
  rw [givenHalf_whole, givenHalf_whole] <;> rfl

/-- The state with the capacities of slot i set. -/
def State.withSlot (i : Fin 4) (c : SupplySetting) (s : State) : State :=
  { s with settings := { s.settings with supplies := s.settings.supplies.set i c } }

theorem State.setSlot_same {i : Fin 4} {a : SetSlotArgs} (hsame : SupplySetting.apply a s.settings.supplies[i] = s.settings.supplies[i]) :
    s.setSlot i a = s := if_pos hsame

/-- The account's work on a slot whose capacities changed. -/
theorem State.setSlot_changed {i : Fin 4} {a : SetSlotArgs} (hne : SupplySetting.apply a s.settings.supplies[i] ≠ s.settings.supplies[i]) :
    let t := s.withSlot i (SupplySetting.apply a s.settings.supplies[i])
    let u := (t.slotSampled i).accountUpdate
    s.setSlot i a = if s.account.supplies[i].state = (t.sampledSupply i).state then u else u.raiseBoth srcPower := if_neg hne

theorem exec_setSupplySlot_taken (ht : s.takeable h = true) {i : Fin 4} (hi : h.target.toNat = i.val) (a : SetSlotArgs) :
    exec (.setSupplySlot h a) s = .next ((((s.markTaken h.addr).setSlot i a).endSettled h false fun t =>
      [BitVec.ofNat 8 t.account.supplies[i].state.code]).finishSlip h.port) := by
  rw [exec_slip_taken _ h s rfl ht]
  show Host.Outcome.next ((State.setSlotSlip h a (s.markTaken h.addr)).finishSlip h.port) = _
  unfold State.setSlotSlip
  rw [targetBelow_some hi]

/-! ### The account settings -/

theorem exec_setSupplyEnclosure_taken (ht : s.takeable h = true) (hi : h.target = 0xFE) (a : SetAccountArgs) :
    exec (.setSupplyEnclosure h a) s = .next ((((s.markTaken h.addr).setAccount a).1.endSettled h
      ((s.markTaken h.addr).setAccount a).2 State.accountResult).finishSlip h.port) := by
  rw [exec_slip_taken _ h s rfl ht]
  show Host.Outcome.next ((State.setAccountSlip h a (s.markTaken h.addr)).finishSlip h.port) = _
  unfold State.setAccountSlip
  rw [if_pos (show h.target = enclosureTarget from hi)]

/-- The bytes of SET_SUPPLY's result data on the enclosure. -/
theorem State.accountResult_eq (s : State) : s.accountResult =
    le16 (min 65535 s.account.usable12) ++ le16 (min 65535 s.account.usable5) ++ le16 (min 65535 s.account.committed12) ++
      le16 (min 65535 s.account.committed5) ++
      [BitVec.ofNat 8 (bitsOf [s.account.overCommitted, s.account.overCommitted && decide (s.account.usable12 < s.account.committed12),
        s.account.overCommitted && decide (s.account.usable5 < s.account.committed5), s.account.unresolved, s.account.redundancyLost])] := by
  unfold State.accountResult AccountSummary.flags State.accountSummary saturate
  simp only [min_comm]

/-- The state with the account settings set. -/
def State.withAccountSet (c : AccountSettings) (s : State) : State := { s with settings := { s.settings with account := c } }

/-- The account settings stored, the shed setting switched, the account handled (R49, R50). -/
def State.accountStored (c : AccountSettings) (s : State) : State :=
  ((s.withAccountSet c).shedSwitched s.settings.account.shed c.shed).accountUpdate

theorem State.setAccount_fst (a : SetAccountArgs) : (s.setAccount a).1 =
    if (AccountSettings.apply a s.settings.account).1 = s.settings.account then s
    else s.accountStored (AccountSettings.apply a s.settings.account).1 := by
  unfold State.setAccount
  dsimp only
  split <;> rfl

theorem State.setAccount_snd (a : SetAccountArgs) : (s.setAccount a).2 = (AccountSettings.apply a s.settings.account).2 := by
  unfold State.setAccount
  dsimp only
  split <;> rfl

@[simp] theorem State.exchange_raiseBoth (s : State) (i : Fin 8) : (s.raiseBoth i).exchange = s.exchange := rfl

/-- Shed turned ON while over-committed starts the delay timer, or takes its expiry at once (R43, R49). -/
theorem State.shedSwitched_on (hover : s.account.overCommitted = true) : s.shedSwitched false true =
    { s with
      account := { s.account with
        shedTimer := s.shedTimerStart
        delayExpired := s.account.delayExpired || decide (s.settings.account.delay = 0) }
      reports := { s.reports with run := s.reports.run || decide (s.settings.account.delay = 0) } } := if_pos ⟨rfl, rfl, hover⟩

theorem State.shedSwitched_off : s.shedSwitched true false = { s with account := { s.account with shedTimer := none } } := by
  unfold State.shedSwitched
  rw [if_neg (by simp), if_pos ⟨rfl, rfl⟩]

theorem State.shedSwitched_same (b : Bool) : s.shedSwitched b b = s := by
  unfold State.shedSwitched
  cases b <;> simp

/-- Switching the shed setting moves the delay timer and its expiry alone of the account (R49). -/
theorem State.shedSwitched_parts (s : State) (old new : Bool) : (s.shedSwitched old new).account.supplies = s.account.supplies ∧
    (s.shedSwitched old new).account.fanRes = s.account.fanRes := by
  unfold State.shedSwitched
  dsimp only
  split
  · exact ⟨rfl, rfl⟩
  · split <;> exact ⟨rfl, rfl⟩

theorem State.shedSwitched_overCommitted (s : State) (old new : Bool) :
    (s.shedSwitched old new).account.overCommitted = s.account.overCommitted := by
  unfold State.shedSwitched
  dsimp only
  split
  · rfl
  · split <;> rfl

/-- Settles O29: a slot and the account settings, each stored, acted on and reported. -/
theorem setSupplyRecomputes : Obligations.SetSupplyRecomputes := by
  constructor
  · intro s h a i htake htarget old new fitted l present good st
    let t := s.markTaken h.addr
    have hnew : SupplySetting.apply a old = new := SupplySetting.apply_eq a old
    refine ⟨t.setSlot i a, exec_setSupplySlot_taken htake htarget a, ?_⟩
    by_cases hsame : new = old
    · have hv : t.setSlot i a = t := State.setSlot_same (hnew.trans hsame)
      rw [hv]
      exact ⟨rfl, fun _ => rfl, fun h => absurd hsame h⟩
    · let t' := t.withSlot i new
      let w := t'.slotSampled i
      have hv : t.setSlot i a = if t.account.supplies[i].state = (t'.sampledSupply i).state then w.accountUpdate
          else w.accountUpdate.raiseBoth srcPower := by
        have hchanged := State.setSlot_changed (s := t) (i := i) (a := a) (fun h => hsame (hnew.symm.trans h))
        rw [show SupplySetting.apply a t.settings.supplies[i] = new from hnew] at hchanged
        exact hchanged
      have hsampled : t'.sampledSupply i = { present := present, good := good, state := st, gen := s.account.supplies[i].gen } := by
        have hset : t'.settings.supplies[i] = new := Vector.getElem_set_self ..
        have hfitted : new.fitted = decide fitted := by
          rw [Bool.eq_iff_iff, decide_eq_true_iff]
          exact SupplySetting.fitted_iff new
        rw [State.sampledSupply_eq, hset, hfitted]; rfl
      have hstate : (t'.sampledSupply i).state = st := congrArg Supply.state hsampled
      obtain ⟨g, hg⟩ := t'.sampledPub_account i
      have hw : w = { t' with account := w.account, status := w.status } := t'.slotSampled_eq i
      have hwaccount : w.account =
          { s.account with supplies := s.account.supplies.set i { present := present, good := good, state := st, gen := g } } := by
        show (t'.slotSampled i).account = _
        unfold State.slotSampled
        rw [hg, hsampled]; rfl
      have hlate : w.late = s.late := by rw [hw]; rfl
      have hhandled : AccountHandled s w.accountUpdate := by
        refine w.accountUpdate_handled.after ?_ ?_ ?_ ?_ ?_ ?_ ?_ <;> rw [hw] <;> rfl
      have houter : w.accountUpdate.outer = { s.outer with
          settings := { s.settings with supplies := s.settings.supplies.set i new }
          supplies := s.account.supplies.set i { present := present, good := good, state := st, gen := g } } := by
        rw [w.accountUpdate_outer, hw, hwaccount]; rfl
      have hexchange : w.accountUpdate.exchange = s.exchange.take h.addr := by
        rw [State.exchange_accountUpdate, hw]; rfl
      have honly : OnlyTold [srcPower] s w.accountUpdate := w.accountUpdate_onlyPower.from hlate
      rw [hv]
      by_cases hst : t.account.supplies[i].state = (t'.sampledSupply i).state
      · rw [if_pos hst]
        exact ⟨hexchange, fun h => absurd h hsame, fun _ => ⟨hhandled, ⟨g, houter⟩, fun h => absurd (hst.trans hstate).symm h, honly⟩⟩
      · rw [if_neg hst]
        exact ⟨(State.exchange_raiseBoth _ _).trans hexchange, fun h => absurd h hsame, fun _ => ⟨hhandled.raiseBoth _,
          ⟨g, (State.raiseBoth_outer _ _).trans houter⟩, fun _ => State.raiseBoth_told _ _, honly.trans (State.raiseBoth_onlyTold _ _)⟩⟩
  · intro s h a htake htarget old given beyond new clamped
    let t := s.markTaken h.addr
    have happly : AccountSettings.apply a old = (new, clamped) := AccountSettings.apply_eq a old
    have hv : (t.setAccount a).1 = if new = old then t else t.accountStored new := by
      rw [State.setAccount_fst, show AccountSettings.apply a t.settings.account = (new, clamped) from happly]; rfl
    have hclamped : (t.setAccount a).2 = clamped := by
      rw [State.setAccount_snd, show AccountSettings.apply a t.settings.account = (new, clamped) from happly]
    refine ⟨(t.setAccount a).1, ?_, ?_⟩
    · rw [exec_setSupplyEnclosure_taken htake htarget]
      show Host.Outcome.next (State.finishSlip h.port ((t.setAccount a).1.endSettled h (t.setAccount a).2 State.accountResult)) = _
      unfold State.endSettled
      rw [hclamped, State.accountResult_eq]
    rw [hv]
    by_cases hsame : new = old
    · rw [if_pos hsame]
      exact ⟨rfl, fun _ => rfl, fun h => absurd hsame h⟩
    · rw [if_neg hsame]
      let t' := t.withAccountSet new
      let w := t'.shedSwitched old.shed new.shed
      have hstored : t.accountStored new = w.accountUpdate := rfl
      have hw : w = { t' with account := w.account, reports := w.reports } := t'.shedSwitched_eq _ _
      have hhandled : AccountHandled s w.accountUpdate := by
        refine w.accountUpdate_handled.after ?_ ?_ ?_ ?_ ?_ ?_ ?_ <;> rw [hw] <;> rfl
      have hparts : w.account.supplies = s.account.supplies ∧ w.account.fanRes = s.account.fanRes := t'.shedSwitched_parts _ _
      have houter : w.outer = { s.outer with settings := { s.settings with account := new } } := by
        obtain ⟨hsup, hres⟩ := hparts
        rw [hw]
        unfold State.outer
        rw [hsup, hres]; rfl
      have hexchange : w.exchange = s.exchange.take h.addr := by rw [hw]; rfl
      have hover : w.account.overCommitted = s.account.overCommitted := t'.shedSwitched_overCommitted _ _
      have haccount : w.accountUpdate.account = w.evaluated w.figures := w.accountUpdate_account
      have hstands (ho : s.account.overCommitted = true) (ho' : w.accountUpdate.account.overCommitted = true) :
          w.accountUpdate.account = { w.figures with overCommitted := true } := by
        rw [haccount, State.evaluated_overCommitted] at ho'
        rw [haccount, State.evaluated_stands (hover.trans ho) ho']
      rw [hstored]
      refine ⟨?_, fun h => absurd h hsame, fun _ => ⟨hhandled, ?_, ?_, fun ho ho' hold hnew => ?_, fun ho ho' hold hnew => ?_,
        fun ho ho' heq => ?_⟩⟩
      · rw [State.exchange_accountUpdate, hexchange]
      · rw [State.accountUpdate_outer, houter]
      · exact w.accountUpdate_onlyPower.from (by rw [hw]; rfl)
      · have hswitch : w = t'.shedSwitched false true := by
          show t'.shedSwitched old.shed new.shed = _
          rw [hold, hnew]
        have hon := hswitch.trans (State.shedSwitched_on (s := t') ho)
        have haccount' := hstands ho ho'
        have hreports : w.accountUpdate.reports = w.accountReports w.accountUpdate.account := by
          rw [haccount]; exact w.accountUpdate_reports_eq
        have hexp : w.accountUpdate.account.delayExpired = w.account.delayExpired := by rw [haccount']; rfl
        refine ⟨?_, fun hzero => ⟨?_, ?_⟩, fun hdelay => ?_⟩
        · rw [haccount']
          show w.account.shedTimer = _
          rw [hon]; rfl
        · rw [hexp, hon]
          exact Bool.or_eq_true_iff.2 (.inr (decide_eq_true hzero))
        · have hrun : w.reports.run = true := by
            rw [hon]
            exact Bool.or_eq_true_iff.2 (.inr (decide_eq_true hzero))
          rw [hreports]
          simp [State.accountReports, hrun]
        · have htimer : w.account.shedTimer = some (Time.plus s.time (new.delay * 1000)) := by
            rw [hon]
            exact if_neg hdelay
          have hready : w.rerunReady = false := by simp [State.rerunReady, htimer]
          have hrun : w.reports.run = s.reports.run := by
            rw [hon]
            show (s.reports.run || decide (new.delay = 0)) = s.reports.run
            rw [decide_eq_false hdelay, Bool.or_false]
          rw [hreports]
          simp [State.accountReports, hready, hrun, hover, ho]
      · have hswitch : w = t'.shedSwitched true false := by
          show t'.shedSwitched old.shed new.shed = _
          rw [hold, hnew]
        have hoff := hswitch.trans State.shedSwitched_off
        rw [hstands ho ho']
        show w.account.shedTimer = none
        rw [hoff]
      · have hkept : w = t' := by
          show t'.shedSwitched old.shed new.shed = _
          rw [heq]
          exact State.shedSwitched_same _
        rw [hstands ho ho']
        show w.account.shedTimer = s.account.shedTimer
        rw [hkept]; rfl

/-! ### The schedule -/

theorem exec_setSchedule_taken (ht : s.takeable h = true) (hi : h.target = 0xFE) (a : SetScheduleArgs) :
    exec (.setSchedule h a) s = .next ((((s.markTaken h.addr).setSchedule a).1.endSettled h
      ((s.markTaken h.addr).setSchedule a).2 State.scheduleResult).finishSlip h.port) := by
  rw [exec_slip_taken _ h s rfl ht]
  show Host.Outcome.next ((State.setScheduleSlip h a (s.markTaken h.addr)).finishSlip h.port) = _
  unfold State.setScheduleSlip
  rw [if_pos (show h.target = enclosureTarget from hi)]

theorem Schedule.apply_eq (a : SetScheduleArgs) (c : Schedule) : Schedule.apply a c =
    ({ limit := match a.limit with | none => c.limit | some v => max 1 (min 16 v.toNat)
       stagger := match a.stagger with | none => c.stagger | some v => min 10000 v.toNat },
     (match a.limit with | none => false | some v => decide (v.toNat < 1 ∨ 16 < v.toNat)) ||
       (match a.stagger with | none => false | some v => decide (10000 < v.toNat))) := by
  obtain ⟨limit, stagger⟩ := a
  cases limit <;> cases stagger <;> simp [Schedule.apply]

/-- The state with a new schedule, its stagger expiry moved, a pass due, before the snapshot is republished (R60, R75). -/
def State.rescheduled (new : Schedule) (s : State) : State :=
  { s with
    settings := { s.settings with schedule := new }
    scheduler := { s.scheduler with
      staggerAt := if new.stagger = s.settings.schedule.stagger then s.scheduler.staggerAt else s.movedStagger new.stagger }
    reports := { s.reports with pass := true } }

theorem State.setSchedule_fst (a : SetScheduleArgs) : (s.setSchedule a).1 =
    if (Schedule.apply a s.settings.schedule).1 = s.settings.schedule then s
    else (s.rescheduled (Schedule.apply a s.settings.schedule).1).pubQueue := by
  unfold State.setSchedule
  dsimp only
  split <;> rfl

theorem State.setSchedule_snd (a : SetScheduleArgs) : (s.setSchedule a).2 = (Schedule.apply a s.settings.schedule).2 := by
  unfold State.setSchedule
  dsimp only
  split <;> rfl

/-- An armed stagger expiry not yet reached moves to the last admission plus the new interval, and one so passed is disarmed (R60). -/
theorem State.movedStagger_armed {interval : Nat} {e last : Time} (he : s.scheduler.staggerAt = some e)
    (hlast : s.scheduler.lastAdmission = some last) (hahead : Time.reached s.time e = false) :
    s.movedStagger interval =
      if Time.reached s.time (Time.plus last interval) then none else some (Time.plus last interval) := by
  unfold State.movedStagger
  rw [he, hlast]
  dsimp only
  rw [if_neg (by simp [hahead])]

/-- Settles O34: the schedule stored with its expiry moved, the pass asked for, the slip ended once every report is acted on. -/
theorem setScheduleMakesPass : Obligations.SetScheduleMakesPass := by
  intro s h a htake htarget old limit stagger clamped new
  let t := s.markTaken h.addr
  have happly : Schedule.apply a old = (new, clamped) := Schedule.apply_eq a old
  let v := (t.setSchedule a).1
  have hv : v = if new = old then t else (t.rescheduled new).pubQueue := by
    show (t.setSchedule a).1 = _
    rw [State.setSchedule_fst, show Schedule.apply a t.settings.schedule = (new, clamped) from happly]; rfl
  have hclamped : (t.setSchedule a).2 = clamped := by
    rw [State.setSchedule_snd, show Schedule.apply a t.settings.schedule = (new, clamped) from happly]
  have hsched : v.settings.schedule = new := by
    rw [hv]
    split
    next hsame => exact hsame.symm
    next => rw [State.pubQueue_eq]; rfl
  refine ⟨v, ?_, ?_⟩
  · have hsettled : v.settle.settings = v.settings := v.settle_settings
    rw [exec_setSchedule_taken htake htarget]
    show Host.Outcome.next (State.finishSlip h.port (v.endSettled h (t.setSchedule a).2 State.scheduleResult)) = _
    unfold State.endSettled State.scheduleResult
    rw [hclamped, hsettled, hsched]
  rw [hv]
  by_cases hsame : new = old
  · rw [if_pos hsame]
    have hstagger : stagger = old.stagger := congrArg Schedule.stagger hsame
    refine ⟨rfl, rfl, ?_, rfl, rfl, rfl, rfl, rfl, rfl, rfl, rfl, rfl, rfl, ?_, fun _ => rfl, fun hne => absurd hstagger hne⟩
    · rw [hsame]; rfl
    · rw [decide_eq_false (not_not.2 hsame), Bool.or_false]; rfl
  · rw [if_neg hsame]
    let w := t.rescheduled new
    obtain ⟨g, hg⟩ := w.pubQueue_scheduler
    have hw : w.pubQueue = { w with scheduler := w.pubQueue.scheduler, status := w.pubQueue.status } := w.pubQueue_eq
    show w.pubQueue.exchange = _ ∧ w.pubQueue.readers = _ ∧ w.pubQueue.outer = _ ∧ w.pubQueue.bays = _ ∧ _
    refine ⟨?_, ?_, ?_, ?_, ?_, ?_, ?_, ?_, ?_, ?_, ?_, ?_, ?_, ?_, ?_, ?_⟩
    · rw [hw]; rfl
    · rw [hw]; rfl
    · rw [hw]; rfl
    · rw [hw]; rfl
    · rw [hw]; rfl
    · rw [hw]; rfl
    · rw [hw]; rfl
    · rw [hw]; rfl
    · rw [hw]; rfl
    · rw [hw]; rfl
    · rw [hg]; rfl
    · rw [hg]; rfl
    · rw [hg]; rfl
    · rw [hw, decide_eq_true hsame, Bool.or_true]; rfl
    · intro hstagger
      rw [hg]
      exact if_pos hstagger
    · intro hstagger e last he hlast hahead
      rw [hg]
      exact (if_neg hstagger).trans (State.movedStagger_armed (s := t) he hlast hahead)

end Sys2Proof.Machine
end

section
/-! SUPPORT. The shed run (R44 to R46), the thermal list (R48) and the order in which reports are acted on (R37). -/

namespace Sys2Proof.Machine

variable {s t : State} {n : BayNo}

theorem exec_shedDelayExpiry (s : State) : exec .shedDelayExpiry s =
    .next (if s.running = true ∧ Time.due s.time s.account.shedTimer = true then
      State.close { s with
        account := { s.account with shedTimer := none, delayExpired := true }
        reports := { s.reports with run := true } }
    else s) := rfl

/-! ### The first bay in the shed order -/

/-- The better of the best bay so far and the next one. -/
def State.shedPick (s : State) (best : Option BayNo) (n : BayNo) : Option BayNo :=
  match best with
  | none => some n
  | some m => if s.shedKey m < s.shedKey n then some n else some m

theorem State.firstShed_eq_foldl (s : State) (l : List BayNo) : s.firstShed l = l.foldl s.shedPick none := by
  unfold State.firstShed State.shedPick; rfl

theorem State.shedPick_best (l : List BayNo) (h : ∀ m ∈ l, m ≠ n → s.shedKey m < s.shedKey n) : l.foldl s.shedPick (some n) = some n := by
  induction l with
  | nil => rfl
  | cons m l ih =>
    have hstep : s.shedPick (some n) m = some n := by
      refine if_neg fun hlt => ?_
      by_cases hm : m = n
      · rw [hm] at hlt; exact lt_irrefl _ hlt
      · exact absurd hlt (h m List.mem_cons_self hm).not_gt
    rw [List.foldl_cons, hstep]
    exact ih fun k hk => h k (List.mem_cons_of_mem _ hk)

/-- A bay of the list with a greater key than every other is the first. -/
theorem State.shedPick_found (l : List BayNo) (hn : n ∈ l) (h : ∀ m ∈ l, m ≠ n → s.shedKey m < s.shedKey n) {best : Option BayNo}
    (hbest : ∀ m ∈ best, s.shedKey m < s.shedKey n) : l.foldl s.shedPick best = some n := by
  induction l generalizing best with
  | nil => cases hn
  | cons m l ih =>
    have htail : ∀ k ∈ l, k ≠ n → s.shedKey k < s.shedKey n := fun k hk => h k (List.mem_cons_of_mem _ hk)
    rw [List.foldl_cons]
    by_cases hm : m = n
    · have hstep : s.shedPick best m = some n := by
        cases best with
        | none => rw [hm]; rfl
        | some k => rw [hm]; exact if_pos (hbest k rfl)
      rw [hstep]; exact State.shedPick_best l htail
    · refine ih ((List.mem_cons.1 hn).resolve_left (Ne.symm hm)) htail fun k hk => ?_
      have hkey := h m List.mem_cons_self hm
      cases best with
      | none => obtain rfl : m = k := Option.some.inj hk; exact hkey
      | some b =>
        simp only [State.shedPick] at hk
        split at hk
        · obtain rfl : m = k := Option.some.inj hk; exact hkey
        · exact hbest k hk

theorem State.firstShed_eq {l : List BayNo} (hn : n ∈ l) (h : ∀ m ∈ l, m ≠ n → s.shedKey m < s.shedKey n) : s.firstShed l = some n := by
  rw [State.firstShed_eq_foldl]
  exact State.shedPick_found l hn h nofun

theorem State.firstShed_nil (s : State) : s.firstShed [] = none := rfl

/-- A bay before another in the shed order has the greater key (R45). -/
theorem State.shedKey_lt {m : BayNo} (h : s.shedBefore n m) : s.shedKey m < s.shedKey n := by
  have hrank (k : BayNo) : shedStateRank (s.bay k).record.state = s.shedRank k := rfl
  have hle (k : BayNo) : s.shedRank k ≤ 4 := by
    unfold State.shedRank; split <;> decide
  have hn := hle n
  have hm := hle m
  have hnv := n.isLt
  have hmv := m.isLt
  unfold State.shedKey
  rw [hrank, hrank]
  obtain h | ⟨hcls, h | ⟨heq, h⟩⟩ := h
  · have hc : (s.baySet m).cls.val < (s.baySet n).cls.val := h
    omega
  · rw [hcls]; omega
  · have hv : m.val < n.val := h
    rw [hcls, heq]; omega

/-- The candidates of a step of the shed run (R44). -/
theorem State.mem_shedCandidates : n ∈ s.shedCandidates s.shedKind ↔
    (s.baySet n).shedEligible = true ∧ ((s.bay n).record.state.spinning = true ∨
      (s.account.usable5 < s.account.committed5 ∧ (s.bay n).record.state.powered = true)) := by
  unfold State.shedCandidates State.shedKind
  rw [List.mem_filter, Bool.and_eq_true, and_iff_right (mem_bayNumbers n)]
  refine and_congr_right fun _ => ?_
  by_cases h5 : s.account.usable5 < s.account.committed5
  · simp only [h5, true_and]
    exact ⟨.inr, fun h => h.elim BayState.powered_of_spinning id⟩
  · simp [h5]

/-! ### A step of the shed run -/

theorem State.shedStep_over (h : s.account.overCommitted = false ∨ s.settings.account.shed = false) : s.shedStep = s.endRun := by
  unfold State.shedStep; exact if_pos h

theorem State.shedStep_none (hover : s.account.overCommitted = true) (hshed : s.settings.account.shed = true)
    (h : s.firstShed (s.shedCandidates s.shedKind) = none) : s.shedStep = s.unresolvable := by
  unfold State.shedStep; rw [if_neg (by simp [hover, hshed]), h]

theorem State.shedStep_some (hover : s.account.overCommitted = true) (hshed : s.settings.account.shed = true)
    (h : s.firstShed (s.shedCandidates s.shedKind) = some n) : s.shedStep = s.shedBay s.shedKind n := by
  unfold State.shedStep; rw [if_neg (by simp [hover, hshed]), h]

theorem State.unresolvable_fields (s : State) : s.unresolvable.account = { s.account with unresolved := true } ∧
    s.unresolvable.reports.run = false ∧ s.unresolvable.bays = s.bays ∧
    (s.account.unresolved = false → s.unresolvable.told srcPower) ∧ (s.account.unresolved = true → s.unresolvable.late = s.late) := by
  unfold State.unresolvable
  cases h : s.account.unresolved with
  | true =>
    rw [if_pos rfl]
    have hacc : s.account = { s.account with unresolved := true } := by rw [← h]
    exact ⟨hacc, rfl, rfl, nofun, fun _ => rfl⟩
  | false =>
    rw [if_neg (by decide)]
    dsimp only
    refine ⟨?_, ?_, ?_, fun _ => State.raiseBoth_told _ _, nofun⟩ <;> rw [State.pubSummaryIfAccount_eq] <;> rfl

theorem State.thermalShed_taken (h : (s.bay n).record.state = .spinningUp ∨ (s.bay n).record.state = .ready) :
    s.thermalShed n = s.shed12 .thermal12 n := if_pos h

theorem State.thermalShed_declined (h : ¬ ((s.bay n).record.state = .spinningUp ∨ (s.bay n).record.state = .ready)) :
    s.thermalShed n = s := if_neg h

/-! ### Acting on one report -/

theorem State.settleStep_pass (h : s.reports.pass = true) : s.settleStep = some s.runPass := by
  unfold State.settleStep; rw [if_pos h]

theorem State.settleStep_walk (hp : s.reports.pass = false) (h : s.reports.walk = true) : s.settleStep = some s.wait5vWalk := by
  unfold State.settleStep; rw [if_neg (by simp [hp]), if_pos h]

theorem State.settleStep_thermal {rest : List BayNo} (hp : s.reports.pass = false) (hw : s.reports.walk = false)
    (h : s.reports.thermal = n :: rest) :
    s.settleStep = some (State.thermalShed n { s with reports := { s.reports with thermal := rest } }) := by
  unfold State.settleStep; rw [if_neg (by simp [hp]), if_neg (by simp [hw]), h]

theorem State.settleStep_run (hp : s.reports.pass = false) (hw : s.reports.walk = false) (ht : s.reports.thermal = [])
    (h : s.reports.run = true) : s.settleStep = some s.shedStep := by
  unfold State.settleStep; rw [if_neg (by simp [hp]), if_neg (by simp [hw]), ht]; exact if_pos h

/-- The four ways to act on one report (R37, R46). -/
theorem State.settleStep_cases (h : s.settleStep = some t) :
    t = s.runPass ∨ (s.reports.pass = false ∧ t = s.wait5vWalk) ∨
    (∃ n rest, s.reports.thermal = n :: rest ∧ t = State.thermalShed n { s with reports := { s.reports with thermal := rest } }) ∨
    t = s.shedStep := by
  unfold State.settleStep at h
  split at h
  · exact .inl (Option.some.inj h).symm
  · rename_i hp
    split at h
    · exact .inr (.inl ⟨by simpa using hp, (Option.some.inj h).symm⟩)
    · split at h
      · rename_i n rest hr; exact .inr (.inr (.inl ⟨n, rest, hr, (Option.some.inj h).symm⟩))
      · split at h
        · exact .inr (.inr (.inr (Option.some.inj h).symm))
        · cases h

/-- Acting on one report makes the thermal list no longer. -/
theorem State.settleStep_thermal_le (hl : s.lined) (h : s.settleStep = some t) : t.reports.thermal.length ≤ s.reports.thermal.length := by
  obtain e | ⟨hp, e⟩ | ⟨n, rest, hr, e⟩ | e := State.settleStep_cases h <;> rw [e]
  · obtain m | ⟨-, -, r⟩ := State.runPass_moved hl
    · rw [m.thermal]
    · rw [r]
  · let w : State := { s with reports := { s.reports with walk := false } }
    have hw : s.wait5vWalk = bayNumbers.foldl State.walkBay w := by unfold State.wait5vWalk; rfl
    rw [hw]
    obtain m | e := State.walkBays_moved bayNumbers (s := w) hl hp
    · rw [m.thermal]
    · rw [e]
  · let w : State := { s with reports := { s.reports with thermal := rest } }
    have hw : (w.thermalShed n).reports.thermal = rest := by
      by_cases hst : (w.bay n).record.state = .spinningUp ∨ (w.bay n).record.state = .ready
      · rw [State.thermalShed_taken hst]
        exact (State.shed12_moved (s := w) hl .thermal12 (by obtain e | e := hst <;> rw [e] <;> rfl)).thermal
      · rw [State.thermalShed_declined hst]
    change (w.thermalShed n).reports.thermal.length ≤ _
    rw [hw, hr]; simp
  · obtain m | ⟨-, -, r⟩ := State.shedStep_moved hl
    · rw [m.thermal]
    · rw [r]

/-! ### Acting on reports through a settings load -/

theorem State.wait5vWalk_still (h : ∀ n, (s.bay n).record.state ≠ .off) :
    s.wait5vWalk = { s with reports := { s.reports with walk := false } } := by
  let w : State := { s with reports := { s.reports with walk := false } }
  have hstep (n : BayNo) : w.walkBay n = w := if_neg fun hc => h n hc.1
  have hfold (l : List BayNo) : l.foldl State.walkBay w = w := by
    induction l with
    | nil => rfl
    | cons n l ih => rw [List.foldl_cons, hstep]; exact ih
  exact hfold bayNumbers

theorem State.runPass_empty_core (h : s.scheduler.queue = []) : s.runPass.core = s.core := by
  unfold State.runPass
  split
  · have hhead : headBay s.scheduler.queue = none := by rw [h]; rfl
    refine (State.withReports_core _ _).trans ?_
    rw [h, List.length_nil, State.passLoop, hhead]
    exact s.setHold_core _
  · rfl

/-- Through a settings load acting on one report moves no bay and no entry. -/
theorem State.settleStep_loading (hq : s.queueSound) (hl : s.phase = .loading) (h : s.settleStep = some t) : t.core = s.core := by
  obtain ⟨hsits, hplaces⟩ := State.load_empty hq hl
  have hempty (n : BayNo) : (s.bay n).record.state = .empty := hsits n
  obtain e | ⟨-, e⟩ | ⟨n, rest, -, e⟩ | e := State.settleStep_cases h <;> rw [e]
  · exact State.runPass_empty_core (List.map_eq_nil_iff.1 hplaces)
  · rw [State.wait5vWalk_still fun n => by rw [hempty]; decide]; exact State.withReports_core _ _
  · rw [State.thermalShed_declined]
    · exact State.withReports_core _ _
    · show ¬ ((s.bay n).record.state = .spinningUp ∨ (s.bay n).record.state = .ready)
      rw [hempty]; decide
  · have hnone : s.shedCandidates s.shedKind = [] := List.eq_nil_iff_forall_not_mem.2 fun n hn => by
      obtain ⟨-, hst⟩ := State.mem_shedCandidates.1 hn
      rw [hempty] at hst
      obtain hst | ⟨-, hst⟩ := hst <;> cases hst
    unfold State.shedStep
    split
    · exact s.endRun_core
    · rw [hnone, State.firstShed_nil]; exact s.unresolvable_core

theorem State.settleStep_queue (hq : s.queueSound) (h : s.settleStep = some t) : t.queueSound := by
  by_cases hl : s.phase = .loading
  · exact State.queueSound_of_core (State.settleStep_loading hq hl h) hq
  · obtain e | ⟨-, e⟩ | ⟨n, rest, -, e⟩ | e := State.settleStep_cases h <;> rw [e]
    · exact (State.runPass_carried hl).queue hq
    · exact (State.wait5vWalk_carried hl).queue hq
    · refine (State.thermalShed_carried (s := { s with reports := { s.reports with thermal := rest } }) hl).queue ?_
      exact State.queueSound_of_core (State.withReports_core s _) hq
    · exact (State.shedStep_carried hl).queue hq

/-- Settles O26: the shed run's step by its candidates and their keys, and acting on reports one at a time. -/
theorem shedRunPicksByOrder : Obligations.ShedRunPicksByOrder := by
  refine ⟨fun s => ⟨fun hrun hdue => ?_, fun h => ?_⟩, ?_, fun s n => ⟨State.thermalShed_taken, State.thermalShed_declined⟩, ?_, ?_⟩
  · rw [exec_shedDelayExpiry, if_pos ⟨(State.running_iff s).2 hrun, hdue⟩]
  · rw [exec_shedDelayExpiry, if_neg]
    rintro ⟨hrun, hdue⟩
    obtain h | h := h
    · exact h ((State.running_iff s).1 hrun)
    · rw [hdue] at h; cases h
  · intro s five candidate
    have hcand (n : BayNo) : n ∈ s.shedCandidates s.shedKind ↔ candidate n := State.mem_shedCandidates
    refine ⟨State.shedStep_over, fun hover hshed hnone => ?_, fun n hover hshed hn hfirst => ?_⟩
    · have hnil : s.shedCandidates s.shedKind = [] :=
        List.eq_nil_iff_forall_not_mem.2 fun n hn => hnone n ((hcand n).1 hn)
      rw [State.shedStep_none hover hshed (by rw [hnil]; rfl)]
      exact s.unresolvable_fields
    · have hpick : s.firstShed (s.shedCandidates s.shedKind) = some n :=
        State.firstShed_eq ((hcand n).2 hn) fun m hm hne => State.shedKey_lt (hfirst m ((hcand m).1 hm) hne)
      rw [State.shedStep_some hover hshed hpick]
      refine ⟨fun h5 => ?_, fun h5 => ?_⟩
      · have hk : s.shedKind = .power5 := if_pos h5
        rw [hk]; rfl
      · have hk : s.shedKind = .power12 := if_neg h5
        rw [hk]; rfl
  · intro s r
    exact ⟨State.settleStep_pass, State.settleStep_walk, fun n rest => State.settleStep_thermal, State.settleStep_run, State.quiet_iff,
      s.settle_quiet⟩
  · intro s t hq hlen h
    have hl := State.queueSound_lined hq
    exact ⟨State.settleStep_queue hq h, State.settleStep_thermal_le hl h, State.settle_step hl hlen h, State.settle_ends hl hlen⟩

end Sys2Proof.Machine
end

section
/-! SUPPORT. The admission test (R61), an admission (R62) and an admission pass (R63). -/

namespace Sys2Proof.Machine

variable {s t : State} {n : BayNo}

theorem exec_staggerExpiry (s : State) : exec .staggerExpiry s =
    .next (if s.running = true ∧ Time.due s.time s.scheduler.staggerAt = true then
      State.close { s with
        scheduler := { s.scheduler with staggerAt := none }
        reports := { s.reports with pass := true } }
    else s) := rfl

/-! ### The test -/

theorem State.staggerHolds_iff : s.staggerHolds = true ↔ s.scheduler.lastAdmission = none ∨ s.scheduler.staggerAt = none ∨
    Time.due s.time s.scheduler.staggerAt = true ∨ s.settings.schedule.stagger = 0 := by
  unfold State.staggerHolds
  simp only [Bool.or_eq_true, Option.isNone_iff_eq_none, decide_eq_true_eq]
  tauto

theorem State.thermalHold_eq_false : s.thermalHold = false ↔ ∀ z : Fin 4, s.zones[z].state = .normal := by
  unfold State.thermalHold
  rw [List.any_eq_false]
  simp only [bne_iff_ne, ne_eq, not_not, Vector.mem_toList_iff]
  exact ⟨fun h z => h _ (Vector.getElem_mem z.isLt), fun h x hx => by
    obtain ⟨i, hi, rfl⟩ := Vector.getElem_of_mem hx; exact h ⟨i, hi⟩⟩

/-- The conditions of the admission test, in their order. -/
theorem State.admissionTest_eq (s : State) (n : BayNo) : s.admissionTest n =
    if ¬ s.spinningCount < s.settings.schedule.limit then .concurrency
    else if ¬ s.staggerHolds = true then .stagger
    else if s.thermalHold = true then .thermal
    else if s.account.overCommitted = true then .overCommitted
    else if ¬ s.account.committed12 + (s.profileOf n).peak12 ≤ s.account.usable12 then .budget
    else .none := rfl

/-- Each result of the test by the first of its conditions that fails (R61). -/
theorem State.admissionTest_iff (s : State) (n : BayNo) :
    let c1 := s.spinningCount < s.settings.schedule.limit
    let c2 := s.staggerHolds = true
    let c3 := s.thermalHold = false
    let c4 := s.account.overCommitted = false
    let c5 := s.account.committed12 + (s.profileOf n).peak12 ≤ s.account.usable12
    (s.admissionTest n = .none ↔ c1 ∧ c2 ∧ c3 ∧ c4 ∧ c5) ∧
      (s.admissionTest n = .concurrency ↔ ¬ c1) ∧ (s.admissionTest n = .stagger ↔ c1 ∧ ¬ c2) ∧
      (s.admissionTest n = .thermal ↔ c1 ∧ c2 ∧ ¬ c3) ∧ (s.admissionTest n = .overCommitted ↔ c1 ∧ c2 ∧ c3 ∧ ¬ c4) ∧
      (s.admissionTest n = .budget ↔ c1 ∧ c2 ∧ c3 ∧ c4 ∧ ¬ c5) := by
  intro c1 c2 c3 c4 c5
  rw [State.admissionTest_eq]
  by_cases h1 : c1
  · rw [if_neg (not_not_intro h1)]
    by_cases h2 : c2
    · rw [if_neg (not_not_intro h2)]
      cases h3 : s.thermalHold with
      | true => simp [h1, h2, c3, h3]
      | false =>
        rw [if_neg (by decide)]
        cases h4 : s.account.overCommitted with
        | true => simp [h1, h2, c3, h3, c4, h4]
        | false =>
          rw [if_neg (by decide)]
          by_cases h5 : c5
          · rw [if_neg (not_not_intro h5)]; simp [h1, h2, c3, h3, c4, h4, h5]
          · rw [if_pos h5]; simp [h1, h2, c3, h3, c4, h4, h5]
    · rw [if_pos h2]; simp [h1, h2]
  · rw [if_pos h1]; simp [h1]

/-! ### A new hold reason -/

theorem State.setHold_hold (s : State) (h : HoldReason) : (s.setHold h).scheduler.hold = h := by
  unfold State.setHold
  split
  · assumption
  · exact (State.pubQueue_marks (s := { s with scheduler := { s.scheduler with hold := h } })).2.2

theorem State.setHold_queue (s : State) (h : HoldReason) : (s.setHold h).scheduler.queue = s.scheduler.queue := by
  unfold State.setHold
  split
  · rfl
  · rw [State.pubQueue_queue]

theorem State.setHold_test (s : State) (h : HoldReason) : (s.setHold h).admissionTest n = s.admissionTest n := by
  have hmarks : (s.setHold h).scheduler.lastAdmission = s.scheduler.lastAdmission ∧ (s.setHold h).scheduler.staggerAt = s.scheduler.staggerAt := by
    unfold State.setHold
    split
    · exact ⟨rfl, rfl⟩
    · obtain ⟨hlast, hat, -⟩ := State.pubQueue_marks (s := { s with scheduler := { s.scheduler with hold := h } })
      exact ⟨hlast, hat⟩
  have hstagger : (s.setHold h).staggerHolds = s.staggerHolds := by
    have htime : (s.setHold h).time = s.time := by rw [State.setHold_eq]
    have hset : (s.setHold h).settings = s.settings := by rw [State.setHold_eq]
    unfold State.staggerHolds
    rw [hmarks.1, hmarks.2, htime, hset]
  rw [State.admissionTest_eq, State.admissionTest_eq, hstagger, State.setHold_eq]
  rfl

/-! ### The work of an admission -/

@[simp] theorem State.bay_pubQueue (s : State) (m : BayNo) : s.pubQueue.bay m = s.bay m := by rw [State.pubQueue_eq]; rfl
@[simp] theorem State.line_pubQueue (s : State) (m : BayNo) : s.pubQueue.line m = s.line m := by rw [State.pubQueue_eq]; rfl
@[simp] theorem State.feed_pubQueue (s : State) (m : BayNo) : s.pubQueue.feed m = s.feed m := by rw [State.pubQueue_eq]; rfl
@[simp] theorem State.exchange_pubQueue (s : State) : s.pubQueue.exchange = s.exchange := by rw [State.pubQueue_eq]; rfl

/-- The state of an admission before the bay's own work: the head's entry taken out, the admission stamped (R62). -/
def State.unheaded (s : State) : State :=
  { s with scheduler := { s.scheduler with
      queue := s.scheduler.queue.tail
      lastAdmission := some s.time
      staggerAt := some (Time.plus s.time s.settings.schedule.stagger)
      hold := .none } }

/-- An operation that waits for no deadline any more (R62). -/
def Operation.undated (o : Operation) : Operation := { o with deadline := none }

theorem State.pubQueue_work : BayWork n s s.pubQueue where
  outer := s.pubQueue_outer
  account := by rw [State.pubQueue_eq]
  attention := by rw [State.pubQueue_eq]
  readers := .of_eq (by rw [State.pubQueue_eq])
  bays m _ := by rw [State.pubQueue_eq]; rfl
  lines m _ := by rw [State.pubQueue_eq]; rfl
  feeds m _ := by rw [State.pubQueue_eq]; rfl
  lights m _ := by rw [State.pubQueue_eq]; rfl
  ports c := by rw [State.pubQueue_eq]; rfl
  enable := by rw [State.pubQueue_eq]; rfl
  enclosure := by rw [State.pubQueue_eq]
  admission := State.pubQueue_marks
  kept := by rw [State.reports_pubQueue]; exact ⟨id, id⟩
  pass hs ht := absurd (by rw [State.pubQueue_eq]; exact hs) ht
  head h := absurd (by rw [State.pubQueue_queue]) h
  run h := absurd (by rw [State.pubQueue_eq]; rfl) h

theorem State.admitting_eq (s : State) (n : BayNo) : s.admitting n =
    ((s.unheaded.enter n .spinningUp .admitted).setOp n
      (((s.unheaded.enter n .spinningUp .admitted).bay n).record.op.map Operation.undated)).pubQueue := rfl

theorem State.admitting_work (s : State) (n : BayNo) : BayWork n s.unheaded (s.admitting n) := by
  rw [State.admitting_eq]
  exact ((State.enter_work _ n _ _).trans (State.setOp_work _)).trans State.pubQueue_work

/-! ### A pass -/

theorem State.passLoop_succ_none (fuel : Nat) (h : headBay s.scheduler.queue = none) : State.passLoop (fuel + 1) s = s.setHold .none := by
  rw [State.passLoop, h]

theorem State.passLoop_succ_admit (fuel : Nat) (h : headBay s.scheduler.queue = some n) (ht : s.admissionTest n = .none) :
    State.passLoop (fuel + 1) s = State.passLoop fuel (s.admitHead n) := by
  rw [State.passLoop, h]; simp only [ht]

theorem State.passLoop_succ_held (fuel : Nat) (h : headBay s.scheduler.queue = some n) (ht : s.admissionTest n ≠ .none) :
    State.passLoop (fuel + 1) s = s.setHold (s.admissionTest n) := by
  rw [State.passLoop, h]
  dsimp only
  split
  · contradiction
  · rfl

/-- A pass has ended: the queue is empty, or its head does not pass; the hold reason says so (R63). -/
def State.passEnded (s : State) : Prop :=
  match headBay s.scheduler.queue with
  | none => s.scheduler.hold = .none
  | some n => s.admissionTest n ≠ .none ∧ s.scheduler.hold = s.admissionTest n

theorem State.passEnded_iff (s : State) : s.passEnded ↔
    match headBay s.scheduler.queue with
    | none => s.scheduler.hold = .none
    | some n => s.admissionTest n ≠ .none ∧ s.scheduler.hold = s.admissionTest n := Iff.rfl

theorem State.setHold_ended_none (h : headBay s.scheduler.queue = none) : (s.setHold .none).passEnded := by
  rw [State.passEnded_iff, State.setHold_queue, h]
  exact s.setHold_hold _

theorem State.setHold_ended_held (h : headBay s.scheduler.queue = some n) (ht : s.admissionTest n ≠ .none) :
    (s.setHold (s.admissionTest n)).passEnded := by
  rw [State.passEnded_iff, State.setHold_queue, h]
  dsimp only
  rw [State.setHold_test, State.setHold_hold]
  exact ⟨ht, rfl⟩

theorem State.admitHead_queue (s : State) (n : BayNo) : (s.admitHead n).scheduler.queue = s.scheduler.queue.tail := by
  rw [State.admitHead_eq, State.bayChanged_scheduler]
  unfold State.admitting
  rw [State.pubQueue_queue]
  rfl

theorem State.admitHead_pass (h : s.reports.pass = true) : (s.admitHead n).reports.pass = true := by
  rw [State.admitHead_eq]
  exact ((s.admitting n).bayChanged_reports n (some srcBayChange)).1 ((s.admitting_work n).kept.1 h)

/-- With room for each entry of the queue a pass runs to its end. -/
theorem State.passLoop_ended (fuel : Nat) (s : State) (h : s.scheduler.queue.length < fuel) : (State.passLoop fuel s).passEnded := by
  induction fuel generalizing s with
  | zero => cases h
  | succ k ih =>
    cases hhead : headBay s.scheduler.queue with
    | none => rw [State.passLoop_succ_none k hhead]; exact State.setHold_ended_none hhead
    | some n =>
      by_cases ht : s.admissionTest n = .none
      · rw [State.passLoop_succ_admit k hhead ht]
        refine ih _ ?_
        rw [State.admitHead_queue, List.length_tail]
        have hne : s.scheduler.queue ≠ [] := fun hnil => by rw [hnil] at hhead; cases hhead
        have := List.length_pos_iff.2 hne
        omega
      · rw [State.passLoop_succ_held k hhead ht]; exact State.setHold_ended_held hhead ht

theorem State.runPass_eq (h : s.reports.pass = true) : s.runPass =
    { State.passLoop (s.scheduler.queue.length + 1) s with
      reports := { (State.passLoop (s.scheduler.queue.length + 1) s).reports with pass := false } } := if_pos h

/-- A pass with an empty queue, or whose head does not pass, only notes the hold reason. -/
theorem State.runPass_holds {r : HoldReason} (h : s.reports.pass = true) (hloop : State.passLoop (s.scheduler.queue.length + 1) s = s.setHold r) :
    s.runPass = { s.setHold r with reports := { s.reports with pass := false } } := by
  rw [State.runPass_eq h, hloop, State.reports_setHold]

/-- A head that passes is admitted, and the pass goes on. -/
theorem State.runPass_admits (h : s.reports.pass = true) (hhead : headBay s.scheduler.queue = some n) (ht : s.admissionTest n = .none) :
    s.runPass = (s.admitHead n).runPass := by
  have hlen : s.scheduler.queue.length = (s.admitHead n).scheduler.queue.length + 1 := by
    rw [State.admitHead_queue, List.length_tail]
    have hne : s.scheduler.queue ≠ [] := fun hnil => by rw [hnil] at hhead; cases hhead
    have := List.length_pos_iff.2 hne
    omega
  rw [State.runPass_eq h, State.runPass_eq (State.admitHead_pass h), State.passLoop_succ_admit _ hhead ht, hlen]

/-- Settles O31: the test by its conditions, and a pass head by head. -/
theorem passAdmitsByTest : Obligations.PassAdmitsByTest := by
  refine ⟨fun s n => ?_, ?_, fun s => ⟨fun hrun hdue => ?_, fun h => ?_⟩⟩
  · intro c1 c2 c3 c4 c5
    have h2 : s.staggerHolds = true ↔ c2 := State.staggerHolds_iff
    have h3 : s.thermalHold = false ↔ c3 := State.thermalHold_eq_false
    rw [← h2, ← h3]
    exact s.admissionTest_iff n
  · intro s hpass t
    have hend := State.passLoop_ended (s.scheduler.queue.length + 1) s (Nat.lt_succ_self _)
    have ht : t = _ := State.runPass_eq hpass
    exact ⟨⟨State.runPass_due s, by rw [ht]; exact hend⟩, fun hhead => State.runPass_holds hpass (State.passLoop_succ_none _ hhead),
      fun n hhead => ⟨State.runPass_admits hpass hhead, fun htest => State.runPass_holds hpass (State.passLoop_succ_held _ hhead htest)⟩⟩
  · rw [exec_staggerExpiry, if_pos ⟨(State.running_iff s).2 hrun, hdue⟩]
  · rw [exec_staggerExpiry, if_neg]
    rintro ⟨hrun, hdue⟩
    obtain h | h := h
    · exact h ((State.running_iff s).1 hrun)
    · rw [hdue] at h; cases h

/-! ### An admission -/

theorem State.bay_admitting (hst : (s.bay n).record.state = .queued) : (s.admitting n).bay n =
    { (s.bay n).stands .spinningUp .admitted s.time (s.profileOf n).peak12 (s.bay n).record.c5 (s.bay n).record.flags
        ((s.bay n).record.op.map Operation.undated) with spinAt := some (Time.plus s.time (s.profileOf n).spin) } := by
  have hflags : (s.bay n).record.flags.leaving (s.bay n).record.state = (s.bay n).record.flags := by
    rw [hst]; simp [BayFlags.leaving]
  have hunheaded : s.unheaded.bay n = s.bay n := rfl
  rw [State.admitting_eq, State.bay_pubQueue, State.bay_setOp_same, State.bay_enter_same, Bay.entering_spinningUp, hunheaded, hflags]
  rfl

theorem State.spinningCount_eq (s : State) : s.spinningCount = ∑ m : BayNo, if (s.bay m).record.state = .spinningUp then 1 else 0 := by
  rw [← State.sum_bays s fun b => if b.record.state = .spinningUp then 1 else 0]
  unfold State.spinningCount
  generalize s.bays.toList = l
  induction l with
  | nil => rfl
  | cons b l ih => simp only [List.countP_cons, List.map_cons, List.sum_cons, ih, beq_iff_eq]; omega

theorem State.spinningCount_moved (h : ∀ m, m ≠ n → t.bay m = s.bay m) :
    t.spinningCount + (if (s.bay n).record.state = .spinningUp then 1 else 0) =
      s.spinningCount + (if (t.bay n).record.state = .spinningUp then 1 else 0) := by
  have hmoved := State.sum_bays_moved h fun b => if b.record.state = .spinningUp then 1 else 0
  rw [State.sum_bays, State.sum_bays, ← State.spinningCount_eq, ← State.spinningCount_eq] at hmoved
  exact hmoved

/-- What an admission leaves (R62). -/
theorem State.admitHead_left (s : State) (n : BayNo) :
    BayLeft n s.unheaded ((s.admitting n).bay n) ((s.line n).switched true true) { s.feed n with spinStart := some s.time, graceOut := false }
      s.exchange s.scheduler.queue.tail (s.admitHead n) := by
  rw [State.admitHead_eq]
  refine (s.admitting_work n).left rfl ?_ ?_ ?_ ?_ (some srcBayChange)
  · rw [State.admitting_eq, State.line_pubQueue, State.line_setOp, State.line_enter_same]; rfl
  · rw [State.admitting_eq, State.feed_pubQueue, State.feed_setOp, State.feed_enter]; simp; rfl
  · rw [State.admitting_eq, State.exchange_pubQueue]; rfl
  · rw [State.admitting_eq, State.pubQueue_queue]; rfl

/-- Settles O32: the head's bay is brought to its end like any other, and its own step moves the sums. -/
theorem admissionStepsWithinBudget : Obligations.AdmissionStepsWithinBudget := by
  constructor
  · intro s e rest hq hst n b p t
    obtain ⟨handled, bay, line, feed, exchange, queue⟩ := State.admitHead_left s e.bay
    obtain ⟨hlast, hat, -⟩ := handled.admission
    have hlate : (s.admitting n).late = s.late := by rw [State.admitting_eq, State.pubQueue_eq]; rfl
    obtain ⟨told, only⟩ := State.bayChanged_events hlate n srcBayChange
    have hreaders : t.readers = s.readers := by
      change ((s.admitting n).bayChanged n _).readers = _
      rw [State.bayChanged_readers, State.admitting_eq, State.pubQueue_eq]; rfl
    rw [State.bay_admitting hst] at bay
    exact ⟨queue.trans (by rw [hq]; rfl), hlast, hat, bay, line, feed, exchange, hreaders, handled.outer, handled.attention,
      handled.balanced, told, only, fun m hm => ⟨handled.bays m hm, handled.lines m hm, handled.feeds m hm, handled.lights m hm⟩⟩
  · intro s n hbal hsound hhead htest t
    have hst : (s.bay n).record.state = .queued := (State.head_of_sound hsound hhead).1
    obtain ⟨handled, bay, -, -, -, -⟩ := State.admitHead_left s n
    obtain ⟨c1, -, c3, c4, c5⟩ := (s.admissionTest_iff n).1.1 htest
    have hother : ∀ m, m ≠ n → t.bay m = s.bay m := handled.bays
    have houter : t.outer = s.outer := handled.outer
    rw [State.bay_admitting hst] at bay
    have hstate : (t.bay n).record.state = .spinningUp := Bay.like_state bay
    have hcount := State.spinningCount_moved hother
    have h12 := State.sum12_moved hother
    have h5 := State.sum5_moved hother
    have hs12 : (s.bay n).contribution12 = 0 := by unfold Bay.contribution12; rw [hst]
    have hs5 : (s.bay n).contribution5 = (s.bay n).record.c5 := by unfold Bay.contribution5; rw [hst]
    have ht12 : (t.bay n).contribution12 = (s.profileOf n).peak12 := Bay.like_contribution12 bay
    have ht5 : (t.bay n).contribution5 = (s.bay n).record.c5 := Bay.like_contribution5 bay
    rw [hs12, ht12, Nat.add_zero] at h12
    rw [hs5, ht5, Nat.add_right_cancel_iff] at h5
    rw [if_neg (by rw [hst]; decide), if_pos hstate] at hcount
    obtain ⟨hb12, hb5⟩ := State.budgets_of_outer houter
    obtain ⟨-, -, hu12, hu5, hcm12, hcm5, hover, -⟩ := hbal
    obtain ⟨-, -, hu12', hu5', hcm12', hcm5', hover', -⟩ := handled.balanced
    have hset : t.settings = s.settings := congrArg Outer.settings houter
    have hzones : t.zones = s.zones := congrArg Outer.zones houter
    have hclear : ¬ s.usableBudget5 < s.sum5 := fun hlt => by
      rw [hover.2 (.inr hlt)] at c4; cases c4
    have hfits : t.account.committed12 ≤ t.account.usable12 := by rw [hcm12', hu12', h12, hb12, ← hcm12, ← hu12]; exact c5
    refine ⟨by rw [hset]; omega, hfits, ?_, fun z => by rw [hzones]; exact State.thermalHold_eq_false.1 c3 z, by rw [hcm5', h5, hcm5]⟩
    refine Bool.eq_false_iff.2 fun h => ?_
    obtain hlt | hlt := hover'.1 h
    · rw [hcm12', hu12'] at hfits; exact absurd hlt hfits.not_gt
    · rw [hb5, h5] at hlt; exact hclear hlt

end Sys2Proof.Machine
end

section
/-! SUPPORT. Sensor scans and reads (R83), the critical timer's expiry (R96), SET_ZONE (R97, R98) and SET_SENSOR (R99). -/

namespace Sys2Proof.Machine

variable {s t u : State} {h : SlipHead}

/-! ### Publications of sensors and zones -/

theorem UnitsOnly.raiseBoth (h : UnitsOnly s t) (i : Fin 8) : UnitsOnly s (t.raiseBoth i) :=
  ⟨h.bays, h.lines, h.feeds, h.lights, h.account, h.scheduler, h.readers, h.ram, h.attention, h.reports⟩

theorem Sensor.like_refl (b : Sensor) : b.like b := rfl
theorem Zone.like_refl (b : Zone) : b.like b := rfl

theorem State.republishSensor_sensors (s : State) (i : Fin 8) :
    ∃ g, (s.republishSensor i).sensors = s.sensors.set i { s.sensors[i] with gen := g } := by
  unfold State.republishSensor
  split
  · exact ⟨s.sensors[i].gen, (Vector.set_getElem_self ..).symm⟩
  · exact ⟨_, rfl⟩

theorem State.pubSensor_sensors (s : State) (i : Fin 8) : ∃ g, (s.pubSensor i).sensors = s.sensors.set i { s.sensors[i] with gen := g } := by
  unfold State.pubSensor
  dsimp only
  split
  · exact ⟨s.sensors[i].gen, (Vector.set_getElem_self ..).symm⟩
  · exact s.republishSensor_sensors i

theorem State.pubZone_zones (s : State) (z : Fin 4) : ∃ g, (s.pubZone z).zones = s.zones.set z { s.zones[z] with gen := g } := by
  unfold State.pubZone
  dsimp only
  split
  · exact ⟨s.zones[z].gen, (Vector.set_getElem_self ..).symm⟩
  · exact ⟨_, rfl⟩

/-- A republication of a sensor moves that sensor's generation alone. -/
theorem State.republishSensor_like (s : State) (i : Fin 8) : s.sensors[i].like (s.republishSensor i).sensors[i] ∧
    (s.republishSensor i).sensors = s.sensors.set i (s.republishSensor i).sensors[i] := by
  obtain ⟨g, hg⟩ := s.republishSensor_sensors i
  have hi : (s.republishSensor i).sensors[i] = { s.sensors[i] with gen := g } := by rw [hg]; exact Vector.getElem_set_self ..
  rw [hi]
  exact ⟨rfl, hg⟩

theorem State.pubSensor_like (s : State) (i : Fin 8) : s.sensors[i].like (s.pubSensor i).sensors[i] ∧
    (s.pubSensor i).sensors = s.sensors.set i (s.pubSensor i).sensors[i] := by
  obtain ⟨g, hg⟩ := s.pubSensor_sensors i
  have hi : (s.pubSensor i).sensors[i] = { s.sensors[i] with gen := g } := by rw [hg]; exact Vector.getElem_set_self ..
  rw [hi]
  exact ⟨rfl, hg⟩

theorem State.pubZone_like (s : State) (z : Fin 4) : s.zones[z].like (s.pubZone z).zones[z] ∧
    (s.pubZone z).zones = s.zones.set z (s.pubZone z).zones[z] := by
  obtain ⟨g, hg⟩ := s.pubZone_zones z
  have hz : (s.pubZone z).zones[z] = { s.zones[z] with gen := g } := by rw [hg]; exact Vector.getElem_set_self ..
  rw [hz]
  exact ⟨rfl, hg⟩

theorem State.outer_withReports (s : State) (r : Reports) : ({ s with reports := r } : State).outer = s.outer := rfl

/-- A sensor put and then put again. -/
theorem set_set_same {α : Type} {n : Nat} (v : Vector α n) (i : Fin n) (x y : α) : (v.set i x).set i y = v.set i y := Vector.set_set ..

theorem set_self {α : Type} {n : Nat} (v : Vector α n) (i : Fin n) (x : α) : (v.set i x)[i] = x := Vector.getElem_set_self ..

/-! ### A scan and its reads -/

theorem exec_sensorScan (s : State) : exec .sensorScan s =
    .next (if s.running = true ∧ Time.due s.time s.scanAt = true then
      { s with
        scanAt := some (Time.plus s.time 1000)
        scan := if s.scan.left = [] then { left := s.assignedSensors, discard := false } else s.scan }
    else s) := rfl

theorem exec_sensorRead (s : State) (i : Fin 8) (result : Option (BitVec 16)) : exec (.sensorRead i result) s =
    .next (if s.running = true ∧ s.scan.left.head? = some i then
      if s.scan.discard then s.nextRead
      else ((s.nextRead).putSensor i (s.sensors[i].read result s.time)).close
    else s) := rfl

theorem State.mem_assignedSensors (s : State) (i : Fin 8) : i ∈ s.assignedSensors ↔ s.settings.sensors[i].zone ≠ none := by
  unfold State.assignedSensors
  rw [List.mem_filter, and_iff_right (List.mem_finRange i), Option.isSome_iff_ne_none]

theorem State.assignedSensors_sorted (s : State) : s.assignedSensors.Pairwise (· < ·) :=
  (List.pairwise_lt_finRange 8).sublist List.filter_sublist

theorem State.nextRead_eq {i : Fin 8} {rest : List (Fin 8)} (h : s.scan.left = i :: rest) :
    s.nextRead = { s with scan := { left := rest, discard := false } } := by
  unfold State.nextRead; rw [h]; rfl

theorem State.putSensor_same {i : Fin 8} {u : Sensor} (h : s.sensors[i].state = .failed ↔ u.state = .failed) :
    s.putSensor i u = ({ s with sensors := s.sensors.set i u }).pubSensor i := by
  unfold State.putSensor
  have hb : (s.sensors[i].state == .failed) = (u.state == .failed) := by rw [Bool.eq_iff_iff, beq_iff_eq, beq_iff_eq]; exact h
  dsimp only
  rw [hb, bne_self_eq_false, if_neg (by decide)]

theorem State.putSensor_moved {i : Fin 8} {u : Sensor} (h : s.sensors[i].state = .failed ↔ u.state ≠ .failed) :
    s.putSensor i u = (({ s with sensors := s.sensors.set i u }).pubSensor i).raiseBoth srcThermal := by
  unfold State.putSensor
  have hb : (s.sensors[i].state == .failed) ≠ (u.state == .failed) := by
    rw [Ne, Bool.eq_iff_iff, beq_iff_eq, beq_iff_eq]; tauto
  rw [if_pos (by simpa using hb)]

/-- Sensor i came to stand as `u` but for its generation, and of the units nothing else moved. -/
structure SensorPut (i : Fin 8) (u : Sensor) (s t : State) : Prop where
  units : UnitsOnly s t
  like  : u.like t.sensors[i]
  outer : t.outer = { s.outer with sensors := s.sensors.set i t.sensors[i] }

theorem SensorPut.raiseBoth {i : Fin 8} {u : Sensor} (h : SensorPut i u s t) (e : Fin 8) : SensorPut i u s (t.raiseBoth e) :=
  ⟨h.units.raiseBoth e, h.like, h.outer⟩

theorem State.pubSensor_put (s : State) (i : Fin 8) (u : Sensor) : SensorPut i u s (({ s with sensors := s.sensors.set i u }).pubSensor i) := by
  let w : State := { s with sensors := s.sensors.set i u }
  obtain ⟨hlike, hsensors⟩ := w.pubSensor_like i
  have hu : w.sensors[i] = u := set_self ..
  have hset : (w.pubSensor i).sensors = s.sensors.set i (w.pubSensor i).sensors[i] := hsensors.trans (set_set_same ..)
  have hw : w.pubSensor i = { w with sensors := (w.pubSensor i).sensors, status := (w.pubSensor i).status } := w.pubSensor_eq i
  rw [hu] at hlike
  refine ⟨by rw [hw]; exact ⟨rfl, rfl, rfl, rfl, rfl, rfl, rfl, rfl, rfl, rfl⟩, hlike, ?_⟩
  rw [← hset, hw]; rfl

theorem State.putSensor_put (s : State) (i : Fin 8) (u : Sensor) : SensorPut i u s (s.putSensor i u) := by
  unfold State.putSensor
  dsimp only
  split
  · exact (s.pubSensor_put i u).raiseBoth _
  · exact s.pubSensor_put i u

/-- A sensor read is the model's own. -/
theorem Sensor.read_eq (result : Option (BitVec 16)) (now : Time) (u : Sensor) : u.read result now =
    match result with
    | some raw => { u with state := .ok, raw := some raw.toInt, fails := 0, goodAt := some now }
    | none => { u with fails := min 3 (u.fails + 1), state := if u.state = .failed ∨ min 3 (u.fails + 1) = 3 then .failed else u.state } := by
  cases result <;> rfl

theorem State.pubSensor_late (s : State) (i : Fin 8) : (s.pubSensor i).late = s.late := by rw [State.pubSensor_eq]

/-- Settles O35: a scan time, and a read of the sensor on the bus. -/
theorem sensorsScanned : Obligations.SensorsScanned := by
  refine ⟨fun s => ⟨fun hrun hdue => ⟨s.assignedSensors, s.assignedSensors_sorted, s.mem_assignedSensors, ?_⟩, fun hno => ?_⟩, ?_⟩
  · rw [exec_sensorScan, if_pos ⟨(State.running_iff s).2 hrun, hdue⟩]
  · rw [exec_sensorScan, if_neg]
    rintro ⟨hrun, hdue⟩
    obtain hno | hno := hno
    · exact hno ((State.running_iff s).1 hrun)
    · rw [hdue] at hno; cases hno
  · intro s i result u fails new
    have hread : u.read result s.time = new := Sensor.read_eq result s.time u
    refine ⟨fun rest hrun hleft hdiscard => ?_, fun rest hrun hleft hdiscard => ?_, fun hno => ?_⟩
    · let w : State := { s with scan := { left := rest, discard := false } }
      obtain ⟨hunits, hlike, houter⟩ := w.putSensor_put i new
      refine ⟨w.putSensor i new, ?_, ⟨hunits.bays, hunits.lines, hunits.feeds, hunits.lights, hunits.account, hunits.scheduler,
        hunits.readers, hunits.ram, hunits.attention, hunits.reports⟩, hlike, houter, fun hmoved => ?_, fun hsame => ?_⟩
      · rw [exec_sensorRead, if_pos ⟨(State.running_iff s).2 hrun, by rw [hleft]; rfl⟩, if_neg (by simp [hdiscard]),
          State.nextRead_eq hleft, hread]
      · rw [State.putSensor_moved (s := w) hmoved]
        exact State.raiseBoth_told _ _
      · rw [State.putSensor_same (s := w) hsame]
        exact State.pubSensor_late _ _
    · rw [exec_sensorRead, if_pos ⟨(State.running_iff s).2 hrun, by rw [hleft]; rfl⟩, if_pos hdiscard, State.nextRead_eq hleft]
    · rw [exec_sensorRead, if_neg]
      rintro ⟨hrun, hhead⟩
      obtain hno | hno := hno
      · exact hno ((State.running_iff s).1 hrun)
      · exact hno hhead

/-! ### The critical timer -/

theorem exec_criticalTimerExpiry (s : State) (z : Fin 4) : exec (.criticalTimerExpiry z) s =
    .next (if s.running = true ∧ Time.due s.time s.zones[z].timer.expiry = true then s.criticalExpiry z else s) := rfl

/-- The state with the timer of zone z spent, its record published (R96). -/
def State.timerSpent (z : Fin 4) (s : State) : State :=
  ({ s with zones := s.zones.set z { s.zones[z] with timer := .spent } }).pubZone z

/-- The state with THERMAL told and a thermal list asked for (R48, R96). -/
def State.shedAsked (l : List BayNo) (s : State) : State :=
  let t := s.raiseBoth srcThermal
  { t with reports := { t.reports with thermal := t.reports.thermal ++ l } }

theorem State.criticalExpiry_eq (s : State) (z : Fin 4) : s.criticalExpiry z =
    ((s.timerSpent z).shedAsked (((s.timerSpent z).raiseBoth srcThermal).thermalList z)).close := by
  unfold State.criticalExpiry State.shedAsked State.timerSpent
  rfl

section
variable (s : State) (l : List BayNo)
theorem State.shedAsked_bays : (s.shedAsked l).bays = s.bays := rfl
theorem State.shedAsked_lines : (s.shedAsked l).lines = s.lines := rfl
theorem State.shedAsked_feeds : (s.shedAsked l).feeds = s.feeds := rfl
theorem State.shedAsked_lights : (s.shedAsked l).lights = s.lights := rfl
theorem State.shedAsked_account : (s.shedAsked l).account = s.account := rfl
theorem State.shedAsked_scheduler : (s.shedAsked l).scheduler = s.scheduler := rfl
theorem State.shedAsked_readers : (s.shedAsked l).readers = s.readers := rfl
theorem State.shedAsked_exchange : (s.shedAsked l).exchange = s.exchange := rfl
theorem State.shedAsked_attention : (s.shedAsked l).attention = s.attention := rfl
theorem Zone.like_shedAsked {b : Zone} {j : Fin 4} (h : b.like s.zones[j]) : b.like (s.shedAsked l).zones[j] := h
theorem State.shedAsked_outer : (s.shedAsked l).outer = s.outer := (State.outer_withReports _ _).trans (State.raiseBoth_outer s srcThermal)
theorem State.shedAsked_outer_put (z : Fin 4) {x : State} (h : s.outer = { x.outer with zones := x.zones.set z s.zones[z] }) :
    (s.shedAsked l).outer = { x.outer with zones := x.zones.set z (s.shedAsked l).zones[z] } := by
  rw [State.shedAsked_outer]; exact h
theorem State.shedAsked_late : (s.shedAsked l).late = (s.raiseBoth srcThermal).late := rfl
theorem State.thermalList_raiseBoth (z : Fin 4) (i : Fin 8) : (s.raiseBoth i).thermalList z = s.thermalList z := rfl
theorem State.shedAsked_reports : (s.shedAsked l).reports = { s.reports with thermal := s.reports.thermal ++ l } := rfl
end

theorem State.timerSpent_eq (s : State) (z : Fin 4) :
    s.timerSpent z = { s with zones := (s.timerSpent z).zones, status := (s.timerSpent z).status } :=
  State.pubZone_eq ({ s with zones := s.zones.set z { s.zones[z] with timer := .spent } }) z

theorem State.mem_thermalList {z : Fin 4} {n : BayNo} : n ∈ s.thermalList z ↔ (s.baySet n).zone = z ∧ (s.baySet n).shedEligible = true ∧
    ((s.bay n).record.state = .spinningUp ∨ (s.bay n).record.state = .ready) := by
  unfold State.thermalList
  rw [List.mem_insertionSort, List.mem_filter, and_iff_right (mem_bayNumbers n)]
  simp only [Bool.and_eq_true, Bool.or_eq_true, decide_eq_true_eq, beq_iff_eq, and_assoc]

/-- Of two bays one stands before the other in the shed order when its key is the greater (R45). -/
theorem State.shedBefore_of_shedKey_lt {m n : BayNo} (hm : s.shedKey m < s.shedKey n) : s.shedBefore n m := by
  have hrank (k : BayNo) : shedStateRank (s.bay k).record.state = s.shedRank k := rfl
  have hle (k : BayNo) : s.shedRank k ≤ 4 := by
    unfold State.shedRank; split <;> decide
  have hn4 := hle n
  have hm4 := hle m
  have hnv := n.isLt
  have hmv := m.isLt
  unfold State.shedKey at hm
  rw [hrank, hrank] at hm
  unfold State.shedBefore
  rw [Fin.lt_def, Fin.lt_def, Fin.ext_iff]
  omega

theorem State.shedKey_injective (s : State) {m n : BayNo} (h : s.shedKey m = s.shedKey n) : m = n := by
  have hnv := n.isLt
  have hmv := m.isLt
  unfold State.shedKey at h
  exact Fin.ext (by omega)

theorem State.thermalList_sorted (s : State) (z : Fin 4) : (s.thermalList z).Pairwise s.shedBefore := by
  unfold State.thermalList
  let r (m n : BayNo) : Prop := s.shedKey n ≤ s.shedKey m
  have htotal : Std.Total r := ⟨fun m n => Nat.le_total (s.shedKey n) (s.shedKey m)⟩
  have htrans : IsTrans BayNo r := ⟨fun m n k hmn hnk => Nat.le_trans hnk hmn⟩
  have hnodup : (List.insertionSort r (bayNumbers.filter fun n => decide ((s.baySet n).zone = z) && (s.baySet n).shedEligible &&
      ((s.bay n).record.state == .spinningUp || (s.bay n).record.state == .ready))).Nodup :=
    (List.perm_insertionSort r _).nodup_iff.2 ((List.nodup_finRange 60).filter _)
  refine ((List.pairwise_insertionSort r _).and hnodup).imp fun {m n} hmn => ?_
  obtain ⟨hle, hne⟩ := hmn
  exact State.shedBefore_of_shedKey_lt (lt_of_le_of_ne hle fun heq => hne (s.shedKey_injective heq.symm))

theorem CriticalTimer.expiry_running {x : CriticalTimer} {t : Time} : x.expiry = some t ↔ x = .running t := by
  cases x <;> simp [CriticalTimer.expiry]

theorem Time.due_iff {now : Time} {t : Option Time} : Time.due now t = true ↔ ∃ e, t = some e ∧ Time.reached now e = true := by
  cases t <;> simp [Time.due]

/-- Settles O37: the timer spent, THERMAL told, the zone's bays listed in the shed order. -/
theorem criticalExpirySheds : Obligations.CriticalExpirySheds := by
  intro s z
  refine ⟨fun expiry hrun htimer hreached => ?_, fun hno => ?_⟩
  · let w : State := { s with zones := s.zones.set z { s.zones[z] with timer := .spent } }
    obtain ⟨hlike, hzones⟩ := w.pubZone_like z
    have hz : w.zones[z] = { s.zones[z] with timer := .spent } := set_self ..
    rw [hz] at hlike
    have hset : (s.timerSpent z).zones = s.zones.set z (s.timerSpent z).zones[z] := hzones.trans (set_set_same ..)
    have hv := s.timerSpent_eq z
    let v := s.timerSpent z
    have hsettings : v.settings = s.settings := by show (s.timerSpent z).settings = _; rw [hv]
    have hbays : v.bays = s.bays := by show (s.timerSpent z).bays = _; rw [hv]
    have hbaySet (n : BayNo) : v.baySet n = s.baySet n := by unfold State.baySet; rw [hsettings]
    have hbay (n : BayNo) : v.bay n = s.bay n := by unfold State.bay; rw [hbays]
    have hbefore (m n : BayNo) : v.shedBefore m n ↔ s.shedBefore m n := by
      unfold State.shedBefore State.shedRank
      simp only [hbaySet, hbay]
    have hunits : UnitsOnly s v := by
      show UnitsOnly s (s.timerSpent z)
      rw [hv]; exact ⟨rfl, rfl, rfl, rfl, rfl, rfl, rfl, rfl, rfl, rfl⟩
    have houter : v.outer = { s.outer with zones := s.zones.set z v.zones[z] } := by
      show (s.timerSpent z).outer = _
      rw [← hset, hv]; rfl
    have hexchange : v.exchange = s.exchange := by show (s.timerSpent z).exchange = _; rw [hv]; rfl
    have hlate : v.late = s.late := by show (s.timerSpent z).late = _; rw [hv]
    have hlike' : Zone.like { s.zones[z] with timer := .spent } v.zones[z] := hlike
    let l := v.thermalList z
    refine ⟨v.shedAsked l, l, ?_, Zone.like_shedAsked v l hlike', State.shedAsked_outer_put v l z houter, ?_, fun n => ?_, ?_, ?_, ?_,
      (State.shedAsked_bays v l).trans hunits.bays, (State.shedAsked_lines v l).trans hunits.lines,
      (State.shedAsked_feeds v l).trans hunits.feeds, (State.shedAsked_lights v l).trans hunits.lights,
      (State.shedAsked_account v l).trans hunits.account, (State.shedAsked_scheduler v l).trans hunits.scheduler,
      (State.shedAsked_exchange v l).trans hexchange, (State.shedAsked_readers v l).trans hunits.readers,
      (State.shedAsked_attention v l).trans hunits.attention⟩
    · rw [exec_criticalTimerExpiry, if_pos ⟨(State.running_iff s).2 hrun,
        Time.due_iff.2 ⟨expiry, CriticalTimer.expiry_running.2 htimer, hreached⟩⟩, State.criticalExpiry_eq, State.thermalList_raiseBoth]
    · rw [State.shedAsked_reports, hunits.reports]
    · rw [State.mem_thermalList, hbaySet, hbay]
    · exact (v.thermalList_sorted z).imp fun {m n} => (hbefore m n).1
    · exact State.raiseBoth_told v _
    · exact (State.raiseBoth_onlyTold v srcThermal).from hlate
  · rw [exec_criticalTimerExpiry, if_neg]
    rintro ⟨hrun, hdue⟩
    obtain ⟨e, he, hreached⟩ := Time.due_iff.1 hdue
    obtain hno | hno := hno
    · exact hno ((State.running_iff s).1 hrun)
    · rw [hno e (CriticalTimer.expiry_running.1 he)] at hreached; cases hreached

/-! ### SET_ZONE -/

theorem State.pubZone_markTaken (s : State) (z : Fin 4) (a : Half) : (s.markTaken a).pubZone z = (s.pubZone z).markTaken a := by
  unfold State.pubZone
  rw [apply_ite (State.markTaken a)]; rfl

theorem State.pubZones_markTaken (s : State) (a : Half) : (s.markTaken a).pubZones = s.pubZones.markTaken a := by
  simp only [State.pubZones, State.pubZone_markTaken]

/-- A publication of a zone record moves that zone's generation alone. -/
theorem State.pubZone_put (s : State) (z : Fin 4) : UnitsOnly s (s.pubZone z) ∧ (s.pubZone z).late = s.late ∧
    s.zones[z].like (s.pubZone z).zones[z] ∧ (s.pubZone z).outer = { s.outer with zones := s.zones.set z (s.pubZone z).zones[z] } := by
  obtain ⟨hlike, hzones⟩ := s.pubZone_like z
  have hv := s.pubZone_eq z
  refine ⟨by rw [hv]; exact ⟨rfl, rfl, rfl, rfl, rfl, rfl, rfl, rfl, rfl, rfl⟩, by rw [hv], hlike, ?_⟩
  rw [← hzones, hv]; rfl

theorem Zone.like_trans {b c d : Zone} (h : b.like c) (k : c.like d) : b.like d := by
  unfold Zone.like at h k ⊢
  rw [← k, ← h]

theorem UnitsOnly.trans (h : UnitsOnly s t) (k : UnitsOnly t u) : UnitsOnly s u :=
  ⟨k.bays.trans h.bays, k.lines.trans h.lines, k.feeds.trans h.feeds, k.lights.trans h.lights, k.account.trans h.account,
    k.scheduler.trans h.scheduler, k.readers.trans h.readers, k.ram.trans h.ram, k.attention.trans h.attention, k.reports.trans h.reports⟩

/-- From s to t only generations of zone records moved. -/
structure ZonesPublished (s t : State) : Prop where
  units : UnitsOnly s t
  late  : t.late = s.late
  like  : ∀ z : Fin 4, s.zones[z].like t.zones[z]
  outer : t.outer = { s.outer with zones := t.zones }

theorem ZonesPublished.trans (h : ZonesPublished s t) (k : ZonesPublished t u) : ZonesPublished s u :=
  ⟨h.units.trans k.units, k.late.trans h.late, fun z => Zone.like_trans (h.like z) (k.like z), by rw [k.outer, h.outer]⟩

theorem State.pubZone_published (s : State) (z : Fin 4) : ZonesPublished s (s.pubZone z) := by
  obtain ⟨hunits, hlate, hlike, -⟩ := s.pubZone_put z
  refine ⟨hunits, hlate, fun y => ?_, by rw [State.pubZone_eq]; rfl⟩
  by_cases hy : y = z
  · rw [hy]; exact hlike
  · rw [(s.pubZone_like z).2, show (s.zones.set z (s.pubZone z).zones[z])[y] = s.zones[y] from
      Vector.getElem_set_ne _ _ (fun e => hy (Fin.ext e.symm))]
    rfl

theorem State.pubZones_published (s : State) : ZonesPublished s s.pubZones :=
  (((s.pubZone_published 0).trans (State.pubZone_published _ 1)).trans (State.pubZone_published _ 2)).trans (State.pubZone_published _ 3)

@[simp] theorem State.pubZone_settings (s : State) (z : Fin 4) : (s.pubZone z).settings = s.settings := by rw [State.pubZone_eq]

theorem CurvePoint.ofRaw_eq (r : RawPoint) : CurvePoint.ofRaw r =
    ({ t := if 190 < r.t.toNat then 150 else (r.t.toNat : Int) - 40, d := min 1000 r.d.toNat },
      decide (190 < r.t.toNat) || decide (1000 < r.d.toNat)) := by
  unfold CurvePoint.ofRaw byteTemp clampNat
  by_cases h : 190 < r.t.toNat <;> simp [h]

theorem Curve.accepted_iff (c : Curve) : c.accepted = true ↔
    (c.p1.t < c.p2.t ∧ c.p2.t < c.p3.t ∧ c.p3.t < c.p4.t) ∧ c.p1.d ≤ c.p2.d ∧ c.p2.d ≤ c.p3.d ∧ c.p3.d ≤ c.p4.d := by
  simp only [Curve.accepted, Bool.and_eq_true, decide_eq_true_eq, and_assoc]

theorem ZoneLimits.accepted_iff (l : ZoneLimits) : l.accepted = true ↔ l.ceiling < l.critical := decide_eq_true_iff

/-- The state with the settings of zone z set, its record republished. -/
def State.withZone (z : Fin 4) (c : ZoneSettings) (s : State) : State :=
  ({ s with settings := { s.settings with zones := s.settings.zones.set z c } }).pubZone z

/-- What SET_ZONE leaves of a zone's new settings. -/
theorem State.withZone_put (s : State) (z : Fin 4) (c : ZoneSettings) : UnitsOnly s (s.withZone z c) ∧ (s.withZone z c).late = s.late ∧
    s.zones[z].like (s.withZone z c).zones[z] ∧
    (s.withZone z c).outer = { s.outer with
      settings := { s.settings with zones := s.settings.zones.set z c }
      zones := s.zones.set z (s.withZone z c).zones[z] } := by
  let w : State := { s with settings := { s.settings with zones := s.settings.zones.set z c } }
  obtain ⟨hunits, hlate, hlike, houter⟩ := w.pubZone_put z
  have hw : UnitsOnly s w := ⟨rfl, rfl, rfl, rfl, rfl, rfl, rfl, rfl, rfl, rfl⟩
  exact ⟨hw.trans hunits, hlate, hlike, houter⟩

theorem State.withZone_set (s : State) (z : Fin 4) (c : ZoneSettings) : (s.withZone z c).settings.zones[z] = c := by
  unfold State.withZone
  rw [show (State.pubZone z { s with settings := { s.settings with zones := s.settings.zones.set z c } }).settings =
    { s.settings with zones := s.settings.zones.set z c } from State.pubZone_settings _ z]
  exact set_self ..

theorem State.withZone_markTaken (s : State) (z : Fin 4) (c : ZoneSettings) (a : Half) :
    (s.markTaken a).withZone z c = (s.withZone z c).markTaken a :=
  State.pubZone_markTaken ({ s with settings := { s.settings with zones := s.settings.zones.set z c } }) z a

theorem State.withZone_set_markTaken (s : State) (z : Fin 4) (c : ZoneSettings) (a : Half) :
    ((s.withZone z c).markTaken a).settings.zones[z] = c := s.withZone_set z c

theorem State.setCurve_eq (s : State) (z : Fin 4) (a : SetCurveArgs) : s.setCurve z a =
    (if (Curve.ofRaw a).1.accepted = true then some (s.withZone z { s.settings.zones[z] with curve := (Curve.ofRaw a).1 }) else none,
      (Curve.ofRaw a).2) := by
  unfold State.setCurve
  dsimp only
  split <;> rfl

theorem State.setLimits_eq (s : State) (z : Fin 4) (a : SetLimitsArgs) : s.setLimits z a =
    (if (ZoneLimits.apply a s.settings.zones[z].limits).1.accepted = true then
      some (s.withZone z { s.settings.zones[z] with limits := (ZoneLimits.apply a s.settings.zones[z].limits).1 }) else none,
      (ZoneLimits.apply a s.settings.zones[z].limits).2) := by
  unfold State.setLimits
  dsimp only
  split <;> rfl

theorem exec_setZoneCurve_taken (ht : s.takeable h = true) {z : Fin 4} (hz : h.target.toNat = z.val) (a : SetCurveArgs) :
    exec (.setZoneCurve h a) s = .next (State.finishSlip h.port
      (if (Curve.ofRaw a).1.accepted = true then
        (s.withZone z { s.settings.zones[z] with curve := (Curve.ofRaw a).1 }).answered h .ok (Curve.ofRaw a).2 false
          (some (0 :: (Curve.ofRaw a).1.bytes))
      else s.answered h .badValue (Curve.ofRaw a).2 false none)) := by
  rw [exec_slip_taken _ h s rfl ht]
  show Host.Outcome.next ((State.setCurveSlip h a (s.markTaken h.addr)).finishSlip h.port) = _
  unfold State.setCurveSlip
  rw [targetBelow_some hz]
  dsimp only
  rw [State.setCurve_eq]
  by_cases hc : (Curve.ofRaw a).1.accepted = true
  · rw [if_pos hc, if_pos hc]
    dsimp only
    rw [State.withZone_markTaken, State.withZone_set_markTaken, State.endTaken_markTaken]
    rfl
  · rw [if_neg hc, if_neg hc]
    dsimp only
    rw [State.endTaken_markTaken]

theorem exec_setZoneLimits_taken (ht : s.takeable h = true) {z : Fin 4} (hz : h.target.toNat = z.val) (a : SetLimitsArgs) :
    exec (.setZoneLimits h a) s = .next (State.finishSlip h.port
      (if (ZoneLimits.apply a s.settings.zones[z].limits).1.accepted = true then
        (s.withZone z { s.settings.zones[z] with limits := (ZoneLimits.apply a s.settings.zones[z].limits).1 }).answered h .ok
          (ZoneLimits.apply a s.settings.zones[z].limits).2 false
          (some ([0, 0] ++ (ZoneLimits.apply a s.settings.zones[z].limits).1.bytes))
      else s.answered h .badValue (ZoneLimits.apply a s.settings.zones[z].limits).2 false none)) := by
  rw [exec_slip_taken _ h s rfl ht]
  show Host.Outcome.next ((State.setLimitsSlip h a (s.markTaken h.addr)).finishSlip h.port) = _
  unfold State.setLimitsSlip
  rw [targetBelow_some hz]
  dsimp only
  rw [State.setLimits_eq]
  generalize hr : ZoneLimits.apply a s.settings.zones[z].limits = r
  rw [show ZoneLimits.apply a (s.markTaken h.addr).settings.zones[z].limits = r from hr]
  by_cases hc : r.1.accepted = true
  · rw [if_pos hc, if_pos hc]
    dsimp only
    rw [State.withZone_markTaken, State.withZone_set_markTaken, State.endTaken_markTaken]
    rfl
  · rw [if_neg hc, if_neg hc]
    dsimp only
    rw [State.endTaken_markTaken]

/-- The state with the stale time set, the zone records republished. -/
def State.withStaleTime (v : Nat) (s : State) : State := ({ s with settings := { s.settings with staleTime := v } }).pubZones

theorem exec_setZoneStaleTime_taken (ht : s.takeable h = true) (hz : h.target = 0xFE) (seconds : Half) :
    exec (.setZoneStaleTime h seconds) s = .next (((s.withStaleTime (staleTimeOf seconds).1).answered h .ok (staleTimeOf seconds).2 false
      (some (le16 (staleTimeOf seconds).1))).finishSlip h.port) := by
  let w : State := { s with settings := { s.settings with staleTime := (staleTimeOf seconds).1 } }
  have hw : (w.markTaken h.addr).pubZones = w.pubZones.markTaken h.addr := w.pubZones_markTaken _
  have hset : w.pubZones.settings.staleTime = (staleTimeOf seconds).1 := by
    rw [show w.pubZones.settings = w.settings by simp only [State.pubZones, State.pubZone_settings]]
  rw [exec_slip_taken _ h s rfl ht]
  show Host.Outcome.next ((State.setStaleTimeSlip h seconds (s.markTaken h.addr)).finishSlip h.port) = _
  unfold State.setStaleTimeSlip
  rw [if_pos (show h.target = enclosureTarget from hz)]
  show Host.Outcome.next (((w.markTaken h.addr).pubZones.endTaken h .ok (staleTimeOf seconds).2 false
    (some (le16 (w.markTaken h.addr).pubZones.settings.staleTime))).finishSlip h.port) = _
  rw [hw, State.endTaken_markTaken]
  show Host.Outcome.next ((w.pubZones.answered h .ok (staleTimeOf seconds).2 false (some (le16 w.pubZones.settings.staleTime))).finishSlip h.port) = _
  rw [hset]; rfl

/-- Settles O38: each part stored and published, or refused. -/
theorem setZoneWritesParts : Obligations.SetZoneWritesParts := by
  refine ⟨?_, ?_, ?_⟩
  · intro s h a z htake hz point moved c clamped good
    have hraw : Curve.ofRaw a = (c, clamped) := by
      unfold Curve.ofRaw
      simp only [CurvePoint.ofRaw_eq]
      rfl
    have hgood : c.accepted = true ↔ good := c.accepted_iff
    have hexec := exec_setZoneCurve_taken htake hz a
    rw [hraw] at hexec
    refine ⟨fun hbad => ?_, fun hok => ?_⟩
    · rw [hexec]; dsimp only; rw [if_neg (hgood.not.2 hbad)]
    · obtain ⟨hunits, hlate, hlike, houter⟩ := s.withZone_put z { s.settings.zones[z] with curve := c }
      refine ⟨_, ?_, hunits, hlate, hlike, houter⟩
      rw [hexec]; dsimp only; rw [if_pos (hgood.2 hok)]
  · intro s h a z htake hz old temp small wide beyond past new clamped
    have happly : ZoneLimits.apply a old = (new, clamped) := ZoneLimits.apply_eq a old
    have hexec := exec_setZoneLimits_taken htake hz a
    rw [show ZoneLimits.apply a s.settings.zones[z].limits = (new, clamped) from happly] at hexec
    have hgood := ZoneLimits.accepted_iff new
    refine ⟨fun hbad => ?_, fun hok => ?_⟩
    · rw [hexec]; dsimp only; rw [if_neg (hgood.not.2 hbad)]
    · obtain ⟨hunits, hlate, hlike, houter⟩ := s.withZone_put z { s.settings.zones[z] with limits := new }
      refine ⟨_, ?_, hunits, hlate, hlike, houter⟩
      rw [hexec]; dsimp only; rw [if_pos (hgood.2 hok)]
  · intro s h seconds htake hz v
    let w : State := { s with settings := { s.settings with staleTime := v } }
    obtain ⟨hunits, hlate, hlike, houter⟩ := w.pubZones_published
    have hw : UnitsOnly s w := ⟨rfl, rfl, rfl, rfl, rfl, rfl, rfl, rfl, rfl, rfl⟩
    exact ⟨s.withStaleTime v, exec_setZoneStaleTime_taken htake hz seconds, hw.trans hunits, hlate, hlike, houter⟩

/-! ### SET_SENSOR -/

theorem State.republishSensor_markTaken (s : State) (i : Fin 8) (a : Half) :
    (s.markTaken a).republishSensor i = (s.republishSensor i).markTaken a := by
  unfold State.republishSensor
  rw [apply_ite (State.markTaken a)]; rfl

theorem SensorSettings.apply_eq (a : SetSensorArgs) (c : SensorSettings) : SensorSettings.apply a c =
    ({ zone := match a.zone with
         | none => c.zone
         | some b => if b = 0xFF then none else if b.toNat < 4 then some (Fin.ofNat 4 b.toNat) else some 3
       offset := match a.offset with
         | none => c.offset
         | some b => max (-10) (min 10 b.toInt) },
     (match a.zone with | none => false | some b => decide (b ≠ 0xFF ∧ 4 ≤ b.toNat)) ||
       (match a.offset with | none => false | some b => decide (b.toInt < -10 ∨ 10 < b.toInt))) := by
  obtain ⟨zone, offset⟩ := a
  have hzone (b : Byte) : sensorZoneOf b = (if b = 0xFF then none else if b.toNat < 4 then some (Fin.ofNat 4 b.toNat) else some 3,
      decide (b ≠ 0xFF ∧ 4 ≤ b.toNat)) := by
    unfold sensorZoneOf finOf
    by_cases hb : b = 0xFF
    · simp [hb]
    · by_cases h4 : b.toNat < 4
      · rw [if_neg hb, if_neg hb, if_pos h4, if_pos h4, decide_eq_false (fun h => absurd h4 (Nat.not_lt.2 h.2))]
      · rw [if_neg hb, if_neg hb, if_neg h4, if_neg h4, decide_eq_true ⟨hb, Nat.le_of_not_lt h4⟩]
  cases zone <;> cases offset <;> simp only [SensorSettings.apply, hzone] <;> rfl

/-- The state with the settings of sensor i, its record and the scan under way set, before the record is republished (R99). -/
def State.sensorSet (i : Fin 8) (new : SensorSettings) (u : Sensor) (c : Scan) (s : State) : State :=
  { s with settings := { s.settings with sensors := s.settings.sensors.set i new }, sensors := s.sensors.set i u, scan := c }

/-- Sensor i's record and the scan after its new settings (R83, R99). -/
def State.sensorAfter (s : State) (i : Fin 8) (new : SensorSettings) : Sensor :=
  if new.zone = s.settings.sensors[i].zone then s.sensors[i] else s.sensors[i].reassigned s.settings.sensors[i].zone new.zone
def State.scanAfter (s : State) (i : Fin 8) (new : SensorSettings) : Scan :=
  if new.zone = s.settings.sensors[i].zone then s.scan else s.scan.reassigned i new.zone.isNone

/-- The state after SET_SENSOR gave sensor i these settings (R99). -/
def State.sensorStored (i : Fin 8) (new : SensorSettings) (s : State) : State :=
  let t := (s.sensorSet i new (s.sensorAfter i new) (s.scanAfter i new)).republishSensor i
  if (s.sensors[i].state == .failed) != ((s.sensorAfter i new).state == .failed) then t.raiseBoth srcThermal else t

theorem State.setSensor_eq (i : Fin 8) (a : SetSensorArgs) (s : State) :
    s.setSensor i a = (s.sensorStored i (SensorSettings.apply a s.settings.sensors[i]).1, (SensorSettings.apply a s.settings.sensors[i]).2) := rfl

theorem State.sensorStored_markTaken (s : State) (i : Fin 8) (new : SensorSettings) (a : Half) :
    (s.markTaken a).sensorStored i new = (s.sensorStored i new).markTaken a := by
  let w := s.sensorSet i new (s.sensorAfter i new) (s.scanAfter i new)
  have hrep : (w.markTaken a).republishSensor i = (w.republishSensor i).markTaken a := w.republishSensor_markTaken i a
  show (if (s.sensors[i].state == .failed) != ((s.sensorAfter i new).state == .failed) then
      ((w.markTaken a).republishSensor i).raiseBoth srcThermal else (w.markTaken a).republishSensor i) = _
  rw [hrep]
  unfold State.sensorStored
  rw [apply_ite (State.markTaken a)]
  rfl

/-- What SET_SENSOR leaves (R99). -/
structure SensorStored (i : Fin 8) (new : SensorSettings) (u : Sensor) (c : Scan) (s t : State) : Prop where
  units : UnitsOnly s t
  like  : u.like t.sensors[i]
  pub   : ∀ old, s.status.sensors[i] = some old →
    t.sensors[i].gen = u.gen + 1 ∧ t.status.sensors[i] = some { sensor := t.sensors[i], set := new }
  outer : t.outer = { s.outer with
    settings := { s.settings with sensors := s.settings.sensors.set i new }
    sensors := s.sensors.set i t.sensors[i]
    scan := c }
  set   : t.settings.sensors[i] = new

theorem SensorStored.raiseBoth {i : Fin 8} {new : SensorSettings} {v : Sensor} {c : Scan} (h : SensorStored i new v c s t) (e : Fin 8) :
    SensorStored i new v c s (t.raiseBoth e) := ⟨h.units.raiseBoth e, h.like, h.pub, h.outer, h.set⟩

/-- While the part publishes, a republication gives the sensor's record its next generation and writes it (R99). -/
theorem State.republishSensor_pub (s : State) (i : Fin 8) (hp : s.publishing = true) {old : SensorSnap} (hold : s.status.sensors[i] = some old) :
    (s.republishSensor i).sensors[i].gen = s.sensors[i].gen + 1 ∧
      (s.republishSensor i).status.sensors[i] = some { sensor := (s.republishSensor i).sensors[i], set := s.settings.sensors[i] } := by
  have hgen : nextGen s.status.sensors[i] s.sensors[i].gen = s.sensors[i].gen + 1 := by rw [hold]; rfl
  let u : Sensor := { s.sensors[i] with gen := s.sensors[i].gen + 1 }
  let p : SensorSnap := { sensor := u, set := s.settings.sensors[i] }
  have hrep : s.republishSensor i = State.mark (enclosurePosition 14)
      { s with sensors := s.sensors.set i u, status := { s.status with sensors := s.status.sensors.set i (some p) } } := by
    unfold State.republishSensor
    rw [if_neg (by simp [hp]), hgen]
  have hsensor : (s.republishSensor i).sensors[i] = u := by
    rw [hrep]; exact set_self ..
  rw [hsensor]
  exact ⟨rfl, by rw [hrep]; exact set_self ..⟩

theorem State.publishing_of_running (h : s.phase = .running) : s.publishing = true := by
  unfold State.publishing; rw [h]; rfl

theorem State.sensorStored_stored (s : State) (i : Fin 8) (new : SensorSettings) (hrun : s.phase = .running) :
    SensorStored i new (s.sensorAfter i new) (s.scanAfter i new) s (s.sensorStored i new) := by
  let w := s.sensorSet i new (s.sensorAfter i new) (s.scanAfter i new)
  have hrep : SensorStored i new (s.sensorAfter i new) (s.scanAfter i new) s (w.republishSensor i) := by
    obtain ⟨hlike, hsensors⟩ := w.republishSensor_like i
    have hu : w.sensors[i] = s.sensorAfter i new := set_self ..
    have hset : w.settings.sensors[i] = new := set_self ..
    have hv := w.republishSensor_eq i
    have hw : (w.republishSensor i).sensors = s.sensors.set i (w.republishSensor i).sensors[i] := hsensors.trans (set_set_same ..)
    rw [hu] at hlike
    refine ⟨by rw [hv]; exact ⟨rfl, rfl, rfl, rfl, rfl, rfl, rfl, rfl, rfl, rfl⟩, hlike, fun old hold => ?_, ?_, ?_⟩
    · obtain ⟨hgen, hpub⟩ := w.republishSensor_pub i (State.publishing_of_running hrun) hold
      rw [hu] at hgen
      rw [hset] at hpub
      exact ⟨hgen, hpub⟩
    · rw [← hw, hv]; rfl
    · rw [hv]; exact hset
  unfold State.sensorStored
  dsimp only
  split
  · exact hrep.raiseBoth _
  · exact hrep

theorem exec_setSensor_taken (ht : s.takeable h = true) {i : Fin 8} (hi : h.target.toNat = i.val) (a : SetSensorArgs) {new : SensorSettings}
    {clamped : Bool} (happly : SensorSettings.apply a s.settings.sensors[i] = (new, clamped)) :
    exec (.setSensor h a) s = .next (((s.sensorStored i new).answered h .ok clamped false
      (some ((s.sensorStored i new).settings.sensors[i].bytes ++
        [BitVec.ofNat 8 (s.sensorStored i new).sensors[i].state.code]))).finishSlip h.port) := by
  rw [exec_slip_taken _ h s rfl ht]
  show Host.Outcome.next ((State.setSensorSlip h a (s.markTaken h.addr)).finishSlip h.port) = _
  unfold State.setSensorSlip
  rw [targetBelow_some hi]
  dsimp only
  rw [State.setSensor_eq, show SensorSettings.apply a (s.markTaken h.addr).settings.sensors[i] = (new, clamped) from happly,
    State.sensorStored_markTaken, State.endTaken_markTaken]
  rfl

theorem State.scanAfter_unmoved {i : Fin 8} {new : SensorSettings} (h : new.zone = s.settings.sensors[i].zone) : s.scanAfter i new = s.scan :=
  if_pos h

/-- A sensor that is being read when its zone changes is read on, and the result discarded (R83). -/
theorem State.scanAfter_read {i : Fin 8} {new : SensorSettings} {rest : List (Fin 8)} (h : new.zone ≠ s.settings.sensors[i].zone)
    (hleft : s.scan.left = i :: rest) : s.scanAfter i new = { left := i :: rest, discard := true } := by
  unfold State.scanAfter Scan.reassigned
  rw [if_neg h, hleft]
  dsimp only
  rw [if_pos rfl]

theorem State.sensorAfter_eq (s : State) (i : Fin 8) (new : SensorSettings) : s.sensorAfter i new =
    if new.zone = s.settings.sensors[i].zone then s.sensors[i]
    else if new.zone = none then { s.sensors[i] with state := .unused, raw := none, fails := 0, goodAt := none }
    else if s.settings.sensors[i].zone = none then { s.sensors[i] with state := .noData, raw := none, fails := 0, goodAt := none }
    else s.sensors[i] := by
  unfold State.sensorAfter
  split
  · rfl
  · generalize s.settings.sensors[i].zone = old
    cases hz : new.zone <;> cases old <;> rfl

theorem State.sensorStored_told {i : Fin 8} {new : SensorSettings} (hold : s.sensors[i].state = .failed)
    (hnew : (s.sensorAfter i new).state ≠ .failed) : (s.sensorStored i new).told srcThermal := by
  have hb : ((s.sensors[i].state == .failed) != ((s.sensorAfter i new).state == .failed)) = true := by
    rw [hold]
    simpa using hnew
  unfold State.sensorStored
  dsimp only
  rw [if_pos hb]
  exact State.raiseBoth_told _ _

theorem State.sensorStored_late {i : Fin 8} {new : SensorSettings} (hsame : (s.sensorAfter i new).state = s.sensors[i].state) :
    (s.sensorStored i new).late = s.late := by
  unfold State.sensorStored
  dsimp only
  rw [hsame, bne_self_eq_false, if_neg (by decide), State.republishSensor_eq]
  rfl

/-- Settles O39: the settings stored with the sensor's record and the scan, the record republished in every case. -/
theorem setSensorReassigns : Obligations.SetSensorReassigns := by
  intro s h a i htake hi old u zone offset clamped new rec'
  have hrun : s.phase = .running := s.takeable_running h htake
  have happly : SensorSettings.apply a old = (new, clamped) := SensorSettings.apply_eq a old
  have hafter : s.sensorAfter i new = rec' := s.sensorAfter_eq i new
  obtain ⟨units, like, pub, outer, set⟩ := s.sensorStored_stored i new hrun
  rw [hafter] at like pub
  have hscan : (s.sensorStored i new).scan = s.scanAfter i new := congrArg Outer.scan outer
  have hstate : (s.sensorStored i new).sensors[i].state = rec'.state := by rw [← (like : _ = _)]
  have hgen : rec'.gen = u.gen := by
    show (if zone = old.zone then u else _ : Sensor).gen = _
    split
    · rfl
    · split
      · rfl
      · split <;> rfl
  refine ⟨s.sensorStored i new, ?_, units, like, fun old hold => hgen ▸ pub old hold, ?_, fun hsame => ?_, fun rest hne hleft => ?_, fun hsome hne hfailed hold => ?_,
    fun hnone hold hfailed => ?_⟩
  · rw [exec_setSensor_taken htake hi a happly, set, hstate]
  · rw [hscan]; exact outer
  · rw [hscan, State.scanAfter_unmoved hsame]
  · rw [hscan, State.scanAfter_read hne hleft]
  · refine State.sensorStored_late ?_
    rw [State.sensorAfter_eq, if_neg hne, if_neg hsome, if_neg hold]
  · refine State.sensorStored_told hfailed ?_
    have hne : new.zone ≠ s.settings.sensors[i].zone := fun e => hold (e.symm.trans hnone)
    rw [State.sensorAfter_eq, if_neg hne, if_pos hnone]
    exact nofun

end Sys2Proof.Machine
end

section
/-! SUPPORT. The zone evaluation (R84, R87, R89 to R95): the sources and their classes, the hottest reading, the timer, and what stands. -/

namespace Sys2Proof.Machine

variable {s t : State} {z : Fin 4}

/-! ### The feeds marked (R87, R89) -/

theorem FeedEntry.marked_kept (now : Time) (ms : Nat) (e : FeedEntry) :
    (e.marked now ms).value = e.value ∧ (e.marked now ms).stamp = e.stamp := by
  unfold FeedEntry.marked
  split <;> exact ⟨rfl, rfl⟩

theorem FeedEntry.marked_stale {now t : Time} {ms : Nat} {e : FeedEntry} (h : e.stamp = some t) :
    (e.marked now ms).stale = true ↔ e.stale = true ∨ ms < Time.age now t := by
  unfold FeedEntry.marked
  rw [h]
  simp

theorem BayFeed.marked_get (now : Time) (ms : Nat) (f : BayFeed) (p : Port) :
    (f.marked now ms).entries.get p = (f.entries.get p).marked now ms := by cases p <;> rfl

theorem BayFeed.marked_graceOut (now : Time) (ms : Nat) (f : BayFeed) :
    (f.marked now ms).graceOut = true ↔ f.graceOut = true ∨ ∃ t, f.spinStart = some t ∧ ms < Time.age now t := by
  unfold BayFeed.marked
  cases h : f.spinStart <;> simp

theorem BayFeed.chosen_none {f : BayFeed} (ha : f.entries.a.stamp = none) (hb : f.entries.b.stamp = none) : f.chosen = none := by
  unfold BayFeed.chosen; rw [ha, hb]; rfl

theorem BayFeed.chosen_a {f : BayFeed} (ha : f.entries.a.stamp ≠ none) (hb : f.entries.b.stamp = none) : f.chosen = some f.entries.a := by
  obtain ⟨t, ha⟩ := Option.ne_none_iff_exists'.1 ha
  unfold BayFeed.chosen; rw [ha, hb]; rfl

theorem BayFeed.chosen_b {f : BayFeed} (ha : f.entries.a.stamp = none) (hb : f.entries.b.stamp ≠ none) : f.chosen = some f.entries.b := by
  obtain ⟨t, hb⟩ := Option.ne_none_iff_exists'.1 hb
  unfold BayFeed.chosen; rw [ha, hb]; rfl

theorem BayFeed.chosen_latest {f : BayFeed} {p : Port} (ha : f.entries.a.stamp ≠ none) (hb : f.entries.b.stamp ≠ none)
    (hp : f.latest = some p) : f.chosen = some (f.entries.get p) := by
  obtain ⟨t, ha⟩ := Option.ne_none_iff_exists'.1 ha
  obtain ⟨u, hb⟩ := Option.ne_none_iff_exists'.1 hb
  unfold BayFeed.chosen; rw [ha, hb, hp]
  cases p <;> rfl

/-! ### The sources of a zone (R84, R89, R90) -/

/-- The order of the sources: sensors before bays, each by number (R91). -/
def Source.place : Source → Nat
  | .sensor i => i.val
  | .bay n => 8 + n.val

theorem State.mem_sources_sensor {i : Fin 8} {c : SourceClass} : (.sensor i, c) ∈ s.sources z ↔
    s.settings.sensors[i].zone = some z ∧ sensorClass s.sensors[i] s.settings.sensors[i] = some c := by
  unfold State.sources
  simp only [List.mem_append, List.mem_filterMap]
  constructor
  · rintro (⟨j, -, hj⟩ | ⟨n, -, hn⟩)
    · split at hj
      next hz =>
        obtain ⟨d, hd, heq⟩ := Option.map_eq_some_iff.1 hj
        cases heq
        exact ⟨hz, hd⟩
      next => cases hj
    · split at hn <;> cases hn
  · rintro ⟨hz, hc⟩
    exact .inl ⟨i, List.mem_finRange i, by rw [if_pos hz, hc]; rfl⟩

theorem State.mem_sources_bay {n : BayNo} {c : SourceClass} : (.bay n, c) ∈ s.sources z ↔
    (s.inCount n = true ∧ (s.baySet n).zone = z ∧ (s.bay n).record.state.spinning = true) ∧ c = driveClass (s.feed n) := by
  unfold State.sources
  simp only [List.mem_append, List.mem_filterMap]
  constructor
  · rintro (⟨i, -, hi⟩ | ⟨m, -, hm⟩)
    · split at hi
      · obtain ⟨d, -, heq⟩ := Option.map_eq_some_iff.1 hi
        cases heq
      · cases hi
    · split at hm
      next h => cases hm; exact ⟨h, rfl⟩
      next => cases hm
  · rintro ⟨h, rfl⟩
    exact .inr ⟨n, mem_bayNumbers n, if_pos h⟩

/-- A list put together from the numbers below a bound, each with a source of its own place, rises in place. -/
theorem pairwise_filterMap_finRange {n : Nat} (f : Fin n → Option (Source × SourceClass)) (base : Nat)
    (h : ∀ i x, f i = some x → x.1.place = base + i.val) :
    ((List.finRange n).filterMap f).Pairwise fun x y => x.1.place < y.1.place := by
  refine List.Pairwise.filterMap f (fun i j hij x hx y hy => ?_) (List.pairwise_lt_finRange n)
  rw [h i x hx, h j y hy]
  exact Nat.add_lt_add_left hij base

theorem State.sources_sorted (s : State) (z : Fin 4) : (s.sources z).Pairwise fun x y => x.1.place < y.1.place := by
  unfold State.sources
  refine List.pairwise_append.2 ⟨pairwise_filterMap_finRange _ 0 fun i x hx => ?_, pairwise_filterMap_finRange _ 8 fun n x hx => ?_,
    fun x hx y hy => ?_⟩
  · split at hx
    · obtain ⟨d, -, heq⟩ := Option.map_eq_some_iff.1 hx
      rw [← heq]; exact (Nat.zero_add _).symm
    · cases hx
  · split at hx
    · cases hx; rfl
    · cases hx
  · obtain ⟨i, -, hi⟩ := List.mem_filterMap.1 hx
    obtain ⟨n, -, hn⟩ := List.mem_filterMap.1 hy
    split at hi
    · obtain ⟨d, -, rfl⟩ := Option.map_eq_some_iff.1 hi
      split at hn
      · cases hn
        exact Nat.lt_of_lt_of_le i.isLt (Nat.le_add_right 8 n.val)
      · cases hn
    · cases hi

/-- A bay's class by its fresh reading, or by its grace where it has none (R89). -/
theorem driveClass_fresh {f : BayFeed} {e : FeedEntry} (h : f.chosen = some e) (hs : e.stale = false) : driveClass f = .valid e.value := by
  unfold driveClass; rw [h]; dsimp only; rw [if_neg (by simp [hs])]

theorem driveClass_none {f : BayFeed} (h : ∀ e, ¬ (f.chosen = some e ∧ e.stale = false)) :
    driveClass f = if f.graceOut then .missing else .pending := by
  unfold driveClass
  cases hc : f.chosen with
  | none => rfl
  | some e =>
    have hs : e.stale = true := by
      cases hst : e.stale with
      | true => rfl
      | false => exact absurd ⟨hc, hst⟩ (h e)
    dsimp only
    rw [if_pos hs]

/-! ### The hottest reading (R91) -/

/-- The better of the best valid reading so far and the next source. -/
def hotPick (best : Option (Source × Int)) (x : Source × SourceClass) : Option (Source × Int) :=
  match x.2 with
  | .valid v =>
    match best with
    | none => some (x.1, v)
    | some b => if b.2 < v then some (x.1, v) else some b
  | _ => best

theorem hottestOf_eq_foldl (l : List (Source × SourceClass)) : hottestOf l = l.foldl hotPick none := by
  unfold hottestOf hotPick; rfl

theorem hotPick_none {l : List (Source × SourceClass)} (h : ∀ x ∈ l, ∀ v, x.2 ≠ .valid v) (best : Option (Source × Int)) :
    l.foldl hotPick best = best := by
  induction l with
  | nil => rfl
  | cons x l ih =>
    have hx : hotPick best x = best := by
      unfold hotPick
      split
      · rename_i v hv; exact absurd hv (h x List.mem_cons_self v)
      · rfl
    rw [List.foldl_cons, hx]
    exact ih fun y hy => h y (List.mem_cons_of_mem _ hy)

/-- The best reading stays under readings that are no greater. -/
theorem hotPick_keeps {l : List (Source × SourceClass)} {b : Source × Int} (h : ∀ y ∈ l, ∀ w, y.2 = .valid w → w ≤ b.2) :
    l.foldl hotPick (some b) = some b := by
  induction l with
  | nil => rfl
  | cons x l ih =>
    have hx : hotPick (some b) x = some b := by
      unfold hotPick
      split
      · rename_i v hv; exact if_neg (Int.not_lt.2 (h x List.mem_cons_self v hv))
      · rfl
    rw [List.foldl_cons, hx]
    exact ih fun y hy => h y (List.mem_cons_of_mem _ hy)

/-- Readings below a bound leave the best reading below it. -/
theorem hotPick_below {l : List (Source × SourceClass)} {v : Int} (h : ∀ y ∈ l, ∀ w, y.2 = .valid w → w < v) {best : Option (Source × Int)}
    (hb : ∀ b ∈ best, b.2 < v) : ∀ b ∈ l.foldl hotPick best, b.2 < v := by
  induction l generalizing best with
  | nil => exact hb
  | cons x l ih =>
    rw [List.foldl_cons]
    refine ih (fun y hy => h y (List.mem_cons_of_mem _ hy)) ?_
    unfold hotPick
    split
    · rename_i w hw
      have hwv := h x List.mem_cons_self w hw
      cases best with
      | none => intro b hb'; cases hb'; exact hwv
      | some b' =>
        dsimp only
        split
        · intro b hb'; cases hb'; exact hwv
        · exact hb
    · exact hb

/-- A source whose reading is the greatest, the first of its equals, is the hottest. -/
theorem hottestOf_first {l : List (Source × SourceClass)} (hl : l.Pairwise fun x y => x.1.place < y.1.place) {x : Source × SourceClass} {v : Int}
    (hx : x ∈ l) (hv : x.2 = .valid v)
    (hbest : ∀ y ∈ l, ∀ w, y.2 = .valid w → w < v ∨ (w = v ∧ x.1.place ≤ y.1.place)) : hottestOf l = some (x.1, v) := by
  obtain ⟨front, back, rfl⟩ := List.append_of_mem hx
  have hfront : ∀ y ∈ front, ∀ w, y.2 = .valid w → w < v := fun y hy w hw =>
    (hbest y (List.mem_append_left _ hy) w hw).resolve_right fun hc =>
      absurd ((List.pairwise_append.1 hl).2.2 y hy x List.mem_cons_self) (Nat.not_lt.2 hc.2)
  have hback : ∀ y ∈ back, ∀ w, y.2 = .valid w → w ≤ v := fun y hy w hw =>
    (hbest y (List.mem_append_right _ (List.mem_cons_of_mem _ hy)) w hw).elim Int.le_of_lt fun hc => hc.1.le
  have hbelow := hotPick_below hfront (best := none) nofun
  rw [hottestOf_eq_foldl, List.foldl_append, List.foldl_cons]
  generalize front.foldl hotPick none = best at hbelow
  have hpick : hotPick best x = some (x.1, v) := by
    unfold hotPick
    rw [hv]
    cases best with
    | none => rfl
    | some b => exact if_pos (hbelow b rfl)
  rw [hpick]
  exact hotPick_keeps hback

/-! ### The zone that an evaluation gives (R91 to R95) -/

theorem effective_spec (e : Int) (h : Nat) (t : Int) : let n := effective e h (some t)
    t ≤ n ∧ n ≤ t + h ∧ (e < t → n = t) ∧ (t < e - h → n = t + h) ∧ (t ≤ e → e ≤ t + h → n = e) := by
  intro n
  simp only [n, effective]
  split
  · omega
  · split <;> omega

theorem zoneStateOf_iff (e : Int) (l : ZoneLimits) : (zoneStateOf e l = .critical ↔ l.critical ≤ e) ∧
    (zoneStateOf e l = .hold ↔ e < l.critical ∧ l.ceiling ≤ e) := by
  unfold zoneStateOf
  split
  next h => simp [h]
  next h => split <;> simp_all

theorem conditionOf_eq (valid missing : Nat) : conditionOf valid missing =
    if valid = 0 then (if missing = 0 then .noSources else .blind) else if missing = 0 then .complete else .partly := by
  unfold conditionOf
  by_cases h : valid = 0
  · rw [if_neg (by omega), if_pos h]
  · rw [if_pos (by omega), if_neg h]

theorem State.vacancy_eq (s : State) (z : Fin 4) : s.vacancy z =
    (bayNumbers.filter fun n => s.inCount n && decide ((s.baySet n).zone = z) &&
      ((s.bay n).record.state == .empty || (s.bay n).record.state == .settling)).length := by
  unfold State.vacancy
  rw [List.countP_eq_length_filter]
  congr 2
  funext n
  cases (s.bay n).record.state <;> simp [BayState.fromOff]

theorem criticalTimerOf_apart (now : Time) (shed : Nat) (old : ZoneState) {st : ZoneState} (t : CriticalTimer) (h : st ≠ .critical) :
    criticalTimerOf now shed old st t = .stopped := if_neg h

theorem criticalTimerOf_entered (now : Time) (shed : Nat) {old : ZoneState} (t : CriticalTimer) (h : old ≠ .critical) :
    criticalTimerOf now shed old .critical t = if shed = 0 then .stopped else .running (Time.plus now (shed * 1000)) := by
  unfold criticalTimerOf; rw [if_pos rfl, if_neg h]

theorem criticalTimerOf_stays (now : Time) (shed : Nat) (t : CriticalTimer) (h : shed ≠ 0) :
    criticalTimerOf now shed .critical .critical t = t := by
  unfold criticalTimerOf; rw [if_pos rfl, if_pos rfl]
  cases t <;> simp [h]

theorem criticalTimerOf_stays_zero (now : Time) (t : CriticalTimer) :
    criticalTimerOf now 0 .critical .critical t = (match t with | .running _ => .stopped | x => x) := by
  cases t <;> rfl

/-! ### The evaluation -/

/-- Some zone's state differs from the one it had. -/
def State.zonesMoved (s : State) (zs : Vector Zone 4) : Bool := (List.finRange 4).any fun z => s.zones[z].state != zs[z].state

/-- The zones that an evaluation gives, before their records are published. -/
def State.newZones (s : State) : Vector Zone 4 := Vector.ofFn fun z => s.feedsMarked.evaluatedZone z

theorem State.evaluateZones_eq (s : State) : s.evaluateZones =
    if s.zonesMoved s.newZones = true then s.zoned.pubZones.evalEnclosure.raiseBoth srcThermal else s.zoned.pubZones.evalEnclosure := rfl

theorem State.zoned_eq (s : State) : s.zoned =
    { s.feedsMarked with
      zones := s.newZones
      reports := { s.reports with
        pass := s.reports.pass || (List.finRange 4).any fun z => s.zones[z].state != .normal && s.zones[z].state != s.newZones[z].state } } := rfl

theorem State.newZones_get (s : State) (z : Fin 4) : s.newZones[z] = s.feedsMarked.evaluatedZone z := Vector.getElem_ofFn ..

/-- What an evaluation leaves of the parts that it does not judge. -/
structure ZonesJudged (s t : State) : Prop where
  like      : ∀ z : Fin 4, (s.feedsMarked.evaluatedZone z).like t.zones[z]
  feeds     : t.feeds = s.feedsMarked.feeds
  bays      : t.bays = s.bays
  lines     : t.lines = s.lines
  scheduler : t.scheduler = s.scheduler
  account   : t.account = s.account
  readers   : t.readers = s.readers
  ram       : t.ram = s.ram
  attention : t.attention = s.attention
  outer     : t.outer = { s.outer with zones := t.zones }
  reports   : t.reports = s.zoned.reports

theorem ZonesJudged.raiseBoth (h : ZonesJudged s t) (i : Fin 8) : ZonesJudged s (t.raiseBoth i) :=
  ⟨h.like, h.feeds, h.bays, h.lines, h.scheduler, h.account, h.readers, h.ram, h.attention, h.outer, h.reports⟩

/-- The enclosure light's evaluation leaves all that a zone evaluation is judged by. -/
theorem ZonesJudged.evalEnclosure (h : ZonesJudged s t) : ZonesJudged s t.evalEnclosure := by
  have houter : t.evalEnclosure.outer = { s.outer with zones := t.zones } := (State.evalEnclosure_outer t).trans h.outer
  have hzones : t.evalEnclosure.zones = t.zones := congrArg Outer.zones (State.evalEnclosure_outer t)
  refine ⟨fun z => ?_, ?_, ?_, ?_, ?_, ?_, ?_, ?_, ?_, ?_, ?_⟩
  · rw [show t.evalEnclosure.zones[z] = t.zones[z] by rw [Fin.getElem_fin, Fin.getElem_fin]; simp only [hzones]]; exact h.like z
  · rw [State.evalEnclosure_eq]; exact h.feeds
  · rw [State.evalEnclosure_eq]; exact h.bays
  · rw [State.evalEnclosure_eq]; exact h.lines
  · rw [State.evalEnclosure_eq]; exact h.scheduler
  · rw [State.evalEnclosure_eq]; exact h.account
  · rw [State.evalEnclosure_eq]; exact h.readers
  · rw [State.evalEnclosure_eq]; exact h.ram
  · rw [State.evalEnclosure_eq]; exact h.attention
  · rw [houter, hzones]
  · rw [State.evalEnclosure_eq]; exact h.reports

theorem State.pubZones_judged (s : State) : ZonesJudged s s.zoned.pubZones := by
  obtain ⟨units, -, like, outer⟩ := s.zoned.pubZones_published
  refine ⟨fun z => ?_, units.feeds, units.bays, units.lines, units.scheduler, units.account, units.readers, units.ram, units.attention,
    outer, units.reports⟩
  have hz : s.zoned.zones[z] = s.feedsMarked.evaluatedZone z := s.newZones_get z
  rw [← hz]; exact like z

theorem State.evaluateZones_judged (s : State) : ZonesJudged s s.evaluateZones := by
  rw [State.evaluateZones_eq]
  split
  · exact s.pubZones_judged.evalEnclosure.raiseBoth _
  · exact s.pubZones_judged.evalEnclosure

theorem ZonesJudged.state (h : ZonesJudged s t) (z : Fin 4) : s.newZones[z].state = t.zones[z].state := by
  rw [State.newZones_get, ← (h.like z : _ = _)]

theorem State.zonesMoved_iff (h : ZonesJudged s t) : s.zonesMoved s.newZones = true ↔ ∃ z : Fin 4, s.zones[z].state ≠ t.zones[z].state := by
  unfold State.zonesMoved
  rw [List.any_eq_true]
  constructor
  · rintro ⟨z, -, hz⟩
    exact ⟨z, by rw [← h.state z]; exact bne_iff_ne.1 hz⟩
  · rintro ⟨z, hz⟩
    exact ⟨z, List.mem_finRange z, bne_iff_ne.2 (by rw [h.state z]; exact hz)⟩

/-- Settles O36: each clause by the lemma about the part of the evaluation that it speaks of. -/
theorem zonesEvaluatedTogether : Obligations.ZonesEvaluatedTogether := by
  refine ⟨fun s => ?_, fun f now ms => ⟨BayFeed.chosen_none, BayFeed.chosen_a, BayFeed.chosen_b, fun p => BayFeed.chosen_latest,
    fun p t ht => ?_, fun p => ?_, f.marked_graceOut now ms, rfl, rfl⟩⟩
  · intro t m
    have hj : ZonesJudged s t := s.evaluateZones_judged
    refine ⟨fun z => ⟨m.sources z, ?_⟩, hj.feeds, hj.bays, hj.lines, hj.scheduler, hj.account, hj.readers, hj.ram, hj.attention, hj.outer,
      fun hmoved => ?_, fun hsame => ?_, ?_⟩
    · intro old new l place valid missing
      have hplace : place = Source.place := by funext x; cases x <;> rfl
      have hnew : (m.evaluatedZone z).like new := hj.like z
      rw [hplace]
      generalize new = new at hnew ⊢
      obtain ⟨g, rfl⟩ : ∃ g, new = { m.evaluatedZone z with gen := g } := ⟨new.gen, hnew.symm⟩
      have hspec (t : Int) (ht : (hottestOf (m.sources z)).map (·.2) = some t) :
          effective old.e l.h ((hottestOf (m.sources z)).map (·.2)) = effective old.e l.h (some t) := by rw [ht]
      let st := zoneStateOf (effective old.e l.h ((hottestOf (m.sources z)).map (·.2))) l
      obtain ⟨hcrit, hhold⟩ := zoneStateOf_iff (effective old.e l.h ((hottestOf (m.sources z)).map (·.2))) l
      refine ⟨fun i c => ?_, fun n c => ?_, m.sources_sorted z, fun hnone => ?_, fun x hx v hv hbest => ?_, fun hnone => ?_, fun t ht => ?_,
        hcrit, hhold, rfl, rfl, rfl, conditionOf_eq _ _, m.vacancy_eq z, fun hst => criticalTimerOf_apart _ _ _ _ hst, fun hst hold => ?_,
        fun hst hold hshed => ?_, fun hst hold hshed => ?_⟩
      · intro u set
        refine ⟨fun hno hmem => ?_, fun hz => ⟨fun raw hok hraw => ?_, fun hnodata => ?_, fun hfailed => ?_⟩⟩
        · obtain ⟨hz, hc⟩ := State.mem_sources_sensor.1 hmem
          obtain hno | hno := hno
          · exact hno hz
          · have hc' : sensorClass u set = some c := hc
            unfold sensorClass at hc'
            rw [hno] at hc'
            cases hc'
        · rw [State.mem_sources_sensor, and_iff_right (show m.settings.sensors[i].zone = some z from hz)]
          have hc : sensorClass u set = some (.valid (sensorReading raw set.offset)) := by unfold sensorClass; rw [hok, hraw]
          rw [show sensorClass m.sensors[i] m.settings.sensors[i] = _ from hc, Option.some_inj]
          exact eq_comm
        · rw [State.mem_sources_sensor, and_iff_right (show m.settings.sensors[i].zone = some z from hz)]
          have hc : sensorClass u set = some .pending := by unfold sensorClass; rw [hnodata]
          rw [show sensorClass m.sensors[i] m.settings.sensors[i] = _ from hc, Option.some_inj]
          exact eq_comm
        · rw [State.mem_sources_sensor, and_iff_right (show m.settings.sensors[i].zone = some z from hz)]
          have hc : sensorClass u set = some .missing := by unfold sensorClass; rw [hfailed]
          rw [show sensorClass m.sensors[i] m.settings.sensors[i] = _ from hc, Option.some_inj]
          exact eq_comm
      · intro st f source fresh
        have hsource : (m.inCount n = true ∧ (m.baySet n).zone = z ∧ (m.bay n).record.state.spinning = true) ↔ source := by
          have hspin : st.spinning = true ↔ st = .spinningUp ∨ st = .ready ∨ st = .spinningDown := by
            cases st <;> simp [BayState.spinning]
          exact and_congr_right fun _ => and_congr_right fun _ => hspin
        rw [State.mem_sources_bay, hsource]
        refine ⟨fun hno hmem => hno hmem.1, fun e hs he => ?_, fun hs hno => ?_⟩
        · rw [and_iff_right hs, driveClass_fresh he.1 he.2]
        · rw [and_iff_right hs, driveClass_none hno]
      · have hhot : hottestOf (m.sources z) = none := (hottestOf_eq_foldl _).trans (hotPick_none hnone none)
        exact ⟨congrArg (Option.map fun x : Source × Int => x.2) hhot, congrArg (Option.map fun x : Source × Int => x.1) hhot⟩
      · have hhot := hottestOf_first (m.sources_sorted z) hx hv hbest
        exact ⟨congrArg (Option.map fun x : Source × Int => x.2) hhot, congrArg (Option.map fun x : Source × Int => x.1) hhot⟩
      · show effective old.e l.h ((hottestOf (m.sources z)).map (·.2)) = old.e
        rw [show (hottestOf (m.sources z)).map (·.2) = none from hnone]; rfl
      · have heff := effective_spec old.e l.h t
        rw [← hspec t ht] at heff
        exact heff
      · show criticalTimerOf m.time l.shedTime old.state st old.timer = _
        rw [show st = .critical from hst]
        exact criticalTimerOf_entered _ _ _ hold
      · show criticalTimerOf m.time l.shedTime old.state st old.timer = _
        rw [show st = .critical from hst, hold]
        exact criticalTimerOf_stays _ _ _ hshed
      · show criticalTimerOf m.time l.shedTime old.state st old.timer = _
        rw [show st = .critical from hst, hold, hshed]
        exact criticalTimerOf_stays_zero _ _
    · show s.evaluateZones.told srcThermal
      rw [State.evaluateZones_eq, if_pos ((State.zonesMoved_iff hj).2 hmoved)]
      exact State.raiseBoth_told _ _
    · show s.evaluateZones.late = s.late
      have hno : ¬ s.zonesMoved s.newZones = true := fun h => by
        obtain ⟨z, hz⟩ := (State.zonesMoved_iff hj).1 h
        exact hz (hsame z)
      rw [State.evaluateZones_eq, if_neg hno, State.evalEnclosure_eq]
      exact s.zoned.pubZones_published.late
    · rintro ⟨z, hnormal, hmoved⟩
      rw [hj.reports, State.zoned_eq]
      refine Bool.or_eq_true_iff.2 (.inr (List.any_eq_true.2 ⟨z, List.mem_finRange z, ?_⟩))
      rw [Bool.and_eq_true, bne_iff_ne, bne_iff_ne]
      exact ⟨hnormal, by rw [hj.state z]; exact hmoved.symm⟩
  · rw [BayFeed.marked_get]; exact FeedEntry.marked_stale ht
  · rw [BayFeed.marked_get]; exact FeedEntry.marked_kept _ _ _

end Sys2Proof.Machine
end

section
/-! SUPPORT. The tachometer check (R117), presence and tach reports (R115, R116), the port floors (R108, R123). -/

namespace Sys2Proof.Machine

variable {s t u : State} {h : SlipHead}

/-! ### The tachometer check -/

section
variable (limit : Nat) (now : Time) (tach lo hi : Nat) (weak : Bool) (last : Nat) (entered : Time) (at' : Option Time) (gen : Byte) (latest : Nat)
  (present : Bool)

/-- A fan's tachometer check in OK: the third low reading in a row fails it (R117). -/
theorem Fan.checked_ok : Fan.checked limit now ⟨⟨.ok, tach, lo, hi, weak, last, entered, at', gen⟩, latest, present⟩ =
    if latest < limit then
      if lo + 1 = 3 then ⟨⟨.failed, latest, 0, 0, weak, last, now, none, gen⟩, latest, present⟩
      else ⟨⟨.ok, latest, lo + 1, hi, weak, last, entered, at', gen⟩, latest, present⟩
    else ⟨⟨.ok, latest, 0, hi, weak, last, entered, at', gen⟩, latest, present⟩ := rfl

/-- In FAILED: the fifth good reading in a row restores it (R117). -/
theorem Fan.checked_failed : Fan.checked limit now ⟨⟨.failed, tach, lo, hi, weak, last, entered, at', gen⟩, latest, present⟩ =
    if latest < limit then ⟨⟨.failed, latest, lo, 0, weak, last, entered, at', gen⟩, latest, present⟩
    else if hi + 1 = 5 then ⟨⟨.ok, latest, 0, 0, weak, last, now, none, gen⟩, latest, present⟩
    else ⟨⟨.failed, latest, lo, hi + 1, weak, last, entered, at', gen⟩, latest, present⟩ := rfl

/-- In any other state the tach rpm alone moves (R116, R117). -/
theorem Fan.checked_apart {st : FanState} (hok : st ≠ .ok) (hfailed : st ≠ .failed) :
    Fan.checked limit now ⟨⟨st, tach, lo, hi, weak, last, entered, at', gen⟩, latest, present⟩ =
      ⟨⟨st, if st = .unused then 0 else latest, lo, hi, weak, last, entered, at', gen⟩, latest, present⟩ := by
  cases st <;> first | rfl | contradiction

end

/-- Settles O41: by the state of the fan, the reading against the limit, and the count. -/
theorem tachCheckCounts : Obligations.TachCheckCounts := by
  rintro ⟨⟨st, tach, lo, hi, weak, last, entered, at', gen⟩, latest, present⟩ limit now r new low
  by_cases hok : st = .ok
  · subst hok
    have hnew : new = _ := Fan.checked_ok ..
    by_cases hlow : latest < limit
    · by_cases hcount : lo + 1 = 3
      · rw [if_pos hlow, if_pos hcount] at hnew
        rw [hnew]
        simp [low, hlow, r, show lo = 2 by omega]
      · rw [if_pos hlow, if_neg hcount] at hnew
        rw [hnew]
        simp [low, hlow, r, show lo ≠ 2 by omega]
    · rw [if_neg hlow] at hnew
      rw [hnew]
      simp [low, hlow, r]
  · by_cases hfailed : st = .failed
    · subst hfailed
      have hnew : new = _ := Fan.checked_failed ..
      by_cases hlow : latest < limit
      · rw [if_pos hlow] at hnew
        rw [hnew]
        simp [low, hlow, r]
      · by_cases hcount : hi + 1 = 5
        · rw [if_neg hlow, if_pos hcount] at hnew
          rw [hnew]
          simp [low, hlow, r, show hi = 4 by omega]
        · rw [if_neg hlow, if_neg hcount] at hnew
          rw [hnew]
          simp [low, hlow, r, show hi ≠ 4 by omega]
    · have hnew : new = _ := Fan.checked_apart _ _ _ _ _ _ _ _ _ _ _ _ hok hfailed
      rw [hnew]
      simp [r, hok, hfailed]

/-! ### Publications of fans, and the enclosure light -/

theorem State.pubFan_fans (s : State) (i : Fin 6) : ∃ g, (s.pubFan i).fans =
    { s.fans with fans := s.fans.fans.set i { s.fans.fans[i] with record := { s.fans.fans[i].record with gen := g } } } := by
  unfold State.pubFan
  dsimp only
  split
  · exact ⟨s.fans.fans[i].record.gen, congrArg (fun v => { s.fans with fans := v }) (Vector.set_getElem_self (xs := s.fans.fans) ..).symm⟩
  · exact ⟨_, rfl⟩

theorem State.pubFan_like (s : State) (i : Fin 6) : s.fans.fans[i].like (s.pubFan i).fans.fans[i] ∧
    (s.pubFan i).fans = { s.fans with fans := s.fans.fans.set i (s.pubFan i).fans.fans[i] } := by
  obtain ⟨g, hg⟩ := s.pubFan_fans i
  have hi : (s.pubFan i).fans.fans[i] = { s.fans.fans[i] with record := { s.fans.fans[i].record with gen := g } } := by
    rw [hg]; exact set_self ..
  rw [hi]
  exact ⟨rfl, hg⟩

theorem UnitsOnly.fansOnly (h : UnitsOnly s t) : FansOnly s t :=
  ⟨h.bays, h.lines, h.feeds, by rw [h.lights]; exact ⟨rfl, rfl, rfl⟩, h.account, h.scheduler, h.readers, h.ram, h.attention, h.reports⟩

theorem FansOnly.trans (h : FansOnly s t) (k : FansOnly t u) : FansOnly s u where
  bays := k.bays.trans h.bays
  lines := k.lines.trans h.lines
  feeds := k.feeds.trans h.feeds
  lights := by
    obtain ⟨hb, hblue, hports⟩ := h.lights
    obtain ⟨kb, kblue, kports⟩ := k.lights
    exact ⟨kb.trans hb, kblue.trans hblue, kports.trans hports⟩
  account := k.account.trans h.account
  scheduler := k.scheduler.trans h.scheduler
  readers := k.readers.trans h.readers
  ram := k.ram.trans h.ram
  attention := k.attention.trans h.attention
  reports := k.reports.trans h.reports

theorem FansOnly.raiseBoth (h : FansOnly s t) (i : Fin 8) : FansOnly s (t.raiseBoth i) :=
  ⟨h.bays, h.lines, h.feeds, h.lights, h.account, h.scheduler, h.readers, h.ram, h.attention, h.reports⟩

/-- The enclosure light's evaluation moves the AMBER SYSTEM slot and a generation alone of the lights (R137). -/
theorem State.evalEnclosure_fansOnly (s : State) : FansOnly s s.evalEnclosure := by
  have hlights : s.evalEnclosure.lights.bays = s.lights.bays ∧ s.evalEnclosure.lights.enclosure.blue = s.lights.enclosure.blue ∧
      s.evalEnclosure.lights.enclosure.amber.ports = s.lights.enclosure.amber.ports := by
    by_cases hst : s.phase = .starting
    · rw [s.evalEnclosure_starting hst]; exact ⟨rfl, rfl, rfl⟩
    · obtain ⟨g, hg⟩ := s.evalEnclosure_lights hst
      rw [hg]; exact ⟨rfl, rfl, rfl⟩
  refine ⟨?_, ?_, ?_, hlights, ?_, ?_, ?_, ?_, ?_, ?_⟩ <;> rw [State.evalEnclosure_eq]

theorem State.enclosureAmber_evalEnclosure (s : State) : s.evalEnclosure.enclosureAmber = s.enclosureAmber := by
  rw [State.evalEnclosure_eq]; rfl

theorem State.evalEnclosure_amber (h : s.phase ≠ .starting) : s.evalEnclosure.lights.enclosure.amber.system = s.evalEnclosure.enclosureAmber := by
  obtain ⟨g, hg⟩ := s.evalEnclosure_lights h
  rw [State.enclosureAmber_evalEnclosure, hg]

@[simp] theorem State.evalEnclosure_late (s : State) : s.evalEnclosure.late = s.late := by rw [State.evalEnclosure_eq]
@[simp] theorem State.evalEnclosure_fans (s : State) : s.evalEnclosure.fans = s.fans := by rw [State.evalEnclosure_eq]

/-! ### A fan handled outside a period -/

/-- Fan i came to stand as `f` but for its generation, the enclosure light was evaluated, and of the units nothing else moved. -/
structure FanPut (i : Fin 6) (f : Fan) (s t : State) : Prop where
  units : FansOnly s t
  like  : f.like t.fans.fans[i]
  outer : t.outer = { s.outer with fans := { s.fans with fans := s.fans.fans.set i t.fans.fans[i] } }
  amber : s.phase ≠ .starting → t.lights.enclosure.amber.system = t.enclosureAmber

theorem FanPut.raiseBoth {i : Fin 6} {f : Fan} (h : FanPut i f s t) (e : Fin 8) : FanPut i f s (t.raiseBoth e) :=
  ⟨h.units.raiseBoth e, h.like, h.outer, h.amber⟩

/-- Fan i put and published, the enclosure light evaluated. -/
def State.fanSet (i : Fin 6) (f : Fan) (s : State) : State := ((s.putFan i f).pubFan i).evalEnclosure

theorem State.fanSet_put (s : State) (i : Fin 6) (f : Fan) : FanPut i f s (s.fanSet i f) := by
  let w := s.putFan i f
  obtain ⟨hlike, hfans⟩ := w.pubFan_like i
  have hf : w.fans.fans[i] = f := set_self ..
  rw [hf] at hlike
  have hv := w.pubFan_eq i
  have hset : (w.pubFan i).fans = { s.fans with fans := s.fans.fans.set i (w.pubFan i).fans.fans[i] } :=
    hfans.trans (congrArg (fun v => { s.fans with fans := v }) (set_set_same s.fans.fans i f _))
  have hunits : UnitsOnly s (w.pubFan i) := by rw [hv]; exact ⟨rfl, rfl, rfl, rfl, rfl, rfl, rfl, rfl, rfl, rfl⟩
  have houter : (w.pubFan i).outer = { s.outer with fans := { s.fans with fans := s.fans.fans.set i (w.pubFan i).fans.fans[i] } } := by
    rw [← hset, hv]; rfl
  have hphase : (w.pubFan i).phase = s.phase := by rw [hv]; rfl
  generalize hx : w.pubFan i = x at hlike hunits houter hphase
  have hset' : s.fanSet i f = x.evalEnclosure := congrArg State.evalEnclosure hx
  rw [hset']
  refine ⟨hunits.fansOnly.trans x.evalEnclosure_fansOnly, ?_, ?_, fun hst => State.evalEnclosure_amber (by rw [hphase]; exact hst)⟩
  · simp only [State.evalEnclosure_fans]; exact hlike
  · simp only [State.evalEnclosure_fans]; exact (State.evalEnclosure_outer x).trans houter

theorem State.fanSet_late (s : State) (i : Fin 6) (f : Fan) : (s.fanSet i f).late = s.late := by
  unfold State.fanSet; rw [State.evalEnclosure_late, State.pubFan_eq]; rfl

theorem State.fanChanged_eq (s : State) (i : Fin 6) (f : Fan) : s.fanChanged i f =
    if fanEvent s.fans.fans[i].record.state f.record.state = true then (s.fanSet i f).raiseBoth srcFan else s.fanSet i f := rfl

theorem State.fanChanged_put (s : State) (i : Fin 6) (f : Fan) : FanPut i f s (s.fanChanged i f) := by
  rw [State.fanChanged_eq]
  split
  · exact (s.fanSet_put i f).raiseBoth _
  · exact s.fanSet_put i f

theorem State.fanChanged_told {i : Fin 6} {f : Fan} (h : fanEvent s.fans.fans[i].record.state f.record.state = true) :
    (s.fanChanged i f).told srcFan := by
  rw [State.fanChanged_eq, if_pos h]; exact State.raiseBoth_told _ _

theorem State.fanChanged_late {i : Fin 6} {f : Fan} (h : fanEvent s.fans.fans[i].record.state f.record.state = false) :
    (s.fanChanged i f).late = s.late := by
  rw [State.fanChanged_eq, if_neg (Bool.eq_false_iff.1 h)]; exact s.fanSet_late i f

theorem fanEvent_same (st : FanState) : fanEvent st st = false := by simp [fanEvent]

/-! ### Reports -/

theorem exec_fanPresenceReport (s : State) (i : Fin 6) (present : Bool) : exec (.fanPresenceReport i present) s =
    .next (if s.running = true ∧ s.configured i = true then
      (s.fanChanged i (({ s.fans.fans[i] with present := present } : Fan).presenceTaken present s.time)).close
    else s.putFan i { s.fans.fans[i] with present := present }) := rfl

theorem exec_startingExpiry (s : State) (i : Fin 6) : exec (.startingExpiry i) s =
    .next (if s.running = true ∧ s.fans.fans[i].record.state = .starting ∧ Time.due s.time s.fans.fans[i].record.startingAt = true then
      (s.fanChanged i (s.fans.fans[i].settled .ok s.time)).close
    else s) := rfl

theorem exec_tachReport (s : State) (i : Fin 6) (pulses : Nat) : exec (.tachReport i pulses) s =
    .next (if s.running = true ∧ s.fans.fans[i].record.state ≠ .unused then
      { s.putFan i { s.fans.fans[i] with latest := 60 * pulses } with
        fans := { (s.putFan i { s.fans.fans[i] with latest := 60 * pulses }).fans with
          check := s.fans.check.map (FanCheck.report s.time i (60 * pulses)) } }
    else s) := rfl

/-- A fan after a presence report, by the report and the state it finds (R115). -/
theorem Fan.presenceTaken_eq (present : Bool) (now : Time) (f : Fan) : f.presenceTaken present now =
    if present = true ∧ f.record.state = .absent then f.toStarting now
    else if present = false ∧ (f.record.state = .starting ∨ f.record.state = .ok ∨ f.record.state = .failed) then f.toAbsent now
    else f := by
  unfold Fan.presenceTaken
  cases present <;> cases hst : f.record.state <;> simp

/-- A presence report moves a fan's state only into or out of ABSENT, which FAN reports (R118). -/
theorem Fan.presenceTaken_event (present : Bool) (now : Time) (f : Fan) :
    fanEvent f.record.state (f.presenceTaken present now).record.state = decide ((f.presenceTaken present now).record.state ≠ f.record.state) := by
  rw [Fan.presenceTaken_eq]
  by_cases h1 : present = true ∧ f.record.state = .absent
  · rw [if_pos h1, h1.2]; rfl
  · rw [if_neg h1]
    by_cases h2 : present = false ∧ (f.record.state = .starting ∨ f.record.state = .ok ∨ f.record.state = .failed)
    · rw [if_pos h2]
      obtain ⟨-, h2 | h2 | h2⟩ := h2 <;> rw [h2] <;> rfl
    · rw [if_neg h2, fanEvent_same]; simp

/-- Settles O43: each report and the expiry, taken and not taken. -/
theorem fanReportsTaken : Obligations.FanReportsTaken := by
  refine ⟨?_, ?_, ?_⟩
  · intro s i present f taken starting absent new
    have hcond : (s.running = true ∧ s.configured i = true) ↔ taken :=
      and_congr (State.running_iff s) decide_eq_true_iff
    refine ⟨fun hno => ?_, fun htaken => ?_⟩
    · rw [exec_fanPresenceReport, if_neg (hcond.not.2 hno)]
    · have hnew : f.presenceTaken present s.time = new := Fan.presenceTaken_eq present s.time f
      have hevent : fanEvent s.fans.fans[i].record.state new.record.state = decide (new.record.state ≠ f.record.state) := by
        rw [← hnew]; exact Fan.presenceTaken_event present s.time f
      have hput := s.fanChanged_put i new
      refine ⟨s.fanChanged i new, ?_, hput.like, hput.outer, hput.units, hput.amber (by rw [htaken.1]; decide), fun hmoved => ?_, fun hsame => ?_⟩
      · rw [exec_fanPresenceReport, if_pos (hcond.2 htaken), hnew]
      · exact State.fanChanged_told (hevent.trans (decide_eq_true hmoved))
      · exact State.fanChanged_late (hevent.trans (decide_eq_false (not_not_intro hsame)))
  · intro s i hrun hst hdue f
    have hput := s.fanChanged_put i (f.settled .ok s.time)
    refine ⟨s.fanChanged i (f.settled .ok s.time), ?_, hput.like, hput.outer, hput.units, State.fanChanged_late ?_⟩
    · rw [exec_startingExpiry, if_pos ⟨(State.running_iff s).2 hrun, hst, hdue⟩]
    · rw [hst]; rfl
  · intro s i pulses f t
    have hnot (hno : s.phase ≠ .running ∨ f.record.state = .unused) : ¬ (s.running = true ∧ s.fans.fans[i].record.state ≠ .unused) := by
      rintro ⟨hrun, hused⟩
      exact hno.elim (fun h => h ((State.running_iff s).1 hrun)) hused
    refine ⟨fun hno => ?_, fun hrun hused hcheck => ?_, fun k hrun hused hcheck => ⟨k.report s.time i (60 * pulses), ?_, rfl⟩⟩
    · rw [exec_tachReport, if_neg (hnot hno)]
    · rw [exec_tachReport, if_pos ⟨(State.running_iff s).2 hrun, hused⟩, hcheck]
      show Host.Outcome.next { t with fans := { t.fans with check := none } } = .next t
      rw [show ({ t.fans with check := none } : FanControl) = t.fans from by
        have hc : t.fans.check = none := hcheck
        rw [← hc]]
    · rw [exec_tachReport, if_pos ⟨(State.running_iff s).2 hrun, hused⟩, hcheck]; rfl

/-! ### Floors -/

theorem exec_floorExpiry (s : State) (p : Port) : exec (.floorExpiry p) s =
    .next (if s.running = true ∧ Time.due s.time ((s.fans.floors.get p).bind (·.expiry)) = true then s.putFloor p none else s) := rfl

theorem State.pubSummary_markTaken (s : State) (a : Half) : (s.markTaken a).pubSummary = s.pubSummary.markTaken a := by
  unfold State.pubSummary
  rw [apply_ite (State.markTaken a)]; rfl

theorem State.pubSummaryIfChanged_markTaken (s : State) (a : Half) : (s.markTaken a).pubSummaryIfChanged = s.pubSummaryIfChanged.markTaken a := by
  unfold State.pubSummaryIfChanged
  rw [State.pubSummary_markTaken, apply_ite (State.markTaken a)]; rfl

theorem State.putFloor_markTaken (s : State) (p : Port) (f : Option Floor) (a : Half) : (s.markTaken a).putFloor p f = (s.putFloor p f).markTaken a :=
  State.pubSummaryIfChanged_markTaken ({ s with fans := { s.fans with floors := s.fans.floors.put p f } }) a

theorem State.putFloor_eq (s : State) (p : Port) (f : Option Floor) : s.putFloor p f =
    { s with fans := { s.fans with floors := s.fans.floors.put p f }, status := (s.putFloor p f).status } :=
  State.pubSummaryIfChanged_eq ({ s with fans := { s.fans with floors := s.fans.floors.put p f } })

/-- A port's floor moves, and of the units nothing else. -/
theorem State.putFloor_put (s : State) (p : Port) (f : Option Floor) : UnitsOnly s (s.putFloor p f) ∧ (s.putFloor p f).late = s.late ∧
    (s.putFloor p f).outer = { s.outer with fans := { s.fans with floors := s.fans.floors.put p f } } := by
  rw [State.putFloor_eq]
  exact ⟨⟨rfl, rfl, rfl, rfl, rfl, rfl, rfl, rfl, rfl, rfl⟩, rfl, rfl⟩

theorem floorOf_eq (duty expiry : Half) (now : Time) : floorOf duty expiry now =
    (if duty = 0 then none
      else some { duty := min duty.toNat 1000, expiry := if expiry = 0 then none else some (Time.plus now (expiry.toNat * 1000)) },
      decide (1000 < duty.toNat)) := by
  unfold floorOf
  by_cases h : duty = 0
  · rw [if_pos h, if_pos h, h]; rfl
  · rw [if_neg h, if_neg h]

theorem exec_setFloor_taken (ht : s.takeable h = true) (hi : h.target = 0xFE) (duty expiry : Half) :
    exec (.setFloor h duty expiry) s = .next (((s.putFloor h.port (floorOf duty expiry s.time).1).answered h .ok (floorOf duty expiry s.time).2
      false (some ((s.putFloor h.port (floorOf duty expiry s.time).1).floorResult h.port))).finishSlip h.port) := by
  rw [exec_slip_taken _ h s rfl ht]
  show Host.Outcome.next ((State.setFloorSlip h duty expiry (s.markTaken h.addr)).finishSlip h.port) = _
  unfold State.setFloorSlip
  rw [if_pos (show h.target = enclosureTarget from hi)]
  dsimp only
  rw [State.putFloor_markTaken, State.endTaken_markTaken]
  rfl

/-- The bytes of a floor in result data (Table 11-7). -/
def floorBytes : Option Floor → List Byte
  | none => [0, 0, 0, 0, 0, 0, 0, 0]
  | some f => le16 f.duty ++ (match f.expiry with | none => [0, 0, 0, 0, 0, 0] | some t => [1, 0] ++ le32 t)

theorem State.floorResult_eq (s : State) (p : Port) :
    s.floorResult p = floorBytes (s.fans.floors.get p) ++ le16 s.fans.c ++ le16 s.fans.draw := by
  unfold State.floorResult
  obtain _ | ⟨d, _ | t⟩ := s.fans.floors.get p <;> rfl

/-- Settles O46: the floor written and its result, and its expiry. -/
theorem portFloorSetAndExpired : Obligations.PortFloorSetAndExpired := by
  intro s h duty expiry p until' new result
  refine ⟨fun htake hi => ?_, fun f t hrun hfloor hexpiry hreached => ?_⟩
  · have hfloor : floorOf duty expiry s.time = (new, decide (1000 < duty.toNat)) := floorOf_eq duty expiry s.time
    obtain ⟨hunits, hlate, houter⟩ := s.putFloor_put h.port new
    refine ⟨s.putFloor h.port new, ?_, hunits, hlate, houter⟩
    have hfans : (s.putFloor h.port new).fans = { s.fans with floors := s.fans.floors.put h.port new } := congrArg Outer.fans houter
    have hresult : (s.putFloor h.port new).floorResult h.port = result s.fans.c s.fans.draw := by
      have hget : (s.putFloor h.port new).fans.floors.get h.port = new := by
        rw [hfans]
        exact (PerPort.get_put ..).trans (if_pos rfl)
      rw [State.floorResult_eq, hget, hfans]
      show floorBytes (if duty = 0 then none else _) ++ _ ++ _ = (if duty = 0 then _ else _ : List Byte) ++ _ ++ _
      by_cases hduty : duty = 0
      · rw [if_pos hduty, if_pos hduty]; rfl
      · rw [if_neg hduty, if_neg hduty]; rfl
    rw [exec_setFloor_taken htake hi, hfloor, hresult]
  · obtain ⟨hunits, hlate, houter⟩ := s.putFloor_put p none
    refine ⟨s.putFloor p none, ?_, hunits, hlate, houter⟩
    rw [exec_floorExpiry, if_pos]
    refine ⟨(State.running_iff s).2 hrun, Time.due_iff.2 ⟨t, ?_, hreached⟩⟩
    rw [hfloor]; exact hexpiry

end Sys2Proof.Machine
end

