-- ==== Sys2Proof/Proofs/PlainCommands.lean ====
section
/-! SUPPORT. The bytes of a slip's end (R154), and the commands that store one setting or none: SET_PROFILE, SET_PATTERN, SET_WINDOWS, NOTE
and SET_ATTENTION (R51, R141, R163, R174, R182). -/

namespace Sys2Proof.Machine

/-! ### The bytes of a slip's end (R154) -/

theorem length_resultBytes (l : List Byte) : (resultBytes l).length = 16 := by
  simp only [resultBytes, List.length_take, List.length_append, List.length_replicate]; omega

/-- Result data are the bytes given, then 0x00. -/
theorem getD_resultBytes (l : List Byte) {k : Nat} (hk : k < 16) : (resultBytes l).getD k 0 = l.getD k 0 := by
  simp only [resultBytes, List.getD_eq_getElem?_getD, List.getElem?_take, hk, if_true]
  by_cases h : k < l.length
  · rw [List.getElem?_append_left h]
  · rw [List.getElem?_append_right (by omega), List.getElem?_eq_none (by omega : l.length ≤ k)]
    rcases hr : (List.replicate 16 (0 : Byte))[k - l.length]? with _ | v
    · rfl
    · exact (List.mem_replicate.1 (List.mem_of_getElem? hr)).2

/-- Byte k of a part time. -/
theorem getD_le32 (t : Time) {k : Nat} (hk : k < 4) : (le32 t).getD k 0 = t.extractLsb' (8 * k) 8 := by
  interval_cases k <;> rfl

/-- A byte after a slip's end: ENDED, the end fields, the result data, or the old byte. -/
theorem read_writeEnd (addr : Nat) (o : SlipOutcome) (f : Byte) (r : Option (List Byte)) (now : Time) (m : Memory) (a : Nat) :
    Memory.read (writeEnd addr o f r now m) a =
      if a = addr then 3
      else if addr + 20 ≤ a ∧ a < addr + 28 then ([o.code, f, 0, 0] ++ le32 now).getD (a - (addr + 20)) 0
      else match r with
        | none => Memory.read m a
        | some l => if addr + 4 ≤ a ∧ a < addr + 20 then l.getD (a - (addr + 4)) 0 else Memory.read m a := by
  have hlen : ([o.code, f, 0, 0] ++ le32 now).length = 8 := rfl
  unfold writeEnd
  rw [Memory.read_write, Memory.read_writeRun, hlen]
  congr 2
  cases r with
  | none => rfl
  | some l =>
    simp only [Memory.read_writeRun, length_resultBytes]
    by_cases h : addr + 4 ≤ a ∧ a < addr + 20
    · rw [if_pos h, if_pos h, getD_resultBytes _ (by omega)]
    · rw [if_neg h, if_neg h]

theorem resultFlags_eq (clamped marked : Bool) :
    resultFlags clamped marked = (if clamped then 1 else 0) + (if marked then 2 else 0) := by
  cases clamped <;> cases marked <;> rfl

/-- Settles O49: each byte read back through the writes of the end. -/
theorem slipEndFieldsWritten : Obligations.SlipEndFieldsWritten := by
  intro m addr o clamped marked result now r
  have field : ∀ k, k < 8 → Memory.read r (addr + 20 + k) =
      ([o.code, resultFlags clamped marked, 0, 0] ++ le32 now).getD k 0 := by
    intro k hk
    rw [read_writeEnd, if_neg (by omega), if_pos (by omega), Nat.add_sub_cancel_left]
  have kept : ∀ a, (a < addr ∨ addr + 28 ≤ a ∨ (addr < a ∧ a < addr + 4)) → Memory.read r a = Memory.read m a := by
    intro a h
    rw [read_writeEnd, if_neg (by omega), if_neg (by omega)]
    cases result with
    | none => rfl
    | some l => exact if_neg (by omega)
  refine ⟨?_, field 0 (by omega), ?_, field 2 (by omega), field 3 (by omega), fun k hk => ?_, fun l hl k hk => ?_,
    fun hnone k h4 hk => ?_, fun k h1 hk => kept _ (by omega), fun a ha => kept a (by omega), wf_writeEnd _ _ _ _ _ _⟩
  · rw [read_writeEnd, if_pos rfl]
  · rw [← resultFlags_eq]; exact field 1 (by omega)
  · have h := field (4 + k) (by omega)
    rw [List.getD_append_right _ _ _ _ (by simp)] at h
    rw [show addr + 24 + k = addr + 20 + (4 + k) by omega, h, ← getD_le32 now hk]
    congr 1; simp
  · subst hl
    rw [read_writeEnd, if_neg (by omega), if_neg (by omega)]
    simp only
    rw [if_pos (by omega), Nat.add_sub_cancel_left]
  · subst hnone
    rw [read_writeEnd, if_neg (by omega), if_neg (by omega)]

/-! ### SET_ATTENTION (R174) -/

/-- A flag of a setting after a command gives it, clamped to 1, or leaves it. -/
theorem givenByte_flag (now : Bool) (x : Option Byte) :
    decide ((givenByte 0 1 (if now then 1 else 0) x).1 = 1) = (match x with | none => now | some v => decide (v ≠ 0)) := by
  rw [givenByte_upto]
  cases x with
  | none => cases now <;> rfl
  | some v =>
    simp only [min_one_toNat]
    by_cases hv : v = 0 <;> simp [hv]

theorem SourceConfig.apply_eq (a : SetAttentionArgs) (c : SourceConfig) :
    let flag (now : Bool) : Option Byte → Bool := fun | none => now | some v => decide (v ≠ 0)
    let beyond (hi : Nat) : Option Byte → Bool := fun | none => false | some v => decide (hi < v.toNat)
    SourceConfig.apply a c =
      ({ enable := flag c.enable a.enable
         level := match a.level with | none => c.level | some v => max 1 (min 7 v.toNat)
         auto := flag c.auto a.auto
         vector := match a.vector with | none => c.vector | some v => if v = 0xFF then 0xFE else v },
       beyond 1 a.enable || beyond 7 a.level || decide (a.level = some 0) || beyond 1 a.auto || beyond 0xFE a.vector) := by
  intro flag beyond
  have level : (givenByte 1 7 c.level a.level).1 = (match a.level with | none => c.level | some v => max 1 (min 7 v.toNat)) := by
    cases a.level <;> rfl
  have moved : (givenByte 1 7 c.level a.level).2 = (beyond 7 a.level || decide (a.level = some 0)) := by
    rcases a.level with _ | v
    · rfl
    · have hv : v = 0 ↔ v.toNat = 0 := ⟨fun h => by rw [h]; rfl, fun h => BitVec.eq_of_toNat_eq h⟩
      simp only [givenByte_some, beyond, Option.some.injEq, hv, ← Bool.decide_or, decide_eq_decide]; omega
  have vector : BitVec.ofNat 8 (givenByte 0 0xFE c.vector.toNat a.vector).1 =
      (match a.vector with | none => c.vector | some v => if v = 0xFF then 0xFE else v) := by
    rcases a.vector with _ | v
    · show BitVec.ofNat 8 c.vector.toNat = c.vector
      rw [BitVec.ofNat_toNat, BitVec.setWidth_eq]
    · simp only [givenByte_some]
      split
      · rename_i hv; subst hv; rfl
      · rename_i hv
        have hne : v.toNat ≠ 255 := fun e => hv (BitVec.eq_of_toNat_eq e)
        have hlt := v.isLt
        rw [show max 0 (min 254 v.toNat) = v.toNat by omega, BitVec.ofNat_toNat, BitVec.setWidth_eq]
  have upto : ∀ hi now (x : Option Byte), (givenByte 0 hi now x).2 = beyond hi x := fun hi now x => by rw [givenByte_upto] <;> rfl
  simp only [SourceConfig.apply, givenByte_flag, level, moved, vector, upto, Bool.or_assoc, flag]

/-- A publication of a port's attention record moves the generation of its unit alone. -/
theorem State.republishAttention_unit (s : State) (p : Port) :
    ((s.republishAttention p).attention.get p).inService = (s.attention.get p).inService ∧
      ((s.republishAttention p).attention.get p).pending = (s.attention.get p).pending ∧
      (s.republishAttention p).attention.get (Port.other p) = s.attention.get (Port.other p) := by
  unfold State.republishAttention
  split
  · exact ⟨rfl, rfl, rfl⟩
  · cases p <;> exact ⟨rfl, rfl, rfl⟩

theorem State.pubAttention_unit (s : State) (p : Port) :
    ((s.pubAttention p).attention.get p).inService = (s.attention.get p).inService ∧
      ((s.pubAttention p).attention.get p).pending = (s.attention.get p).pending ∧
      (s.pubAttention p).attention.get (Port.other p) = s.attention.get (Port.other p) := by
  unfold State.pubAttention
  split
  · exact ⟨rfl, rfl, rfl⟩
  · exact s.republishAttention_unit p

theorem State.pubAttention_markTaken (s : State) (p : Port) (a : Half) : (s.markTaken a).pubAttention p = (s.pubAttention p).markTaken a := by
  unfold State.pubAttention State.republishAttention
  simp only [apply_ite (State.markTaken a)]
  rfl

theorem State.setSource_markTaken (s : State) (p : Port) (i : Fin 8) (x : SetAttentionArgs) (a : Half) :
    (s.markTaken a).setSource p i x = ((s.setSource p i x).1.markTaken a, (s.setSource p i x).2) := by
  refine Prod.ext ?_ rfl
  let new := (SourceConfig.apply x (s.settings.attention.get p)[i]).1
  let configs := s.settings.attention.put p ((s.settings.attention.get p).set i new)
  let units := s.attention.put p ((s.attention.get p).afterEnable i new.enable)
  exact State.pubAttention_markTaken { s with settings := { s.settings with attention := configs }, attention := units } p a

/-- What SET_ATTENTION leaves of the posting port's unit: the flag cleared where the enable is off. -/
theorem AttentionUnit.afterEnable_fields (i : Fin 8) (enable : Bool) (u : AttentionUnit) :
    (u.afterEnable i enable).inService = u.inService ∧
      (u.afterEnable i enable).pending = u.pending.set i (enable && u.pending[i]) := by
  unfold AttentionUnit.afterEnable
  cases enable with
  | false => exact ⟨rfl, rfl⟩
  | true => exact ⟨rfl, by simp⟩

/-- What SET_ATTENTION makes of the part (R174). -/
theorem State.setSource_fields (s : State) (p : Port) (i : Fin 8) (a : SetAttentionArgs) {new : SourceConfig} {clamped : Bool}
    (happly : SourceConfig.apply a (s.settings.attention.get p)[i] = (new, clamped)) :
    let v := (s.setSource p i a).1
    v = { s with settings := v.settings, attention := v.attention, status := v.status } ∧
      v.settings = { s.settings with attention := s.settings.attention.put p ((s.settings.attention.get p).set i new) } ∧
      v.attention.get (Port.other p) = s.attention.get (Port.other p) ∧
      (v.attention.get p).inService = (s.attention.get p).inService ∧
      (v.attention.get p).pending = (s.attention.get p).pending.set i (new.enable && (s.attention.get p).pending[i]) ∧
      (s.setSource p i a).2 = clamped := by
  intro v
  let t : State := { s with
    settings := { s.settings with attention := s.settings.attention.put p ((s.settings.attention.get p).set i new) }
    attention := s.attention.put p ((s.attention.get p).afterEnable i new.enable) }
  obtain ⟨hin, hpend, hother⟩ := t.pubAttention_unit p
  obtain ⟨hin', hpend'⟩ := (s.attention.get p).afterEnable_fields i new.enable
  have hunit : t.attention.get p = (s.attention.get p).afterEnable i new.enable := PerPort.get_put_same ..
  have hv : v = t.pubAttention p := by simp only [v, State.setSource, happly]; rfl
  have heq := t.pubAttention_eq p
  rw [hunit] at hin hpend
  rw [hv]
  refine ⟨?_, ?_, hother.trans (PerPort.get_put_other ..), hin.trans hin', hpend.trans hpend', congrArg Prod.snd happly⟩
  · rw [heq]
  · rw [heq]

/-- Settles O57: the command's values, then the state it leaves. -/
theorem setAttentionWritesSource : Obligations.SetAttentionWritesSource := by
  intro s h a i ht hi config unit flag new beyond clamped pending
  have happly : SourceConfig.apply a config[i] = (new, clamped) := SourceConfig.apply_eq a config[i]
  obtain ⟨hv, hset, hother, hin, hpend, hclamped⟩ := s.setSource_fields h.port i a happly
  refine ⟨(s.setSource h.port i a).1, ?_, hv, hset, hother, hin, hpend⟩
  have hsource : ((s.setSource h.port i a).1.settings.attention.get h.port)[i] = new := by
    rw [hset, PerPort.get_put_same, set_self]
  have hflag : ((s.setSource h.port i a).1.attention.get h.port).pending[i] = pending := by rw [hpend, set_self]
  rw [exec_slip_taken _ h s rfl ht]
  show Host.Outcome.next ((State.setAttentionSlip h a (s.markTaken h.addr)).finishSlip h.port) = _
  unfold State.setAttentionSlip
  rw [targetBelow_some hi]
  dsimp only
  rw [State.setSource_markTaken, State.endTaken_markTaken]
  simp only [State.markTaken_settings, State.markTaken_attention, hsource, hflag, hclamped]
  rfl

/-! ### SET_PROFILE, SET_PATTERN, SET_WINDOWS and NOTE (R51, R141, R163, R182) -/

theorem Profile.apply_eq (a : SetProfileArgs) (old : Profile) :
    let given (now : Nat) : Option Half → Nat := fun | none => now | some v => v.toNat
    let within (lo hi now : Nat) : Option Half → Nat := fun | none => now | some v => max lo (min hi v.toNat)
    let beyond (lo hi : Nat) : Option Half → Bool := fun | none => false | some v => decide (v.toNat < lo ∨ hi < v.toNat)
    Profile.apply a old =
      ({ peak12 := given old.peak12 a.peak12
         steady12 := min (given old.steady12 a.steady12) (given old.peak12 a.peak12)
         i5 := given old.i5 a.i5
         spin := within 1000 30000 old.spin a.spin
         park := within 500 10000 old.park a.park },
       beyond 1000 30000 a.spin || beyond 500 10000 a.park || decide (given old.peak12 a.peak12 < given old.steady12 a.steady12)) := by
  intro given within beyond
  have clamp : ∀ (lo hi now : Nat) (x : Option Half), givenHalf lo hi now x = (within lo hi now x, beyond lo hi x) := by
    intro lo hi now x; cases x <;> rfl
  have whole : ∀ (now : Nat) (x : Option Half), givenHalf 0 65535 now x = (given now x, false) := givenHalf_whole
  simp only [Profile.apply, whole, clamp]

theorem exec_setProfile_taken {s : State} {h : SlipHead} (ht : s.takeable h = true) {i : Fin 8} (hi : h.target.toNat = i.val)
    (a : SetProfileArgs) {new : Profile} {clamped : Bool} (happly : Profile.apply a s.settings.profiles[i] = (new, clamped)) :
    exec (.setProfile h a) s =
      .next ((State.answered h .ok clamped false (some ([0, 0] ++ new.bytes))
        { s with
          settings := { s.settings with profiles := s.settings.profiles.set i new }
          reports := { s.reports with pass := true } }).finishSlip h.port) := by
  have hset : (s.markTaken h.addr).setProfile i a =
      (State.markTaken h.addr { s with
        settings := { s.settings with profiles := s.settings.profiles.set i new }, reports := { s.reports with pass := true } }, clamped) := by
    simp only [State.setProfile, State.markTaken_settings, happly]; rfl
  rw [exec_slip_taken _ h s rfl ht]
  show Host.Outcome.next ((State.setProfileSlip h a (s.markTaken h.addr)).finishSlip h.port) = _
  unfold State.setProfileSlip
  rw [targetBelow_some hi]
  dsimp only
  rw [hset, State.endTaken_markTaken]
  simp only [State.markTaken_settings, set_self]

theorem State.pubEnclosure_markTaken (s : State) (a : Half) : (s.markTaken a).pubEnclosure = s.pubEnclosure.markTaken a := by
  unfold State.pubEnclosure
  rw [apply_ite (State.markTaken a)]; rfl

/-- A publication of the enclosure light record moves that record's generation alone. -/
theorem State.pubEnclosure_lightsOnly (s : State) : LightsOnly s s.pubEnclosure ∧ s.pubEnclosure.outer = s.outer ∧
    s.pubEnclosure.lights.bays = s.lights.bays ∧ ∀ place c, s.pubEnclosure.channel place c = s.channel place c := by
  unfold State.pubEnclosure
  dsimp only
  split
  · exact ⟨⟨rfl, rfl, rfl, rfl, rfl, rfl, rfl, rfl, rfl, rfl⟩, rfl, rfl, fun _ _ => rfl⟩
  · exact ⟨⟨rfl, rfl, rfl, rfl, rfl, rfl, rfl, rfl, rfl, rfl⟩, rfl, rfl, fun place c => by cases place <;> cases c <;> rfl⟩

/-- A pattern stored, its record republished where it changed. -/
def State.withPattern (s : State) (i : Fin 8) (new : Pattern) : State :=
  ({ s with settings := { s.settings with patterns := s.settings.patterns.set i new } }).pubEnclosure

theorem State.withPattern_settings (s : State) (i : Fin 8) (new : Pattern) : (s.withPattern i new).settings.patterns[i] = new := by
  have h : (s.withPattern i new).outer = _ := (State.pubEnclosure_lightsOnly _).2.1
  rw [show (s.withPattern i new).settings = _ from congrArg Outer.settings h]
  exact set_self ..

theorem exec_setPattern_taken {s : State} {h : SlipHead} (ht : s.takeable h = true) {i : Fin 8} (h2 : 2 ≤ i.val)
    (hi : h.target.toNat = i.val) (a : SetPatternArgs) :
    let new := Pattern.apply a s.settings.patterns[i]
    exec (.setPattern h a) s =
      .next ((State.answered h .ok false false (some [0, new.on, new.off]) (s.withPattern i new)).finishSlip h.port) := by
  intro new
  have hset : (s.markTaken h.addr).setPattern i a = (s.withPattern i new).markTaken h.addr :=
    State.pubEnclosure_markTaken { s with settings := { s.settings with patterns := s.settings.patterns.set i new } } h.addr
  rw [exec_slip_taken _ h s rfl ht]
  show Host.Outcome.next ((State.setPatternSlip h a (s.markTaken h.addr)).finishSlip h.port) = _
  unfold State.setPatternSlip
  rw [targetBelow_some hi]
  dsimp only
  rw [if_neg (by omega), hset, State.endTaken_markTaken]
  simp only [State.markTaken_settings, State.withPattern_settings]

theorem windowSize_eq (code : Byte) : windowSize code = if code.toNat ≤ 3 then some (2048 * 2 ^ code.toNat) else none := by
  unfold windowSize
  match code.toNat with
  | 0 | 1 | 2 | 3 => rfl
  | n + 4 => exact (if_neg (by omega)).symm

/-- What a setting must be for SET_WINDOWS to accept it beside the other port's (R182). -/
theorem windowAccepted_iff (w other : WindowSetting) :
    let size (x : WindowSetting) : Nat := 2048 * 2 ^ x.code.toNat
    windowAccepted w other = true ↔
      w.code.toNat ≤ 3 ∧ w.base.toNat % size w = 0 ∧ 0x2000 ≤ w.base.toNat ∧ w.base.toNat + size w ≤ 0x8000 ∧
        (other.code.toNat ≤ 3 → ¬ (w.base.toNat < other.base.toNat + size other ∧ other.base.toNat < w.base.toNat + size w)) := by
  intro size
  unfold windowAccepted windowOf windowSpan
  rw [windowSize_eq w.code, windowSize_eq other.code]
  by_cases hc : w.code.toNat ≤ 3
  · rw [if_pos hc]
    dsimp only
    by_cases hw : w.base.toNat % size w = 0 ∧ 0x2000 ≤ w.base.toNat ∧ w.base.toNat + size w ≤ 0x8000
    · obtain ⟨halign, hlow, hhigh⟩ := hw
      rw [if_pos ⟨halign, hlow, hhigh⟩]
      by_cases ho : other.code.toNat ≤ 3
      · rw [if_pos ho]
        simp only [Window.overlaps, Bool.not_eq_true', Bool.and_eq_false_iff, decide_eq_false_iff_not, hc, halign, hlow, hhigh, ho, true_and,
          forall_const, not_and_or]
        rfl
      · rw [if_neg ho]
        exact ⟨fun _ => ⟨hc, halign, hlow, hhigh, fun h => absurd h ho⟩, fun _ => rfl⟩
    · rw [if_neg hw]
      exact ⟨nofun, fun ⟨_, halign, hlow, hhigh, _⟩ => absurd ⟨halign, hlow, hhigh⟩ hw⟩
  · rw [if_neg hc]
    exact ⟨nofun, fun h => absurd h.1 hc⟩

theorem exec_setWindows_taken {s : State} {h : SlipHead} (ht : s.takeable h = true) (w : WindowSetting) (p : Port)
    (hp : h.target = (match p with | .a => 0 | .b => 1)) :
    exec (.setWindows h w) s = .next (State.finishSlip h.port
      (if windowAccepted w (s.settings.windows.get (Port.other p)) then
        State.answered h .ok false false (some (s.putWindowSetting p w).windowsResult) (s.putWindowSetting p w)
      else s.answered h .badValue false false none)) := by
  rw [exec_slip_taken _ h s rfl ht]
  show Host.Outcome.next ((State.setWindowsSlip h w (s.markTaken h.addr)).finishSlip h.port) = _
  simp only [← State.endTaken_markTaken]
  cases p with
  | a => unfold State.setWindowsSlip; dsimp only; rw [if_pos hp]; rfl
  | b => unfold State.setWindowsSlip; dsimp only; rw [if_neg (by rw [hp]; decide), if_pos hp]; rfl

theorem exec_note_taken {s : State} {h : SlipHead} (ht : s.takeable h = true) (hi : h.target = 0xFE) :
    exec (.note h) s = .next ((s.answered h .ok false false
      (some (le32 s.time ++ [BitVec.ofNat 8 (s.reader h.port).table.length]))).finishSlip h.port) := by
  rw [exec_slip_taken _ h s rfl ht]
  show Host.Outcome.next ((State.noteSlip h (s.markTaken h.addr)).finishSlip h.port) = _
  unfold State.noteSlip
  rw [if_pos (show h.target = enclosureTarget from hi), State.endTaken_markTaken]
  rfl

/-- Settles O60: each command's own state, and the slip's end. -/
theorem plainCommandsStore : Obligations.PlainCommandsStore := by
  intro s h ht
  refine ⟨fun a i hi => ?_, fun a i h2 hi => ?_, fun w p hp => ?_, exec_note_taken ht⟩
  · intro old given within beyond new clamped
    rw [exec_setProfile_taken ht hi a (new := new) (clamped := clamped) (Profile.apply_eq a old)]
    simp only [Profile.bytes, List.append_assoc]
  · intro new
    let t : State := { s with settings := { s.settings with patterns := s.settings.patterns.set i new } }
    obtain ⟨⟨b, l, f, ac, sc, rd, rm, at', rp, lt⟩, outer, lights, channels⟩ := t.pubEnclosure_lightsOnly
    exact ⟨s.withPattern i new, exec_setPattern_taken ht h2 hi a, ⟨b, l, f, ac, sc, rd, rm, at', rp, lt⟩, outer, lights,
      fun c => channels .enclosure c⟩
  · intro size other good
    have hacc : windowAccepted w other = true ↔ good := windowAccepted_iff w other
    have hexec := exec_setWindows_taken ht w p hp
    refine ⟨fun hbad => ?_, fun hgood => ?_⟩
    · rw [hexec, if_neg (mt hacc.1 hbad)]
    · intro live
      rw [hexec, if_pos (hacc.2 hgood)]
      simp only [State.windowsResult, windowBytes, List.append_assoc]; rfl

end Sys2Proof.Machine
end

