-- ==== Sys2Proof/Proofs/LightSlots.lean ====
section
/-! SUPPORT. The Light Composer: a port's slot written, an activity enable written, an expiry (R129, R130, R139, R140), and what a chain
refresh shows (R128, R131, R133, R138). -/

namespace Sys2Proof.Machine

variable {s : State}

/-! ### One light written -/

/-- A bay light written and published: that light alone, but for its generation. -/
theorem State.relit_fields (s : State) (n : BayNo) (l : BayLight) :
    let u := (s.putLight n l).pubLight n
    LightsOnly s u ∧ u.outer = s.outer ∧ u.lights.enclosure = s.lights.enclosure ∧
      ∃ g, ∀ m, u.light m = if m = n then { l with gen := g } else s.light m := by
  intro u
  have hu : u = { s.putLight n l with lights := u.lights, status := u.status } := (s.putLight n l).pubLight_eq n
  obtain ⟨g, hg⟩ := (s.putLight n l).pubLight_lights n
  have only : LightsOnly s u := by rw [hu]; exact ⟨rfl, rfl, rfl, rfl, rfl, rfl, rfl, rfl, rfl, rfl⟩
  refine ⟨only, State.pubLight_outer _ n, (congrArg Lights.enclosure hg).trans rfl, g, fun m => ?_⟩
  rw [State.light, hg, State.light_putLight_same]
  refine (State.light_putLight _ n m _).trans ?_
  split
  · rfl
  · rename_i hm; exact (State.light_putLight s n m l).trans (if_neg hm)

theorem BayLight.channel_putChannel (l : BayLight) (c c' : Colour) (x : Channel) :
    (l.putChannel c x).channel c' = if c' = c then x else l.channel c' := by
  cases c <;> cases c' <;> rfl

theorem EnclosureLight.channel_putChannel (l : EnclosureLight) (c c' : Colour) (x : Channel) :
    (l.putChannel c x).channel c' = if c' = c then x else l.channel c' := by
  cases c <;> cases c' <;> rfl

theorem BayLight.channel_regen (l : BayLight) (g : Byte) (c : Colour) : ({ l with gen := g } : BayLight).channel c = l.channel c := by
  cases c <;> rfl

theorem BayLight.putChannel_keeps (l : BayLight) (c : Colour) (x : Channel) :
    (l.putChannel c x).enable = l.enable ∧ (l.putChannel c x).stretch = l.stretch := by
  cases c <;> exact ⟨rfl, rfl⟩

/-- A composed channel written: that channel alone (R131). -/
structure ChannelPut (place : LightPlace) (c : Colour) (x : Channel) (s u : State) : Prop where
  only     : LightsOnly s u
  outer    : u.outer = s.outer
  put      : u.channel place c = x
  others   : ∀ place' c', (place', c') ≠ (place, c) → u.channel place' c' = s.channel place' c'
  activity : ∀ n, (u.light n).enable = (s.light n).enable ∧ (u.light n).stretch = (s.light n).stretch

theorem State.putChannel_bay (s : State) (n : BayNo) (c : Colour) (x : Channel) : ChannelPut (.bay n) c x s (s.putChannel (.bay n) c x) := by
  rw [show s.putChannel (.bay n) c x = (s.putLight n ((s.light n).putChannel c x)).pubLight n from rfl]
  obtain ⟨only, outer, enclosure, g, lights⟩ := s.relit_fields n ((s.light n).putChannel c x)
  have hn := (lights n).trans (if_pos rfl)
  refine ⟨only, outer, ?_, fun place' c' hne => ?_, fun m => ?_⟩
  · show (State.light _ n).channel c = x
    rw [hn, BayLight.channel_regen, BayLight.channel_putChannel, if_pos rfl]
  · cases place' with
    | enclosure => show EnclosureLight.channel _ c' = _; rw [enclosure]; rfl
    | bay m =>
      show (State.light _ m).channel c' = _
      by_cases hm : m = n
      · subst hm
        rw [hn, BayLight.channel_regen, BayLight.channel_putChannel, if_neg (fun e => hne (by rw [e]))]; rfl
      · rw [lights m, if_neg hm]; rfl
  · rw [lights m]
    split
    · rename_i hm; subst hm; exact (s.light m).putChannel_keeps c x
    · exact ⟨rfl, rfl⟩

theorem State.putChannel_enclosure (s : State) (c : Colour) (x : Channel) :
    ChannelPut .enclosure c x s (s.putChannel .enclosure c x) := by
  let t : State := { s with lights := { s.lights with enclosure := s.lights.enclosure.putChannel c x } }
  obtain ⟨⟨b, l, f, ac, sc, rd, rm, at', rp, lt⟩, outer, lights, channels⟩ := t.pubEnclosure_lightsOnly
  refine ⟨⟨b, l, f, ac, sc, rd, rm, at', rp, lt⟩, outer, ?_, fun place' c' hne => ?_, fun n => ?_⟩
  · exact (channels .enclosure c).trans ((EnclosureLight.channel_putChannel ..).trans (if_pos rfl))
  · refine (channels place' c').trans ?_
    cases place' with
    | enclosure => exact (EnclosureLight.channel_putChannel ..).trans (if_neg fun e => hne (by rw [e]))
    | bay m => rfl
  · have h : (State.putChannel .enclosure c x s).light n = s.light n := congrArg (·[n]) lights
    rw [h]; exact ⟨rfl, rfl⟩

theorem State.putChannel_put (s : State) (place : LightPlace) (c : Colour) (x : Channel) :
    ChannelPut place c x s (s.putChannel place c x) := by
  cases place with
  | bay n => exact s.putChannel_bay n c x
  | enclosure => exact s.putChannel_enclosure c x

/-- A bay's activity enable written (R138, R139). -/
theorem State.putEnable_fields (s : State) (n : BayNo) (on : Bool) :
    let v := s.putEnable n on
    LightsOnly s v ∧ v.outer = s.outer ∧ (∀ place' c', v.channel place' c' = s.channel place' c') ∧
      (v.light n).enable = on ∧ (v.light n).stretch = (if on then (s.light n).stretch else none) ∧ ∀ m, m ≠ n → v.light m = s.light m := by
  intro v
  rw [show v = (s.putLight n { s.light n with enable := on, stretch := if on then (s.light n).stretch else none }).pubLight n from rfl]
  obtain ⟨only, outer, enclosure, g, lights⟩ :=
    s.relit_fields n { s.light n with enable := on, stretch := if on then (s.light n).stretch else none }
  have hn := (lights n).trans (if_pos rfl)
  refine ⟨only, outer, fun place' c' => ?_, congrArg BayLight.enable hn, congrArg BayLight.stretch hn,
    fun m hm => (lights m).trans (if_neg hm)⟩
  cases place' with
  | enclosure => show EnclosureLight.channel _ c' = _; rw [enclosure]; rfl
  | bay m =>
    show (State.light _ m).channel c' = _
    rw [lights m]
    split
    · rename_i hm; subst hm; cases c' <;> rfl
    · rfl

/-! ### SET_LIGHT (R140) -/

theorem State.pubLight_markTaken (s : State) (n : BayNo) (a : Half) : (s.markTaken a).pubLight n = (s.pubLight n).markTaken a := by
  unfold State.pubLight
  rw [apply_ite (State.markTaken a)]; rfl

theorem State.putEnable_markTaken (s : State) (n : BayNo) (on : Bool) (a : Half) :
    (s.markTaken a).putEnable n on = (s.putEnable n on).markTaken a :=
  State.pubLight_markTaken (s.putLight n { s.light n with enable := on, stretch := if on then (s.light n).stretch else none }) n a

theorem State.putSlot_markTaken (s : State) (p : Port) (place : LightPlace) (c : Colour) (r : Option Request) (a : Half) :
    (s.markTaken a).putSlot p place c r = (s.putSlot p place c r).markTaken a := by
  let x := (s.channel place c).putPort p r
  cases place with
  | bay n => exact State.pubLight_markTaken (s.putLight n ((s.light n).putChannel c x)) n a
  | enclosure => exact State.pubEnclosure_markTaken { s with lights := { s.lights with enclosure := s.lights.enclosure.putChannel c x } } a

theorem State.lightTarget_place {target : Byte} {place : LightPlace}
    (hp : match place with | .enclosure => target = 0xFE | .bay n => s.bayTarget target = some n) : s.lightTarget target = some place := by
  unfold State.lightTarget
  cases place with
  | enclosure => exact if_pos hp
  | bay n =>
    have hne : target ≠ enclosureTarget := by
      rintro rfl
      have hnone : s.bayTarget enclosureTarget = none := by
        unfold State.bayTarget; exact dif_neg (by decide)
      rw [hnone] at hp; cases hp
    rw [if_neg hne, hp]; rfl

theorem exec_setLight_taken {h : SlipHead} (ht : s.takeable h = true) (a : SetLightArgs) :
    exec (.setLight h a) s = .next ((State.setLight h a (s.markTaken h.addr)).finishSlip h.port) :=
  exec_slip_taken _ h s rfl ht

theorem State.setLight_composed {h : SlipHead} {place : LightPlace} (hp : s.lightTarget h.target = some place) {a : SetLightArgs} {c : Colour}
    (hc : a.channel.toNat = (match c with | .amber => 0 | .blue => 1)) : s.setLight h a = s.setComposed h place c a := by
  unfold State.setLight
  rw [hp, hc]
  cases c <;> rfl

theorem State.setLight_green {h : SlipHead} {n : BayNo} (hp : s.lightTarget h.target = some (.bay n)) {a : SetLightArgs} (hc : a.channel = 2) :
    s.setLight h a = s.setGreen h n a := by
  unfold State.setLight
  rw [hp, hc]
  rfl

theorem State.setLight_bad {h : SlipHead} {place : LightPlace} (hp : s.lightTarget h.target = some place) {a : SetLightArgs}
    (hbad : 2 < a.channel.toNat ∨ (place = .enclosure ∧ a.channel = 2)) : s.setLight h a = s.refuse h .badValue := by
  unfold State.setLight
  rw [hp]
  obtain h2 | ⟨rfl, hc⟩ := hbad
  · generalize a.channel.toNat = k at h2 ⊢
    match k with
    | 0 | 1 | 2 => omega
    | k + 3 => rfl
  · rw [hc]; rfl

/-- The request that a SET_LIGHT gives its port's slot (R140). -/
def lightRequest (a : SetLightArgs) (now : Time) : Option Request :=
  if a.priority = 0 then none
  else some
    { pattern := Fin.ofNat 8 (min 7 a.pattern.toNat), priority := min 7 a.priority.toNat
      expiry := if a.duration = 0 then none else some (Time.plus now (a.duration.toNat * 1000)) }

/-- The activity enable that a channel's result data shows (Table 11-7). -/
def State.enableShown (s : State) : LightPlace → Bool
  | .bay n => (s.light n).enable
  | .enclosure => false

theorem clampNat_upto (hi v : Nat) : clampNat 0 hi v = (min hi v, decide (hi < v)) := by simp [clampNat]

/-- SET_LIGHT on a composed channel (R140). -/
theorem State.setComposed_taken (h : SlipHead) (place : LightPlace) (c : Colour) (a : SetLightArgs) :
    let v := s.putSlot h.port place c (lightRequest a s.time)
    (s.markTaken h.addr).setComposed h place c a =
      State.answered h .ok (decide (a.priority ≠ 0) && (decide (7 < a.pattern.toNat) || decide (7 < a.priority.toNat))) false
        (some ((v.channel place c).result (s.enableShown place))) v := by
  intro v
  have henable : v.enableShown place = s.enableShown place := by
    cases place with
    | enclosure => rfl
    | bay n => exact (((s.putChannel_put (.bay n) c _).activity n).1)
  rw [← henable, ← State.endTaken_markTaken]
  let w := (s.markTaken h.addr).putSlot h.port place c (lightRequest a s.time)
  have hw : w = v.markTaken h.addr := s.putSlot_markTaken h.port place c (lightRequest a s.time) h.addr
  unfold State.setComposed
  simp only [clampNat_upto]
  show w.endTaken h .ok _ false (some ((w.channel place c).result (w.enableShown place))) = _
  rw [hw]
  rfl

/-- SET_LIGHT on a bay's GREEN channel (R139, R140). -/
theorem State.setGreen_taken (h : SlipHead) (n : BayNo) (a : SetLightArgs) :
    let on := decide (a.enable ≠ 0)
    (s.markTaken h.addr).setGreen h n a = State.answered h .ok (decide (1 < a.enable.toNat)) false
      (some (List.replicate 15 0 ++ [if on then 0x83 else 0x03])) (s.putEnable n on) := by
  intro on
  have hon : decide (min 1 a.enable.toNat = 1) = on := by
    rw [min_one_toNat]; by_cases h0 : a.enable = 0 <;> simp [on, h0]
  rw [← State.endTaken_markTaken, ← State.putEnable_markTaken]
  unfold State.setGreen
  simp only [clampNat_upto, hon]
  clear_value on
  congr 4
  cases on with
  | false => rw [if_neg (of_decide_eq_false hon)]; rfl
  | true => rw [if_pos (of_decide_eq_true hon)]; rfl

/-- Settles O48: each channel's own write, and the expiry. -/
theorem lightSlotWritten : Obligations.LightSlotWritten := by
  intro s place c others
  have put : ∀ (p : Port) (q : Option Request), others p q (s.putSlot p place c q) := by
    intro p q
    obtain ⟨only, outer, put, rest, activity⟩ := s.putChannel_put place c ((s.channel place c).putPort p q)
    exact ⟨only, outer, put, rest, activity⟩
  refine ⟨fun h a ht hp => ?_, fun p r t hrun hr he hreached => ?_⟩
  · have hplace : (s.markTaken h.addr).lightTarget h.target = some place := State.lightTarget_place hp
    rw [exec_setLight_taken ht a]
    refine ⟨fun hc => ?_, fun n hn hc => ?_, fun hbad => ?_⟩
    · intro q clamped enable
      have henable : s.enableShown place = enable := by cases place <;> rfl
      refine ⟨s.putSlot h.port place c q, put h.port q, ?_⟩
      rw [State.setLight_composed hplace hc, State.setComposed_taken, henable]
      rfl
    · intro on
      subst hn
      obtain ⟨only, outer, channels, enable, stretch, rest⟩ := s.putEnable_fields n on
      refine ⟨s.putEnable n on, only, outer, channels, enable, stretch, rest, ?_⟩
      rw [State.setLight_green hplace hc, State.setGreen_taken]
    · rw [State.setLight_bad hplace hbad, State.refuse, State.endTaken_markTaken]
  · refine ⟨s.putSlot p place c none, ?_, put p none⟩
    show Host.Outcome.next _ = _
    rw [if_pos ⟨(State.running_iff s).2 hrun, by rw [hr]; exact Time.due_iff.2 ⟨t, he, hreached⟩⟩]

/-! ### The winner of a channel (R131) and its lit state (R133) -/

/-- The three slots of a channel by number (R129). -/
def Channel.slot (c : Channel) : Fin 3 → Option Request
  | 0 => c.system
  | 1 => c.ports.a
  | 2 => c.ports.b

/-- The slot's request beats every other: a greater priority, or an equal one in a slot not higher. -/
def Channel.Wins (c : Channel) (i : Fin 3) (r : Request) : Prop :=
  c.slot i = some r ∧ ∀ j q, c.slot j = some q → q.priority < r.priority ∨ (q.priority = r.priority ∧ j ≤ i)

theorem shows_iff_wins (c : Channel) (r : Request) : Shows c r ↔ ∃ i, c.Wins i r := Iff.rfl

/-- Two slots do not both win. -/
theorem Channel.Wins.unique {c : Channel} {i j : Fin 3} {r q : Request} (hi : c.Wins i r) (hj : c.Wins j q) : i = j := by
  obtain ⟨hri, hwi⟩ := hi
  obtain ⟨hqj, hwj⟩ := hj
  have h1 := hwi j q hqj
  have h2 := hwj i r hri
  omega

theorem Channel.slotPriority_of {x : Option Request} {q : Request} (h : x = some q) : slotPriority x = q.priority := by rw [h]; rfl

theorem Channel.beaten_of_le {q r : Request} {i j : Fin 3} (h : q.priority ≤ r.priority) (hij : j ≤ i) :
    q.priority < r.priority ∨ (q.priority = r.priority ∧ j ≤ i) :=
  (Nat.lt_or_eq_of_le h).imp_right fun e => ⟨e, hij⟩

theorem Channel.forall_slots {c : Channel} {P : Fin 3 → Request → Prop} (hs : ∀ q, c.system = some q → P 0 q)
    (ha : ∀ q, c.ports.a = some q → P 1 q) (hb : ∀ q, c.ports.b = some q → P 2 q) : ∀ j q, c.slot j = some q → P j q
  | 0 => hs
  | 1 => ha
  | 2 => hb

/-- The model's winner wins. -/
theorem Channel.wins_of_winner {c : Channel} {i : Fin 3} (h : c.winner = some i) : ∃ r, c.Wins i r := by
  unfold Channel.winner at h
  split at h
  next hb =>
    obtain ⟨hsome, hab, hsb⟩ := hb
    obtain rfl : 2 = i := Option.some.inj h
    obtain ⟨r, hr⟩ := Option.isSome_iff_exists.1 hsome
    rw [slotPriority_of hr] at hab hsb
    refine ⟨r, hr, forall_slots (fun q hq => ?_) (fun q hq => ?_) fun q hq => ?_⟩
    · exact beaten_of_le (slotPriority_of hq ▸ hsb) (by decide)
    · exact beaten_of_le (slotPriority_of hq ▸ hab) (by decide)
    · obtain rfl := Option.some.inj (hq.symm.trans hr); exact .inr ⟨rfl, Fin.le_refl _⟩
  next hb =>
    have lower : ∀ (x : Nat) (q : Request), c.ports.b = some q → (x = slotPriority c.ports.a ∨ x = slotPriority c.system) →
        slotPriority c.ports.a ≤ x → slotPriority c.system ≤ x → q.priority < x := by
      intro x q hq _ hax hsx
      rw [hq] at hb
      simp only [slotPriority, Option.isSome_some, true_and] at hb
      simp only [slotPriority] at hax hsx
      omega
    split at h
    next ha =>
      obtain ⟨hsome, hsa⟩ := ha
      obtain rfl : 1 = i := Option.some.inj h
      obtain ⟨r, hr⟩ := Option.isSome_iff_exists.1 hsome
      rw [slotPriority_of hr] at hsa
      refine ⟨r, hr, forall_slots (fun q hq => ?_) (fun q hq => ?_) fun q hq => ?_⟩
      · exact beaten_of_le (slotPriority_of hq ▸ hsa) (by decide)
      · obtain rfl := Option.some.inj (hq.symm.trans hr); exact .inr ⟨rfl, Fin.le_refl _⟩
      · exact .inl (lower r.priority q hq (.inl (slotPriority_of hr).symm) (slotPriority_of hr).le hsa)
    next ha =>
      split at h
      next hsome =>
        obtain rfl : 0 = i := Option.some.inj h
        obtain ⟨r, hr⟩ := Option.isSome_iff_exists.1 hsome
        have hlow : ∀ q, c.ports.a = some q → q.priority < r.priority := by
          intro q hq
          rw [slotPriority_of hr, slotPriority_of hq, hq] at ha
          simpa using ha
        refine ⟨r, hr, forall_slots (fun q hq => ?_) (fun q hq => .inl (hlow q hq)) fun q hq => .inl ?_⟩
        · obtain rfl := Option.some.inj (hq.symm.trans hr); exact .inr ⟨rfl, Fin.le_refl _⟩
        · refine lower r.priority q hq (.inr (slotPriority_of hr).symm) ?_ (slotPriority_of hr).le
          rcases hx : c.ports.a with _ | y
          · exact Nat.zero_le _
          · exact (hlow y hx).le
      next => cases h

theorem Channel.slots_of_winner_none {c : Channel} (h : c.winner = none) (i : Fin 3) : c.slot i = none := by
  unfold Channel.winner at h
  split at h
  · cases h
  next hb =>
    split at h
    · cases h
    next ha =>
      split at h
      · cases h
      next hs =>
        have hsys : c.system = none := Option.not_isSome_iff_eq_none.1 hs
        have hpa : c.ports.a = none := by
          refine Option.not_isSome_iff_eq_none.1 fun e => ha ⟨e, ?_⟩
          rw [hsys]; exact Nat.zero_le _
        have hpb : c.ports.b = none := by
          refine Option.not_isSome_iff_eq_none.1 fun e => hb ⟨e, ?_, ?_⟩
          · rw [hpa]; exact Nat.zero_le _
          · rw [hsys]; exact Nat.zero_le _
        exact match i with
          | 0 => hsys
          | 1 => hpa
          | 2 => hpb

theorem Channel.shown_eq (c : Channel) : c.shown = c.winner.bind c.slot := by
  unfold Channel.shown
  match c.winner with
  | none | some 0 | some 1 | some 2 => rfl

/-- The request shown is the one that R131 names. -/
theorem Channel.shown_iff (c : Channel) (r : Request) : c.shown = some r ↔ Shows c r := by
  rw [Channel.shown_eq]
  constructor
  · intro h
    obtain ⟨i, hi, hr⟩ := Option.bind_eq_some_iff.1 h
    obtain ⟨r', hw⟩ := Channel.wins_of_winner hi
    obtain rfl : r' = r := Option.some.inj (hw.1.symm.trans hr)
    exact ⟨i, hw⟩
  · rintro ⟨i, hw⟩
    have hw : c.Wins i r := hw
    rcases hwin : c.winner with _ | j
    · exact absurd (Channel.slots_of_winner_none hwin i) (by rw [hw.1]; exact nofun)
    · obtain ⟨q, hq⟩ := Channel.wins_of_winner hwin
      obtain rfl := hw.unique hq
      exact hw.1

theorem patternLit_iff (table : Vector Pattern 8) (e : Fin 8) (t : Time) :
    patternLit table e t = true ↔ e = 1 ∨ (2 ≤ e.val ∧ (table[e].on.toNat * 10 ≠ 0 ∧
      (table[e].off.toNat * 10 = 0 ∨ t.toNat % (table[e].on.toNat * 10 + table[e].off.toNat * 10) < table[e].on.toNat * 10))) := by
  unfold patternLit
  split
  next h => subst h; simp
  next h0 =>
    split
    next h => simp [h]
    next h1 =>
      have h2 : 2 ≤ e.val := by
        have := Fin.val_ne_of_ne h0
        have := Fin.val_ne_of_ne h1
        simp only [Fin.val_zero, Fin.val_one] at *; omega
      dsimp only
      generalize table[e].on.toNat * 10 = on
      generalize table[e].off.toNat * 10 = off
      simp only [h1, h2, false_or, true_and]
      split
      next hon => simp [hon]
      next hon =>
        split
        next hoff => simp [hon, hoff]
        next hoff => simp [hon, hoff]

theorem Channel.lit_iff (c : Channel) (table : Vector Pattern 8) (t : Time) :
    c.lit table t = true ↔ ∃ r, Shows c r ∧ patternLit table r.pattern t = true := by
  unfold Channel.lit
  simp only [← Channel.shown_iff]
  rcases c.shown with _ | r
  · simp
  · simp

/-! ### A chain refresh (R128, R133, R138) -/

/-- Bit k of the number that a list of bits makes. -/
theorem testBit_bitsOf (l : List Bool) (k : Nat) : (bitsOf l).testBit k = l.getD k false := by
  induction l generalizing k with
  | nil => simp [bitsOf]
  | cons b t ih =>
    cases k with
    | zero => cases b <;> simp [bitsOf, Nat.testBit_zero]
    | succ k =>
      rw [bitsOf, Nat.testBit_succ, List.getD_cons_succ, ← ih]
      congr 1
      cases b
      · simp
      · simp; omega

theorem State.frame_bit (s : State) (lit : BayNo → Bool) (n : BayNo) : (s.frame lit)[n.val] = (s.inCount n && lit n) := by
  unfold State.frame
  rw [BitVec.getElem_eq_testBit_toNat, BitVec.toNat_ofNat, Nat.testBit_mod_two_pow, testBit_bitsOf]
  simp [bayNumbers]

theorem State.chainFrame_amber (s : State) (n : BayNo) :
    s.chainFrame.amber[n.val] = (s.inCount n && (s.light n).amber.lit s.settings.patterns s.time) :=
  s.frame_bit (fun n => (s.light n).amber.lit s.settings.patterns s.time) n
theorem State.chainFrame_blue (s : State) (n : BayNo) :
    s.chainFrame.blue[n.val] = (s.inCount n && (s.light n).blue.lit s.settings.patterns s.time) :=
  s.frame_bit (fun n => (s.light n).blue.lit s.settings.patterns s.time) n
theorem State.chainFrame_green (s : State) (n : BayNo) :
    s.chainFrame.green[n.val] = (s.inCount n && ((s.light n).enable && (s.light n).stretch.isSome)) :=
  s.frame_bit (fun n => (s.light n).green) n

theorem State.refreshedLights_eq (s : State) (activity : BitVec 60) (n : BayNo) :
    let stretch : Option Time :=
      if s.inCount n = false then (s.light n).stretch
      else if activity[n.val] = true ∧ (s.bay n).record.state = .ready ∧ (s.light n).enable = true then some s.time
      else match (s.light n).stretch with
        | none => none
        | some t => if Time.age s.time t < 40 then some t else none
    (s.refreshedLights activity)[n] = { s.light n with stretch := stretch } := by
  intro stretch
  have hget : (s.refreshedLights activity)[n] =
      if s.inCount n then (s.light n).refreshed s.time ((s.bay n).record.state == .ready) activity[n] else s.light n := Vector.getElem_ofFn ..
  rw [hget]
  cases hn : s.inCount n with
  | false => simp only [stretch, hn]; rfl
  | true =>
    simp only [stretch, hn, if_true, Bool.true_eq_false, if_false, BayLight.refreshed, Bool.and_eq_true, beq_iff_eq, and_assoc]
    rfl

/-- Settles O47: the stretch bay by bay, then the frame bit by bit. -/
theorem chainRefreshShowsWinners : Obligations.ChainRefreshShowsWinners := by
  intro s activity hrun hdue lit stretch
  have hlit : ∀ c : Channel, c.lit s.settings.patterns s.time = true ↔ lit c := fun c => by
    simp only [Channel.lit_iff, patternLit_iff]; exact Iff.rfl
  obtain ⟨bays, hbays⟩ : ∃ bays, bays = s.refreshedLights activity := ⟨_, rfl⟩
  let t : State := { s with lights := { s.lights with bays := bays } }
  have hlight : ∀ n : BayNo, t.light n = { s.light n with stretch := stretch n } := fun n => by
    show bays[n] = _
    rw [hbays]; exact s.refreshedLights_eq activity n
  have hcount : ∀ n : BayNo, t.inCount n = s.inCount n := fun n => rfl
  have hsettings : t.settings = s.settings ∧ t.time = s.time := ⟨rfl, rfl⟩
  have hexec : exec (.chainRefresh activity) s =
      .next { s with lights := { t.lights with chain := t.chainFrame }, refreshAt := some (Time.plus s.time 10) } := by
    show Host.Outcome.next _ = _
    rw [if_pos ⟨(State.running_iff s).2 hrun, hdue⟩, State.refresh, ← hbays]; rfl
  refine ⟨{ t.lights with chain := t.chainFrame }, hexec, rfl, hlight, fun n => ⟨?_, ?_, ?_⟩, hlit s.lights.enclosure.amber,
    hlit s.lights.enclosure.blue⟩
  · show t.chainFrame.amber[n.val] = true ↔ _
    rw [t.chainFrame_amber, hlight, hcount, hsettings.1, hsettings.2, Bool.and_eq_true, hlit]
  · show t.chainFrame.blue[n.val] = true ↔ _
    rw [t.chainFrame_blue, hlight, hcount, hsettings.1, hsettings.2, Bool.and_eq_true, hlit]
  · show t.chainFrame.green[n.val] = true ↔ _
    rw [t.chainFrame_green, hlight, hcount, Bool.and_eq_true, Bool.and_eq_true, Option.isSome_iff_ne_none]

end Sys2Proof.Machine
end

