-- ==== Sys2Proof/Proofs/Cancel.lean ====
section
/-! SUPPORT. The end of an open slip and what it leaves (R154), and CANCEL (R72 to R74, R121, R162). -/

namespace Sys2Proof.Machine

variable {s : State}

/-! ### The end of an open slip (R154) -/

/-- The end of an open slip raises SLIP_ENDED alone, and raises it where its entry asks for it. -/
theorem State.endOpen_late (s : State) (p : Port) (a : Half) (o : SlipOutcome) (c : Bool) (r : Option (List Byte)) :
    OnlyTold [srcSlipEnded] s (s.endOpen p a o c r) ∧
      ∀ e, s.findOpen p a = some e → e.attn = true → (p, srcSlipEnded) ∈ (s.endOpen p a o c r).late := by
  unfold State.endOpen
  split
  next hnone => exact ⟨.of_late rfl, fun e he => by rw [hnone] at he; cases he⟩
  next e hfound =>
    have hlate : ((s.endAt p a e.attn o (resultFlags (e.clamped || c) false) r).dropOpen p a).late =
        s.late ++ (if e.attn then [(p, srcSlipEnded)] else []) := by
      rw [State.dropOpen_eq, State.endAt_eq]
    refine ⟨fun x hx => ?_, fun e' he' hattn => ?_⟩
    · rw [hlate, List.mem_append] at hx
      refine hx.imp_right fun h => ?_
      split at h
      · simp_all
      · cases h
    · obtain rfl := Option.some.inj (hfound.symm.trans he')
      rw [hlate, hattn]; simp

/-- What the end of an open slip leaves, beside the exchange, the readers' records and the status area. -/
structure SlipClosed (s u : State) : Prop where
  outer     : u.outer = s.outer
  readers   : ReadersStand s u
  bays      : u.bays = s.bays
  lines     : u.lines = s.lines
  feeds     : u.feeds = s.feeds
  lights    : u.lights = s.lights
  account   : u.account = s.account
  scheduler : u.scheduler = s.scheduler
  attention : u.attention = s.attention
  reports   : u.reports = s.reports
  only      : OnlyTold [srcSlipEnded] s u

theorem State.endOpen_closed (s : State) (p : Port) (a : Half) (o : SlipOutcome) (c : Bool) (r : Option (List Byte)) :
    SlipClosed s (s.endOpen p a o c r) where
  outer := s.endOpen_outer p a o c r
  readers := s.endOpen_readersStand p a o c r
  bays := by rw [State.endOpen_eq]
  lines := by rw [State.endOpen_eq]
  feeds := by rw [State.endOpen_eq]
  lights := by rw [State.endOpen_eq]
  account := by rw [State.endOpen_eq]
  scheduler := by rw [State.endOpen_eq]
  attention := by rw [State.endOpen_eq]
  reports := by rw [State.endOpen_eq]
  only := (s.endOpen_late p a o c r).1

/-- Only the summary record's publication follows. -/
theorem SlipClosed.pubSummaryIfChanged {u : State} (h : SlipClosed s u) : SlipClosed s u.pubSummaryIfChanged where
  outer := u.pubSummaryIfChanged_outer.trans h.outer
  readers := h.readers.trans (.of_eq (by rw [State.pubSummaryIfChanged_eq]))
  bays := by rw [State.pubSummaryIfChanged_eq]; exact h.bays
  lines := by rw [State.pubSummaryIfChanged_eq]; exact h.lines
  feeds := by rw [State.pubSummaryIfChanged_eq]; exact h.feeds
  lights := by rw [State.pubSummaryIfChanged_eq]; exact h.lights
  account := by rw [State.pubSummaryIfChanged_eq]; exact h.account
  scheduler := by rw [State.pubSummaryIfChanged_eq]; exact h.scheduler
  attention := by rw [State.pubSummaryIfChanged_eq]; exact h.attention
  reports := by rw [State.pubSummaryIfChanged_eq]; exact h.reports
  only := h.only.trans (.of_late (by rw [State.pubSummaryIfChanged_eq]))

@[simp] theorem State.exchange_pubSummaryIfChanged (s : State) : s.pubSummaryIfChanged.exchange = s.exchange := by
  rw [State.pubSummaryIfChanged_eq]; rfl

/-! ### CANCEL: what it names (R162) -/

theorem exec_cancel_taken {h : SlipHead} (ht : s.takeable h = true) (named : Half) :
    exec (.cancel h named) s = .next ((State.cancelSlip h named (s.markTaken h.addr)).finishSlip h.port) :=
  exec_slip_taken _ h s rfl ht

theorem State.cancelSlip_unfound {h : SlipHead} (hi : h.target = 0xFE) {named : Half} (hnone : s.findOpen h.port named = none) :
    s.cancelSlip h named = s.endTaken h .notFound false false (some (cancelResult named 0)) := by
  unfold State.cancelSlip
  rw [if_neg (by rw [hi]; decide), hnone]

theorem State.cancelSlip_spinUp {h : SlipHead} (hi : h.target = 0xFE) {named : Half} {e : OpenSlip} (he : s.findOpen h.port named = some e)
    (hcmd : e.command = 0x20) {n : BayNo} (hn : s.bayOfSlip h.port named = some n) :
    s.cancelSlip h named = (s.cancelSpinUp n).endTaken h .ok false true (some (cancelResult named 0x20)) := by
  unfold State.cancelSlip
  rw [if_neg (by rw [hi]; decide), he]
  dsimp only
  rw [if_pos (show e.command = cmdSpinUp from hcmd), hcmd, hn]

theorem State.cancelSlip_check {h : SlipHead} (hi : h.target = 0xFE) {named : Half} {e : OpenSlip} (he : s.findOpen h.port named = some e)
    (hcmd : e.command = 0x52) : s.cancelSlip h named = s.cancelCheck.endTaken h .ok false true (some (cancelResult named 0x52)) := by
  unfold State.cancelSlip
  rw [if_neg (by rw [hi]; decide), he]
  dsimp only
  rw [if_neg (by rw [hcmd]; decide), if_pos (show e.command = cmdFanCheck from hcmd), hcmd]

theorem State.cancelSlip_other {h : SlipHead} (hi : h.target = 0xFE) {named : Half} {e : OpenSlip} (he : s.findOpen h.port named = some e)
    (hspin : e.command ≠ 0x20) (hcheck : e.command ≠ 0x52) :
    s.cancelSlip h named = s.endTaken h .notCancellable false false (some (cancelResult named e.command)) := by
  unfold State.cancelSlip
  rw [if_neg (by rw [hi]; decide), he]
  dsimp only
  rw [if_neg (show e.command ≠ cmdSpinUp from hspin), if_neg (show e.command ≠ cmdFanCheck from hcheck)]

/-- The bay whose operation belongs to an open slip, where no other's does (R12). -/
theorem State.bayOfSlip_eq {p : Port} {addr : Half} {n : BayNo} {o : Operation} (hop : (s.bay n).record.op = some o) (horigin : o.origin = .slip p)
    (hslip : o.slip = some addr)
    (unique : ∀ m q, (s.bay m).record.op = some q → q.origin = .slip p → q.slip = some addr → m = n) : s.bayOfSlip p addr = some n := by
  unfold State.bayOfSlip
  generalize hf : (fun m : BayNo => _) = f
  have holds : ∀ m, f m = true ↔ ∃ q, (s.bay m).record.op = some q ∧ q.origin = .slip p ∧ q.slip = some addr := by
    intro m
    subst hf
    dsimp only
    split
    next k q a st d c hm =>
      simp only [hm, Bool.and_eq_true, beq_iff_eq, Option.some.injEq, exists_eq_left', Origin.slip.injEq]
    next hno =>
      refine ⟨nofun, fun ⟨⟨k, or, sl, st, d, c⟩, hm, ho, hs⟩ => ?_⟩
      simp only at ho hs
      subst ho hs
      exact absurd hm (hno k p addr st d c)
  rcases hfind : List.find? f bayNumbers with _ | m
  · exact absurd ((holds n).2 ⟨o, hop, horigin, hslip⟩) (List.find?_eq_none.1 hfind n (List.mem_finRange n))
  · obtain ⟨q, hq, hqo, hqs⟩ := (holds m).1 (List.find?_some hfind)
    rw [unique m q hq hqo hqs]

/-! ### CANCEL of a SPIN_UP (R72 to R74) -/

/-- Taking the CANCEL moves nothing that a handling of bay n is judged by. -/
theorem BayHandled.of_taken {n : BayNo} {a : Half} {u : State} (h : BayHandled n (s.markTaken a) u) : BayHandled n s u :=
  { h with }

/-- A queued SPIN_UP withdrawn at once (R72). -/
theorem State.cancelSpinUp_queued {n : BayNo} (hst : (s.bay n).record.state = .queued) :
    let b := s.bay n
    BayTold n s b.record.op srcBayChange
      (b.stands .logic .command s.time 0 (s.profileOf n).i5
        { wait5v := false, latchOpen := b.record.flags.latchOpen, removalReady := false, drawHigh := false, shedThermal := false,
          shedPower := false } none) ((s.line n).switched true false)
      (s.exchange.opEnded b.record.op .cancelled (bayResult (s.cancelSpinUp n) n) s.time) (s.queueWithout n) (s.cancelSpinUp n) := by
  intro b
  let t := ((s.leave n).enter n .logic .command).setOp n none
  have hcancel : s.cancelSpinUp n = (t.bayChanged n (some srcBayChange)).endOpSlip b.record.op .cancelled
      (bayResult (t.bayChanged n (some srcBayChange)) n) := by
    unfold State.cancelSpinUp; rw [hst]
  have hwork : BayWork n s t := (State.leave_work.trans (State.enter_work _ n _ _)).trans (State.setOp_work _)
  have hbay : t.bay n = b.stands .logic .command s.time 0 (s.profileOf n).i5
      { wait5v := false, latchOpen := b.record.flags.latchOpen, removalReady := false, drawHigh := false, shedThermal := false,
        shedPower := false } none := by
    rw [State.bay_setOp_same, State.bay_enter_same, State.bay_leave, Bay.entering_logic, State.leave_time,
      State.profileOf_of_settings (s.leave_settings n)]; rfl
  have hline : t.line n = (s.line n).switched true false := by
    rw [State.line_setOp, State.line_enter_same, State.line_leave]; rfl
  have hfeed : t.feed n = s.feed n := by
    rw [State.feed_setOp, State.feed_enter_apart _ _ _ _ (by decide), State.feed_leave]
  rw [hcancel]
  exact hwork.endsOp hbay hline hfeed (s.exchange_leave n) (s.leave_queue n) (s.late_leave n) b.record.op .cancelled srcBayChange

/-- A SPIN_UP past its admission marked, its bay taken into the park window (R73). -/
theorem State.cancelSpinUp_spinningUp {n : BayNo} {o : Operation} (hst : (s.bay n).record.state = .spinningUp)
    (hop : (s.bay n).record.op = some o) :
    let b := s.bay n
    let u := s.cancelSpinUp n
    BayLeft n s { b.stands .spinningDown .command s.time b.record.c12 b.record.c5 b.record.flags (some { o with cancelMarked := true }) with
        parkAt := some (Time.plus s.time (s.profileOf n).park) } ((s.line n).switched true true) (s.feed n) s.exchange s.scheduler.queue u ∧
      u.told srcBayChange ∧ OnlyTold [srcBayChange, srcPower] s u := by
  intro b u
  let t := (s.enter n .spinningDown .command).setOp n (some { o with cancelMarked := true })
  have hu : u = t.bayChanged n (some srcBayChange) := by
    unfold u State.cancelSpinUp; rw [hst]; simp only [hop]; rfl
  have hbay : t.bay n = { b.stands .spinningDown .command s.time b.record.c12 b.record.c5 b.record.flags (some { o with cancelMarked := true }) with
      parkAt := some (Time.plus s.time (s.profileOf n).park) } := by
    have hflags : BayFlags.leaving (s.bay n).record.state (s.bay n).record.flags = (s.bay n).record.flags := by
      rw [hst]; simp [BayFlags.leaving]
    rw [State.bay_setOp_same, State.bay_enter_same, Bay.entering_spinningDown, hflags]; rfl
  have hline : t.line n = (s.line n).switched true true := by rw [State.line_setOp, State.line_enter_same]; rfl
  have hfeed : t.feed n = s.feed n := by rw [State.feed_setOp, State.feed_enter_apart _ _ _ _ (by decide)]
  obtain ⟨told, only⟩ := State.bayChanged_events (s := s) (t := t) rfl n srcBayChange
  rw [hu]
  exact ⟨((State.enter_work _ n _ _).trans (State.setOp_work _)).left hbay hline hfeed rfl rfl (some srcBayChange), told, only⟩

theorem State.cancelSpinUp_parking {n : BayNo} (hst : (s.bay n).record.state = .spinningDown) : s.cancelSpinUp n = s := by
  unfold State.cancelSpinUp; rw [hst]

/-! ### CANCEL of a fan check (R121) -/

theorem State.cancelCheck_closed {k : FanCheck} {named : Half} (hk : s.fans.check = some k) (hslip : k.slip = some named) :
    SlipClosed { s with fans := { s.fans with check := none } } s.cancelCheck ∧
      s.cancelCheck.exchange = s.exchange.closed k.origin named .cancelled false none s.time ∧
      ∀ e, s.findOpen k.origin named = some e → e.attn = true → (k.origin, srcSlipEnded) ∈ s.cancelCheck.late := by
  let t : State := { s with fans := { s.fans with check := none } }
  have hcancel : s.cancelCheck = (t.endOpen k.origin named .cancelled false none).pubSummaryIfChanged := by
    simp only [State.cancelCheck, hk, State.endCheckSlip, hslip]; rfl
  rw [hcancel]
  refine ⟨(t.endOpen_closed ..).pubSummaryIfChanged, ?_, fun e he hattn => ?_⟩
  · rw [State.exchange_pubSummaryIfChanged, State.exchange_endOpen]; rfl
  · rw [State.pubSummaryIfChanged_eq]
    exact (t.endOpen_late k.origin named .cancelled false none).2 e he hattn

/-- Settles O55, by what the address names. -/
theorem cancelByWhatItNames : Obligations.CancelByWhatItNames := by
  intro s h named ht hi ends accepted
  let m := s.markTaken h.addr
  have hexec := exec_cancel_taken ht named
  have hends : ∀ {o marked code}, m.cancelSlip h named = m.endTaken h o false marked (some (cancelResult named code)) →
      ends o marked code := fun hm => by
    show exec (.cancel h named) s = _
    rw [hexec, hm, State.endTaken_markTaken]; rfl
  refine ⟨fun hnone => hends (State.cancelSlip_unfound (s := m) hi hnone), fun e he hspin hcheck => hends (State.cancelSlip_other (s := m) hi he hspin hcheck), fun e k he hcmd hk horigin hslip => ?_,
    fun e n o he hcmd hop horigin hslip unique => ?_⟩
  · obtain ⟨⟨outer, readers, bays, lines, feeds, lights, account, scheduler, attention, reports, only⟩, exchange, told⟩ :=
      State.cancelCheck_closed (s := m) hk hslip
    rw [horigin] at exchange told
    refine ⟨m.cancelCheck, ?_, outer, exchange, readers, bays, lines, feeds, lights, account, scheduler, attention, reports, told e he, only⟩
    show exec (.cancel h named) s = _
    rw [hexec, State.cancelSlip_check (s := m) hi he hcmd]; rfl
  · have hslipOf : m.cancelSlip h named = (m.cancelSpinUp n).endTaken h .ok false true (some (cancelResult named 0x20)) :=
      State.cancelSlip_spinUp (s := m) hi he hcmd (State.bayOfSlip_eq (s := m) hop horigin hslip unique)
    have haccepted : accepted (m.cancelSpinUp n) 0x20 := by
      show exec (.cancel h named) s = _
      rw [hexec, hslipOf]; rfl
    refine ⟨fun hst => ?_, fun hst => ?_, fun hst => ?_⟩
    · obtain ⟨⟨handled, bay, line, feed, exchange, queue⟩, opTold, told, only⟩ := State.cancelSpinUp_queued (s := m) hst
      refine ⟨m.cancelSpinUp n, haccepted, handled.of_taken, bay, line, feed, queue, ?_, told,
        fun hattn => opTold o h.port named e hop horigin hslip he hattn, only⟩
      rw [exchange]
      show (s.exchange.take h.addr).opEnded (s.bay n).record.op _ _ _ = _
      rw [hop]
      obtain ⟨k, or, sl, st, d, c⟩ := o
      simp only at horigin hslip
      subst horigin hslip
      rfl
    · obtain ⟨⟨handled, bay, line, feed, exchange, queue⟩, told, only⟩ := State.cancelSpinUp_spinningUp (s := m) hst hop
      exact ⟨m.cancelSpinUp n, haccepted, handled.of_taken, bay, line, feed, queue, exchange, told, only⟩
    · exact hends (by rw [hslipOf, State.cancelSpinUp_parking (s := m) hst])

end Sys2Proof.Machine
end

