-- ==== Sys2Proof/Proofs/Attention.lean ====
section
/-! SUPPORT. The Attention Units: events delivered, TAKE and DONE (R170 to R173). -/

namespace Sys2Proof.Machine

variable {s : State}

/-! ### Events delivered (R170) -/

/-- A publication of a port's attention record leaves every unit but for its generation. -/
theorem State.pubAttention_flags (s : State) (p q : Port) :
    ((s.pubAttention p).attention.get q).inService = (s.attention.get q).inService ∧
      ((s.pubAttention p).attention.get q).pending = (s.attention.get q).pending := by
  obtain ⟨hin, hpend, hother⟩ := s.pubAttention_unit p
  by_cases hq : q = p
  · subst hq; exact ⟨hin, hpend⟩
  · obtain rfl : q = Port.other p := by cases p <;> cases q <;> first | rfl | exact absurd rfl hq
    rw [hother]; exact ⟨rfl, rfl⟩

theorem State.latchEvent_settings (s : State) (q : Port) (j : Fin 8) : (s.latchEvent q j).settings = s.settings := by
  unfold State.latchEvent
  split
  · dsimp only; rw [State.pubAttention_eq]
  · rfl

theorem State.latchEvent_inService (s : State) (p q : Port) (j : Fin 8) :
    ((s.latchEvent q j).attention.get p).inService = (s.attention.get p).inService := by
  unfold State.latchEvent
  split
  · dsimp only
    rw [(State.pubAttention_flags _ q p).1, PerPort.get_put]
    split
    · rename_i h; rw [h]
    · rfl
  · rfl

/-- An event sets the pending flag of its source where that is enabled, and no other (R170). -/
theorem State.latchEvent_pending (s : State) (p q : Port) (i j : Fin 8) :
    ((s.latchEvent q j).attention.get p).pending[i] = true ↔
      (s.attention.get p).pending[i] = true ∨ ((s.settings.attention.get p)[i].enable = true ∧ (p, i) = (q, j)) := by
  by_cases h : (s.settings.attention.get q)[j].enable = true ∧ (s.attention.get q).pending[j] = false
  · obtain ⟨henable, -⟩ := id h
    let u := s.attention.get q
    let set : AttentionUnit := { u with pending := u.pending.set j true }
    have hlatch : s.latchEvent q j = State.pubAttention q { s with attention := s.attention.put q set } := if_pos h
    have hpend : ((s.latchEvent q j).attention.get p).pending = if p = q then set.pending else (s.attention.get p).pending := by
      rw [hlatch, (State.pubAttention_flags _ q p).2, PerPort.get_put]
      split <;> rfl
    rw [hpend]
    by_cases hp : p = q
    · subst hp
      rw [if_pos rfl]
      by_cases hi : i = j
      · subst hi; exact ⟨fun _ => .inr ⟨henable, rfl⟩, fun _ => set_self ..⟩
      · have hval : j.val ≠ i.val := fun e => hi (Fin.ext e.symm)
        simp [set, u, hi, hval]
    · rw [if_neg hp]
      simp [hp]
  · have hlatch : s.latchEvent q j = s := if_neg h
    rw [hlatch]
    refine ⟨.inl, fun hor => hor.elim id fun ⟨henable, heq⟩ => ?_⟩
    obtain ⟨rfl, rfl⟩ := Prod.mk.inj heq
    exact Classical.byContradiction fun hno => h ⟨henable, Bool.eq_false_iff.2 hno⟩

/-- A list of events handed over in order. -/
theorem State.latchAll_fields (l : List (Port × Fin 8)) (s : State) (p : Port) :
    let t := l.foldl (fun t e => t.latchEvent e.1 e.2) s
    (t.attention.get p).inService = (s.attention.get p).inService ∧
      ∀ i : Fin 8, ((t.attention.get p).pending[i] = true ↔
        (s.attention.get p).pending[i] = true ∨ ((s.settings.attention.get p)[i].enable = true ∧ (p, i) ∈ l)) := by
  induction l generalizing s with
  | nil => exact ⟨rfl, fun i => by simp⟩
  | cons e l ih =>
    obtain ⟨hin, hpend⟩ := ih (s.latchEvent e.1 e.2)
    refine ⟨hin.trans (s.latchEvent_inService p e.1 e.2), fun i => (hpend i).trans ?_⟩
    rw [State.latchEvent_pending, State.latchEvent_settings, List.mem_cons, or_assoc, ← and_or_left]

theorem State.deliver_late (s : State) : s.deliver.late = [] := by rw [State.deliver_eq]

/-! ### TAKE (R172) -/

/-- The source is eligible exactly as R171 says. -/
theorem State.eligible_iff (s : State) (p : Port) (i : Fin 8) :
    s.eligible p i = true ↔ (s.settings.attention.get p)[i].enable = true ∧ (s.attention.get p).pending[i] = true ∧
      0 < (s.settings.attention.get p)[i].level ∧
        ∀ k, k < 8 → (s.attention.get p).inService.getLsbD k = true → k < (s.settings.attention.get p)[i].level := by
  simp only [State.eligible, Bool.and_eq_true, decide_eq_true_eq, highestLevel_lt_iff, and_assoc]

/-- Of a list of sources, i is the one that R172 picks: eligible, and no eligible one has a greater level, or an equal level and a higher
number. -/
def State.Picks (s : State) (p : Port) (l : List (Fin 8)) (i : Fin 8) : Prop :=
  i ∈ l ∧ s.eligible p i = true ∧ ∀ j ∈ l, s.eligible p j = true →
    (s.settings.attention.get p)[j].level < (s.settings.attention.get p)[i].level ∨
      ((s.settings.attention.get p)[j].level = (s.settings.attention.get p)[i].level ∧ j ≤ i)

/-- The better of the best so far and the next source in ascending number. -/
def State.better (s : State) (p : Port) (best : Option (Fin 8)) (i : Fin 8) : Option (Fin 8) :=
  if s.eligible p i then
    match best with
    | none => some i
    | some j => if (s.settings.attention.get p)[j].level ≤ (s.settings.attention.get p)[i].level then some i else some j
  else best

theorem State.takeChoice_eq (s : State) (p : Port) : s.takeChoice p = (List.finRange 8).foldl (s.better p) none := rfl

/-- The choice among the sources of a rising list. -/
theorem State.better_picks (s : State) (p : Port) (l : List (Fin 8)) (hl : l.Pairwise (· < ·)) :
    (∀ i, l.foldl (s.better p) none = some i → s.Picks p l i) ∧
      (l.foldl (s.better p) none = none → ∀ i ∈ l, s.eligible p i = false) := by
  induction l using List.reverseRecOn with
  | nil => exact ⟨nofun, fun _ _ hi => by cases hi⟩
  | append_singleton l a ih =>
    obtain ⟨hl', -, hlt⟩ := List.pairwise_append.1 hl
    have hbelow : ∀ j ∈ l, j < a := fun j hj => hlt j hj a (List.mem_singleton_self a)
    obtain ⟨hsome, hnone⟩ := ih hl'
    rw [List.foldl_append, List.foldl_cons, List.foldl_nil]
    generalize List.foldl (s.better p) none l = best at hsome hnone ⊢
    have self : ∀ {j}, j ∈ l ++ [a] → j ∈ l ∨ j = a := fun h => by simpa using h
    unfold State.better
    cases ha : s.eligible p a with
    | false =>
      simp only [Bool.false_eq_true, if_false]
      refine ⟨fun i hi => ?_, fun hb j hj => (self hj).elim (hnone hb j) fun e => e ▸ ha⟩
      obtain ⟨hmem, helig, hbest⟩ := hsome i hi
      refine ⟨List.mem_append_left _ hmem, helig, fun j hj hje => (self hj).elim (fun h => hbest j h hje) fun e => ?_⟩
      rw [e, ha] at hje; cases hje
    | true =>
      simp only [if_true]
      have picksLast : (∀ j ∈ l, s.eligible p j = true → (s.settings.attention.get p)[j].level ≤ (s.settings.attention.get p)[a].level) →
          s.Picks p (l ++ [a]) a := by
        refine fun hle => ⟨by simp, ha, fun j hj hje => (self hj).elim (fun h => ?_) fun e => .inr ⟨by rw [e], by rw [e]⟩⟩
        exact (Nat.lt_or_eq_of_le (hle j h hje)).imp_right fun e => ⟨e, (hbelow j h).le⟩
      rcases best with _ | b
      · refine ⟨fun i hi => ?_, nofun⟩
        obtain rfl := Option.some.inj hi
        exact picksLast fun j hj hje => absurd (hnone rfl j hj) (by rw [hje]; decide)
      · obtain ⟨hmem, helig, hbest⟩ := hsome b rfl
        have hle : ∀ j ∈ l, s.eligible p j = true → (s.settings.attention.get p)[j].level ≤ (s.settings.attention.get p)[b].level :=
          fun j hj hje => (hbest j hj hje).elim Nat.le_of_lt fun h => h.1.le
        dsimp only
        split
        next hba =>
          refine ⟨fun i hi => ?_, nofun⟩
          obtain rfl := Option.some.inj hi
          exact picksLast fun j hj hje => (hle j hj hje).trans hba
        next hab =>
          refine ⟨fun i hi => ?_, nofun⟩
          obtain rfl := Option.some.inj hi
          exact ⟨List.mem_append_left _ hmem, helig, fun j hj hje => (self hj).elim (fun h => hbest j h hje) fun e => .inl (e ▸ Nat.lt_of_not_le hab)⟩

/-- TAKE's choice is the source that R172 names. -/
theorem State.takeChoice_some {p : Port} {i : Fin 8} (hi : s.eligible p i = true)
    (hbest : ∀ j : Fin 8, s.eligible p j = true → (s.settings.attention.get p)[j].level < (s.settings.attention.get p)[i].level ∨
      ((s.settings.attention.get p)[j].level = (s.settings.attention.get p)[i].level ∧ j ≤ i)) : s.takeChoice p = some i := by
  obtain ⟨hsome, hnone⟩ := s.better_picks p (List.finRange 8) (List.pairwise_lt_finRange 8)
  rw [State.takeChoice_eq]
  rcases hc : (List.finRange 8).foldl (s.better p) none with _ | j
  · have := hnone hc i (List.mem_finRange i)
    rw [hi] at this; cases this
  · obtain ⟨-, helig, hj⟩ := hsome j hc
    have h1 := hj i (List.mem_finRange i) hi
    have h2 := hbest j helig
    congr 1; omega

theorem State.takeChoice_none {p : Port} (hno : ∀ i, ¬ s.eligible p i = true) : s.takeChoice p = none := by
  obtain ⟨hsome, -⟩ := s.better_picks p (List.finRange 8) (List.pairwise_lt_finRange 8)
  rw [State.takeChoice_eq]
  rcases hc : (List.finRange 8).foldl (s.better p) none with _ | j
  · rfl
  · exact absurd (hsome j hc).2.1 (hno j)

theorem exec_take_loading (p : Port) (h : s.phase = .loading) : exec (.take p) s = .next (s.putOut p [0xFF]) := by
  show Host.Outcome.next (s.readTransaction p 0x8000 1) = _
  simp only [State.readTransaction, State.readRun, State.readByte, if_pos h]

/-- Outside the settings load TAKE reads its register. -/
theorem exec_take (p : Port) (h : s.phase ≠ .loading) : exec (.take p) s = .next ((s.readTake p).2.putOut p [(s.readTake p).1]) := by
  show Host.Outcome.next (s.readTransaction p 0x8000 1) = _
  simp only [State.readTransaction, State.readRun, State.readByte, if_neg h]
  rfl

/-- Bit k of the set that holds one level. -/
theorem level_bit (l : Nat) {k : Nat} (hk : k < 8) : (decide (l < 8) && decide (l = k)) = decide (k = l) := by
  rw [← Bool.decide_and, decide_eq_decide]; omega

/-- What TAKE makes of the part when it serves source i (R172). -/
theorem State.takeSource_fields (s : State) (p : Port) (i : Fin 8) :
    let config := s.settings.attention.get p
    let unit := s.attention.get p
    let u := s.takeSource p i
    u = { s with settings := u.settings, attention := u.attention, status := u.status } ∧
      u.settings = { s.settings with
        attention := s.settings.attention.put p (config.set i { config[i] with enable := config[i].enable && !config[i].auto }) } ∧
      u.attention.get (Port.other p) = s.attention.get (Port.other p) ∧ (u.attention.get p).pending = unit.pending.set i false ∧
      ∀ k, k < 8 → (u.attention.get p).inService.getLsbD k = (unit.inService.getLsbD k || decide (k = config[i].level)) := by
  intro config unit u
  let served := config.set i { config[i] with enable := config[i].enable && !config[i].auto }
  let t : State := { s with
    settings := { s.settings with attention := s.settings.attention.put p served }
    attention := s.attention.put p (unit.taken i config[i].level) }
  obtain ⟨hin, hpend, hother⟩ := t.pubAttention_unit p
  have hunit : t.attention.get p = unit.taken i config[i].level := PerPort.get_put_same ..
  have hu : u = t.pubAttention p := rfl
  have heq := t.pubAttention_eq p
  rw [hunit] at hin hpend
  rw [hu]
  refine ⟨by rw [heq], by rw [heq], hother.trans (PerPort.get_put_other ..), hpend, fun k hk => ?_⟩
  rw [hin]
  show (unit.inService ||| BitVec.twoPow 8 config[i].level).getLsbD k = _
  rw [BitVec.getLsbD_or, BitVec.getLsbD_twoPow]
  rw [level_bit _ hk]

/-! ### DONE (R173) -/

@[simp] theorem State.feedWrites_nil (s : State) (p : Port) : s.feedWrites p [] = s := by
  unfold State.feedWrites
  split
  · rfl
  · simp

@[simp] theorem State.wake_nil (s : State) (p : Port) : s.wake p [] = s := by
  unfold State.wake
  dsimp only
  split <;> simp

/-- One byte written at or above 0x8000, outside the port's own window (R150). -/
theorem State.writeTransaction_register {p : Port} {a : Nat} (v : Byte) (hload : s.phase ≠ .loading) (hw : s.ownWindow p a = false) :
    s.writeTransaction p a [v] = (s.writeByte p a a v).close.putOut p [0] := by
  have hstored : s.storedBy p a [v].length = [] := by
    simp [State.storedBy, List.range_succ, hw]
  unfold State.writeTransaction
  simp only [if_neg hload, hstored, State.feedWrites_nil, State.wake_nil]
  rfl

theorem exec_done {p : Port} (v : Byte) (hload : s.phase ≠ .loading) (hw : s.ownWindow p 0x8001 = false) :
    exec (.done p v) s = .next ((s.writeDone p).close.putOut p [0]) := by
  show Host.Outcome.next (s.writeTransaction p 0x8001 [v]) = _
  rw [State.writeTransaction_register v hload hw, State.writeByte, if_neg (by rw [hw]; decide)]
  rfl

/-- The highest of the levels in service. -/
theorem highestLevel_eq {u : Byte} {k : Nat} (hk : k < 8) (hset : u.getLsbD k = true)
    (habove : ∀ m, m < 8 → k < m → u.getLsbD m = false) : highestLevel u = k := by
  have hle : highestLevel u < k + 1 := (highestLevel_lt_iff u (k + 1)).2 ⟨by omega, fun m hm hum => by
    by_contra hno
    rw [habove m hm (by omega)] at hum; cases hum⟩
  have hge : ¬ highestLevel u < k := fun h => by
    have := ((highestLevel_lt_iff u k).1 h).2 k hk hset
    omega
  omega

/-- What DONE makes of the part when a level is in service (R173). -/
theorem State.writeDone_fields (s : State) (p : Port) (hne : (s.attention.get p).inService ≠ 0) :
    let unit := s.attention.get p
    let u := s.writeDone p
    u = { s with attention := u.attention, status := u.status } ∧ u.attention.get (Port.other p) = s.attention.get (Port.other p) ∧
      (u.attention.get p).pending = unit.pending ∧
      ∀ m, m < 8 → (u.attention.get p).inService.getLsbD m = (unit.inService.getLsbD m && decide (m ≠ highestLevel unit.inService)) := by
  intro unit u
  let left : AttentionUnit := { unit with inService := unit.inService &&& ~~~(BitVec.twoPow 8 (highestLevel unit.inService)) }
  let t : State := { s with attention := s.attention.put p left }
  obtain ⟨hin, hpend, hother⟩ := t.pubAttention_unit p
  have hunit : t.attention.get p = left := PerPort.get_put_same ..
  have hu : u = t.pubAttention p := if_neg hne
  have heq := t.pubAttention_eq p
  rw [hunit] at hin hpend
  rw [hu]
  refine ⟨by rw [heq], hother.trans (PerPort.get_put_other ..), hpend, fun m hm => ?_⟩
  rw [hin]
  show (unit.inService &&& ~~~(BitVec.twoPow 8 (highestLevel unit.inService))).getLsbD m = _
  rw [BitVec.getLsbD_and, BitVec.getLsbD_not, BitVec.getLsbD_twoPow]
  rw [level_bit _ hm, decide_eq_true hm, Bool.true_and, decide_not]

/-- Settles O56: delivery event by event, TAKE's choice, and the level that DONE removes. -/
theorem attentionServesGreatestLevel : Obligations.AttentionServesGreatestLevel := by
  intro s p config unit eligible
  have helig : ∀ i, s.eligible p i = true ↔ eligible i := s.eligible_iff p
  refine ⟨?_, exec_take_loading p, fun hload hno => ?_, fun i hload hi hbest => ?_, fun v hload hquiet hlate hw hzero => ?_⟩
  · intro t
    have ht : t = s.deliver := rfl
    obtain ⟨hin, hpend⟩ := State.latchAll_fields s.late { s with late := [] } p
    refine ⟨s.deliver_late, s.deliver_outer, ?_, ?_, ?_, hin, hpend⟩ <;> rw [ht, State.deliver_eq]
  · have hchoice : s.takeChoice p = none := State.takeChoice_none fun i => mt (helig i).1 (hno i)
    have hread : s.readTake p = (0xFF, s) := by unfold State.readTake; rw [hchoice]
    rw [exec_take p hload, hread]
  · have hchoice : s.takeChoice p = some i := State.takeChoice_some ((helig i).2 hi) fun j hj => hbest j ((helig j).1 hj)
    have hread : s.readTake p = (config[i].vector, s.takeSource p i) := by unfold State.readTake; rw [hchoice]
    exact ⟨s.takeSource p i, by rw [exec_take p hload, hread], s.takeSource_fields p i⟩
  · have hexec := exec_done v hload hw
    refine ⟨fun hnone => ?_, fun k hk hset habove => ?_⟩
    · have hstay : s.writeDone p = s := if_pos hnone
      rw [hexec, hstay, State.close_quiet s hquiet hlate]
    · have hne : (s.attention.get p).inService ≠ 0 := fun e => by
        have hset : (s.attention.get p).inService.getLsbD k = true := hset
        rw [e] at hset; simp at hset
      obtain ⟨heq, hother, hpend, hin⟩ := s.writeDone_fields p hne
      rw [highestLevel_eq hk hset habove] at hin
      have hq : (s.writeDone p).quiet := by rw [heq]; exact hquiet
      have hl : (s.writeDone p).late = [] := by rw [heq]; exact hlate
      exact ⟨s.writeDone p, by rw [hexec, State.close_quiet _ hq hl], heq, hother, hpend, hin⟩

end Sys2Proof.Machine
end

