-- ==== Sys2Proof/Proofs/Writes.lean ====
section
/-! SUPPORT. WRITE transactions below the registers (R85, R86, R148, R150). -/

namespace Sys2Proof.Machine

variable {s : State}

/-! ### Lists of steps that mostly do nothing -/

theorem foldl_idle {α β : Type} {f : β → α → β} (l : List α) (b : β) (h : ∀ c, ∀ x ∈ l, f c x = c) : l.foldl f b = b := by
  induction l with
  | nil => rfl
  | cons x l ih =>
    rw [List.foldl_cons, h b x (List.mem_cons_self ..)]
    exact ih fun c y hy => h c y (List.mem_cons_of_mem x hy)

theorem foldl_only {α β : Type} {f : β → α → β} {a : α} (l : List α) (b : β) (hl : l.Nodup) (ha : a ∈ l) (h : ∀ c x, x ≠ a → f c x = c) :
    l.foldl f b = f b a := by
  induction l generalizing b with
  | nil => cases ha
  | cons x l ih =>
    obtain ⟨hx, hl⟩ := List.nodup_cons.1 hl
    rw [List.foldl_cons]
    by_cases hxa : x = a
    · subst hxa
      exact foldl_idle l _ fun c y hy => h c y fun e => hx (e ▸ hy)
    · rw [h b x hxa]
      exact ih b hl ((List.mem_cons.1 ha).resolve_left fun e => hxa e.symm)

/-! ### The bytes of a WRITE (R150) -/

/-- The bytes of a WRITE that starts below the registers: those in the port's own window stored, WRITE_DENIED for any other. -/
theorem State.writeBytes_low (p : Port) {start : Nat} (hstart : start < 0x8000) (data : List Byte) (a : Nat) (s : State) :
    let hit (x : Nat) : Prop := a ≤ x ∧ x < a + data.length
    ∃ (m : Memory) (denied : Bool),
      s.writeBytes p start a data = { s with ram := m, links := s.links.put p { s.links.get p with denied := denied } } ∧
        (∀ x, Memory.read m x = if hit x ∧ s.ownWindow p x = true then data.getD (x - a) 0 else Memory.read s.ram x) ∧
        (denied = true ↔ (s.links.get p).denied = true ∨ ∃ x, hit x ∧ s.ownWindow p x = false) ∧ (Memory.wf s.ram → Memory.wf m) := by
  induction data generalizing a s with
  | nil =>
    refine ⟨s.ram, (s.links.get p).denied, ?_, fun x => ?_, ?_, id⟩
    · cases p <;> rfl
    · rw [if_neg]; simp
    · refine ⟨.inl, fun h => h.elim id fun ⟨x, ⟨h1, h2⟩, _⟩ => ?_⟩
      simp only [List.length_nil] at h2; omega
  | cons v t ih =>
    intro hit
    have shift : ∀ x, hit x ↔ x = a ∨ (a + 1 ≤ x ∧ x < a + 1 + t.length) := fun x => by
      show a ≤ x ∧ x < a + (v :: t).length ↔ _
      rw [List.length_cons]; omega
    have later : ∀ x, a + 1 ≤ x → (v :: t).getD (x - a) 0 = t.getD (x - (a + 1)) 0 := fun x hx => by
      rw [show x - a = (x - (a + 1)) + 1 by omega, List.getD_cons_succ]
    rw [State.writeBytes]
    cases hown : s.ownWindow p a with
    | true =>
      have hstep : s.writeByte p start a v = { s with ram := Memory.write s.ram a v } := by rw [State.writeByte, if_pos hown]
      rw [hstep]
      obtain ⟨m, denied, heq, hread, hdenied, hwf⟩ := ih (a + 1) { s with ram := Memory.write s.ram a v }
      refine ⟨m, denied, heq, fun x => ?_, hdenied.trans (or_congr Iff.rfl ?_), fun h => hwf (Memory.wf_write _ _ _ h)⟩
      · rw [hread x]
        show (if (a + 1 ≤ x ∧ x < a + 1 + t.length) ∧ s.ownWindow p x = true then _ else Memory.read (Memory.write s.ram a v) x) = _
        rw [Memory.read_write]
        by_cases hx : x = a
        · subst hx
          rw [if_neg (by omega), if_pos rfl, if_pos ⟨(shift x).2 (.inl rfl), hown⟩, Nat.sub_self, List.getD_cons_zero]
        · rw [if_neg hx]
          have hiff : hit x ↔ a + 1 ≤ x ∧ x < a + 1 + t.length := (shift x).trans (or_iff_right hx)
          simp only [hiff]
          split
          next h => exact (later x h.1.1).symm
          next => rfl
      · refine exists_congr fun x => ?_
        show (a + 1 ≤ x ∧ x < a + 1 + t.length) ∧ s.ownWindow p x = false ↔ _
        rw [shift x]
        refine ⟨fun ⟨h, ho⟩ => ⟨.inr h, ho⟩, fun ⟨h, ho⟩ => ⟨h.resolve_left fun e => ?_, ho⟩⟩
        rw [e, hown] at ho; cases ho
    | false =>
      have hstep : s.writeByte p start a v = s.deny p := by rw [State.writeByte, if_neg (by rw [hown]; decide), if_pos hstart]
      rw [hstep]
      obtain ⟨m, denied, heq, hread, hdenied, hwf⟩ := ih (a + 1) (s.deny p)
      refine ⟨m, denied, ?_, fun x => ?_, ?_, hwf⟩
      · rw [heq]; cases p <;> rfl
      · rw [hread x]
        show (if (a + 1 ≤ x ∧ x < a + 1 + t.length) ∧ s.ownWindow p x = true then _ else Memory.read s.ram x) = _
        by_cases hx : x = a
        · subst hx
          rw [if_neg (by omega), if_neg (by rw [hown]; simp)]
        · have hiff : hit x ↔ a + 1 ≤ x ∧ x < a + 1 + t.length := (shift x).trans (or_iff_right hx)
          simp only [hiff]
          split
          next h => exact (later x h.1.1).symm
          next => rfl
      · have hset : ((s.deny p).links.get p).denied = true := by cases p <;> rfl
        exact hdenied.trans ⟨fun _ => .inr ⟨a, (shift a).2 (.inl rfl), hown⟩, fun _ => .inl hset⟩

/-- The addresses that a WRITE stores. -/
theorem State.mem_storedBy {p : Port} {start n x : Nat} :
    x ∈ s.storedBy p start n ↔ (start ≤ x ∧ x < start + n) ∧ s.ownWindow p x = true := by
  simp only [State.storedBy, List.mem_filter, List.mem_map, List.mem_range]
  refine and_congr ⟨fun ⟨k, hk, e⟩ => by omega, fun h => ⟨x - start, by omega, by omega⟩⟩ Iff.rfl

/-- A stored run that touches no byte of the feed reports nothing to the Thermal Zone Unit (R85). -/
theorem State.feedWrites_idle {p : Port} {stored : List Nat}
    (h : ∀ w, s.windows.get p = some w → ∀ n : BayNo, w.base + 0x40 + n.val ∉ stored) : s.feedWrites p stored = s := by
  unfold State.feedWrites
  split
  · rfl
  next w hw =>
    exact foldl_idle _ _ fun t n _ => if_neg (by simpa using h w hw n)

/-- A stored run that touches no byte of the watched word wakes no reader (R155). -/
theorem State.wake_idle {p : Port} {stored : List Nat} (h : ∀ k, k < 2 → (s.reader p).watch.toNat + k ∉ stored) : s.wake p stored = s := by
  have untouched : ∀ len, len ≤ 2 → ((List.range len).any fun k => stored.contains ((s.reader p).watch.toNat + k)) = false := by
    intro len hlen
    refine List.any_eq_false.2 fun k hk => ?_
    have := h k (by have := List.mem_range.1 hk; omega)
    simpa using this
  unfold State.wake
  simp only [untouched 2 (by omega), untouched 1 (by omega), Bool.false_eq_true, if_false, false_and]
  split <;> rfl

/-- What a WRITE answers outside the settings load. -/
theorem exec_write_eq (p : Port) (addr : Half) (data : List Byte) (hload : s.phase ≠ .loading) :
    exec (.write p addr data) s =
      .next (((((s.writeBytes p addr.toNat addr.toNat data).feedWrites p (s.storedBy p addr.toNat data.length)).wake p
        (s.storedBy p addr.toNat data.length)).close).putOut p (List.replicate data.length 0)) := by
  show Host.Outcome.next (s.writeTransaction p addr.toNat data) = _
  unfold State.writeTransaction
  simp only [if_neg hload]

theorem captureFeed_eq (v : Byte) (now : Time) : captureFeed v now =
    if v = 0xFF then { value := 0, stamp := none, stale := false } else { value := min v.toNat 150, stamp := some now, stale := false } := rfl

/-- A stored byte of the feed, and no other, is captured for its bay (R85, R86). -/
theorem State.feedWrites_one {p : Port} {w : Window} (hw : s.windows.get p = some w) (n : BayNo) :
    s.feedWrites p [w.base + 0x40 + n.val] = s.feedByte p n (Memory.read s.ram (w.base + 0x40 + n.val)) := by
  unfold State.feedWrites
  rw [hw]
  dsimp only
  rw [foldl_only (a := n) bayNumbers _ (List.nodup_finRange 60) (List.mem_finRange n)]
  · rw [if_pos (by simp)]
  · intro t m hm
    have hval : ¬ m.val = n.val := fun e => hm (Fin.ext e)
    rw [if_neg]
    simpa using hval

/-- Settles O51: the run byte by byte, then who is told of it. -/
theorem writeStoresOwnWindow : Obligations.WriteStoresOwnWindow := by
  intro s p addr data start hit zeros unwatched
  refine ⟨fun hload => ?_, fun hload hquiet hlate hstart hunwatched => ⟨fun hfeed => ?_, fun w v n hw hsize hdata hn => ?_⟩⟩
  · show Host.Outcome.next (s.writeTransaction p addr.toNat data) = _
    unfold State.writeTransaction
    simp only [if_pos hload]; rfl
  · obtain ⟨m, denied, heq, hread, hdenied, hwf⟩ := s.writeBytes_low p hstart data start
    refine ⟨m, denied, ?_, hread, hdenied, hwf⟩
    let t : State := { s with ram := m, links := s.links.put p { s.links.get p with denied := denied } }
    have hfed : t.feedWrites p (s.storedBy p start data.length) = t :=
      State.feedWrites_idle fun w hw n hmem => hfeed w hw n (State.mem_storedBy.1 hmem).1
    have hwoken : t.wake p (s.storedBy p start data.length) = t :=
      State.wake_idle fun k hk hmem => hunwatched k hk (State.mem_storedBy.1 hmem).1
    have hput : t.putOut p zeros = { s with ram := m, links := s.links.put p { denied := denied, out := zeros } } := by
      cases p <;> rfl
    rw [exec_write_eq p addr data hload, heq, hfed, hwoken, State.close_quiet t hquiet hlate, hput]
  · intro old entry taken
    subst hdata
    have hown : s.ownWindow p start = true := by
      have hlt := n.isLt
      unfold State.ownWindow
      rw [hw]
      simp only [Window.holds, Bool.and_eq_true, decide_eq_true_eq]
      omega
    have hstored : s.storedBy p start [v].length = [w.base + 0x40 + n.val] := by
      rw [← hn]
      simp [State.storedBy, List.range_succ, hown]
    let t : State := { s with ram := Memory.write s.ram start v }
    have hbytes : s.writeBytes p start start [v] = t := by
      rw [State.writeBytes, State.writeByte, if_pos hown]; rfl
    have hbyte : Memory.read t.ram (w.base + 0x40 + n.val) = v := by rw [← hn]; exact Memory.read_write_same ..
    let fed : BayFeed := { old with entries := old.entries.put p entry, latest := if v = 0xFF then old.latest else some p }
    let u : State := { t with feeds := if taken then s.feeds.set n fed else s.feeds }
    have hfed : t.feedWrites p (s.storedBy p start [v].length) = u := by
      rw [hstored, State.feedWrites_one (s := t) hw n, hbyte]
      unfold State.feedByte
      by_cases htaken : taken
      · rw [if_pos (show t.inCount n = true ∧ (t.bay n).record.state.fromOff = true from htaken)]
        simp only [u, if_pos htaken]; rfl
      · rw [if_neg (show ¬ (t.inCount n = true ∧ (t.bay n).record.state.fromOff = true) from htaken)]
        simp only [u, if_neg htaken]; rfl
    have hwoken : u.wake p (s.storedBy p start [v].length) = u :=
      State.wake_idle fun k hk hmem => hunwatched k hk (State.mem_storedBy.1 hmem).1
    show exec (.write p addr [v]) s = .next (u.putOut p [0])
    rw [exec_write_eq p addr [v] hload, hbytes, hfed, hwoken, State.close_quiet u hquiet hlate]
    rfl

end Sys2Proof.Machine
end

