-- ==== Sys2Proof/Proofs/PortReset.lean ====
section
/-! SUPPORT. A port reset, step by step (R28, R81, R88, R127, R145, R147, R164, R175). -/

namespace Sys2Proof.Machine

variable {s : State}

/-! ### Folds over the bays -/

/-- A fold whose step at n moves only n's part: each part of a listed number is as its own step made it. -/
theorem foldl_each {β ι X : Type} {step : β → ι → β} {R : β → Prop} {g : β → ι → X} (keeps : ∀ u n, R u → R (step u n))
    (others : ∀ u n m, m ≠ n → g (step u n) m = g u m) (l : List ι) (hl : l.Nodup) (u : β) (hu : R u) :
    R (l.foldl step u) ∧ ∀ m, (m ∈ l → ∃ v, R v ∧ g v m = g u m ∧ g (l.foldl step u) m = g (step v m) m) ∧
      (m ∉ l → g (l.foldl step u) m = g u m) := by
  induction l generalizing u with
  | nil => exact ⟨hu, fun m => ⟨nofun, fun _ => rfl⟩⟩
  | cons n l ih =>
    obtain ⟨hn, hl⟩ := List.nodup_cons.1 hl
    obtain ⟨hR, heach⟩ := ih hl (step u n) (keeps u n hu)
    refine ⟨hR, fun m => ⟨fun hm => ?_, fun hm => ?_⟩⟩
    · by_cases hmn : m = n
      · subst hmn
        exact ⟨u, hu, rfl, (heach m).2 hn⟩
      · obtain ⟨v, hv, hgv, hgm⟩ := (heach m).1 ((List.mem_cons.1 hm).resolve_left hmn)
        exact ⟨v, hv, hgv.trans (others u n m hmn), hgm⟩
    · obtain ⟨hmn, hml⟩ := not_or.1 (mt List.mem_cons.2 hm)
      exact ((heach m).2 hml).trans (others u n m hmn)

/-! ### Step 1: the port's open slips (R164) -/

/-- The RAM after every open slip of a port ended ABANDONED. -/
def State.abandonedRam (p : Port) (s : State) : Memory :=
  (s.reader p).table.foldl (fun m e => writeEnd e.addr.toNat .abandoned (resultFlags e.clamped false) none s.time m) s.ram

theorem foldl_endAt (p : Port) (l : List OpenSlip) (s : State) :
    l.foldl (fun t e => t.endAt p e.addr false .abandoned (resultFlags e.clamped false) none) s =
      { s with ram := l.foldl (fun m e => writeEnd e.addr.toNat .abandoned (resultFlags e.clamped false) none s.time m) s.ram } := by
  induction l generalizing s with
  | nil => rfl
  | cons e l ih => rw [List.foldl_cons, ih]; rfl

theorem State.abandonSlips_eq (s : State) (p : Port) : s.abandonSlips p =
    { s with ram := s.abandonedRam p, readers := s.readers.put p { s.reader p with table := [] } } := by
  unfold State.abandonSlips
  rw [foldl_endAt]
  rfl

/-! ### Step 2: whom the slips are forgotten by (R28, R81, R127) -/

/-- One bay's operation without the port's slip, its record published where it changed. -/
def State.forgetAt (p : Port) (s : State) (n : BayNo) : State :=
  let op := (s.bay n).record.op.map (Operation.forget p)
  if op = (s.bay n).record.op then s else (s.setOp n op).pubBay n

/-- Bays and status area alone stand otherwise than in s, and in that the attention records as in s. -/
def State.baysOnly (s t : State) : Prop :=
  t = { s with bays := t.bays, status := t.status } ∧ t.status.attention = s.status.attention

theorem State.pubBay_attentionRecords (s : State) (n : BayNo) : (s.pubBay n).status.attention = s.status.attention := by
  unfold State.pubBay; dsimp only; split <;> rfl

theorem State.forgetAt_baysOnly {t : State} (p : Port) (n : BayNo) (h : s.baysOnly t) : s.baysOnly (t.forgetAt p n) := by
  obtain ⟨heq, hatt⟩ := h
  unfold State.forgetAt
  dsimp only
  split
  · exact ⟨heq, hatt⟩
  · refine ⟨?_, (State.pubBay_attentionRecords _ n).trans hatt⟩
    rw [State.pubBay_eq, heq]; rfl

theorem State.forgetAt_others (p : Port) (t : State) (n m : BayNo) (h : m ≠ n) : (t.forgetAt p n).bay m = t.bay m := by
  unfold State.forgetAt
  dsimp only
  split
  · rfl
  · rw [State.bay_pubBay_of_ne _ h, State.setOp, State.bay_putBay, if_neg h]

/-- An operation of a port without its slip (R28). -/
theorem Operation.forget_eq (p : Port) (o : Operation) : o.forget p = if o.origin = .slip p then { o with slip := none } else o := rfl

theorem State.forgetAt_self (p : Port) (t : State) (n : BayNo) :
    Bay.like { t.bay n with record := { (t.bay n).record with op := (t.bay n).record.op.map (Operation.forget p) } } ((t.forgetAt p n).bay n) := by
  unfold State.forgetAt
  dsimp only
  split
  next h => rw [h]; rfl
  next => rw [← State.bay_setOp_same]; exact State.pubBay_like ..

/-- Whether bay n's operation is the port's. -/
def State.opOf (s : State) (p : Port) (n : BayNo) : Bool :=
  match (s.bay n).record.op with
  | some o => o.origin == .slip p
  | none => false

theorem State.opOf_iff (p : Port) (n : BayNo) : s.opOf p n = true ↔ ∃ o, (s.bay n).record.op = some o ∧ o.origin = .slip p := by
  unfold State.opOf
  split
  next o ho => simp only [ho, beq_iff_eq, Option.some.injEq, exists_eq_left']
  next ho => simp only [ho, reduceCtorEq, false_and, exists_false]

/-- The admission queue without the port's slips. -/
def State.queueForgotten (s : State) (p : Port) : List QueueEntry :=
  s.scheduler.queue.map fun e => if s.opOf p e.bay then { e with slip := none } else e

/-- The fan check and the store operation without the port's slip. -/
def FanControl.forget (p : Port) (f : FanControl) : FanControl :=
  { f with check := f.check.map fun k => if k.origin = p then { k with slip := none } else k }
def StoreOp.forget (p : Port) : StoreOp → StoreOp
  | .storing q a image => .storing q (if q = p then Option.none else a) image
  | .reloading q a => .reloading q (if q = p then Option.none else a)
  | .none => .none

theorem StoreOp.forget_eq (p : Port) (x : StoreOp) : x.forget p = match x with
    | .none => .none
    | .storing q a image => .storing q (if q = p then Option.none else a) image
    | .reloading q a => .reloading q (if q = p then Option.none else a) := by
  cases x <;> rfl

theorem State.forgetSlips_eq (s : State) (p : Port) : ∃ bays status,
    s.forgetSlips p = { s with
      bays := bays, status := status, scheduler := { s.scheduler with queue := s.queueForgotten p }, fans := s.fans.forget p
      store := s.store.forget p } ∧
      status.attention = s.status.attention ∧
      ∀ n : BayNo, Bay.like { s.bay n with record := { (s.bay n).record with op := (s.bay n).record.op.map (Operation.forget p) } }
        (bays[n] : Bay) := by
  let t : State := { s with scheduler := { s.scheduler with queue := s.queueForgotten p } }
  obtain ⟨⟨heq, hatt⟩, heach⟩ := foldl_each (R := t.baysOnly) (g := State.bay) (fun u n => State.forgetAt_baysOnly p n)
    (fun u n m => State.forgetAt_others p u n m) bayNumbers (List.nodup_finRange 60) t ⟨rfl, rfl⟩
  refine ⟨(bayNumbers.foldl (State.forgetAt p) t).bays, (bayNumbers.foldl (State.forgetAt p) t).status, ?_, hatt, fun n => ?_⟩
  · have hforget : s.forgetSlips p = { bayNumbers.foldl (State.forgetAt p) t with
      fans := (bayNumbers.foldl (State.forgetAt p) t).fans.forget p, store := (bayNumbers.foldl (State.forgetAt p) t).store.forget p } := by
      unfold State.forgetSlips
      dsimp only
      generalize hu : bayNumbers.foldl _ _ = u
      have hu' : bayNumbers.foldl (State.forgetAt p) t = u := hu
      rw [hu']
      rfl
    rw [hforget, heq]
  · obtain ⟨v, -, hv, hn⟩ := (heach n).1 (List.mem_finRange n)
    have hself := v.forgetAt_self p n
    rw [← hn, hv] at hself
    exact hself

/-! ### Step 3: slots, floor and attention state (R81, R127, R145, R175) -/

/-- The composed channels of a bay light without the port's slots. -/
def BayLight.emptied (p : Port) (l : BayLight) : BayLight := { l with amber := l.amber.putPort p none, blue := l.blue.putPort p none }

/-- One bay's light without the port's slots. -/
def State.emptyAt (p : Port) (s : State) (n : BayNo) : State := (s.putLight n ((s.light n).emptied p)).pubLight n

/-- Bay lights and status area alone stand otherwise than in s, and in that the attention records as in s. -/
def State.bayLightsOnly (s t : State) : Prop :=
  ∃ bays status, t = { s with lights := { s.lights with bays := bays }, status := status } ∧ status.attention = s.status.attention

theorem State.pubLight_attentionRecords (s : State) (n : BayNo) : (s.pubLight n).status.attention = s.status.attention := by
  unfold State.pubLight; dsimp only; split <;> rfl

theorem Lights.eq_with_bays {l m : Lights} (henc : m.enclosure = l.enclosure) (hchain : m.chain = l.chain) : m = { l with bays := m.bays } := by
  obtain ⟨b, e, c⟩ := m
  simp only at henc hchain
  subst henc hchain
  rfl

theorem State.emptyAt_eq (p : Port) (n : BayNo) (t : State) : ∃ bays status,
    t.emptyAt p n = { t with lights := { t.lights with bays := bays }, status := status } ∧ status.attention = t.status.attention := by
  obtain ⟨-, -, henc, -⟩ := t.relit_fields n ((t.light n).emptied p)
  obtain ⟨g, hg⟩ := (t.putLight n ((t.light n).emptied p)).pubLight_lights n
  have hchain : (t.emptyAt p n).lights.chain = t.lights.chain := (congrArg Lights.chain hg).trans rfl
  have hlights : (t.emptyAt p n).lights = { t.lights with bays := (t.emptyAt p n).lights.bays } := Lights.eq_with_bays henc hchain
  have hpub : t.emptyAt p n = { t with lights := (t.emptyAt p n).lights, status := (t.emptyAt p n).status } :=
    (t.putLight n ((t.light n).emptied p)).pubLight_eq n
  exact ⟨(t.emptyAt p n).lights.bays, (t.emptyAt p n).status, hpub.trans (congrArg (fun l => { t with lights := l, status := (t.emptyAt p n).status }) hlights),
    State.pubLight_attentionRecords _ n⟩

theorem State.emptyAt_bayLightsOnly {t : State} (p : Port) (n : BayNo) (h : s.bayLightsOnly t) : s.bayLightsOnly (t.emptyAt p n) := by
  obtain ⟨b, st, heq, hatt⟩ := h
  obtain ⟨bays, status, hempty, hrecords⟩ := t.emptyAt_eq p n
  exact ⟨bays, status, by rw [hempty, heq], hrecords.trans (by rw [heq]; exact hatt)⟩

theorem State.emptyAt_others (p : Port) (t : State) (n m : BayNo) (h : m ≠ n) : (t.emptyAt p n).light m = t.light m := by
  obtain ⟨-, -, -, g, hg⟩ := t.relit_fields n ((t.light n).emptied p)
  exact (hg m).trans (if_neg h)

theorem State.emptyAt_self (p : Port) (t : State) (n : BayNo) : ∃ g, (t.emptyAt p n).light n = { (t.light n).emptied p with gen := g } := by
  obtain ⟨-, -, -, g, hg⟩ := t.relit_fields n ((t.light n).emptied p)
  exact ⟨g, (hg n).trans (if_pos rfl)⟩

theorem State.pubEnclosure_attentionRecords (s : State) : s.pubEnclosure.status.attention = s.status.attention := by
  unfold State.pubEnclosure; dsimp only; split <;> rfl

/-- The port's slots of every channel emptied, and nothing else of the lights but the generations (R145). -/
theorem State.emptyPortSlots_eq (s : State) (p : Port) : ∃ lights status,
    s.emptyPortSlots p = { s with lights := lights, status := status } ∧ status.attention = s.status.attention ∧
      lights.chain = s.lights.chain ∧ (∀ place c, (s.emptyPortSlots p).channel place c = (s.channel place c).putPort p none) ∧
      ∀ n : BayNo, (lights.bays[n] : BayLight).enable = (s.light n).enable ∧ (lights.bays[n] : BayLight).stretch = (s.light n).stretch := by
  obtain ⟨⟨bays, status, heq, hatt⟩, heach⟩ := foldl_each (R := s.bayLightsOnly) (g := State.light)
    (fun u n => State.emptyAt_bayLightsOnly p n) (fun u n m => State.emptyAt_others p u n m) bayNumbers (List.nodup_finRange 60) s
    ⟨s.lights.bays, s.status, rfl, rfl⟩
  have hdef : s.emptyPortSlots p = State.pubEnclosure
      { bayNumbers.foldl (State.emptyAt p) s with
        lights := { (bayNumbers.foldl (State.emptyAt p) s).lights with
          enclosure := { (bayNumbers.foldl (State.emptyAt p) s).lights.enclosure with
            amber := (bayNumbers.foldl (State.emptyAt p) s).lights.enclosure.amber.putPort p none
            blue := (bayNumbers.foldl (State.emptyAt p) s).lights.enclosure.blue.putPort p none } } } := by
    unfold State.emptyPortSlots
    dsimp only
    generalize hu : bayNumbers.foldl _ s = u
    have hu' : bayNumbers.foldl (State.emptyAt p) s = u := hu
    rw [hu']
  have hlight : ∀ n : BayNo, ∃ g, (bayNumbers.foldl (State.emptyAt p) s).light n = { (s.light n).emptied p with gen := g } := by
    intro n
    obtain ⟨v, -, hv, hn⟩ := (heach n).1 (List.mem_finRange n)
    obtain ⟨g, hg⟩ := v.emptyAt_self p n
    exact ⟨g, by rw [hn, hg, hv]⟩
  generalize bayNumbers.foldl (State.emptyAt p) s = u at heq hatt hdef hlight
  have henc : u.lights.enclosure = s.lights.enclosure := by rw [heq]
  let e : EnclosureLight := { u.lights.enclosure with
    amber := u.lights.enclosure.amber.putPort p none, blue := u.lights.enclosure.blue.putPort p none }
  let t : State := { u with lights := { u.lights with enclosure := e } }
  obtain ⟨-, houter, hbays, hchannels⟩ := t.pubEnclosure_lightsOnly
  have hpub : t.pubEnclosure = { t with lights := t.pubEnclosure.lights, status := t.pubEnclosure.status } := t.pubEnclosure_eq
  have hrecords : u.status.attention = s.status.attention := by rw [heq]; exact hatt
  refine ⟨t.pubEnclosure.lights, t.pubEnclosure.status, ?_, t.pubEnclosure_attentionRecords.trans hrecords, ?_, fun place c => ?_, fun n => ?_⟩
  · rw [hdef, hpub]
    show ({ u with lights := t.pubEnclosure.lights, status := t.pubEnclosure.status } : State) = _
    rw [heq]
  · refine (congrArg Outer.chain houter).trans ?_
    show u.lights.chain = _
    rw [heq]
  · rw [hdef]
    refine (hchannels place c).trans ?_
    cases place with
    | enclosure => cases c <;> simp only [State.channel, EnclosureLight.channel, t, e, henc]
    | bay n =>
      obtain ⟨g, hg⟩ := hlight n
      show (u.light n).channel c = _
      rw [hg]; cases c <;> rfl
  · obtain ⟨g, hg⟩ := hlight n
    have hn : t.pubEnclosure.lights.bays[n] = u.light n := congrArg (·[n]) hbays
    rw [hn, hg]
    exact ⟨rfl, rfl⟩

theorem State.pubSummaryIfChanged_attentionRecords (s : State) : s.pubSummaryIfChanged.status.attention = s.status.attention := by
  unfold State.pubSummaryIfChanged
  split
  · rfl
  · unfold State.pubSummary; split <;> rfl

theorem State.channel_of_lights {s t : State} (h : t.lights = s.lights) (place : LightPlace) (c : Colour) :
    t.channel place c = s.channel place c := by
  cases place <;> simp only [State.channel, State.light, h]

/-- Steps 1 to 3 but for the attention state. -/
def State.clearSlips (p : Port) (s : State) : State := (((s.abandonSlips p).forgetSlips p).emptyPortSlots p).putFloor p none

theorem State.clearSlips_eq (s : State) (p : Port) : ∃ bays lights status,
    s.clearSlips p = { s with
      ram := s.abandonedRam p, readers := s.readers.put p { s.reader p with table := [] }, bays := bays
      scheduler := { s.scheduler with queue := s.queueForgotten p }, store := s.store.forget p
      fans := { s.fans.forget p with floors := s.fans.floors.put p none }, lights := lights, status := status } ∧
      status.attention = s.status.attention ∧
      (∀ n : BayNo, Bay.like { s.bay n with record := { (s.bay n).record with op := (s.bay n).record.op.map (Operation.forget p) } }
        (bays[n] : Bay)) ∧
      lights.chain = s.lights.chain ∧ (∀ place c, (s.clearSlips p).channel place c = (s.channel place c).putPort p none) ∧
      ∀ n : BayNo, (lights.bays[n] : BayLight).enable = (s.light n).enable ∧ (lights.bays[n] : BayLight).stretch = (s.light n).stretch := by
  obtain ⟨bays, st2, h2, hatt2, hbays⟩ := (s.abandonSlips p).forgetSlips_eq p
  obtain ⟨lights, st3, h3, hatt3, hchain, hchannels, hactivity⟩ := ((s.abandonSlips p).forgetSlips p).emptyPortSlots_eq p
  rw [s.abandonSlips_eq p] at h2 hbays hatt2
  have hlights : ((s.abandonSlips p).forgetSlips p).lights = s.lights := by rw [s.abandonSlips_eq p, h2]
  have hstatus : ((s.abandonSlips p).forgetSlips p).status.attention = s.status.attention := by rw [s.abandonSlips_eq p, h2]; exact hatt2
  obtain ⟨u, hu⟩ : ∃ u, u = ((s.abandonSlips p).forgetSlips p).emptyPortSlots p := ⟨_, rfl⟩
  obtain ⟨v, hv⟩ : ∃ v : State, v = { u with fans := { u.fans with floors := u.fans.floors.put p none } } := ⟨_, rfl⟩
  have hclear : s.clearSlips p = v.pubSummaryIfChanged := by rw [hv, hu]; rfl
  have h4 : s.clearSlips p = { v with status := v.pubSummaryIfChanged.status } := hclear.trans v.pubSummaryIfChanged_eq
  rw [← hu] at h3 hchannels
  refine ⟨bays, lights, v.pubSummaryIfChanged.status, ?_, ?_, hbays, hchain.trans (congrArg Lights.chain hlights), fun place c => ?_, fun n => ?_⟩
  · rw [h4]
    generalize v.pubSummaryIfChanged.status = st4
    rw [hv, h3, s.abandonSlips_eq p, h2]
    rfl
  · have hvu : v.status = st3 := by rw [hv, h3]
    exact v.pubSummaryIfChanged_attentionRecords.trans ((congrArg Status.attention hvu).trans (hatt3.trans hstatus))
  · have hvu : (s.clearSlips p).lights = u.lights := by rw [h4, hv]
    rw [State.channel_of_lights hvu, hchannels place c, State.channel_of_lights hlights]
  · have hs : ((s.abandonSlips p).forgetSlips p).light n = s.light n := by simp only [State.light, hlights]
    rw [← hs]; exact hactivity n

theorem PerPort.put_eq_of_ne {α : Type} (x : PerPort α) {p q : Port} (v : α) (h : q ≠ p) : (x.put p v).get q = x.get q := by
  rw [PerPort.get_put, if_neg h]

theorem Port.other_ne (p : Port) : Port.other p ≠ p := by cases p <;> decide

/-- Steps 1 to 3 of a port reset. -/
theorem State.clearPort_cleared (s : State) (p : Port) (hpub : s.publishing = true) :
    PortCleared p s.windows s (s.clearPort p) ∧ (s.clearPort p).ram = s.abandonedRam p ∧
      (s.clearPort p).reader p = { s.reader p with table := [] } ∧ (s.clearPort p).feeds = s.feeds := by
  obtain ⟨bays, lights, status, hv, hatt, hbays, hchain, hchannels, hactivity⟩ := s.clearSlips_eq p
  have hv' : (s.clearSlips p).publishing = true := by rw [hv]; exact hpub
  obtain ⟨heq, hpend, hin, hgen, hother, hrec, hmarkA, hmarkB⟩ := State.clearAttention_republished hv' p
  have hc : s.clearPort p = (s.clearSlips p).clearAttention p := rfl
  have hvatt : (s.clearSlips p).attention = s.attention ∧ (s.clearSlips p).status.attention = s.status.attention ∧
      (s.clearSlips p).settings = s.settings := by rw [hv]; exact ⟨rfl, hatt, rfl⟩
  rw [hvatt.1, hvatt.2.1] at hgen
  rw [hvatt.1] at hother
  rw [hvatt.2.2] at hrec
  rw [hc]
  generalize (s.clearSlips p).clearAttention p = c at heq hpend hin hgen hother hrec hmarkA hmarkB ⊢
  have hchan : ∀ place col, c.channel place col = (s.channel place col).putPort p none := fun place col => by
    rw [← hchannels place col]
    exact State.channel_of_lights (by rw [heq]) place col
  rw [hv] at heq
  refine ⟨⟨?_, ?_, ?_, fun n => ?_, ⟨s.queueForgotten p, ?_, ?_, fun i e he => ?_⟩, ?_, ?_, ?_, ?_, hchan, fun n => ?_,
    ⟨hin, fun i => ?_, hother⟩, ⟨hrec, hmarkA, hmarkB, fun hne => ?_⟩⟩, ?_, ?_, ?_⟩
  · rw [heq]; exact congrArg Reader.table (PerPort.get_put_same ..)
  · rw [heq]; exact PerPort.get_put_other ..
  · rw [heq]
    simp only [State.outer, hchain]
    rw [StoreOp.forget_eq] <;> rfl
  · have hn : c.bay n = (bays[n] : Bay) := by rw [heq]; rfl
    rw [hn]; exact hbays n
  · rw [heq]
  · exact List.length_map ..
  · simp only [State.queueForgotten, List.getElem?_map, he, Option.map_some, Option.some.injEq]
    rw [← State.opOf_iff]
    exact ⟨fun h => if_pos h, fun h => if_neg h⟩
  · rw [heq]
  · rw [heq]
  · rw [heq]
  · rw [heq]
  · have hn : c.light n = (lights.bays[n] : BayLight) := by rw [heq]; rfl
    rw [hn]; exact hactivity n
  · rw [hpend]; simp
  · rw [hgen]
    unfold nextGen
    rw [if_pos (Option.isSome_iff_ne_none.2 hne)]
  · rw [heq]
  · rw [heq]; exact PerPort.get_put_same ..
  · rw [heq]

/-! ### Steps 4 and 5: the window (R88, R147) -/

/-- The window that a port's live setting puts in force beside the other port's (R147). -/
theorem State.validWindow_eq (s : State) (p : Port) : s.validWindow p =
    if p = .b ∧ s.straps.portB = false then none else
      match windowOf (s.settings.windows.get p), s.windows.get (Port.other p) with
      | some w, some o => if w.base < o.base + o.size ∧ o.base < w.base + w.size then none else some w
      | w, _ => w := by
  have hstrap : s.portStrapped p = !decide (p = .b ∧ s.straps.portB = false) := by
    cases p
    · rfl
    · cases hb : s.straps.portB <;> simp [State.portStrapped, hb]
  unfold State.validWindow
  rw [hstrap]
  by_cases hp : p = .b ∧ s.straps.portB = false
  · simp only [hp, and_self, decide_true, Bool.not_true, Bool.false_eq_true, if_false, if_true]
  · simp only [hp, decide_false, Bool.not_false, if_true, if_false]
    rcases windowOf (s.settings.windows.get p) with _ | v
    · rfl
    · rcases s.windows.get (Port.other p) with _ | o
      · rfl
      · simp only [Window.overlaps, Bool.and_eq_true, decide_eq_true_eq]

/-- The window put in force, a moved one cleared. -/
def State.windowRam (s : State) (p : Port) (w : Option Window) : Memory :=
  match w with
  | some v => if s.windows.get p = some v then s.ram else Memory.clear s.ram v.base v.size
  | none => s.ram

theorem State.windowRam_cases {p : Port} {m : Memory} {x : Option Window} (hram : s.ram = m) (hx : s.windows.get p = x) (w : Option Window) :
    match w with
      | some v => s.windowRam p w = if x = some v then m else Memory.clear m v.base v.size
      | none => s.windowRam p w = m := by
  subst hram hx
  cases w <;> rfl

/-- The port's feed, voided unless its window stays. -/
def State.windowFeeds (s : State) (p : Port) (w : Option Window) : Vector BayFeed 60 :=
  if w ≠ none ∧ s.windows.get p = w then s.feeds else s.feeds.map fun f => { f with entries := f.entries.put p .void }

theorem State.resetWindow_eq (s : State) (p : Port) : s.resetWindow p = { s with
    windows := s.windows.put p (s.validWindow p), ram := s.windowRam p (s.validWindow p), feeds := s.windowFeeds p (s.validWindow p) } := by
  unfold State.resetWindow State.windowRam State.windowFeeds
  generalize s.validWindow p = w
  dsimp only
  rcases w with _ | v
  · rw [if_neg (by simp)]; rfl
  · by_cases hv : s.windows.get p = some v
    · simp only [hv, if_true, ne_eq, reduceCtorEq, not_false_eq_true, and_self]
    · simp only [hv, if_false, and_false]; rfl

theorem State.windowFeeds_get (s : State) (p : Port) (w : Option Window) (n : BayNo) :
    (w ≠ none ∧ s.windows.get p = w → (s.windowFeeds p w)[n] = s.feed n) ∧
      (¬ (w ≠ none ∧ s.windows.get p = w) →
        (s.windowFeeds p w)[n] = { s.feed n with entries := (s.feed n).entries.put p { value := 0, stamp := none, stale := false } }) := by
  unfold State.windowFeeds
  refine ⟨fun h => by rw [if_pos h]; rfl, fun h => ?_⟩
  rw [if_neg h]
  exact Vector.getElem_map ..

/-- What the window and the reader alone move leaves a cleared port cleared. -/
theorem PortCleared.windowed {p : Port} {c : State} (h : PortCleared p s.windows s c) (w : Option Window) (m : Memory)
    (f : Vector BayFeed 60) (r : Reader) (hr : r.table = []) :
    PortCleared p (s.windows.put p w) s { c with windows := s.windows.put p w, ram := m, feeds := f, readers := c.readers.put p r } where
  table := (congrArg Reader.table (PerPort.get_put_same ..)).trans hr
  other := (PerPort.get_put_other ..).trans h.other
  outer := congrArg (fun o : Outer => { o with windows := s.windows.put p w }) h.outer
  bays := h.bays
  queue := h.queue
  lines := h.lines
  account := h.account
  reports := h.reports
  late := h.late
  channels := h.channels
  enable := h.enable
  attention := h.attention
  record := h.record

/-! ### Step 6: the reader (R164) -/

theorem State.republishReader_fields (s : State) (p : Port) : ((s.republishReader p).reader p).state = (s.reader p).state ∧
    ((s.republishReader p).reader p).watch = (s.reader p).watch := by
  unfold State.republishReader
  split
  · exact ⟨rfl, rfl⟩
  · cases p <;> exact ⟨rfl, rfl⟩

theorem State.restartReader_none {p : Port} (h : s.windows.get p = none) : s.restartReader p = (s.rest p .disabled 0).republishReader p := by
  unfold State.restartReader; rw [h]

theorem State.restartReader_some {p : Port} {w : Window} (h : s.windows.get p = some w) :
    s.restartReader p = (s.walk p walkFuel (.link (BitVec.ofNat 16 (w.base + 0x1C)))).republishReader p := by
  unfold State.restartReader; rw [h]

theorem State.walk_linkEnd {p : Port} {fuel : Nat} {word : Half} (h : Memory.read16 s.ram word.toNat = 0) :
    s.walk p (fuel + 1) (.link word) = s.rest p .parked word := by
  rw [State.walk]; exact if_pos h

theorem State.rest_reader (s : State) (p : Port) (st : ReaderState) (watch : Half) :
    (s.rest p st watch).reader p = { s.reader p with state := st, watch := watch } := PerPort.get_put_same ..

theorem exec_portReset {p : Port} (v : Byte) (hload : s.phase ≠ .loading) (hw : s.ownWindow p 0x8002 = false) :
    exec (.portReset p v) s = .next ((s.resetPort p).close.putOut p [0]) := by
  show Host.Outcome.next (s.writeTransaction p 0x8002 [v]) = _
  rw [State.writeTransaction_register v hload hw, State.writeByte, if_neg (by rw [hw]; decide)]
  rfl

/-- Settles O53: steps 1 to 3 as `PortCleared`, then the window, then the reader. -/
theorem portResetSteps : Obligations.PortResetSteps := by
  intro s p v hw inForce kept ended
  refine ⟨fun hrun => ?_, fun hstarting => ?_⟩
  · obtain ⟨cleared, ram, reader, feeds⟩ := s.clearPort_cleared p (State.publishing_running hrun)
    obtain ⟨t, ht⟩ : ∃ t, t = s.clearPort p := ⟨_, rfl⟩
    rw [← ht] at cleared ram reader feeds
    have hwindows : t.windows = s.windows := congrArg Outer.windows cleared.outer
    have hvalid : t.validWindow p = inForce := by
      have hstraps : t.straps = s.straps := congrArg Outer.straps cleared.outer
      have hsettings : t.settings = s.settings := congrArg Outer.settings cleared.outer
      rw [State.validWindow_eq, hstraps, hsettings, hwindows] <;> rfl
    let r : Reader := { t.reader p with state := .disabled, cursor := 0, watch := 0, badWord := 0, badLink := 0 }
    let c : State := { t with
      windows := s.windows.put p inForce, ram := t.windowRam p inForce, feeds := t.windowFeeds p inForce, readers := t.readers.put p r }
    have hc : (t.resetWindow p).clearReader p = c := by rw [State.resetWindow_eq, hvalid, hwindows]; rfl
    have hreader : c.reader p = r := PerPort.get_put_same ..
    have hforce : c.windows.get p = inForce := PerPort.get_put_same ..
    have hphase : t.phase = .running := (congrArg Outer.phase cleared.outer).trans hrun
    refine ⟨c, ?_, cleared.windowed inForce _ _ r (by show (t.reader p).table = []; exact cleared.table), ?_, ?_, ?_, ?_, ?_, ?_, fun n => ?_,
      fun hnone => ?_, fun w hsome hlink => ?_, fun w hsome => State.restartReader_some (hforce.trans hsome)⟩
    · rw [exec_portReset v (by rw [hrun]; decide) hw, ← hc, ht]
      unfold State.resetPort
      dsimp only
      rw [if_neg (by rw [hrun]; decide)]
    · exact State.windowRam_cases ram (by rw [hwindows]) inForce
    · rw [hreader]
    · rw [hreader]
    · rw [hreader]
    · rw [hreader]
    · rw [hreader]
    · obtain ⟨hkept, hmoved⟩ := t.windowFeeds_get p inForce n
      have hfeed : t.feed n = s.feed n := congrArg (·[n]) feeds
      rw [hwindows, hfeed] at hkept hmoved
      exact ⟨hkept, hmoved⟩
    · rw [State.restartReader_none (hforce.trans hnone), (State.republishReader_fields _ p).1, (State.republishReader_fields _ p).2,
        State.rest_reader]
      exact ⟨rfl, rfl⟩
    · rw [State.restartReader_some (hforce.trans hsome), (State.republishReader_fields _ p).1, (State.republishReader_fields _ p).2,
        show walkFuel = 4099 + 1 from rfl, State.walk_linkEnd hlink, State.rest_reader]
      exact ⟨rfl, rfl⟩
  · have hpub : s.publishing = true := by unfold State.publishing; rw [hstarting]; rfl
    obtain ⟨cleared, ram, reader, feeds⟩ := s.clearPort_cleared p hpub
    refine ⟨s.clearPort p, ?_, cleared, ram, reader, feeds⟩
    rw [exec_portReset v (by rw [hstarting]; decide) hw]
    unfold State.resetPort
    dsimp only
    rw [if_pos hstarting]

end Sys2Proof.Machine
end

