-- ==== Sys2Proof/Proofs/ReaderWalk.lean ====
section
/-! SUPPORT. The slip readers: takes by command code, the readings of a walk, and what wakes a reader (R155 to R159, R161, R185). -/

namespace Sys2Proof.Machine

variable {s : State}

/-! ### A take by its command code (R158, Table 11-7) -/

/-- The copy that a reader takes of the slip at an address. -/
def State.copyAt (s : State) (addr : Half) : SlipCopy := { mem := s.ram, addr := addr.toNat }

theorem State.takeAt_code {p : Port} {addr : Half} {code : Byte} (hcode : Memory.read s.ram (addr.toNat + 2) = code) :
    s.takeAt p addr = ((s.markTaken addr).dispatch ((s.copyAt addr).head p addr) code (s.copyAt addr)).settle := by
  subst hcode; rfl

/-- SET_ZONE by its target and its part selector (R97, R98). -/
theorem State.setZoneSlip_cases (h : SlipHead) (c : SlipCopy) :
    (h.target = 0xFE → s.setZoneSlip h c = s.setStaleTimeSlip h (c.half 4)) ∧
      (h.target ≠ 0xFE → 4 ≤ h.target.toNat → s.setZoneSlip h c = s.refuse h .badTarget) ∧
      (h.target.toNat < 4 → c.byte 4 = 0 → s.setZoneSlip h c = s.setCurveSlip h c.curveArgs) ∧
      (h.target.toNat < 4 → c.byte 4 = 1 → s.setZoneSlip h c = s.setLimitsSlip h c.limitsArgs) ∧
      (h.target.toNat < 4 → c.byte 4 ≠ 0 → c.byte 4 ≠ 1 → s.setZoneSlip h c = s.refuse h .badValue) := by
  have small : h.target.toNat < 4 → h.target ≠ enclosureTarget := by
    intro hlt e
    rw [e] at hlt
    exact absurd hlt (by decide)
  unfold State.setZoneSlip
  refine ⟨fun h1 => if_pos h1, fun h1 h4 => ?_, fun h4 h0 => ?_, fun h4 h1 => ?_, fun h4 h0 h1 => ?_⟩
  · rw [if_neg (show h.target ≠ enclosureTarget from h1), if_pos h4]
  · rw [if_neg (small h4), if_neg (by omega), if_pos h0]
  · rw [if_neg (small h4), if_neg (by omega), if_neg (by rw [h1]; decide), if_pos h1]
  · rw [if_neg (small h4), if_neg (by omega), if_neg h0, if_neg h1]

/-- The command codes of Table 7-6. -/
def commandCodes : List Nat :=
  [0x01, 0x02, 0x10, 0x11, 0x12, 0x13, 0x14, 0x20, 0x21, 0x22, 0x30, 0x31, 0x40, 0x41, 0x50, 0x51, 0x52, 0x60, 0x61, 0x70, 0x80, 0x81, 0x82]

theorem State.dispatch_unknown {h : SlipHead} {code : Byte} {c : SlipCopy} (hcode : code.toNat ∉ commandCodes) :
    s.dispatch h code c = s.refuse h .badCommand := by
  unfold State.dispatch
  split
  all_goals first | rfl | (rename_i heq; exact absurd (heq ▸ by decide) hcode)

/-! ### The readings of a walk (R155 to R157, R161) -/

theorem Window.isSlip_iff (w : Window) (a : Nat) :
    w.isSlip a = true ↔ a % 32 = 0 ∧ w.base + 0x80 ≤ a ∧ a + 32 ≤ w.base + w.size := by
  simp only [Window.isSlip, Bool.and_eq_true, decide_eq_true_eq, and_assoc]

/-- A valid link (R156). -/
theorem State.linkValid_iff (s : State) (p : Port) (link : Half) : s.linkValid p link = true ↔
    ∃ w, s.windows.get p = some w ∧ link.toNat % 32 = 0 ∧ w.base + 0x80 ≤ link.toNat ∧ link.toNat + 32 ≤ w.base + w.size ∧
      ∀ e ∈ (s.reader p).table, e.addr ≠ link := by
  unfold State.linkValid
  rcases s.windows.get p with _ | w
  · simp
  · simp only [Bool.and_eq_true, Window.isSlip_iff, Option.some.injEq, exists_eq_left', and_assoc, State.findOpen, Option.isNone_iff_eq_none,
      List.find?_eq_none, beq_iff_eq, ne_eq]

theorem State.walk_linkValid {p : Port} {fuel : Nat} {word : Half} (h0 : Memory.read16 s.ram word.toNat ≠ 0)
    (hvalid : s.linkValid p (Memory.read16 s.ram word.toNat) = true) :
    s.walk p (fuel + 1) (.link word) = (s.toCursor p (Memory.read16 s.ram word.toNat)).walk p fuel .post := by
  rw [State.walk]
  exact (if_neg h0).trans (if_pos hvalid)

theorem State.walk_linkInvalid {p : Port} {fuel : Nat} {word : Half} (h0 : Memory.read16 s.ram word.toNat ≠ 0)
    (hvalid : ¬ s.linkValid p (Memory.read16 s.ram word.toNat) = true) :
    s.walk p (fuel + 1) (.link word) = s.chainFault p word (Memory.read16 s.ram word.toNat) := by
  rw [State.walk]
  exact (if_neg h0).trans (if_neg hvalid)

theorem State.chainFault_eq (s : State) (p : Port) (word link : Half) : s.chainFault p word link =
    { s.putReader p { s.reader p with state := .chainFault, watch := word, badWord := word, badLink := link } with
      late := s.late ++ (if (s.reader p).state = .chainFault then [] else [(p, srcChainFault)]) } := by
  unfold State.chainFault
  dsimp only
  split
  · rw [List.append_nil]; rfl
  · rfl

theorem State.hasRoom_iff (s : State) (p : Port) : s.hasRoom p = true ↔ (s.reader p).table.length < 16 := by
  unfold State.hasRoom; exact decide_eq_true_iff

/-- What a reader makes of its cursor's state byte (R157, R158, R159). -/
theorem State.walk_post (s : State) (p : Port) (fuel : Nat) : s.walk p (fuel + 1) .post =
    if Memory.read s.ram (s.reader p).cursor.toNat ≠ 1 then s.rest p .waitingPost (s.reader p).cursor
    else if s.hasRoom p then
      if holdAfter (Memory.read s.ram ((s.reader p).cursor.toNat + 1)) then
        (s.takeAt p (s.reader p).cursor).rest p .held ((s.reader p).cursor + 1)
      else State.walk p fuel (.link ((s.reader p).cursor + 28)) (s.takeAt p (s.reader p).cursor)
    else s.rest p .waitingRoom 0 := by
  rw [State.walk]

/-! ### What wakes a reader (R155, R157) -/

/-- A stored run touches one of the first `len` bytes of a port's watched word. -/
def State.touched (s : State) (p : Port) (stored : List Nat) (len : Nat) : Bool :=
  (List.range len).any fun k => stored.contains ((s.reader p).watch.toNat + k)

theorem State.touched_one {p : Port} {stored : List Nat} : s.touched p stored 1 = true ↔ (s.reader p).watch.toNat ∈ stored := by
  simp [State.touched]

theorem State.touched_two {p : Port} {stored : List Nat} :
    s.touched p stored 2 = true ↔ (s.reader p).watch.toNat ∈ stored ∨ (s.reader p).watch.toNat + 1 ∈ stored := by
  simp [State.touched, List.range_succ]

theorem State.wake_link {p : Port} {stored : List Nat} (hst : (s.reader p).state = .parked ∨ (s.reader p).state = .chainFault)
    (ht : s.touched p stored 2 = true) : s.wake p stored = s.walkFrom p (.link (s.reader p).watch) := by
  unfold State.wake
  dsimp only
  obtain hst | hst := hst <;> rw [hst] <;> exact if_pos ht

theorem State.wake_post {p : Port} {stored : List Nat} (hst : (s.reader p).state = .waitingPost) (ht : s.touched p stored 1 = true) :
    s.wake p stored = s.walkFrom p .post := by
  unfold State.wake
  dsimp only
  rw [hst]
  exact if_pos ht

theorem State.wake_held {p : Port} {stored : List Nat} (hst : (s.reader p).state = .held) (ht : s.touched p stored 1 = true) :
    s.wake p stored = if (Memory.read s.ram (s.reader p).watch.toNat).getLsbD 1 = true then s
      else s.walkFrom p (.link ((s.reader p).cursor + 28)) := by
  unfold State.wake
  dsimp only
  rw [hst]
  by_cases hb : (Memory.read s.ram (s.reader p).watch.toNat).getLsbD 1 = true
  · rw [if_pos hb]
    exact if_neg fun h => by rw [show holdAfter _ = true from hb] at h; exact absurd h.2 (by decide)
  · rw [if_neg hb]
    exact if_pos ⟨ht, Bool.eq_false_iff.2 hb⟩

/-- A WRITE within the port's own window stores every byte of its run. -/
theorem State.writeBytes_own (p : Port) (start : Nat) (data : List Byte) (a : Nat) (s : State)
    (hown : ∀ x, a ≤ x → x < a + data.length → s.ownWindow p x = true) :
    s.writeBytes p start a data = { s with ram := Memory.writeRun s.ram a data } := by
  induction data generalizing a s with
  | nil => rfl
  | cons v t ih =>
    have hlen : (v :: t).length = t.length + 1 := rfl
    have hstep : s.writeByte p start a v = { s with ram := Memory.write s.ram a v } := by
      rw [State.writeByte, if_pos (hown a (Nat.le_refl a) (by omega))]
    rw [State.writeBytes, hstep, ih (a + 1) { s with ram := Memory.write s.ram a v } fun x h1 h2 => hown x (by omega) (by omega)]
    rfl

/-- Settles O54: the take by code, the walk by what it reads, the wake by the state of the reader. -/
theorem readerFollowsChain : Obligations.ReaderFollowsChain := by
  refine ⟨fun s c h hc ht => exec_slip_taken c h s hc ht, fun s p addr => ?_, fun s p fuel => ?_⟩
  · intro b w g gw lim limw h taken does ends
    have code : ∀ {k : Byte}, b 2 = k → s.takeAt p addr = (taken.dispatch h k (s.copyAt addr)).settle := fun hk => State.takeAt_code hk
    obtain ⟨zoneAll, zoneBad, zoneCurve, zoneLimits, zonePart⟩ := taken.setZoneSlip_cases h (s.copyAt addr)
    have zone : ∀ {t : State}, b 2 = 0x40 → taken.setZoneSlip h (s.copyAt addr) = t → s.takeAt p addr = t.settle := fun hk ht => by
      rw [← ht]; exact code hk
    have supply : ∀ {t : State}, b 2 = 0x30 → taken.setSupplySlip h (s.copyAt addr) = t → s.takeAt p addr = t.settle := fun hk ht => by
      rw [← ht]; exact code hk
    refine ⟨code, code, code, code, code, code, code, code, code, code, fun hk ht => supply hk (if_neg ht), fun hk ht => supply hk (if_pos ht), code,
      fun hk ht => zone hk (zoneAll ht), fun hk ht h4 => zone hk (zoneBad ht h4), fun hk h4 h0 => zone hk (zoneCurve h4 h0),
      fun hk h4 h1 => zone hk (zoneLimits h4 h1), fun hk h4 h0 h1 => zone hk (zonePart h4 h0 h1), code, code, code, code, code, code, code, code, code,
      code, fun hk => ?_⟩
    have hdispatch : taken.dispatch h (b 2) (s.copyAt addr) = taken.refuse h .badCommand := State.dispatch_unknown hk
    exact (code rfl).trans (congrArg State.settle hdispatch)
  · intro r state
    refine ⟨fun word => ?_, fun hne => ?_, fun hposted hfull => ?_, fun hposted hroom => ?_, fun hrun hst hroom => ?_, fun addr data hload hlow => ?_⟩
    · intro link valid
      have hvalid : s.linkValid p link = true ↔ valid := s.linkValid_iff p link
      refine ⟨fun h0 => State.walk_linkEnd h0, fun h0 hv => State.walk_linkValid h0 (hvalid.2 hv), fun h0 hv => ?_⟩
      rw [State.walk_linkInvalid h0 (mt hvalid.1 hv), State.chainFault_eq]
    · rw [State.walk_post, if_pos (show Memory.read s.ram (s.reader p).cursor.toNat ≠ 1 from hne)]; rfl
    · rw [State.walk_post, if_neg (not_not.2 (show Memory.read s.ram (s.reader p).cursor.toNat = 1 from hposted)),
        if_neg (mt (s.hasRoom_iff p).1 (show ¬ (s.reader p).table.length < 16 from by have : 16 ≤ (s.reader p).table.length := hfull; omega))]
      rfl
    · rw [State.walk_post, if_neg (not_not.2 (show Memory.read s.ram (s.reader p).cursor.toNat = 1 from hposted)),
        if_pos ((s.hasRoom_iff p).2 hroom)]
      rfl
    · show Host.Outcome.next _ = _
      rw [if_pos ⟨hrun, hst, (s.hasRoom_iff p).2 hroom⟩]; rfl
    · intro hit hwin hwindow u then'
      obtain ⟨w, hw⟩ := Option.ne_none_iff_exists'.1 hwindow
      obtain ⟨hfeed, hholds⟩ := hwin w hw
      have hown : ∀ x, hit x → s.ownWindow p x = true := fun x hx => by
        unfold State.ownWindow; rw [hw]; exact hholds x hx
      have hstored : ∀ x, x ∈ s.storedBy p addr.toNat data.length ↔ hit x := fun x =>
        State.mem_storedBy.trans ⟨fun h => h.1, fun h => ⟨h, hown x h⟩⟩
      have hbytes : s.writeBytes p addr.toNat addr.toNat data = u :=
        State.writeBytes_own p addr.toNat data addr.toNat s fun x h1 h2 => hown x ⟨h1, h2⟩
      have hfed : u.feedWrites p (s.storedBy p addr.toNat data.length) = u := by
        refine State.feedWrites_idle fun w' hw' n hmem => ?_
        obtain rfl : w = w' := Option.some.inj (hw.symm.trans hw')
        exact hfeed n ((hstored _).1 hmem)
      have woken : ∀ {v : State}, u.wake p (s.storedBy p addr.toNat data.length) = v → then' v := fun hv => by
        show exec (.write p addr data) s = _
        rw [exec_write_eq p addr data hload, hbytes, hfed, hv]
      refine ⟨fun hst ht => woken ?_, fun hst ht => woken ?_, fun hst ht => woken ?_⟩
      · exact State.wake_link (s := u) hst (State.touched_two.2 (ht.imp (hstored _).2 (hstored _).2))
      · exact State.wake_post (s := u) hst (State.touched_one.2 ((hstored _).2 ht))
      · exact State.wake_held (s := u) hst (State.touched_one.2 ((hstored _).2 ht))

end Sys2Proof.Machine
end

