-- ==== Sys2Proof/Proofs/Reads.lean ====
section
/-! SUPPORT. READ transactions (R146, R149, R168, R173): the bytes served and the bitmap positions cleared. -/

namespace Sys2Proof.Machine

variable {s : State}

theorem exec_read (p : Port) (addr : Half) (count : Nat) (s : State) :
    exec (.read p addr count) s = .next ((s.readRun p addr.toNat count addr.toNat).2.putOut p (s.readRun p addr.toNat count addr.toNat).1) := rfl

/-- A run of bytes that all read as one value and change nothing. -/
theorem State.readRun_const (p : Port) (start : Nat) (v : Byte) (n a : Nat)
    (h : ∀ b, a ≤ b → s.readByte p start b = (v, s)) : s.readRun p start n a = (List.replicate n v, s) := by
  induction n generalizing a with
  | zero => rfl
  | succ n ih =>
    rw [State.readRun, h a (Nat.le_refl a), ih (a + 1) fun b hb => h b (by omega)]
    rfl

/-- Where a port's own change bitmap begins (Table 11-8). -/
def bitmapBase : Port → Nat
  | .a => 0x00D0
  | .b => 0x00E0

theorem ownBitmapByte_eq (p : Port) (a : Nat) : ownBitmapByte p a =
    if bitmapBase p ≤ a ∧ a < bitmapBase p + 10 then some (a - bitmapBase p) else none := by cases p <;> rfl

/-- The state with other change bitmaps. -/
def State.withMaps (s : State) (maps : PerPort (BitVec 80)) : State := { s with status := { s.status with bitmaps := maps } }

/-- The bitmaps after the bytes from `start` up to `a` were served to port p: its own positions among them clear (R168). -/
structure Served (s : State) (p : Port) (start a : Nat) (maps : PerPort (BitVec 80)) : Prop where
  other : maps.get (Port.other p) = s.status.bitmaps.get (Port.other p)
  own   : ∀ i, i < 80 → (maps.get p).getLsbD i =
    ((s.status.bitmaps.get p).getLsbD i && !(decide (start ≤ bitmapBase p + i / 8) && decide (bitmapBase p + i / 8 < a)))

theorem Served.nothing (s : State) (p : Port) (start : Nat) : Served s p start start s.status.bitmaps := by
  refine ⟨rfl, fun i _ => ?_⟩
  have hno : (decide (start ≤ bitmapBase p + i / 8) && decide (bitmapBase p + i / 8 < start)) = false := by
    rw [← Bool.decide_and]; exact decide_eq_false (by omega)
  rw [hno]; simp

/-- Bit j of byte k of a change bitmap (section 11.4). -/
theorem getLsbD_bitmapByte (b : BitVec 80) (k : Nat) {j : Nat} (hj : j < 8) : (bitmapByte b k).getLsbD j = b.getLsbD (8 * k + j) := by
  unfold bitmapByte
  rw [BitVec.getLsbD_extractLsb', decide_eq_true hj, Bool.true_and]

/-- A byte of a bitmap not yet served is as it was. -/
theorem Served.bitmapByte {p : Port} {start a : Nat} {maps : PerPort (BitVec 80)} (h : Served s p start a maps) {k : Nat} (hk : k < 10)
    (ha : a ≤ bitmapBase p + k) : bitmapByte (maps.get p) k = bitmapByte (s.status.bitmaps.get p) k := by
  refine BitVec.eq_of_getLsbD_eq fun j hj => ?_
  have hdiv : (8 * k + j) / 8 = k := by omega
  rw [getLsbD_bitmapByte _ _ hj, getLsbD_bitmapByte _ _ hj, h.own _ (by omega), hdiv, decide_eq_false (by omega : ¬ bitmapBase p + k < a)]
  simp

theorem State.statusByte_bitmapA (s : State) {k : Nat} (hk : k < 10) : s.statusByte (0x00D0 + k) = Machine.bitmapByte s.status.bitmaps.a k := by
  unfold State.statusByte
  dsimp only
  rw [if_neg (by omega), if_neg (by omega), if_neg (by omega), if_pos (by omega), Nat.add_sub_cancel_left]

theorem State.statusByte_bitmapB (s : State) {k : Nat} (hk : k < 10) : s.statusByte (0x00E0 + k) = Machine.bitmapByte s.status.bitmaps.b k := by
  unfold State.statusByte
  dsimp only
  rw [if_neg (by omega), if_neg (by omega), if_neg (by omega), if_neg (by omega), if_neg (by omega), if_pos (by omega), Nat.add_sub_cancel_left]

/-- The byte of the status area at an address outside both change bitmaps. -/
theorem State.statusByte_apart (s : State) (maps : PerPort (BitVec 80)) {x : Nat} (ha : ¬ (0x00D0 ≤ x ∧ x < 0x00DA))
    (hb : ¬ (0x00E0 ≤ x ∧ x < 0x00EA)) : (s.withMaps maps).statusByte x = s.statusByte x := by
  unfold State.statusByte
  refine ite_congr rfl (fun _ => rfl) fun _ => ite_congr rfl (fun _ => rfl) fun _ => ite_congr rfl (fun _ => rfl) fun _ =>
    ite_congr rfl (fun _ => absurd ⟨by omega, by omega⟩ ha) fun _ => ite_congr rfl (fun _ => rfl) fun _ =>
    ite_congr rfl (fun _ => absurd ⟨by omega, by omega⟩ hb) fun _ => rfl

/-- The byte of the status area at an address not yet served to port p. -/
theorem Served.statusByte {p : Port} {start a x : Nat} {maps : PerPort (BitVec 80)} (h : Served s p start a maps) (hx : a ≤ x) :
    (s.withMaps maps).statusByte x = s.statusByte x := by
  have hmap : ∀ q k, k < 10 → a ≤ bitmapBase q + k → Machine.bitmapByte (maps.get q) k = Machine.bitmapByte (s.status.bitmaps.get q) k := by
    intro q k hk hak
    by_cases hq : q = p
    · subst hq; exact h.bitmapByte hk hak
    · obtain rfl : q = Port.other p := by cases p <;> cases q <;> first | rfl | exact absurd rfl hq
      rw [h.other]
  by_cases hA : 0x00D0 ≤ x ∧ x < 0x00DA
  · obtain ⟨k, rfl⟩ := Nat.exists_eq_add_of_le hA.1
    have hk : k < 10 := by omega
    rw [State.statusByte_bitmapA _ hk, State.statusByte_bitmapA _ hk]
    exact hmap .a k hk hx
  · by_cases hB : 0x00E0 ≤ x ∧ x < 0x00EA
    · obtain ⟨k, rfl⟩ := Nat.exists_eq_add_of_le hB.1
      have hk : k < 10 := by omega
      rw [State.statusByte_bitmapB _ hk, State.statusByte_bitmapB _ hk]
      exact hmap .b k hk hx
    · exact s.statusByte_apart maps hA hB

/-- The byte that a READ from below the registers serves at an address (R146, R149). -/
def State.servedByte (s : State) (x : Nat) : Byte :=
  if x < 0x2000 then s.statusByte x
  else if x < 0x8000 ∧ (s.ownWindow .a x = true ∨ s.ownWindow .b x = true) then Memory.read s.ram x
  else 0

theorem State.windowByte_eq (s : State) (x : Nat) :
    s.windowByte x = if s.ownWindow .a x = true ∨ s.ownWindow .b x = true then Memory.read s.ram x else 0 := by
  unfold State.windowByte State.ownWindow
  simp only [Bool.or_eq_true]
  rfl

/-- Serving one byte of the own bitmap clears its eight positions (R168). -/
theorem Served.clear {p : Port} {start a : Nat} {maps : PerPort (BitVec 80)} (h : Served s p start a maps) {k : Nat}
    (ha : a = bitmapBase p + k) (hstart : start ≤ a) :
    Served s p start (a + 1)
      (maps.put p (maps.get p &&& ~~~((Machine.bitmapByte (maps.get p) k).setWidth 80 <<< (8 * k)))) := by
  refine ⟨(PerPort.get_put_other ..).trans h.other, fun i hi => ?_⟩
  rw [PerPort.get_put_same, BitVec.getLsbD_and, BitVec.getLsbD_not, BitVec.getLsbD_shiftLeft, BitVec.getLsbD_setWidth, h.own i hi,
    decide_eq_true hi, Bool.true_and, Bool.true_and]
  by_cases hik : i / 8 = k
  · have hj : i - 8 * k < 8 := by omega
    have hbit : (Machine.bitmapByte (maps.get p) k).getLsbD (i - 8 * k) = (maps.get p).getLsbD i := by
      rw [getLsbD_bitmapByte _ _ hj]; congr 1; omega
    rw [hbit, h.own i hi, hik, ← ha, decide_eq_true hstart, decide_eq_true (by omega : a < a + 1), decide_eq_false (by omega : ¬ a < a),
      decide_eq_true (by omega : i - 8 * k < 80), decide_eq_false (by omega : ¬ i < 8 * k)]
    cases (s.status.bitmaps.get p).getLsbD i <;> rfl
  · have hout : (!(decide (i < 8 * k)) && (decide (i - 8 * k < 80) && (Machine.bitmapByte (maps.get p) k).getLsbD (i - 8 * k))) = false := by
      by_cases hlt : i < 8 * k
      · simp [hlt]
      · rw [BitVec.getLsbD_of_ge _ _ (by omega)]; simp
    have hsame : decide (bitmapBase p + i / 8 < a + 1) = decide (bitmapBase p + i / 8 < a) := decide_eq_decide.2 (by omega)
    rw [hout, hsame]; simp

/-- A byte that lies in no own bitmap clears nothing. -/
theorem Served.pass {p : Port} {start a : Nat} {maps : PerPort (BitVec 80)} (h : Served s p start a maps)
    (ha : ¬ (bitmapBase p ≤ a ∧ a < bitmapBase p + 10)) : Served s p start (a + 1) maps := by
  refine ⟨h.other, fun i hi => ?_⟩
  rw [h.own i hi, show decide (bitmapBase p + i / 8 < a + 1) = decide (bitmapBase p + i / 8 < a) from decide_eq_decide.2 (by omega)]

/-- One byte of a READ that starts below the registers. -/
theorem State.readByte_low {p : Port} {start a : Nat} {maps : PerPort (BitVec 80)} (hload : s.phase ≠ .loading) (hlow : start < 0x8000)
    (hstart : start ≤ a) (h : Served s p start a maps) :
    ∃ maps', (s.withMaps maps).readByte p start a = (s.servedByte a, s.withMaps maps') ∧ Served s p start (a + 1) maps' := by
  unfold State.readByte State.servedByte
  rw [if_neg (show (s.withMaps maps).phase ≠ .loading from hload)]
  by_cases h2 : a < 0x2000
  · rw [if_pos h2, if_pos h2, h.statusByte (Nat.le_refl a), ownBitmapByte_eq]
    by_cases hown : bitmapBase p ≤ a ∧ a < bitmapBase p + 10
    · rw [if_pos hown]
      obtain ⟨k, hk⟩ := Nat.exists_eq_add_of_le hown.1
      have hka : a - bitmapBase p = k := by omega
      refine ⟨maps.put p (maps.get p &&& ~~~((Machine.bitmapByte (maps.get p) k).setWidth 80 <<< (8 * k))), ?_, h.clear hk hstart⟩
      dsimp only
      rw [hka]; rfl
    · rw [if_neg hown]
      exact ⟨maps, rfl, h.pass hown⟩
  · rw [if_neg h2, if_neg h2]
    have hno : ¬ (bitmapBase p ≤ a ∧ a < bitmapBase p + 10) := by
      cases p <;> simp only [bitmapBase] <;> omega
    refine ⟨maps, ?_, h.pass hno⟩
    by_cases h8 : a < 0x8000
    · rw [if_pos h8, State.windowByte_eq]
      simp only [h8, true_and]; rfl
    · rw [if_neg h8, if_pos hlow, if_neg (fun h => h8 h.1)]

/-- The bytes of a READ that starts below the registers (R149, R168). -/
theorem State.readRun_low {p : Port} {start : Nat} (hload : s.phase ≠ .loading) (hlow : start < 0x8000) (n a : Nat) (hstart : start ≤ a)
    (maps : PerPort (BitVec 80)) (h : Served s p start a maps) :
    ∃ maps', (s.withMaps maps).readRun p start n a = ((List.range n).map fun k => s.servedByte (a + k), s.withMaps maps') ∧
      Served s p start (a + n) maps' := by
  induction n generalizing a maps with
  | zero => exact ⟨maps, rfl, h⟩
  | succ n ih =>
    obtain ⟨maps1, hbyte, h1⟩ := State.readByte_low hload hlow hstart h
    obtain ⟨maps2, hrun, h2⟩ := ih (a + 1) (by omega) maps1 h1
    refine ⟨maps2, ?_, by rw [show a + (n + 1) = a + 1 + n by omega]; exact h2⟩
    rw [State.readRun, hbyte, hrun, List.range_succ_eq_map, List.map_cons, List.map_map]
    simp only [Nat.add_zero, Function.comp_def, Nat.succ_eq_add_one, Nat.add_assoc, Nat.add_comm 1]

/-- What every READ serves (R149, R168, R173). -/
theorem exec_read_serves (s : State) (p : Port) (addr : Half) (count : Nat) :
    (s.phase = .loading → exec (.read p addr count) s = .next (s.putOut p (List.replicate count 0xFF))) ∧
    (s.phase ≠ .loading → addr.toNat < 0x8000 → ∃ (maps : PerPort (BitVec 80)) (out : List Byte),
      exec (.read p addr count) s = .next ((s.withMaps maps).putOut p out) ∧ out.length = count ∧
        (∀ k, k < count → out[k]? = some (s.servedByte (addr.toNat + k))) ∧ Served s p addr.toNat (addr.toNat + count) maps) ∧
    (s.phase ≠ .loading →
      exec (.read p 0x8001 1) s = .next (s.putOut p [BitVec.ofNat 8 (highestLevel (s.attention.get p).inService)]) ∧
      exec (.read p 0x8002 1) s = .next (s.putOut p [BitVec.ofNat 8 (s.reader p).state.code]) ∧
      (0x8003 ≤ addr.toNat → exec (.read p addr count) s = .next (s.putOut p (List.replicate count 0)))) := by
  refine ⟨fun hload => ?_, fun hload hlow => ?_, fun hload => ⟨?_, ?_, fun hhigh => ?_⟩⟩
  · rw [exec_read, State.readRun_const p addr.toNat 0xFF count addr.toNat fun b _ => by unfold State.readByte; rw [if_pos hload]]
  · obtain ⟨maps, hrun, h⟩ := State.readRun_low (s := s) (p := p) hload hlow count addr.toNat (Nat.le_refl _) s.status.bitmaps
      (Served.nothing s p addr.toNat)
    have hself : s.withMaps s.status.bitmaps = s := rfl
    rw [hself] at hrun
    refine ⟨maps, (List.range count).map fun k => s.servedByte (addr.toNat + k), by rw [exec_read, hrun], by simp, fun k hk => ?_, h⟩
    simp [hk]
  · rw [exec_read]
    simp only [State.readRun, State.readByte, if_neg hload]
    rfl
  · rw [exec_read]
    simp only [State.readRun, State.readByte, if_neg hload]
    rfl
  · rw [exec_read, State.readRun_const p addr.toNat 0 count addr.toNat fun b hb => ?_]
    unfold State.readByte
    rw [if_neg hload, if_neg (by omega), if_neg (by omega), if_neg (by omega), if_neg (by omega), if_neg (by omega), if_neg (by omega)]

end Sys2Proof.Machine
end

