-- ==== Sys2Proof/Proofs/StatusLayout.lean ====
section
/-! SUPPORT. Where each field of the status area lies (Tables 11-8 to 11-15, sections 8.1 and 11.4). -/

namespace Sys2Proof.Machine

variable {s : State}

/-! ### Pieces of a record that stand in the status area -/

/-- The bytes l lie from address a on in an area that is read by f. -/
def Lies (f : Nat → Byte) (a : Nat) (l : List Byte) : Prop := ∀ k, k < l.length → f (a + k) = l.getD k 0

/-- The bytes l stand in the status area from address a on. -/
abbrev Area (s : State) : Nat → List Byte → Prop := Lies s.statusByte

/-- A record's pieces are the bytes of the status area from address a on. -/
def Placed (s : State) (a : Nat) (r : List (Option Byte)) : Prop := ∀ k, k < r.length → s.statusByte (a + k) = recordByte r k (a + k)

theorem Lies.at {f : Nat → Byte} {a b : Nat} {l : List Byte} (h : Lies f a l) (hab : a = b) : Lies f b l := hab ▸ h

theorem Lies.eq {f : Nat → Byte} {a : Nat} {l m : List Byte} (h : Lies f a l) (hlm : l = m) : Lies f a m := hlm ▸ h

theorem lies_append {f : Nat → Byte} {a : Nat} {l m : List Byte} : Lies f a (l ++ m) ↔ Lies f a l ∧ Lies f (a + l.length) m := by
  unfold Lies
  rw [List.length_append]
  refine ⟨fun h => ⟨fun k hk => ?_, fun k hk => ?_⟩, fun ⟨hl, hm⟩ k hk => ?_⟩
  · rw [h k (by omega), List.getD_append _ _ _ _ hk]
  · rw [Nat.add_assoc, h _ (by omega), List.getD_append_right _ _ _ _ (by omega), Nat.add_sub_cancel_left]
  · by_cases hlt : k < l.length
    · rw [List.getD_append _ _ _ _ hlt, hl k hlt]
    · have hk' := hm (k - l.length) (by omega)
      rw [Nat.add_assoc, Nat.add_sub_cancel' (by omega)] at hk'
      rw [List.getD_append_right _ _ _ _ (by omega), hk']

theorem Lies.cons {f : Nat → Byte} {a : Nat} {x : Byte} {l : List Byte} (hx : Lies f a [x]) (hl : Lies f (a + 1) l) : Lies f a (x :: l) :=
  lies_append.2 ⟨hx, hl⟩

theorem placed_append {a : Nat} {p q : List (Option Byte)} : Placed s a (p ++ q) ↔ Placed s a p ∧ Placed s (a + p.length) q := by
  unfold Placed recordByte
  rw [List.length_append]
  refine ⟨fun h => ⟨fun k hk => ?_, fun k hk => ?_⟩, fun ⟨hp, hq⟩ k hk => ?_⟩
  · rw [h k (by omega), List.getElem?_append_left hk]
  · rw [Nat.add_assoc, h _ (by omega), List.getElem?_append_right (by omega), Nat.add_sub_cancel_left]
  · by_cases hlt : k < p.length
    · rw [List.getElem?_append_left hlt, hp k hlt]
    · have hk' := hq (k - p.length) (by omega)
      rw [Nat.add_assoc, Nat.add_sub_cancel' (by omega)] at hk'
      rw [List.getElem?_append_right (by omega), hk']

theorem placed_stated {a : Nat} {l : List Byte} : Placed s a (stated l) ↔ Area s a l := by
  unfold Placed Area Lies recordByte stated
  rw [List.length_map]
  refine forall_congr' fun k => forall_congr' fun hk => ?_
  rw [List.getElem?_map, List.getElem?_eq_getElem hk, List.getD_eq_getElem _ _ hk]
  rfl

theorem placed_timeField {a : Nat} {t : Option Time} (h : Placed s a (timeField t)) : ∀ x, t = some x → Area s a (le32 x) := by
  rintro x rfl
  exact placed_stated.1 h

theorem placed_addrField {a : Nat} {x : Option Half} (h : Placed s a (addrField x)) : ∀ y, x = some y → Area s a (le16 y.toNat) := by
  rintro y rfl
  exact placed_stated.1 h

@[simp] theorem length_stated (l : List Byte) : (stated l).length = l.length := List.length_map ..

@[simp] theorem length_gap (n : Nat) : (gap n).length = n := List.length_replicate ..

@[simp] theorem length_timeField (t : Option Time) : (timeField t).length = 4 := by cases t <;> rfl

@[simp] theorem length_addrField (x : Option Half) : (addrField x).length = 2 := by cases x <;> rfl

@[simp] theorem length_le16 (n : Nat) : (le16 n).length = 2 := rfl

@[simp] theorem length_le32 (t : Time) : (le32 t).length = 4 := rfl

@[simp] theorem length_temp16 (t : Int) : (temp16 t).length = 2 := rfl

@[simp] theorem length_rpmField (n : Nat) : (rpmField n).length = 2 := by unfold rpmField; split <;> rfl

@[simp] theorem length_opField (o : Option Operation) : (opField o).length = 12 := by cases o <;> simp [opField]

@[simp] theorem length_floorField (f : Option Floor) : (floorField f).length = 6 := by simp [floorField]

@[simp] theorem length_sourceField (x : Option Source) : (sourceField x).length = 2 := by
  unfold sourceField; split <;> rfl

@[simp] theorem length_channelBytes (c d : Channel) : (channelBytes c d).length = 32 := by simp [channelBytes, Channel.slots]

theorem length_wholeRecord {size : Nat} {gen : Byte} {body : List (Option Byte)} (h : body.length + 2 ≤ size) :
    (wholeRecord size gen body).length = size := by
  simp only [wholeRecord, List.length_append, List.length_cons, length_gap, List.length_nil]
  omega

/-- A whole record carries its generation at each end and its body from offset 1 (R166). -/
theorem Placed.whole {a size : Nat} {gen : Byte} {body : List (Option Byte)} (hp : Placed s a (wholeRecord size gen body))
    (h : body.length + 2 ≤ size) : Area s a [gen] ∧ Placed s (a + 1) body ∧ Area s (a + size - 1) [gen] := by
  unfold wholeRecord at hp
  obtain ⟨hfirst, hlast⟩ := placed_append.1 hp
  obtain ⟨hgen, hbody⟩ := placed_append (p := [some gen]).1 hfirst
  refine ⟨placed_stated.1 hgen, (placed_append.1 hbody).1, ?_⟩
  have hat : a + (some gen :: (body ++ gap (size - 2 - body.length))).length = a + size - 1 := by
    simp only [List.length_cons, List.length_append, length_gap]; omega
  rw [hat] at hlast
  exact placed_stated.1 hlast

/-- Items of one width after one another. -/
theorem lies_flatMap {α : Type} {a w : Nat} {r : Nat → Byte} {f : α → List Byte} {l : List α} (hw : ∀ x, (f x).length = w) (h : Lies r a (l.flatMap f)) (i : Nat)
    (hi : i < l.length) : Lies r (a + w * i) (f l[i]) := by
  induction l generalizing a i with
  | nil => cases hi
  | cons x t ih =>
    obtain ⟨hx, ht⟩ := lies_append.1 (List.flatMap_cons ▸ h)
    rw [hw] at ht
    cases i with
    | zero => exact hx
    | succ i =>
      have hi' := ih ht i (Nat.lt_of_succ_lt_succ hi)
      rw [Nat.add_assoc, Nat.add_comm w, ← Nat.mul_succ] at hi'
      exact hi'

/-! ### The records at their addresses (Table 11-8) -/

theorem groupByte_at {α : Type} {n : Nat} (v : Vector (Option α) n) (bytes : α → List (Option Byte)) (base : Nat) {size k : Nat} (i : Fin n)
    (hk : k < size) : groupByte v bytes base size (base + size * i.val + k) = recordByte (piecesOf bytes v[i]) k (base + size * i.val + k) := by
  have hoff : base + size * i.val + k - base = k + size * i.val := by omega
  have hdiv : (k + size * i.val) / size = i.val := by rw [Nat.add_mul_div_left _ _ (by omega), Nat.div_eq_of_lt hk, Nat.zero_add]
  have hmod : (k + size * i.val) % size = k := by rw [Nat.add_mul_mod_self_left, Nat.mod_eq_of_lt hk]
  unfold groupByte
  simp only [hoff, hdiv, hmod, i.isLt, dif_pos]
  rfl

theorem statusByte_supply (s : State) (i : Fin 4) {k : Nat} (hk : k < 16) : s.statusByte (0x0280 + 16 * i.val + k) =
    recordByte (piecesOf SupplySnap.bytes s.status.supplies[i]) k (0x0280 + 16 * i.val + k) := by
  rw [← groupByte_at s.status.supplies SupplySnap.bytes 0x0280 i hk]
  unfold State.statusByte
  dsimp only
  repeat rw [if_neg (by omega)]
  rw [if_pos (by omega)]

theorem statusByte_fan (s : State) (i : Fin 6) {k : Nat} (hk : k < 24) : s.statusByte (0x02C0 + 24 * i.val + k) =
    recordByte (piecesOf FanRecord.bytes s.status.fans[i]) k (0x02C0 + 24 * i.val + k) := by
  rw [← groupByte_at s.status.fans FanRecord.bytes 0x02C0 i hk]
  unfold State.statusByte
  dsimp only
  repeat rw [if_neg (by omega)]
  rw [if_pos (by omega)]

theorem statusByte_sensor (s : State) (i : Fin 8) {k : Nat} (hk : k < 16) : s.statusByte (0x0350 + 16 * i.val + k) =
    recordByte (piecesOf SensorSnap.bytes s.status.sensors[i]) k (0x0350 + 16 * i.val + k) := by
  rw [← groupByte_at s.status.sensors SensorSnap.bytes 0x0350 i hk]
  unfold State.statusByte
  dsimp only
  repeat rw [if_neg (by omega)]
  rw [if_pos (by omega)]

theorem statusByte_zone (s : State) (i : Fin 4) {k : Nat} (hk : k < 64) : s.statusByte (0x0400 + 64 * i.val + k) =
    recordByte (piecesOf ZoneSnap.bytes s.status.zones[i]) k (0x0400 + 64 * i.val + k) := by
  rw [← groupByte_at s.status.zones ZoneSnap.bytes 0x0400 i hk]
  unfold State.statusByte
  dsimp only
  repeat rw [if_neg (by omega)]
  rw [if_pos (by omega)]

theorem statusByte_bay (s : State) (i : BayNo) {k : Nat} (hk : k < 48) : s.statusByte (0x0500 + 48 * i.val + k) =
    recordByte (piecesOf BaySnap.bytes s.status.bays[i]) k (0x0500 + 48 * i.val + k) := by
  rw [← groupByte_at s.status.bays BaySnap.bytes 0x0500 i hk]
  unfold State.statusByte
  dsimp only
  repeat rw [if_neg (by omega)]
  rw [if_pos (by omega)]

theorem statusByte_light (s : State) (i : BayNo) {k : Nat} (hk : k < 40) : s.statusByte (0x1040 + 40 * i.val + k) =
    recordByte (piecesOf LightSnap.bytes s.status.lights[i]) k (0x1040 + 40 * i.val + k) := by
  rw [← groupByte_at s.status.lights LightSnap.bytes 0x1040 i hk]
  unfold State.statusByte
  dsimp only
  repeat rw [if_neg (by omega)]
  rw [if_pos (by omega)]

theorem statusByte_summary (s : State) {k : Nat} (hk : k < 64) : s.statusByte (0 + k) =
    recordByte (piecesOf Summary.bytes s.status.summary) k (0 + k) := by
  rw [Nat.zero_add]
  unfold State.statusByte
  dsimp only
  rw [if_pos hk]

theorem statusByte_queue (s : State) {k : Nat} (hk : k < 80) : s.statusByte (0x0040 + k) =
    recordByte (piecesOf QueueSnap.bytes s.status.queue) k (0x0040 + k) := by
  unfold State.statusByte
  dsimp only
  repeat rw [if_neg (by omega)]
  rw [if_pos (by omega)]
  rw [Nat.add_sub_cancel_left]

theorem statusByte_enclosure (s : State) {k : Nat} (hk : k < 64) : s.statusByte (0x0090 + k) =
    recordByte (piecesOf EnclosureSnap.bytes s.status.enclosure) k (0x0090 + k) := by
  unfold State.statusByte
  dsimp only
  repeat rw [if_neg (by omega)]
  rw [if_pos (by omega)]
  rw [Nat.add_sub_cancel_left]

/-- Where a port's reader record and its attention record begin (Table 11-8). -/
def readerBase : Port → Nat
  | .a => 0x0100
  | .b => 0x01A0

/-- Where a port's attention record begins. -/
def attentionBase : Port → Nat
  | .a => 0x0240
  | .b => 0x0260

theorem statusByte_reader (s : State) (p : Port) {k : Nat} (hk : k < 160) : s.statusByte (readerBase p + k) =
    recordByte (piecesOf Reader.bytes (s.status.readers.get p)) k (readerBase p + k) := by
  cases p <;>
  · simp only [readerBase, PerPort.get]
    unfold State.statusByte
    dsimp only
    repeat rw [if_neg (by omega)]
    rw [if_pos (by omega)]
    simp only [Nat.add_sub_cancel_left]

theorem statusByte_attention (s : State) (p : Port) {k : Nat} (hk : k < 32) : s.statusByte (attentionBase p + k) =
    recordByte (piecesOf AttentionSnap.bytes (s.status.attention.get p)) k (attentionBase p + k) := by
  cases p <;>
  · simp only [attentionBase, PerPort.get]
    unfold State.statusByte
    dsimp only
    repeat rw [if_neg (by omega)]
    rw [if_pos (by omega)]
    simp only [Nat.add_sub_cancel_left]

/-! ### The length of each record -/

/-- A temperature that may be absent, in two bytes. -/
def tempField : Option Int → List (Option Byte)
  | none => gap 2
  | some t => stated (temp16 t)

@[simp] theorem length_tempField (t : Option Int) : (tempField t).length = 2 := by cases t <;> rfl

theorem placed_tempField {a : Nat} {t : Option Int} (h : Placed s a (tempField t)) : ∀ x, t = some x → Area s a (temp16 x) := by
  rintro x rfl
  exact placed_stated.1 h

theorem SensorSnap.bytes_eq (u : SensorSnap) : u.bytes = wholeRecord 16 u.sensor.gen
    (stated ([sensorZoneByte u.set.zone, signed8 u.set.offset, BitVec.ofNat 8 u.sensor.state.code]) ++ tempField u.sensor.raw ++
      stated [BitVec.ofNat 8 u.sensor.fails] ++ timeField u.sensor.goodAt) := by
  unfold SensorSnap.bytes
  cases u.sensor.raw <;> rfl

theorem ZoneSnap.bytes_eq (z : ZoneSnap) : z.bytes = wholeRecord 64 z.zone.gen
    (stated ([BitVec.ofNat 8 z.zone.state.code, BitVec.ofNat 8 z.zone.condition.code, flagByte z.zone.t.isSome] ++ temp16 z.zone.e) ++
      tempField z.zone.t ++ sourceField z.zone.hottest ++
      stated [BitVec.ofNat 8 z.zone.valid, BitVec.ofNat 8 z.zone.pending, BitVec.ofNat 8 z.zone.missing, BitVec.ofNat 8 z.zone.vacancy,
        BitVec.ofNat 8 z.zone.timer.code, BitVec.ofNat 8 z.set.limits.h] ++
      timeField z.zone.timer.expiry ++
      stated (z.set.curve.recordBytes ++ temp16 z.set.limits.ceiling ++ temp16 z.set.limits.critical ++
        [BitVec.ofNat 8 z.set.limits.v]) ++
      gap 1 ++
      stated (le16 z.set.limits.staleFloor ++ le16 z.set.limits.shedTime ++ le16 z.staleTime)) := by
  unfold ZoneSnap.bytes
  dsimp only
  cases z.zone.t <;> rfl

theorem length_Summary_bytes (x : Summary) : x.bytes.length = 64 := by
  unfold Summary.bytes
  exact length_wholeRecord (by simp)

theorem length_QueueSnap_bytes (x : QueueSnap) : x.bytes.length = 80 := by
  unfold QueueSnap.bytes
  exact length_wholeRecord (by simp)

theorem length_EnclosureSnap_bytes (x : EnclosureSnap) : x.bytes.length = 64 := by
  unfold EnclosureSnap.bytes
  exact length_wholeRecord (by simp)

theorem length_Reader_bytes (x : Reader) : x.bytes.length = 160 := by
  unfold Reader.bytes
  exact length_wholeRecord (by simp)

theorem length_AttentionSnap_bytes (x : AttentionSnap) : x.bytes.length = 32 := by
  unfold AttentionSnap.bytes
  exact length_wholeRecord (by simp [sourceBytes])

theorem length_SupplySnap_bytes (x : SupplySnap) : x.bytes.length = 16 := by
  unfold SupplySnap.bytes
  exact length_wholeRecord (by simp [SupplySetting.bytes])

theorem length_FanRecord_bytes (x : FanRecord) : x.bytes.length = 24 := by
  unfold FanRecord.bytes
  exact length_wholeRecord (by simp)

theorem length_SensorSnap_bytes (x : SensorSnap) : x.bytes.length = 16 := by
  rw [SensorSnap.bytes_eq]
  exact length_wholeRecord (by simp)

theorem length_ZoneSnap_bytes (x : ZoneSnap) : x.bytes.length = 64 := by
  rw [ZoneSnap.bytes_eq]
  exact length_wholeRecord (by simp [Curve.recordBytes])

theorem length_BaySnap_bytes (x : BaySnap) : x.bytes.length = 48 := by
  unfold BaySnap.bytes
  exact length_wholeRecord (by simp)

theorem length_LightSnap_bytes (x : LightSnap) : x.bytes.length = 40 := by
  unfold LightSnap.bytes
  exact length_wholeRecord (by simp)

/-- A record published at an address. -/
theorem Placed.of_published {α : Type} {a size : Nat} {bytes : α → List (Option Byte)} {v : Option α} {x : α}
    (hat : ∀ {k}, k < size → s.statusByte (a + k) = recordByte (piecesOf bytes v) k (a + k)) (hlen : (bytes x).length = size) (h : v = some x) :
    Placed s a (bytes x) := by
  subst h
  exact fun k hk => hat (hlen ▸ hk)

theorem placed_supply {i : Fin 4} {x : SupplySnap} (h : s.status.supplies[i] = some x) : Placed s (0x0280 + 16 * i.val) x.bytes :=
  .of_published (statusByte_supply s i) (length_SupplySnap_bytes x) h

theorem placed_fan {i : Fin 6} {x : FanRecord} (h : s.status.fans[i] = some x) : Placed s (0x02C0 + 24 * i.val) x.bytes :=
  .of_published (statusByte_fan s i) (length_FanRecord_bytes x) h

theorem placed_sensor {i : Fin 8} {x : SensorSnap} (h : s.status.sensors[i] = some x) : Placed s (0x0350 + 16 * i.val) x.bytes :=
  .of_published (statusByte_sensor s i) (length_SensorSnap_bytes x) h

theorem placed_zone {i : Fin 4} {x : ZoneSnap} (h : s.status.zones[i] = some x) : Placed s (0x0400 + 64 * i.val) x.bytes :=
  .of_published (statusByte_zone s i) (length_ZoneSnap_bytes x) h

theorem placed_bay {i : BayNo} {x : BaySnap} (h : s.status.bays[i] = some x) : Placed s (0x0500 + 48 * i.val) x.bytes :=
  .of_published (statusByte_bay s i) (length_BaySnap_bytes x) h

theorem placed_light {i : BayNo} {x : LightSnap} (h : s.status.lights[i] = some x) : Placed s (0x1040 + 40 * i.val) x.bytes :=
  .of_published (statusByte_light s i) (length_LightSnap_bytes x) h

theorem placed_summary {x : Summary} (h : s.status.summary = some x) : Placed s 0 x.bytes :=
  .of_published (statusByte_summary s) (length_Summary_bytes x) h

theorem placed_queue {x : QueueSnap} (h : s.status.queue = some x) : Placed s 0x0040 x.bytes :=
  .of_published (statusByte_queue s) (length_QueueSnap_bytes x) h

theorem placed_enclosure {x : EnclosureSnap} (h : s.status.enclosure = some x) : Placed s 0x0090 x.bytes :=
  .of_published (statusByte_enclosure s) (length_EnclosureSnap_bytes x) h

theorem placed_reader {p : Port} {x : Reader} (h : s.status.readers.get p = some x) : Placed s (readerBase p) x.bytes :=
  .of_published (statusByte_reader s p) (length_Reader_bytes x) h

theorem placed_attention {p : Port} {x : AttentionSnap} (h : s.status.attention.get p = some x) : Placed s (attentionBase p) x.bytes :=
  .of_published (statusByte_attention s p) (length_AttentionSnap_bytes x) h

/-- The bytes of a record not yet published. -/
theorem statusByte_unpublished {α : Type} {a size : Nat} {bytes : α → List (Option Byte)} {v : Option α}
    (hat : ∀ {k}, k < size → s.statusByte (a + k) = recordByte (piecesOf bytes v) k (a + k)) (h : v = none) :
    ∀ k, k < size → s.statusByte (a + k) = 0 := by
  subst h
  exact fun k hk => hat hk

end Sys2Proof.Machine
end

