-- ==== Sys2Proof/Proofs/ReadServes.lean ====
section
/-! SUPPORT. READ and the status area's bytes (R149, R166, R168, section 11.4). -/

namespace Sys2Proof.Machine

variable {s : State}

/-! ### Fields whose lists vary: slots, tables, queues -/

/-- A slot stands at an address: 0 where it is empty, else its first byte and its expiry (Table 11-12). -/
def SlotAt (s : State) (a : Nat) (r : Option Request) : Prop :=
  (r = none → Area s a [0]) ∧ ∀ q, r = some q →
    Area s a [BitVec.ofNat 8 (q.priority + 16 * q.pattern.val + (if q.expiry.isSome then 128 else 0))] ∧
      ∀ t, q.expiry = some t → Area s (a + 1) (le32 t)

/-- A channel stands at an address: its three slots and its winner (Table 11-12). -/
def ChannelAt (s : State) (a : Nat) (c : Channel) : Prop :=
  SlotAt s a c.system ∧ SlotAt s (a + 5) c.ports.a ∧ SlotAt s (a + 10) c.ports.b ∧ ((∀ i, c.slot i = none) → Area s (a + 15) [3]) ∧
    ∀ i r, c.slot i = some r → (∀ j q, c.slot j = some q → q.priority < r.priority ∨ (q.priority = r.priority ∧ j ≤ i)) →
      Area s (a + 15) [BitVec.ofNat 8 i.val]

theorem SlotAt.of_placed {a : Nat} {r : Option Request} (hb : Area s a [slotByte r])
    (ht : Placed s (a + 1) (timeField (r.bind (·.expiry)))) : SlotAt s a r := by
  refine ⟨?_, ?_⟩
  · rintro rfl; exact hb
  · rintro q rfl; exact ⟨hb, placed_timeField ht⟩

/-- The winner code names the slot that wins, and is 3 where every slot is empty (R131). -/
theorem winnerCode_empty {c : Channel} (h : ∀ i, c.slot i = none) : c.winnerCode = 3 := by
  unfold Channel.winnerCode
  cases hw : c.winner with
  | none => rfl
  | some i =>
    obtain ⟨r, hr, -⟩ := Channel.wins_of_winner hw
    exact absurd ((h i).symm.trans hr) nofun

theorem winnerCode_wins {c : Channel} {i : Fin 3} {r : Request} (h : c.Wins i r) : c.winnerCode = i.val := by
  unfold Channel.winnerCode
  cases hw : c.winner with
  | none => exact absurd ((Channel.slots_of_winner_none hw i).symm.trans h.1) nofun
  | some j =>
    obtain ⟨q, hq⟩ := Channel.wins_of_winner hw
    rw [hq.unique h]

theorem placed_slots {a : Nat} {c : Channel} (h : Placed s a
    ((c.slots.flatMap fun r => stated [slotByte r] ++ timeField (r.bind (·.expiry))) ++ stated [BitVec.ofNat 8 c.winnerCode])) :
    ChannelAt s a c := by
  simp only [Channel.slots, List.flatMap_cons, List.flatMap_nil, placed_append, length_stated, length_timeField, List.length_append,
    List.length_cons, List.length_nil, placed_stated] at h
  obtain ⟨⟨⟨hs, hst⟩, ⟨ha, hat⟩, ⟨hb, hbt⟩, -⟩, hw⟩ := h
  refine ⟨.of_placed hs hst, .of_placed ha hat, .of_placed hb hbt, fun hnone => ?_, fun i r hi hwin => ?_⟩
  · rw [winnerCode_empty hnone] at hw; exact hw
  · rw [winnerCode_wins ⟨hi, hwin⟩] at hw; exact hw

theorem placed_channels {a : Nat} {c d : Channel} (h : Placed s a (channelBytes c d)) : ChannelAt s a c ∧ ChannelAt s (a + 16) d := by
  obtain ⟨hc, hd⟩ := placed_append.1 h
  refine ⟨placed_slots hc, ?_⟩
  have hd' := placed_slots hd
  simpa [Channel.slots] using hd'

/-- The open-slip entries of a reader record, in the order of the takes, and zeros after them. -/
theorem area_table {r : Nat} {t : List OpenSlip} : ∀ {m a : Nat}, 8 * m ≤ r →
    Area s a ((t.flatMap OpenSlip.bytes ++ List.replicate r 0).take (8 * m)) → ∀ i, i < m →
    (t[i]? = none → Area s (a + 8 * i) [0, 0, 0, 0, 0, 0, 0, 0]) ∧ ∀ e, t[i]? = some e → Area s (a + 8 * i) e.bytes := by
  induction t with
  | nil =>
    intro m a hm h i hi
    refine ⟨fun _ k hk => ?_, nofun⟩
    rw [List.flatMap_nil, List.nil_append, List.take_replicate, Nat.min_eq_left hm] at h
    have hk' : 8 * i + k < 8 * m := by simp only [List.length_cons, List.length_nil] at hk; omega
    rw [Nat.add_assoc, h _ (by rw [List.length_replicate]; exact hk'), List.getD_replicate _ hk']
    exact (List.getD_replicate (n := 8) _ hk).symm
  | cons e t ih =>
    intro m a hm h i hi
    obtain ⟨m, rfl⟩ : ∃ k, m = k + 1 := ⟨m - 1, by omega⟩
    have hlen : e.bytes.length = 8 := rfl
    rw [List.flatMap_cons, List.append_assoc, List.take_append, hlen, List.take_of_length_le (by omega),
      show 8 * (m + 1) - 8 = 8 * m by omega] at h
    obtain ⟨he, ht⟩ := lies_append.1 h
    rw [hlen] at ht
    cases i with
    | zero => exact ⟨nofun, fun x hx => by obtain rfl : e = x := Option.some.inj hx; exact he⟩
    | succ i =>
      have hi' := ih (by omega) ht i (by omega)
      rw [Nat.add_assoc, Nat.add_comm 8, ← Nat.mul_succ] at hi'
      exact hi'

/-- The queued bays in a queue record, in queue order, and 0xFF after them. -/
theorem area_queue {a r m : Nat} {l : List BayNo} (hm : m ≤ r)
    (h : Area s a ((l.map (fun (n : BayNo) => BitVec.ofNat 8 n.val) ++ List.replicate r 0xFF).take m)) (i : Nat) (hi : i < m) :
    s.statusByte (a + i) = (match l[i]? with | some n => BitVec.ofNat 8 n.val | none => 0xFF) := by
  have hlen : i < ((l.map (fun (n : BayNo) => BitVec.ofNat 8 n.val) ++ List.replicate r 0xFF).take m).length := by simp; omega
  rw [h i hlen, List.getD_eq_getElem _ _ hlen, List.getElem_take, List.getElem_append]
  by_cases hl : i < l.length
  · simp [hl]
  · simp [hl]

/-- The number of a byte's bit is its flag's (section 11). -/
theorem getLsbD_bitsOf (l : List Bool) {k : Nat} (hk : k < 8) : (BitVec.ofNat 8 (bitsOf l)).getLsbD k = l.getD k false := by
  rw [BitVec.getLsbD_ofNat, decide_eq_true hk, Bool.true_and, testBit_bitsOf]

/-- A port's floor in the summary record (Table 11-10). -/
theorem placed_floor {a : Nat} {f : Option Floor} (h : Placed s a (floorField f)) :
    (f = none → Area s a [0, 0]) ∧ ∀ x, f = some x → Area s a (le16 x.duty) ∧ ∀ t, x.expiry = some t → Area s (a + 2) (le32 t) := by
  obtain ⟨hduty, hexp⟩ := placed_append.1 h
  refine ⟨?_, ?_⟩
  · rintro rfl; exact placed_stated.1 hduty
  · rintro x rfl; exact ⟨placed_stated.1 hduty, placed_timeField hexp⟩

/-- The bytes of the status area that belong to no record (R166). -/
theorem statusByte_apart_records (s : State) {a : Nat} (h : (0x00DA ≤ a ∧ a < 0x00E0) ∨ (0x00EA ≤ a ∧ a < 0x0100) ∨ (0x03D0 ≤ a ∧ a < 0x0400) ∨
    (0x19A0 ≤ a ∧ a < 0x2000)) : s.statusByte a = 0 := by
  unfold State.statusByte
  dsimp only
  rcases h with h | h | h | h
  all_goals
    repeat rw [if_neg (by omega)]
  all_goals rw [if_pos (by omega)]

/-! ### What stands at each record's address (Tables 11-9 to 11-15) -/

/-- A record with its generation at each end. -/
def Whole (s : State) (a size : Nat) (gen : Byte) (l : List Byte) : Prop := Area s a (gen :: l) ∧ Area s (a + size - 1) [gen]

/-- A part time that may be absent stands at an address. -/
def TimeAt (s : State) (a : Nat) (t : Option Time) : Prop := ∀ x, t = some x → Area s a (le32 x)

theorem TimeAt.of_placed {a b : Nat} {t : Option Time} (h : Placed s a (timeField t)) (hab : a = b) : TimeAt s b t :=
  hab ▸ placed_timeField h

section
variable (s)

/-- A byte that stands for a number. -/
abbrev numByte (n : Nat) : Byte := BitVec.ofNat 8 n

theorem operation_shown {a : Nat} {o : Operation} (h : Placed s a (opField (some o))) :
    Area s a [match o.kind with
        | .settle => 1 | .retryWait => 2 | .spinUp => 3 | .spinDown => 4 | .powerOff => 5 | .prepareRemoval => 6 | .latchStop => 7,
      (match o.origin with | .internal => 0 | .slip .a => 1 | .slip .b => 2) +
        4 * numByte (bitsOf [o.slip.isSome, o.deadline.isSome, o.cancelMarked])] ∧
      (∀ addr, o.slip = some addr → Area s (a + 2) (le16 addr.toNat)) ∧ Area s (a + 4) (le32 o.start) ∧ TimeAt s (a + 8) o.deadline := by
  obtain ⟨⟨⟨hkind, hslip⟩, hstart⟩, hdead⟩ := by simpa only [opField, placed_append] using h
  refine ⟨?_, placed_addrField hslip, (placed_stated.1 hstart).at (by simp), .of_placed hdead (by simp)⟩
  refine (placed_stated.1 hkind).eq (congrArg₂ (fun x y => [x, y]) ?_ ?_)
  · cases o.kind <;> rfl
  · rw [BitVec.ofNat_add, BitVec.ofNat_mul]
    congr 1
    rcases o.origin with _ | _ | _ <;> rfl

theorem bay_shown {n : BayNo} {x : BaySnap} (h : s.status.bays[n] = some x) :
    let a := 0x0500 + 48 * n.val
    let r := x.record
    let f := r.flags
    Whole s a 48 r.gen ([numByte r.state.code, numByte r.reason.code, numByte x.set.policy.code, numByte x.set.cls.val, numByte x.set.zone.val,
        numByte x.set.profile.val, numByte (bitsOf [x.set.shedEligible, x.set.latchStop]),
        numByte (bitsOf [f.wait5v, f.latchOpen, f.removalReady, f.drawHigh, f.shedThermal, f.shedPower]), numByte r.retries] ++
        le16 r.c12 ++ le16 r.c5 ++ le16 r.average ++ le16 r.trips.toNat ++ le16 r.insertions.toNat ++ le16 r.bounces.toNat ++
        le32 r.entered) ∧
      (r.op = none → Area s (a + 26) [0, 0]) ∧ ∀ o, r.op = some o → Placed s (a + 26) (opField (some o)) := by
  obtain ⟨hgen, hbody, hlast⟩ := Placed.whole (placed_bay h) (by simp)
  obtain ⟨hfix, hop⟩ := placed_append.1 hbody
  refine ⟨⟨hgen.cons (placed_stated.1 hfix), hlast⟩, fun hn => ?_, fun o ho => ho ▸ hop⟩
  rw [show x.record.op = none from hn] at hop
  exact placed_stated.1 (placed_append.1 hop).1

theorem summary_shown {u : Summary} (h : s.status.summary = some u) :
    let x := u.account
    let c := u.cooling
    Whole s 0 64 u.gen ([numByte (BayCount.code u.straps.bays + 4 * bitsOf [u.straps.portB, u.straps.store]),
          (match u.origin with | .image => 0 | .defaults => 1), numByte u.cause.code] ++ le32 u.time ++ le16 x.usable12 ++ le16 x.usable5 ++
        le16 x.committed12 ++ le16 x.committed5 ++ le16 x.fanRes ++
        [numByte (bitsOf [x.overCommitted, x.over12, x.over5, x.unresolved, x.redundancyLost]), numByte x.spinning, numByte x.queued,
          numByte (bitsOf [c.coolingLost, c.check.isSome, (c.check.map (·.1)) == some .b])] ++
        le16 c.c ++ le16 c.cprev ++ le16 c.draw ++ le16 c.dcomp ++ c.demands.toList.flatMap le16) ∧
      Placed s 38 (floorField c.floors.a) ∧ Placed s 44 (floorField c.floors.b) ∧ TimeAt s 50 (c.check.map (·.2)) ∧
      Area s 54 [numByte (bitsOf [(c.floors.a.bind (·.expiry)).isSome, (c.floors.b.bind (·.expiry)).isSome])] := by
  obtain ⟨hgen, hbody, hlast⟩ := Placed.whole (placed_summary h) (by simp)
  obtain ⟨⟨⟨⟨hfix, hfa⟩, hfb⟩, hcheck⟩, hflags⟩ := by simpa only [placed_append] using hbody
  have hlen := u.cooling.demands.length_toList
  refine ⟨⟨hgen.cons (placed_stated.1 hfix), hlast⟩, ?_, ?_, .of_placed hcheck (by simp), (placed_stated.1 hflags).at (by simp)⟩
  · simpa using hfa
  · simpa using hfb

/-- The zone demands, two bytes each. -/
theorem demands_bytes (d : Vector Nat 4) : d.toList.flatMap le16 =
    le16 (d[(0 : Fin 4)]) ++ (le16 (d[(1 : Fin 4)]) ++ (le16 (d[(2 : Fin 4)]) ++ le16 (d[(3 : Fin 4)]))) := by
  obtain ⟨⟨l⟩, hl⟩ := d
  match l, hl with
  | [a, b, c, d], _ => rfl

/-- Whether a fan check runs for port B. -/
theorem check_portB (k : Option (Port × Time)) : (k.map (·.1) == some .b) = decide (∃ t, k = some (.b, t)) := by
  rcases k with _ | ⟨_ | _, t⟩ <;> simp

theorem queue_shown {q : QueueSnap} (h : s.status.queue = some q) :
    Whole s 0x40 80 q.gen ([numByte q.bays.length, numByte q.hold.code, numByte q.schedule.limit] ++ le16 q.schedule.stagger ++
        [if q.last.isSome then 1 else 0]) ∧
      TimeAt s 0x47 q.last ∧
      ∀ i, i < 60 → s.statusByte (0x4B + i) = (match q.bays[i]? with | some n => numByte n.val | none => 0xFF) := by
  obtain ⟨hgen, hbody, hlast⟩ := Placed.whole (placed_queue h) (by simp)
  obtain ⟨⟨hfix, htime⟩, hbays⟩ := by simpa only [placed_append] using hbody
  exact ⟨⟨hgen.cons (placed_stated.1 hfix), hlast⟩, .of_placed htime (by simp),
    area_queue (Nat.le_refl 60) ((placed_stated.1 hbays).at (by simp))⟩

theorem enclosure_shown {e : EnclosureSnap} (h : s.status.enclosure = some e) :
    Whole s 0x90 64 e.light.gen [] ∧ ChannelAt s 0x91 e.light.amber ∧ ChannelAt s 0xA1 e.light.blue ∧
      ∀ i : Fin 8, Area s (0xB1 + 2 * i.val) [e.patterns[i].on, e.patterns[i].off] := by
  obtain ⟨hgen, hbody, hlast⟩ := Placed.whole (placed_enclosure h) (by simp)
  obtain ⟨hch, hpat⟩ := placed_append.1 hbody
  obtain ⟨hamber, hblue⟩ := placed_channels hch
  refine ⟨⟨hgen, hlast⟩, hamber, hblue, fun i => ?_⟩
  have hi := lies_flatMap (w := 2) (f := fun p : Pattern => [p.on, p.off]) (fun _ => rfl) (placed_stated.1 hpat) i.val (by simp)
  simpa using hi

theorem light_shown {n : BayNo} {l : LightSnap} (h : s.status.lights[n] = some l) :
    let a := 0x1040 + 40 * n.val
    Whole s a 40 l.gen [] ∧ ChannelAt s (a + 1) l.amber ∧ ChannelAt s (a + 17) l.blue ∧ Area s (a + 33) [if l.enable then 1 else 0] := by
  obtain ⟨hgen, hbody, hlast⟩ := Placed.whole (placed_light h) (by simp)
  obtain ⟨hch, hen⟩ := placed_append.1 hbody
  obtain ⟨hamber, hblue⟩ := placed_channels hch
  exact ⟨⟨hgen, hlast⟩, hamber, hblue, (placed_stated.1 hen).at (by simp)⟩

theorem reader_shown {p : Port} {r : Reader} (h : s.status.readers.get p = some r) :
    Whole s (readerBase p) 160 r.gen ([numByte r.state.code] ++ le16 r.cursor.toNat ++ le16 r.watch.toNat ++ [numByte r.table.length] ++
        le16 r.badWord.toNat ++ le16 r.badLink.toNat) ∧
      ∀ i, i < 16 → (r.table[i]? = none → Area s (readerBase p + 16 + 8 * i) [0, 0, 0, 0, 0, 0, 0, 0]) ∧
        ∀ e, r.table[i]? = some e → Area s (readerBase p + 16 + 8 * i) e.bytes := by
  obtain ⟨hgen, hbody, hlast⟩ := Placed.whole (placed_reader h) (by simp)
  obtain ⟨⟨hfix, -⟩, htable⟩ := by simpa only [placed_append] using hbody
  exact ⟨⟨hgen.cons (placed_stated.1 hfix), hlast⟩,
    area_table (m := 16) (Nat.le_refl _) ((placed_stated.1 htable).at (by simp))⟩

theorem attention_shown {p : Port} {x : AttentionSnap} (h : s.status.attention.get p = some x) :
    Whole s (attentionBase p) 32 x.unit.gen [] ∧ Area s (attentionBase p + 17) [x.unit.inService] ∧
      ∀ i : Fin 8, Area s (attentionBase p + 1 + 2 * i.val) (sourceBytes x.config[i] x.unit.pending[i]) := by
  obtain ⟨hgen, hbody, hlast⟩ := Placed.whole (placed_attention h) (by simp [sourceBytes])
  obtain ⟨hsrc, hsvc⟩ := lies_append.1 (placed_stated.1 hbody)
  refine ⟨⟨hgen, hlast⟩, hsvc.at (by simp [sourceBytes]), fun i => ?_⟩
  have hi := lies_flatMap (w := 2) (f := fun i : Fin 8 => sourceBytes x.config[i] x.unit.pending[i]) (fun _ => rfl) hsrc i.val (by simp)
  simpa using hi

theorem supply_shown {i : Fin 4} {x : SupplySnap} (h : s.status.supplies[i] = some x) :
    Whole s (0x0280 + 16 * i.val) 16 x.supply.gen ([if x.supply.present then 1 else 0, if x.supply.good then 1 else 0,
      numByte x.supply.state.code] ++ (le16 x.set.cap12 ++ le16 x.set.cap5)) := by
  obtain ⟨hgen, hbody, hlast⟩ := Placed.whole (placed_supply h) (by simp [SupplySetting.bytes])
  exact ⟨hgen.cons (placed_stated.1 hbody), hlast⟩

theorem fan_shown {i : Fin 6} {f : FanRecord} (h : s.status.fans[i] = some f) :
    Whole s (0x02C0 + 24 * i.val) 24 f.gen
        ([numByte f.state.code] ++ rpmField f.tach ++ [numByte f.low, numByte f.high, if f.weak then 1 else 0] ++
          rpmField f.lastCheck ++ le32 f.entered) ∧
      TimeAt s (0x02CD + 24 * i.val) f.startingAt := by
  obtain ⟨hgen, hbody, hlast⟩ := Placed.whole (placed_fan h) (by simp)
  obtain ⟨hfix, htime⟩ := placed_append.1 hbody
  exact ⟨⟨hgen.cons (placed_stated.1 hfix), hlast⟩, .of_placed htime (by simp; omega)⟩

theorem sensor_shown {i : Fin 8} {x : SensorSnap} (h : s.status.sensors[i] = some x) :
    let a := 0x0350 + 16 * i.val
    Whole s a 16 x.sensor.gen [sensorZoneByte x.set.zone, signed8 x.set.offset, numByte x.sensor.state.code] ∧
      (∀ raw, x.sensor.raw = some raw → Area s (a + 4) (temp16 raw)) ∧ Area s (a + 6) [numByte x.sensor.fails] ∧ TimeAt s (a + 7) x.sensor.goodAt := by
  obtain ⟨hgen, hbody, hlast⟩ := Placed.whole (SensorSnap.bytes_eq x ▸ placed_sensor h) (by simp)
  obtain ⟨⟨⟨hfix, hraw⟩, hfails⟩, hgood⟩ := by simpa only [placed_append] using hbody
  exact ⟨⟨hgen.cons (placed_stated.1 hfix), hlast⟩, fun t ht => (placed_tempField hraw t ht).at (by simp), (placed_stated.1 hfails).at (by simp),
    .of_placed hgood (by simp)⟩

theorem zone_shown {z : Fin 4} {x : ZoneSnap} (h : s.status.zones[z] = some x) :
    let a := 0x0400 + 64 * z.val
    let c := x.set.curve
    let l := x.set.limits
    Whole s a 64 x.zone.gen ([numByte x.zone.state.code, numByte x.zone.condition.code, if x.zone.t.isSome then 1 else 0] ++ temp16 x.zone.e) ∧
      (∀ t, x.zone.t = some t → Area s (a + 6) (temp16 t)) ∧ Placed s (a + 8) (sourceField x.zone.hottest) ∧
      Area s (a + 10) [numByte x.zone.valid, numByte x.zone.pending, numByte x.zone.missing, numByte x.zone.vacancy,
        numByte x.zone.timer.code, numByte l.h] ∧
      TimeAt s (a + 16) x.zone.timer.expiry ∧
      Area s (a + 20) (c.recordBytes ++ temp16 l.ceiling ++ temp16 l.critical ++ [numByte l.v]) ∧
      Area s (a + 42) (le16 l.staleFloor ++ le16 l.shedTime ++ le16 x.staleTime) := by
  obtain ⟨hgen, hbody, hlast⟩ := Placed.whole (ZoneSnap.bytes_eq x ▸ placed_zone h) (by simp [Curve.recordBytes])
  obtain ⟨⟨⟨⟨⟨⟨⟨hfix, htemp⟩, hsrc⟩, hcounts⟩, htimer⟩, hcurve⟩, -⟩, hset⟩ := by simpa only [placed_append] using hbody
  refine ⟨⟨hgen.cons (placed_stated.1 hfix), hlast⟩, fun t ht => (placed_tempField htemp t ht).at (by simp), ?_,
    (placed_stated.1 hcounts).at (by simp), .of_placed htimer (by simp), (placed_stated.1 hcurve).at (by simp),
    (placed_stated.1 hset).at (by simp [Curve.recordBytes])⟩
  simpa using hsrc

end

/-- Settles O50: what a READ serves, and the layout record by record. -/
theorem readServesBytes : Obligations.ReadServesBytes := by
  unfold Obligations.ReadServesBytes
  refine ⟨?_, fun s => ?_, rfl, rfl, rfl, rfl, rfl, fun l k hk => getLsbD_bitsOf l hk⟩
  · intro s p addr count
    obtain ⟨hload, hlow, hhigh⟩ := exec_read_serves s p addr count
    refine ⟨hload, fun hl ha => ?_, hhigh⟩
    obtain ⟨maps, out, hexec, hlen, hbytes, hserved⟩ := hlow hl ha
    refine ⟨maps, out, hexec, hlen, hbytes, hserved.other, ?_⟩
    cases p <;> exact hserved.own
  · intro area whole time num bits temp rpm slot channel
    refine ⟨?_, fun a ha => statusByte_apart_records s ha, fun n hn => statusByte_unpublished (statusByte_bay s n) hn,
      fun n hn => statusByte_unpublished (statusByte_light s n) hn, ?_, ?_, ?_, fun e he => enclosure_shown s he, fun n l hl => light_shown s hl,
      ?_, ?_, ?_, ?_, ?_, ?_⟩
    · intro p k j hk hj
      cases p
      · exact (congrArg (·.getLsbD j) (s.statusByte_bitmapA hk)).trans (getLsbD_bitmapByte _ _ hj)
      · exact (congrArg (·.getLsbD j) (s.statusByte_bitmapB hk)).trans (getLsbD_bitmapByte _ _ hj)
    · intro n x hx
      obtain ⟨hrec, hnone, hsome⟩ := bay_shown s hx
      refine ⟨hrec, hnone, fun o ho => operation_shown s (hsome o ho)⟩
    · intro u hu
      obtain ⟨hrec, ha, hb, hcheck, hflags⟩ := summary_shown s hu
      refine ⟨?_, fun p => ?_, hcheck, hflags⟩
      · revert hrec
        rw [demands_bytes, check_portB, numByte, BitVec.ofNat_add, BitVec.ofNat_mul]
        simp only [← List.append_assoc]
        cases u.straps.bays <;> cases u.origin <;> exact id
      · cases p
        · exact placed_floor ha
        · exact placed_floor hb
    · intro q hq
      obtain ⟨hrec, hlast, hbays⟩ := queue_shown s hq
      refine ⟨?_, hlast, hbays⟩
      revert hrec
      cases q.hold <;> exact id
    · intro p r hr
      cases p <;> exact reader_shown s hr
    · intro p x hx
      cases p <;> exact attention_shown s hx
    · intro i x hx
      have hrec := supply_shown s hx
      revert hrec
      cases x.supply.state <;> exact id
    · intro i f hf
      obtain ⟨hrec, hstart⟩ := fan_shown s hf
      refine ⟨?_, hstart⟩
      revert hrec
      cases f.state <;> exact id
    · intro i x hx
      obtain ⟨hrec, hraw, hfails, hgood⟩ := sensor_shown s hx
      refine ⟨?_, hraw, hfails, hgood⟩
      revert hrec
      cases x.sensor.state <;> cases x.set.zone <;> exact id
    · intro z x hx
      obtain ⟨hrec, htemp, hsrc, hcounts, htimer, hcurve, hset⟩ := zone_shown s hx
      refine ⟨?_, htemp, ?_, ?_, ?_, hcurve, hset⟩
      · revert hrec
        cases x.zone.state <;> cases x.zone.condition <;> exact id
      · revert hsrc
        rcases x.zone.hottest with _ | i | n
        · exact fun h => placed_stated.1 (placed_append.1 h).1
        · exact placed_stated.1
        · exact placed_stated.1
      · revert hcounts
        cases x.zone.timer <;> exact id
      · rintro t ht
        exact htimer t (by rw [ht]; rfl)

end Sys2Proof.Machine
end

