-- ==== Sys2Proof/Proofs/Resets.lean ====
section
/-! SUPPORT. What the two resets leave while the settings load runs (R29, R30, R169, R178). -/

namespace Sys2Proof.Machine

variable {s : State}

/-! ### The units through the load -/

theorem State.loading_light (k : ResetKind) (w : Surroundings) (n : BayNo) : (State.loading k w).light n = .cold := Vector.getElem_replicate ..

theorem State.loading_channel (k : ResetKind) (w : Surroundings) (place : LightPlace) (c : Colour) :
    (State.loading k w).channel place c = { system := none, ports := ⟨none, none⟩ } := by
  cases place with
  | bay n => rw [State.channel, State.loading_light]; cases c <;> rfl
  | enclosure => cases c <;> rfl

theorem State.loading_port (k : ResetKind) (w : Surroundings) (p : Port) :
    ((State.loading k w).links.get p).denied = false ∧ (State.loading k w).attention.get p = .cold := by cases p <;> exact ⟨rfl, rfl⟩

theorem AttentionUnit.cold_pending (i : Fin 8) : AttentionUnit.cold.pending[i] = false := Vector.getElem_replicate ..

/-- The byte of a group of records of which none is published. -/
theorem groupByte_none {α : Type} {n : Nat} (bytes : α → List (Option Byte)) (base size a : Nat) :
    groupByte (Vector.replicate n none) bytes base size a = 0 := by
  unfold groupByte
  split
  · rw [Vector.getElem_replicate]; rfl
  · rfl

theorem bitmapByte_zero (k : Nat) : bitmapByte 0 k = 0 := by
  unfold bitmapByte
  refine BitVec.eq_of_getLsbD_eq fun j hj => ?_
  simp

/-- Every byte of a status area with nothing published reads 0x00 (R169). -/
theorem State.statusByte_blank (h : s.status = .blank) (a : Nat) : s.statusByte a = 0 := by
  have hnone : ∀ {α : Type} (bytes : α → List (Option Byte)) (k : Nat), recordByte (piecesOf bytes none) k a = 0 := fun _ _ => rfl
  unfold State.statusByte
  rw [h]
  simp only [Status.blank, hnone, groupByte_none, bitmapByte_zero, ite_self]

theorem State.loading_present (k : ResetKind) (w : Surroundings) (i : Fin 6) :
    ((State.loading k w).fans.fans[i] : Fan).present = w.fanPresence[i] := by
  show ((w.fanPresence.map fun p => ({ record := .cold, latest := 0, present := p } : Fan))[i.val]).present = _
  rw [Vector.getElem_map]; rfl

/-! ### What stands outside the load -/

theorem State.coldSurroundings_present (straps : Straps) (writes : Nat) (i : Fin 6) :
    (s.coldSurroundings straps writes).fanPresence[i] = (s.fans.fans[i] : Fan).present := Vector.getElem_map ..

theorem State.coldSurroundings_line (straps : Straps) (writes : Nat) (n : BayNo) :
    (s.coldSurroundings straps writes).lines[n] = { s.line n with trip := false, sw5 := false, sw12 := false } := Vector.getElem_map ..

/-- With no store under way a reset leaves the settings memory as it was (R180). -/
theorem State.interruptedMemory_idle (writes : Nat) (h : ∀ p slip image, s.store ≠ .storing p slip image) :
    s.interruptedMemory writes = s.settingsMem := by
  unfold State.interruptedMemory
  split
  next p slip image hs => exact absurd hs (h p slip image)
  next => rfl

end Sys2Proof.Machine
end

