-- ==== Sys2Proof/Proofs/ResetsBeginLoad.lean ====
section
/-! SUPPORT. The resets and the state after reset. -/

namespace Sys2Proof.Machine

/-- Settles O4: what the load's start and its surroundings give, for both kinds. -/
theorem resetsBeginLoad : Obligations.ResetsBeginLoad := by
  unfold Obligations.ResetsBeginLoad
  intro s straps writes begun kept
  have hbegun : ∀ k w, begun (State.loading k w) := by
    intro k w
    refine ⟨rfl, rfl, rfl, rfl, rfl, rfl, rfl, rfl, rfl, rfl, rfl, ⟨rfl, rfl, rfl, rfl⟩, fun n => ?_, fun p => ?_, fun n => ?_,
      State.loading_channel k w, rfl, State.statusByte_blank rfl⟩
    · rw [State.loading_bay]; exact ⟨rfl, rfl, rfl, rfl, rfl, rfl, rfl, rfl, rfl, rfl⟩
    · obtain ⟨hdenied, hunit⟩ := State.loading_port k w p
      rw [State.loading_reader, hunit]
      exact ⟨rfl, rfl, rfl, hdenied, rfl, AttentionUnit.cold_pending⟩
    · rw [State.loading_light]; exact ⟨rfl, rfl⟩
  refine ⟨⟨_, rfl, hbegun _ _, ?_, rfl, rfl, fun n => ?_, fun _ => rfl⟩, ⟨_, rfl, hbegun _ _, ?_, rfl, rfl, rfl, rfl⟩, hbegun _ _, rfl,
    fun n => ?_, fun _ => rfl⟩
  · refine ⟨rfl, rfl, rfl, fun i => ?_, State.interruptedMemory_idle writes, fun n => ?_⟩
    · exact (State.loading_present ..).trans (State.coldSurroundings_present ..)
    · rw [show (State.loading .cold (s.coldSurroundings straps writes)).line n = _ from State.coldSurroundings_line straps writes n]
      exact ⟨rfl, rfl⟩
  · rw [show (State.loading .cold (s.coldSurroundings straps writes)).line n = _ from State.coldSurroundings_line straps writes n]
    exact ⟨rfl, rfl⟩
  · refine ⟨rfl, rfl, rfl, fun i => ?_, State.interruptedMemory_idle writes, fun n => ⟨rfl, rfl⟩⟩
    exact (State.loading_present ..).trans (State.coldSurroundings_present straps writes i)
  · rw [show State.reset.line n = BayLines.quiet from Vector.getElem_replicate ..]
    exact ⟨rfl, rfl⟩

end Sys2Proof.Machine
end

