-- ==== Sys2Proof/Proofs/ImageLayout.lean ====
section
/-! SUPPORT. The settings image: where its sections lie (Table 11-16), and what its checks find (R177). -/

namespace Sys2Proof.Machine

/-! ### Lengths -/

theorem length_flatMap_width {α : Type} {w : Nat} {f : α → List Byte} (l : List α) (hw : ∀ x, (f x).length = w) : (l.flatMap f).length = w * l.length := by
  induction l with
  | nil => rfl
  | cons x t ih => rw [List.flatMap_cons, List.length_append, ih, hw, List.length_cons, Nat.mul_succ, Nat.add_comm]

theorem length_curve_bytes (c : Curve) : c.bytes.length = 12 := rfl

theorem length_limits_bytes (l : ZoneLimits) : l.bytes.length = 8 := rfl

theorem length_fans_bytes (f : FanSettings) : f.bytes.length = 14 := rfl

theorem length_windowBytes (w : WindowSetting) : (windowBytes w).length = 4 := rfl

theorem length_timing_bytes (t : Timing) : t.bytes.length = 6 := rfl

theorem length_account_bytes (a : AccountSettings) : a.bytes.length = 8 := rfl

theorem length_schedule_bytes (c : Schedule) : c.bytes.length = 4 := rfl

theorem length_bays_bytes (v : Vector BaySettings 60) : (v.toList.flatMap BaySettings.bytes).length = 360 := by
  rw [length_flatMap_width (w := 6) _ fun _ => rfl, Vector.length_toList]

theorem length_profiles_bytes (v : Vector Profile 8) : (v.toList.flatMap Profile.bytes).length = 80 := by
  rw [length_flatMap_width (w := 10) _ fun _ => rfl, Vector.length_toList]

theorem length_supplies_bytes (v : Vector SupplySetting 4) : (v.toList.flatMap SupplySetting.bytes).length = 16 := by
  rw [length_flatMap_width (w := 4) _ fun _ => rfl, Vector.length_toList]

theorem length_zones_bytes (v : Vector ZoneSettings 4) : (v.toList.flatMap fun z => z.curve.bytes ++ z.limits.bytes).length = 80 := by
  rw [length_flatMap_width (w := 20) _ fun _ => rfl, Vector.length_toList]

theorem length_sensors_bytes (v : Vector SensorSettings 8) : (v.toList.flatMap SensorSettings.bytes).length = 16 := by
  rw [length_flatMap_width (w := 2) _ fun _ => rfl, Vector.length_toList]

theorem length_patterns_bytes (v : Vector Pattern 8) : ((v.toList.drop 2).flatMap fun p => [p.on, p.off]).length = 12 := by
  rw [length_flatMap_width (w := 2) _ fun _ => rfl, List.length_drop, Vector.length_toList]

theorem length_sources_bytes (v : Vector SourceConfig 8) : (v.toList.flatMap SourceConfig.bytes).length = 32 := by
  rw [length_flatMap_width (w := 4) _ fun _ => rfl, Vector.length_toList]

theorem length_sections (c : Settings) : c.sections.length = 672 := by
  simp only [Settings.sections, List.length_append, length_bays_bytes, length_timing_bytes, length_profiles_bytes, length_supplies_bytes,
    length_account_bytes, length_schedule_bytes, length_zones_bytes, length_le16, length_sensors_bytes, length_fans_bytes,
    length_patterns_bytes, length_sources_bytes, length_windowBytes, List.length_cons, List.length_nil]

theorem length_imageHeader (sum : Nat) : (imageHeader sum).length = 16 := rfl

theorem length_image (c : Settings) : c.image.length = 688 := by
  rw [Settings.image, List.length_append, length_sections, length_imageHeader]

/-! ### Where the sections lie (Table 11-16) -/

/-- The sections of a live copy's image at their offsets, in an area that is read by f. -/
structure Imaged (f : Nat → Byte) (c : Settings) : Prop where
  header    : Lies f 0 (imageHeader (imageChecksum c.sections))
  bays      : ∀ n : BayNo, Lies f (0x010 + 6 * n.val) c.bays[n].bytes
  timing    : Lies f 0x178 c.timing.bytes
  profiles  : ∀ i : Fin 8, Lies f (0x17E + 10 * i.val) c.profiles[i].bytes
  supplies  : ∀ i : Fin 4, Lies f (0x1CE + 4 * i.val) c.supplies[i].bytes
  account   : Lies f 0x1DE c.account.bytes
  schedule  : Lies f 0x1E6 c.schedule.bytes
  zones     : ∀ z : Fin 4, Lies f (0x1EA + 20 * z.val) (c.zones[z].curve.bytes ++ c.zones[z].limits.bytes)
  staleTime : Lies f 0x23A (le16 c.staleTime)
  sensors   : ∀ i : Fin 8, Lies f (0x23C + 2 * i.val) c.sensors[i].bytes
  fans      : Lies f 0x24C ([BitVec.ofNat 8 c.fans.count, 0] ++ c.fans.bytes)
  patterns  : ∀ i : Fin 8, 2 ≤ i.val → Lies f (0x25C + 2 * (i.val - 2)) [c.patterns[i].on, c.patterns[i].off]
  sources   : ∀ (p : Port) (i : Fin 8), Lies f ((match p with | .a => 0x268 | .b => 0x288) + 4 * i.val) (c.attention.get p)[i].bytes
  windows   : ∀ p : Port, Lies f (match p with | .a => 0x2A8 | .b => 0x2AC) (windowBytes (c.windows.get p))

/-- The items of a vector after one another. -/
theorem lies_vector {α : Type} {n a w : Nat} {f : Nat → Byte} {bytes : α → List Byte} {v : Vector α n} (hw : ∀ x, (bytes x).length = w)
    (h : Lies f a (v.toList.flatMap bytes)) (i : Fin n) : Lies f (a + w * i.val) (bytes v[i]) := by
  have hi := lies_flatMap hw h i.val (by simp)
  simpa using hi

theorem Imaged.of_lies {f : Nat → Byte} {c : Settings} (h : Lies f 0 c.image) : Imaged f c := by
  obtain ⟨hheader, hsections⟩ := lies_append.1 h
  rw [length_imageHeader] at hsections
  simp only [Settings.sections, lies_append, List.length_append, length_bays_bytes, length_timing_bytes, length_profiles_bytes,
    length_supplies_bytes, length_account_bytes, length_schedule_bytes, length_zones_bytes, length_le16, length_sensors_bytes,
    length_fans_bytes, length_patterns_bytes, length_sources_bytes, length_windowBytes, List.length_cons, List.length_nil] at hsections
  obtain ⟨⟨⟨⟨⟨⟨⟨⟨⟨⟨⟨⟨⟨⟨hbays, htiming⟩, hprofiles⟩, hsupplies⟩, haccount⟩, hschedule⟩, hzones⟩, hstale⟩, hsensors⟩, hfans⟩, hpatterns⟩,
    ha⟩, hb⟩, hwa⟩, hwb⟩ := hsections
  exact
    { header := hheader
      bays := lies_vector (fun _ => rfl) hbays
      timing := htiming
      profiles := lies_vector (fun _ => rfl) hprofiles
      supplies := lies_vector (fun _ => rfl) hsupplies
      account := haccount
      schedule := hschedule
      zones := lies_vector (bytes := fun z : ZoneSettings => z.curve.bytes ++ z.limits.bytes) (fun _ => rfl) hzones
      staleTime := hstale
      sensors := lies_vector (fun _ => rfl) hsensors
      fans := lies_append.2 hfans
      patterns := fun i hi => by
        have hat := lies_flatMap (w := 2) (f := fun p : Pattern => [p.on, p.off]) (fun _ => rfl) hpatterns (i.val - 2) (by simp; omega)
        simpa [Nat.add_sub_cancel' hi] using hat
      sources := fun p i => by
        cases p
        · exact lies_vector (bytes := SourceConfig.bytes) (fun _ => rfl) ha i
        · exact lies_vector (bytes := SourceConfig.bytes) (fun _ => rfl) hb i
      windows := fun p => by
        cases p
        · exact hwa
        · exact hwb }

/-- Bytes that lie within a list stand there. -/
theorem drop_take_of_lies {img l : List Byte} {a : Nat} (h : Lies (img.getD · 0) a l) (hlen : a + l.length ≤ img.length) :
    (img.drop a).take l.length = l := by
  refine List.ext_getElem (by simp; omega) fun k hk hk' => ?_
  have hat : img.getD (a + k) 0 = l.getD k 0 := h k hk'
  rw [List.getD_eq_getElem _ _ (by omega), List.getD_eq_getElem _ _ hk'] at hat
  rw [List.getElem_take, List.getElem_drop, hat]

theorem Settings.image_lies (c : Settings) : Imaged (c.image.getD · 0) c :=
  .of_lies fun k _ => by rw [Nat.zero_add]

/-! ### Reading the image back (R177) -/

theorem lies_nil {f : Nat → Byte} {a : Nat} : Lies f a [] ↔ True := iff_true_intro fun _ h => absurd h (Nat.not_lt_zero _)

theorem lies_cons {f : Nat → Byte} {a : Nat} {x : Byte} {l : List Byte} : Lies f a (x :: l) ↔ f a = x ∧ Lies f (a + 1) l := by
  refine (lies_append (l := [x])).trans (and_congr_left' ⟨fun h => h 0 Nat.zero_lt_one, fun h k hk => ?_⟩)
  obtain rfl : k = 0 := Nat.lt_one_iff.1 hk
  exact h

section
variable {m : Memory}

theorem read16_of_lies {a n : Nat} (h : Lies (Memory.read m) a (le16 n)) : Memory.read16 m a = BitVec.ofNat 16 n := by
  obtain ⟨h0, h1, -⟩ := by simpa only [le16, lies_cons] using h
  rw [Memory.read16, h0, h1]
  refine BitVec.eq_of_toNat_eq ?_
  rw [BitVec.toNat_append, Nat.shiftLeft_eq, BitVec.toNat_ofNat, BitVec.toNat_ofNat, BitVec.toNat_ofNat, Nat.mul_comm,
    ← Nat.two_pow_add_eq_or_of_lt (by omega)]
  omega

theorem read16_toNat {a n : Nat} (h : Lies (Memory.read m) a (le16 n)) (hn : n < 65536) : (Memory.read16 m a).toNat = n := by
  rw [read16_of_lies h, BitVec.toNat_ofNat]; omega

theorem ofNat_byte {n : Nat} (h : n < 256) : (BitVec.ofNat 8 n).toNat = n := by rw [BitVec.toNat_ofNat]; omega

theorem clampNat_within {lo hi v : Nat} (h : lo ≤ v ∧ v ≤ hi) : (clampNat lo hi v).1 = v := by
  show max lo (min hi v) = v
  omega

theorem givenByte_within {lo hi now n : Nat} (h : lo ≤ n ∧ n ≤ hi) (hb : n < 256) : (givenByte lo hi now (some (BitVec.ofNat 8 n))).1 = n := by
  rw [givenByte, ofNat_byte hb]; exact clampNat_within h

theorem givenHalf_within {lo hi now a n : Nat} (hl : Lies (Memory.read m) a (le16 n)) (h : lo ≤ n ∧ n ≤ hi) (hb : n < 65536) :
    (givenHalf lo hi now (some (Memory.read16 m a))).1 = n := by
  rw [givenHalf, read16_toNat hl hb]; exact clampNat_within h

theorem givenFlag (now : Nat) (b : Bool) : decide ((givenByte 0 1 now (some (flagByte b))).1 = 1) = b := by cases b <;> rfl

/-- A section of n items, each as its item of a vector. -/
theorem ofFn_eq {α : Type} {n : Nat} {f : Fin n → α} {v : Vector α n} (h : ∀ i : Fin n, f i = v[i]) : Vector.ofFn f = v :=
  Vector.ext fun i hi => (Vector.getElem_ofFn hi).trans (h ⟨i, hi⟩)

theorem byteTemp_tempByte {t : Int} (h : TempInRange t) : byteTemp (tempByte t) = (t, false) := by
  obtain ⟨hlo, hhi⟩ := h
  have hb : (tempByte t).toNat = (t + 40).toNat := by rw [tempByte, BitVec.toNat_ofInt]; omega
  unfold byteTemp
  rw [if_neg (by omega), hb]
  exact Prod.ext (by show ((t + 40).toNat : Int) - 40 = t; omega) rfl

theorem finOf_byte4 : ∀ x : Fin 4, finOf 4 (givenByte 0 3 0 (some (BitVec.ofNat 8 x.val))).1 = x := by decide

theorem finOf_byte8 : ∀ x : Fin 8, finOf 8 (givenByte 0 7 0 (some (BitVec.ofNat 8 x.val))).1 = x := by decide

variable {c : Settings}

theorem bay_read_back (h : Imaged (Memory.read m) c) (n : BayNo) : (BaySettings.apply (imageBay m n) (.default n)).1 = c.bays[n] := by
  obtain ⟨hpolicy, hcls, hzone, hprofile, hshed, hlatch, -⟩ := by simpa only [BaySettings.bytes, lies_cons, Nat.add_assoc] using h.bays n
  generalize c.bays[n] = b at *
  have hpol : ∀ p : Policy, Policy.ofCode (givenByte 0 2 0 (some (BitVec.ofNat 8 p.code))).1 = p := by intro p; cases p <;> rfl
  simp only [BaySettings.apply, imageBay, Nat.add_assoc, hpolicy, hcls, hzone, hprofile, hshed, hlatch]
  exact congr (congr (congr (congr (congr (congrArg BaySettings.mk (hpol _)) (finOf_byte4 _)) (finOf_byte4 _)) (finOf_byte8 _))
    (givenFlag _ _)) (givenFlag _ _)

theorem timing_read_back (h : Imaged (Memory.read m) c) (hr : c.inRange) : (imageTiming m).1 = c.timing := by
  obtain ⟨hsettle, hdebounce, hlimit, hbase, -⟩ := by simpa only [Timing.bytes, lies_append, length_le16, lies_cons] using h.timing
  obtain ⟨hs, hs', hd, hd', hl, hb, hb'⟩ := hr.timing
  generalize c.timing = t at *
  simp only [imageTiming, show Memory.read m 0x17A = _ from hdebounce, show Memory.read m 0x17B = _ from hlimit,
    show Memory.read m 0x17C = _ from hbase, read16_toNat hsettle (by omega), ofNat_byte (show t.debounce < 256 by omega),
    ofNat_byte (show t.retryLimit < 256 by omega), ofNat_byte (show t.retryBase < 256 by omega)]
  exact congr (congr (congr (congrArg Timing.mk (clampNat_within ⟨hs, hs'⟩)) (clampNat_within ⟨hd, hd'⟩)) (clampNat_within ⟨Nat.zero_le _, hl⟩))
    (clampNat_within ⟨hb, hb'⟩)

theorem profile_read_back (h : Imaged (Memory.read m) c) (hr : c.inRange) (i : Fin 8) :
    (Profile.apply (imageProfile m i) .default0).1 = c.profiles[i] := by
  obtain ⟨⟨⟨⟨hpeak, hsteady⟩, hi5⟩, hspin⟩, hpark⟩ := by simpa only [Profile.bytes, lies_append, length_le16, List.length_append] using h.profiles i
  obtain ⟨hp, hs, hi, hsp, hsp', hpa, hpa'⟩ := hr.profiles i
  generalize c.profiles[i] = p at *
  simp only [Profile.apply, imageProfile]
  rw [givenHalf_within hpeak ⟨Nat.zero_le _, by omega⟩ hp, givenHalf_within hsteady ⟨Nat.zero_le _, by omega⟩ (by omega),
    givenHalf_within hi5 ⟨Nat.zero_le _, by omega⟩ hi, givenHalf_within hspin ⟨hsp, hsp'⟩ (by omega),
    givenHalf_within hpark ⟨hpa, hpa'⟩ (by omega), Nat.min_eq_left hs]

theorem supply_read_back (h : Imaged (Memory.read m) c) (hr : c.inRange) (i : Fin 4) :
    SupplySetting.apply (imageSlot m i) ⟨0, 0⟩ = c.supplies[i] := by
  obtain ⟨h12, h5⟩ := by simpa only [SupplySetting.bytes, lies_append, length_le16] using h.supplies i
  obtain ⟨hc12, hc5⟩ := hr.supplies i
  generalize c.supplies[i] = p at *
  simp only [SupplySetting.apply, imageSlot]
  rw [givenHalf_within h12 ⟨Nat.zero_le _, by omega⟩ hc12, givenHalf_within h5 ⟨Nat.zero_le _, by omega⟩ hc5]

theorem account_read_back (h : Imaged (Memory.read m) c) (hr : c.inRange) :
    (AccountSettings.apply (imageAccount m) Settings.default.account).1 = c.account := by
  obtain ⟨⟨⟨hmode, h12⟩, h5⟩, hshed, hdelay, -⟩ := by
    simpa only [AccountSettings.bytes, lies_append, length_le16, lies_cons, List.length_append, List.length_cons] using h.account
  obtain ⟨hr12, hr5, hd⟩ := hr.account
  generalize c.account = a at *
  have hmodes : ∀ x : SupplyMode, (if (givenByte 0 1 1 (some (BitVec.ofNat 8 x.code))).1 = 0 then SupplyMode.combined else .spareOne) = x := by
    intro x; cases x <;> rfl
  simp only [AccountSettings.apply, imageAccount, show Memory.read m 0x1DE = _ from hmode, show Memory.read m 0x1E3 = _ from hshed,
    show Memory.read m 0x1E4 = _ from hdelay]
  rw [givenHalf_within (a := 0x1DF) h12 ⟨Nat.zero_le _, by omega⟩ hr12, givenHalf_within (a := 0x1E1) h5 ⟨Nat.zero_le _, by omega⟩ hr5,
    givenByte_within ⟨Nat.zero_le _, hd⟩ (by omega), givenFlag]
  exact congrArg (fun x => AccountSettings.mk x a.reserve12 a.reserve5 a.shed a.delay) (hmodes a.mode)

theorem schedule_read_back (h : Imaged (Memory.read m) c) (hr : c.inRange) :
    (Schedule.apply (imageSchedule m) Settings.default.schedule).1 = c.schedule := by
  obtain ⟨⟨hlimit, -⟩, hstagger⟩ := by
    simpa only [Schedule.bytes, lies_append, length_le16, lies_cons, List.length_append, List.length_cons] using h.schedule
  obtain ⟨hl, hl', hs⟩ := hr.schedule
  generalize c.schedule = a at *
  simp only [Schedule.apply, imageSchedule, show Memory.read m 0x1E6 = _ from hlimit]
  rw [givenByte_within ⟨hl, hl'⟩ (by omega), givenHalf_within (a := 0x1E8) hstagger ⟨Nat.zero_le _, hs⟩ (by omega)]

theorem stale_read_back (h : Imaged (Memory.read m) c) (hr : c.inRange) : (staleTimeOf (imageStaleTime m)).1 = c.staleTime := by
  obtain ⟨hl, hh⟩ := hr.staleTime
  rw [staleTimeOf, imageStaleTime, read16_toNat h.staleTime (by omega)]
  exact clampNat_within ⟨hl, hh⟩

theorem point_read_back {a : Nat} {p : CurvePoint} (ht : Memory.read m a = tempByte p.t) (hd : Lies (Memory.read m) (a + 1) (le16 p.d))
    (hr : p.inRange) : (CurvePoint.ofRaw { t := Memory.read m a, d := Memory.read16 m (a + 1) }).1 = p := by
  obtain ⟨htemp, hduty⟩ := hr
  simp only [CurvePoint.ofRaw]
  rw [ht, byteTemp_tempByte htemp, read16_toNat hd (by omega), clampNat_within ⟨Nat.zero_le _, hduty⟩]

theorem curve_read_back (h : Imaged (Memory.read m) c) (hr : c.inRange) (z : Fin 4) : (Curve.ofRaw (imageCurve m z)).1 = c.zones[z].curve := by
  obtain ⟨hcurve, -⟩ := lies_append.1 (h.zones z)
  obtain ⟨hr1, hr2, hr3, hr4⟩ := (hr.zones z).points
  generalize c.zones[z].curve = q at *
  obtain ⟨⟨⟨⟨ht1, hd1⟩, ht2, hd2⟩, ht3, hd3⟩, ht4, hd4⟩ := by
    simpa only [Curve.bytes, lies_append, lies_cons, length_le16, List.length_append, List.length_cons] using hcurve
  simp only [Curve.ofRaw, imageCurve]
  exact congr (congr (congr (congrArg Curve.mk (point_read_back ht1 hd1 hr1)) (point_read_back ht2 hd2 hr2)) (point_read_back ht3 hd3 hr3))
    (point_read_back ht4 hd4 hr4)

theorem limits_read_back (h : Imaged (Memory.read m) c) (hr : c.inRange) (z : Fin 4) (now : ZoneLimits) :
    (ZoneLimits.apply (imageLimits m z) now).1 = c.zones[z].limits := by
  have hlimits := (lies_append.1 (h.zones z)).2
  obtain ⟨hceil, hcrit, -⟩ := (hr.zones z).temps
  obtain ⟨hh, hv, hsf, hst⟩ := (hr.zones z).numbers
  generalize c.zones[z].limits = l at *
  rw [show (c.zones[z].curve.bytes).length = 12 from rfl] at hlimits
  obtain ⟨⟨⟨bh, bce, bcr, bv, -⟩, bsf⟩, bst⟩ := by
    simpa only [ZoneLimits.bytes, lies_append, lies_cons, length_le16, List.length_append, List.length_cons] using hlimits
  simp only [ZoneLimits.apply, imageLimits]
  have hce : ∀ {b : Byte} {t now : Int}, b = tempByte t → TempInRange t → (givenTemp now (some b)).1 = t := by
    rintro b t now rfl ht
    rw [givenTemp, byteTemp_tempByte ht]
  rw [hce bce hceil, hce bcr hcrit, givenHalf_within (a := 490 + 20 * z.val + 12 + 4) bsf ⟨Nat.zero_le _, hsf⟩ (by omega), givenHalf_within (a := 490 + 20 * z.val + 12 + 6) bst ⟨Nat.zero_le _, hst⟩ (by omega),
    show Memory.read m (490 + 20 * z.val + 12) = _ from bh, show Memory.read m (490 + 20 * z.val + 12 + 3) = _ from bv,
    givenByte_within ⟨Nat.zero_le _, hh⟩ (by omega), givenByte_within ⟨Nat.zero_le _, hv⟩ (by omega)]

theorem zone_read_back (h : Imaged (Memory.read m) c) (hr : c.inRange) (z : Fin 4) : imageZone m z = c.zones[z] := by
  have hz := hr.zones z
  have hcurve : c.zones[z].curve.accepted = true := by
    obtain ⟨⟨r1, r2, r3⟩, d1, d2, d3⟩ := And.intro hz.rising hz.duties
    generalize c.zones[z].curve = q at *
    simp [Curve.accepted, r1, r2, r3, d1, d2, d3]
  have hlimits : c.zones[z].limits.accepted = true := decide_eq_true hz.temps.2.2
  simp only [imageZone]
  rw [curve_read_back h hr, limits_read_back h hr, if_pos hcurve, if_pos hlimits]

theorem sensor_read_back (h : Imaged (Memory.read m) c) (hr : c.inRange) (i : Fin 8) :
    (SensorSettings.apply (imageSensor m i) ⟨none, 0⟩).1 = c.sensors[i] := by
  obtain ⟨hzone, hoffset, -⟩ := by simpa only [SensorSettings.bytes, lies_cons] using h.sensors i
  obtain ⟨hlo, hhi⟩ := hr.sensors i
  generalize c.sensors[i] = x at *
  have hz : ∀ z : Option (Fin 4), (sensorZoneOf (sensorZoneByte z)).1 = z := by
    intro z
    rcases z with _ | z
    · rfl
    · revert z; decide
  have ho : (sensorOffsetOf (signed8 x.offset)).1 = x.offset := by
    show max (-10) (min 10 (signed8 x.offset).toInt) = x.offset
    rw [signed8, BitVec.toInt_ofInt, Int.bmod_eq_of_le (by omega) (by omega)]
    omega
  simp only [SensorSettings.apply, imageSensor, hzone, hoffset]
  rw [hz, ho]

theorem fans_read_back (h : Imaged (Memory.read m) c) (hr : c.inRange) : (FanSettings.apply (imageFans m) Settings.default.fans).1 = c.fans := by
  obtain ⟨⟨hcount, -⟩, hfans⟩ := by simpa only [lies_append, lies_cons, List.length_cons] using h.fans
  obtain ⟨⟨⟨⟨⟨⟨hrpm, hidle⟩, hcur⟩, hdmin⟩, hup⟩, hdown⟩, hres⟩ := by
    simpa only [FanSettings.bytes, lies_append, length_le16, List.length_append] using hfans
  obtain ⟨⟨c1, c2⟩, ⟨r1, r2⟩, ⟨i1, i2⟩, ⟨d1, d2, d3⟩, s1, s2, s3, s4⟩ := hr.fans
  generalize c.fans = f at *
  simp only [FanSettings.apply, imageFans, show Memory.read m 0x24C = _ from hcount]
  rw [givenByte_within ⟨c1, c2⟩ (by omega), givenHalf_within (a := 0x24E) hrpm ⟨r1, r2⟩ (by omega),
    givenHalf_within (a := 0x250) hidle ⟨Nat.zero_le _, by omega⟩ (by omega), givenHalf_within (a := 0x252) hcur ⟨Nat.zero_le _, by omega⟩ i2,
    givenHalf_within (a := 0x254) hdmin ⟨d1, d2⟩ (by omega), givenHalf_within (a := 0x256) hup ⟨s1, s2⟩ (by omega),
    givenHalf_within (a := 0x258) hdown ⟨s3, s4⟩ (by omega), givenHalf_within (a := 0x25A) hres ⟨Nat.zero_le _, d3⟩ (by omega),
    Nat.min_eq_left i1]

theorem pattern_read_back (h : Imaged (Memory.read m) c) (hr : c.inRange) (i : Fin 8) :
    (if i.val < 2 then ⟨0, 0⟩ else Pattern.apply (imagePattern m i) ⟨0, 0⟩) = c.patterns[i] := by
  obtain ⟨h0, h1⟩ := hr.patterns
  split
  next hi =>
    obtain rfl | rfl : i = 0 ∨ i = 1 := by omega
    · exact h0.symm
    · exact h1.symm
  next hi =>
    obtain ⟨hon, hoff, -⟩ := by simpa only [lies_cons] using h.patterns i (by omega)
    simp only [Pattern.apply, imagePattern, hon, hoff, Option.getD_some]

theorem source_bytes_read_back {a : Nat} {x : SourceConfig} (h : Lies (Memory.read m) a x.bytes) (hr : x.inRange) :
    (SourceConfig.apply ⟨some (Memory.read m a), some (Memory.read m (a + 1)), some (Memory.read m (a + 2)), some (Memory.read m (a + 3))⟩
      .default).1 = x := by
  obtain ⟨henable, hlevel, hauto, hvector, -⟩ := by simpa only [SourceConfig.bytes, lies_cons] using h
  obtain ⟨hl, hl', hv⟩ := hr
  have hvec : BitVec.ofNat 8 (givenByte 0 0xFE 0xF0 (some x.vector)).1 = x.vector := by
    have hlt : x.vector.toNat ≤ 0xFE := by
      have := x.vector.isLt
      have hne : x.vector.toNat ≠ 0xFF := fun he => hv (BitVec.eq_of_toNat_eq he)
      omega
    rw [givenByte, clampNat_within ⟨Nat.zero_le _, hlt⟩, BitVec.ofNat_toNat, BitVec.setWidth_eq]
  simp only [SourceConfig.apply, henable, show Memory.read m (a + 1) = _ from hlevel, show Memory.read m (a + 2) = _ from hauto,
    show Memory.read m (a + 3) = _ from hvector]
  rw [givenFlag, givenFlag, givenByte_within ⟨hl, hl'⟩ (by omega)]
  exact congrArg (SourceConfig.mk x.enable x.level x.auto) hvec

theorem source_read_back (h : Imaged (Memory.read m) c) (hr : c.inRange) (p : Port) (i : Fin 8) :
    (SourceConfig.apply (imageSource m p i) .default).1 = (c.attention.get p)[i] := by
  cases p
  · exact source_bytes_read_back (h.sources .a i) (hr.attention .a i)
  · exact source_bytes_read_back (h.sources .b i) (hr.attention .b i)

theorem window_read_back (h : Imaged (Memory.read m) c) (p : Port) : imageWindow m p = c.windows.get p := by
  have hwindow := h.windows p
  generalize c.windows.get p = w at *
  obtain ⟨⟨hcode, -⟩, hbase⟩ := by simpa only [windowBytes, lies_append, lies_cons, List.length_cons] using hwindow
  have hb := read16_of_lies hbase
  rw [BitVec.ofNat_toNat, BitVec.setWidth_eq] at hb
  exact congr (congrArg WindowSetting.mk hcode) hb

/-- An image of settings in range gives those settings back. -/
theorem ofImage_read_back (h : Imaged (Memory.read m) c) (hr : c.inRange) : Settings.ofImage m = c := by
  unfold Settings.ofImage
  rw [ofFn_eq (bay_read_back h), timing_read_back h hr, ofFn_eq (profile_read_back h hr), ofFn_eq (supply_read_back h hr),
    account_read_back h hr, schedule_read_back h hr, ofFn_eq (zone_read_back h hr), stale_read_back h hr, ofFn_eq (sensor_read_back h hr),
    fans_read_back h hr, ofFn_eq (pattern_read_back h hr), ofFn_eq (source_read_back h hr .a), ofFn_eq (source_read_back h hr .b),
    window_read_back h .a, window_read_back h .b]
  rfl

end

end Sys2Proof.Machine
end

