-- ==== Sys2Proof/Proofs/StoreWrites.lean ====
section
/-! SUPPORT. The checks of a stored image and the writes of a store (R177, R180). -/

namespace Sys2Proof.Machine

variable {m : Memory}

/-! ### The checks (R177) -/

theorem byteSum_lt (l : List Byte) : byteSum l < 65536 := Nat.mod_lt _ (by decide)

/-- The bytes that the checksum covers: those of the image with the checksum bytes counted as 0. -/
theorem checked_bytes {c : Settings} (h : ∀ a, a < 688 → Memory.read m a = c.image.getD a 0) :
    ((List.range 688).map fun a => if a = 8 ∨ a = 9 then 0 else Memory.read m a) = imageHeader 0 ++ c.sections := by
  refine List.ext_getElem (by rw [List.length_map, List.length_range, List.length_append, length_sections]; rfl) fun a ha ha' => ?_
  have hlt : a < 688 := by simpa using ha
  rw [List.getElem_map, List.getElem_range, h a hlt, Settings.image, List.getElem_append]
  by_cases hhead : a < 16
  · rw [List.getD_append _ _ _ _ hhead, dif_pos (show a < (imageHeader 0).length from hhead)]
    interval_cases a <;> rfl
  · rw [if_neg (by omega), List.getD_append_right _ _ _ _ (by rw [length_imageHeader]; omega), dif_neg (show ¬ a < (imageHeader 0).length from hhead),
      List.getD_eq_getElem _ _ (by rw [length_imageHeader, length_sections]; omega)]
    simp only [length_imageHeader]

/-- A memory that holds the image of a live copy passes the four checks. -/
theorem checkImage_stored {c : Settings} (h : ∀ a, a < 688 → Memory.read m a = c.image.getD a 0) : checkImage m = .none := by
  have hat : Imaged (Memory.read m) c := .of_lies fun k hk => by rw [Nat.zero_add, h k (by rwa [length_image] at hk)]
  obtain ⟨⟨⟨⟨hsig, hlen⟩, hver, -⟩, hsum⟩, -⟩ := by simpa only [imageHeader, lies_append, lies_cons] using hat.header
  obtain ⟨h0, h1, h2, h3, -⟩ := by simpa only [imageSignature, lies_cons] using hsig
  unfold checkImage
  rw [if_neg, if_neg, if_neg, if_neg]
  · rw [show Config.imageLength = 688 from rfl, checked_bytes h, read16_toNat (a := 8) hsum (byteSum_lt _)]
    exact fun hne => hne rfl
  · rw [read16_toNat (a := 4) hlen (by decide)]; exact fun hne => hne rfl
  · rw [show Memory.read m 6 = _ from hver]; decide
  · rw [show Memory.read m 0 = _ from h0, show Memory.read m 1 = _ from h1, show Memory.read m 2 = _ from h2, show Memory.read m 3 = _ from h3]
    exact fun hne => hne rfl

theorem checkImage_unsigned {a : Nat} (h : (a = 0 ∨ a = 3) ∧ Memory.read m a = 0) : checkImage m = .badSignature := by
  unfold checkImage
  rw [if_pos]
  intro heq
  obtain ⟨rfl | rfl, h0⟩ := h
  · rw [h0] at heq; exact absurd (List.cons_eq_cons.1 heq).1 (by decide)
  · rw [h0] at heq; exact absurd (show (0 : Byte) = 0xC3 from congrArg (·.getD 3 0) heq) (by decide)

/-! ### Writes one after another (R180) -/

/-- The memory after writes, each an address and its byte. -/
def Memory.writes (m : Memory) (ws : List (Nat × Byte)) : Memory := ws.foldl (fun t w => Memory.write t w.1 w.2) m

/-- len bytes of an image from an address on, in address order. -/
def imageRun (image : List Byte) (from' len : Nat) : List (Nat × Byte) := (List.range len).map fun k => (from' + k, image.getD (from' + k) 0)

/-- The writes of a store in their order. -/
def storeOrder (image : List Byte) : List (Nat × Byte) :=
  (List.range 4).map (fun k => (k, 0)) ++ imageRun image 16 672 ++ imageRun image 4 12 ++ imageRun image 0 4

theorem Memory.writes_append (m : Memory) (l r : List (Nat × Byte)) : m.writes (l ++ r) = (m.writes l).writes r := List.foldl_append ..

/-- A byte that no write names reads as before. -/
theorem Memory.read_writes_apart {ws : List (Nat × Byte)} {a : Nat} (h : ∀ w ∈ ws, w.1 ≠ a) : Memory.read (m.writes ws) a = Memory.read m a := by
  induction ws generalizing m with
  | nil => rfl
  | cons w t ih =>
    refine (ih fun x hx => h x (List.mem_cons_of_mem _ hx)).trans ?_
    exact Memory.read_write_other _ _ _ _ (h w (List.mem_cons_self ..)).symm

/-- A byte whose last write comes before others reads as that write left it. -/
theorem Memory.read_writes_last (l : List (Nat × Byte)) {r : List (Nat × Byte)} {a : Nat} (v : Byte) (h : ∀ w ∈ r, w.1 ≠ a) :
    Memory.read (m.writes (l ++ (a, v) :: r)) a = v := by
  rw [Memory.writes_append]
  exact (Memory.read_writes_apart h).trans (Memory.read_write_same ..)

/-- The bytes of a run that stands after other writes. -/
theorem Memory.read_run {image : List Byte} (from' len a : Nat) :
    Memory.read (m.writes (imageRun image from' len)) a = if from' ≤ a ∧ a < from' + len then image.getD a 0 else Memory.read m a := by
  by_cases h : from' ≤ a ∧ a < from' + len
  · obtain ⟨k, rfl⟩ := Nat.exists_eq_add_of_le h.1
    rw [if_pos h]
    have hsplit : imageRun image from' len = imageRun image from' k ++ (from' + k, image.getD (from' + k) 0) ::
        (List.range (len - (k + 1))).map fun j => (from' + (k + (j + 1)), image.getD (from' + (k + (j + 1))) 0) := by
      have hlen : len = k + (len - (k + 1) + 1) := by omega
      unfold imageRun
      conv_lhs => rw [hlen, List.range_add, List.range_succ_eq_map]
      simp [Function.comp_def]
    rw [hsplit]
    refine Memory.read_writes_last _ _ fun w hw => ?_
    obtain ⟨j, -, rfl⟩ := List.mem_map.1 hw
    dsimp only; omega
  · rw [if_neg h]
    refine Memory.read_writes_apart fun w hw => ?_
    obtain ⟨j, hj, rfl⟩ := List.mem_map.1 hw
    have := List.mem_range.1 hj
    dsimp only; omega

/-- A piece of an image written in address order. -/
theorem zipIdx_run {image l : List Byte} {from' len : Nat} (hlen : l.length = len) (h : ∀ k, k < len → l[k]? = image[from' + k]?) :
    (l.zipIdx.map fun x => (from' + x.2, x.1)) = imageRun image from' len := by
  subst hlen
  refine List.ext_getElem (by simp [imageRun]) fun k hk hk' => ?_
  have hl : k < l.length := by simpa using hk
  have hat := h k hl
  rw [List.getElem?_eq_getElem hl] at hat
  simp [imageRun, ← hat]

/-- The writes of a store of an image of full length, in R180's order. -/
theorem storeWrites_eq {image : List Byte} (h : image.length = 688) : storeWrites image = storeOrder image := by
  have hsections := zipIdx_run (image := image) (l := image.drop 16) (from' := 16) (len := 672) (by rw [List.length_drop, h]) fun k _ => by
    rw [List.getElem?_drop]
  have hheader := zipIdx_run (image := image) (l := (image.drop 4).take 12) (from' := 4) (len := 12)
    (by rw [List.length_take, List.length_drop, h]; decide) fun k hk => by rw [List.getElem?_take_of_lt hk, List.getElem?_drop]
  have hsign := zipIdx_run (image := image) (l := image.take 4) (from' := 0) (len := 4) (by rw [List.length_take, h]; decide) fun k hk => by
    rw [List.getElem?_take_of_lt hk, Nat.zero_add]
  unfold storeWrites storeOrder
  dsimp only
  rw [hsections, hheader, hsign]
  rfl

theorem length_imageRun (image : List Byte) (from' len : Nat) : (imageRun image from' len).length = len := by simp [imageRun]

theorem length_storeOrder (image : List Byte) : (storeOrder image).length = 692 := by
  simp only [storeOrder, List.length_append, List.length_map, List.length_range, length_imageRun]

theorem mem_imageRun {image : List Byte} {from' len : Nat} {w : Nat × Byte} (h : w ∈ imageRun image from' len) :
    from' ≤ w.1 ∧ w.1 < from' + len := by
  obtain ⟨j, hj, rfl⟩ := List.mem_map.1 h
  have := List.mem_range.1 hj
  dsimp only; omega

/-- The settings memory after the first k writes of a store. -/
def Memory.afterFirst (m : Memory) (image : List Byte) (k : Nat) : Memory := m.writes ((storeOrder image).take k)

theorem Memory.afterWrites_eq {image : List Byte} (h : image.length = 688) (k : Nat) : m.afterWrites image k = m.afterFirst image k := by
  unfold Memory.afterWrites; rw [storeWrites_eq h]; rfl

/-- All writes made: the image, and every other byte as it was. -/
theorem Memory.read_afterAll (image : List Byte) (a : Nat) :
    Memory.read (m.afterFirst image 692) a = if a < 688 then image.getD a 0 else Memory.read m a := by
  rw [Memory.afterFirst, List.take_of_length_le (by rw [length_storeOrder]), storeOrder, Memory.writes_append, Memory.writes_append,
    Memory.writes_append, Memory.read_run, Memory.read_run, Memory.read_run]
  by_cases h1 : 0 ≤ a ∧ a < 0 + 4
  · rw [if_pos h1, if_pos (by omega)]
  · rw [if_neg h1]
    by_cases h2 : 4 ≤ a ∧ a < 4 + 12
    · rw [if_pos h2, if_pos (by omega)]
    · rw [if_neg h2]
      by_cases h3 : 16 ≤ a ∧ a < 16 + 672
      · rw [if_pos h3, if_pos (by omega)]
      · rw [if_neg h3, if_neg (by omega)]
        refine Memory.read_writes_apart fun w hw => ?_
        obtain ⟨j, hj, rfl⟩ := List.mem_map.1 hw
        have := List.mem_range.1 hj
        dsimp only; omega

theorem storeOrder_below {image : List Byte} {w : Nat × Byte} (h : w ∈ storeOrder image) : w.1 < 688 := by
  simp only [storeOrder, List.mem_append] at h
  obtain ((h | h) | h) | h := h
  · obtain ⟨j, hj, rfl⟩ := List.mem_map.1 h
    have := List.mem_range.1 hj
    dsimp only; omega
  all_goals have := mem_imageRun h; omega

/-- Bytes beyond the image are not written. -/
theorem Memory.read_afterFirst_beyond (image : List Byte) (k : Nat) {a : Nat} (h : 688 ≤ a) : Memory.read (m.afterFirst image k) a = Memory.read m a :=
  Memory.read_writes_apart fun w hw => by have := storeOrder_below (List.mem_of_mem_take hw); omega

/-- From the first write on, and until the last, the signature does not stand. -/
theorem Memory.unsigned_afterFirst (image : List Byte) {k : Nat} (h : 1 ≤ k) (h' : k ≤ 691) : checkImage (m.afterFirst image k) = .badSignature := by
  unfold Memory.afterFirst
  by_cases hk : k ≤ 688
  · -- byte 0 was written first, and is written again only as the 689th
    obtain ⟨j, rfl⟩ : ∃ j, k = j + 1 := ⟨k - 1, by omega⟩
    have hsplit : storeOrder image = (0, 0) :: ([(1, 0), (2, 0), (3, 0)] ++ imageRun image 16 672 ++ imageRun image 4 12 ++ imageRun image 0 4) := rfl
    refine checkImage_unsigned (a := 0) ⟨.inl rfl, ?_⟩
    rw [hsplit, List.take_succ_cons, List.take_append_of_le_length (by
      simp only [List.length_append, length_imageRun, List.length_cons, List.length_nil]; omega)]
    refine Memory.read_writes_last [] 0 fun w hw => ?_
    have hmem := List.mem_of_mem_take hw
    simp only [List.mem_append] at hmem
    obtain (hz | hr) | hr := hmem
    · fin_cases hz <;> decide
    all_goals have := mem_imageRun hr; omega
  · -- byte 3 of the signature is the last write of all
    have hsplit : storeOrder image = [(0, 0), (1, 0), (2, 0)] ++ (3, 0) :: (imageRun image 16 672 ++ imageRun image 4 12 ++ imageRun image 0 3) ++
        [(3, image.getD 3 0)] := by
      unfold storeOrder
      rw [show imageRun image 0 4 = imageRun image 0 3 ++ [(3, image.getD 3 0)] from rfl]
      simp [List.range_succ]
    refine checkImage_unsigned (a := 3) ⟨.inr rfl, ?_⟩
    rw [hsplit, List.take_append_of_le_length (by simp only [List.length_append, length_imageRun, List.length_cons, List.length_nil]; omega),
      List.take_append, List.take_of_length_le (by simp only [List.length_cons, List.length_nil]; omega)]
    obtain ⟨j, hj⟩ : ∃ j, k - [((0 : Nat), (0 : Byte)), (1, 0), (2, 0)].length = j + 1 := ⟨k - 4, by simp only [List.length_cons, List.length_nil]; omega⟩
    rw [hj, List.take_succ_cons]
    refine Memory.read_writes_last _ 0 fun w hw => ?_
    have hmem := List.mem_of_mem_take hw
    simp only [List.mem_append] at hmem
    obtain (hr | hr) | hr := hmem
    all_goals have := mem_imageRun hr; omega

end Sys2Proof.Machine
end

