-- ==== Sys2Proof/Proofs/StoreSettings.lean ====
section
/-! SUPPORT. STORE_SETTINGS and the ends of a store (R180). -/

namespace Sys2Proof.Machine

variable {s : State}

/-! ### The take -/

/-- A slip kept open changes the exchange alone. -/
theorem State.keepOpen_eq (s : State) (h : SlipHead) (command : Byte) (clamped : Bool) :
    s.keepOpen h command clamped = { s with readers := (s.keepOpen h command clamped).readers } := rfl

/-- A store command on the enclosure with STORE strapped present. -/
theorem State.storeCommand_target {h : SlipHead} (hi : h.target = 0xFE) (hstrap : s.straps.store = true) :
    ¬ (h.target ≠ enclosureTarget ∨ s.straps.store = false) := by
  rintro (hne | hno)
  · exact hne hi
  · rw [hstrap] at hno; cases hno

theorem exec_storeSettings_taken {h : SlipHead} (ht : s.takeable h = true) (hi : h.target = 0xFE) (hstrap : s.straps.store = true) :
    exec (.storeSettings h) s = .next ((if s.store ≠ .none then s.answered h .busy false false none
      else ({ s.markTaken h.addr with store := .storing h.port (some h.addr) s.settings.image }).keepOpen h cmdStore false).finishSlip h.port) := by
  rw [exec_slip_taken _ h s rfl ht]
  show Host.Outcome.next ((State.storeSlip h (s.markTaken h.addr)).finishSlip h.port) = _
  unfold State.storeSlip
  rw [if_neg (State.storeCommand_target (s := s.markTaken h.addr) hi hstrap), State.refuse, State.endTaken_markTaken]
  rfl

/-! ### The end of a store or reload -/

/-- The slip of a store or reload that is over, if it still has one, ended. -/
def Exchange.storeEnded (p : Port) (slip : Option Half) (o : SlipOutcome) (clamped : Bool) (result : List Byte) (now : Time) (x : Exchange) : Exchange :=
  match slip with
  | none => x
  | some addr => x.closed p addr o clamped (some result) now

theorem State.endStore_closed (s : State) (p : Port) (slip : Option Half) (o : SlipOutcome) (clamped : Bool) (result : List Byte) :
    SlipClosed { s with store := .none } (s.endStore p slip o clamped result) ∧
      (s.endStore p slip o clamped result).exchange = s.exchange.storeEnded p slip o clamped result s.time := by
  cases slip with
  | none => exact ⟨⟨rfl, .refl _, rfl, rfl, rfl, rfl, rfl, rfl, rfl, rfl, .of_late rfl⟩, rfl⟩
  | some addr => exact ⟨State.endOpen_closed _ p addr o clamped _, State.exchange_endOpen _ p addr o clamped _⟩

theorem exec_storeSettingsEnd_running {p : Port} {slip : Option Half} {image : List Byte} (hrun : s.phase = .running)
    (hs : s.store = .storing p slip image) (hlen : image.length = 688) :
    exec .storeSettingsEnd s = .next (({ s with settingsMem := s.settingsMem.afterFirst image 692 }).endStore p slip .ok false (storeResult image)).close := by
  show Host.Outcome.next _ = _
  rw [hs]
  simp only [(State.running_iff s).2 hrun, if_true]
  rw [Memory.afterWrites_eq hlen, storeWrites_eq hlen, length_storeOrder]

theorem exec_storeWriteFailed_running {p : Port} {slip : Option Half} {image : List Byte} (hrun : s.phase = .running)
    (hs : s.store = .storing p slip image) (hlen : image.length = 688) (writes : Nat) :
    exec (.storeWriteFailed writes) s = .next (({ s with settingsMem := s.settingsMem.afterFirst image (min writes 691) }).endStore p slip
      .badTarget false (storeResult image)).close := by
  show Host.Outcome.next _ = _
  rw [hs]
  simp only [(State.running_iff s).2 hrun, if_true]
  rw [Memory.afterWrites_eq hlen, storeWrites_eq hlen, length_storeOrder]

/-- A reset during a store leaves its first writes, the signature still zeros (R180). -/
theorem State.interruptedMemory_storing {p : Port} {slip : Option Half} {image : List Byte} (hs : s.store = .storing p slip image)
    (hlen : image.length = 688) (writes : Nat) : s.interruptedMemory writes = s.settingsMem.afterFirst image (max 4 (min writes 688)) := by
  unfold State.interruptedMemory
  rw [hs]
  dsimp only
  rw [Memory.afterWrites_eq hlen, storeWrites_eq hlen, length_storeOrder]

/-! ### The sections at their offsets (Table 11-16) -/

theorem drop_take_image {c : Settings} {a : Nat} {l : List Byte} (h : Lies (c.image.getD · 0) a l) (hlen : a + l.length ≤ 688) :
    (c.image.drop a).take l.length = l := drop_take_of_lies h (by rw [length_image]; exact hlen)

end Sys2Proof.Machine
end

