-- ==== Sys2Proof/Proofs/StoreWritesImage.lean ====
section
/-! SUPPORT. The settings store as a whole. -/

namespace Sys2Proof.Machine

/-- Settles O58: the take, the ends of a store by the writes made, and the image's layout and reading back. -/
theorem storeWritesImage : Obligations.StoreWritesImage := by
  unfold Obligations.StoreWritesImage
  refine ⟨?_, ?_, ?_⟩
  · intro s h ht hi hstrap
    have hexec := exec_storeSettings_taken ht hi hstrap
    refine ⟨fun hbusy => by rw [hexec, if_pos hbusy], fun hidle => ?_⟩
    rw [hexec, if_neg (not_not.2 hidle)]
    exact ⟨_, rfl, State.keepOpen_eq _ h _ _, State.exchange_keepOpen _ h _ _,
      (ReadersStand.of_eq rfl).trans (State.keepOpen_readersStand _ h _ _)⟩
  · intro s p slip c hrun hstore result run order first finished
    have hlen := length_image c
    have hfirst : ∀ k, first k = s.settingsMem.afterFirst c.image k := fun _ => rfl
    have hfinished : ∀ m o, finished m o (({ s with settingsMem := m } : State).endStore p slip o false (storeResult c.image)) := by
      intro m o
      obtain ⟨h, hx⟩ := State.endStore_closed { s with settingsMem := m } p slip o false (storeResult c.image)
      exact ⟨h.outer, hx, h.readers, h.bays, h.lines, h.feeds, h.lights, h.account, h.scheduler, h.attention, h.reports, h.only⟩
    have hreset : ∀ writes, s.interruptedMemory writes = first (max 4 (min writes 688)) ∧
        checkImage (s.interruptedMemory writes) = .badSignature := by
      intro writes
      rw [State.interruptedMemory_storing hstore hlen]
      exact ⟨(hfirst _).symm, Memory.unsigned_afterFirst _ (by omega) (by omega)⟩
    refine ⟨hlen, ?_, fun writes => ?_, rfl, fun k h1 hk => ?_, fun straps writes => ?_, fun straps writes => ?_⟩
    · have hread := Memory.read_afterAll (m := s.settingsMem) c.image
      exact ⟨_, _, exec_storeSettingsEnd_running hrun hstore hlen, hfinished _ _, hread,
        checkImage_stored fun a ha => by rw [hread, if_pos ha]⟩
    · exact ⟨_, exec_storeWriteFailed_running hrun hstore hlen writes, hfinished _ _⟩
    · rw [hfirst]
      exact ⟨Memory.unsigned_afterFirst _ h1 hk, fun a ha => Memory.read_afterFirst_beyond _ _ ha⟩
    · exact ⟨_, rfl, hreset writes⟩
    · exact ⟨_, rfl, hreset writes⟩
  · intro c at'
    have h := c.image_lies
    have haccount : c.account.bytes = [(match c.account.mode with | .combined => 0 | .spareOne => 1 : Byte)] ++ le16 c.account.reserve12 ++
        le16 c.account.reserve5 ++ [flagByte c.account.shed, BitVec.ofNat 8 c.account.delay, 0] := by
      unfold AccountSettings.bytes
      cases c.account.mode <;> rfl
    refine ⟨fun n => drop_take_image (h.bays n) ?_, drop_take_image h.timing (Nat.le_of_ble_eq_true rfl), fun i => drop_take_image (h.profiles i) ?_,
      fun i => drop_take_image (h.supplies i) ?_, drop_take_image (haccount ▸ h.account) (Nat.le_of_ble_eq_true rfl),
      drop_take_image h.schedule (Nat.le_of_ble_eq_true rfl), fun z => drop_take_image (h.zones z) ?_,
      drop_take_image h.staleTime (Nat.le_of_ble_eq_true rfl), fun i => drop_take_image (h.sensors i) ?_,
      drop_take_image h.fans (Nat.le_of_ble_eq_true rfl), fun i hi => drop_take_image (h.patterns i hi) ?_, fun p i => ?_, fun p => ?_,
      fun hr m hm => ⟨checkImage_stored hm, ofImage_read_back (.of_lies fun k hk => ?_) hr⟩⟩
    · show 0x010 + 6 * n.val + 6 ≤ 688; omega
    · show 0x17E + 10 * i.val + 10 ≤ 688; omega
    · show 0x1CE + 4 * i.val + 4 ≤ 688; omega
    · show 0x1EA + 20 * z.val + 20 ≤ 688; omega
    · show 0x23C + 2 * i.val + 2 ≤ 688; omega
    · show 0x25C + 2 * (i.val - 2) + 2 ≤ 688; omega
    · cases p
      · exact drop_take_image (h.sources .a i) (show 0x268 + 4 * i.val + 4 ≤ 688 by omega)
      · exact drop_take_image (h.sources .b i) (show 0x288 + 4 * i.val + 4 ≤ 688 by omega)
    · cases p
      · exact drop_take_image (h.windows .a) (Nat.le_of_ble_eq_true rfl)
      · exact drop_take_image (h.windows .b) (Nat.le_of_ble_eq_true rfl)
    · rw [Nat.zero_add, hm k (by rwa [length_image] at hk)]

end Sys2Proof.Machine
end

