-- ==== Sys2Proof/Proofs/FanControl.lean ====
section
/-! SUPPORT. The Fan Controller's publications, its reservation and its demand (R106 to R113, R118). -/

namespace Sys2Proof.Machine

variable {s t u : State}

/-! ### Fan records published (R118) -/

theorem Fan.like_trans {b c d : Fan} (h : b.like c) (k : c.like d) : b.like d := by
  unfold Fan.like at h k ⊢
  rw [← k, ← h]

theorem Fan.like_state {b c : Fan} (h : b.like c) : c.record.state = b.record.state := by rw [← (h : _ = c)]

/-- From s to t only generations of fan records moved. -/
structure FansPublished (s t : State) : Prop where
  units : UnitsOnly s t
  late  : t.late = s.late
  like  : ∀ i : Fin 6, s.fans.fans[i].like t.fans.fans[i]
  outer : t.outer = { s.outer with fans := { s.fans with fans := t.fans.fans } }

theorem FansPublished.trans (h : FansPublished s t) (k : FansPublished t u) : FansPublished s u := by
  have hfans : t.fans = { s.fans with fans := t.fans.fans } := congrArg Outer.fans h.outer
  refine ⟨h.units.trans k.units, k.late.trans h.late, fun i => Fan.like_trans (h.like i) (k.like i), ?_⟩
  rw [k.outer, h.outer, hfans]

theorem State.pubFan_published (s : State) (i : Fin 6) : FansPublished s (s.pubFan i) := by
  obtain ⟨hlike, hfans⟩ := s.pubFan_like i
  have hv := s.pubFan_eq i
  refine ⟨by rw [hv]; exact ⟨rfl, rfl, rfl, rfl, rfl, rfl, rfl, rfl, rfl, rfl⟩, by rw [hv], fun j => ?_, ?_⟩
  · by_cases hj : j = i
    · rw [hj]; exact hlike
    · rw [hfans, show (s.fans.fans.set i (s.pubFan i).fans.fans[i])[j] = s.fans.fans[j] from
        Vector.getElem_set_ne _ _ (fun e => hj (Fin.ext e.symm))]
      rfl
  · have hsame : (s.pubFan i).fans = { s.fans with fans := (s.pubFan i).fans.fans } := by rw [hfans]
    rw [← hsame, hv]; rfl

theorem State.pubFans_published (s : State) : FansPublished s s.pubFans :=
  (((((s.pubFan_published 0).trans (State.pubFan_published _ 1)).trans (State.pubFan_published _ 2)).trans
    (State.pubFan_published _ 3)).trans (State.pubFan_published _ 4)).trans (State.pubFan_published _ 5)

/-! ### The reservation (R112, R113) -/

theorem State.reportReservation_outer (s : State) (f : Nat) : (s.reportReservation f).outer = { s.outer with fanRes := f } := by
  unfold State.reportReservation
  split
  next h => rw [← h]; rfl
  next => exact State.accountUpdate_outer _

theorem State.reportReservation_readers (s : State) (f : Nat) : (s.reportReservation f).readers = s.readers := by
  unfold State.reportReservation
  split
  · rfl
  · exact State.accountUpdate_readers _

/-- The reservation computed and reported, and what the account makes of it (R34, R113). -/
theorem State.reportFans_outer (s : State) : s.reportFans.outer = { s.outer with fanRes := s.fanReservation } :=
  (State.settle_outer _).trans (s.reportReservation_outer _)

theorem State.reportFans_readersStand (s : State) : ReadersStand s s.reportFans :=
  (ReadersStand.of_eq (s.reportReservation_readers _)).trans (State.settle_readersStand _)

/-- A vector's items in index order. -/
theorem toList_eq_map_finRange {α : Type} {n : Nat} (v : Vector α n) : v.toList = (List.finRange n).map fun i => v[i] :=
  List.ext_getElem (by simp) fun k _ _ => by simp

/-- What the fans are counted at, at a duty: the sum over the positions by their states. -/
theorem State.fanReservation_eq (s : State) : s.fanReservation =
    ((List.finRange 6).map fun i => fanCurrent s.settings.fans (max s.fans.c s.settings.fans.reserve) s.fans.fans[i].record.state).sum := by
  unfold State.fanReservation
  rw [toList_eq_map_finRange, List.map_map]; rfl

theorem fanCurrent_eq (f : FanSettings) (dr : Nat) (st : FanState) : fanCurrent f dr st =
    (match st with
      | .unused | .absent => 0
      | .failed => f.maxCur
      | .starting | .ok => f.idle + ((f.maxCur - f.idle) * dr + 999) / 1000) := by cases st <;> rfl

/-! ### FAN (R118) -/

theorem fanEvent_iff {old new : FanState} : fanEvent old new = true ↔
    old ≠ new ∧ (old = .absent ∨ old = .failed ∨ new = .absent ∨ new = .failed) := by
  simp [fanEvent, or_assoc]

theorem fansEvent_of {old new : Vector Fan 6} (i : Fin 6) (h : fanEvent old[i].record.state new[i].record.state = true) : fansEvent old new = true :=
  List.any_eq_true.2 ⟨i, List.mem_finRange i, h⟩

end Sys2Proof.Machine
end

