-- ==== Sys2Proof/Proofs/CoolingPeriod.lean ====
section
/-! SUPPORT. One cooling period, stage by stage (R104 to R113). -/

namespace Sys2Proof.Machine

variable {s t : State}

/-! ### The zones that an evaluation leaves, where only a timer or a hold differs -/

/-- What the publication of zone records reads. -/
structure SameZones (s t : State) : Prop where
  zones     : t.zones = s.zones
  published : t.status.zones = s.status.zones
  settings  : t.settings = s.settings
  phase     : t.phase = s.phase

theorem SameZones.pubZone (h : SameZones s t) (z : Fin 4) : SameZones (s.pubZone z) (t.pubZone z) := by
  obtain ⟨hz, hp, hs, hph⟩ := h
  have hpub : t.publishing = s.publishing := by unfold State.publishing; rw [hph]
  unfold State.pubZone
  dsimp only
  rw [hpub, hz, hp, hs]
  split
  · exact ⟨hz, hp, hs, hph⟩
  · exact ⟨rfl, rfl, rfl, hph⟩

theorem SameZones.pubZones (h : SameZones s t) : SameZones s.pubZones t.pubZones := by
  unfold State.pubZones
  exact (((h.pubZone 0).pubZone 1).pubZone 2).pubZone 3

theorem State.evaluateZones_zones (s : State) : s.evaluateZones.zones = s.zoned.pubZones.zones := by
  rw [State.evaluateZones_eq]
  generalize s.zoned.pubZones = x
  have hzones : x.evalEnclosure.zones = x.zones := by rw [State.evalEnclosure_eq]
  rw [apply_ite State.zones, show (x.evalEnclosure.raiseBoth srcThermal).zones = x.evalEnclosure.zones from rfl, ite_self, hzones]

/-- A period's start, its timer moved and the summary held, gives its zones the values that they have without. -/
theorem State.evaluateZones_heldTimer (s : State) (c : Option Time) :
    ({ s with coolingAt := c } : State).holdSummary.evaluateZones.zones = s.evaluateZones.zones := by
  rw [State.evaluateZones_zones, State.evaluateZones_zones]
  have hsame : SameZones s.zoned ({ s with coolingAt := c } : State).holdSummary.zoned := ⟨rfl, rfl, rfl, rfl⟩
  exact hsame.pubZones.zones

/-! ### Demand (R106, R107, R109) -/

theorem zoneDemand_eq (c : ZoneSettings) (z : Zone) : zoneDemand c z =
    min 1000 (match z.condition with
      | .complete => c.curve.value z.e + z.vacancy * c.limits.v
      | .partly => max (c.curve.value z.e + z.vacancy * c.limits.v) c.limits.staleFloor
      | .blind => c.limits.staleFloor
      | .noSources => c.curve.p1.d + z.vacancy * c.limits.v) := Nat.min_comm ..

theorem foldl_max_four (d : Fin 4 → Nat) : (Vector.ofFn d).toList.foldl max 0 = max (max (d 0) (d 1)) (max (d 2) (d 3)) := by
  rw [Vector.toList_ofFn]
  simp only [List.ofFn_succ, List.ofFn_zero, List.foldl_cons, List.foldl_nil, Fin.succ_zero_eq_one, Nat.zero_max, Nat.max_assoc]
  rfl

theorem floorDuty_eq (f : Option Floor) : floorDuty f = (match f with | none => 0 | some x => x.duty) := by cases f <;> rfl

theorem State.fansMissing_eq (s : State) : s.fansMissing = ((List.finRange 6).filter fun i => decide (i.val < s.settings.fans.count) &&
    (s.fans.fans[i].record.state == .absent || s.fans.fans[i].record.state == .failed)).length := List.countP_eq_length_filter

theorem State.emergency_iff (s : State) (lost : Bool) : s.emergency lost = true ↔
    (∃ z : Fin 4, s.zones[z].state = .critical) ∨ lost = true ∨ s.fans.check ≠ none := by
  have hzones : (s.zones.toList.any fun z => z.state == .critical) = true ↔ ∃ z : Fin 4, s.zones[z].state = .critical := by
    rw [toList_eq_map_finRange, List.any_map, List.any_eq_true]
    simp only [List.mem_finRange, true_and, Function.comp_apply, beq_iff_eq]
  unfold State.emergency
  rw [Bool.or_eq_true, Bool.or_eq_true, hzones, Option.isSome_iff_ne_none, or_assoc]

/-! ### The stages -/

/-- Stages 2 to 5 of a period: the demands, the raw and the compensated demand, COOLING_LOST and C (R106, R107, R109 to R111). -/
theorem State.driven_fans (e : State) :
    let turning := e.settings.fans.count - e.fansMissing
    let dcomp := compensated e.rawDemand e.settings.fans.count turning
    let d := e.coolingDemand.evalEnclosure.coolingDuty
    d.outer = { e.outer with fans := d.fans } ∧ d.readers = e.readers ∧ d.settings = e.settings ∧ d.time = e.time ∧
      d.fans = { e.fans with
        demands := e.zoneDemands, draw := e.rawDemand, dcomp := dcomp, coolingLost := decide (turning = 0)
        c := nextDuty e.settings.fans (e.emergency (decide (turning = 0))) dcomp e.fans.c } := by
  intro turning dcomp d
  have hd : d = ({ e.coolingDemand with lights := e.coolingDemand.evalEnclosure.lights, status := e.coolingDemand.evalEnclosure.status } : State).coolingDuty :=
    congrArg State.coolingDuty (State.evalEnclosure_eq _)
  generalize e.coolingDemand.evalEnclosure.status = status at hd
  obtain ⟨lights, hl, hchain⟩ : ∃ l : Lights, e.coolingDemand.evalEnclosure.lights = l ∧ l.chain = e.lights.chain :=
    ⟨_, rfl, congrArg Outer.chain (State.evalEnclosure_outer e.coolingDemand)⟩
  rw [hl] at hd
  rw [hd]
  refine ⟨?_, rfl, rfl, rfl, rfl⟩
  unfold State.outer
  simp only [State.coolingDuty, hchain]
  rfl

/-- Stages 7 and 8: the tachometer checks, then Cprev. -/
theorem State.tachChecks_outer (r : State) : r.tachChecks.outer = { r.outer with
    fans := { r.fans with fans := r.fans.fans.map fun (f : Fan) => f.checked r.tachLimit r.time, cprev := r.fans.c } } := rfl

/-- Stage 9: the fan records published, FAN raised where the period gave cause (R118). -/
theorem State.coolingPublish_published (before : FanControl) (k : State) :
    (k.coolingPublish before).outer = { k.outer with fans := { k.fans with fans := (k.coolingPublish before).fans.fans } } ∧
      (k.coolingPublish before).readers = k.readers ∧
      (∀ i : Fin 6, k.fans.fans[i].like (k.coolingPublish before).fans.fans[i]) ∧
      (fansEvent before.fans k.fans.fans = true ∨ before.coolingLost ≠ k.fans.coolingLost → (k.coolingPublish before).told srcFan) := by
  have hp := k.evalEnclosure.pubFans_published
  generalize hx : k.evalEnclosure.pubFans = x at hp
  have hpub : k.coolingPublish before =
      if (fansEvent before.fans k.fans.fans || (before.coolingLost != k.fans.coolingLost)) = true then x.raiseBoth srcFan else x := by
    rw [← hx]; rfl
  have houter : x.outer = { k.outer with fans := { k.fans with fans := x.fans.fans } } := by
    rw [hp.outer, State.evalEnclosure_outer, State.evalEnclosure_fans]
  have hreaders : x.readers = k.readers := hp.units.readers.trans (by rw [State.evalEnclosure_eq])
  have hlike : ∀ i : Fin 6, k.fans.fans[i].like x.fans.fans[i] := fun i => by
    have hi := hp.like i
    simp only [State.evalEnclosure_fans] at hi
    exact hi
  rw [hpub]
  split
  next => exact ⟨houter, hreaders, hlike, fun _ => State.raiseBoth_told x _⟩
  next hno =>
    refine ⟨houter, hreaders, hlike, fun hcause => absurd ?_ hno⟩
    rw [Bool.or_eq_true, bne_iff_ne]
    exact hcause

/-- The state of a period that is due, before its handling closes. -/
def State.cooledPeriod (s : State) : State := ({ s with coolingAt := some (Time.plus s.time 1000) } : State).coolingStages

theorem exec_coolingPeriod_due (hrun : s.phase = .running) (hdue : Time.due s.time s.coolingAt = true) :
    exec .coolingPeriod s = .next s.cooledPeriod.close := by
  show Host.Outcome.next _ = _
  rw [if_pos ⟨(State.running_iff s).2 hrun, hdue⟩]
  rfl

end Sys2Proof.Machine
end

