-- ==== Sys2Proof/Proofs/CoolingPeriodStages.lean ====
section
/-! SUPPORT. A cooling period as a whole. -/

namespace Sys2Proof.Machine

variable {s : State}

/-- The evaluation at a period's start, what it asks for acted on. -/
theorem State.period_evaluated (s : State) (c : Option Time) :
    let e := ({ s with coolingAt := c } : State).holdSummary.evaluateZones.settle
    e.outer = { s.outer with coolingAt := c, zones := s.evaluateZones.zones } ∧ ReadersStand s e := by
  intro e
  have hj := ({ s with coolingAt := c } : State).holdSummary.evaluateZones_judged
  refine ⟨?_, (ReadersStand.of_eq hj.readers).trans (State.settle_readersStand _)⟩
  refine (State.settle_outer _).trans (hj.outer.trans ?_)
  rw [State.evaluateZones_heldTimer]
  rfl

/-- The state after a period's last publication, from the state in which its checks begin. -/
theorem State.published_checks (r : State) (held : Bool) (before : FanControl) :
    let u := (r.tachChecks.coolingPublish before).releaseSummary held
    u.outer = { r.outer with fans := u.fans } ∧ u.readers = r.readers ∧
      u.fans = { r.fans with cprev := r.fans.c, fans := u.fans.fans } ∧
      (∀ i : Fin 6, (r.fans.fans[i].checked r.tachLimit r.time).like u.fans.fans[i]) ∧
      (fansEvent before.fans u.fans.fans = true ∨ before.coolingLost ≠ r.fans.coolingLost → u.told srcFan) := by
  obtain ⟨hout, hreaders, hlike, htold⟩ := r.tachChecks.coolingPublish_published before
  generalize r.tachChecks.coolingPublish before = p at *
  intro u
  have hu : u.outer = p.outer := p.releaseSummary_outer held
  have hfans : u.fans = p.fans := congrArg Outer.fans hu
  have hureaders : u.readers = p.readers := by
    show (p.releaseSummary held).readers = _
    rw [State.releaseSummary_eq]
  have hulate : u.late = p.late := by
    show (p.releaseSummary held).late = _
    rw [State.releaseSummary_eq]
  have hpfans : p.fans = { r.fans with cprev := r.fans.c, fans := p.fans.fans } := congrArg Outer.fans hout
  have hchecked : ∀ i : Fin 6, (r.fans.fans[i].checked r.tachLimit r.time).like p.fans.fans[i] := fun i => by
    have hi := hlike i
    simp only [State.tachChecks, Fin.getElem_fin, Vector.getElem_map] at hi
    exact hi
  refine ⟨?_, hureaders.trans hreaders, ?_, ?_, fun hcause q => ?_⟩
  · rw [hu, hfans, hpfans]
    exact hout
  · rw [hfans]; exact hpfans
  · rw [hfans]; exact hchecked
  · rw [hulate]
    refine htold (hcause.imp_left fun h => ?_) q
    obtain ⟨i, _, hi⟩ := List.any_eq_true.1 h
    rw [hfans, Fan.like_state (hlike i)] at hi
    exact fansEvent_of i hi

/-- A period's stages after its evaluation: what each leaves of the outer part and of the readers (R104). -/
theorem State.period_staged (e : State) (held : Bool) (before : FanControl) :
    let turning := e.settings.fans.count - e.fansMissing
    let dcomp := compensated e.rawDemand e.settings.fans.count turning
    let u := ((e.coolingDemand.evalEnclosure.coolingDuty.reportFans.tachChecks).coolingPublish before).releaseSummary held
    u.outer = { e.outer with fans := u.fans, fanRes := u.account.fanRes } ∧ ReadersStand e u ∧
      u.fans = { e.fans with
        demands := e.zoneDemands, draw := e.rawDemand, dcomp := dcomp, coolingLost := decide (turning = 0)
        c := u.fans.c, cprev := u.fans.c, fans := u.fans.fans } ∧
      u.fans.c = nextDuty e.settings.fans (e.emergency (decide (turning = 0))) dcomp e.fans.c ∧
      u.account.fanRes =
        ((List.finRange 6).map fun i => fanCurrent e.settings.fans (max u.fans.c e.settings.fans.reserve) e.fans.fans[i].record.state).sum ∧
      (∀ i : Fin 6, (e.fans.fans[i].checked (e.settings.fans.maxRpm * min u.fans.c e.fans.cprev / 2000) e.time).like u.fans.fans[i]) ∧
      (fansEvent before.fans u.fans.fans = true ∨ before.coolingLost ≠ u.fans.coolingLost → u.told srcFan) := by
  intro turning dcomp
  obtain ⟨hdout, hdreaders, hdset, hdtime, hdfans⟩ := e.driven_fans
  generalize e.coolingDemand.evalEnclosure.coolingDuty = d at *
  have hrout := d.reportFans_outer
  have hrstand := d.reportFans_readersStand
  have hres := d.fanReservation_eq
  generalize d.reportFans = r at *
  obtain ⟨huout, hureaders, hufans, hulike, hutold⟩ := r.published_checks held before
  generalize (r.tachChecks.coolingPublish before).releaseSummary held = u at *
  have hrfans : r.fans = d.fans := congrArg Outer.fans hrout
  have hrset : r.settings = e.settings := (congrArg Outer.settings hrout).trans hdset
  have hrtime : r.time = e.time := (congrArg Outer.time hrout).trans hdtime
  have hfans : u.fans = { e.fans with
      demands := e.zoneDemands, draw := e.rawDemand, dcomp := dcomp, coolingLost := decide (turning = 0)
      c := d.fans.c, cprev := d.fans.c, fans := u.fans.fans } := by
    rw [hufans, hrfans, hdfans]
  have hc : u.fans.c = d.fans.c := by rw [hfans]
  have hdc : d.fans.c = nextDuty e.settings.fans (e.emergency (decide (turning = 0))) dcomp e.fans.c := by rw [hdfans]
  have hdres : u.account.fanRes = d.fanReservation :=
    (congrArg Outer.fanRes huout).trans (congrArg Outer.fanRes hrout)
  have hdwall : d.fans.fans = e.fans.fans := by rw [hdfans]
  refine ⟨?_, ?_, ?_, hc.trans hdc, ?_, ?_, ?_⟩
  · rw [huout, hrout, hdout, hdres]
  · exact (ReadersStand.of_eq hdreaders).trans (hrstand.trans (.of_eq hureaders))
  · rw [hc]; exact hfans
  · rw [hdres, hres, hc, hdset, hdwall]
  · intro i
    have hi := hulike i
    have hlimit : r.tachLimit = e.settings.fans.maxRpm * min u.fans.c e.fans.cprev / 2000 := by
      unfold State.tachLimit
      rw [hrset, hrfans, hc, show d.fans.cprev = e.fans.cprev by rw [hdfans]]
    rw [hlimit, hrtime, hrfans, hdwall] at hi
    exact hi
  · rw [show u.fans.coolingLost = r.fans.coolingLost by rw [hufans]]
    exact hutold

/-- The parts of a period as the obligation says them, from the state after its evaluation. -/
theorem State.cooledPeriod_staged (s : State) : ∃ e : State,
    e.outer = { s.outer with coolingAt := some (Time.plus s.time 1000), zones := s.evaluateZones.zones } ∧ ReadersStand s e ∧
      s.cooledPeriod = ((e.coolingDemand.evalEnclosure.coolingDuty.reportFans.tachChecks).coolingPublish s.fans).releaseSummary s.reports.summaryHeld :=
  ⟨_, (s.period_evaluated _).1, (s.period_evaluated _).2, rfl⟩

/-- Settles O42: the evaluation, then the stages, each read off the state that its evaluation left. -/
theorem coolingPeriodStages : Obligations.CoolingPeriodStages := by
  unfold Obligations.CoolingPeriodStages
  intro s hrun hdue f zones demand current floor draw k turning dcomp emergency slewed
  obtain ⟨e, heout, hestand, hperiod⟩ := s.cooledPeriod_staged
  obtain ⟨huout, hureaders, hufans, huc, hures, hulike, hutold⟩ := e.period_staged s.reports.summaryHeld s.fans
  rw [← hperiod] at huout hureaders hufans huc hures hulike hutold
  generalize hu : s.cooledPeriod = u at *
  have hset : e.settings = s.settings := congrArg Outer.settings heout
  have hefans : e.fans = s.fans := congrArg Outer.fans heout
  have hezones : e.zones = zones := congrArg Outer.zones heout
  have hetime : e.time = s.time := congrArg Outer.time heout
  have hdemands : e.zoneDemands = Vector.ofFn demand := by
    unfold State.zoneDemands
    rw [hset, hezones]
    exact congrArg Vector.ofFn (funext fun z => zoneDemand_eq _ _)
  have hdraw : e.rawDemand = draw := by
    unfold State.rawDemand
    rw [hdemands, foldl_max_four, hset, hefans, floorDuty_eq, floorDuty_eq]
    rfl
  have hk : e.fansMissing = k := by rw [State.fansMissing_eq, hset, hefans]
  have hturning : e.settings.fans.count - e.fansMissing = turning := by rw [hk, hset]
  have hdcomp : compensated e.rawDemand e.settings.fans.count turning = dcomp := by rw [hdraw, hset]; rfl
  have hemergency : e.emergency (decide (turning = 0)) = true ↔ emergency := by
    rw [State.emergency_iff, hezones, hefans, decide_eq_true_iff]
  rw [hturning, hdcomp, hset, hefans] at huc
  rw [hturning, hdcomp, hdemands, hdraw, hefans] at hufans
  refine ⟨u, hu ▸ exec_coolingPeriod_due hrun hdue, ?_, hestand.trans hureaders, ?_, ?_, ?_, ?_, ?_, ?_, ?_, ?_, ?_, ?_, ?_, ?_, ?_⟩
  · rw [huout, heout]
  · rw [hufans]
  · rw [hufans]
  · rw [hufans]
  · rw [hufans]; exact decide_eq_true_iff
  · intro h; rw [huc, hemergency.2 h]; rfl
  · intro h
    rw [huc, Bool.eq_false_iff.2 fun h' => h (hemergency.1 h')]
    rfl
  · rw [hufans]
  · rw [hufans]
  · rw [hufans]
  · rw [hures, hset, hefans]
    exact congrArg List.sum (List.map_congr_left fun i _ => fanCurrent_eq _ _ _)
  · intro i
    have hi := hulike i
    rw [hset, hefans, hetime] at hi
    exact hi
  · exact fun h => hutold (Or.inr (Ne.symm h))
  · intro i hne hfailed
    exact hutold (Or.inl (fansEvent_of i (fanEvent_iff.2 ⟨hne, by tauto⟩)))

end Sys2Proof.Machine
end

