-- ==== Sys2Proof/Proofs/HeldSummary.lean ====
section
/-! SUPPORT. What acting on reports leaves where its handling holds the summary record back: a preorder that each report's work is in
holds of the whole (R37, R46, R63, R167). -/

namespace Sys2Proof.Machine

variable {s t u : State}

/-- A preorder on states that every piece of the work on reports is in. -/
structure SettlesIn (R : State → State → Prop) : Prop where
  refl    : ∀ s, R s s
  trans   : ∀ {s t u}, R s t → R t u → R s u
  reports : ∀ (s : State) (r : Reports), r.summaryHeld = s.reports.summaryHeld → r.thermal.length ≤ s.reports.thermal.length →
    R s { s with reports := r }
  hold    : ∀ (s : State) (h : HoldReason), R s (s.setHold h)
  head    : ∀ (s : State) (n : BayNo), headBay s.scheduler.queue = some n → R s (s.admitHead n)
  policy  : ∀ (s : State) (n : BayNo), R s (s.policyMove n)
  shed12  : ∀ (s : State) (k : ShedKind) (n : BayNo), R s (s.shed12 k n)
  shed5   : ∀ (s : State) (n : BayNo), R s (s.shed5 n)
  account : ∀ (s : State), R s s.unresolvable

variable {R : State → State → Prop}

theorem SettlesIn.runPass (h : SettlesIn R) (s : State) : R s s.runPass := by
  unfold State.runPass
  split
  · have hloop : R s (State.passLoop (s.scheduler.queue.length + 1) s) :=
      State.passLoop_keeps_head (P := R s) (fun t n hn ht => h.trans ht (h.head t n hn)) (fun t r ht => h.trans ht (h.hold t r)) _ s (h.refl s)
    exact h.trans hloop (h.reports _ _ rfl le_rfl)
  · exact h.refl s

theorem SettlesIn.wait5vWalk (h : SettlesIn R) (s : State) : R s s.wait5vWalk := by
  refine foldl_keeps (P := R s) (fun t n ht => h.trans ht ?_) _ _ (h.reports s _ rfl le_rfl)
  unfold State.walkBay
  split
  · exact h.trans (h.policy t n) (h.runPass _)
  · exact h.refl t

theorem SettlesIn.shedStep (h : SettlesIn R) (s : State) : R s s.shedStep := by
  unfold State.shedStep State.shedBay
  split
  · exact h.reports s _ rfl le_rfl
  · split
    · exact h.account s
    · split
      · exact h.shed5 s _
      · exact h.shed12 s _ _

theorem SettlesIn.settleStep (h : SettlesIn R) (hs : s.settleStep = some t) : R s t := by
  unfold State.settleStep at hs
  split at hs
  · exact Option.some.inj hs ▸ h.runPass s
  · split at hs
    · exact Option.some.inj hs ▸ h.wait5vWalk s
    · split at hs
      next n rest hthermal =>
        refine Option.some.inj hs ▸ h.trans (h.reports s { s.reports with thermal := rest } rfl (by rw [hthermal]; simp)) ?_
        unfold State.thermalShed
        split
        · exact h.shed12 _ _ _
        · exact h.refl _
      next =>
        split at hs
        · exact Option.some.inj hs ▸ h.shedStep s
        · cases hs

/-- Acting on every report is in the preorder. -/
theorem SettlesIn.settle (h : SettlesIn R) (s : State) : R s s.settle := by
  unfold State.settle
  generalize settleFuel = fuel
  induction fuel generalizing s with
  | zero => exact h.refl s
  | succ k ih =>
    unfold State.settleLoop
    split
    · exact h.refl s
    next t ht => exact h.trans (h.settleStep ht) (ih t)

/-! ### The Attention Units, and the summary record held back -/

/-- From s to t no Attention Unit moved, the summary record is held back as before, and where it is it was not republished. -/
structure HeldBack (s t : State) : Prop where
  attention : t.attention = s.attention
  held      : t.reports.summaryHeld = s.reports.summaryHeld
  summary   : s.reports.summaryHeld = true → t.status.summary = s.status.summary

theorem HeldBack.refl (s : State) : HeldBack s s := ⟨rfl, rfl, fun _ => rfl⟩

theorem HeldBack.trans (h : HeldBack s t) (k : HeldBack t u) : HeldBack s u :=
  ⟨k.attention.trans h.attention, k.held.trans h.held, fun hs => (k.summary (h.held.trans hs)).trans (h.summary hs)⟩

/-- What was done first moved none of it. -/
theorem HeldBack.after (k : HeldBack t u) (h : HeldBack s t) : HeldBack s u := h.trans k

variable (s)

theorem State.pubQueue_heldBack : HeldBack s s.pubQueue := by
  unfold State.pubQueue
  split <;> exact ⟨rfl, rfl, fun _ => rfl⟩

theorem State.pubBay_heldBack (n : BayNo) : HeldBack s (s.pubBay n) := by
  unfold State.pubBay
  dsimp only
  split <;> exact ⟨rfl, rfl, fun _ => rfl⟩

theorem State.pubLight_heldBack (n : BayNo) : HeldBack s (s.pubLight n) := by
  unfold State.pubLight
  dsimp only
  split <;> exact ⟨rfl, rfl, fun _ => rfl⟩

theorem State.deriveLights_heldBack (n : BayNo) : HeldBack s (s.deriveLights n) := by
  unfold State.deriveLights
  dsimp only
  split
  · exact .refl s
  · exact HeldBack.after (State.pubLight_heldBack _ n) ⟨rfl, rfl, fun _ => rfl⟩

theorem State.evalEnclosure_heldBack : HeldBack s s.evalEnclosure := by
  unfold State.evalEnclosure State.lightEnclosure State.pubEnclosure
  split
  · exact .refl s
  · dsimp only
    split <;> exact ⟨rfl, rfl, fun _ => rfl⟩

theorem State.pubSummaryIfAccount_heldBack : HeldBack s s.pubSummaryIfAccount := by
  refine ⟨by rw [State.pubSummaryIfAccount_eq], by rw [State.pubSummaryIfAccount_eq], fun hheld => ?_⟩
  unfold State.pubSummaryIfAccount
  split
  · rfl
  · rw [State.pubSummary_held s (Or.inr (Or.inl hheld))]

theorem State.raiseOpt_heldBack (e : Option (Fin 8)) : HeldBack s (s.raiseOpt e) := by
  rw [State.raiseOpt_eq]
  exact ⟨rfl, rfl, fun _ => rfl⟩

theorem State.accountUpdate_heldBack : HeldBack s s.accountUpdate := by
  have ht := ((State.evalEnclosure_heldBack { s with account := s.evaluated s.figures, reports := s.accountReports (s.evaluated s.figures) }).after
    (s := s) ⟨rfl, rfl, fun _ => rfl⟩).trans (State.pubSummaryIfAccount_heldBack _)
  unfold State.accountUpdate
  dsimp only
  split
  · exact ht.trans (State.raiseOpt_heldBack _ (some srcPower))
  · exact ht

theorem State.bayChanged_heldBack (n : BayNo) (e : Option (Fin 8)) : HeldBack s (s.bayChanged n e) :=
  (((s.pubBay_heldBack n).trans (State.deriveLights_heldBack _ n)).trans (State.accountUpdate_heldBack _)).trans (State.raiseOpt_heldBack _ e)

theorem State.enter_heldBack (n : BayNo) (st : BayState) (why : Reason) : HeldBack s (s.enter n st why) := ⟨rfl, rfl, fun _ => rfl⟩

theorem State.putBay_heldBack (n : BayNo) (b : Bay) : HeldBack s (s.putBay n b) := ⟨rfl, rfl, fun _ => rfl⟩

theorem State.join_heldBack (e : QueueEntry) : HeldBack s (s.join e) := by
  unfold State.join
  dsimp only
  exact HeldBack.after (State.pubQueue_heldBack _) ⟨rfl, rfl, fun _ => rfl⟩

theorem State.leave_heldBack (n : BayNo) : HeldBack s (s.leave n) := by
  unfold State.leave
  split
  · exact HeldBack.after (State.pubQueue_heldBack _) ⟨rfl, rfl, fun _ => rfl⟩
  · exact .refl s

theorem State.dropOpen_heldBack (p : Port) (a : Half) : HeldBack s (s.dropOpen p a) := by
  unfold State.dropOpen State.pubReader State.republishReader
  split
  · exact ⟨rfl, rfl, fun _ => rfl⟩
  · split <;> exact ⟨rfl, rfl, fun _ => rfl⟩

theorem State.endOpSlip_heldBack (op : Option Operation) (o : SlipOutcome) (r : List Byte) : HeldBack s (s.endOpSlip op o r) := by
  unfold State.endOpSlip State.endOpen
  split
  · split
    · exact .refl s
    · rw [State.endAt_eq]
      exact HeldBack.after (State.dropOpen_heldBack _ _ _) ⟨rfl, rfl, fun _ => rfl⟩
  · exact .refl s

theorem State.admitHead_heldBack (n : BayNo) : HeldBack s (s.admitHead n) := by
  rw [State.admitHead_eq]
  unfold State.admitting
  exact (State.bayChanged_heldBack _ n _).after ((State.pubQueue_heldBack _).after ⟨rfl, rfl, fun _ => rfl⟩)

theorem State.policyMove_heldBack (n : BayNo) : HeldBack s (s.policyMove n) := by
  unfold State.policyMove
  split
  · split
    · exact .refl s
    · exact (State.bayChanged_heldBack _ n _).after (s.enter_heldBack n _ _)
    · exact (State.bayChanged_heldBack _ n _).after ((State.join_heldBack _ _).after ⟨rfl, rfl, fun _ => rfl⟩)
  · split
    · exact .refl s
    · exact (State.bayChanged_heldBack _ n _).after (s.putBay_heldBack n _)

theorem State.shed12_heldBack (k : ShedKind) (n : BayNo) : HeldBack s (s.shed12 k n) := by
  unfold State.shed12
  split
  · dsimp only
    split <;> exact (State.endOpSlip_heldBack _ _ _ _).after ((State.bayChanged_heldBack _ n _).after ⟨rfl, rfl, fun _ => rfl⟩)
  · exact .refl s

theorem State.shed5_heldBack (n : BayNo) : HeldBack s (s.shed5 n) := by
  unfold State.shed5
  split
  · exact (State.endOpSlip_heldBack _ _ _ _).after ((State.bayChanged_heldBack _ n _).after (HeldBack.trans (t := s.leave n) (s.leave_heldBack n) ⟨rfl, rfl, fun _ => rfl⟩))
  · exact .refl s

theorem State.unresolvable_heldBack : HeldBack s s.unresolvable := by
  unfold State.unresolvable
  split
  · exact ⟨rfl, rfl, fun _ => rfl⟩
  · exact (State.raiseOpt_heldBack _ (some srcPower)).after ((State.pubSummaryIfAccount_heldBack _).after ⟨rfl, rfl, fun _ => rfl⟩)

theorem heldBack_settlesIn : SettlesIn HeldBack where
  refl := .refl
  trans := .trans
  reports := fun _ _ h _ => ⟨rfl, h, fun _ => rfl⟩
  hold := fun s h => by
    unfold State.setHold
    split
    · exact .refl s
    · exact HeldBack.after (State.pubQueue_heldBack _) ⟨rfl, rfl, fun _ => rfl⟩
  head := fun s n _ => s.admitHead_heldBack n
  policy := State.policyMove_heldBack
  shed12 := State.shed12_heldBack
  shed5 := State.shed5_heldBack
  account := State.unresolvable_heldBack

/-- Acting on reports moves no Attention Unit, and no summary record that is held back. -/
theorem State.settle_heldBack : HeldBack s s.settle := heldBack_settlesIn.settle s

theorem State.reportReservation_heldBack (f : Nat) : HeldBack s (s.reportReservation f) := by
  unfold State.reportReservation
  split
  · exact .refl s
  · exact HeldBack.after (State.accountUpdate_heldBack _) ⟨rfl, rfl, fun _ => rfl⟩

end Sys2Proof.Machine
end

