-- ==== Sys2Proof/Proofs/FanCheck.lean ====
section
/-! SUPPORT. The fan check: its start as one handling, and its end (R119, R120). -/

namespace Sys2Proof.Machine

variable {s : State}

/-! ### The summary record at the end of a handling that held it back (R167) -/

/-- Where its cooling fields moved, the summary record is published again, with the fields that its owners hold and its next generation. -/
theorem State.releaseSummary_summed (s : State) (hrun : s.phase = .running) {old : Summary} (hold : s.status.summary = some old)
    (hmoved : old.cooling ≠ s.coolingSummary) :
    ∃ new, (s.releaseSummary false).status.summary = some new ∧ (s.releaseSummary false).summed new ∧ new.time = s.time ∧ new.gen = old.gen + 1 := by
  have hsum := s.summarySnap_summed (old.gen + 1)
  have hrel : (s.releaseSummary false).status.summary = some (s.summarySnap (old.gen + 1)) := by
    unfold State.releaseSummary State.pubSummaryIfChanged
    rw [if_neg]
    · unfold State.pubSummary
      rw [if_neg]
      · show some (State.summarySnap _ _) = _
        rw [hold]
        rfl
      · simp [State.publishing, hrun]
    · show ¬ Option.map _ s.status.summary = _
      rw [hold]
      exact fun h => hmoved (congrArg (fun x => x.2.1) (Option.some.inj h))
  refine ⟨_, hrel, ?_, rfl, rfl⟩
  rw [s.releaseSummary_eq false]
  exact ⟨hsum.straps, hsum.origin, hsum.figures, hsum.flags, hsum.rails, hsum.scheduler, hsum.cooling, hsum.check⟩

/-! ### The start (R119) -/

/-- A check of now, with no reading yet. -/
def State.newCheck (s : State) (h : SlipHead) : FanCheck :=
  { origin := h.port, slip := some h.addr, start := s.time, peaks := Vector.replicate 6 0 }

/-- The state in which a check's start reports the reservation. -/
def State.checkBegun (s : State) (h : SlipHead) : State := { s with
  ram := (s.exchange.take h.addr).ram
  fans := { s.fans with c := 1000, check := some (s.newCheck h) }
  reports := { s.reports with summaryHeld := true } }

theorem exec_fanCheck_taken {h : SlipHead} (ht : s.takeable h = true) (hi : h.target = 0xFE) : exec (.fanCheck h) s =
    .next ((if s.fans.check ≠ none then s.answered h .busy false false none
      else ((s.checkBegun h).reportFans.keepOpen h 0x52 false).releaseSummary s.reports.summaryHeld).finishSlip h.port) := by
  rw [exec_slip_taken _ h s rfl ht]
  refine congrArg (fun t => Host.Outcome.next (State.finishSlip h.port t)) ?_
  show State.fanCheck h (s.markTaken h.addr) = _
  unfold State.fanCheck
  rw [if_neg (not_not.2 (show h.target = enclosureTarget from hi)), State.refuse, State.endTaken_markTaken]
  by_cases hc : s.fans.check = none
  · rw [if_neg (by show ¬ s.fans.check.isSome = true; simp [hc]), if_neg (not_not.2 hc)]
    rfl
  · rw [if_pos (Option.isSome_iff_ne_none.2 hc : (s.markTaken h.addr).fans.check.isSome = true), if_pos hc]

/-- The reservation at full duty: with the reserve duty in its range, 1000 is the greater. -/
theorem State.checkBegun_reservation (h : SlipHead) (hreserve : s.settings.fans.reserve ≤ 1000) :
    (s.checkBegun h).fanReservation = ((List.finRange 6).map fun i => fanCurrent s.settings.fans 1000 s.fans.fans[i].record.state).sum := by
  rw [State.fanReservation_eq]
  show ((List.finRange 6).map fun i => fanCurrent s.settings.fans (max 1000 s.settings.fans.reserve) s.fans.fans[i].record.state).sum = _
  rw [Nat.max_eq_left hreserve]

/-! ### The end (R120) -/

theorem exec_fanCheckEnd_due {k : FanCheck} (hrun : s.phase = .running) (hk : s.fans.check = some k)
    (hdue : Time.reached s.time (Time.plus k.start 15000) = true) : exec .fanCheckEnd s = .next (s.endCheck k) := by
  have hcheck : s.checkDue = true := by unfold State.checkDue; rw [hk]; exact hdue
  show Host.Outcome.next _ = _
  rw [hk]
  exact congrArg Host.Outcome.next (if_pos ⟨(State.running_iff s).2 hrun, hcheck⟩)

theorem weakMoved_iff {old new : Vector Fan 6} : weakMoved old new = true ↔ ∃ i : Fin 6, new[i].record.weak ≠ old[i].record.weak := by
  simp only [weakMoved, List.any_eq_true, List.mem_finRange, true_and, bne_iff_ne, ne_comm]

/-- The result data of a check, from fans that differ from those judged by their generations alone. -/
theorem State.checkResult_eq (t : State) (k : FanCheck) (fans : Fin 6 → Fan) (hlike : ∀ i : Fin 6, (fans i).like t.fans.fans[i]) :
    t.checkResult k = ((List.finRange 6).flatMap fun i => rpmField (if (fans i).record.state = .unused then 0 else k.peaks[i])) ++
      [BitVec.ofNat 8 (bitsOf ((List.finRange 6).map fun i => (fans i).record.weak))] := by
  have hstate : ∀ i : Fin 6, t.fans.fans[i].record.state = (fans i).record.state := fun i => Fan.like_state (hlike i)
  have hweak : ∀ i : Fin 6, t.fans.fans[i].record.weak = (fans i).record.weak := fun i => by rw [← (hlike i : _ = t.fans.fans[i])]
  unfold State.checkResult
  rw [toList_eq_map_finRange, List.map_map]
  simp only [Function.comp_def, hstate, hweak]

theorem State.endCheckSlip_closed (s : State) (k : FanCheck) (o : SlipOutcome) (r : Option (List Byte)) :
    SlipClosed s (s.endCheckSlip k o r) ∧ (s.endCheckSlip k o r).exchange = (match k.slip with
      | none => s.exchange
      | some addr => s.exchange.closed k.origin addr o false r s.time) := by
  unfold State.endCheckSlip
  cases k.slip with
  | none => exact ⟨⟨rfl, .refl s, rfl, rfl, rfl, rfl, rfl, rfl, rfl, rfl, .of_late rfl⟩, rfl⟩
  | some addr => exact ⟨s.endOpen_closed _ _ _ _ _, s.exchange_endOpen _ _ _ _ _⟩

/-- A fan as the end of a check judges it. -/
def State.judgedFan (s : State) (k : FanCheck) (i : Fin 6) : Fan := (s.fans.fans[i] : Fan).judged s.settings.fans.maxRpm k.peaks[i]

theorem State.judgedFans_at (s : State) (k : FanCheck) (i : Fin 6) : (s.judgedFans k)[i] = s.judgedFan k i := by
  simp [State.judgedFans, State.judgedFan]

/-- The result data of a check's end (Table 11-7). -/
def State.judgedResult (s : State) (k : FanCheck) : List Byte :=
  ((List.finRange 6).flatMap fun i => rpmField (if s.fans.fans[i].record.state = .unused then 0 else k.peaks[i])) ++
    [BitVec.ofNat 8 (bitsOf ((List.finRange 6).map fun i => (s.judgedFan k i).record.weak))]

/-- The state of a check's end before its handling closes. -/
def State.checkEnded (s : State) (k : FanCheck) : State :=
  let t := ({ s with fans := { s.fans with fans := s.judgedFans k, check := none } } : State).pubFans
  let u := (t.endCheckSlip k .ok (some (t.checkResult k))).pubSummaryIfChanged
  if weakMoved s.fans.fans (s.judgedFans k) then u.raiseBoth srcFan else u

/-- What the end of a check does to the fans, the exchange and the rest (R120). -/
theorem State.checkEnded_judged (s : State) (k : FanCheck) {u : State} (hend : s.checkEnded k = u) :
    (∀ i : Fin 6, (s.judgedFan k i).like u.fans.fans[i]) ∧
      u.outer = { s.outer with fans := { s.fans with fans := u.fans.fans, check := none } } ∧
      u.exchange = (match k.slip with
        | none => s.exchange
        | some addr => s.exchange.closed k.origin addr .ok false (some (s.judgedResult k)) s.time) ∧ ReadersStand s u ∧
      u.bays = s.bays ∧ u.lines = s.lines ∧ u.feeds = s.feeds ∧ u.lights = s.lights ∧ u.account = s.account ∧
      u.scheduler = s.scheduler ∧ u.attention = s.attention ∧ u.reports = s.reports ∧
      ((∃ i : Fin 6, (s.judgedFan k i).record.weak ≠ s.fans.fans[i].record.weak) → u.told srcFan) ∧
      ((∀ i : Fin 6, (s.judgedFan k i).record.weak = s.fans.fans[i].record.weak) → OnlyTold [srcSlipEnded] s u) := by
  have hp := ({ s with fans := { s.fans with fans := s.judgedFans k, check := none } } : State).pubFans_published
  obtain ⟨t, hteq⟩ : ∃ t, t = ({ s with fans := { s.fans with fans := s.judgedFans k, check := none } } : State).pubFans := ⟨_, rfl⟩
  rw [← hteq] at hp
  have htlike : ∀ i : Fin 6, (s.judgedFan k i).like t.fans.fans[i] := fun i => (s.judgedFans_at k i) ▸ hp.like i
  have hresult : t.checkResult k = s.judgedResult k := State.checkResult_eq t k _ htlike
  have htime : t.time = s.time := congrArg Outer.time hp.outer
  have htx : t.exchange = s.exchange := by
    unfold State.exchange
    rw [hp.units.ram, hp.units.readers]
  obtain ⟨hclosed, hexchange⟩ := t.endCheckSlip_closed k .ok (some (t.checkResult k))
  have hclosed := hclosed.pubSummaryIfChanged
  have hexchange := (State.exchange_pubSummaryIfChanged _).trans hexchange
  generalize hv : (t.endCheckSlip k .ok (some (t.checkResult k))).pubSummaryIfChanged = v at hclosed hexchange
  have hu : u = if weakMoved s.fans.fans (s.judgedFans k) then v.raiseBoth srcFan else v := by
    rw [← hv, hteq, ← hend]; rfl
  have hparts : u = { v with late := u.late } := by
    rw [hu]; split <;> rfl
  have hvfans : v.fans = t.fans := congrArg Outer.fans hclosed.outer
  have hvouter : v.outer = { s.outer with fans := { s.fans with fans := v.fans.fans, check := none } } := by
    rw [hclosed.outer, hp.outer, hvfans]
    rfl
  have honly : OnlyTold [srcSlipEnded] s v := hclosed.only.from hp.late
  have hmoved : weakMoved s.fans.fans (s.judgedFans k) = true ↔ ∃ i : Fin 6, (s.judgedFan k i).record.weak ≠ s.fans.fans[i].record.weak := by
    rw [weakMoved_iff]
    exact exists_congr fun i => by rw [State.judgedFans_at]
  have hufans : u.fans = v.fans := by rw [hparts]
  have huouter : u.outer = v.outer := by rw [hparts]; rfl
  have hux : u.exchange = v.exchange := by rw [hparts]; rfl
  refine ⟨?_, ?_, ?_, ?_, ?_, ?_, ?_, ?_, ?_, ?_, ?_, ?_, fun h => ?_, fun h => ?_⟩
  · rw [hufans, hvfans]; exact htlike
  · rw [huouter, hufans]; exact hvouter
  · rw [hux, hexchange, hresult, htx, htime]
  · exact (ReadersStand.of_eq hp.units.readers).trans (hclosed.readers.trans (.of_eq (by rw [hparts])))
  · rw [hparts]; exact hclosed.bays.trans hp.units.bays
  · rw [hparts]; exact hclosed.lines.trans hp.units.lines
  · rw [hparts]; exact hclosed.feeds.trans hp.units.feeds
  · rw [hparts]; exact hclosed.lights.trans hp.units.lights
  · rw [hparts]; exact hclosed.account.trans hp.units.account
  · rw [hparts]; exact hclosed.scheduler.trans hp.units.scheduler
  · rw [hparts]; exact hclosed.attention.trans hp.units.attention
  · rw [hparts]; exact hclosed.reports.trans hp.units.reports
  · rw [hu, if_pos (hmoved.2 h)]; exact v.raiseBoth_told srcFan
  · rw [hu, if_neg fun hm => (hmoved.1 hm).elim fun i hi => hi (h i)]; exact honly

/-- A check begun, as one handling (R119, R167). -/
theorem State.checkBegun_handled (s : State) (h : SlipHead) (hrun : s.phase = .running) :
    let v := (s.checkBegun h).reportFans
    let u := (v.keepOpen h 0x52 false).releaseSummary s.reports.summaryHeld
    u.exchange = v.exchange.kept h 0x52 false s.time ∧
      u.outer = { s.outer with fans := (s.checkBegun h).fans, fanRes := v.account.fanRes } ∧
      v.account.fanRes = (s.checkBegun h).fanReservation ∧
      u.bays = v.bays ∧ u.lines = v.lines ∧ u.account = v.account ∧ u.scheduler = v.scheduler ∧ u.late = v.late ∧
      ReadersStand s u ∧ u.attention = s.attention ∧
      ∀ old, s.status.summary = some old → old.cooling.check = none → s.reports.summaryHeld = false →
        ∃ new, u.status.summary = some new ∧ u.summed new ∧ new.time = s.time ∧ new.gen = old.gen + 1 := by
  intro v
  have hvouter : v.outer = { (s.checkBegun h).outer with fanRes := (s.checkBegun h).fanReservation } := State.reportFans_outer _
  have hvstand : ReadersStand s v := (ReadersStand.of_eq (t := s.checkBegun h) rfl).trans (State.reportFans_readersStand _)
  have hheld : HeldBack (s.checkBegun h) v := ((s.checkBegun h).reportReservation_heldBack _).trans (State.settle_heldBack _)
  have hvres : v.account.fanRes = (s.checkBegun h).fanReservation := congrArg Outer.fanRes hvouter
  have hvtime : v.time = s.time := congrArg Outer.time hvouter
  have hvfans : v.fans = (s.checkBegun h).fans := congrArg Outer.fans hvouter
  have hvphase : v.phase = .running := (congrArg Outer.phase hvouter).trans hrun
  clear_value v
  intro u
  have hu : u = { v.keepOpen h 0x52 false with reports := { (v.keepOpen h 0x52 false).reports with summaryHeld := s.reports.summaryHeld }, status := u.status } :=
    State.releaseSummary_eq _ _
  refine ⟨?_, ?_, hvres, ?_, ?_, ?_, ?_, ?_, ?_, ?_, fun old hold hnone hfree => ?_⟩
  · rw [hu]
    exact (State.exchange_keepOpen ..).trans (by rw [hvtime])
  · rw [hu]
    exact hvouter.trans (by rw [hvres]; rfl)
  · rw [hu]; rfl
  · rw [hu]; rfl
  · rw [hu]; rfl
  · rw [hu]; rfl
  · rw [hu]; rfl
  · exact hvstand.trans ((v.keepOpen_readersStand h _ _).trans (.of_eq (by rw [hu])))
  · rw [hu]; exact hheld.attention
  · have hsum : (v.keepOpen h 0x52 false).status.summary = some old := (hheld.summary rfl).trans hold
    have hmoved : old.cooling ≠ (v.keepOpen h 0x52 false).coolingSummary := fun heq => by
      have hcheck := congrArg CoolingSummary.check heq
      rw [hnone] at hcheck
      have : (v.keepOpen h 0x52 false).coolingSummary.check = some (h.port, s.time) := by
        show v.fans.check.map _ = _
        rw [hvfans]; rfl
      rw [this] at hcheck
      cases hcheck
    obtain ⟨new, hnew, hsummed, htime, hgen⟩ := State.releaseSummary_summed _ (show (v.keepOpen h 0x52 false).phase = .running from hvphase) hsum hmoved
    refine ⟨new, ?_, ?_, htime.trans hvtime, hgen⟩
    · show ((v.keepOpen h 0x52 false).releaseSummary s.reports.summaryHeld).status.summary = _
      rw [hfree]; exact hnew
    · show ((v.keepOpen h 0x52 false).releaseSummary s.reports.summaryHeld).summed new
      rw [hfree]; exact hsummed

/-- Settles O44: the start by `checkBegun_handled`, the end by `checkEnded_judged`. -/
theorem fanCheckStartsAndEnds : Obligations.FanCheckStartsAndEnds := by
  unfold Obligations.FanCheckStartsAndEnds
  refine ⟨?_, ?_⟩
  · intro s h ht hi full
    refine ⟨fun hbusy => ?_, ?_⟩
    · rw [exec_fanCheck_taken ht hi, if_pos hbusy]
    · intro hfree k t v hreserve
      have hfull : (s.checkBegun h).fanReservation = full := (s.checkBegun_reservation h hreserve).trans
        (congrArg List.sum (List.map_congr_left fun i _ => fanCurrent_eq _ _ _))
      have hv : (s.checkBegun h).reportFans = v := by
        unfold State.reportFans
        rw [hfull]
        rfl
      have hbegun := s.checkBegun_handled h (s.takeable_running h ht)
      rw [hv, hfull] at hbegun
      refine ⟨_, ?_, hbegun⟩
      rw [exec_fanCheck_taken ht hi, if_neg (not_not.2 hfree), hv]
  · intro s k hrun hk hdue bytes new result
    have hnew : new = s.judgedFan k := rfl
    have hjudged := s.checkEnded_judged k rfl
    refine ⟨s.checkEnded k, exec_fanCheckEnd_due hrun hk hdue, ?_⟩
    rw [hnew]
    exact hjudged

end Sys2Proof.Machine
end

