-- ==== Sys2Proof/Proofs/SetFans.lean ====
section
/-! SUPPORT. SET_FANS: its settings, its positions, C and the reservation (R122). -/

namespace Sys2Proof.Machine

variable {s : State}

/-! ### The positions (R122) -/

/-- The fan wall after the configured count changes. -/
def State.recountedFans (s : State) (new : FanSettings) : Vector Fan 6 :=
  Vector.ofFn fun (i : Fin 6) => (s.fans.fans[i] : Fan).recounted s.settings.fans.count new.count i.val s.time

theorem State.recountedFans_at (s : State) (new : FanSettings) (i : Fin 6) :
    (s.recountedFans new)[i] = (s.fans.fans[i] : Fan).recounted s.settings.fans.count new.count i.val s.time := by
  simp [State.recountedFans]

theorem Fan.recounted_dropped {old new i : Nat} (f : Fan) (now : Time) (hn : new ≤ i) (ho : i < old) :
    (f.recounted old new i now).record.state = .unused := by
  unfold Fan.recounted
  rw [if_pos ⟨hn, ho⟩]; rfl

theorem Fan.recounted_joined {old new i : Nat} (f : Fan) (now : Time) (ho : old ≤ i) (hn : i < new) :
    (f.recounted old new i now).record.state = if f.present then .starting else .absent := by
  unfold Fan.recounted
  rw [if_neg (by omega), if_pos ⟨ho, hn⟩, apply_ite Fan.record, apply_ite FanRecord.state]
  rfl

theorem Fan.recounted_same {old new i : Nat} (f : Fan) (now : Time) (h : i < old ↔ i < new) : f.recounted old new i now = f := by
  unfold Fan.recounted
  rw [if_neg (by omega), if_neg (by omega)]

/-! ### The work (R113, R118, R122) -/

/-- What a SET_FANS that changes something leaves with the summary record held back. -/
theorem State.refanWork_fields (s : State) (f : FanSettings) (fans : Vector Fan 6) (c : Nat) (moved : Bool) {w : State}
    (hw : s.refanWork f fans c moved = w) :
    w.outer = { s.outer with
      settings := { s.settings with fans := f }, fans := { s.fans with fans := w.fans.fans, c := c }, fanRes := w.account.fanRes } ∧
    ReadersStand s w ∧ w.attention = s.attention ∧ (∀ i : Fin 6, fans[i].like w.fans.fans[i]) ∧
    (moved = true → w.account.fanRes = ((List.finRange 6).map fun i => fanCurrent f (max c f.reserve) w.fans.fans[i].record.state).sum) ∧
    (moved = false → w.account = s.account ∧ w.bays = s.bays ∧ w.exchange = s.exchange) := by
  have hp := (s.refanned f fans c).pubFans_published
  obtain ⟨x, hx⟩ : ∃ x, x = (s.refanned f fans c).pubFans := ⟨_, rfl⟩
  rw [← hx] at hp
  obtain ⟨y, hy⟩ : ∃ y, y = x.evalEnclosure := ⟨_, rfl⟩
  have hyparts : y = { x with lights := y.lights, status := y.status } := by rw [hy]; exact x.evalEnclosure_eq
  have hyfans : y.fans = { s.fans with fans := x.fans.fans, c := c } := by
    rw [hyparts]; exact congrArg Outer.fans hp.outer
  have hwall : y.fans.fans = x.fans.fans := by rw [hyfans]
  have hyouter : y.outer = { s.outer with settings := { s.settings with fans := f }, fans := y.fans } := by
    rw [hy, State.evalEnclosure_outer, ← hy, hp.outer, hyfans]
    rfl
  have hyset : y.settings.fans = f := congrArg (fun o => o.settings.fans) hyouter
  have hyreaders : y.readers = s.readers := by rw [hyparts]; exact hp.units.readers
  have hyattention : y.attention = s.attention := by rw [hyparts]; exact hp.units.attention
  have hlike : ∀ i : Fin 6, fans[i].like y.fans.fans[i] := by rw [hwall]; exact hp.like
  have hwork : w = if moved then y.reportFans else y := by rw [← hw, hy, hx]; rfl
  cases moved with
  | false =>
    obtain rfl : w = y := hwork
    have hyaccount : w.account = s.account := by rw [hyparts]; exact hp.units.account
    refine ⟨?_, .of_eq hyreaders, hyattention, hlike, nofun, fun _ => ⟨hyaccount, ?_, ?_⟩⟩
    · rw [hyouter, hyaccount, hyfans]; rfl
    · rw [hyparts]; exact hp.units.bays
    · unfold State.exchange
      rw [hyreaders, show w.ram = s.ram by rw [hyparts]; exact hp.units.ram]
  | true =>
    have hwouter : w.outer = { y.outer with fanRes := y.fanReservation } := by rw [hwork]; exact y.reportFans_outer
    have hwfans : w.fans = y.fans := congrArg Outer.fans hwouter
    have hwres : w.account.fanRes = y.fanReservation := congrArg Outer.fanRes hwouter
    have hheld : HeldBack y w := by
      rw [hwork]
      exact (y.reportReservation_heldBack _).trans (State.settle_heldBack _)
    refine ⟨?_, ?_, hheld.attention.trans hyattention, hwfans ▸ hlike, fun _ => ?_, nofun⟩
    · rw [hwouter, hyouter, hwres, hwfans, hyfans]
    · rw [hwork]
      exact (ReadersStand.of_eq hyreaders).trans y.reportFans_readersStand
    · rw [hwres, State.fanReservation_eq, hyset, hwfans, hyfans]

theorem State.setFans_same (s : State) (a : SetFansArgs) (h : (FanSettings.apply a s.settings.fans).1 = s.settings.fans) : (s.setFans a).1 = s := by
  unfold State.setFans
  dsimp only
  rw [if_pos h]

theorem State.setFans_clamped (s : State) (a : SetFansArgs) : (s.setFans a).2 = (FanSettings.apply a s.settings.fans).2 := by
  unfold State.setFans
  dsimp only
  split <;> rfl

/-- The state that a SET_FANS which changes something leaves. -/
def State.refanTo (s : State) (new : FanSettings) : State :=
  let c := max s.fans.c new.dmin
  let v := (s.holdSummary.refanWork new (s.recountedFans new) c (reservationMoved s.settings.fans new s.fans.c c)).releaseSummary s.reports.summaryHeld
  if fansEvent s.fans.fans (s.recountedFans new) then v.raiseBoth srcFan else v

theorem State.setFans_changed (s : State) (a : SetFansArgs) (h : (FanSettings.apply a s.settings.fans).1 ≠ s.settings.fans) :
    (s.setFans a).1 = s.refanTo (FanSettings.apply a s.settings.fans).1 := by
  unfold State.setFans
  dsimp only
  rw [if_neg h]
  rfl

theorem reservationMoved_iff {old new : FanSettings} {c c' : Nat} : reservationMoved old new c c' = true ↔
    c ≠ c' ∨ old.count ≠ new.count ∨ old.idle ≠ new.idle ∨ old.maxCur ≠ new.maxCur ∨ old.reserve ≠ new.reserve := by
  simp [reservationMoved, or_assoc]

/-- What a SET_FANS that changes something leaves (R122). -/
theorem State.refanTo_fields (s : State) (new : FanSettings) {v : State} (hv : s.refanTo new = v) :
    let c := max s.fans.c new.dmin
    let moved := reservationMoved s.settings.fans new s.fans.c c
    v.outer = { s.outer with settings := { s.settings with fans := new }, fans := v.fans, fanRes := v.account.fanRes } ∧
      ReadersStand s v ∧ v.attention = s.attention ∧ v.fans = { s.fans with fans := v.fans.fans, c := c } ∧
      (∀ i : Fin 6, (s.recountedFans new)[i].like v.fans.fans[i]) ∧
      (fansEvent s.fans.fans (s.recountedFans new) = true → v.told srcFan) ∧
      (moved = true → v.account.fanRes = ((List.finRange 6).map fun i => fanCurrent new (max c new.reserve) v.fans.fans[i].record.state).sum) ∧
      (moved = false → v.account = s.account ∧ v.bays = s.bays ∧ v.exchange = s.exchange) := by
  intro c moved
  obtain ⟨w, hwork⟩ : ∃ w, s.holdSummary.refanWork new (s.recountedFans new) c moved = w := ⟨_, rfl⟩
  obtain ⟨houter, hreaders, hattention, hlike, hmoved, hsame⟩ := State.refanWork_fields _ _ _ _ _ hwork
  have hw : v = if fansEvent s.fans.fans (s.recountedFans new) then (w.releaseSummary s.reports.summaryHeld).raiseBoth srcFan
      else w.releaseSummary s.reports.summaryHeld := by rw [← hv, ← hwork]; rfl
  have hparts : v = { w with reports := v.reports, status := v.status, late := v.late } := by
    rw [hw, State.releaseSummary_eq]
    split <;> rfl
  have hvouter : v.outer = w.outer := by rw [hparts]; rfl
  have hvfans : v.fans = w.fans := by rw [hparts]
  have hvaccount : v.account = w.account := by rw [hparts]
  have hwfans : w.fans = { s.fans with fans := w.fans.fans, c := c } := congrArg Outer.fans houter
  refine ⟨?_, ?_, ?_, ?_, ?_, fun h => ?_, ?_, fun h => ?_⟩
  · rw [hvouter, hvfans, hvaccount, hwfans]; exact houter
  · exact (ReadersStand.of_eq (t := s.holdSummary) rfl).trans (hreaders.trans (.of_eq (by rw [hparts])))
  · rw [hparts]; exact hattention
  · rw [hvfans]; exact hwfans
  · rw [hvfans]; exact hlike
  · rw [hw, if_pos h]; exact State.raiseBoth_told _ srcFan
  · rw [hvfans, hvaccount]; exact hmoved
  · obtain ⟨haccount, hbays, hexchange⟩ := hsame h
    refine ⟨hvaccount.trans haccount, ?_, ?_⟩
    · rw [hparts]; exact hbays
    · rw [hparts]; exact hexchange

theorem exec_setFans_taken {h : SlipHead} (ht : s.takeable h = true) (hi : h.target = 0xFE) (a : SetFansArgs) : exec (.setFans h a) s =
    .next ((((s.markTaken h.addr).setFans a).1.endSettled h (FanSettings.apply a s.settings.fans).2 State.fansResult).finishSlip h.port) := by
  rw [exec_slip_taken _ h s rfl ht]
  refine congrArg (fun t => Host.Outcome.next (State.finishSlip h.port t)) ?_
  show State.setFansSlip h a (s.markTaken h.addr) = _
  unfold State.setFansSlip
  rw [if_pos (show h.target = enclosureTarget from hi), State.setFans_clamped]
  rfl

/-- Settles O45: the settings by `FanSettings.apply_eq`, the rest by `refanTo_fields`. -/
theorem setFansActsAtOnce : Obligations.SetFansActsAtOnce := by
  unfold Obligations.SetFansActsAtOnce
  intro s h a ht hi old within beyond maxCur idle new clamped c lostOrFailed
  have happly : FanSettings.apply a old = (new, clamped) := FanSettings.apply_eq a old
  have happly' : FanSettings.apply a (s.markTaken h.addr).settings.fans = (new, clamped) := happly
  refine ⟨((s.markTaken h.addr).setFans a).1, ?_, fun hsame => ?_, fun hne => ?_⟩
  · rw [exec_setFans_taken ht hi, show FanSettings.apply a s.settings.fans = (new, clamped) from happly]
    rfl
  · exact State.setFans_same _ a (by rw [happly']; exact hsame)
  · rw [State.setFans_changed _ a (by rw [happly']; exact hne), happly']
    obtain ⟨houter, hreaders, hattention, hfans, hlike, htold, hmoved, hstill⟩ := (s.markTaken h.addr).refanTo_fields new rfl
    generalize State.refanTo (s.markTaken h.addr) new = v at *
    have hat : ∀ i : Fin 6, ((s.fans.fans[i] : Fan).recounted old.count new.count i.val s.time).like v.fans.fans[i] := fun i => by
      have hi := hlike i
      rw [State.recountedFans_at] at hi
      exact hi
    refine ⟨houter, (ReadersStand.of_eq (t := s.markTaken h.addr) rfl).trans hreaders, hattention, hfans, fun i => ⟨?_, ?_, ?_, ?_⟩, ?_, ?_⟩
    · intro hn ho
      rw [Fan.like_state (hat i), Fan.recounted_dropped _ _ hn ho]
    · intro ho hn
      rw [Fan.like_state (hat i), Fan.recounted_joined _ _ ho hn]
    · intro hsame
      have hi := hat i
      rw [Fan.recounted_same _ _ hsame] at hi
      exact hi
    · intro hstate hcause
      refine htold (fansEvent_of i (fanEvent_iff.2 ?_))
      rw [← Fan.like_state (hlike i)]
      refine ⟨hstate, ?_⟩
      unfold lostOrFailed at hcause
      rcases hcause with (h | h) | (h | h)
      · exact .inl h
      · exact .inr (.inl h)
      · exact .inr (.inr (.inl h))
      · exact .inr (.inr (.inr h))
    · intro hcause
      rw [hmoved (reservationMoved_iff.2 (hcause.imp_left Ne.symm))]
      exact congrArg List.sum (List.map_congr_left fun i _ => fanCurrent_eq _ _ _)
    · intro hc hcount hidle hmax hres
      refine hstill (Bool.eq_false_iff.2 fun hm => ?_)
      rcases reservationMoved_iff.1 hm with h | h | h | h | h
      · exact h hc.symm
      · exact h hcount
      · exact h hidle
      · exact h hmax
      · exact h hres

end Sys2Proof.Machine
end

