-- ==== Sys2Proof/Proofs/Tidy.lean ====
section
/-! SUPPORT. The records of the status area one by one: which stand as their owner holds them, and what a piece of work leaves of that. Every
handling is a chain of such pieces, each of which dirties some records or publishes some (R166 to R168). -/

namespace Sys2Proof.Machine

variable {s t u : State}

/-! ### The records -/

/-- A record of the status area; the summary record in the part that the account and the scheduler own, and the rest. -/
inductive Part where
  | bay (n : BayNo)
  | light (n : BayNo)
  | fan (i : Fin 6)
  | supply (i : Fin 4)
  | zone (z : Fin 4)
  | sensor (i : Fin 8)
  | account
  | cooling
  | queue
  | enclosure
  | reader (p : Port)
  | attention (p : Port)

/-- The record stands published as its owner holds it. The summary record may be held back (R167). -/
def State.stands (s : State) : Part → Prop
  | .bay n => s.shown n
  | .light n => s.inCount n = true → s.status.lights[n] = some (s.lightSnap n)
  | .fan i => s.status.fans[i] = some s.fans.fans[i].record
  | .supply i => s.status.supplies[i] = some { supply := s.account.supplies[i], set := s.settings.supplies[i] }
  | .zone z => s.status.zones[z] = some { zone := s.zones[z], set := s.settings.zones[z], staleTime := s.settings.staleTime }
  | .sensor i => ∃ fails goodAt, s.status.sensors[i] =
      some { sensor := { s.sensors[i] with fails := fails, goodAt := goodAt }, set := s.settings.sensors[i] }
  | .account => s.reports.summaryHeld = true ∨ s.status.summary.map (·.account) = some s.accountSummary
  | .cooling => s.reports.summaryHeld = true ∨ s.status.summary.map (fun u => (u.cooling, u.origin, u.cause, u.straps)) =
      some (s.coolingSummary, s.origin, s.cause, s.straps)
  | .queue => s.status.queue =
      some { bays := s.scheduler.queue.map (·.bay), hold := s.scheduler.hold, schedule := s.settings.schedule,
             last := s.scheduler.lastAdmission, gen := s.scheduler.gen }
  | .enclosure => s.status.enclosure = some { light := s.lights.enclosure, patterns := s.settings.patterns }
  | .reader p => s.status.readers.get p = some (s.reader p)
  | .attention p => s.status.attention.get p = some { unit := s.attention.get p, config := s.settings.attention.get p }

/-- The records whose first publication start-up leaves to its step 7, once published, stay so. -/
structure Status.filled (s t : Status) : Prop where
  summary   : s.summary ≠ none → t.summary ≠ none
  enclosure : s.enclosure ≠ none → t.enclosure ≠ none
  lights    : ∀ n : BayNo, s.lights[n] ≠ none → t.lights[n] ≠ none

theorem Status.filled_refl (s : Status) : s.filled s := ⟨id, id, fun _ => id⟩

/-- Every change of a record is published: the load is over, and start-up has made its first publications (R169, R179). -/
structure State.live (s : State) : Prop where
  publishing : s.publishing = true
  summary    : s.status.summary ≠ none
  enclosure  : s.status.enclosure ≠ none
  lights     : ∀ n, s.inCount n = true → s.status.lights[n] ≠ none

/-- The address that a take adds to a port's open-slip table. -/
def opened (x : Option (Port × Half)) (p : Port) : List Half :=
  match x with
  | none => []
  | some (q, a) => if q = p then [a] else []

/-- A piece of work from s to t: it leaves the phase, the straps, the windows and the readers but for their tables, which lose slips and
gain x; it marks each record that it moves; and every record but those of D that stood still stands. -/
structure Tidy (x : Option (Port × Half)) (D : List Part) (s t : State) : Prop where
  phase   : t.phase = s.phase
  straps  : t.straps = s.straps
  windows : t.windows = s.windows
  held    : t.reports.summaryHeld = s.reports.summaryHeld
  thermal : t.reports.thermal.length ≤ s.reports.thermal.length
  readers : ReadersStand s t
  tables  : ∀ p, ((t.reader p).table.map (·.addr)).Sublist ((s.reader p).table.map (·.addr) ++ opened x p)
  carried : s.status.carried t.status
  filled  : s.status.filled t.status
  stands  : s.live → ∀ y, y ∉ D → s.stands y → t.stands y

variable {x : Option (Port × Half)} {D E : List Part}

theorem State.inCount_of_straps (h : t.straps = s.straps) (n : BayNo) : t.inCount n = s.inCount n := by
  unfold State.inCount; rw [h]

theorem State.publishing_of_phase (h : t.phase = s.phase) : t.publishing = s.publishing := by
  unfold State.publishing; rw [h]

theorem Tidy.live (h : Tidy x D s t) (hs : s.live) : t.live where
  publishing := (State.publishing_of_phase h.phase).trans hs.publishing
  summary := h.filled.summary hs.summary
  enclosure := h.filled.enclosure hs.enclosure
  lights n hn := h.filled.lights n (hs.lights n (State.inCount_of_straps h.straps n ▸ hn))

theorem Tidy.refl (s : State) : Tidy none D s s where
  phase := rfl
  straps := rfl
  windows := rfl
  held := rfl
  thermal := le_rfl
  readers := .refl s
  tables p := by rw [opened, List.append_nil]
  carried := Status.carried_refl _
  filled := Status.filled_refl _
  stands _ _ _ := id

theorem Tidy.mono (h : Tidy x D s t) (hD : D ⊆ E) : Tidy x E s t :=
  { h with stands := fun hl y hy => h.stands hl y fun hm => hy (hD hm) }

/-- The tables of two pieces of work of which at most one adds a slip. -/
theorem sublist_opened {x y : Option (Port × Half)} (hx : x = none ∨ y = none) {k l m : List Half} {p : Port} (h : l.Sublist (k ++ opened x p))
    (g : m.Sublist (l ++ opened y p)) : m.Sublist (k ++ opened (x.or y) p) := by
  rcases hx with rfl | rfl
  · rw [opened, List.append_nil] at h
    exact g.trans (h.append_right _)
  · rw [opened, List.append_nil] at g
    rw [Option.or_none]
    exact g.trans h

theorem Tidy.comp {y : Option (Port × Half)} (hx : x = none ∨ y = none) (h : Tidy x D s t) (k : Tidy y D t u) : Tidy (x.or y) D s u where
  phase := k.phase.trans h.phase
  straps := k.straps.trans h.straps
  windows := k.windows.trans h.windows
  held := k.held.trans h.held
  thermal := k.thermal.trans h.thermal
  readers := h.readers.trans k.readers
  tables p := sublist_opened hx (h.tables p) (k.tables p)
  carried := Status.carried_trans h.carried k.carried
  filled := ⟨k.filled.summary ∘ h.filled.summary, k.filled.enclosure ∘ h.filled.enclosure, fun n => k.filled.lights n ∘ h.filled.lights n⟩
  stands hl y hy hs := k.stands (h.live hl) y hy (h.stands hl y hy hs)

/-- Work that adds no slip follows. -/
theorem Tidy.trans (h : Tidy x D s t) (k : Tidy none D t u) : Tidy x D s u := by
  have hc := h.comp (.inr rfl) k
  rwa [Option.or_none] at hc

/-- Work that adds no slip goes before. -/
theorem Tidy.after (k : Tidy x D t u) (h : Tidy none D s t) : Tidy x D s u := h.comp (.inl rfl) k

/-- A publication of a record makes it stand. -/
theorem Tidy.publish {y : Part} (h : Tidy x (y :: D) s t) (k : Tidy none [] t u) (hy : t.live → u.stands y) : Tidy x D s u :=
  { (h.trans (k.mono (List.nil_subset _))) with
    stands := fun hl z hz hs => by
      by_cases hzy : z = y
      · exact hzy ▸ hy (h.live hl)
      · exact k.stands (h.live hl) z List.not_mem_nil (h.stands hl z (fun hm => (List.mem_cons.1 hm).elim hzy hz) hs) }

/-- Work that leaves the status area and the readers. -/
theorem Tidy.raw (phase : t.phase = s.phase) (straps : t.straps = s.straps) (windows : t.windows = s.windows)
    (held : t.reports.summaryHeld = s.reports.summaryHeld) (thermal : t.reports.thermal.length ≤ s.reports.thermal.length)
    (readers : t.readers = s.readers) (status : t.status = s.status) (stands : ∀ y, y ∉ D → s.stands y → t.stands y) : Tidy none D s t where
  phase := phase
  straps := straps
  windows := windows
  held := held
  thermal := thermal
  readers := .of_eq readers
  tables p := by
    rw [opened, List.append_nil, State.reader, readers]; rfl
  carried := status ▸ Status.carried_refl _
  filled := status ▸ Status.filled_refl _
  stands _ := stands

/-- A publication: the status area moves, and of the rest a generation. -/
theorem Tidy.publication (phase : t.phase = s.phase) (straps : t.straps = s.straps) (windows : t.windows = s.windows)
    (reports : t.reports = s.reports) (readers : t.readers = s.readers) (carried : s.status.carried t.status) (filled : s.status.filled t.status)
    (stands : s.live → ∀ y, s.stands y → t.stands y) : Tidy none [] s t where
  phase := phase
  straps := straps
  windows := windows
  held := by rw [reports]
  thermal := by rw [reports]
  readers := .of_eq readers
  tables p := by
    rw [opened, List.append_nil, State.reader, readers]; rfl
  carried := carried
  filled := filled
  stands hl y _ := stands hl y

/-! ### The summary record's parts -/

theorem State.spinningCount_of_states (h : ∀ m, (t.bay m).record.state = (s.bay m).record.state) : t.spinningCount = s.spinningCount := by
  rw [State.spinningCount_eq, State.spinningCount_eq]
  exact Finset.sum_congr rfl fun m _ => by rw [h m]

/-- The account's part of the summary is that of the figures, the spinning count and the queue's length. -/
theorem State.accountSummary_of (account : t.account = s.account) (bays : ∀ m, (t.bay m).record.state = (s.bay m).record.state)
    (queue : t.scheduler.queue.length = s.scheduler.queue.length) : t.accountSummary = s.accountSummary := by
  unfold State.accountSummary
  rw [account, State.spinningCount_of_states bays, queue]

/-! ### Each publication -/

theorem get_set_ne {α : Type} {n : Nat} (v : Vector α n) (i j : Fin n) (a : α) (h : j ≠ i) : (v.set i a)[j] = v[j] :=
  Vector.getElem_set_ne _ _ fun e => h (Fin.ext e.symm)

theorem get_set_some {α : Type} {n : Nat} (v : Vector (Option α) n) (i j : Fin n) (a : α) (h : v[j] ≠ none) : (v.set i (some a))[j] ≠ none := by
  by_cases e : j = i
  · subst e
    rw [Fin.getElem_fin, Vector.getElem_set_self]
    exact nofun
  · rw [get_set_ne _ _ _ _ e]; exact h

theorem State.pubBay_shown_live (n : BayNo) (h : s.publishing = true) : (s.pubBay n).shown n := by
  unfold State.pubBay
  dsimp only
  split
  · rename_i hc
    exact hc.resolve_left (by simp [h])
  · simp [State.shown, State.bay, State.mark, State.baySet]

theorem State.pubBay_tidy (s : State) (n : BayNo) : Tidy none [] s (s.pubBay n) := by
  refine .publication (by rw [State.pubBay_eq]) (by rw [State.pubBay_eq]) (by rw [State.pubBay_eq]) (by rw [State.pubBay_eq])
    (by rw [State.pubBay_eq]) (s.pubBay_carried n) ?_ fun hl y => ?_
  · unfold State.pubBay
    dsimp only
    split <;> exact ⟨id, id, fun _ => id⟩
  · have hlike := s.pubBay_like n
    cases y with
    | bay m =>
      by_cases hm : m = n
      · subst hm
        exact fun _ => State.pubBay_shown_live m hl.publishing
      · unfold State.pubBay
        dsimp only
        split
        · exact id
        · unfold State.stands State.shown State.mark State.bay State.baySet
          dsimp only
          rw [get_set_ne _ _ _ _ hm, get_set_ne _ _ _ _ hm]
          exact id
    | account =>
      have hsum : (s.pubBay n).accountSummary = s.accountSummary := State.accountSummary_of (by rw [State.pubBay_eq])
        (fun m => by rw [← (hlike m : _ = (s.pubBay n).bay m)]) (by rw [State.pubBay_eq])
      have hstatus : (s.pubBay n).status.summary = s.status.summary := by
        unfold State.pubBay
        dsimp only
        split <;> rfl
      unfold State.stands
      rw [hsum, hstatus, State.pubBay_eq]
      exact id
    | _ =>
      unfold State.pubBay
      dsimp only
      split <;> exact id

theorem State.pubLight_tidy (s : State) (n : BayNo) : Tidy none [] s (s.pubLight n) ∧ (s.live → (s.pubLight n).stands (.light n)) := by
  have hstands : s.live → (s.pubLight n).stands (.light n) := fun hl hin => by
    unfold State.pubLight at hin ⊢
    dsimp only at hin ⊢
    split
    · rename_i hc
      rw [if_pos hc] at hin
      obtain hc | hc | hc := hc
      · rw [hl.publishing] at hc; cases hc
      · rw [hin] at hc; cases hc
      · obtain ⟨old, hold⟩ := Option.ne_none_iff_exists'.1 (hl.lights n hin)
        rw [hold] at hc ⊢
        exact congrArg some hc.symm
    · simp [State.mark, State.lightSnap, State.light, State.putLight]
  refine ⟨.publication ?_ ?_ ?_ ?_ ?_ (s.pubLight_carried n) ?_ fun hl y => ?_, hstands⟩
  · rw [State.pubLight_eq]
  · rw [State.pubLight_eq]
  · rw [State.pubLight_eq]
  · rw [State.pubLight_eq]
  · rw [State.pubLight_eq]
  · unfold State.pubLight
    dsimp only
    split
    · exact Status.filled_refl _
    · exact ⟨id, id, fun m hm => get_set_some _ _ _ _ hm⟩
  · cases y with
    | light m =>
      by_cases hm : m = n
      · subst hm
        exact fun _ => hstands hl
      · unfold State.pubLight
        dsimp only
        split
        · exact id
        · unfold State.stands State.mark State.putLight State.lightSnap State.light State.inCount
          dsimp only
          rw [get_set_ne _ _ _ _ hm, get_set_ne _ _ _ _ hm]
          exact id
    | _ =>
      unfold State.pubLight
      dsimp only
      split <;> exact id

theorem State.pubFan_tidy (s : State) (i : Fin 6) : Tidy none [] s (s.pubFan i) ∧ (s.live → (s.pubFan i).stands (.fan i)) := by
  have hstands : s.live → (s.pubFan i).stands (.fan i) := fun hl => by
    have hp := hl.publishing
    unfold State.pubFan
    dsimp only
    split
    · rename_i hc
      exact hc.resolve_left (by simp [hp])
    · simp [State.stands, State.mark]
  refine ⟨.publication (by rw [State.pubFan_eq]) (by rw [State.pubFan_eq]) (by rw [State.pubFan_eq]) (by rw [State.pubFan_eq])
    (by rw [State.pubFan_eq]) (s.pubFan_carried i) ?_ fun hl y => ?_, hstands⟩
  · unfold State.pubFan
    dsimp only
    split <;> exact ⟨id, id, fun _ => id⟩
  · cases y with
    | fan j =>
      by_cases hj : j = i
      · subst hj
        exact fun _ => hstands hl
      · unfold State.pubFan
        dsimp only
        split
        · exact id
        · unfold State.stands State.mark
          dsimp only
          rw [get_set_ne _ _ _ _ hj, get_set_ne _ _ _ _ hj]
          exact id
    | _ =>
      unfold State.pubFan
      dsimp only
      split <;> exact id

theorem State.pubSupply_tidy (s : State) (i : Fin 4) : Tidy none [] s (s.pubSupply i) ∧ (s.live → (s.pubSupply i).stands (.supply i)) := by
  have hstands : s.live → (s.pubSupply i).stands (.supply i) := fun hl => by
    have hp := hl.publishing
    unfold State.pubSupply
    dsimp only
    split
    · rename_i hc
      exact hc.resolve_left (by simp [hp])
    · simp [State.stands, State.mark]
  refine ⟨.publication (by rw [State.pubSupply_eq]) (by rw [State.pubSupply_eq]) (by rw [State.pubSupply_eq]) (by rw [State.pubSupply_eq])
    (by rw [State.pubSupply_eq]) (s.pubSupply_carried i) ?_ fun hl y => ?_, hstands⟩
  · unfold State.pubSupply
    dsimp only
    split <;> exact ⟨id, id, fun _ => id⟩
  · cases y with
    | supply j =>
      by_cases hj : j = i
      · subst hj
        exact fun _ => hstands hl
      · unfold State.pubSupply
        dsimp only
        split
        · exact id
        · unfold State.stands State.mark
          dsimp only
          rw [get_set_ne _ _ _ _ hj, get_set_ne _ _ _ _ hj]
          exact id
    | _ =>
      unfold State.pubSupply
      dsimp only
      split <;> exact id

theorem State.pubZone_tidy (s : State) (z : Fin 4) : Tidy none [] s (s.pubZone z) ∧ (s.live → (s.pubZone z).stands (.zone z)) := by
  have hstands : s.live → (s.pubZone z).stands (.zone z) := fun hl => by
    have hp := hl.publishing
    unfold State.pubZone
    dsimp only
    split
    · rename_i hc
      exact hc.resolve_left (by simp [hp])
    · simp [State.stands, State.mark]
  refine ⟨.publication (by rw [State.pubZone_eq]) (by rw [State.pubZone_eq]) (by rw [State.pubZone_eq]) (by rw [State.pubZone_eq])
    (by rw [State.pubZone_eq]) (s.pubZone_carried z) ?_ fun hl y => ?_, hstands⟩
  · unfold State.pubZone
    dsimp only
    split <;> exact ⟨id, id, fun _ => id⟩
  · cases y with
    | zone j =>
      by_cases hj : j = z
      · subst hj
        exact fun _ => hstands hl
      · unfold State.pubZone
        dsimp only
        split
        · exact id
        · unfold State.stands State.mark
          dsimp only
          rw [get_set_ne _ _ _ _ hj, get_set_ne _ _ _ _ hj]
          exact id
    | _ =>
      unfold State.pubZone
      dsimp only
      split <;> exact id

theorem State.republishSensor_tidy (s : State) (i : Fin 8) :
    Tidy none [] s (s.republishSensor i) ∧ (s.live → (s.republishSensor i).stands (.sensor i)) := by
  have hstands : s.live → (s.republishSensor i).stands (.sensor i) := fun hl => by
    unfold State.republishSensor
    rw [if_neg (by simp [hl.publishing])]
    refine ⟨s.sensors[i].fails, s.sensors[i].goodAt, ?_⟩
    simp [State.mark]
  refine ⟨.publication (by rw [State.republishSensor_eq]) (by rw [State.republishSensor_eq]) (by rw [State.republishSensor_eq])
    (by rw [State.republishSensor_eq]) (by rw [State.republishSensor_eq]) (s.republishSensor_carried i) ?_ fun hl y => ?_, hstands⟩
  · unfold State.republishSensor
    split <;> exact ⟨id, id, fun _ => id⟩
  · cases y with
    | sensor j =>
      by_cases hj : j = i
      · subst hj
        exact fun _ => hstands hl
      · unfold State.republishSensor
        split
        · exact id
        · unfold State.stands State.mark
          dsimp only
          rw [get_set_ne _ _ _ _ hj, get_set_ne _ _ _ _ hj]
          exact id
    | _ =>
      unfold State.republishSensor
      split <;> exact id

/-! ### The summary record (R167) -/

theorem State.pubSummary_tidy (s : State) : Tidy none [] s s.pubSummary ∧ (s.live → s.pubSummary.stands .account ∧ s.pubSummary.stands .cooling) := by
  have hstands : s.live → s.pubSummary.stands .account ∧ s.pubSummary.stands .cooling := fun hl => by
    unfold State.pubSummary
    split
    · rename_i hc
      obtain hc | hc | hc := hc
      · rw [hl.publishing] at hc; cases hc
      · exact ⟨.inl hc, .inl hc⟩
      · exact absurd hc.2 hl.summary
    · exact ⟨.inr rfl, .inr rfl⟩
  refine ⟨.publication (by rw [State.pubSummary_eq]) (by rw [State.pubSummary_eq]) (by rw [State.pubSummary_eq]) (by rw [State.pubSummary_eq])
    (by rw [State.pubSummary_eq]) s.pubSummary_carried ?_ fun hl y => ?_, hstands⟩
  · unfold State.pubSummary
    split
    · exact Status.filled_refl _
    · exact ⟨fun _ => nofun, id, fun _ => id⟩
  · cases y with
    | account => exact fun _ => (hstands hl).1
    | cooling => exact fun _ => (hstands hl).2
    | _ =>
      unfold State.pubSummary
      split <;> exact id

theorem State.pubSummaryIfAccount_tidy (s : State) :
    Tidy none [] s s.pubSummaryIfAccount ∧ (s.live → s.pubSummaryIfAccount.stands .account) := by
  unfold State.pubSummaryIfAccount
  split
  · rename_i h
    exact ⟨.refl s, fun _ => .inr h⟩
  · exact ⟨s.pubSummary_tidy.1, fun hl => (s.pubSummary_tidy.2 hl).1⟩

theorem State.pubSummaryIfChanged_tidy (s : State) :
    Tidy none [] s s.pubSummaryIfChanged ∧ (s.live → s.pubSummaryIfChanged.stands .account ∧ s.pubSummaryIfChanged.stands .cooling) := by
  unfold State.pubSummaryIfChanged
  split
  · rename_i h
    obtain ⟨u, hu, hs⟩ := Option.map_eq_some_iff.1 h
    refine ⟨.refl s, fun _ => ⟨.inr ?_, .inr ?_⟩⟩
    · rw [hu]
      exact congrArg some (congrArg Prod.fst hs)
    · rw [hu]
      exact congrArg some (congrArg Prod.snd hs)
  · exact s.pubSummary_tidy

/-! ### The rest -/

theorem State.pubQueue_tidy (s : State) : Tidy none [] s s.pubQueue ∧ (s.live → s.pubQueue.stands .queue) := by
  have hstands : s.live → s.pubQueue.stands .queue := fun hl => by
    unfold State.pubQueue
    rw [if_neg (by simp [hl.publishing])]
    rfl
  refine ⟨.publication (by rw [State.pubQueue_eq]) (by rw [State.pubQueue_eq]) (by rw [State.pubQueue_eq]) (by rw [State.pubQueue_eq])
    (by rw [State.pubQueue_eq]) s.pubQueue_carried ?_ fun hl y => ?_, hstands⟩
  · unfold State.pubQueue
    split <;> exact ⟨id, id, fun _ => id⟩
  · cases y with
    | queue => exact fun _ => hstands hl
    | _ =>
      unfold State.pubQueue
      split <;> exact id

theorem State.pubEnclosure_tidy (s : State) : Tidy none [] s s.pubEnclosure ∧ (s.live → s.pubEnclosure.stands .enclosure) := by
  have hstands : s.live → s.pubEnclosure.stands .enclosure := fun hl => by
    unfold State.pubEnclosure
    dsimp only
    split
    · rename_i hc
      obtain hc | hc := hc
      · rw [hl.publishing] at hc; cases hc
      · obtain ⟨old, hold⟩ := Option.ne_none_iff_exists'.1 hl.enclosure
        rw [hold] at hc
        exact hold.trans (congrArg some hc.symm)
    · rfl
  refine ⟨.publication (by rw [State.pubEnclosure_eq]) (by rw [State.pubEnclosure_eq]) (by rw [State.pubEnclosure_eq])
    (by rw [State.pubEnclosure_eq]) (by rw [State.pubEnclosure_eq]) s.pubEnclosure_carried ?_ fun hl y => ?_, hstands⟩
  · unfold State.pubEnclosure
    dsimp only
    split
    · exact Status.filled_refl _
    · exact ⟨id, fun _ => nofun, fun _ => id⟩
  · cases y with
    | enclosure => exact fun _ => hstands hl
    | _ =>
      unfold State.pubEnclosure
      dsimp only
      split <;> exact id

/-- A publication of a reader record moves its generation alone. -/
theorem State.republishReader_reader (s : State) (p q : Port) : ∃ g, (s.republishReader p).reader q = { s.reader q with gen := g } := by
  unfold State.republishReader
  split
  · exact ⟨_, rfl⟩
  · by_cases hq : q = p
    · subst hq
      refine ⟨nextGen (s.status.readers.get q) (s.reader q).gen, ?_⟩
      unfold State.mark State.reader
      dsimp only
      rw [PerPort.get_put_same]
    · refine ⟨(s.reader q).gen, ?_⟩
      unfold State.mark State.reader
      dsimp only
      rw [PerPort.get_put, if_neg hq]

theorem State.republishReader_tidy (s : State) (p : Port) :
    Tidy none [] s (s.republishReader p) ∧ (s.live → (s.republishReader p).stands (.reader p)) := by
  have hstands : s.live → (s.republishReader p).stands (.reader p) := fun hl => by
    unfold State.republishReader
    rw [if_neg (by simp [hl.publishing])]
    cases p <;> rfl
  refine ⟨⟨by rw [State.republishReader_eq], by rw [State.republishReader_eq], by rw [State.republishReader_eq],
    by rw [State.republishReader_eq], by rw [State.republishReader_eq], fun q => ?_, fun q => ?_, s.republishReader_carried p, ?_,
    fun hl y _ => ?_⟩, hstands⟩
  · obtain ⟨g, hg⟩ := s.republishReader_reader p q
    rw [hg]
  · obtain ⟨g, hg⟩ := s.republishReader_reader p q
    rw [hg, opened, List.append_nil]
  · unfold State.republishReader
    split <;> exact ⟨id, id, fun _ => id⟩
  · cases y with
    | reader q =>
      by_cases hq : q = p
      · subst hq
        exact fun _ => hstands hl
      · unfold State.republishReader
        split
        · exact id
        · unfold State.stands State.mark State.reader
          dsimp only
          rw [PerPort.get_put, PerPort.get_put, if_neg hq, if_neg hq]
          exact id
    | _ =>
      unfold State.republishReader
      split <;> exact id

theorem State.pubReader_tidy (s : State) (p : Port) : Tidy none [] s (s.pubReader p) ∧ (s.live → (s.pubReader p).stands (.reader p)) := by
  unfold State.pubReader
  split
  · rename_i h
    exact ⟨.refl s, fun _ => h⟩
  · exact s.republishReader_tidy p

theorem State.republishAttention_tidy (s : State) (p : Port) :
    Tidy none [] s (s.republishAttention p) ∧ (s.live → (s.republishAttention p).stands (.attention p)) := by
  have hstands : s.live → (s.republishAttention p).stands (.attention p) := fun hl => by
    unfold State.republishAttention
    rw [if_neg (by simp [hl.publishing])]
    cases p <;> rfl
  have heq := s.republishAttention_eq p
  refine ⟨.publication (by rw [heq]) (by rw [heq]) (by rw [heq]) (by rw [heq]) (by rw [heq]) (s.republishAttention_carried p) ?_ fun hl y => ?_, hstands⟩
  · unfold State.republishAttention
    split <;> exact ⟨id, id, fun _ => id⟩
  · cases y with
    | attention q =>
      by_cases hq : q = p
      · subst hq
        exact fun _ => hstands hl
      · unfold State.republishAttention
        split
        · exact id
        · unfold State.stands State.mark
          dsimp only
          rw [PerPort.get_put, PerPort.get_put, if_neg hq, if_neg hq]
          exact id
    | _ =>
      unfold State.republishAttention
      split <;> exact id

theorem State.pubAttention_tidy (s : State) (p : Port) :
    Tidy none [] s (s.pubAttention p) ∧ (s.live → (s.pubAttention p).stands (.attention p)) := by
  unfold State.pubAttention
  split
  · rename_i h
    exact ⟨.refl s, fun _ => h⟩
  · exact s.republishAttention_tidy p

end Sys2Proof.Machine
end

