-- ==== Sys2Proof/Proofs/TidyOps.lean ====
section
/-! SUPPORT. What the operations that every handling shares leave of the records: events, lights, slip ends, the account, bays, the queue,
policy, sheds (`Tidy`). -/

namespace Sys2Proof.Machine

variable {s t u : State} {n : BayNo} {x : Option (Port × Half)} {D : List Part}

/-! ### Events -/

theorem State.withLate_tidy (s : State) (l : List (Port × Fin 8)) : Tidy none D s { s with late := l } :=
  .raw rfl rfl rfl rfl le_rfl rfl rfl fun y _ => by cases y <;> exact id

theorem State.raiseBoth_tidy (s : State) (i : Fin 8) : Tidy none D s (s.raiseBoth i) := s.withLate_tidy _

theorem State.raiseOpt_tidy (s : State) (e : Option (Fin 8)) : Tidy none D s (s.raiseOpt e) := by
  rw [State.raiseOpt_eq]; exact s.withLate_tidy _

theorem Tidy.raisedIf (h : Tidy x D s t) (c : Prop) [Decidable c] (i : Fin 8) : Tidy x D s (if c then t.raiseBoth i else t) := by
  split
  · exact h.trans (t.raiseBoth_tidy i)
  · exact h

theorem Tidy.raisedUnless (h : Tidy x D s t) (c : Prop) [Decidable c] (i : Fin 8) : Tidy x D s (if c then t else t.raiseBoth i) := by
  split
  · exact h
  · exact h.trans (t.raiseBoth_tidy i)

/-- An Attention Unit replaced. -/
theorem State.putAttention_tidy (s : State) (p : Port) (a : AttentionUnit) :
    Tidy none [.attention p] s { s with attention := s.attention.put p a } :=
  .raw rfl rfl rfl rfl le_rfl rfl rfl fun y hy => by
    cases y with
    | attention q =>
      have hq : q ≠ p := fun h => hy (by rw [h]; exact List.mem_singleton_self _)
      unfold State.stands
      dsimp only
      rw [PerPort.get_put, if_neg hq]
      exact id
    | _ => exact id

theorem Tidy.pubAttention {p : Port} (h : Tidy x (.attention p :: D) s t) : Tidy x D s (t.pubAttention p) :=
  h.publish (t.pubAttention_tidy p).1 (t.pubAttention_tidy p).2

theorem State.latchEvent_tidy (s : State) (p : Port) (i : Fin 8) : Tidy none [] s (s.latchEvent p i) := by
  unfold State.latchEvent
  dsimp only
  split
  · exact (s.putAttention_tidy p _).pubAttention
  · exact .refl s

/-- Handing the events on keeps every record. -/
theorem State.deliver_tidy (s : State) : Tidy none [] s s.deliver :=
  foldl_keeps (P := Tidy none [] s) (fun t _ ht => ht.trans (t.latchEvent_tidy _ _)) _ _ (s.withLate_tidy [])

@[simp] theorem State.deliver_reports (s : State) : s.deliver.reports = s.reports := by rw [State.deliver_eq]

/-! ### Lights -/

theorem State.putLight_tidy (s : State) (n : BayNo) (l : BayLight) : Tidy none [.light n] s (s.putLight n l) :=
  .raw rfl rfl rfl rfl le_rfl rfl rfl fun y hy => by
    cases y with
    | light m =>
      have hm : m ≠ n := fun h => hy (by rw [h]; exact List.mem_singleton_self _)
      unfold State.stands State.lightSnap
      dsimp only
      rw [State.light_putLight, if_neg hm]
      exact id
    | _ => exact id

/-- A bay light put and published. -/
theorem State.relit_tidy (s : State) (n : BayNo) (l : BayLight) : Tidy none [] s ((s.putLight n l).pubLight n) :=
  (s.putLight_tidy n l).publish (State.pubLight_tidy _ n).1 (State.pubLight_tidy _ n).2

theorem State.deriveLights_tidy (s : State) (n : BayNo) : Tidy none [] s (s.deriveLights n) := by
  unfold State.deriveLights
  dsimp only
  split
  · exact .refl s
  · exact s.relit_tidy n _

/-- The enclosure light put and published. -/
theorem State.enclosureRelit_tidy (s : State) (l : EnclosureLight) :
    Tidy none [] s ({ s with lights := { s.lights with enclosure := l } } : State).pubEnclosure := by
  have hraw : Tidy none [.enclosure] s { s with lights := { s.lights with enclosure := l } } :=
    .raw rfl rfl rfl rfl le_rfl rfl rfl fun y hy => by
      cases y with
      | enclosure => exact absurd (List.mem_singleton_self _) hy
      | _ => exact id
  exact hraw.publish (State.pubEnclosure_tidy _).1 (State.pubEnclosure_tidy _).2

theorem State.lightEnclosure_tidy (s : State) : Tidy none [] s s.lightEnclosure := s.enclosureRelit_tidy _

theorem State.evalEnclosure_tidy (s : State) : Tidy none [] s s.evalEnclosure := by
  unfold State.evalEnclosure
  split
  · exact .refl s
  · exact s.lightEnclosure_tidy

/-! ### Slips -/

/-- A table replaced by one that gains at most a slip. -/
theorem State.putTable_tidy (s : State) (p : Port) (l : List OpenSlip) (hl : (l.map (·.addr)).Sublist ((s.reader p).table.map (·.addr) ++ opened x p)) :
    Tidy x [.reader p] s (s.putReader p { s.reader p with table := l }) where
  phase := rfl
  straps := rfl
  windows := rfl
  held := rfl
  thermal := le_rfl
  readers := s.putTable_readersStand p l
  tables q := by
    by_cases hq : q = p
    · subst hq
      rw [State.putReader, State.reader, PerPort.get_put_same]
      exact hl
    · rw [State.putReader, State.reader, PerPort.get_put, if_neg hq]
      exact List.sublist_append_left _ _
  carried := Status.carried_refl _
  filled := Status.filled_refl _
  stands _ y hy := by
    cases y with
    | reader q =>
      have hq : q ≠ p := fun h => hy (by rw [h]; exact List.mem_singleton_self _)
      unfold State.stands State.putReader State.reader
      dsimp only
      rw [PerPort.get_put, if_neg hq]
      exact id
    | _ => exact id

theorem Tidy.pubReader {p : Port} (h : Tidy x (.reader p :: D) s t) : Tidy x D s (t.pubReader p) :=
  h.publish (t.pubReader_tidy p).1 (t.pubReader_tidy p).2

theorem State.ram_tidy (s : State) (m : Memory) (l : List (Port × Fin 8)) : Tidy none D s { s with ram := m, late := l } :=
  .raw rfl rfl rfl rfl le_rfl rfl rfl fun y _ => by cases y <;> exact id

theorem State.endAt_tidy (s : State) (p : Port) (a : Half) (attn : Bool) (o : SlipOutcome) (f : Byte) (r : Option (List Byte)) :
    Tidy none D s (s.endAt p a attn o f r) := by
  rw [State.endAt_eq]; exact s.ram_tidy _ _

theorem Tidy.endTaken (h : Tidy x D s t) (k : SlipHead) (o : SlipOutcome) (c m : Bool) (r : Option (List Byte)) : Tidy x D s (t.endTaken k o c m r) :=
  h.trans (t.endAt_tidy _ _ _ _ _ _)

theorem State.dropOpen_tidy (s : State) (p : Port) (a : Half) : Tidy none [] s (s.dropOpen p a) := by
  refine Tidy.pubReader (D := []) (s.putTable_tidy p _ ?_)
  rw [opened, List.append_nil]
  exact List.filter_sublist.map _

theorem State.endOpen_tidy (s : State) (p : Port) (a : Half) (o : SlipOutcome) (c : Bool) (r : Option (List Byte)) :
    Tidy none [] s (s.endOpen p a o c r) := by
  unfold State.endOpen
  split
  · exact .refl s
  · exact (s.endAt_tidy _ _ _ _ _ _).trans (State.dropOpen_tidy _ p a)

theorem State.endOpSlip_tidy (s : State) (op : Option Operation) (o : SlipOutcome) (r : List Byte) : Tidy none [] s (s.endOpSlip op o r) := by
  unfold State.endOpSlip
  split
  · exact s.endOpen_tidy _ _ _ _ _
  · exact .refl s

/-- A slip kept open adds its address to its port's table, whose record its handling's end publishes (R158, R160). -/
theorem State.keepOpen_tidy (s : State) (h : SlipHead) (command : Byte) (clamped : Bool) :
    Tidy (some (h.port, h.addr)) [.reader h.port] s (s.keepOpen h command clamped) := by
  refine s.putTable_tidy h.port _ ?_
  rw [List.map_append, opened, if_pos rfl]
  exact List.Sublist.refl _

theorem State.markTaken_tidy (s : State) (a : Half) : Tidy none D s (s.markTaken a) := s.ram_tidy _ s.late

/-! ### The account -/

/-- The reports replaced. -/
theorem State.withReports_tidy (s : State) (r : Reports) (held : r.summaryHeld = s.reports.summaryHeld)
    (thermal : r.thermal.length ≤ s.reports.thermal.length) : Tidy none D s { s with reports := r } :=
  .raw rfl rfl rfl held thermal rfl rfl fun y _ => by
    cases y with
    | account => exact fun h => h.imp_left held.trans
    | cooling => exact fun h => h.imp_left held.trans
    | _ => exact id

/-- The account's figures and the reports replaced, the supplies as they were. -/
theorem State.withAccount_tidy (s : State) (a : Account) (r : Reports) (supplies : a.supplies = s.account.supplies)
    (held : r.summaryHeld = s.reports.summaryHeld) (thermal : r.thermal.length ≤ s.reports.thermal.length) :
    Tidy none [.account] s { s with account := a, reports := r } :=
  .raw rfl rfl rfl held thermal rfl rfl fun y hy => by
    cases y with
    | account => exact absurd (List.mem_singleton_self _) hy
    | cooling => exact fun h => h.imp_left held.trans
    | supply i =>
      unfold State.stands
      dsimp only
      rw [supplies]
      exact id
    | _ => exact id

theorem State.evaluated_supplies (s : State) (f : Account) : (s.evaluated f).supplies = f.supplies := by
  unfold State.evaluated
  split
  · split <;> rfl
  · rfl

theorem Tidy.pubSummaryIfAccount (h : Tidy x (.account :: D) s t) : Tidy x D s t.pubSummaryIfAccount :=
  h.publish t.pubSummaryIfAccount_tidy.1 t.pubSummaryIfAccount_tidy.2

/-- A handling of the account publishes what the account owns of the summary record, whatever moved of it. -/
theorem Tidy.accountUpdate (h : Tidy x (.account :: D) s t) : Tidy x D s t.accountUpdate := by
  have hfigures : Tidy x (.account :: D) s { t with account := t.evaluated t.figures, reports := t.accountReports (t.evaluated t.figures) } :=
    h.trans ((t.withAccount_tidy (t.evaluated t.figures) (t.accountReports (t.evaluated t.figures)) (t.evaluated_supplies _) rfl le_rfl).mono (List.cons_subset_cons _ (List.nil_subset D)))
  exact Tidy.raisedIf (hfigures.trans ((State.evalEnclosure_tidy _).mono (List.nil_subset _))).pubSummaryIfAccount _ _

theorem State.accountUpdate_tidy (s : State) : Tidy none [] s s.accountUpdate := Tidy.accountUpdate (.refl s)

/-! ### A bay -/

/-- The records that a move of bay n dirties: its own, and the account's part of the summary (R5). -/
def bayParts (n : BayNo) : List Part := [.bay n, .account]

/-- Work on bay n that publishes nothing. -/
theorem Tidy.of_bay (outer : t.outer = s.outer) (held : t.reports.summaryHeld = s.reports.summaryHeld) (thermal : t.reports.thermal = s.reports.thermal)
    (readers : t.readers = s.readers) (status : t.status = s.status) (attention : t.attention = s.attention) (bays : ∀ m, m ≠ n → t.bay m = s.bay m)
    (lights : ∀ m, t.lightSnap m = s.lightSnap m) (enclosure : t.lights.enclosure = s.lights.enclosure) (scheduler : t.scheduler = s.scheduler) :
    Tidy none (bayParts n) s t := by
  have hphase : t.phase = s.phase := congrArg Outer.phase outer
  have hstraps : t.straps = s.straps := congrArg Outer.straps outer
  have hset : t.settings = s.settings := congrArg Outer.settings outer
  have hfans : t.fans = s.fans := congrArg Outer.fans outer
  have hzones : t.zones = s.zones := congrArg Outer.zones outer
  have hsensors : t.sensors = s.sensors := congrArg Outer.sensors outer
  have hsupplies : t.account.supplies = s.account.supplies := congrArg Outer.supplies outer
  refine .raw hphase hstraps (congrArg Outer.windows outer) held (by rw [thermal]) readers status fun y hy => ?_
  cases y with
  | bay m =>
    have hm : m ≠ n := fun h => hy (by rw [h]; exact List.mem_cons_self)
    unfold State.stands State.shown State.baySet
    dsimp only
    rw [status, bays m hm, hset]
    exact id
  | light m =>
    unfold State.stands
    dsimp only
    rw [status, lights m, State.inCount_of_straps hstraps]
    exact id
  | account => exact absurd (List.mem_cons_of_mem _ (List.mem_singleton_self _)) hy
  | cooling =>
    unfold State.stands State.coolingSummary
    dsimp only
    rw [status, held, hfans, show t.origin = s.origin from congrArg Outer.origin outer, show t.cause = s.cause from congrArg Outer.cause outer, hstraps]
    exact id
  | fan i => unfold State.stands; dsimp only; rw [status, hfans]; exact id
  | supply i => unfold State.stands; dsimp only; rw [status, hsupplies, hset]; exact id
  | zone z => unfold State.stands; dsimp only; rw [status, hzones, hset]; exact id
  | sensor i => unfold State.stands; dsimp only; rw [status, hsensors, hset]; exact id
  | queue => unfold State.stands; dsimp only; rw [status, scheduler, hset]; exact id
  | enclosure => unfold State.stands; dsimp only; rw [status, enclosure, hset]; exact id
  | reader p => unfold State.stands State.reader; dsimp only; rw [status, readers]; exact id
  | attention p => unfold State.stands; dsimp only; rw [status, attention, hset]; exact id

theorem State.putBay_tidy (s : State) (n : BayNo) (b : Bay) : Tidy none (bayParts n) s (s.putBay n b) :=
  .of_bay rfl rfl rfl rfl rfl rfl (fun m hm => by rw [State.bay_putBay, if_neg hm]) (fun _ => rfl) rfl rfl

theorem State.setOp_tidy (s : State) (n : BayNo) (o : Option Operation) : Tidy none (bayParts n) s (s.setOp n o) := s.putBay_tidy n _
theorem State.setFlags_tidy (s : State) (n : BayNo) (f : BayFlags → BayFlags) : Tidy none (bayParts n) s (s.setFlags n f) := s.putBay_tidy n _
theorem State.setRetries_tidy (s : State) (n : BayNo) (r : Nat) : Tidy none (bayParts n) s (s.setRetries n r) := s.putBay_tidy n _
theorem State.countInsertion_tidy (s : State) (n : BayNo) : Tidy none (bayParts n) s (s.countInsertion n) := s.putBay_tidy n _
theorem State.countBounce_tidy (s : State) (n : BayNo) : Tidy none (bayParts n) s (s.countBounce n) := s.putBay_tidy n _
theorem State.countTrip_tidy (s : State) (n : BayNo) : Tidy none (bayParts n) s (s.countTrip n) := s.putBay_tidy n _

theorem State.beginRetry_tidy (s : State) (n : BayNo) : Tidy none (bayParts n) s (s.beginRetry n) := by
  unfold State.beginRetry
  dsimp only
  split <;> exact s.putBay_tidy n _

theorem State.putLine_tidy (s : State) (n : BayNo) (l : BayLines) : Tidy none D s (s.putLine n l) :=
  .raw rfl rfl rfl rfl le_rfl rfl rfl fun y _ => by cases y <;> exact id

theorem State.withFeeds_tidy (s : State) (f : Vector BayFeed 60) : Tidy none D s { s with feeds := f } :=
  .raw rfl rfl rfl rfl le_rfl rfl rfl fun y _ => by cases y <;> exact id

theorem State.voidBayFeed_tidy (s : State) (n : BayNo) : Tidy none D s (s.voidBayFeed n) := s.withFeeds_tidy _

theorem State.enter_tidy (s : State) (n : BayNo) (st : BayState) (why : Reason) : Tidy none (bayParts n) s (s.enter n st why) := by
  refine .of_bay rfl rfl rfl rfl rfl rfl (fun m hm => by rw [State.bay_enter, if_neg hm]) (fun m => ?_) rfl rfl
  unfold State.lightSnap
  rw [State.light_enter]
  split
  · rename_i hm
    subst hm
    rfl
  · rfl

theorem Tidy.pubBay (h : Tidy x (.bay n :: D) s t) : Tidy x D s (t.pubBay n) :=
  h.publish (t.pubBay_tidy n) fun hl => State.pubBay_shown_live n hl.publishing

/-- The end of a bay's handling publishes what its moves dirtied (R5). -/
theorem Tidy.bayChanged (h : Tidy x (bayParts n ++ D) s t) (e : Option (Fin 8)) : Tidy x D s (t.bayChanged n e) :=
  ((Tidy.pubBay (D := .account :: D) h).trans ((State.deriveLights_tidy _ n).mono (List.nil_subset _))).accountUpdate.trans (State.raiseOpt_tidy _ e)

/-! ### The queue -/

/-- The queue replaced. -/
theorem State.withQueue_tidy (s : State) (c : Scheduler) (r : Reports) (held : r.summaryHeld = s.reports.summaryHeld)
    (thermal : r.thermal = s.reports.thermal) : Tidy none [.queue, .account] s { s with scheduler := c, reports := r } :=
  .raw rfl rfl rfl held (by rw [thermal]) rfl rfl fun y hy => by
    cases y with
    | account => exact absurd (by simp) hy
    | queue => exact absurd (by simp) hy
    | cooling => exact fun h => h.imp_left held.trans
    | _ => exact id

theorem Tidy.pubQueue (h : Tidy x (.queue :: D) s t) : Tidy x D s t.pubQueue := h.publish t.pubQueue_tidy.1 t.pubQueue_tidy.2

theorem State.join_tidy (s : State) (e : QueueEntry) : Tidy none [.account] s (s.join e) := by
  unfold State.join
  refine Tidy.pubQueue (s.withQueue_tidy _ _ ?_ ?_) <;> rfl

theorem State.leave_tidy (s : State) (n : BayNo) : Tidy none [.account] s (s.leave n) := by
  unfold State.leave
  split
  · refine Tidy.pubQueue (s.withQueue_tidy _ _ ?_ ?_) <;> rfl
  · exact .refl s

theorem account_subset_bayParts (n : BayNo) : [Part.account] ⊆ bayParts n := by simp [bayParts]

theorem State.reclass_tidy (s : State) (n : BayNo) (c : Fin 4) : Tidy none [] s (s.reclass n c) := by
  unfold State.reclass
  split
  · exact .refl s
  · refine Tidy.pubSummaryIfAccount (Tidy.pubQueue (s.withQueue_tidy _ _ ?_ ?_)) <;> rfl

theorem State.setHold_tidy (s : State) (h : HoldReason) : Tidy none [] s (s.setHold h) := by
  unfold State.setHold
  split
  · exact .refl s
  · have hraw : Tidy none [.queue] s { s with scheduler := { s.scheduler with hold := h } } :=
      .raw rfl rfl rfl rfl le_rfl rfl rfl fun y hy => by
        cases y with
        | queue => exact absurd (List.mem_singleton_self _) hy
        | _ => exact id
    exact hraw.pubQueue

/-! ### Admission, policy, sheds -/

theorem State.admitHead_tidy (s : State) (n : BayNo) : Tidy none [] s (s.admitHead n) := by
  rw [State.admitHead_eq]
  refine Tidy.bayChanged (D := []) ?_ _
  unfold State.admitting
  refine Tidy.pubQueue (D := bayParts n ++ []) (Tidy.trans (Tidy.trans ((s.withQueue_tidy _ s.reports rfl rfl).mono ?_) ((State.enter_tidy _ n _ _).mono ?_))
    ((State.setOp_tidy _ n _).mono ?_))
  · simp [bayParts]
  · simp [bayParts]
  · simp [bayParts]

/-- Raw work on bay n, and the end of its handling. -/
theorem Tidy.endBayWork (h : Tidy none (bayParts n) s t) (e : Option (Fin 8)) : Tidy none [] s (t.bayChanged n e) :=
  Tidy.bayChanged (D := []) (by rwa [List.append_nil]) e

theorem State.policyMove_tidy (s : State) (n : BayNo) : Tidy none [] s (s.policyMove n) := by
  unfold State.policyMove
  split
  · split
    · exact .refl s
    · exact (s.enter_tidy n _ _).endBayWork _
    · exact ((((s.enter_tidy n _ _).trans (State.enter_tidy _ n _ _)).trans (State.setOp_tidy _ n _)).trans
        ((State.join_tidy _ _).mono (account_subset_bayParts n))).endBayWork _
  · split
    · exact .refl s
    · exact (s.setFlags_tidy n _).endBayWork _

theorem State.applyPolicy_tidy (s : State) (n : BayNo) : Tidy none [] s (s.applyPolicy n) := by
  unfold State.applyPolicy
  split
  · exact .refl s
  · split
    · exact .refl s
    · exact s.policyMove_tidy n

theorem State.shed12_tidy (s : State) (k : ShedKind) (n : BayNo) : Tidy none [] s (s.shed12 k n) := by
  unfold State.shed12
  split
  · have hlogic := (s.enter_tidy n .logic k.reason).trans (State.setOp_tidy _ n none)
    dsimp only
    split
    · exact (((hlogic.trans (State.enter_tidy _ n _ _)).trans (State.setFlags_tidy _ n _)).endBayWork _).trans (State.endOpSlip_tidy _ _ _ _)
    · exact (hlogic.endBayWork _).trans (State.endOpSlip_tidy _ _ _ _)
  · exact .refl s

theorem State.shed5_tidy (s : State) (n : BayNo) : Tidy none [] s (s.shed5 n) := by
  unfold State.shed5
  split
  · have hleft := (s.leave_tidy n).mono (account_subset_bayParts n)
    exact ((((hleft.trans (State.enter_tidy _ n _ _)).trans (State.setOp_tidy _ n none)).trans (State.setFlags_tidy _ n _)).endBayWork _).trans
      (State.endOpSlip_tidy _ _ _ _)
  · exact .refl s

theorem State.unresolvable_tidy (s : State) : Tidy none [] s s.unresolvable := by
  unfold State.unresolvable
  split
  · exact s.withReports_tidy _ rfl le_rfl
  · exact (s.withAccount_tidy { s.account with unresolved := true } { s.reports with run := false } rfl rfl le_rfl).pubSummaryIfAccount.trans
      (State.raiseBoth_tidy _ _)

theorem tidy_settlesIn : SettlesIn (Tidy none []) where
  refl := .refl
  trans := .trans
  reports := fun s r held thermal => s.withReports_tidy r held thermal
  hold := State.setHold_tidy
  head := fun s n _ => s.admitHead_tidy n
  policy := State.policyMove_tidy
  shed12 := State.shed12_tidy
  shed5 := State.shed5_tidy
  account := State.unresolvable_tidy

/-- Acting on reports keeps every record. -/
theorem State.settle_tidy (s : State) : Tidy none [] s s.settle := tidy_settlesIn.settle s

theorem State.close_tidy (s : State) : Tidy none [] s s.close := s.settle_tidy.trans s.settle.deliver_tidy

end Sys2Proof.Machine
end

