-- ==== Sys2Proof/Proofs/TidySlips.lean ====
section
/-! SUPPORT. What the slip commands leave of the records and of the open-slip tables (`Tidy`). -/

namespace Sys2Proof.Machine

variable {s t u : State} {n : BayNo} {x : Option (Port × Half)} {D : List Part}

/-- Less is said of the tables and of the records. -/
theorem Tidy.weaken (h : Tidy none [] s t) : Tidy x D s t :=
  { h.mono (List.nil_subset D) with
    tables := fun p => (h.tables p).trans (by rw [opened, List.append_nil]; exact List.sublist_append_left _ _) }

/-- A record published after one that nothing dirtied. -/
theorem Tidy.then (h : Tidy x D s t) (k : Tidy none [] t u) : Tidy x D s u := h.trans (k.mono (List.nil_subset D))

/-! ### The summary record held back (R167) -/

theorem Tidy.pubSummaryIfChanged (h : Tidy x (.account :: .cooling :: D) s t) : Tidy x D s t.pubSummaryIfChanged := by
  have hp := t.pubSummaryIfChanged_tidy
  have haccount := h.publish hp.1 fun hl => (hp.2 hl).1
  exact { haccount with
    stands := fun hl z hz hs => by
      by_cases hcooling : z = .cooling
      · exact hcooling ▸ (hp.2 (h.live hl)).2
      · exact haccount.stands hl z (fun hm => (List.mem_cons.1 hm).elim hcooling hz) hs }

/-- A handling that holds the summary record back and publishes it at its end. -/
theorem Tidy.withOneSummary {act : State → State} (h : Tidy x (.account :: .cooling :: D) s.holdSummary (act s.holdSummary)) :
    Tidy x D s (s.withOneSummary act) := by
  generalize hr : ({ act s.holdSummary with reports := { (act s.holdSummary).reports with summaryHeld := s.reports.summaryHeld } } : State) = r
  have heq : s.withOneSummary act = r.pubSummaryIfChanged := by rw [← hr]; rfl
  have hlive : s.live → s.holdSummary.live := fun hl => ⟨hl.publishing, hl.summary, hl.enclosure, hl.lights⟩
  have hreleased : Tidy x (.account :: .cooling :: D) s r := by
    rw [← hr]
    exact {
      phase := h.phase
      straps := h.straps
      windows := h.windows
      held := rfl
      thermal := h.thermal
      readers := h.readers
      tables := h.tables
      carried := h.carried
      filled := h.filled
      stands := fun hl y hy hs => by
        have hact := h.stands (hlive hl) y hy
        cases y with
        | account => exact absurd List.mem_cons_self hy
        | cooling => exact absurd (List.mem_cons_of_mem _ List.mem_cons_self) hy
        | _ => exact hact hs }
  rw [heq]
  exact hreleased.pubSummaryIfChanged

/-! ### Bays -/

/-- A bay put back in its state: the account's part of the summary stands. -/
theorem State.putBay_tidy_state (s : State) (n : BayNo) (b : Bay) (h : b.record.state = (s.bay n).record.state) :
    Tidy none [.bay n] s (s.putBay n b) :=
  { s.putBay_tidy n b with
    stands := fun hl y hy hs => by
      by_cases hy' : y = .account
      · subst hy'
        have hsum : (s.putBay n b).accountSummary = s.accountSummary := State.accountSummary_of rfl (fun m => by
          rw [State.bay_putBay]
          split
          · rename_i hm; rw [hm, h]
          · rfl) rfl
        unfold State.stands at hs ⊢
        dsimp only at hs ⊢
        rw [hsum]
        exact hs
      · exact (s.putBay_tidy n b).stands hl y (by simp_all [bayParts]) hs }

theorem State.setFlags_tidy_state (s : State) (n : BayNo) (f : BayFlags → BayFlags) : Tidy none [.bay n] s (s.setFlags n f) :=
  s.putBay_tidy_state n _ rfl

/-- A bay whose record stands. -/
theorem State.putBay_tidy_record (s : State) (n : BayNo) (b : Bay) (h : b.record = (s.bay n).record) : Tidy none [] s (s.putBay n b) :=
  { s.putBay_tidy_state n b (by rw [h]) with
    stands := fun hl y _ hs => by
      by_cases hy' : y = .bay n
      · subst hy'
        unfold State.stands State.shown at hs ⊢
        dsimp only at hs ⊢
        rw [State.bay_putBay_same, h]
        exact hs
      · exact (s.putBay_tidy_state n b (by rw [h])).stands hl y (by simpa using hy') hs }

theorem Tidy.endBay (h : Tidy x D s t) (k : SlipHead) (n : BayNo) (o : SlipOutcome) : Tidy x D s (t.endBay k n o) := h.endTaken _ _ _ _ _

theorem State.refuse_tidy (s : State) (k : SlipHead) (o : SlipOutcome) : Tidy none [] s (s.refuse k o) := (Tidy.refl s).endTaken _ _ _ _ _

theorem State.restFlags_tidy (s : State) (n : BayNo) (ready : Bool) : Tidy none [] s (s.restFlags n ready) := by
  unfold State.restFlags
  dsimp only
  split
  · exact .refl s
  · exact (s.setFlags_tidy n _).endBayWork _

theorem State.powerOn_tidy (s : State) (k : SlipHead) (n : BayNo) : Tidy none [] s (s.powerOn k n) := by
  unfold State.powerOn
  split
  · exact (Tidy.refl s).endBay _ _ _
  · exact (Tidy.refl s).endBay _ _ _
  · exact (Tidy.refl s).endBay _ _ _
  · split
    · exact ((s.enter_tidy n _ _).endBayWork _).endBay _ _ _
    · exact (Tidy.refl s).endBay _ _ _
  · exact (Tidy.refl s).endBay _ _ _

/-- A supersede ends a slip and takes the bay out of the queue (R14). -/
theorem State.supersede_tidy (s : State) (n : BayNo) : Tidy none (bayParts n) s (s.supersede n) := by
  unfold State.supersede
  split
  · exact ((((s.endOpSlip_tidy _ _ _).weaken).trans ((State.leave_tidy _ n).mono (account_subset_bayParts n)))).trans (State.setOp_tidy _ n none)
  · exact .refl s

/-- The end of a bay's handling, whatever other records its work dirtied. -/
theorem Tidy.endBayWith (h : Tidy x (D ++ bayParts n) s t) (e : Option (Fin 8)) : Tidy x D s (t.bayChanged n e) :=
  Tidy.bayChanged (h.mono (by simp [bayParts])) e

theorem Tidy.stopToOff (h : Tidy none (bayParts n) s t) (why : Reason) (ready : Bool) : Tidy none [] s (t.stopToOff n why ready) :=
  ((((h.trans ((t.leave_tidy n).mono (account_subset_bayParts n))).trans (State.enter_tidy _ n _ _)).trans (State.setOp_tidy _ n none)).trans
    (State.setFlags_tidy _ n _)).endBayWork _

theorem Tidy.stopToPark (h : Tidy x (D ++ bayParts n) s t) (why : Reason) (o : Operation) : Tidy x D s (t.stopToPark n why o) :=
  Tidy.endBayWith (n := n) ((h.trans ((t.enter_tidy n _ _).mono (List.subset_append_right _ _))).trans
    ((State.setOp_tidy _ n _).mono (List.subset_append_right _ _))) _

theorem State.stopBay_tidy (s : State) (k : SlipHead) (kind : OpKind) (command : Byte) (ready : Bool) (n : BayNo) :
    Tidy (some (k.port, k.addr)) [.reader k.port] s (s.stopBay k kind command ready n) := by
  have hkept : Tidy (some (k.port, k.addr)) ([.reader k.port] ++ bayParts n) s ((s.supersede n).keepOpen k command false) :=
    ((State.keepOpen_tidy _ k command false).mono (List.subset_append_left _ _)).after ((s.supersede_tidy n).mono (List.subset_append_right _ _))
  have hpark := hkept.stopToPark .command (s.slipOp k kind none)
  unfold State.stopBay
  dsimp only
  split
  · exact ((Tidy.refl s).endBay _ _ _).weaken
  · exact ((Tidy.refl s).endBay _ _ _).weaken
  · exact ((Tidy.refl s).endBay _ _ _).weaken
  · exact ((s.restFlags_tidy n ready).endBay _ _ _).weaken
  · split
    · split
      · exact (((s.supersede_tidy n).stopToOff _ _).endBay _ _ _).weaken
      · exact (((s.supersede_tidy n).stopToOff _ _).endBay _ _ _).weaken
      · exact Tidy.endBayWith (n := n) (hkept.trans ((State.setOp_tidy _ n _).mono (List.subset_append_right _ _))) _
      · exact hpark
    · exact ((Tidy.refl s).endBay _ _ _).weaken

theorem State.clearFault_tidy (s : State) (k : SlipHead) (n : BayNo) : Tidy none [] s (s.clearFault k n) := by
  unfold State.clearFault
  split
  · exact ((((((s.setRetries_tidy n 0).trans (State.setOp_tidy _ n none)).trans (State.enter_tidy _ n _ _)).endBayWork _).trans
      (State.applyPolicy_tidy _ n)).endBay _ _ _)
  · exact (Tidy.refl s).endBay _ _ _

theorem State.queueSpinUp_tidy (s : State) (k : SlipHead) (n : BayNo) (seconds : Half) :
    Tidy (some (k.port, k.addr)) [.reader k.port] s (s.queueSpinUp k n seconds) := by
  have hlogic : Tidy none (bayParts n) s (if (s.bay n).record.state = .off then s.enter n .logic .command else s) := by
    split
    · exact s.enter_tidy n _ _
    · exact .refl s
  unfold State.queueSpinUp
  dsimp only
  have hset := (((hlogic.trans (State.enter_tidy _ n .queued .command)).trans
    (State.setFlags_tidy _ n fun f => { f with shedPower := false, shedThermal := false })).trans
    (State.setOp_tidy _ n (some (s.slipOp k .spinUp (spinDeadline seconds s.time))))).mono (List.subset_append_right [.reader k.port] (bayParts n))
  have hkept := ((State.keepOpen_tidy _ k cmdSpinUp (deadlineClamped seconds)).mono (List.subset_append_left _ (bayParts n))).after hset
  exact Tidy.endBayWith (n := n) (hkept.trans ((State.join_tidy _ _).mono (by simp [bayParts]))) _

theorem State.spinUp_tidy (s : State) (k : SlipHead) (seconds : Half) (n : BayNo) :
    Tidy (some (k.port, k.addr)) [.reader k.port] s (s.spinUp k seconds n) := by
  have hend : ∀ o c r, Tidy (some (k.port, k.addr)) [.reader k.port] s (s.endTaken k o c false r) :=
    fun o c r => ((Tidy.refl s).endTaken _ _ _ _ _).weaken
  unfold State.spinUp
  dsimp only
  split
  case h_8 =>
    split
    · exact hend _ _ _
    · split
      · exact s.queueSpinUp_tidy k n seconds
      · exact hend _ _ _
  case h_9 =>
    split
    · exact hend _ _ _
    · exact s.queueSpinUp_tidy k n seconds
  all_goals exact hend _ _ _

theorem State.spinDown_tidy (s : State) (k : SlipHead) (n : BayNo) : Tidy (some (k.port, k.addr)) [.reader k.port] s (s.spinDown k n) := by
  have hend : ∀ o, Tidy (some (k.port, k.addr)) [.reader k.port] s (s.endBay k n o) := fun o => ((Tidy.refl s).endBay _ _ _).weaken
  unfold State.spinDown
  split
  case h_9 =>
    split
    · exact hend _
    · exact Tidy.stopToPark ((s.keepOpen_tidy k _ _).mono (List.subset_append_left _ _)) _ _
  all_goals exact hend _

theorem State.cancelSpinUp_tidy (s : State) (n : BayNo) : Tidy none [] s (s.cancelSpinUp n) := by
  unfold State.cancelSpinUp
  split
  · exact (((((s.leave_tidy n).mono (account_subset_bayParts n)).trans (State.enter_tidy _ n _ _)).trans (State.setOp_tidy _ n none)).endBayWork _).trans
      (State.endOpSlip_tidy _ _ _ _)
  · split
    · exact Tidy.stopToPark (D := []) (.refl s) _ _
    · exact .refl s
  · exact .refl s

/-! ### SET_BAY (R27) -/

/-- Bay n's settings replaced. -/
theorem State.withBaySet_tidy (s : State) (n : BayNo) (c : BaySettings) : Tidy none [.bay n] s (s.withBaySet n c) :=
  .raw rfl rfl rfl rfl le_rfl rfl rfl fun y hy => by
    cases y with
    | bay m =>
      have hm : m ≠ n := fun h => hy (by rw [h]; exact List.mem_singleton_self _)
      unfold State.stands State.shown State.withBaySet State.baySet
      dsimp only
      rw [get_set_ne _ _ _ _ hm]
      exact id
    | _ => exact id

theorem State.bayFieldsChanged_tidy (s : State) (n : BayNo) (old new : BaySettings) : Tidy none [.bay n] s (s.bayFieldsChanged n old new) := by
  have hflags : Tidy none [.bay n] s (if new.policy = .manual ∧ old.policy ≠ .manual then s.setFlags n fun f => { f with wait5v := false } else s) := by
    split
    · exact s.setFlags_tidy_state n _
    · exact .refl s
  have hclass : ∀ v : State, ∀ c : Prop, ∀ _ : Decidable c, Tidy none [.bay n] v (if c then v.reclass n new.cls else v) := fun v c _ => by
    split
    · exact (v.reclass_tidy n _).weaken
    · exact .refl v
  exact (hflags.trans (hclass _ _ _)).trans (State.withReports_tidy _ _ rfl le_rfl)

theorem State.setBay_tidy (s : State) (n : BayNo) (a : SetBayArgs) : Tidy none [] s (s.setBay n a).1 := by
  unfold State.setBay
  dsimp only
  exact Tidy.raisedUnless (Tidy.pubBay (D := []) ((s.withBaySet_tidy n _).trans (State.bayFieldsChanged_tidy _ n _ _))) _ _

end Sys2Proof.Machine
end

