-- ==== Sys2Proof/Proofs/TidyBlocks.lean ====
section
/-! SUPPORT. What the SET commands and the works of the account, the zones, the fans and the lights leave of the records (`Tidy`). -/

namespace Sys2Proof.Machine

variable {s t u : State} {x : Option (Port × Half)} {D : List Part}

/-- The records of the four zones. -/
def zoneParts : List Part := [.zone 0, .zone 1, .zone 2, .zone 3]

/-- The records of the six fans. -/
def fanParts : List Part := [.fan 0, .fan 1, .fan 2, .fan 3, .fan 4, .fan 5]

theorem mem_zoneParts (z : Fin 4) : Part.zone z ∈ zoneParts := by
  match z with
  | 0 | 1 | 2 | 3 => simp [zoneParts]

theorem mem_fanParts (i : Fin 6) : Part.fan i ∈ fanParts := by
  match i with
  | 0 | 1 | 2 | 3 | 4 | 5 => simp [fanParts]

theorem Tidy.pubZone {z : Fin 4} (h : Tidy x (.zone z :: D) s t) : Tidy x D s (t.pubZone z) := h.publish (t.pubZone_tidy z).1 (t.pubZone_tidy z).2
theorem Tidy.pubFan {i : Fin 6} (h : Tidy x (.fan i :: D) s t) : Tidy x D s (t.pubFan i) := h.publish (t.pubFan_tidy i).1 (t.pubFan_tidy i).2
theorem Tidy.pubEnclosure (h : Tidy x (.enclosure :: D) s t) : Tidy x D s t.pubEnclosure := h.publish t.pubEnclosure_tidy.1 t.pubEnclosure_tidy.2
theorem Tidy.pubZones (h : Tidy x (zoneParts ++ D) s t) : Tidy x D s t.pubZones := h.pubZone.pubZone.pubZone.pubZone
theorem Tidy.pubFans (h : Tidy x (fanParts ++ D) s t) : Tidy x D s t.pubFans := h.pubFan.pubFan.pubFan.pubFan.pubFan.pubFan

/-! ### Profiles, supplies, schedule -/

theorem State.setProfile_tidy (s : State) (i : Fin 8) (a : SetProfileArgs) : Tidy none [] s (s.setProfile i a).1 :=
  .raw rfl rfl rfl rfl le_rfl rfl rfl fun y _ => by cases y <;> exact id

/-- A supply slot sampled under its setting. -/
theorem State.sampled_tidy (s : State) (i : Fin 4) (v : SupplySetting) :
    Tidy none [.supply i] s
      (({ s with settings := { s.settings with supplies := s.settings.supplies.set i v } } : State).sampleSupply i) :=
  .raw rfl rfl rfl rfl le_rfl rfl rfl fun y hy => by
    cases y with
    | supply j =>
      have hj : j ≠ i := fun h => hy (by rw [h]; exact List.mem_singleton_self _)
      unfold State.stands State.sampleSupply
      dsimp only
      rw [get_set_ne _ _ _ _ hj, get_set_ne _ _ _ _ hj]
      exact id
    | _ => exact id

theorem Tidy.pubSupply {i : Fin 4} (h : Tidy x (.supply i :: D) s t) : Tidy x D s (t.pubSupply i) :=
  h.publish (t.pubSupply_tidy i).1 (t.pubSupply_tidy i).2

theorem State.setSlot_tidy (s : State) (i : Fin 4) (a : SetSlotArgs) : Tidy none [] s (s.setSlot i a) := by
  unfold State.setSlot
  dsimp only
  split
  · exact .refl s
  · exact Tidy.raisedUnless ((Tidy.pubSupply (s.sampled_tidy i _)).then (State.accountUpdate_tidy _)) _ _

theorem State.sampleSupply_tidy (s : State) (i : Fin 4) : Tidy none [.supply i] s (s.sampleSupply i) :=
  .raw rfl rfl rfl rfl le_rfl rfl rfl fun y hy => by
    cases y with
    | supply j =>
      have hj : j ≠ i := fun h => hy (by rw [h]; exact List.mem_singleton_self _)
      unfold State.stands State.sampleSupply
      dsimp only
      rw [get_set_ne _ _ _ _ hj]
      exact id
    | _ => exact id

theorem State.takeSupply_tidy (s : State) (i : Fin 4) : Tidy none [] s (s.takeSupply i) := by
  have hpub : Tidy none [] s ((s.sampleSupply i).pubSupply i) := (s.sampleSupply_tidy i).pubSupply
  unfold State.takeSupply
  dsimp only
  split
  · exact hpub
  · exact (hpub.then (State.accountUpdate_tidy _)).trans (State.raiseBoth_tidy _ _)

theorem State.shedSwitched_tidy (s : State) (old new : Bool) : Tidy none [] s (s.shedSwitched old new) := by
  unfold State.shedSwitched
  dsimp only
  split
  · exact .raw rfl rfl rfl rfl le_rfl rfl rfl fun y _ => by cases y <;> exact id
  · split
    · exact .raw rfl rfl rfl rfl le_rfl rfl rfl fun y _ => by cases y <;> exact id
    · exact .refl s

theorem State.setAccount_tidy (s : State) (a : SetAccountArgs) : Tidy none [] s (s.setAccount a).1 := by
  unfold State.setAccount
  dsimp only
  split
  · exact .refl s
  · have hset : Tidy none [] s { s with settings := { s.settings with account := (AccountSettings.apply a s.settings.account).1 } } :=
      .raw rfl rfl rfl rfl le_rfl rfl rfl fun y _ => by cases y <;> exact id
    exact (hset.trans (State.shedSwitched_tidy _ _ _)).trans (State.accountUpdate_tidy _)

theorem State.setSchedule_tidy (s : State) (a : SetScheduleArgs) : Tidy none [] s (s.setSchedule a).1 := by
  unfold State.setSchedule
  dsimp only
  split
  · exact .refl s
  · refine Tidy.pubQueue (D := []) (.raw rfl rfl rfl rfl le_rfl rfl rfl fun y hy => ?_)
    cases y with
    | queue => exact absurd (List.mem_singleton_self _) hy
    | _ => exact id

/-! ### Zones and sensors -/

/-- Zone z's settings replaced and its record published. -/
theorem State.rezoned_tidy (s : State) (z : Fin 4) (v : ZoneSettings) :
    Tidy none [] s (({ s with settings := { s.settings with zones := s.settings.zones.set z v } } : State).pubZone z) := by
  refine Tidy.pubZone (.raw rfl rfl rfl rfl le_rfl rfl rfl fun y hy => ?_)
  cases y with
  | zone j =>
    have hj : j ≠ z := fun h => hy (by rw [h]; exact List.mem_singleton_self _)
    unfold State.stands
    dsimp only
    rw [get_set_ne _ _ _ _ hj]
    exact id
  | _ => exact id

theorem State.setCurve_tidy (s : State) (z : Fin 4) (a : SetCurveArgs) (t : State) (h : (s.setCurve z a).1 = some t) : Tidy none [] s t := by
  unfold State.setCurve at h
  dsimp only at h
  split at h
  · obtain rfl := Option.some.inj h
    exact s.rezoned_tidy z _
  · cases h

theorem State.setLimits_tidy (s : State) (z : Fin 4) (a : SetLimitsArgs) (t : State) (h : (s.setLimits z a).1 = some t) : Tidy none [] s t := by
  unfold State.setLimits at h
  dsimp only at h
  split at h
  · obtain rfl := Option.some.inj h
    exact s.rezoned_tidy z _
  · cases h

theorem State.setStaleTime_tidy (s : State) (v : Half) : Tidy none [] s (s.setStaleTime v).1 := by
  refine Tidy.pubZones (D := []) (.raw rfl rfl rfl rfl le_rfl rfl rfl fun y hy => ?_)
  cases y with
  | zone z => exact absurd (List.mem_append_left _ (mem_zoneParts z)) hy
  | _ => exact id

/-- Sensor i's record and setting replaced, and the scan. -/
theorem State.resensed_tidy (s : State) (i : Fin 8) (c : SensorSettings) (v : Sensor) (d : Scan) :
    Tidy none [.sensor i] s
      { s with settings := { s.settings with sensors := s.settings.sensors.set i c }, sensors := s.sensors.set i v, scan := d } :=
  .raw rfl rfl rfl rfl le_rfl rfl rfl fun y hy => by
    cases y with
    | sensor j =>
      have hj : j ≠ i := fun h => hy (by rw [h]; exact List.mem_singleton_self _)
      unfold State.stands
      dsimp only
      rw [get_set_ne _ _ _ _ hj, get_set_ne _ _ _ _ hj]
      exact id
    | _ => exact id

theorem State.setSensor_tidy (s : State) (i : Fin 8) (a : SetSensorArgs) : Tidy none [] s (s.setSensor i a).1 := by
  unfold State.setSensor
  dsimp only
  exact Tidy.raisedIf ((s.resensed_tidy i _ _ _).publish (State.republishSensor_tidy _ i).1 (State.republishSensor_tidy _ i).2) _ _

/-- Sensor i replaced by one of its generation: its record is republished if its state or its raw value moved (R82). -/
theorem State.putSensor_tidy (s : State) (i : Fin 8) (v : Sensor) (hgen : v.gen = s.sensors[i].gen) : Tidy none [] s (s.putSensor i v) := by
  have hraw : Tidy none [.sensor i] s { s with sensors := s.sensors.set i v } :=
    .raw rfl rfl rfl rfl le_rfl rfl rfl fun y hy => by
      cases y with
      | sensor j =>
        have hj : j ≠ i := fun h => hy (by rw [h]; exact List.mem_singleton_self _)
        unfold State.stands
        dsimp only
        rw [get_set_ne _ _ _ _ hj]
        exact id
      | _ => exact id
  refine Tidy.raisedIf ?_ _ _
  unfold State.pubSensor
  dsimp only
  split
  · rename_i hc
    refine { hraw with stands := fun hl y _ hs => ?_ }
    by_cases hy : y = .sensor i
    · subst hy
      obtain ⟨fails, goodAt, hold⟩ := hs
      have hset : (s.sensors.set i v)[i] = v := Vector.getElem_set_self _
      rw [hold, hset] at hc
      simp only [Option.map_some, Option.some.injEq, Prod.mk.injEq] at hc
      obtain ⟨hstate, hval, -⟩ := hc
      refine ⟨fails, goodAt, ?_⟩
      dsimp only
      rw [hset, hold, ← hstate, ← hval, hgen]
    · exact hraw.stands hl y (by simpa using hy) hs
  · exact hraw.publish (State.republishSensor_tidy _ i).1 (State.republishSensor_tidy _ i).2

/-- The zones judged: their records, and the admission opportunity (R91, R94). -/
theorem State.zoned_tidy (s : State) : Tidy none zoneParts s s.zoned :=
  .raw rfl rfl rfl rfl le_rfl rfl rfl fun y hy => by
    cases y with
    | zone z => exact absurd (mem_zoneParts z) hy
    | _ => exact id

theorem State.evaluateZones_tidy (s : State) : Tidy none [] s s.evaluateZones := by
  obtain ⟨c, hc⟩ := s.evaluateZones_of_zoned
  rw [hc]
  exact Tidy.raisedIf ((Tidy.pubZones (D := []) s.zoned_tidy).trans (State.evalEnclosure_tidy _)) _ _

/-! ### Fans -/

/-- Fan i replaced. -/
theorem State.putFan_tidy (s : State) (i : Fin 6) (f : Fan) : Tidy none [.fan i] s (s.putFan i f) :=
  .raw rfl rfl rfl rfl le_rfl rfl rfl fun y hy => by
    cases y with
    | fan j =>
      have hj : j ≠ i := fun h => hy (by rw [h]; exact List.mem_singleton_self _)
      unfold State.stands State.putFan
      dsimp only
      rw [get_set_ne _ _ _ _ hj]
      exact id
    | _ => exact id

theorem State.fanChanged_tidy (s : State) (i : Fin 6) (f : Fan) : Tidy none [] s (s.fanChanged i f) :=
  Tidy.raisedIf ((Tidy.pubFan (D := []) (s.putFan_tidy i f)).trans (State.evalEnclosure_tidy _)) _ _

theorem State.reportReservation_tidy (s : State) (f : Nat) : Tidy none [] s (s.reportReservation f) := by
  unfold State.reportReservation
  split
  · exact .refl s
  · exact (s.withAccount_tidy { s.account with fanRes := f } s.reports rfl rfl le_rfl).accountUpdate

theorem State.reportFans_tidy (s : State) : Tidy none [] s s.reportFans := (s.reportReservation_tidy _).trans (State.settle_tidy _)

/-- The fan controller's fields replaced, the fan settings, and neither the fans' records nor the cooling fields with them published. -/
theorem State.withFans_tidy (s : State) (f : FanSettings) (c : FanControl) :
    Tidy none (.cooling :: fanParts) s { s with settings := { s.settings with fans := f }, fans := c } :=
  .raw rfl rfl rfl rfl le_rfl rfl rfl fun y hy => by
    cases y with
    | cooling => exact absurd List.mem_cons_self hy
    | fan i => exact absurd (List.mem_cons_of_mem _ (mem_fanParts i)) hy
    | _ => exact id

/-- The cooling fields replaced, the fans as they were. -/
theorem State.withCooling_tidy (s : State) (c : FanControl) (h : c.fans = s.fans.fans) : Tidy none [.cooling] s { s with fans := c } :=
  .raw rfl rfl rfl rfl le_rfl rfl rfl fun y hy => by
    cases y with
    | cooling => exact absurd List.mem_cons_self hy
    | fan i =>
      unfold State.stands
      dsimp only
      rw [h]
      exact id
    | _ => exact id

theorem Tidy.refanWork (f : FanSettings) (fans : Vector Fan 6) (c : Nat) (moved : Bool) (s : State) :
    Tidy none [.account, .cooling] s (s.refanWork f fans c moved) := by
  have hset : Tidy none (fanParts ++ [.account, .cooling]) s (s.refanned f fans c) :=
    (s.withFans_tidy f { s.fans with fans := fans, c := c }).mono (by simp [fanParts])
  have hpub := hset.pubFans.then (State.evalEnclosure_tidy _)
  unfold State.refanWork
  split
  · exact hpub.then (State.reportFans_tidy _)
  · exact hpub

theorem State.setFans_tidy (s : State) (a : SetFansArgs) : Tidy none [] s (s.setFans a).1 := by
  by_cases h : (FanSettings.apply a s.settings.fans).1 = s.settings.fans
  · unfold State.setFans
    dsimp only
    rw [if_pos h]
    exact .refl s
  · obtain ⟨fans, moved, event, heq⟩ := State.setFans_eq a h
    rw [heq]
    exact Tidy.raisedIf (Tidy.withOneSummary (Tidy.refanWork _ fans _ moved _)) _ _

theorem State.putFloor_tidy (s : State) (p : Port) (f : Option Floor) : Tidy none [] s (s.putFloor p f) :=
  Tidy.pubSummaryIfChanged ((s.withCooling_tidy { s.fans with floors := s.fans.floors.put p f } rfl).mono (by simp))

theorem State.fanCheck_tidy (s : State) (k : SlipHead) : Tidy (some (k.port, k.addr)) [.reader k.port] s (s.fanCheck k) := by
  unfold State.fanCheck
  split
  · exact (s.refuse_tidy k _).weaken
  · split
    · exact (s.refuse_tidy k _).weaken
    · refine Tidy.withOneSummary (D := [.reader k.port]) (Tidy.after ((State.keepOpen_tidy _ k _ _).mono (by simp)) ?_)
      exact Tidy.then ((State.withCooling_tidy s.holdSummary { s.holdSummary.fans with
        c := 1000, check := some { origin := k.port, slip := some k.addr, start := s.time, peaks := Vector.replicate 6 0 } } rfl).mono (by simp))
        (State.reportFans_tidy _)

theorem State.endCheckSlip_tidy (s : State) (c : FanCheck) (o : SlipOutcome) (r : Option (List Byte)) : Tidy none [] s (s.endCheckSlip c o r) := by
  unfold State.endCheckSlip
  split
  · exact .refl s
  · exact s.endOpen_tidy _ _ _ _ _

theorem State.cancelCheck_tidy (s : State) : Tidy none [] s s.cancelCheck := by
  unfold State.cancelCheck
  split
  · exact .refl s
  · refine Tidy.pubSummaryIfChanged (D := []) (Tidy.then ?_ (State.endCheckSlip_tidy _ _ _ _))
    exact (s.withCooling_tidy { s.fans with check := none } rfl).mono (by simp)

/-! ### Lights, patterns, attention -/

theorem State.putSlot_tidy (s : State) (p : Port) (place : LightPlace) (c : Colour) (r : Option Request) : Tidy none [] s (s.putSlot p place c r) := by
  unfold State.putSlot State.putChannel
  cases place with
  | bay n => exact s.relit_tidy n _
  | enclosure => exact s.enclosureRelit_tidy _

theorem State.putEnable_tidy (s : State) (n : BayNo) (on : Bool) : Tidy none [] s (s.putEnable n on) := s.relit_tidy n _

theorem State.setPattern_tidy (s : State) (i : Fin 8) (a : SetPatternArgs) : Tidy none [] s (s.setPattern i a) := by
  refine Tidy.pubEnclosure (D := []) (.raw rfl rfl rfl rfl le_rfl rfl rfl fun y hy => ?_)
  cases y with
  | enclosure => exact absurd (List.mem_singleton_self _) hy
  | _ => exact id

theorem State.setSource_tidy (s : State) (p : Port) (i : Fin 8) (a : SetAttentionArgs) : Tidy none [] s (s.setSource p i a).1 := by
  refine Tidy.pubAttention (D := []) (.raw rfl rfl rfl rfl le_rfl rfl rfl fun y hy => ?_)
  cases y with
  | attention q =>
    have hq : q ≠ p := fun h => hy (by rw [h]; exact List.mem_singleton_self _)
    unfold State.stands
    dsimp only
    rw [PerPort.get_put, if_neg hq, PerPort.get_put, if_neg hq]
    exact id
  | _ => exact id

theorem State.putWindowSetting_tidy (s : State) (p : Port) (w : WindowSetting) : Tidy none [] s (s.putWindowSetting p w) :=
  .raw rfl rfl rfl rfl le_rfl rfl rfl fun y _ => by cases y <;> exact id

end Sys2Proof.Machine
end

