-- ==== Sys2Proof/Proofs/TidyCommands.lean ====
section
/-! SUPPORT. The whole work of each slip command leaves every record published but its reader's, and opens at most its own slip (`Tidy`). -/

namespace Sys2Proof.Machine

variable {s t u : State} {x : Option (Port × Half)} {D : List Part}

/-- What a slip's work may leave: its own slip in its port's table, and that reader's record for its handling's end to publish. -/
def Worked (k : SlipHead) (s t : State) : Prop := Tidy (some (k.port, k.addr)) [.reader k.port] s t

theorem Tidy.worked (h : Tidy none [] s t) (k : SlipHead) : Worked k s t := h.weaken

/-- Work that publishes what it moves, then the slip's end. -/
theorem Tidy.ends (h : Tidy none [] s t) (k : SlipHead) (o : SlipOutcome) (c m : Bool) (r : Option (List Byte)) : Worked k s (t.endTaken k o c m r) :=
  (h.endTaken k o c m r).worked k

theorem State.refuse_worked (s : State) (k : SlipHead) (o : SlipOutcome) : Worked k s (s.refuse k o) := (Tidy.refl s).ends k _ _ _ _

theorem State.onBay_worked (k : SlipHead) {f : BayNo → State → State} (h : ∀ n, Worked k s (f n s)) : Worked k s (s.onBay k f) := by
  unfold State.onBay
  split
  · exact s.refuse_worked k _
  · exact h _

/-- A command on the enclosure: refused for another target. -/
theorem Worked.onEnclosure {k : SlipHead} (h : Worked k s t) : Worked k s (if k.target = enclosureTarget then t else s.refuse k .badTarget) := by
  split
  · exact h
  · exact s.refuse_worked k _

theorem Tidy.endSettled (h : Tidy none [] s t) (k : SlipHead) (c : Bool) (r : State → List Byte) : Worked k s (t.endSettled k c r) :=
  (h.trans t.settle_tidy).ends k _ _ _ _

/-! ### The account, the scheduler, zones, sensors -/

theorem State.setBaySlip_worked (s : State) (k : SlipHead) (a : SetBayArgs) (n : BayNo) : Worked k s (s.setBaySlip k a n) :=
  (s.setBay_tidy n a).ends k _ _ _ _

theorem State.setSlotSlip_worked (s : State) (k : SlipHead) (a : SetSlotArgs) : Worked k s (s.setSlotSlip k a) := by
  unfold State.setSlotSlip
  split
  · exact s.refuse_worked k _
  · exact (s.setSlot_tidy _ a).endSettled k _ _

theorem State.setProfileSlip_worked (s : State) (k : SlipHead) (a : SetProfileArgs) : Worked k s (s.setProfileSlip k a) := by
  unfold State.setProfileSlip
  split
  · exact s.refuse_worked k _
  · exact (s.setProfile_tidy _ a).ends k _ _ _ _

theorem State.setCurveSlip_worked (s : State) (k : SlipHead) (a : SetCurveArgs) : Worked k s (s.setCurveSlip k a) := by
  unfold State.setCurveSlip
  split
  · exact s.refuse_worked k _
  · split
    · exact (Tidy.refl s).ends k _ _ _ _
    · rename_i h
      exact (s.setCurve_tidy _ a _ (congrArg Prod.fst h)).ends k _ _ _ _

theorem State.setLimitsSlip_worked (s : State) (k : SlipHead) (a : SetLimitsArgs) : Worked k s (s.setLimitsSlip k a) := by
  unfold State.setLimitsSlip
  split
  · exact s.refuse_worked k _
  · split
    · exact (Tidy.refl s).ends k _ _ _ _
    · rename_i h
      exact (s.setLimits_tidy _ a _ (congrArg Prod.fst h)).ends k _ _ _ _

theorem State.setSensorSlip_worked (s : State) (k : SlipHead) (a : SetSensorArgs) : Worked k s (s.setSensorSlip k a) := by
  unfold State.setSensorSlip
  split
  · exact s.refuse_worked k _
  · exact (s.setSensor_tidy _ a).ends k _ _ _ _

/-! ### Lights, attention, CANCEL, the settings -/

theorem State.setLight_worked (s : State) (k : SlipHead) (a : SetLightArgs) : Worked k s (s.setLight k a) := by
  unfold State.setLight
  split
  · exact s.refuse_worked k _
  · split
    · exact (s.putSlot_tidy _ _ _ _).ends k _ _ _ _
    · exact (s.putSlot_tidy _ _ _ _).ends k _ _ _ _
    · exact (s.putEnable_tidy _ _).ends k _ _ _ _
    · exact s.refuse_worked k _

theorem State.setPatternSlip_worked (s : State) (k : SlipHead) (a : SetPatternArgs) : Worked k s (s.setPatternSlip k a) := by
  unfold State.setPatternSlip
  split
  · exact s.refuse_worked k _
  · split
    · exact s.refuse_worked k _
    · exact (s.setPattern_tidy _ a).ends k _ _ _ _

theorem State.setAttentionSlip_worked (s : State) (k : SlipHead) (a : SetAttentionArgs) : Worked k s (s.setAttentionSlip k a) := by
  unfold State.setAttentionSlip
  split
  · exact s.refuse_worked k _
  · exact (s.setSource_tidy _ _ a).ends k _ _ _ _

theorem State.cancelSlip_worked (s : State) (k : SlipHead) (a : Half) : Worked k s (s.cancelSlip k a) := by
  unfold State.cancelSlip
  split
  · exact s.refuse_worked k _
  · split
    · exact (Tidy.refl s).ends k _ _ _ _
    · split
      · dsimp only
        split
        · exact (Tidy.refl s).ends k _ _ _ _
        · exact (s.cancelSpinUp_tidy _).ends k _ _ _ _
      · split
        · exact s.cancelCheck_tidy.ends k _ _ _ _
        · exact (Tidy.refl s).ends k _ _ _ _

/-- The settings store starts on an operation, whose slip is kept open. -/
theorem State.withStore_worked (s : State) (k : SlipHead) (o : StoreOp) (c : Byte) : Worked k s (({ s with store := o } : State).keepOpen k c false) := by
  have hstore : Tidy none [.reader k.port] s { s with store := o } :=
    .raw rfl rfl rfl rfl le_rfl rfl rfl fun y _ => by cases y <;> exact id
  exact (State.keepOpen_tidy _ k c false).after hstore

theorem State.storeSlip_worked (s : State) (k : SlipHead) : Worked k s (s.storeSlip k) := by
  unfold State.storeSlip
  split
  · exact s.refuse_worked k _
  · split
    · exact s.refuse_worked k _
    · exact s.withStore_worked k _ _

theorem State.reloadSlip_worked (s : State) (k : SlipHead) : Worked k s (s.reloadSlip k) := by
  unfold State.reloadSlip
  split
  · exact s.refuse_worked k _
  · split
    · exact s.refuse_worked k _
    · exact s.withStore_worked k _ _

theorem State.setWindowsSlip_worked (s : State) (k : SlipHead) (w : WindowSetting) : Worked k s (s.setWindowsSlip k w) := by
  have hwrite (p : Port) (c : Prop) [Decidable c] (r : Option (List Byte)) :
      Worked k s (if c then (s.putWindowSetting p w).endTaken k .ok false false r else s.refuse k .badValue) := by
    split
    · exact (s.putWindowSetting_tidy p w).ends k _ _ _ _
    · exact s.refuse_worked k _
  unfold State.setWindowsSlip
  dsimp only
  split
  · exact hwrite _ _ _
  · split
    · exact hwrite _ _ _
    · exact s.refuse_worked k _

/-- The work of a slip command. -/
theorem slipWork_worked (s : State) (c : Instr) (k : SlipHead) (hc : c.slip? = some k) : Worked k s (slipWork c s) := by
  cases c
  case powerOn k => cases hc; exact State.onBay_worked _ fun _ => (s.powerOn_tidy _ _).worked _
  case powerOff k => cases hc; exact State.onBay_worked _ fun _ => s.stopBay_tidy _ _ _ _ _
  case prepareRemoval k => cases hc; exact State.onBay_worked _ fun _ => s.stopBay_tidy _ _ _ _ _
  case clearFault k => cases hc; exact State.onBay_worked _ fun _ => (s.clearFault_tidy _ _).worked _
  case setBay k a => cases hc; exact State.onBay_worked _ fun _ => s.setBaySlip_worked _ a _
  case spinUp k d => cases hc; exact State.onBay_worked _ fun _ => s.spinUp_tidy _ d _
  case spinDown k => cases hc; exact State.onBay_worked _ fun _ => s.spinDown_tidy _ _
  case setSchedule k a => cases hc; exact ((s.setSchedule_tidy a).endSettled _ _ _).onEnclosure
  case setSupplySlot k a => cases hc; exact s.setSlotSlip_worked _ a
  case setSupplyEnclosure k a => cases hc; exact ((s.setAccount_tidy a).endSettled _ _ _).onEnclosure
  case setProfile k a => cases hc; exact s.setProfileSlip_worked _ a
  case setZoneCurve k a => cases hc; exact s.setCurveSlip_worked _ a
  case setZoneLimits k a => cases hc; exact s.setLimitsSlip_worked _ a
  case setZoneStaleTime k v => cases hc; exact ((s.setStaleTime_tidy v).ends _ _ _ _ _).onEnclosure
  case setSensor k a => cases hc; exact s.setSensorSlip_worked _ a
  case setFloor k d e => cases hc; exact ((s.putFloor_tidy _ _).ends _ _ _ _ _).onEnclosure
  case setFans k a => cases hc; exact ((s.setFans_tidy a).endSettled _ _ _).onEnclosure
  case fanCheck k => cases hc; exact s.fanCheck_tidy _
  case setLight k a => cases hc; exact s.setLight_worked _ a
  case setPattern k a => cases hc; exact s.setPatternSlip_worked _ a
  case cancel k a => cases hc; exact s.cancelSlip_worked _ a
  case note k => cases hc; exact ((Tidy.refl s).ends _ _ _ _ _).onEnclosure
  case setAttention k a => cases hc; exact s.setAttentionSlip_worked _ a
  case storeSettings k => cases hc; exact s.storeSlip_worked _
  case reloadSettings k => cases hc; exact s.reloadSlip_worked _
  case setWindows k w => cases hc; exact s.setWindowsSlip_worked _ w
  all_goals cases hc

theorem State.dispatch_worked (s : State) (k : SlipHead) (code : Byte) (c : SlipCopy) : Worked k s (s.dispatch k code c) := by
  obtain ⟨i, hi, h⟩ | ⟨o, -, h⟩ := State.dispatch_cases k code c <;> rw [h]
  · exact slipWork_worked s i k hi
  · exact s.refuse_worked k o

end Sys2Proof.Machine
end

