-- ==== Sys2Proof/Proofs/Concluded.lean ====
section
/-! SUPPORT. What a piece of work leaves of the open-slip tables (R156, R160), and what a command's whole handling keeps: the records published,
no event and no report left over. -/

namespace Sys2Proof.Machine

variable {s t u : State} {x : Option (Port × Half)} {D E : List Part} {p : Port}

/-! ### The open-slip tables -/

/-- A port's table is as `tablesSound` says. -/
def State.tableOk (s : State) (p : Port) : Prop :=
  (s.reader p).table.length ≤ 16 ∧ ((s.reader p).table.map (·.addr)).Nodup ∧ ∀ e ∈ (s.reader p).table, s.openAt p e

/-- A port's waiting reader waits on a valid link. -/
def State.waitOk (s : State) (p : Port) : Prop :=
  (s.reader p).state = .waitingPost ∨ (s.reader p).state = .waitingRoom → s.linkValid p (s.reader p).cursor = true

theorem State.tablesSound_iff (hp : s.phase ≠ .loading) : s.tablesSound ↔ ∀ p, s.tableOk p ∧ s.waitOk p := by
  unfold State.tablesSound State.tableOk State.waitOk
  constructor
  · rintro ⟨h, -⟩ p
    obtain ⟨h16, hnodup, hopen, hwait⟩ := h p
    exact ⟨⟨h16, hnodup, hopen⟩, hwait⟩
  · intro h
    refine ⟨fun p => ?_, fun hl => absurd hl hp⟩
    obtain ⟨⟨h16, hnodup, hopen⟩, hwait⟩ := h p
    exact ⟨h16, hnodup, hopen, hwait⟩

/-- The slip at an address is open exactly when its address is in the port's table. -/
theorem State.findOpen_none_iff (p : Port) (a : Half) : s.findOpen p a = none ↔ a ∉ (s.reader p).table.map (·.addr) := by
  unfold State.findOpen
  rw [List.find?_eq_none]
  simp only [beq_iff_eq, List.mem_map, not_exists, not_and]

theorem State.linkValid_free_iff (p : Port) (a : Half) :
    s.linkValid p a = true ↔ (∃ w, s.windows.get p = some w ∧ w.isSlip a.toNat = true) ∧ a ∉ (s.reader p).table.map (·.addr) := by
  unfold State.linkValid
  split
  · rename_i h
    simp [h]
  · rename_i w h
    rw [Bool.and_eq_true, Option.isNone_iff_eq_none, State.findOpen_none_iff]
    simp [h]

theorem ReadersStand.state (h : ReadersStand s t) (p : Port) : (t.reader p).state = (s.reader p).state := by rw [h p]
theorem ReadersStand.cursor (h : ReadersStand s t) (p : Port) : (t.reader p).cursor = (s.reader p).cursor := by rw [h p]

/-- A link stays valid while the window stands and its slip is not opened. -/
theorem Tidy.linkValid (h : Tidy x D s t) {a : Half} (ha : a ∉ opened x p) (hs : s.linkValid p a = true) : t.linkValid p a = true := by
  obtain ⟨hw, hfree⟩ := (s.linkValid_free_iff p a).1 hs
  refine (t.linkValid_free_iff p a).2 ⟨by rw [h.windows]; exact hw, fun hm => ?_⟩
  obtain hm | hm := List.mem_append.1 ((h.tables p).subset hm)
  · exact hfree hm
  · exact ha hm

/-- A table with the slips opened stays sound where they have room and stand at valid links. -/
theorem Tidy.tableOk (h : Tidy x D s t) (hfits : ∀ a ∈ opened x p, s.hasRoom p = true ∧ s.linkValid p a = true) (hs : s.tableOk p) :
    t.tableOk p := by
  obtain ⟨h16, hnodup, hopen⟩ := hs
  have hsub := h.tables p
  have hlen : ((s.reader p).table.map (·.addr) ++ opened x p).length ≤ 16 := by
    rcases hx : opened x p with _ | ⟨a, rest⟩
    · simpa using h16
    · have hroom := (hfits a (by rw [hx]; exact List.mem_cons_self)).1
      have hone : (opened x p).length ≤ 1 := by
        unfold opened
        split
        · exact Nat.zero_le _
        · split <;> simp
      simp only [State.hasRoom, decide_eq_true_eq] at hroom
      have : Config.openSlipCapacity = 16 := rfl
      rw [hx] at hone
      simp only [List.length_append, List.length_map]
      omega
  have hnew : ((s.reader p).table.map (·.addr) ++ opened x p).Nodup := by
    rw [List.nodup_append]
    refine ⟨hnodup, ?_, fun b hb c hc hbc => ?_⟩
    · unfold opened
      split
      · exact List.nodup_nil
      · split <;> simp
    · exact ((s.linkValid_free_iff p c).1 (hfits c hc).2).2 (hbc ▸ hb)
  refine ⟨?_, hsub.nodup hnew, fun e he => ?_⟩
  · have := hsub.length_le
    rw [List.length_map] at this
    omega
  · have hmem : e.addr ∈ (s.reader p).table.map (·.addr) ++ opened x p := hsub.subset (List.mem_map_of_mem he)
    unfold State.openAt
    rw [h.windows]
    obtain hm | hm := List.mem_append.1 hmem
    · obtain ⟨d, hd, haddr⟩ := List.mem_map.1 hm
      rw [← haddr]
      exact hopen d hd
    · exact ((s.linkValid_free_iff p e.addr).1 (hfits e.addr hm).2).1

theorem Tidy.waitOk (h : Tidy x D s t) (hfits : ∀ a ∈ opened x p, s.awaited p a = false) (hs : s.waitOk p) : t.waitOk p := by
  intro hw
  rw [h.readers.state] at hw
  rw [h.readers.cursor]
  refine h.linkValid (fun hm => ?_) (hs hw)
  have ha := hfits _ hm
  obtain hw | hw := hw <;> simp [State.awaited, hw] at ha

/-- Work that opens a slip at most where a slip can be taken. -/
theorem Tidy.tablesSound (h : Tidy x D s t)
    (hfits : ∀ p, ∀ a ∈ opened x p, s.phase ≠ .loading ∧ s.hasRoom p = true ∧ s.linkValid p a = true ∧ s.awaited p a = false)
    (hs : s.tablesSound) : t.tablesSound := by
  by_cases hp : s.phase = .loading
  · obtain ⟨htables, hload⟩ := hs
    obtain ⟨hwindows, hreaders⟩ := hload hp
    have hnone : ∀ p, opened x p = [] := fun p => List.eq_nil_iff_forall_not_mem.2 fun a ha => (hfits p a ha).1 hp
    have hempty : ∀ p, (t.reader p).table = [] := fun p => by
      have hsub := h.tables p
      rw [(hreaders p).2, hnone p] at hsub
      exact List.map_eq_nil_iff.1 (List.sublist_nil.1 hsub)
    refine ⟨fun p => ?_, fun _ => ⟨h.windows.trans hwindows, fun p => ⟨(h.readers.state p).trans (hreaders p).1, hempty p⟩⟩⟩
    rw [hempty p]
    refine ⟨Nat.zero_le _, List.nodup_nil, nofun, fun hw => ?_⟩
    rw [h.readers.state, (hreaders p).1] at hw
    simp at hw
  · have hp' : t.phase ≠ .loading := by rw [h.phase]; exact hp
    rw [State.tablesSound_iff hp] at hs
    exact (State.tablesSound_iff hp').2 fun p =>
      ⟨h.tableOk (fun a ha => ⟨(hfits p a ha).2.1, (hfits p a ha).2.2.1⟩) (hs p).1, h.waitOk (fun a ha => (hfits p a ha).2.2.2) (hs p).2⟩

/-! ### The records, apart from the readers -/

/-- A piece of work as the records see it: what `Tidy` says, but for the marks, the reports, the windows and the readers. -/
structure Tended (D : List Part) (s t : State) : Prop where
  phase   : t.phase = s.phase
  straps  : t.straps = s.straps
  held    : t.reports.summaryHeld = s.reports.summaryHeld
  filled  : s.status.filled t.status
  stands  : s.live → ∀ y, y ∉ D → s.stands y → t.stands y

/-- The same, with every record that moved marked and no mark cleared (R168). -/
structure Kempt (D : List Part) (s t : State) : Prop extends Tended D s t where
  carried : s.status.carried t.status

theorem Tidy.kempt (h : Tidy x D s t) : Kempt D s t := ⟨⟨h.phase, h.straps, h.held, h.filled, h.stands⟩, h.carried⟩

theorem Tended.refl (s : State) : Tended D s s := (Tidy.refl s).kempt.toTended
theorem Kempt.refl (s : State) : Kempt D s s := (Tidy.refl s).kempt

theorem Tended.live (h : Tended D s t) (hs : s.live) : t.live where
  publishing := (State.publishing_of_phase h.phase).trans hs.publishing
  summary := h.filled.summary hs.summary
  enclosure := h.filled.enclosure hs.enclosure
  lights n hn := h.filled.lights n (hs.lights n (State.inCount_of_straps h.straps n ▸ hn))

theorem Tended.trans (h : Tended D s t) (k : Tended D t u) : Tended D s u where
  phase := k.phase.trans h.phase
  straps := k.straps.trans h.straps
  held := k.held.trans h.held
  filled := ⟨k.filled.summary ∘ h.filled.summary, k.filled.enclosure ∘ h.filled.enclosure, fun n => k.filled.lights n ∘ h.filled.lights n⟩
  stands hl y hy hs := k.stands (h.live hl) y hy (h.stands hl y hy hs)

theorem Kempt.trans (h : Kempt D s t) (k : Kempt D t u) : Kempt D s u := ⟨h.toTended.trans k.toTended, Status.carried_trans h.carried k.carried⟩

theorem Kempt.mono (h : Kempt D s t) (hD : D ⊆ E) : Kempt E s t := { h with stands := fun hl y hy => h.stands hl y fun hm => hy (hD hm) }

/-- Work that publishes all that it moves follows. -/
theorem Kempt.then (h : Kempt D s t) (k : Kempt [] t u) : Kempt D s u := h.trans (k.mono (List.nil_subset D))

/-- A publication of a record makes it stand. -/
theorem Kempt.publish {y : Part} (h : Kempt (y :: D) s t) (k : Kempt [] t u) (hy : t.live → u.stands y) : Kempt D s u :=
  { h.then k with
    stands := fun hl z hz hs => by
      by_cases hzy : z = y
      · exact hzy ▸ hy (h.live hl)
      · exact k.stands (h.live hl) z List.not_mem_nil (h.stands hl z (fun hm => (List.mem_cons.1 hm).elim hzy hz) hs) }

/-- Work that leaves the status area, the reports' hold and every record's fields. -/
theorem Kempt.raw (phase : t.phase = s.phase) (straps : t.straps = s.straps) (held : t.reports.summaryHeld = s.reports.summaryHeld)
    (status : t.status = s.status) (stands : ∀ y, y ∉ D → s.stands y → t.stands y) : Kempt D s t where
  phase := phase
  straps := straps
  held := held
  filled := status ▸ Status.filled_refl _
  stands _ := stands
  carried := status ▸ Status.carried_refl _

/-! ### A whole handling -/

/-- The records that a port reset leaves to start-up's step 8: within start-up the readers' (R164, R179). -/
def State.unread (s : State) : List Part := if s.phase = .starting then [.reader .a, .reader .b] else []

/-- What the whole handling of a command leaves: every record published and marked, the tables sound, no event raised and no report made that
was not acted on. -/
structure Concluded (s t : State) : Prop where
  kempt  : Kempt s.unread s t
  tables : s.tablesSound → t.tablesSound
  late   : s.late = [] → t.late = []
  quiet  : s.queueSound → s.quiet → t.quiet

theorem State.unread_of_phase (h : t.phase = s.phase) : t.unread = s.unread := by
  unfold State.unread; rw [h]

theorem Kempt.unread (h : Kempt [] s t) : Kempt s.unread s t := h.mono (List.nil_subset _)

theorem Concluded.refl (s : State) : Concluded s s := ⟨.refl s, id, id, fun _ => id⟩

theorem Concluded.trans (h : Concluded s t) (hq : s.queueSound → t.queueSound) (k : Concluded t u) : Concluded s u :=
  ⟨h.kempt.trans (State.unread_of_phase h.kempt.phase ▸ k.kempt), k.tables ∘ h.tables, k.late ∘ h.late, fun hs hquiet => k.quiet (hq hs) (h.quiet hs hquiet)⟩

theorem Tidy.sound (h : Tidy none D s t) : s.tablesSound → t.tablesSound := h.tablesSound fun _ _ ha => absurd ha List.not_mem_nil

theorem State.quiet_of_reports (h : t.reports = s.reports) (hs : s.quiet) : t.quiet := by
  unfold State.quiet at hs ⊢
  rw [h]
  exact hs

/-- A handling that makes no report and raises no event. -/
theorem Concluded.of_still (h : Tidy none [] s t) (late : t.late = s.late) (reports : t.reports = s.reports) : Concluded s t :=
  ⟨h.kempt.unread, h.sound, fun hs => late.trans hs, fun _ => State.quiet_of_reports reports⟩

/-- A list of sheds asked for that a handling found empty is as short as the bays. -/
theorem State.thermal_le (hs : s.quiet) (h : t.reports.thermal.length ≤ s.reports.thermal.length) : t.reports.thermal.length ≤ 60 := by
  rw [hs.2.2.2] at h
  exact h.trans (Nat.zero_le _)

theorem State.close_settled (h : s.queueSound) (le : s.reports.thermal.length ≤ 60) : s.close.quiet :=
  State.quiet_of_reports (State.deliver_reports _) (State.settle_ends (State.queueSound_lined h) le)

theorem State.close_late (s : State) : s.close.late = [] := State.deliver_late _

/-- A handling taken to its end. -/
theorem Concluded.of_close (queue : s.queueSound → t.queueSound) (h : Tidy none [] s t) : Concluded s t.close where
  kempt := (h.trans t.close_tidy).kempt.unread
  tables := (h.trans t.close_tidy).sound
  late _ := t.close_late
  quiet hs hq := State.close_settled (queue hs) (State.thermal_le hq h.thermal)

theorem Concluded.whileRunning {c : Prop} [Decidable c] (ht : s.running = true → c → Concluded s t) (hu : Concluded s u) :
    Concluded s (if s.running = true ∧ c then t else u) := by
  split
  · rename_i h; exact ht h.1 h.2
  · exact hu

end Sys2Proof.Machine
end

