-- ==== Sys2Proof/Proofs/ConcludedEvents.lean ====
section
/-! SUPPORT. Every event of a bay and of a block, and every slip command, concludes its handling (`Concluded`). -/

namespace Sys2Proof.Machine

variable {s t u : State} {n : BayNo} {D : List Part}

/-! ### The events of a bay -/

theorem State.putLine_concluded (s : State) (n : BayNo) (l : BayLines) : Concluded s (s.putLine n l) := .of_still (s.putLine_tidy n l) rfl rfl

/-- A bay's timers replaced. -/
theorem State.putBay_concluded (s : State) (n : BayNo) (b : Bay) (h : b.record = (s.bay n).record) : Concluded s (s.putBay n b) :=
  .of_still (s.putBay_tidy_record n b h) rfl rfl

theorem State.takePresence_concluded (hrun : s.phase = .running) (hin : s.inCount n = true) : Concluded s (s.takePresence n) := by
  unfold State.takePresence
  dsimp only
  split
  · rename_i hr
    exact .of_close (State.enterSettling_carried hrun hin hr).queue (((s.enter_tidy n _ _).trans (State.setOp_tidy _ n _)).endBayWork _)
  · exact s.putBay_concluded n _ rfl
  · exact s.putBay_concluded n _ rfl

theorem State.takeAbsence_concluded (s : State) (n : BayNo) : Concluded s (s.takeAbsence n) := by
  unfold State.takeAbsence
  dsimp only
  split
  · exact .refl s
  · exact s.putBay_concluded n _ rfl
  · exact s.putBay_concluded n _ rfl

theorem State.settleBay_concluded (hp : s.phase ≠ .loading) (hr : (s.bay n).record.state = .settling) : Concluded s (s.settleBay n) :=
  .of_close (State.inserted_carried hp hr).queue
    ((((((s.countInsertion_tidy n).trans (State.enter_tidy _ n _ _)).trans (State.setOp_tidy _ n _)).trans (State.setFlags_tidy _ n _)).endBayWork _).trans
      (State.applyPolicy_tidy _ n))

theorem State.bounceBay_concluded (hp : s.phase ≠ .loading) (hr : (s.bay n).record.state = .settling) : Concluded s (s.bounceBay n) :=
  .of_close (State.bounced_carried hp hr).queue
    ((((s.countBounce_tidy n).trans (State.enter_tidy _ n _ _)).trans (State.setOp_tidy _ n _)).endBayWork _)

theorem State.removeBay_concluded (hp : s.phase ≠ .loading) (hfrom : (s.bay n).record.state.fromOff = true) : Concluded s (s.removeBay n) := by
  have hleft := (s.leave_tidy n).mono (account_subset_bayParts n)
  have hended := (hleft.then (State.endOpSlip_tidy _ (s.bay n).record.op .removed (bayResult s n))).trans (State.setOp_tidy _ n none)
  exact .of_close (State.emptied_carried hp hfrom _).queue
    ((((hended.trans (State.setRetries_tidy _ n 0)).trans (State.voidBayFeed_tidy _ n)).trans (State.enter_tidy _ n _ _)).endBayWork _)

/-- A latch stop, whatever its bay's work has dirtied of the bay (R8, R14). -/
theorem Tidy.latchStop (h : Tidy none (bayParts n) s t) : Tidy none [] s (t.latchStop n) := by
  have hsuperseded := h.trans (t.supersede_tidy n)
  unfold State.latchStop
  split
  · exact h.endBayWork _
  · exact h.endBayWork _
  · exact h.endBayWork _
  · dsimp only
    split
    · exact hsuperseded.stopToOff _ _
    · exact hsuperseded.stopToOff _ _
    · exact Tidy.stopToPark (D := []) hsuperseded _ _
    · exact Tidy.stopToPark (D := []) hsuperseded _ _
    · exact (hsuperseded.trans (State.setOp_tidy _ n _)).endBayWork _

theorem State.takeLatchOpen_concluded (hp : s.phase ≠ .loading) (n : BayNo) : Concluded s (s.takeLatchOpen n) := by
  refine .of_close (State.latchTaken_carried hp).queue ?_
  split
  · exact (s.setFlags_tidy n _).latchStop
  · exact (s.setFlags_tidy n _).endBayWork _

theorem State.latchClosed_concluded (hp : s.phase ≠ .loading) (n : BayNo) :
    Concluded s (((s.setFlags n fun f => { f with latchOpen := false }).bayChanged n (some srcBayChange)).close) :=
  .of_close (((Prepared.refl s).setFlags _).stand hp rfl _).queue ((s.setFlags_tidy n _).endBayWork _)

theorem State.tripBay_concluded (hp : s.phase ≠ .loading) (hpow : (s.bay n).record.state.powered = true) : Concluded s (s.tripBay n) := by
  have hleft := (s.leave_tidy n).mono (account_subset_bayParts n)
  exact .of_close (State.faulted_carried hp hpow _ _ _).queue
    (((((hleft.trans (State.enter_tidy _ n _ _)).trans (State.countTrip_tidy _ n)).trans (State.beginRetry_tidy _ n)).endBayWork _).trans
      (State.endOpSlip_tidy _ _ _ _))

theorem State.retryBay_concluded (hp : s.phase ≠ .loading) (hr : (s.bay n).record.state = .faulted) : Concluded s (s.retryBay n) :=
  .of_close (State.retried_carried hp hr _).queue
    (((((s.setRetries_tidy n _).trans (State.setOp_tidy _ n _)).trans (State.enter_tidy _ n _ _)).endBayWork _).trans (State.applyPolicy_tidy _ n))

theorem State.spunUp_concluded (hp : s.phase ≠ .loading) (hr : (s.bay n).record.state = .spinningUp) : Concluded s (s.spunUp n) := by
  have hst : (s.sits n).1 = .spinningUp := hr
  exact .of_close (State.entered_carried hp .ready .spunUp id _ _ _ _ (by rw [hst]; decide) (by rw [hst]; decide) (by decide)).1.queue
    ((((s.enter_tidy n _ _).trans (State.setOp_tidy _ n _)).endBayWork _).trans (State.endOpSlip_tidy _ _ _ _))

theorem State.parked_concluded (hp : s.phase ≠ .loading) (hr : (s.bay n).record.state = .spinningDown) : Concluded s (s.parked n) := by
  have hst : (s.sits n).1 = .spinningDown := hr
  unfold State.parked
  dsimp only
  split
  · exact .of_close (State.entered_carried hp .off .parked _ _ _ _ _ (by rw [hst]; decide) (by rw [hst]; decide) (by decide)).2.queue
      (((((s.enter_tidy n _ _).trans (State.setOp_tidy _ n _)).trans (State.setFlags_tidy _ n _)).endBayWork _).trans (State.endOpSlip_tidy _ _ _ _))
  · exact .of_close (State.entered_carried hp .logic .parked id _ _ _ _ (by rw [hst]; decide) (by rw [hst]; decide) (by decide)).1.queue
      ((((s.enter_tidy n _ _).trans (State.setOp_tidy _ n _)).endBayWork _).trans (State.endOpSlip_tidy _ _ _ _))

theorem State.timeOut_concluded (hp : s.phase ≠ .loading) (hr : (s.bay n).record.state = .queued) : Concluded s (s.timeOut n) := by
  have hleft := (s.leave_tidy n).mono (account_subset_bayParts n)
  exact .of_close (State.deadline_carried hp hr _ _ _).queue
    ((((hleft.trans (State.enter_tidy _ n _ _)).trans (State.setOp_tidy _ n _)).endBayWork _).trans (State.endOpSlip_tidy _ _ _ _))

theorem State.takeSample_concluded (hp : s.phase ≠ .loading) (x : Nat) : Concluded s (s.takeSample n x) :=
  .of_close (State.sampled_carried hp x _).queue ((s.putBay_tidy n _).endBayWork _)

/-! ### The events of the blocks -/

/-- Fields moved that no record holds and no invariant sees. -/
theorem Concluded.of_fields (h : Tidy none [] s t) (core : t.core = s.core) (mems : t.mems = s.mems) : Concluded s t.close :=
  .of_close (Carried.of_core_mems core mems).queue h

theorem State.thermalList_length (s : State) (z : Fin 4) : (s.thermalList z).length ≤ 60 := by
  unfold State.thermalList
  rw [List.length_insertionSort]
  exact (List.length_filter_le _ _).trans (by simp [bayNumbers])

theorem State.criticalExpiry_concluded (s : State) (z : Fin 4) : Concluded s (s.criticalExpiry z) := by
  have hzone : Tidy none [.zone z] s { s with zones := s.zones.set z { s.zones[z] with timer := .spent } } :=
    .raw rfl rfl rfl rfl le_rfl rfl rfl fun y hy => by
      cases y with
      | zone j =>
        have hj : j ≠ z := fun h => hy (by rw [h]; exact List.mem_singleton_self _)
        unfold State.stands
        dsimp only
        rw [get_set_ne _ _ _ _ hj]
        exact id
      | _ => exact id
  have htold : Tidy none [] s ((({ s with zones := s.zones.set z { s.zones[z] with timer := .spent } } : State).pubZone z).raiseBoth srcThermal) :=
    hzone.pubZone.trans (State.raiseBoth_tidy _ _)
  have hcarried := State.spentTimer_carried (s := s) z
  unfold State.criticalExpiry
  dsimp only
  generalize State.raiseBoth srcThermal _ = t at htold hcarried
  -- the report of the sheds asked for, which `Tidy` does not allow for
  generalize hv : ({ t with reports := { t.reports with thermal := t.reports.thermal ++ t.thermalList z } } : State) = v
  have hreports : Kempt [] t v := hv ▸ .raw rfl rfl rfl rfl fun y _ => by cases y <;> exact id
  have htables : t.tablesSound → v.tablesSound := hv ▸ id
  refine ⟨((htold.kempt.trans hreports).trans v.close_tidy.kempt).unread, fun hs => v.close_tidy.sound (htables (htold.sound hs)), fun _ => v.close_late,
    fun hs hq => State.close_settled ?_ ?_⟩
  · rw [← hv]
    exact (hcarried _).queue hs
  · have hnil : t.reports.thermal = [] := by
      have := htold.thermal
      rw [hq.2.2.2] at this
      exact List.length_eq_zero_iff.1 (Nat.le_zero.1 this)
    rw [← hv]
    dsimp only
    rw [hnil, List.nil_append]
    exact t.thermalList_length z

theorem State.withLights_tidy (s : State) (l : Lights) (a : Option Time) (h : ∀ m, ({ s with lights := l } : State).lightSnap m = s.lightSnap m)
    (he : l.enclosure = s.lights.enclosure) : Tidy none [] s { s with lights := l, refreshAt := a } :=
  .raw rfl rfl rfl rfl le_rfl rfl rfl fun y _ => by
    cases y with
    | light m => exact fun hs hin => (hs hin).trans (congrArg some (h m).symm)
    | enclosure =>
      unfold State.stands
      dsimp only
      rw [he]
      exact id
    | _ => exact id

theorem State.refresh_tidy (s : State) (a : BitVec 60) : Tidy none [] s (s.refresh a) := by
  refine s.withLights_tidy _ _ (fun m => ?_) rfl
  unfold State.lightSnap State.light State.refreshedLights BayLight.refreshed
  simp only [Fin.getElem_fin, Vector.getElem_ofFn]
  split <;> rfl

/-- The zones evaluated and what that gives acted on: the cooling stages, with the summary record held back (R104, R124). -/
theorem State.coolingStages_tidy (s : State) : Tidy none [] s s.coolingStages := by
  refine Tidy.withOneSummary (D := []) ?_
  generalize s.holdSummary = h
  have hevaluated : Tidy none (fanParts ++ [.account, .cooling]) h h.evaluateZones.settle :=
    (h.evaluateZones_tidy.trans (State.settle_tidy _)).weaken
  have hdemand : ∀ v : State, Tidy none (fanParts ++ [.account, .cooling]) v v.coolingDemand := fun v =>
    Tidy.mono (v.withCooling_tidy v.coolingDemand.fans rfl) (by simp)
  have hduty : ∀ v : State, Tidy none (fanParts ++ [.account, .cooling]) v v.coolingDuty := fun v =>
    Tidy.mono (v.withCooling_tidy v.coolingDuty.fans rfl) (by simp)
  have hchecks : ∀ v : State, Tidy none (fanParts ++ [.account, .cooling]) v v.tachChecks := fun v =>
    (v.withFans_tidy v.settings.fans _).mono (by simp [fanParts])
  have hdriven := ((hevaluated.trans (hdemand _)).then (State.evalEnclosure_tidy _)).trans (hduty _)
  have hchecked := (hdriven.then (State.reportFans_tidy _)).trans (hchecks _)
  exact Tidy.raisedIf (Tidy.pubFans (hchecked.then (State.evalEnclosure_tidy _))) _ _

theorem State.checkEndedTold_tidy (s : State) (k : FanCheck) : Tidy none [] s (s.checkEndedTold k) := by
  have hfans : Tidy none (fanParts ++ [.account, .cooling]) s { s with fans := { s.fans with fans := s.judgedFans k, check := none } } :=
    (s.withFans_tidy s.settings.fans _).mono (by simp [fanParts])
  exact Tidy.raisedIf (Tidy.pubSummaryIfChanged (D := []) (hfans.pubFans.then (State.endCheckSlip_tidy _ _ _ _))) _ _

theorem State.endStore_tidy (s : State) (p : Port) (slip : Option Half) (o : SlipOutcome) (c : Bool) (r : List Byte) :
    Tidy none [] s (s.endStore p slip o c r) := by
  have hover : Tidy none [] s { s with store := .none } := .raw rfl rfl rfl rfl le_rfl rfl rfl fun y _ => by cases y <;> exact id
  unfold State.endStore
  dsimp only
  split
  · exact hover
  · exact hover.trans (State.endOpen_tidy _ _ _ _ _ _)

/-! ### An image applied (R181) -/

theorem Applied.andSet_tidy {a : Applied} {f : State → State × Bool} (h : Tidy none D s a.state) (hf : ∀ t : State, Tidy none [] t (f t).1) :
    Tidy none D s (a.andSet f).state := (h.then (hf _)).then (State.settle_tidy _)

theorem Applied.andPart_tidy {a : Applied} {f : State → Option State × Bool} (h : Tidy none D s a.state)
    (hf : ∀ t u : State, (f t).1 = some u → Tidy none [] t u) : Tidy none D s (a.andPart f).state := by
  unfold Applied.andPart
  split
  · rename_i t c heq
    exact (h.then (hf _ _ (congrArg Prod.fst heq))).then (State.settle_tidy _)
  · exact h

theorem State.setTiming_tidy (s : State) (m : Memory) : Tidy none [] s (s.setTiming m).1 :=
  .raw rfl rfl rfl rfl le_rfl rfl rfl fun y _ => by cases y <;> exact id

theorem Applied.powerSections_tidy (m : Memory) {a : Applied} (h : Tidy none D s a.state) : Tidy none D s (a.powerSections m).state := by
  unfold Applied.powerSections
  dsimp only
  refine Applied.andSet_tidy (Applied.andSet_tidy ?_ fun t => t.setAccount_tidy _) fun t => t.setSchedule_tidy _
  refine foldl_keeps (P := fun a : Applied => Tidy none D s a.state) (fun b i hb => Applied.andSet_tidy hb fun t => t.setSlot_tidy _ _) _ _ ?_
  refine foldl_keeps (P := fun a : Applied => Tidy none D s a.state) (fun b i hb => Applied.andSet_tidy hb fun t => t.setProfile_tidy _ _) _ _ ?_
  refine Applied.andSet_tidy ?_ fun t => t.setTiming_tidy _
  exact foldl_keeps (P := fun a : Applied => Tidy none D s a.state) (fun b i hb => Applied.andSet_tidy hb fun t => t.setBay_tidy _ _) _ _ h

theorem Applied.otherSections_tidy (m : Memory) {a : Applied} (h : Tidy none D s a.state) : Tidy none D s (a.otherSections m).state := by
  unfold Applied.otherSections
  dsimp only
  refine foldl_keeps (P := fun a : Applied => Tidy none D s a.state) (fun b i hb => Applied.andSet_tidy hb fun t => t.setSource_tidy _ _ _) _ _ ?_
  refine foldl_keeps (P := fun a : Applied => Tidy none D s a.state) (fun b i hb => Applied.andSet_tidy hb fun t => t.setSource_tidy _ _ _) _ _ ?_
  refine foldl_keeps (P := fun a : Applied => Tidy none D s a.state) (fun b i hb => Applied.andSet_tidy hb fun t => t.setPattern_tidy _ _) _ _ ?_
  refine Applied.andSet_tidy ?_ fun t => t.setFans_tidy _
  refine foldl_keeps (P := fun a : Applied => Tidy none D s a.state) (fun b i hb => Applied.andSet_tidy hb fun t => t.setSensor_tidy _ _) _ _ ?_
  refine Applied.andSet_tidy ?_ fun t => t.setStaleTime_tidy _
  exact foldl_keeps (P := fun a : Applied => Tidy none D s a.state) (fun b i hb => Applied.andPart_tidy
    (Applied.andPart_tidy hb fun t u => t.setCurve_tidy _ _ u) fun t u => t.setLimits_tidy _ _ u) _ _ h

theorem State.setImageWindows_tidy (s : State) (m : Memory) : Tidy none [] s (s.setImageWindows m) := by
  unfold State.setImageWindows
  split
  · exact (s.putWindowSetting_tidy .a _).trans (State.putWindowSetting_tidy _ .b _)
  · exact .refl s

theorem State.fromImage_tidy (s : State) : Tidy none [.cooling] s s.fromImage :=
  .raw rfl rfl rfl rfl le_rfl rfl rfl fun y hy => by
    cases y with
    | cooling => exact absurd (List.mem_singleton_self _) hy
    | _ => exact id

theorem State.imageApplied_tidy (s : State) (p : Port) (slip : Option Half) (m : Memory) : Tidy none [] s (s.imageApplied p slip m) := by
  have horigin : ∀ v : State, Tidy none [.account, .cooling] v v.fromImage := fun v => v.fromImage_tidy.mono (by simp)
  have happlied : Tidy none [.account, .cooling] s.holdSummary
      ((Applied.otherSections m (Applied.powerSections m { state := s.holdSummary, clamped := false, refused := 0 })).state.setImageWindows m).fromImage :=
    ((Applied.otherSections_tidy m (Applied.powerSections_tidy (a := ⟨s.holdSummary, false, 0⟩) m (.refl s.holdSummary))).then (State.setImageWindows_tidy _ m)).trans
      (horigin _)
  have hone := Tidy.withOneSummary (D := []) (act := fun h =>
    ((Applied.otherSections m (Applied.powerSections m { state := h, clamped := false, refused := 0 })).state.setImageWindows m).fromImage) happlied
  exact (hone.trans (State.evalEnclosure_tidy _)).trans (State.endStore_tidy _ _ _ _ _ _)

/-! ### The commands -/

theorem Concluded.afterLine {c d : Prop} [Decidable (c ∧ s.running = true ∧ d)] (ht : c → s.running = true → d → Concluded s t)
    (hu : Concluded s u) : Concluded s (if c ∧ s.running = true ∧ d then t else u) := by
  split
  · rename_i h; exact ht h.1 h.2.1 h.2.2
  · exact hu

/-- An input's pin moves, and then what the input brings about. -/
theorem Concluded.withLine {l : BayLines} (h5 : l.sw5 = (s.line n).sw5) (h12 : l.sw12 = (s.line n).sw12) (k : Concluded (s.putLine n l) t) :
    Concluded s t := (s.putLine_concluded n l).trans (State.putLine_carried l h5 h12).queue k

theorem execPresenceAssert_concluded (h : execPresenceAssert n s = .next t) : Concluded s t := by
  obtain rfl := Host.Outcome.next.inj h
  exact .afterLine (fun _ hr hin => .withLine (n := n) (l := { s.line n with presence := true }) rfl rfl
    (State.takePresence_concluded ((State.running_iff _).1 hr) hin)) (s.putLine_concluded n _)

theorem execPresenceDeassert_concluded (h : execPresenceDeassert n s = .next t) : Concluded s t := by
  obtain rfl := Host.Outcome.next.inj h
  exact .afterLine (fun _ _ _ => .withLine (n := n) (l := { s.line n with presence := false }) rfl rfl (State.takeAbsence_concluded _ n))
    (s.putLine_concluded n _)

theorem execLatchOpen_concluded (h : execLatchOpen n s = .next t) : Concluded s t := by
  obtain rfl := Host.Outcome.next.inj h
  exact .whileRunning (fun hr _ => .withLine (n := n) (l := { s.line n with latch := true }) rfl rfl
    (State.takeLatchOpen_concluded (s := s.putLine n { s.line n with latch := true }) (State.running_not_loading (s := s) hr) n))
    (s.putLine_concluded n _)

theorem execLatchClose_concluded (h : execLatchClose n s = .next t) : Concluded s t := by
  obtain rfl := Host.Outcome.next.inj h
  exact .whileRunning (fun hr _ => .withLine (n := n) (l := { s.line n with latch := false }) rfl rfl
    (State.latchClosed_concluded (s := s.putLine n { s.line n with latch := false }) (State.running_not_loading (s := s) hr) n))
    (s.putLine_concluded n _)

theorem execSwitchTrip_concluded (h : execSwitchTrip n s = .next t) : Concluded s t := by
  obtain rfl := Host.Outcome.next.inj h
  exact .whileRunning (fun hr hpow => .withLine (n := n) (l := { s.line n with trip := (s.line n).trip || (s.line n).sw5 || (s.line n).sw12 })
    rfl rfl (State.tripBay_concluded (State.running_not_loading hr) hpow)) (s.putLine_concluded n _)

theorem Sensor.read_gen (r : Option (BitVec 16)) (now : Time) (v : Sensor) : (v.read r now).gen = v.gen := by
  unfold Sensor.read
  split <;> rfl

theorem State.nextRead_tidy (s : State) : Tidy none [] s s.nextRead := .raw rfl rfl rfl rfl le_rfl rfl rfl fun y _ => by cases y <;> exact id

theorem execSensorRead_concluded (i : Fin 8) (r : Option (BitVec 16)) (h : execSensorRead i r s = .next t) : Concluded s t := by
  obtain rfl := Host.Outcome.next.inj h
  refine .whileRunning (fun hr _ => ?_) (.refl s)
  split
  · exact .of_still s.nextRead_tidy rfl rfl
  · have hnext : Carried s s.nextRead := .of_core_mems rfl rfl
    exact .of_close (hnext.trans (State.putSensor_carried i _)).queue (s.nextRead_tidy.trans (State.putSensor_tidy _ i _ (Sensor.read_gen _ _ _)))

/-- A fan's inputs replaced, its record as it stands. -/
theorem State.putFan_record (s : State) (i : Fin 6) (f : Fan) (h : f.record = s.fans.fans[i].record) : Tidy none [] s (s.putFan i f) :=
  { s.putFan_tidy i f with
    stands := fun hl y _ hs => by
      by_cases hy : y = .fan i
      · subst hy
        have hset : (s.fans.fans.set i f)[i] = f := Vector.getElem_set_self _
        unfold State.putFan
        unfold State.stands at hs ⊢
        dsimp only at hs ⊢
        rw [hset, h]
        exact hs
      · exact (s.putFan_tidy i f).stands hl y (by simpa using hy) hs }

theorem execFanPresenceReport_concluded (i : Fin 6) (b : Bool) (h : execFanPresenceReport i b s = .next t) : Concluded s t := by
  obtain rfl := Host.Outcome.next.inj h
  exact .whileRunning (fun hr _ => .of_close (State.fanChanged_carried i _).queue (State.fanChanged_tidy _ i _))
    (.of_still (s.putFan_record i _ rfl) rfl rfl)

/-- A check's highest readings alone, which the summary does not show. -/
theorem State.withPeaks_tidy (s : State) (f : FanCheck → FanCheck) (hf : ∀ k, (f k).origin = k.origin ∧ (f k).start = k.start) :
    Tidy none [] s { s with fans := { s.fans with check := s.fans.check.map f } } :=
  { s.withCooling_tidy { s.fans with check := s.fans.check.map f } rfl with
    stands := fun hl y _ hs => by
      by_cases hy : y = .cooling
      · subst hy
        have hsum : ({ s with fans := { s.fans with check := s.fans.check.map f } } : State).coolingSummary = s.coolingSummary := by
          unfold State.coolingSummary
          dsimp only
          rw [Option.map_map]
          congr 2
          funext k
          simp [(hf k).1, (hf k).2]
        unfold State.stands at hs ⊢
        dsimp only at hs ⊢
        rw [hsum]
        exact hs
      · exact (s.withCooling_tidy { s.fans with check := s.fans.check.map f } rfl).stands hl y (by simpa using hy) hs }

theorem FanCheck.report_start (now : Time) (i : Fin 6) (r : Nat) (k : FanCheck) :
    (k.report now i r).origin = k.origin ∧ (k.report now i r).start = k.start := by
  unfold FanCheck.report
  split <;> exact ⟨rfl, rfl⟩

theorem execTachReport_concluded (i : Fin 6) (k : Nat) (h : execTachReport i k s = .next t) : Concluded s t := by
  obtain rfl := Host.Outcome.next.inj h
  exact .whileRunning (fun _ _ => .of_still ((s.putFan_record i { s.fans.fans[i] with latest := 60 * k } rfl).trans
    (State.withPeaks_tidy _ (FanCheck.report s.time i (60 * k)) fun c => c.report_start _ _ _)) rfl rfl) (.refl s)

theorem execFanCheckEnd_concluded (h : execFanCheckEnd s = .next t) : Concluded s t := by
  obtain rfl := Host.Outcome.next.inj h
  split
  · exact .refl s
  · rename_i k _
    exact .whileRunning (fun _ _ => .of_close (State.checkEndedTold_carried k).queue (s.checkEndedTold_tidy k)) (.refl s)

theorem State.withSettingsMem_tidy (s : State) (m : Memory) : Tidy none [] s { s with settingsMem := m } :=
  .raw rfl rfl rfl rfl le_rfl rfl rfl fun y _ => by cases y <;> exact id

theorem execStoreSettingsEnd_concluded (h : execStoreSettingsEnd s = .next t) : Concluded s t := by
  obtain rfl := Host.Outcome.next.inj h
  split
  · split
    · exact .of_close ((State.afterWrites_carried _ _).trans (State.endStore_carried _ _ _ _ _)).queue
        ((s.withSettingsMem_tidy _).trans (State.endStore_tidy _ _ _ _ _ _))
    · exact .refl s
  · exact .refl s

theorem execStoreWriteFailed_concluded (k : Nat) (h : execStoreWriteFailed k s = .next t) : Concluded s t := by
  obtain rfl := Host.Outcome.next.inj h
  split
  · split
    · exact .of_close ((State.afterWrites_carried _ _).trans (State.endStore_carried _ _ _ _ _)).queue
        ((s.withSettingsMem_tidy _).trans (State.endStore_tidy _ _ _ _ _ _))
    · exact .refl s
  · exact .refl s

theorem execReloadReadEnd_concluded (b : Bool) (h : execReloadReadEnd b s = .next t) : Concluded s t := by
  obtain rfl := Host.Outcome.next.inj h
  split
  · rename_i p slip _
    split
    · rename_i hr
      split
      · exact .of_close (State.imageApplied_carried (State.running_not_loading hr) p slip s.settingsMem).queue (s.imageApplied_tidy p slip s.settingsMem)
      · exact .of_close (State.endStore_carried _ _ _ _ _).queue (State.endStore_tidy _ _ _ _ _ _)
    · exact .refl s
  · exact .refl s

theorem execCoolingPeriod_concluded (h : execCoolingPeriod s = .next t) : Concluded s t := by
  obtain rfl := Host.Outcome.next.inj h
  have hat : Carried s s.cooledAgain := .of_core_mems rfl rfl
  have hagain : Tidy none [] s s.cooledAgain := .raw rfl rfl rfl rfl le_rfl rfl rfl fun y _ => by cases y <;> exact id
  exact .whileRunning (fun hr _ => .of_close (hat.trans (State.coolingStages_carried (s := s.cooledAgain) (State.running_not_loading hr))).queue
    (hagain.trans (State.coolingStages_tidy _))) (.refl s)

theorem State.putFloor_still (s : State) (p : Port) (f : Option Floor) : (s.putFloor p f).late = s.late ∧ (s.putFloor p f).reports = s.reports := by
  unfold State.putFloor
  rw [State.pubSummaryIfChanged_eq]
  exact ⟨rfl, rfl⟩

theorem State.putSlot_still (s : State) (p : Port) (place : LightPlace) (c : Colour) (r : Option Request) :
    (s.putSlot p place c r).late = s.late ∧ (s.putSlot p place c r).reports = s.reports := by
  unfold State.putSlot State.putChannel
  cases place with
  | bay n => dsimp only; rw [State.pubLight_eq]; exact ⟨rfl, rfl⟩
  | enclosure => dsimp only; rw [State.pubEnclosure_eq]; exact ⟨rfl, rfl⟩

/-! ### The slip commands -/

/-- The end of a slip command's handling. -/
theorem State.finishSlip_concluded {k : SlipHead} (h : Worked k s t) (hfits : s.takeable k = true) (queue : s.queueSound → t.queueSound) :
    Concluded s (t.finishSlip k.port) := by
  have hend : Tidy (some (k.port, k.addr)) [] s (t.finishSlip k.port) :=
    (Tidy.pubReader (D := []) (h.then t.settle_tidy)).then (State.deliver_tidy _)
  have hrunning := s.takeable_running k hfits
  refine ⟨hend.kempt.unread, hend.tablesSound fun p a ha => ?_, fun _ => State.deliver_late _, fun hs hq => ?_⟩
  · unfold opened at ha
    dsimp only at ha
    split at ha
    · rename_i hp
      obtain rfl := List.mem_singleton.1 ha
      subst hp
      simp only [State.takeable, Bool.and_eq_true, Bool.not_eq_true'] at hfits
      obtain ⟨⟨⟨-, hawaited⟩, hlink⟩, hroom⟩ := hfits
      exact ⟨by rw [hrunning]; decide, hroom, hlink, hawaited⟩
    · exact absurd ha List.not_mem_nil
  · have hreports : (t.finishSlip k.port).reports = t.settle.reports := by
      unfold State.finishSlip
      rw [State.deliver_reports, State.pubReader_eq]
    exact State.quiet_of_reports hreports (State.settle_ends (State.queueSound_lined (queue hs)) (State.thermal_le hq h.thermal))

/-- TAKEN in a slip's state byte moves nothing that the tables, the records or the reports rest on. -/
theorem Worked.markTaken {k : SlipHead} {a : Half} (h : Worked k (s.markTaken a) t) : Worked k s t := Tidy.after h (s.markTaken_tidy a)

theorem exec_slip_concluded (c : Instr) {k : SlipHead} (hc : c.slip? = some k) (h : exec c s = .next t) : Concluded s t := by
  cases ht : s.takeable k with
  | false =>
    rw [exec_slip_untaken c k s hc ht] at h
    obtain rfl := Host.Outcome.next.inj h
    exact .refl _
  | true =>
    rw [exec_slip_taken c k s hc ht] at h
    obtain rfl := Host.Outcome.next.inj h
    have hp : s.phase ≠ .loading := by rw [s.takeable_running k ht]; decide
    have hw := (State.markTaken_carried (s := s) k.addr).trans (slipWork_carried (s := s.markTaken k.addr) hp c)
    exact State.finishSlip_concluded (slipWork_worked _ c k hc).markTaken ht hw.queue

end Sys2Proof.Machine
end

