-- ==== Sys2Proof/Proofs/ConcludedLinks.lean ====
section
/-! SUPPORT. The readers' walks, the port resets and the two links: what they leave of the records (`Kempt`), of the reports and of the open-slip
tables. -/

namespace Sys2Proof.Machine

variable {s t u : State} {x : Option (Port × Half)} {D : List Part} {p : Port}

/-! ### Work that asks for no thermal shed -/

/-- A piece of work as the records see it, which asks for no further bay to be shed. -/
structure Brief (D : List Part) (s t : State) : Prop extends Kempt D s t where
  thermal : t.reports.thermal.length ≤ s.reports.thermal.length

theorem Tidy.brief (h : Tidy x D s t) : Brief D s t := ⟨h.kempt, h.thermal⟩
theorem Brief.refl (s : State) : Brief D s s := (Tidy.refl s).brief
theorem Brief.trans (h : Brief D s t) (k : Brief D t u) : Brief D s u := ⟨h.toKempt.trans k.toKempt, k.thermal.trans h.thermal⟩
theorem Brief.weaken (h : Brief [] s t) : Brief D s t := ⟨h.toKempt.mono (List.nil_subset D), h.thermal⟩

/-- A publication of a record makes it stand. -/
theorem Brief.publish {y : Part} (h : Brief (y :: D) s t) (k : Tidy none [] t u) (hy : t.live → u.stands y) : Brief D s u :=
  ⟨h.toKempt.publish k.kempt hy, k.thermal.trans h.thermal⟩

/-! ### The walk (R155 to R159) -/

/-- A reader replaced. -/
theorem State.putReader_brief (s : State) (p : Port) (r : Reader) : Brief [.reader p] s (s.putReader p r) :=
  ⟨.raw rfl rfl rfl rfl fun y hy => by
    cases y with
    | reader q =>
      have hq : q ≠ p := fun h => hy (by rw [h]; exact List.mem_singleton_self _)
      unfold State.stands State.putReader State.reader
      dsimp only
      rw [PerPort.get_put, if_neg hq]
      exact id
    | _ => exact id, le_rfl⟩

theorem State.chainFault_brief (s : State) (p : Port) (w l : Half) : Brief [.reader p] s (s.chainFault p w l) := by
  unfold State.chainFault
  dsimp only
  split
  · exact s.putReader_brief p _
  · exact (s.putReader_brief p _).trans (State.withLate_tidy _ _).brief

/-- A slip taken within a walk (R158). -/
theorem State.takeAt_worked (s : State) (p : Port) (a : Half) : Worked { port := p, addr := a, flags := 0, target := 0 } s (s.takeAt p a) := by
  unfold State.takeAt
  dsimp only
  have hw := State.dispatch_worked (s.markTaken a) (SlipCopy.head { mem := s.ram, addr := a.toNat } p a)
    (SlipCopy.byte { mem := s.ram, addr := a.toNat } 2) { mem := s.ram, addr := a.toNat }
  exact Tidy.then hw.markTaken (State.settle_tidy _)

theorem State.walk_brief (s : State) (p : Port) (fuel : Nat) (w : WalkPoint) : Brief [.reader p] s (s.walk p fuel w) :=
  State.walk_keeps (P := Brief [.reader p] s) p (fun t _ _ h => h.trans (t.putReader_brief p _)) (fun t w l h => h.trans (t.chainFault_brief p w l))
    (fun t _ h => h.trans (t.putReader_brief p _)) (fun t a h => h.trans (t.takeAt_worked p a).brief) fuel w s (.refl s)

theorem State.walkFrom_brief (s : State) (p : Port) (w : WalkPoint) : Brief [] s (s.walkFrom p w) :=
  (s.walk_brief p walkFuel w).publish (State.pubReader_tidy _ p).1 (State.pubReader_tidy _ p).2

theorem State.wake_brief (s : State) (p : Port) (l : List Nat) : Brief [] s (s.wake p l) := by
  unfold State.wake
  dsimp only
  split
  case h_5 => exact .refl s
  all_goals
    split
    · exact s.walkFrom_brief p _
    · exact .refl s

/-! ### The tables in a walk -/

/-- The tables while the reader of port p walks: each is sound, and the other port's reader waits on a valid link. -/
structure State.walking (s : State) (p : Port) : Prop where
  phase  : s.phase ≠ .loading
  tables : ∀ q, s.tableOk q
  others : ∀ q, q ≠ p → s.waitOk q

/-- Nothing that a table or a wait rests on moves but the reader of port p, whose table stands. -/
theorem State.walking_putReader (h : s.walking p) (r : Reader) (hr : r.table = (s.reader p).table) : (s.putReader p r).walking p := by
  have htable : ∀ q, ((s.putReader p r).reader q).table = (s.reader q).table := fun q => by
    unfold State.putReader State.reader
    dsimp only
    rw [PerPort.get_put]
    split
    · rename_i hq; rw [hq]; exact hr
    · rfl
  refine ⟨h.phase, fun q => ?_, fun q hq => ?_⟩
  · have hq := h.tables q
    unfold State.tableOk at hq ⊢
    rw [htable]
    exact hq
  · have hreader : (s.putReader p r).reader q = s.reader q := by
      unfold State.putReader State.reader
      dsimp only
      rw [PerPort.get_put, if_neg hq]
    have hw := h.others q hq
    unfold State.waitOk at hw ⊢
    rw [hreader]
    intro hwait
    rw [State.linkValid_free_iff, hreader]
    exact (s.linkValid_free_iff q _).1 (hw hwait)

theorem State.linkValid_putReader (r : Reader) (hr : r.table = (s.reader p).table) (a : Half) (h : s.linkValid p a = true) :
    (s.putReader p r).linkValid p a = true := by
  rw [State.linkValid_free_iff] at h ⊢
  rw [State.putReader, State.reader, PerPort.get_put_same, hr]
  exact h

/-- The reader as put. -/
theorem State.reader_putReader (s : State) (p : Port) (r : Reader) : (s.putReader p r).reader p = r := by
  rw [State.putReader, State.reader, PerPort.get_put_same]

/-- A reader that does not wait breaks no wait. -/
theorem State.waitOk_of_state (h : (s.reader p).state ≠ .waitingPost ∧ (s.reader p).state ≠ .waitingRoom) : s.waitOk p :=
  fun hw => (hw.elim h.1 h.2).elim

theorem State.chainFault_walking (h : s.walking p) (w l : Half) : (s.chainFault p w l).walking p ∧ (s.chainFault p w l).waitOk p := by
  have hput := State.walking_putReader h
    { s.reader p with state := .chainFault, watch := w, badWord := w, badLink := l } rfl
  have hwait : (s.putReader p { s.reader p with state := .chainFault, watch := w, badWord := w, badLink := l }).waitOk p :=
    State.waitOk_of_state (by rw [State.reader_putReader]; exact ⟨nofun, nofun⟩)
  unfold State.chainFault
  dsimp only
  split
  · exact ⟨hput, hwait⟩
  · exact ⟨⟨hput.phase, hput.tables, hput.others⟩, hwait⟩

/-- A reader that comes to rest where it does not wait. -/
theorem State.rest_walking (h : s.walking p) (st : ReaderState) (watch : Half) (hst : st ≠ .waitingPost ∧ st ≠ .waitingRoom) :
    (s.rest p st watch).walking p ∧ (s.rest p st watch).waitOk p :=
  ⟨State.walking_putReader h _ rfl, State.waitOk_of_state (by rw [State.rest, State.reader_putReader]; exact hst)⟩

/-- A reader that comes to rest where it waits on a valid link. -/
theorem State.rest_waiting (h : s.walking p) (st : ReaderState) (watch : Half) (hlink : s.linkValid p (s.reader p).cursor = true) :
    (s.rest p st watch).walking p ∧ (s.rest p st watch).waitOk p :=
  ⟨State.walking_putReader h _ rfl, fun _ => by
    rw [State.rest, State.reader_putReader]
    exact State.linkValid_putReader _ (by rfl) _ hlink⟩

theorem State.takeAt_walking (h : s.walking p) {a : Half} (hroom : s.hasRoom p = true) (hlink : s.linkValid p a = true) : (s.takeAt p a).walking p := by
  have hw := s.takeAt_worked p a
  refine ⟨by rw [hw.phase]; exact h.phase, fun q => hw.tableOk (fun b hb => ?_) (h.tables q), fun q hq => hw.waitOk (fun b hb => ?_) (h.others q hq)⟩
  · unfold opened at hb
    dsimp only at hb
    split at hb
    · rename_i hpq
      obtain rfl := List.mem_singleton.1 hb
      subst hpq
      exact ⟨hroom, hlink⟩
    · exact absurd hb List.not_mem_nil
  · unfold opened at hb
    dsimp only at hb
    rw [if_neg hq.symm] at hb
    exact absurd hb List.not_mem_nil

/-- A walk leaves the tables sound, and its reader, where it waits, at a valid link. -/
theorem State.walk_walking (fuel : Nat) (w : WalkPoint) (s : State) (h : s.walking p) (hw : w = .post → s.linkValid p (s.reader p).cursor = true) :
    (s.walk p fuel w).walking p ∧ (s.walk p fuel w).waitOk p := by
  induction fuel generalizing w s with
  | zero => exact State.rest_walking h _ _ (by decide)
  | succ k ih =>
    cases w with
    | link word =>
      unfold State.walk
      dsimp only
      split
      · exact State.rest_walking h _ _ (by decide)
      · split
        · rename_i hlink
          refine ih _ _ (State.walking_putReader h _ rfl) fun _ => ?_
          rw [State.toCursor, State.reader_putReader]
          exact State.linkValid_putReader _ (by rfl) _ hlink
        · exact State.chainFault_walking h _ _
    | post =>
      have hlink := hw rfl
      unfold State.walk
      dsimp only
      split
      · exact State.rest_waiting h _ _ hlink
      · split
        · rename_i hroom
          have htaken := State.takeAt_walking h hroom hlink
          split
          · exact State.rest_walking htaken _ _ (by decide)
          · exact ih _ _ htaken nofun
        · exact State.rest_waiting h _ _ hlink

theorem State.walking_sound (h : s.walking p) (hw : s.waitOk p) : s.tablesSound := by
  refine (State.tablesSound_iff h.phase).2 fun q => ⟨h.tables q, ?_⟩
  by_cases hq : q = p
  · rw [hq]; exact hw
  · exact h.others q hq

theorem State.walking_of_sound (hp : s.phase ≠ .loading) (h : s.tablesSound) : s.walking p :=
  ⟨hp, fun q => ((State.tablesSound_iff hp).1 h q).1, fun q _ => ((State.tablesSound_iff hp).1 h q).2⟩

theorem State.walkFrom_sound (h : s.walking p) (w : WalkPoint) (hw : w = .post → s.linkValid p (s.reader p).cursor = true) :
    (s.walkFrom p w).tablesSound := by
  obtain ⟨hwalk, hwait⟩ := State.walk_walking walkFuel w s h hw
  exact (State.pubReader_tidy _ p).1.sound (State.walking_sound hwalk hwait)

/-- A reader that waits stands at a valid link. -/
theorem State.cursor_valid (hp : s.phase ≠ .loading) (h : s.tablesSound) (hst : (s.reader p).state = .waitingPost ∨ (s.reader p).state = .waitingRoom) :
    s.linkValid p (s.reader p).cursor = true := ((State.tablesSound_iff hp).1 h p).2 hst

theorem State.wake_sound (hp : s.phase ≠ .loading) (h : s.tablesSound) (l : List Nat) : (s.wake p l).tablesSound := by
  have hwalking : s.walking p := State.walking_of_sound hp h
  unfold State.wake
  dsimp only
  split
  · split
    · exact State.walkFrom_sound hwalking _ nofun
    · exact h
  · split
    · exact State.walkFrom_sound hwalking _ nofun
    · exact h
  · rename_i hst
    split
    · exact State.walkFrom_sound hwalking _ fun _ => State.cursor_valid hp h (.inl hst)
    · exact h
  · split
    · exact State.walkFrom_sound hwalking _ nofun
    · exact h
  · exact h

end Sys2Proof.Machine
end

