-- ==== Sys2Proof/Proofs/ConcludedWrites.lean ====
section
/-! SUPPORT. Port resets, WRITEs and READs: the records, the tables, the reports (`Brief`, `Concluded`). -/

namespace Sys2Proof.Machine

variable {s t u : State} {D : List Part} {p : Port}

/-! ### The steps of a port reset (R164) -/

theorem State.abandonSlips_tidy (s : State) (p : Port) : Tidy none [.reader p] s (s.abandonSlips p) := by
  unfold State.abandonSlips
  dsimp only
  generalize ht : List.foldl _ _ _ = t
  have hended : Tidy none [.reader p] s t :=
    ht ▸ foldl_keeps (P := Tidy none [.reader p] s) (fun t e h => h.trans (t.endAt_tidy _ _ _ _ _ _)) _ _ (.refl s)
  exact hended.trans (t.putTable_tidy p [] (List.nil_sublist _))

theorem State.abandonSlips_table (s : State) (p : Port) : ((s.abandonSlips p).reader p).table = [] := by
  unfold State.abandonSlips
  rw [State.reader_putReader]

theorem State.forgetEntries_tidy (s : State) (p : Port) : Tidy none [] s (s.forgetEntries p) :=
  .raw rfl rfl rfl rfl le_rfl rfl rfl fun y _ => by
    cases y with
    | queue =>
      have hbays : (s.forgetEntries p).scheduler.queue.map (·.bay) = s.scheduler.queue.map (·.bay) := by
        unfold State.forgetEntries
        dsimp only
        rw [List.map_map]
        refine List.map_congr_left fun e _ => ?_
        dsimp only [Function.comp]
        split <;> rfl
      unfold State.stands
      dsimp only
      rw [hbays]
      exact id
    | account =>
      have hsum : (s.forgetEntries p).accountSummary = s.accountSummary :=
        State.accountSummary_of rfl (fun _ => rfl) (by unfold State.forgetEntries; exact List.length_map _)
      unfold State.stands
      dsimp only
      rw [hsum]
      exact id
    | _ => exact id

theorem State.forgetOp_tidy (s : State) (p : Port) (n : BayNo) : Tidy none [] s (s.forgetOp p n) := by
  unfold State.forgetOp
  dsimp only
  split
  · exact .refl s
  · exact Tidy.pubBay (D := []) (s.putBay_tidy_state n _ rfl)

theorem State.withoutSlip_tidy (s : State) (o : StoreOp) : Tidy none [] s { s with store := o } :=
  .raw rfl rfl rfl rfl le_rfl rfl rfl fun y _ => by cases y <;> exact id

theorem State.forgetUnits_tidy (s : State) (p : Port) : Tidy none [] s (s.forgetUnits p) :=
  (s.withPeaks_tidy (fun k => if k.origin = p then { k with slip := none } else k) fun k => by split <;> exact ⟨rfl, rfl⟩).trans
    (State.withoutSlip_tidy _ _)

theorem State.forgetSlips_tidy (s : State) (p : Port) : Tidy none [] s (s.forgetSlips p) := by
  unfold State.forgetSlips
  dsimp only
  generalize hu : List.foldl _ _ _ = u
  have hfold : Tidy none [] s u := by
    rw [← hu]
    exact foldl_keeps (P := Tidy none [] s) (fun t n h => h.trans (t.forgetOp_tidy p n)) _ _ (s.forgetEntries_tidy p)
  exact hfold.trans (u.forgetUnits_tidy p)

theorem State.emptyPortSlots_tidy (s : State) (p : Port) : Tidy none [] s (s.emptyPortSlots p) := by
  unfold State.emptyPortSlots
  dsimp only
  generalize hu : List.foldl _ _ _ = u
  have hfold : Tidy none [] s u := by
    rw [← hu]
    exact foldl_keeps (P := Tidy none [] s) (fun t n h => h.trans (t.relit_tidy n _)) _ _ (.refl s)
  exact hfold.trans (u.enclosureRelit_tidy _)

theorem State.clearAttention_tidy (s : State) (p : Port) : Tidy none [] s (s.clearAttention p) :=
  (s.putAttention_tidy p _).publish (State.republishAttention_tidy _ p).1 (State.republishAttention_tidy _ p).2

/-- What follows the end of the open slips (R164, steps 2 and 3). -/
theorem State.clearPort_after (s : State) (p : Port) : Tidy none [] (s.abandonSlips p) (s.clearPort p) :=
  (((State.forgetSlips_tidy _ p).trans (State.emptyPortSlots_tidy _ p)).trans (State.putFloor_tidy _ p none)).trans (State.clearAttention_tidy _ p)

theorem State.clearPort_tidy (s : State) (p : Port) : Tidy none [.reader p] s (s.clearPort p) := (s.abandonSlips_tidy p).then (s.clearPort_after p)

theorem State.clearPort_table (s : State) (p : Port) : ((s.clearPort p).reader p).table = [] := by
  have hsub := (s.clearPort_after p).tables p
  rw [State.abandonSlips_table, opened, List.map_nil, List.append_nil] at hsub
  exact List.map_eq_nil_iff.1 (List.sublist_nil.1 hsub)

theorem State.resetWindow_brief (s : State) (p : Port) : Brief [] s (s.resetWindow p) := by
  rw [State.resetWindow_eq]
  exact ⟨.raw rfl rfl rfl rfl fun y _ => by cases y <;> exact id, le_rfl⟩

/-- A reader restarted publishes its record, whatever the steps before have moved of it. -/
theorem Brief.restartReader (h : Brief [.reader p] s t) : Brief [] s (t.restartReader p) := by
  unfold State.restartReader
  refine Brief.publish (h.trans ?_) (State.republishReader_tidy _ p).1 (State.republishReader_tidy _ p).2
  split
  · exact t.putReader_brief p _
  · exact t.walk_brief p _ _

theorem State.clearReader_brief (s : State) (p : Port) : Brief [.reader p] s (s.clearReader p) := s.putReader_brief p _

theorem State.resetPort_brief (s : State) (p : Port) (hD : s.phase = .starting → .reader p ∈ D) : Brief D s (s.resetPort p) := by
  unfold State.resetPort
  dsimp only
  split
  · rename_i hp
    exact ⟨(s.clearPort_tidy p).kempt.mono (by simpa using hD hp), (s.clearPort_tidy p).thermal⟩
  · exact (Brief.restartReader (((s.clearPort_tidy p).brief.trans (State.resetWindow_brief _ p).weaken).trans (State.clearReader_brief _ p))).weaken

/-! ### The tables after a port reset -/

/-- A window put in force leaves the tables sound, its own port's being empty. -/
theorem State.resetWindow_walking (hp : s.phase ≠ .loading) (h : s.tablesSound) (hempty : (s.reader p).table = []) : (s.resetWindow p).walking p := by
  rw [State.resetWindow_eq]
  refine ⟨hp, fun q => ?_, fun q hq hw => ?_⟩
  · obtain ⟨h16, hnodup, hopen⟩ := ((State.tablesSound_iff hp).1 h q).1
    refine ⟨h16, hnodup, fun e he => ?_⟩
    by_cases hq : q = p
    · subst hq
      exact absurd (hempty ▸ he) List.not_mem_nil
    · have := hopen e he
      unfold State.openAt at this ⊢
      dsimp only
      rw [PerPort.get_put, if_neg hq]
      exact this
  · have hlink := ((State.tablesSound_iff hp).1 h q).2 hw
    rw [State.linkValid_free_iff] at hlink ⊢
    dsimp only
    rw [PerPort.get_put, if_neg hq]
    exact hlink

theorem State.resetPort_sound (hp : s.phase ≠ .loading) (h : s.tablesSound) : (s.resetPort p).tablesSound := by
  have hcleared := (s.clearPort_tidy p).sound h
  have hphase : (s.clearPort p).phase ≠ .loading := by rw [(s.clearPort_tidy p).phase]; exact hp
  unfold State.resetPort
  dsimp only
  split
  · exact hcleared
  · have hready : (((s.clearPort p).resetWindow p).clearReader p).walking p :=
      State.walking_putReader (State.resetWindow_walking hphase hcleared (s.clearPort_table p)) _ rfl
    unfold State.restartReader
    refine (State.republishReader_tidy _ p).1.sound ?_
    split
    · obtain ⟨hrest, hwait⟩ := State.rest_walking hready .disabled 0 (by decide)
      exact State.walking_sound hrest hwait
    · rename_i w _
      obtain ⟨hwalk, hwait⟩ := State.walk_walking walkFuel (.link (BitVec.ofNat 16 (w.base + 0x1C))) _ hready nofun
      exact State.walking_sound hwalk hwait

/-! ### WRITE (R150) -/

theorem State.withLinks_tidy (s : State) (l : PerPort Link) : Tidy none [] s { s with links := l } :=
  .raw rfl rfl rfl rfl le_rfl rfl rfl fun y _ => by cases y <;> exact id

theorem State.putOut_tidy (s : State) (p : Port) (out : List Byte) : Tidy none [] s (s.putOut p out) := s.withLinks_tidy _

theorem State.writeDone_tidy (s : State) (p : Port) : Tidy none [] s (s.writeDone p) := by
  unfold State.writeDone
  dsimp only
  split
  · exact .refl s
  · exact (s.putAttention_tidy p _).pubAttention

/-- One byte of a WRITE resets its port, or leaves the tables and the records (R150). -/
theorem State.writeByte_tidy (s : State) (p : Port) (start a : Nat) (v : Byte) :
    Tidy none [] s (s.writeByte p start a v) ∨ s.writeByte p start a v = s.resetPort p := by
  unfold State.writeByte
  split
  · exact .inl (s.ram_tidy _ s.late)
  · split
    · exact .inl (s.withLinks_tidy _)
    · split
      · exact .inl (.refl s)
      · split
        · exact .inl (s.writeDone_tidy p)
        · split
          · exact .inr rfl
          · exact .inl (s.withLinks_tidy _)

theorem State.writeBytes_keeps (p : Port) (start : Nat) (data : List Byte) (a : Nat) (s : State) (hp : s.phase ≠ .loading)
    (hD : s.phase = .starting → .reader p ∈ D) :
    Brief D s (s.writeBytes p start a data) ∧ (s.tablesSound → (s.writeBytes p start a data).tablesSound) := by
  induction data generalizing a s with
  | nil => exact ⟨.refl s, id⟩
  | cons v data ih =>
    have hbyte : Brief D s (s.writeByte p start a v) ∧ (s.tablesSound → (s.writeByte p start a v).tablesSound) := by
      obtain h | h := s.writeByte_tidy p start a v
      · exact ⟨h.brief.weaken, h.sound⟩
      · rw [h]
        exact ⟨s.resetPort_brief p hD, State.resetPort_sound hp⟩
    have hphase := hbyte.1.phase
    have hrest := ih (a + 1) (s.writeByte p start a v) (by rw [hphase]; exact hp) (by rw [hphase]; exact hD)
    exact ⟨hbyte.1.trans hrest.1, hrest.2 ∘ hbyte.2⟩

theorem State.feedByte_tidy (s : State) (p : Port) (n : BayNo) (v : Byte) : Tidy none [] s (s.feedByte p n v) := by
  unfold State.feedByte
  split
  · exact s.withFeeds_tidy _
  · exact .refl s

theorem State.feedWrites_tidy (s : State) (p : Port) (stored : List Nat) : Tidy none [] s (s.feedWrites p stored) := by
  unfold State.feedWrites
  split
  · exact .refl s
  · refine foldl_keeps (P := Tidy none [] s) (fun t m h => ?_) _ _ (.refl s)
    split
    · exact h.trans (t.feedByte_tidy p _ _)
    · exact h

/-- A WRITE's bytes, its feed and its wake, before the handling closes. -/
def State.written (p : Port) (start : Nat) (data : List Byte) (s : State) : State :=
  ((s.writeBytes p start start data).feedWrites p (s.storedBy p start data.length)).wake p (s.storedBy p start data.length)

theorem State.written_keeps (s : State) (p : Port) (start : Nat) (data : List Byte) (hp : s.phase ≠ .loading)
    (hD : s.phase = .starting → .reader p ∈ D) :
    Brief D s (s.written p start data) ∧ (s.tablesSound → (s.written p start data).tablesSound) ∧ Carried s (s.written p start data) := by
  have hcarried := (State.writeBytes_carried p start data start s hp).trans (State.feedWrites_kept p (s.storedBy p start data.length)).carried
  obtain ⟨hbytes, hsound⟩ := State.writeBytes_keeps p start data start s hp hD
  have hfed := State.feedWrites_tidy (s.writeBytes p start start data) p (s.storedBy p start data.length)
  have hphase := hcarried.phase
  exact ⟨(hbytes.trans hfed.brief.weaken).trans (State.wake_brief _ p _).weaken,
    fun hs => State.wake_sound (by rw [hphase]; exact hp) (hfed.sound (hsound hs)) _,
    hcarried.trans (State.wake_carried (by rw [hphase]; exact hp) p _)⟩

theorem State.mem_unread (p : Port) (hp : s.phase = .starting) : .reader p ∈ s.unread := by
  unfold State.unread
  rw [if_pos hp]
  cases p <;> simp

theorem State.writeTransaction_concluded (s : State) (p : Port) (start : Nat) (data : List Byte) : Concluded s (s.writeTransaction p start data) := by
  unfold State.writeTransaction
  dsimp only
  split
  · exact .of_still (s.putOut_tidy p _) rfl rfl
  · rename_i hp
    obtain ⟨hbrief, hsound, hcarried⟩ := s.written_keeps (D := s.unread) p start data hp (State.mem_unread p)
    have hout := State.putOut_tidy (s.written p start data).close p (List.replicate data.length 0)
    have hclosed := (State.close_tidy (s.written p start data)).trans hout
    exact ⟨hbrief.toKempt.trans (hclosed.kempt.mono (List.nil_subset _)), fun hs => hclosed.sound (hsound hs), fun _ => State.close_late _,
      fun hs hq => State.quiet_of_reports (s := (s.written p start data).close) rfl
        (State.close_settled (hcarried.queue hs) (State.thermal_le hq hbrief.thermal))⟩

theorem execWaitingRoomWake_concluded (h : execWaitingRoomWake p s = .next t) : Concluded s t := by
  obtain rfl := Host.Outcome.next.inj h
  split
  · rename_i hr
    obtain ⟨hrun, hstate, -⟩ := hr
    have hp : s.phase ≠ .loading := by rw [hrun]; decide
    have hbrief := s.walkFrom_brief p .post
    have hcarried := State.walkFrom_carried (s := s) hp p .post
    have hclosed := State.close_tidy (s.walkFrom p .post)
    exact ⟨(hbrief.toKempt.trans hclosed.kempt).unread,
      fun hs => hclosed.sound (State.walkFrom_sound (State.walking_of_sound hp hs) .post fun _ => State.cursor_valid hp hs (.inr hstate)),
      fun _ => State.close_late _, fun hs hq => State.close_settled (hcarried.queue hs) (State.thermal_le hq hbrief.thermal)⟩
  · exact .refl s

/-! ### READ (R149) -/

theorem State.takeSource_tidy (s : State) (p : Port) (i : Fin 8) : Tidy none [] s (s.takeSource p i) := by
  refine Tidy.pubAttention (D := []) (.raw rfl rfl rfl rfl le_rfl rfl rfl fun y hy => ?_)
  cases y with
  | attention q =>
    have hq : q ≠ p := fun h => hy (by rw [h]; exact List.mem_singleton_self _)
    unfold State.stands
    dsimp only
    rw [PerPort.get_put, if_neg hq, PerPort.get_put, if_neg hq]
    exact id
  | _ => exact id

/-- A byte read at or above the registers clears no position and raises nothing (R149, R168). -/
theorem State.readByte_high (s : State) (p : Port) {start a : Nat} (hstart : 0x8000 ≤ start) (ha : start ≤ a) :
    Tidy none [] s (s.readByte p start a).2 ∧ (s.readByte p start a).2.late = s.late := by
  have hself : Tidy none [] s s ∧ s.late = s.late := ⟨.refl s, rfl⟩
  unfold State.readByte
  split
  · exact hself
  · rw [if_neg (by omega), if_neg (by omega), if_neg (by omega)]
    split
    · unfold State.readTake
      split
      · exact hself
      · refine ⟨s.takeSource_tidy p _, ?_⟩
        unfold State.takeSource
        rw [State.pubAttention_eq]
    · split
      · exact hself
      · split <;> exact hself

theorem State.readRun_high (p : Port) {start : Nat} (hstart : 0x8000 ≤ start) (k a : Nat) (ha : start ≤ a) (s : State) :
    Tidy none [] s (s.readRun p start k a).2 ∧ (s.readRun p start k a).2.late = s.late := by
  induction k generalizing a s with
  | zero => exact ⟨.refl s, rfl⟩
  | succ k ih =>
    obtain ⟨hbyte, hlate⟩ := s.readByte_high p hstart ha
    obtain ⟨hrest, hlate'⟩ := ih (a + 1) (by omega) (s.readByte p start a).2
    exact ⟨hbyte.trans hrest, hlate'.trans hlate⟩

/-- A change of the bitmaps alone leaves what the records rest on. -/
theorem State.withMaps_tended (s : State) (maps : PerPort (BitVec 80)) : Tended D s (s.withMaps maps) :=
  ⟨rfl, rfl, rfl, ⟨id, id, fun _ => id⟩, fun _ y _ => by cases y <;> exact id⟩

theorem State.withMaps_sound (s : State) (maps : PerPort (BitVec 80)) (h : s.tablesSound) : (s.withMaps maps).tablesSound := h

/-- What a READ leaves: the records and the tables; of its own port's bitmap what it served may be cleared (R168). -/
structure ReadLeft (p : Port) (start count : Nat) (s t : State) : Prop where
  tended  : Tended [] s t
  tables  : s.tablesSound → t.tablesSound
  kept    : t.late = s.late ∧ t.reports = s.reports
  marked  : s.status.marked t.status
  cleared : ∀ q k, (s.status.bitmaps.get q).getLsbD k = true → (t.status.bitmaps.get q).getLsbD k = false →
    q = p ∧ start ≤ bitmapBase p + k / 8 ∧ bitmapBase p + k / 8 < start + count

/-- The bitmaps after a READ that served them: nothing new is set, and what is clear was served. -/
theorem Served.cleared {start a : Nat} {maps : PerPort (BitVec 80)} (h : Served s p start a maps) (q : Port) (k : Nat) :
    ((maps.get q).getLsbD k = true → (s.status.bitmaps.get q).getLsbD k = true) ∧
      ((s.status.bitmaps.get q).getLsbD k = true → (maps.get q).getLsbD k = false →
        q = p ∧ start ≤ bitmapBase p + k / 8 ∧ bitmapBase p + k / 8 < a) := by
  by_cases hq : q = p
  · subst hq
    by_cases hk : k < 80
    · rw [h.own k hk]
      constructor
      · intro hset
        exact (Bool.and_eq_true_iff.1 hset).1
      · intro hset hclear
        rw [hset, Bool.true_and, Bool.not_eq_false', Bool.and_eq_true, decide_eq_true_eq, decide_eq_true_eq] at hclear
        exact ⟨rfl, hclear⟩
    · rw [BitVec.getLsbD_of_ge _ _ (Nat.le_of_not_lt hk), BitVec.getLsbD_of_ge _ _ (Nat.le_of_not_lt hk)]
      exact ⟨id, nofun⟩
  · have hother : q = Port.other p := by cases p <;> cases q <;> simp_all [Port.other]
    rw [hother, h.other]
    refine ⟨id, fun hset hclear => ?_⟩
    rw [hset] at hclear
    cases hclear

/-- A READ that leaves the bitmaps. -/
theorem Tidy.readLeft {start count : Nat} (h : Tidy none [] s t) (late : t.late = s.late) (reports : t.reports = s.reports) :
    ReadLeft p start count s t :=
  ⟨h.kempt.toTended, h.sound, ⟨late, reports⟩, h.carried.1, fun q k hset hclear => by
    rw [h.carried.2 q k hset] at hclear
    cases hclear⟩

theorem State.readTransaction_left (s : State) (p : Port) (start count : Nat) : ReadLeft p start count s (s.readTransaction p start count) := by
  have hkept := State.readRun_kept p start count start s
  by_cases hload : s.phase = .loading
  · have hrun := State.readRun_const (s := s) p start 0xFF count start fun b _ => by unfold State.readByte; rw [if_pos hload]
    unfold State.readTransaction
    dsimp only
    rw [hrun]
    exact (s.putOut_tidy p (List.replicate count 0xFF)).readLeft rfl rfl
  · by_cases hlow : start < 0x8000
    · obtain ⟨maps, hrun, hserved⟩ := State.readRun_low (s := s) (p := p) hload hlow count start (Nat.le_refl _) s.status.bitmaps
        (Served.nothing s p start)
      have hself : s.withMaps s.status.bitmaps = s := rfl
      rw [hself] at hrun
      unfold State.readTransaction
      dsimp only
      rw [hrun]
      generalize (List.range count).map _ = out
      have hout := (s.withMaps maps).putOut_tidy p out
      exact ⟨(s.withMaps_tended maps).trans hout.kempt.toTended, fun h => hout.sound (s.withMaps_sound maps h), ⟨rfl, rfl⟩,
        ⟨fun _ h => absurd rfl h, fun _ h => absurd rfl h, fun _ h => absurd rfl h, fun _ h => absurd rfl h, fun _ h => absurd rfl h,
          fun _ h => absurd rfl h, fun h => absurd rfl h, fun h => absurd rfl h, fun h => absurd rfl h, fun _ h => absurd rfl h,
          fun _ h => absurd rfl h, fun q k _ _ h => (hserved.cleared q k).1 h⟩,
        fun q k => (hserved.cleared q k).2⟩
    · obtain ⟨hrun, hlate⟩ := State.readRun_high p (Nat.le_of_not_lt hlow) count start (Nat.le_refl _) s
      exact (hrun.trans (State.putOut_tidy _ p _)).readLeft hlate hkept.reports

end Sys2Proof.Machine
end

