-- ==== Sys2Proof/Proofs/ConcludedStart.lean ====
section
/-! SUPPORT. Every step by what it concludes: a command but a READ, a reset or START_UP (`Concluded`), a READ (`ReadLeft`), a reset, and start-up,
whose steps and the transactions between them keep what `StartRuns` says. -/

namespace Sys2Proof.Machine

variable {s t u : State} {D : List Part} {p : Port}

/-! ### The commands of the running part -/

/-- A READ of the registers alone is a command that leaves the bitmaps. -/
theorem ReadLeft.concluded {start count : Nat} (h : ReadLeft p start count s t) (hstart : 0x8000 ≤ start) : Concluded s t where
  kempt := Kempt.unread ⟨h.tended, h.marked, fun q k hset => by
    by_contra hclear
    obtain ⟨-, hle, -⟩ := h.cleared q k hset (Bool.eq_false_iff.2 hclear)
    have hk : k < 80 := by
      by_contra hk
      rw [BitVec.getLsbD_of_ge _ _ (Nat.le_of_not_lt hk)] at hset
      cases hset
    have hbase : bitmapBase p ≤ 0xE0 := by cases p <;> decide
    omega⟩
  tables := h.tables
  late hs := h.kept.1.trans hs
  quiet _ := State.quiet_of_reports h.kept.2

theorem State.staggerEnded_tidy (s : State) :
    Tidy none [] s { s with scheduler := { s.scheduler with staggerAt := none }, reports := { s.reports with pass := true } } :=
  .raw rfl rfl rfl rfl le_rfl rfl rfl fun y _ => by cases y <;> exact id

theorem execStaggerExpiry_concluded (h : execStaggerExpiry s = .next t) : Concluded s t := by
  obtain rfl := Host.Outcome.next.inj h
  exact .whileRunning (fun _ _ => .of_fields s.staggerEnded_tidy rfl rfl) (.refl s)

theorem State.delayEnded_tidy (s : State) :
    Tidy none [] s { s with account := { s.account with shedTimer := none, delayExpired := true }, reports := { s.reports with run := true } } :=
  .raw rfl rfl rfl rfl le_rfl rfl rfl fun y _ => by cases y <;> exact id

theorem execShedDelayExpiry_concluded (h : execShedDelayExpiry s = .next t) : Concluded s t := by
  obtain rfl := Host.Outcome.next.inj h
  exact .whileRunning (fun _ _ => .of_fields s.delayEnded_tidy rfl rfl) (.refl s)

theorem State.withScan_tidy (s : State) (a : Option Time) (c : Scan) : Tidy none [] s { s with scanAt := a, scan := c } :=
  .raw rfl rfl rfl rfl le_rfl rfl rfl fun y _ => by cases y <;> exact id

theorem execSensorScan_concluded (h : execSensorScan s = .next t) : Concluded s t := by
  obtain rfl := Host.Outcome.next.inj h
  exact .whileRunning (fun _ _ => .of_still (s.withScan_tidy _ _) rfl rfl) (.refl s)

theorem State.withSupplyLines_tidy (s : State) (l : Vector SupplyLines 4) : Tidy none [] s { s with supplyLines := l } :=
  .raw rfl rfl rfl rfl le_rfl rfl rfl fun y _ => by cases y <;> exact id

theorem execSupplyInputChange_concluded (i : Fin 4) (b g : Bool) (h : execSupplyInputChange i b g s = .next t) : Concluded s t := by
  obtain rfl := Host.Outcome.next.inj h
  have hcore : Carried s { s with supplyLines := s.supplyLines.set i { present := b, good := g } } := .of_core_mems rfl rfl
  have hline := s.withSupplyLines_tidy (s.supplyLines.set i { present := b, good := g })
  exact .whileRunning (fun _ _ => .of_close (hcore.trans (State.takeSupply_carried i)).queue (hline.trans (State.takeSupply_tidy _ i)))
    (.of_still hline rfl rfl)

theorem execFloorExpiry_concluded (h : execFloorExpiry p s = .next t) : Concluded s t := by
  obtain rfl := Host.Outcome.next.inj h
  exact .whileRunning (fun _ _ => .of_still (s.putFloor_tidy p none) (s.putFloor_still p none).1 (s.putFloor_still p none).2) (.refl s)

theorem State.refresh_still (s : State) (a : BitVec 60) : (s.refresh a).late = s.late ∧ (s.refresh a).reports = s.reports := by
  unfold State.refresh
  exact ⟨rfl, rfl⟩

theorem execChainRefresh_concluded (a : BitVec 60) (h : execChainRefresh a s = .next t) : Concluded s t := by
  obtain rfl := Host.Outcome.next.inj h
  exact .whileRunning (fun _ _ => .of_still (s.refresh_tidy a) (s.refresh_still a).1 (s.refresh_still a).2) (.refl s)

theorem execLightExpiry_concluded (place : LightPlace) (c : Colour) (h : execLightExpiry p place c s = .next t) : Concluded s t := by
  obtain rfl := Host.Outcome.next.inj h
  exact .whileRunning (fun _ _ => .of_still (s.putSlot_tidy p place c none) (s.putSlot_still p place c none).1 (s.putSlot_still p place c none).2)
    (.refl s)

/-- What every command but a READ, the resets and START_UP leaves. -/
theorem exec_concluded (c : Instr) (hc : ordinary c) (hread : ∀ p a k, c ≠ .read p a k) (h : exec c s = .next t) : Concluded s t := by
  cases hslip : c.slip? with
  | some k => exact exec_slip_concluded c hslip h
  | none =>
    cases c <;> simp only [Instr.slip?, reduceCtorEq, ordinary] at hslip hc
    case read p a k => exact absurd rfl (hread p a k)
    case write p a d => obtain rfl := Host.Outcome.next.inj h; exact s.writeTransaction_concluded p _ _
    case waitingRoomWake p => exact execWaitingRoomWake_concluded h
    case status p k => obtain rfl := Host.Outcome.next.inj h; exact .of_still (s.withLinks_tidy _) rfl rfl
    case voidTransaction p o k => obtain rfl := Host.Outcome.next.inj h; exact .of_still (s.putOut_tidy p _) rfl rfl
    case take p => obtain rfl := Host.Outcome.next.inj h; exact (s.readTransaction_left p 0x8000 1).concluded (Nat.le_refl _)
    case done p v => obtain rfl := Host.Outcome.next.inj h; exact s.writeTransaction_concluded p _ _
    case portReset p v => obtain rfl := Host.Outcome.next.inj h; exact s.writeTransaction_concluded p _ _
    case registerWriteDiscarded p v => obtain rfl := Host.Outcome.next.inj h; exact s.writeTransaction_concluded p _ _
    case presenceAssert n => exact execPresenceAssert_concluded h
    case presenceDeassert n => exact execPresenceDeassert_concluded h
    case settleExpiry n =>
      obtain rfl := Host.Outcome.next.inj h
      exact .whileRunning (fun hr hd => State.settleBay_concluded (State.running_not_loading hr) hd.1) (.refl s)
    case bounce n =>
      obtain rfl := Host.Outcome.next.inj h
      exact .whileRunning (fun hr hd => State.bounceBay_concluded (State.running_not_loading hr) hd.1) (.refl s)
    case surpriseRemoval n =>
      obtain rfl := Host.Outcome.next.inj h
      exact .whileRunning (fun hr hd => State.removeBay_concluded (State.running_not_loading hr) hd.1) (.refl s)
    case latchOpen n => exact execLatchOpen_concluded h
    case latchClose n => exact execLatchClose_concluded h
    case switchTrip n => exact execSwitchTrip_concluded h
    case backoffExpiry n =>
      obtain rfl := Host.Outcome.next.inj h
      exact .whileRunning (fun hr hd => State.retryBay_concluded (State.running_not_loading hr) hd.1) (.refl s)
    case spinWindowEnd n =>
      obtain rfl := Host.Outcome.next.inj h
      exact .whileRunning (fun hr hd => State.spunUp_concluded (State.running_not_loading hr) hd.1) (.refl s)
    case parkWindowEnd n =>
      obtain rfl := Host.Outcome.next.inj h
      exact .whileRunning (fun hr hd => State.parked_concluded (State.running_not_loading hr) hd.1) (.refl s)
    case staggerExpiry => exact execStaggerExpiry_concluded h
    case deadlineExpiry n =>
      obtain rfl := Host.Outcome.next.inj h
      exact .whileRunning (fun hr hd => State.timeOut_concluded (State.running_not_loading hr) hd.1) (.refl s)
    case supplyInputChange i b g => exact execSupplyInputChange_concluded i b g h
    case shedDelayExpiry => exact execShedDelayExpiry_concluded h
    case currentSample n x =>
      obtain rfl := Host.Outcome.next.inj h
      exact .whileRunning (fun hr _ => State.takeSample_concluded (State.running_not_loading hr) _) (.refl s)
    case sensorScan => exact execSensorScan_concluded h
    case sensorRead i r => exact execSensorRead_concluded i r h
    case coolingPeriod => exact execCoolingPeriod_concluded h
    case criticalTimerExpiry z =>
      obtain rfl := Host.Outcome.next.inj h
      exact .whileRunning (fun _ _ => s.criticalExpiry_concluded z) (.refl s)
    case fanPresenceReport i b => exact execFanPresenceReport_concluded i b h
    case startingExpiry i =>
      obtain rfl := Host.Outcome.next.inj h
      exact .whileRunning (fun _ _ => .of_close (State.fanChanged_carried i _).queue (s.fanChanged_tidy i _)) (.refl s)
    case tachReport i k => exact execTachReport_concluded i k h
    case fanCheckEnd => exact execFanCheckEnd_concluded h
    case floorExpiry p => exact execFloorExpiry_concluded h
    case chainRefresh a => exact execChainRefresh_concluded a h
    case lightExpiry p place c => exact execLightExpiry_concluded place c h
    case storeSettingsEnd => exact execStoreSettingsEnd_concluded h
    case storeWriteFailed k => exact execStoreWriteFailed_concluded k h
    case reloadReadEnd b => exact execReloadReadEnd_concluded b h

theorem State.fetched_tidy (s : State) (rest : List Instr) : Tidy none [] s { s with pending := rest } :=
  .raw rfl rfl rfl rfl le_rfl rfl rfl fun y _ => by cases y <;> exact id

theorem ReadLeft.fetched {start count : Nat} {rest : List Instr} (h : ReadLeft p start count { s with pending := rest } t) :
    ReadLeft p start count s t :=
  ⟨(s.fetched_tidy rest).kempt.toTended.trans h.tended, h.tables, h.kept, h.marked, h.cleared⟩

/-- A step: a tick or a command that concludes, a READ, a reset, or START_UP. -/
theorem step_concluded (h : step s = .next t) : Concluded s t ∨
    (∃ p addr count rest, s.pending = .read p addr count :: rest ∧ ReadLeft p addr.toNat count s t) ∨
    ∃ c rest, s.pending = c :: rest ∧ ¬ ordinary c ∧ exec c { s with pending := rest } = .next t := by
  unfold step at h
  split at h
  · obtain rfl := Host.Outcome.next.inj h
    exact .inl (.of_still (.raw rfl rfl rfl rfl le_rfl rfl rfl fun y _ => by cases y <;> exact id) rfl rfl)
  · rename_i c rest hq
    have hfetched : Concluded s { s with pending := rest } := .of_still (s.fetched_tidy rest) rfl rfl
    by_cases hc : ordinary c
    · by_cases hread : ∃ p a k, c = .read p a k
      · obtain ⟨p, a, k, rfl⟩ := hread
        obtain rfl := Host.Outcome.next.inj h
        exact .inr (.inl ⟨p, a, k, rest, hq, (State.readTransaction_left _ p a.toNat k).fetched⟩)
      · exact .inl (hfetched.trans (State.fetched_carried rest).queue (exec_concluded c hc (fun p a k e => hread ⟨p, a, k, e⟩) h))
    · exact .inr (.inr ⟨c, rest, hq, hc, h⟩)

/-! ### Transactions within start-up -/

/-- What a transaction within start-up leaves: the readers' records may be dirty, for its step 8 to publish. -/
structure Within (s t : State) : Prop where
  carried : Carried s t
  tables  : s.tablesSound → t.tablesSound
  tended  : Tended [.reader .a, .reader .b] s t
  reports : t.reports = s.reports

/-- A reset abandons start-up: what stands then, and after any transaction or reset that follows within the same command. -/
structure State.abandoned (s : State) : Prop where
  phase  : s.phase = .loading
  tables : s.tablesSound
  late   : s.late = []
  held   : s.reports.summaryHeld = false
  queue  : s.queueSound
  quiet  : s.quiet

theorem State.loading_tablesSound (k : ResetKind) (w : Surroundings) : (State.loading k w).tablesSound := by
  refine ⟨fun p => ?_, fun _ => ⟨rfl, fun p => ?_⟩⟩
  · rw [State.loading_reader]
    exact ⟨Nat.zero_le _, List.nodup_nil, nofun, fun h => h.elim nofun nofun⟩
  · rw [State.loading_reader]
    exact ⟨rfl, rfl⟩

theorem State.loading_abandoned (k : ResetKind) (w : Surroundings) : (State.loading k w).abandoned where
  phase := rfl
  tables := State.loading_tablesSound k w
  late := rfl
  held := rfl
  queue := State.loading_queueSound k w
  quiet := ⟨rfl, rfl, rfl, rfl⟩

/-- A transaction by itself, or a reset. -/
theorem State.takeEvent_concluded (e : StartUpEvent) (s : State) :
    Concluded s (s.takeEvent e) ∨ (∃ p start count, ReadLeft p start count s (s.takeEvent e)) ∨ ∃ k w, s.takeEvent e = .loading k w := by
  cases e with
  | read p a k => exact .inr (.inl ⟨p, _, _, s.readTransaction_left p a.toNat k⟩)
  | write p a d => exact .inl (s.writeTransaction_concluded p _ _)
  | status p k => exact .inl (.of_still (s.withLinks_tidy _) rfl rfl)
  | void p o k => exact .inl (.of_still (s.putOut_tidy p _) rfl rfl)
  | coldReset straps => exact .inr (.inr ⟨_, _, rfl⟩)
  | warmReset straps => exact .inr (.inr ⟨_, _, rfl⟩)

theorem State.abandoned_takeEvent (e : StartUpEvent) (h : s.abandoned) : (s.takeEvent e).abandoned := by
  have hcarried : (∃ k w, s.takeEvent e = .loading k w) ∨ Carried s (s.takeEvent e) := by
    obtain h | ⟨straps, h⟩ | ⟨straps, h⟩ := State.takeEvent_cases e s
    · exact .inr h
    · exact .inl ⟨_, _, h⟩
    · exact .inl ⟨_, _, h⟩
  obtain ⟨k, w, hl⟩ | hcarried := hcarried
  · rw [hl]
    exact State.loading_abandoned k w
  · obtain hdone | ⟨p, start, count, hread⟩ | ⟨k, w, hl⟩ := State.takeEvent_concluded e s
    · exact ⟨hcarried.phase.trans h.phase, hdone.tables h.tables, hdone.late h.late, hdone.kempt.held.trans h.held, hcarried.queue h.queue,
        hdone.quiet h.queue h.quiet⟩
    · exact ⟨hcarried.phase.trans h.phase, hread.tables h.tables, hread.kept.1.trans h.late, hread.tended.held.trans h.held,
        hcarried.queue h.queue, State.quiet_of_reports hread.kept.2 h.quiet⟩
    · rw [hl]
      exact State.loading_abandoned k w

/-- The state with start-up's own events and reports put aside. -/
def State.aside (s : State) : State := { s with late := [], reports := .silent }

/-- The events and the reports of start-up taken up again. -/
def State.resumed (t s : State) : State := { t with late := s.late, reports := s.reports }

theorem Tended.resumed (h : Tended D s.aside t) : Tended D s (t.resumed s) where
  phase := h.phase
  straps := h.straps
  held := rfl
  filled := h.filled
  stands hl y hy hs := by
    have hlive : s.aside.live := ⟨hl.publishing, hl.summary, hl.enclosure, hl.lights⟩
    have hset := h.stands hlive y hy
    have hheld : t.reports.summaryHeld ≠ true := by rw [h.held]; exact nofun
    cases y with
    | account => exact hs.imp id fun hrec => (hset (.inr hrec)).resolve_left hheld
    | cooling => exact hs.imp id fun hrec => (hset (.inr hrec)).resolve_left hheld
    | _ => exact hset hs

theorem State.takeWithin_within (e : StartUpEvent) (hp : s.phase = .starting) :
    Within s (s.takeWithin e) ∨ ∃ k w, s.takeWithin e = .loading k w := by
  have haside : Carried s s.aside := .of_core_mems rfl rfl
  have hresumed : ∀ t : State, Carried t (t.resumed s) := fun t => .of_core_mems rfl rfl
  have hunread : s.aside.unread = [.reader .a, .reader .b] := if_pos hp
  have heq : ((s.aside.takeEvent e).phase = .starting → s.takeWithin e = (s.aside.takeEvent e).resumed s) ∧
      ((s.aside.takeEvent e).phase ≠ .starting → s.takeWithin e = s.aside.takeEvent e) := by
    unfold State.takeWithin
    rw [if_pos hp]
    exact ⟨fun h => if_pos h, fun h => if_neg h⟩
  have hwithin (htables : s.aside.tablesSound → (s.aside.takeEvent e).tablesSound)
      (htended : Tended [.reader .a, .reader .b] s.aside (s.aside.takeEvent e)) : Within s (s.takeWithin e) ∨ ∃ k w, s.takeWithin e = .loading k w := by
    have hphase : (s.aside.takeEvent e).phase = .starting := htended.phase.trans hp
    rw [heq.1 hphase]
    obtain hc | ⟨straps, hl⟩ | ⟨straps, hl⟩ := State.takeEvent_cases e s.aside
    · exact .inl ⟨(haside.trans hc).trans (hresumed _), htables, htended.resumed, rfl⟩
    · rw [hl] at hphase
      cases hphase
    · rw [hl] at hphase
      cases hphase
  obtain h | ⟨p, start, count, h⟩ | ⟨k, w, h⟩ := State.takeEvent_concluded e s.aside
  · exact hwithin h.tables (hunread ▸ h.kempt.toTended)
  · exact hwithin h.tables ⟨h.tended.phase, h.tended.straps, h.tended.held, h.tended.filled, fun hl y _ => h.tended.stands hl y List.not_mem_nil⟩
  · exact .inr ⟨k, w, (heq.2 (by rw [h]; exact nofun)).trans h⟩

/-! ### Start-up as an induction over its steps -/

/-- Predicates on the states of start-up by the number of steps made, kept by each step and by a transaction between two. -/
structure StartRuns (R : Nat → State → Prop) : Prop where
  within    : ∀ k s t, s.phase = .starting → Within s t → R k s → R k t
  told      : ∀ s, s.phase = .starting → R 0 s → R 1 (s.raiseBoth srcLoadDone)
  bays      : ∀ s, s.phase = .starting → R 1 s → R 2 s.startBays
  account   : ∀ s, s.phase = .starting → R 2 s → R 3 s.accountUpdate.settle
  policies  : ∀ s, s.phase = .starting → R 3 s → R 4 s.startPolicies
  lit       : ∀ s, s.phase = .starting → R 4 s → R 5 s.lightEnclosure
  published : ∀ s, s.phase = .starting → R 5 s → R 6 s.publishAll.deliver

variable {R : Nat → State → Prop}

/-- Within start-up the predicate holds, or start-up is abandoned. -/
def Runs (R : State → Prop) (s : State) : Prop := (s.phase = .starting ∧ R s) ∨ s.abandoned

theorem StartRuns.takeWithin (h : StartRuns R) (k : Nat) (e : StartUpEvent) (hs : Runs (R k) s) : Runs (R k) (s.takeWithin e) := by
  obtain ⟨hp, hs⟩ | hs := hs
  · obtain hw | ⟨kind, w, hl⟩ := State.takeWithin_within e hp
    · exact .inl ⟨hw.tended.phase.trans hp, h.within k _ _ hp hw hs⟩
    · rw [hl]
      exact .inr (State.loading_abandoned kind w)
  · have heq : s.takeWithin e = s.takeEvent e := by
      unfold State.takeWithin
      rw [if_neg (by rw [hs.phase]; exact nofun)]
    rw [heq]
    exact .inr (State.abandoned_takeEvent e hs)

theorem StartRuns.gap (h : StartRuns R) (k : Nat) (during : List (Fin 7 × StartUpEvent)) (i : Fin 7) (hs : Runs (R k) s) :
    Runs (R k) (s.gap during i) := by
  unfold State.gap
  split
  · exact foldl_keeps (P := Runs (R k)) (fun _ e ht => h.takeWithin k e.2 ht) _ _ hs
  · exact hs

theorem StartRuns.stage (h : StartRuns R) (k : Nat) (during : List (Fin 7 × StartUpEvent)) (i : Fin 7) {act : State → State}
    (hact : ∀ u, u.phase = .starting → R k u → R (k + 1) (act u)) (hphase : ∀ u, (act u).phase = u.phase) (hs : Runs (R k) s) :
    Runs (R (k + 1)) (s.stage during i act) := by
  unfold State.stage
  obtain ⟨hp, hs⟩ | hs := hs
  · rw [if_pos hp]
    exact h.gap (k + 1) during i (.inl ⟨(hphase s).trans hp, hact s hp hs⟩)
  · rw [if_neg (by rw [hs.phase]; exact nofun)]
    exact .inr hs

theorem State.startPolicies_tidy (s : State) : Tidy none [] s s.startPolicies := by
  unfold State.startPolicies
  split
  · exact .refl s
  · refine foldl_keeps (P := Tidy none [] s) (fun u m hu => ?_) _ _ (.refl s)
    unfold State.startPolicy
    split
    · exact (hu.trans (u.applyPolicy_tidy m)).trans (State.settle_tidy _)
    · exact hu

theorem State.publishAll_phase (s : State) : s.publishAll.deliver.phase = s.phase := by
  rw [State.deliver_eq]
  unfold State.publishAll
  rfl

/-- Start-up reaches its last step, or is abandoned. -/
theorem StartRuns.startUp (h : StartRuns R) (answered : Bool) (during : List (Fin 7 × StartUpEvent)) (first : R 0 (s.distribute answered)) :
    (∃ v : State, v.phase = .starting ∧ R 6 v ∧ s.startUp answered during = v.startReaders) ∨ (s.startUp answered during).abandoned := by
  have h0 := h.gap 0 during 0 (.inl ⟨State.distribute_phase answered s, first⟩)
  have h1 := h.stage 0 during 1 (act := State.raiseBoth srcLoadDone) h.told
    (fun _ => rfl) h0
  have h2 := h.stage 1 during 2 (act := State.startBays) h.bays State.startBays_phase h1
  have h3 := h.stage 2 during 3 (act := fun u => u.accountUpdate.settle) h.account
    (fun u => (u.accountUpdate_tidy.trans (State.settle_tidy _)).phase) h2
  have h4 := h.stage 3 during 4 (act := State.startPolicies) h.policies
    (fun u => u.startPolicies_tidy.phase) h3
  have h5 := h.stage 4 during 5 (act := State.lightEnclosure) h.lit
    (fun u => u.lightEnclosure_tidy.phase) h4
  have h6 := h.stage 5 during 6 (act := fun u => u.publishAll.deliver) h.published State.publishAll_phase h5
  unfold State.startUp
  dsimp only
  generalize State.stage during 6 _ _ = u at h6
  obtain ⟨hp, hu⟩ | hu := h6
  · rw [if_pos hp]
    exact .inl ⟨u, hp, hu, rfl⟩
  · rw [if_neg (by rw [hu.phase]; exact nofun)]
    exact .inr hu

end Sys2Proof.Machine
end

