-- ==== Sys2Proof/Proofs/TablesSound.lean ====
section
/-! The open-slip tables stay sound (R156, R160, R165, R178). -/

namespace Sys2Proof.Machine

variable {s t u : State} {D : List Part} {p : Port}

/-! ### Start-up -/

/-- What the first step of start-up leaves of the readers and the reports. -/
theorem State.distribute_readers (a : Bool) (s : State) : (s.distribute a).readers = s.readers ∧ (s.distribute a).reports = s.reports := by
  unfold State.distribute
  rw [State.startAccount_eq]
  exact ⟨rfl, rfl⟩

/-- With no slip open and no reader waiting, whatever the windows in force. -/
theorem State.tablesSound_of_idle (hp : s.phase ≠ .loading) (h : ∀ p, (s.reader p).state = .idleLoading ∧ (s.reader p).table = []) : s.tablesSound := by
  refine (State.tablesSound_iff hp).2 fun p => ⟨?_, State.waitOk_of_state ?_⟩
  · unfold State.tableOk
    rw [(h p).2]
    exact ⟨Nat.zero_le _, List.nodup_nil, nofun⟩
  · rw [(h p).1]
    exact ⟨nofun, nofun⟩

theorem State.distribute_sound (a : Bool) (hl : s.phase = .loading) (h : s.tablesSound) : (s.distribute a).tablesSound := by
  refine State.tablesSound_of_idle (by rw [State.distribute_phase]; exact nofun) fun p => ?_
  rw [State.reader, (State.distribute_readers a s).1]
  exact (h.2 hl).2 p

/-- The records that finding the bays dirties. -/
def foundParts : List Part := bayNumbers.flatMap bayParts

theorem bayParts_subset (n : BayNo) : bayParts n ⊆ foundParts := fun _ hy => List.mem_flatMap.2 ⟨n, mem_bayNumbers n, hy⟩

theorem State.sampleBay_tidy (s : State) (n : BayNo) : Tidy none (bayParts n) s (s.sampleBay n) := by
  unfold State.sampleBay
  split
  · exact (s.enter_tidy n _ _).trans (State.setOp_tidy _ n _)
  · exact .refl s

theorem State.enterRediscovered_tidy (s : State) (n : BayNo) (st : BayState) : Tidy none (bayParts n) s (s.enterRediscovered n st) := by
  unfold State.enterRediscovered
  split
  · exact ((s.enter_tidy n _ _).trans (State.enter_tidy _ n _ _)).trans (State.withFeeds_tidy _ _)
  · exact ((s.enter_tidy n _ _).trans (State.countTrip_tidy _ n)).trans (State.beginRetry_tidy _ n)
  · exact s.enter_tidy n _ _

theorem State.rediscover_tidy (s : State) (n : BayNo) : Tidy none (bayParts n) s (s.rediscover n) := by
  unfold State.rediscover
  split
  · exact ((s.enterRediscovered_tidy n _).trans (State.setFlags_tidy _ n _)).then (State.deriveLights_tidy _ n)
  · exact s.putLine_tidy n _

theorem State.startBays_tidy (s : State) : Tidy none foundParts s s.startBays := by
  unfold State.startBays
  split
  · exact foldl_keeps (P := Tidy none foundParts s) (fun u n h => h.trans ((u.sampleBay_tidy n).mono (bayParts_subset n))) _ _ (.refl s)
  · exact foldl_keeps (P := Tidy none foundParts s) (fun u n h => h.trans ((u.rediscover_tidy n).mono (bayParts_subset n))) _ _ (.refl s)

theorem State.publishAll_readers (s : State) : s.publishAll.readers = s.readers ∧ s.publishAll.windows = s.windows ∧ s.publishAll.phase = s.phase ∧
    s.publishAll.reports = s.reports := by
  unfold State.publishAll
  exact ⟨rfl, rfl, rfl, rfl⟩

/-- The tables rest on the readers, the windows and the phase. -/
theorem State.tablesSound_of_eq (hr : t.readers = s.readers) (hw : t.windows = s.windows) (hp : t.phase = s.phase) (h : s.tablesSound) :
    t.tablesSound := by
  have hreader : ∀ p, t.reader p = s.reader p := fun p => by rw [State.reader, hr]; rfl
  have hlink : ∀ p a, t.linkValid p a = s.linkValid p a := fun p a => by
    rw [Bool.eq_iff_iff, State.linkValid_free_iff, State.linkValid_free_iff, hw, hreader]
  unfold State.tablesSound State.openAt at h ⊢
  simp only [hreader, hlink, hw, hp]
  exact h

theorem tables_startRuns : StartRuns fun _ => State.tablesSound where
  within _ _ _ _ h := h.tables
  told s _ h := (s.raiseBoth_tidy _ : Tidy none [] s _).sound h
  bays s _ h := s.startBays_tidy.sound h
  account s _ h := (s.accountUpdate_tidy.trans (State.settle_tidy _)).sound h
  policies s _ h := s.startPolicies_tidy.sound h
  lit s _ h := s.lightEnclosure_tidy.sound h
  published s _ h := by
    obtain ⟨hr, hw, hp, -⟩ := s.publishAll_readers
    exact (State.deliver_tidy _).sound (State.tablesSound_of_eq hr hw hp h)

theorem State.startReader_sound (hp : s.phase ≠ .loading) (h : s.tablesSound) (p : Port) : (s.startReader p).tablesSound := by
  have hwalking : s.walking p := State.walking_of_sound hp h
  unfold State.startReader
  split
  · obtain ⟨hrest, hwait⟩ := State.rest_walking hwalking .disabled 0 (by decide)
    exact (State.pubReader_tidy _ p).1.sound (State.walking_sound hrest hwait)
  · exact State.walkFrom_sound hwalking _ nofun

theorem State.startReaders_sound (hp : s.phase = .starting) (h : s.tablesSound) : s.startReaders.tablesSound := by
  have hrun : ({ s with phase := .running } : State).tablesSound := by
    have hiff := (State.tablesSound_iff (s := s) (by rw [hp]; exact nofun)).1 h
    exact (State.tablesSound_iff (s := { s with phase := .running }) nofun).2 hiff
  unfold State.startReaders
  generalize hv : ({ s with phase := .running } : State) = v at hrun
  have hphase : v.phase ≠ .loading := by rw [← hv]; exact nofun
  have ha := State.startReader_carried hphase .a
  exact (State.close_tidy _).sound (State.startReader_sound (by rw [ha.phase]; exact hphase) (State.startReader_sound hphase hrun .a) .b)

theorem State.startUp_sound (hl : s.phase = .loading) (h : s.tablesSound) (a : Bool) (during : List (Fin 7 × StartUpEvent)) :
    (s.startUp a during).tablesSound := by
  obtain ⟨v, hp, hv, heq⟩ | habandoned := tables_startRuns.startUp a during (State.distribute_sound a hl h)
  · rw [heq]
    exact State.startReaders_sound hp hv
  · exact habandoned.tables

/-- Settles O9, by what each command concludes: a slip is opened only where a link is valid and the table has room, a reader waits only at a valid
link, and a window moves only with its table empty. -/
theorem tablesStaySound : Obligations.TablesStaySound := by
  intro s t hs h
  obtain hdone | ⟨p, addr, count, rest, -, hread⟩ | ⟨c, rest, -, hc, hexec⟩ := step_concluded h
  · exact hdone.tables hs
  · exact hread.tables hs
  · cases c <;> simp only [ordinary, not_true_eq_false] at hc
    · obtain rfl := Host.Outcome.next.inj hexec
      exact State.loading_tablesSound _ _
    · obtain rfl := Host.Outcome.next.inj hexec
      exact State.loading_tablesSound _ _
    · rename_i run
      obtain rfl := Host.Outcome.next.inj hexec
      split
      · rename_i hl
        exact State.startUp_sound hl hs run.answered run.during
      · exact hs

end Sys2Proof.Machine
end

