-- ==== Sys2Proof/Proofs/RecordsPublished.lean ====
section
/-! The records stay published and marked, and no report is left (R166 to R168, R10, R37, R46, R63). -/

namespace Sys2Proof.Machine

variable {s t u : State} {D : List Part} {p : Port}

/-! ### The summary record by its fields -/

/-- A summary record gives what its owners hold exactly when it is the record that would be published, but for its time and its generation. -/
theorem State.summed_iff (x : Summary) : s.summed x ↔ x = { s.summarySnap x.gen with time := x.time } := by
  have hsnap := s.summarySnap_summed x.gen
  constructor
  · intro h
    obtain ⟨straps, ⟨origin, cause⟩, ⟨u12, u5, c12, c5, fan⟩, ⟨ov, unres, redun⟩, ⟨o12, o5⟩, ⟨spin, queued⟩, ⟨c, cp, dr, dc, dem, lost, fl⟩, ch⟩ := h
    obtain ⟨straps', ⟨origin', cause'⟩, ⟨u12', u5', c12', c5', fan'⟩, ⟨ov', unres', redun'⟩, ⟨o12', o5'⟩, ⟨spin', queued'⟩,
      ⟨k, kp, kr, kc, kem, kost, kl⟩, kh⟩ := hsnap
    have haccount : x.account = s.accountSummary := by
      have h12 := Bool.eq_iff_iff.2 (o12.trans o12'.symm)
      have h5 := Bool.eq_iff_iff.2 (o5.trans o5'.symm)
      generalize hA : s.accountSummary = A
      have hA' : (s.summarySnap x.gen).account = A := hA
      rw [hA'] at u12' u5' c12' c5' fan' ov' unres' redun' spin' queued' h12 h5
      cases hx : x.account
      rw [hx] at u12 u5 c12 c5 fan ov unres redun spin queued h12 h5
      cases A
      simp only [AccountSummary.mk.injEq]
      exact ⟨u12.trans u12'.symm, u5.trans u5'.symm, c12.trans c12'.symm, c5.trans c5'.symm, fan.trans fan'.symm, ov.trans ov'.symm, h12, h5,
        unres.trans unres'.symm, redun.trans redun'.symm, spin.trans spin'.symm, queued.trans queued'.symm⟩
    have hcheck : x.cooling.check = s.coolingSummary.check := by
      unfold State.coolingSummary
      cases hk : s.fans.check with
      | none => exact ch.1 hk
      | some k => exact ch.2 k hk
    have hcooling : x.cooling = s.coolingSummary := by
      cases hx : x.cooling
      rw [hx] at c cp dr dc dem lost fl hcheck
      simp only [State.coolingSummary, CoolingSummary.mk.injEq]
      exact ⟨c, cp, dr, dc, dem, lost, fl, hcheck⟩
    cases x
    simp only at straps origin cause haccount hcooling
    simp only [State.summarySnap, straps, origin, cause, haccount, hcooling]
  · intro h
    rw [h]
    exact { hsnap with }

/-! ### The records stand -/

/-- With the summary not held back, its two parts stand exactly when the record gives what its owners hold. -/
theorem State.stands_summary (hheld : s.reports.summaryHeld = false) :
    (s.stands .account ∧ s.stands .cooling) ↔ ∃ x, s.status.summary = some x ∧ s.summed x := by
  unfold State.stands
  dsimp only
  rw [hheld]
  simp only [Bool.false_eq_true, false_or, Option.map_eq_some_iff, Prod.mk.injEq]
  constructor
  · rintro ⟨⟨x, hx, haccount⟩, ⟨y, hy, hcooling, horigin, hcause, hstraps⟩⟩
    obtain rfl : x = y := Option.some.inj (hx.symm.trans hy)
    refine ⟨x, hx, (s.summed_iff x).2 ?_⟩
    cases x
    simp only [State.summarySnap] at *
    simp only [haccount, hcooling, horigin, hcause, hstraps]
  · rintro ⟨x, hx, hsummed⟩
    have h := (s.summed_iff x).1 hsummed
    exact ⟨⟨x, hx, by rw [h]; rfl⟩, ⟨x, hx, by rw [h]; exact ⟨rfl, rfl, rfl, rfl⟩⟩⟩

theorem State.recorded_iff (hheld : s.reports.summaryHeld = false) : s.recorded ↔ ∀ y, s.stands y := by
  constructor
  · intro h y
    have hsum := (State.stands_summary hheld).2 h.summary
    cases y with
    | bay n => exact h.bays n
    | light n => exact h.lights n
    | fan i => exact h.fans i
    | supply i => exact h.supplies i
    | zone z => exact h.zones z
    | sensor i => exact h.sensors i
    | account => exact hsum.1
    | cooling => exact hsum.2
    | queue => exact h.queue
    | enclosure => exact h.enclosure
    | reader p => exact h.readers p
    | attention p => exact h.attention p
  · intro h
    exact ⟨fun n => h (.bay n), fun n => h (.light n), fun i => h (.fan i), fun i => h (.supply i), fun z => h (.zone z), fun i => h (.sensor i),
      (State.stands_summary hheld).1 ⟨h .account, h .cooling⟩, h .queue, h .enclosure, fun p => h (.reader p), fun p => h (.attention p)⟩

/-- Where every record stands published, every change of one is published. -/
theorem State.live_of_recorded (hp : s.phase ≠ .loading) (h : s.recorded) : s.live where
  publishing := by
    unfold State.publishing
    rw [bne_iff_ne]
    exact hp
  summary := by
    obtain ⟨x, hx, -⟩ := h.summary
    rw [hx]
    exact nofun
  enclosure := by rw [h.enclosure]; exact nofun
  lights n hn := by rw [h.lights n hn]; exact nofun

/-- Work that leaves no record dirty keeps the published state. -/
theorem Tended.published (h : Tended D s t) (late : s.late = [] → t.late = []) (hD : s.phase = .running → D = []) (hs : s.published) : t.published := by
  obtain ⟨hlate, hheld, hrec⟩ := hs
  refine ⟨late hlate, h.held.trans hheld, fun hrun => ?_⟩
  have hsrun : s.phase = .running := h.phase.symm.trans hrun
  have hsrec := hrec hsrun
  have hlive := State.live_of_recorded (by rw [hsrun]; exact nofun) hsrec
  refine (State.recorded_iff (h.held.trans hheld)).2 fun y => h.stands hlive y ?_ ((State.recorded_iff hheld).1 hsrec y)
  rw [hD hsrun]
  exact List.not_mem_nil

/-! ### Start-up publishes every record -/

/-- Through start-up the summary is not held back; from its step 7 on every record stands but perhaps the readers'. -/
def StartRecorded (k : Nat) (s : State) : Prop :=
  s.reports.summaryHeld = false ∧ (6 ≤ k → s.live ∧ ∀ y, y ∉ [Part.reader .a, Part.reader .b] → s.stands y)

/-- The status area with every record published. -/
structure FullyPublished (s : State) (x : Status) : Prop where
  bays      : ∀ n : BayNo, x.bays[n] = some { record := (s.bay n).record, set := s.baySet n }
  lights    : ∀ n : BayNo, s.inCount n = true → x.lights[n] = some (s.lightSnap n)
  fans      : ∀ i : Fin 6, x.fans[i] = some s.fans.fans[i].record
  supplies  : ∀ i : Fin 4, x.supplies[i] = some { supply := s.account.supplies[i], set := s.settings.supplies[i] }
  zones     : ∀ z : Fin 4, x.zones[z] = some { zone := s.zones[z], set := s.settings.zones[z], staleTime := s.settings.staleTime }
  sensors   : ∀ i : Fin 8, x.sensors[i] = some { sensor := s.sensors[i], set := s.settings.sensors[i] }
  summary   : x.summary = some (s.summarySnap 0)
  queue     : x.queue = some { bays := s.scheduler.queue.map (·.bay), hold := s.scheduler.hold, schedule := s.settings.schedule,
                               last := s.scheduler.lastAdmission, gen := s.scheduler.gen }
  enclosure : x.enclosure = some { light := s.lights.enclosure, patterns := s.settings.patterns }
  readers   : ∀ p, x.readers.get p = some (s.reader p)
  attention : ∀ p, x.attention.get p = some { unit := s.attention.get p, config := s.settings.attention.get p }

theorem State.publishAll_full (s : State) : s.publishAll = { s with status := s.publishAll.status } ∧ FullyPublished s s.publishAll.status := by
  unfold State.publishAll
  refine ⟨rfl, ⟨fun n => Vector.getElem_ofFn _, fun n hin => ?_, fun i => Vector.getElem_map _ _, fun i => Vector.getElem_ofFn _,
    fun z => Vector.getElem_ofFn _, fun i => Vector.getElem_ofFn _, rfl, rfl, rfl, fun p => by cases p <;> rfl, fun p => by cases p <;> rfl⟩⟩
  dsimp only
  rw [Fin.getElem_fin, Vector.getElem_ofFn, if_pos hin]

/-- Under a status area with every record published, every record stands. -/
theorem FullyPublished.stands {x : Status} (h : FullyPublished s x) (y : Part) : ({ s with status := x } : State).stands y := by
  unfold State.stands
  cases y with
  | bay n =>
    show (x.bays[n]).map _ = _
    rw [h.bays]
    rfl
  | light n => exact h.lights n
  | fan i => exact h.fans i
  | supply i => exact h.supplies i
  | zone z => exact h.zones z
  | sensor i => exact ⟨s.sensors[i].fails, s.sensors[i].goodAt, h.sensors i⟩
  | account =>
    right
    show x.summary.map _ = some s.accountSummary
    rw [h.summary]
    rfl
  | cooling =>
    right
    show x.summary.map _ = some (s.coolingSummary, s.origin, s.cause, s.straps)
    rw [h.summary]
    rfl
  | queue => exact h.queue
  | enclosure => exact h.enclosure
  | reader p => exact h.readers p
  | attention p => exact h.attention p

theorem State.publishAll_stands (s : State) (hp : s.phase = .starting) : s.publishAll.live ∧ ∀ y, s.publishAll.stands y := by
  obtain ⟨heq, hfull⟩ := s.publishAll_full
  rw [heq]
  generalize s.publishAll.status = x at hfull
  refine ⟨⟨?_, ?_, ?_, fun n hn => ?_⟩, hfull.stands⟩
  · show (s.phase != .loading) = true
    rw [hp]
    rfl
  · show x.summary ≠ none
    rw [hfull.summary]
    exact nofun
  · show x.enclosure ≠ none
    rw [hfull.enclosure]
    exact nofun
  · show x.lights[n] ≠ none
    rw [hfull.lights n hn]
    exact nofun

theorem recorded_startRuns : StartRuns StartRecorded where
  within k s t _ h hs := ⟨h.tended.held.trans hs.1, fun hk => ⟨h.tended.live (hs.2 hk).1,
    fun y hy => h.tended.stands (hs.2 hk).1 y hy ((hs.2 hk).2 y hy)⟩⟩
  told s _ h := ⟨h.1, fun hk => absurd hk (by decide)⟩
  bays s _ h := ⟨s.startBays_tidy.held.trans h.1, fun hk => absurd hk (by decide)⟩
  account s _ h := ⟨(s.accountUpdate_tidy.trans (State.settle_tidy _)).held.trans h.1, fun hk => absurd hk (by decide)⟩
  policies s _ h := ⟨s.startPolicies_tidy.held.trans h.1, fun hk => absurd hk (by decide)⟩
  lit s _ h := ⟨s.lightEnclosure_tidy.held.trans h.1, fun hk => absurd hk (by decide)⟩
  published s hp h := by
    obtain ⟨hlive, hstands⟩ := s.publishAll_stands hp
    have htold := State.deliver_tidy s.publishAll
    refine ⟨htold.held.trans ?_, fun _ => ⟨htold.live hlive, fun y _ => htold.stands hlive y List.not_mem_nil (hstands y)⟩⟩
    rw [s.publishAll_readers.2.2.2]
    exact h.1

/-- A reader started publishes its record (R165, R169). -/
theorem State.startReader_brief (s : State) (p : Port) : Brief [] s (s.startReader p) ∧ (s.live → (s.startReader p).stands (.reader p)) := by
  have hpub : ∀ v : State, Brief [.reader p] s v → Brief [] s (v.pubReader p) ∧ (s.live → (v.pubReader p).stands (.reader p)) := fun v hv =>
    ⟨hv.publish (v.pubReader_tidy p).1 (v.pubReader_tidy p).2, fun hl => (v.pubReader_tidy p).2 (hv.toTended.live hl)⟩
  unfold State.startReader
  split
  · exact hpub _ (s.putReader_brief p _)
  · exact hpub _ (s.walk_brief p _ _)

theorem State.startReaders_published (h : StartRecorded 6 s) : s.startReaders.published := by
  obtain ⟨hheld, hrest⟩ := h
  obtain ⟨hlive, hstands⟩ := hrest (Nat.le_refl _)
  have hrun : ({ s with phase := .running } : State).live ∧
      ∀ y, y ∉ [Part.reader .a, Part.reader .b] → ({ s with phase := .running } : State).stands y :=
    ⟨⟨rfl, hlive.summary, hlive.enclosure, hlive.lights⟩, fun y hy => by
      have hy := hstands y hy
      cases y <;> exact hy⟩
  have hrunHeld : ({ s with phase := .running } : State).reports.summaryHeld = false := hheld
  unfold State.startReaders
  generalize ({ s with phase := .running } : State) = v at hrun hrunHeld
  obtain ⟨hvlive, hvstands⟩ := hrun
  obtain ⟨ha, hreadA⟩ := v.startReader_brief .a
  have halive := ha.toTended.live hvlive
  obtain ⟨hb, hreadB⟩ := (v.startReader .a).startReader_brief .b
  have hblive := hb.toTended.live halive
  have hclosed := State.close_tidy ((v.startReader .a).startReader .b)
  have hbstands : ∀ y, ((v.startReader .a).startReader .b).stands y := fun y => by
    by_cases hyb : y = .reader .b
    · exact hyb ▸ hreadB halive
    · refine hb.stands halive y List.not_mem_nil ?_
      by_cases hya : y = .reader .a
      · exact hya ▸ hreadA hvlive
      · exact ha.stands hvlive y List.not_mem_nil (hvstands y (by simp [hya, hyb]))
  have hend := (hclosed.held.trans (hb.held.trans ha.held)).trans hrunHeld
  exact ⟨State.close_late _, hend, fun _ => (State.recorded_iff hend).2 fun y => hclosed.stands hblive y List.not_mem_nil (hbstands y)⟩

theorem State.abandoned_published (h : s.abandoned) : s.published :=
  ⟨h.late, h.held, fun hrun => by rw [h.phase] at hrun; cases hrun⟩

theorem State.startUp_published (hs : s.published) (a : Bool) (during : List (Fin 7 × StartUpEvent)) : (s.startUp a during).published := by
  have hfirst : StartRecorded 0 (s.distribute a) := ⟨by rw [(State.distribute_readers a s).2]; exact hs.2.1, fun hk => absurd hk (by decide)⟩
  obtain ⟨v, -, hv, heq⟩ | habandoned := recorded_startRuns.startUp a during hfirst
  · rw [heq]
    exact State.startReaders_published hv
  · exact State.abandoned_published habandoned

theorem step_published (hs : s.published) (h : step s = .next t) : t.published := by
  obtain hdone | ⟨p, addr, count, rest, -, hread⟩ | ⟨c, rest, -, hc, hexec⟩ := step_concluded h
  · exact hdone.kempt.toTended.published hdone.late (fun hrun => if_neg (by rw [hrun]; exact nofun)) hs
  · exact hread.tended.published (fun hl => hread.kept.1.trans hl) (fun _ => rfl) hs
  · have hfetched : ({ s with pending := rest } : State).published :=
      (s.fetched_tidy rest : Tidy none [] s _).kempt.toTended.published id (fun _ => rfl) hs
    cases c <;> simp only [ordinary, not_true_eq_false] at hc
    · obtain rfl := Host.Outcome.next.inj hexec
      exact State.abandoned_published (State.loading_abandoned _ _)
    · obtain rfl := Host.Outcome.next.inj hexec
      exact State.abandoned_published (State.loading_abandoned _ _)
    · rename_i run
      obtain rfl := Host.Outcome.next.inj hexec
      split
      · exact State.startUp_published hfetched run.answered run.during
      · exact hfetched

/-! ### No report is left -/

/-- Through start-up the queue is sound and no bay is asked to be shed; up to its third step every bay is EMPTY. -/
def StartQuiet (k : Nat) (s : State) : Prop := s.queueSound ∧ s.reports.thermal = [] ∧ (k ≤ 1 → ∀ n, (s.sits n).1 = .empty)

/-- A step of start-up past the finding of the bays. -/
theorem StartQuiet.step {k : Nat} (hk : 2 ≤ k) {m : Nat} (h : StartQuiet m s) (carried : Carried s t) (thermal : t.reports.thermal.length ≤ s.reports.thermal.length) :
    StartQuiet k t := by
  refine ⟨carried.queue h.1, ?_, fun hle => absurd hle (by omega)⟩
  rw [h.2.1] at thermal
  exact List.length_eq_zero_iff.1 (Nat.le_zero.1 thermal)

theorem quiet_startRuns : StartRuns StartQuiet where
  within k s t hp h hs := ⟨h.carried.queue hs.1, by rw [h.reports]; exact hs.2.1,
    fun hk n => by rw [h.carried.empties (by rw [hp]; exact nofun) hs.1 (hs.2.2 hk)]; exact hs.2.2 hk n⟩
  told s hp h := ⟨(s.raiseBoth_carried srcLoadDone).queue h.1, h.2.1, fun _ => h.2.2 (Nat.zero_le _)⟩
  bays s hp h := by
    refine ⟨State.startBays_queueSound hp h.1 (h.2.2 (Nat.le_refl _)), ?_, fun hk => absurd hk (by decide)⟩
    have := s.startBays_tidy.thermal
    rw [h.2.1] at this
    exact List.length_eq_zero_iff.1 (Nat.le_zero.1 this)
  account s hp h := h.step (by decide) (State.accountStep_carried hp) (s.accountUpdate_tidy.trans (State.settle_tidy _)).thermal
  policies s hp h := h.step (by decide) (State.startPolicies_carried hp) s.startPolicies_tidy.thermal
  lit s hp h := h.step (by decide) s.lightEnclosure_carried s.lightEnclosure_tidy.thermal
  published s hp h := h.step (by decide) (s.publishAll_carried.trans (State.deliver_carried _)) (by
    rw [State.deliver_reports, s.publishAll_readers.2.2.2])

theorem State.startReaders_quiet (h : StartQuiet 6 s) : s.startReaders.quiet := by
  obtain ⟨hqueue, hthermal, -⟩ := h
  have hrunQueue := State.queueSound_running hqueue
  have hrunThermal : ({ s with phase := .running } : State).reports.thermal = [] := hthermal
  have hphase : ({ s with phase := .running } : State).phase ≠ .loading := nofun
  unfold State.startReaders
  generalize ({ s with phase := .running } : State) = v at hrunQueue hrunThermal hphase
  have ha := State.startReader_carried hphase .a
  have hb := State.startReader_carried (s := v.startReader .a) (by rw [ha.phase]; exact hphase) .b
  refine State.close_settled (hb.queue (ha.queue hrunQueue)) ?_
  refine ((State.startReader_brief _ .b).1.thermal.trans (v.startReader_brief .a).1.thermal).trans ?_
  rw [hrunThermal]
  exact Nat.zero_le _

theorem State.startUp_quiet (hl : s.phase = .loading) (hq : s.queueSound) (hs : s.quiet) (a : Bool) (during : List (Fin 7 × StartUpEvent)) :
    (s.startUp a during).quiet := by
  have hfirst : StartQuiet 0 (s.distribute a) :=
    ⟨State.distribute_queueSound a hq, by rw [(State.distribute_readers a s).2]; exact hs.2.2.2,
      fun _ n => by rw [State.distribute_sits]; exact (State.load_empty hq hl).1 n⟩
  obtain ⟨v, -, hv, heq⟩ | habandoned := quiet_startRuns.startUp a during hfirst
  · rw [heq]
    exact State.startReaders_quiet hv
  · exact habandoned.quiet

theorem step_quiet (hq : s.queueSound) (hs : s.quiet) (h : step s = .next t) : t.quiet := by
  obtain hdone | ⟨p, addr, count, rest, -, hread⟩ | ⟨c, rest, -, hc, hexec⟩ := step_concluded h
  · exact hdone.quiet hq hs
  · exact State.quiet_of_reports hread.kept.2 hs
  · have hfetched : ({ s with pending := rest } : State).queueSound ∧ ({ s with pending := rest } : State).quiet :=
      ⟨(State.fetched_carried rest).queue hq, hs⟩
    cases c <;> simp only [ordinary, not_true_eq_false] at hc
    · obtain rfl := Host.Outcome.next.inj hexec
      exact (State.loading_abandoned _ _).quiet
    · obtain rfl := Host.Outcome.next.inj hexec
      exact (State.loading_abandoned _ _).quiet
    · rename_i run
      obtain rfl := Host.Outcome.next.inj hexec
      split
      · rename_i hl
        exact State.startUp_quiet hl hfetched.1 hfetched.2 run.answered run.during
      · exact hfetched.2

/-! ### The marks (R168) -/

/-- A step of the running part marks what it moves; only a READ clears, and only what it serves. -/
theorem step_marked (hrun : s.phase = .running) (h : step s = .next t) (hrun' : t.phase = .running) :
    s.status.marked t.status ∧
      ∀ (p : Port) (k : Nat), (s.status.bitmaps.get p).getLsbD k = true → (t.status.bitmaps.get p).getLsbD k = false →
        ∃ (addr : Half) (count : Nat) (rest : List Instr), s.pending = .read p addr count :: rest ∧
          addr.toNat ≤ bitmapBase p + k / 8 ∧ bitmapBase p + k / 8 < addr.toNat + count := by
  obtain hdone | ⟨p, addr, count, rest, hpending, hread⟩ | ⟨c, rest, -, hc, hexec⟩ := step_concluded h
  · refine ⟨hdone.kempt.carried.1, fun p k hset hclear => ?_⟩
    rw [hdone.kempt.carried.2 p k hset] at hclear
    cases hclear
  · refine ⟨hread.marked, fun q k hset hclear => ?_⟩
    obtain ⟨rfl, hlow, hhigh⟩ := hread.cleared q k hset hclear
    exact ⟨addr, count, rest, hpending, hlow, hhigh⟩
  · cases c <;> simp only [ordinary, not_true_eq_false] at hc
    · obtain rfl := Host.Outcome.next.inj hexec
      cases hrun'
    · obtain rfl := Host.Outcome.next.inj hexec
      cases hrun'
    · rename_i run
      obtain rfl := Host.Outcome.next.inj hexec
      have hnot : ¬ ({ s with pending := rest } : State).phase = .loading := by
        show ¬ s.phase = .loading
        rw [hrun]
        exact nofun
      rw [if_neg hnot]
      exact ⟨(Status.carried_refl _).1, fun p k hset hclear => by
        have : (s.status.bitmaps.get p).getLsbD k = false := hclear
        rw [hset] at this
        cases this⟩

/-- Settles O12, by what each command concludes: every record that a piece of work moves it publishes and marks, and every handling ends in acting
on its reports and handing on its events. -/
theorem recordsStayPublished : Obligations.RecordsStayPublished := by
  refine ⟨fun s t hs h => step_published hs h, fun s t hq hs h => step_quiet hq hs h, fun s t hrun h hrun' => ?_⟩
  obtain ⟨hmarked, hcleared⟩ := step_marked hrun h hrun'
  refine ⟨hmarked, fun p k hset hclear => ?_⟩
  cases p
  · exact hcleared .a k hset hclear
  · exact hcleared .b k hset hclear

end Sys2Proof.Machine
end

