-- ==== Sys2Proof/Proofs/StartSteps.lean ====
section
/-! SUPPORT. Start-up's steps one by one: what the first sets from the load, what the third makes of each bay, and what acting on reports
leaves within them (R29, R30, R31, R125, R147, R179). -/

namespace Sys2Proof.Machine

variable {s t u : State} {n : BayNo} {l : BayLines}

/-! ### The load, and the first step (R179) -/

/-- The part at a moment of the settings load of a reset. -/
def State.loadAt (k : ResetKind) (w : Surroundings) (now : Time) : State := { State.loading k w with time := now }

/-- The first step moves the account, the events, the units and the windows from the settings loaded. -/
theorem State.distribute_eq (a : Bool) (s : State) : s.distribute a =
    { (s.loadSettings a).startUnits with
      account := (s.distribute a).account, late := (s.distribute a).late, windows := (s.distribute a).windows } := by
  unfold State.distribute
  rw [State.startAccount_eq]
  rfl

theorem State.distribute_account (a : Bool) (s : State) :
    (s.distribute a).account = { (s.loadSettings a).sampleSupplies.figures with committed12 := 0, committed5 := 0 } :=
  (s.loadSettings a).startAccount_account

theorem State.distribute_late (a : Bool) (s : State) (h : s.account.redundancyLost = false) : (s.distribute a).late =
    if (s.distribute a).account.redundancyLost then s.late ++ [(.a, srcPower), (.b, srcPower)] else s.late :=
  State.startAccount_late (s := s.loadSettings a) h

/-- The windows that the first step puts in force, port A's first (R147). -/
theorem State.distribute_windows (a : Bool) (s : State) (h : s.windows = ⟨none, none⟩) :
    (s.distribute a).windows =
      ⟨windowOf (s.loadSettings a).settings.windows.a,
        ({ s.loadSettings a with windows := ⟨windowOf (s.loadSettings a).settings.windows.a, none⟩ } : State).validWindow .b⟩ := by
  have hfirst : (s.loadSettings a).validWindow .a = windowOf (s.loadSettings a).settings.windows.a := by
    have hnone : (s.loadSettings a).windows = ⟨none, none⟩ := h
    unfold State.validWindow
    rw [hnone]
    rw [if_pos (show (s.loadSettings a).portStrapped .a = true from rfl)]
    show _ = windowOf ((s.loadSettings a).settings.windows.get .a)
    cases windowOf ((s.loadSettings a).settings.windows.get .a) <;> rfl
  unfold State.distribute State.startWindows
  rw [State.startAccount_eq]
  refine congrArg₂ PerPort.mk hfirst ?_
  dsimp only
  exact congrArg (fun x => ({ s.loadSettings a with windows := ⟨x, none⟩ } : State).validWindow .b) hfirst

/-- The valid window of port B beside one in force (R147). -/
theorem State.validWindow_b (s : State) : s.validWindow .b =
    if s.straps.portB then
      (match windowOf s.settings.windows.b with
        | none => none
        | some v => if ∃ o, s.windows.a = some o ∧ v.base < o.base + o.size ∧ o.base < v.base + v.size then none else some v)
    else none := by
  unfold State.validWindow
  show (if s.straps.portB then _ else _) = _
  split
  · show (match windowOf s.settings.windows.b, s.windows.a with | none, _ => none | some v, none => some v | some v, some o => _) = _
    cases windowOf s.settings.windows.b with
    | none => rfl
    | some v =>
      cases s.windows.a with
      | none => simp
      | some o => simp [Window.overlaps]
  · rfl

/-- The state that a slot's inputs give it (R31). -/
theorem State.sampledSupply_state (s : State) (i : Fin 4) : (s.sampledSupply i).state =
    if s.settings.supplies[i].cap12 = 0 ∧ s.settings.supplies[i].cap5 = 0 ∨ s.supplyLines[i].present = false then .absent
    else if s.supplyLines[i].good then .good else .failed := by
  have hunfit : s.settings.supplies[i].fitted = true ↔ ¬ (s.settings.supplies[i].cap12 = 0 ∧ s.settings.supplies[i].cap5 = 0) := by
    simp only [SupplySetting.fitted, Bool.not_eq_true', Bool.and_eq_false_iff, decide_eq_false_iff_not, not_and_or]
  unfold State.sampledSupply
  dsimp only
  by_cases hf : s.settings.supplies[i].fitted = true
  · rw [if_pos hf]
    dsimp only [supplyStateOf]
    by_cases hp : s.supplyLines[i].present = true
    · have hfed : ¬ (s.settings.supplies[i].cap12 = 0 ∧ s.settings.supplies[i].cap5 = 0 ∨ s.supplyLines[i].present = false) :=
        fun h => h.elim (hunfit.1 hf) fun h => absurd (hp.symm.trans h) (by decide)
      rw [if_pos hp, if_neg hfed]
    · rw [if_neg hp, if_pos (.inr (Bool.eq_false_iff.2 hp))]
  · rw [if_neg hf, if_pos (.inl (by simpa using mt hunfit.2 hf))]

/-! ### The bays found (R29, R30) -/

/-- A bay with its lines and its feed. -/
def State.stall (s : State) (n : BayNo) : Bay × BayLines × BayFeed := (s.bay n, s.line n, s.feed n)

/-- What the finding of the bays leaves: all but bays, lines, feeds, bay lights and the reports a bay's change makes. -/
structure Swept (s u : State) : Prop where
  outer     : u.outer = s.outer
  account   : u.account = s.account
  scheduler : u.scheduler = s.scheduler
  late      : u.late = s.late
  attention : u.attention = s.attention
  readers   : u.readers = s.readers
  ram       : u.ram = s.ram
  enclosure : u.lights.enclosure = s.lights.enclosure
  thermal   : u.reports.thermal = s.reports.thermal
  held      : u.reports.summaryHeld = s.reports.summaryHeld
  run       : s.account.overCommitted = false → u.reports.run = s.reports.run

theorem Swept.refl (s : State) : Swept s s := ⟨rfl, rfl, rfl, rfl, rfl, rfl, rfl, rfl, rfl, rfl, fun _ => rfl⟩

theorem Swept.trans (h : Swept s t) (k : Swept t u) : Swept s u where
  outer := k.outer.trans h.outer
  account := k.account.trans h.account
  scheduler := k.scheduler.trans h.scheduler
  late := k.late.trans h.late
  attention := k.attention.trans h.attention
  readers := k.readers.trans h.readers
  ram := k.ram.trans h.ram
  enclosure := k.enclosure.trans h.enclosure
  thermal := k.thermal.trans h.thermal
  held := k.held.trans h.held
  run ho := (k.run (by rw [h.account]; exact ho)).trans (h.run ho)

theorem State.enter_swept (s : State) (n : BayNo) (st : BayState) (why : Reason) : Swept s (s.enter n st why) :=
  ⟨rfl, rfl, rfl, rfl, rfl, rfl, rfl, rfl, rfl, rfl, fun ho => by
    show (s.reports.run || (st.powered && s.rerunReady)) = s.reports.run
    simp [State.rerunReady, ho]⟩

theorem State.putBay_swept (s : State) (n : BayNo) (b : Bay) : Swept s (s.putBay n b) := ⟨rfl, rfl, rfl, rfl, rfl, rfl, rfl, rfl, rfl, rfl, fun _ => rfl⟩
theorem State.putLine_swept (s : State) (n : BayNo) (l : BayLines) : Swept s (s.putLine n l) :=
  ⟨rfl, rfl, rfl, rfl, rfl, rfl, rfl, rfl, rfl, rfl, fun _ => rfl⟩
theorem State.putFeed_swept (s : State) (n : BayNo) (f : BayFeed) : Swept s (s.putFeed n f) :=
  ⟨rfl, rfl, rfl, rfl, rfl, rfl, rfl, rfl, rfl, rfl, fun _ => rfl⟩

theorem State.beginRetry_swept (s : State) (n : BayNo) : Swept s (s.beginRetry n) := by
  unfold State.beginRetry
  dsimp only
  split <;> exact s.putBay_swept n _

theorem State.deriveLights_swept (s : State) (n : BayNo) : Swept s (s.deriveLights n) := by
  have hencl : (s.deriveLights n).lights.enclosure = s.lights.enclosure := by
    unfold State.deriveLights
    split
    · rfl
    · obtain ⟨g, hg⟩ := State.pubLight_lights (s := s.putLight n _) n
      exact (congrArg Lights.enclosure hg).trans rfl
  have heq := s.deriveLights_eq n
  refine ⟨State.deriveLights_outer s n, ?_, ?_, ?_, ?_, ?_, ?_, hencl, ?_, ?_, fun _ => ?_⟩ <;> rw [heq]

theorem State.enterRediscovered_swept (s : State) (n : BayNo) (st : BayState) : Swept s (s.enterRediscovered n st) := by
  unfold State.enterRediscovered
  split
  · exact ((s.enter_swept n _ _).trans (State.enter_swept _ n _ _)).trans (State.putFeed_swept _ n _)
  · exact ((s.enter_swept n _ _).trans (State.putBay_swept _ n _)).trans (State.beginRetry_swept _ n)
  · exact s.enter_swept n _ _

theorem State.sampleBay_swept (s : State) (n : BayNo) : Swept s (s.sampleBay n) := by
  unfold State.sampleBay
  split
  · exact (s.enter_swept n _ _).trans (State.putBay_swept _ n _)
  · exact .refl s

theorem State.rediscover_swept (s : State) (n : BayNo) : Swept s (s.rediscover n) := by
  unfold State.rediscover
  split
  · exact ((s.enterRediscovered_swept n _).trans (State.putBay_swept _ n _)).trans (State.deriveLights_swept _ n)
  · exact s.putLine_swept n _

theorem State.startBays_swept (s : State) : Swept s s.startBays := by
  unfold State.startBays
  split
  · exact foldl_keeps (P := Swept s) (fun u n h => h.trans (u.sampleBay_swept n)) _ _ (.refl s)
  · exact foldl_keeps (P := Swept s) (fun u n h => h.trans (u.rediscover_swept n)) _ _ (.refl s)

theorem Swept.time (h : Swept s u) : u.time = s.time := congrArg Outer.time h.outer
theorem Swept.settings (h : Swept s u) : u.settings = s.settings := congrArg Outer.settings h.outer
theorem Swept.inCount (h : Swept s u) (n : BayNo) : u.inCount n = s.inCount n :=
  State.inCount_of_straps (congrArg Outer.straps h.outer) n

/-- A bay that the end of a cold reset's load finds seated: SETTLING, with a full settle timer and its operation (R29). -/
def State.settlingBay (s : State) : Bay :=
  { Bay.cold with
    record := { BayRecord.cold with state := .settling, reason := .presence, entered := s.time, op := some (s.internalOp .settle) }
    settleAt := some (Time.plus s.time s.settings.timing.settle) }

/-- Bay n as a warm reset rediscovers it on its lines (R30, Table 1-9). -/
def State.rediscoveredBay (s : State) (n : BayNo) (l : BayLines) : Bay :=
  let st := rediscoveredState l
  { Bay.cold with
    record := { BayRecord.cold with
      state := st, reason := .rediscovered, entered := s.time, c12 := if st = .ready then (s.profileOf n).steady12 else 0
      c5 := if st = .ready ∨ st = .logic then (s.profileOf n).i5 else 0, trips := if st = .faulted then 1 else 0
      flags := { BayFlags.clear with latchOpen := decide (st ≠ .empty) && l.latch }
      op := if st = .faulted ∧ 0 < s.settings.timing.retryLimit then some (s.internalOp .retryWait) else none }
    backoffAt := if st = .faulted ∧ 0 < s.settings.timing.retryLimit
      then some (Time.plus s.time (min 300 s.settings.timing.retryBase * 1000)) else none }

theorem State.sampleBay_stall (h : s.stall n = (.cold, l, .cold)) : (s.sampleBay n).stall n =
    if s.inCount n = true ∧ l.presence = true then (s.settlingBay, l.switched false false, .cold) else (.cold, l, .cold) := by
  obtain ⟨hbay, hrest⟩ := Prod.mk.inj h
  obtain ⟨hline, hfeed⟩ := Prod.mk.inj hrest
  unfold State.sampleBay
  rw [hline]
  split
  · unfold State.enterSettling State.stall
    rw [State.bay_setOp_same, State.bay_enter_same, hbay, State.line_setOp, State.line_enter_same, hline, State.feed_setOp,
      State.feed_enter_apart _ _ _ _ (by decide), hfeed]
    rfl
  · exact h

theorem State.stall_deriveLights (m : BayNo) : (s.deriveLights n).stall m = s.stall m := by
  rw [State.deriveLights_eq]; rfl

theorem State.sampleBay_others (u : State) (n m : BayNo) (h : m ≠ n) : (u.sampleBay n).stall m = u.stall m := by
  unfold State.sampleBay
  split
  · unfold State.enterSettling State.stall
    rw [State.bay_setOp, if_neg h, State.bay_enter, if_neg h, State.line_setOp, State.line_enter, if_neg h, State.feed_setOp,
      State.feed_enter, if_neg h]
  · rfl

theorem rediscoveredState_cases (l : BayLines) : rediscoveredState l ∈ [BayState.empty, .faulted, .ready, .logic, .off] := by
  unfold rediscoveredState
  split
  · decide
  · split
    · decide
    · split
      · decide
      · split <;> decide

theorem State.enterRediscovered_others (u : State) (st : BayState) (n m : BayNo) (h : m ≠ n) : (u.enterRediscovered n st).stall m = u.stall m := by
  have henter (v : State) (st : BayState) (why : Reason) : (v.enter n st why).stall m = v.stall m := by
    unfold State.stall
    rw [State.bay_enter, if_neg h, State.line_enter, if_neg h, State.feed_enter, if_neg h]
  have hput (v : State) (b : Bay) : (v.putBay n b).stall m = v.stall m := by
    unfold State.stall
    rw [State.bay_putBay, if_neg h]; rfl
  unfold State.enterRediscovered
  split
  · refine Eq.trans ?_ ((henter _ .ready .rediscovered).trans (henter u .logic .rediscovered))
    unfold State.stall
    rw [State.feed_putFeed, if_neg h]; rfl
  · have hretry (v : State) : (v.beginRetry n).stall m = v.stall m := by
      unfold State.beginRetry
      dsimp only
      split <;> exact hput _ _
    exact ((hretry _).trans (hput (u.enter n .faulted .rediscovered) _)).trans (henter u .faulted .rediscovered)
  · exact henter u _ _

theorem State.rediscover_others (u : State) (n m : BayNo) (h : m ≠ n) : (u.rediscover n).stall m = u.stall m := by
  unfold State.rediscover
  split
  · dsimp only
    rw [State.stall_deriveLights]
    refine Eq.trans ?_ (u.enterRediscovered_others (rediscoveredState (u.line n)) n m h)
    unfold State.stall
    rw [State.bay_setFlags, if_neg h]; rfl
  · unfold State.stall
    rw [State.line_putLine, if_neg h]; rfl

theorem State.stall_enter (s : State) (n : BayNo) (st : BayState) (why : Reason) : (s.enter n st why).stall n =
    ((s.stall n).1.entering st why s.time s.settings.timing (s.profileOf n), (s.stall n).2.1.follow st, (s.stall n).2.2.follow st s.time) := by
  unfold State.stall
  rw [State.bay_enter, if_pos rfl, State.line_enter, if_pos rfl, State.feed_enter, if_pos rfl]

theorem State.stall_putBay (s : State) (n : BayNo) (b : Bay) : (s.putBay n b).stall n = (b, (s.stall n).2) := by
  unfold State.stall
  rw [State.bay_putBay_same]; rfl

theorem State.stall_putFeed (s : State) (n : BayNo) (f : BayFeed) : (s.putFeed n f).stall n = ((s.stall n).1, (s.stall n).2.1, f) := by
  unfold State.stall
  rw [State.feed_putFeed_same]; rfl

theorem State.stall_setFlags (s : State) (n : BayNo) (f : BayFlags → BayFlags) : (s.setFlags n f).stall n =
    ({ (s.stall n).1 with record := { (s.stall n).1.record with flags := f (s.stall n).1.record.flags } }, (s.stall n).2) :=
  s.stall_putBay n _

/-- A bay with no retry made yet begins a retry wait where the limit allows one (R17, R18). -/
theorem State.stall_beginRetry (s : State) (n : BayNo) (h : (s.stall n).1.record.retries = 0) (hb : (s.stall n).1.backoffAt = none) :
    (s.beginRetry n).stall n =
      ({ (s.stall n).1 with
         record := { (s.stall n).1.record with op := if 0 < s.settings.timing.retryLimit then some (s.internalOp .retryWait) else none }
         backoffAt := if 0 < s.settings.timing.retryLimit then some (Time.plus s.time (min 300 s.settings.timing.retryBase * 1000)) else none },
        (s.stall n).2) := by
  have hr : (s.bay n).record.retries = 0 := h
  have hnone : (s.bay n).backoffAt = none := hb
  unfold State.stall
  rw [State.bay_beginRetry_same, hr, hnone, State.line_beginRetry, State.feed_beginRetry, backoffSeconds, pow_zero, Nat.mul_one]
  rfl

/-- A bay come to a rediscovered state, with its latch read (R30, Table 1-9). -/
theorem State.enterRediscovered_stall (h : s.stall n = (.cold, l, .cold)) :
    ((s.enterRediscovered n (rediscoveredState l)).setFlags n fun f =>
        { f with latchOpen := (rediscoveredState l).fromOff && l.latch }).stall n =
      (s.rediscoveredBay n l,
        { l with sw5 := (rediscoveredState l).powered, sw12 := (rediscoveredState l).spinning
                 trip := l.trip && (rediscoveredState l).powered },
        { BayFeed.cold with spinStart := if rediscoveredState l = .ready then some s.time else none }) := by
  have hcases := rediscoveredState_cases l
  unfold State.rediscoveredBay
  generalize rediscoveredState l = st at hcases
  simp only [List.mem_cons, List.not_mem_nil, or_false] at hcases
  rw [State.stall_setFlags]
  obtain rfl | rfl | rfl | rfl | rfl := hcases
  · dsimp only [State.enterRediscovered]
    rw [State.stall_enter, h]
    rfl
  · dsimp only [State.enterRediscovered]
    have hfaulted : ((s.enter n .faulted .rediscovered).countTrip n).stall n =
        (let b := Bay.entering .faulted .rediscovered s.time s.settings.timing (s.profileOf n) .cold
         { b with record := { b.record with trips := 1 } }, l.follow .faulted, .cold) := by
      refine ((s.enter n .faulted .rediscovered).stall_putBay n _).trans ?_
      rw [State.stall_enter, h, State.bay_enter_same, show s.bay n = .cold from congrArg Prod.fst h]
      rfl
    rw [State.stall_beginRetry _ _ (by rw [hfaulted]; rfl) (by rw [hfaulted]; rfl), hfaulted]
    simp only [true_and]
    rfl
  · dsimp only [State.enterRediscovered]
    rw [State.stall_putFeed, State.stall_enter, State.stall_enter, h, State.feed_enter, if_pos rfl, State.feed_enter, if_pos rfl,
      show s.feed n = .cold from congrArg (fun x => x.2.2) h]
    cases l with
    | mk presence latch trip sw5 sw12 => cases trip <;> rfl
  · dsimp only [State.enterRediscovered]
    rw [State.stall_enter, h]
    rfl
  · dsimp only [State.enterRediscovered]
    rw [State.stall_enter, h]
    rfl

theorem State.rediscover_stall (h : s.stall n = (.cold, l, .cold)) : (s.rediscover n).stall n =
    if s.inCount n = true then
      (s.rediscoveredBay n l,
        { l with sw5 := (rediscoveredState l).powered, sw12 := (rediscoveredState l).spinning
                 trip := l.trip && (rediscoveredState l).powered },
        { BayFeed.cold with spinStart := if rediscoveredState l = .ready then some s.time else none })
    else (.cold, { l with trip := false, sw5 := false, sw12 := false }, .cold) := by
  obtain ⟨hbay, hrest⟩ := Prod.mk.inj (id h)
  obtain ⟨hline, hfeed⟩ := Prod.mk.inj hrest
  unfold State.rediscover
  rw [hline]
  split
  · dsimp only
    rw [State.stall_deriveLights]
    exact State.enterRediscovered_stall h
  · unfold State.stall
    rw [State.bay_putLine, State.line_putLine, if_pos rfl, State.feed_putLine, hbay, hfeed]

theorem Swept.settlingBay (h : Swept s u) : u.settlingBay = s.settlingBay := by
  unfold State.settlingBay State.internalOp
  rw [h.time, h.settings]

theorem Swept.rediscoveredBay (h : Swept s u) (n : BayNo) (l : BayLines) : u.rediscoveredBay n l = s.rediscoveredBay n l := by
  unfold State.rediscoveredBay State.internalOp
  rw [h.time, h.settings, State.profileOf_of_settings h.settings]

/-- No bay touched since the reset: each is cold, with its lines as the reset left them. -/
def State.untouched (s : State) : Prop := ∀ n, s.stall n = (.cold, s.line n, .cold)

theorem State.startBays_cold (hs : s.untouched) (hk : s.resetKind = .cold) (n : BayNo) : s.startBays.stall n =
    if s.inCount n = true ∧ (s.line n).presence = true then (s.settlingBay, (s.line n).switched false false, .cold)
    else (.cold, s.line n, .cold) := by
  have hfold : s.startBays = bayNumbers.foldl State.sampleBay s := by
    unfold State.startBays
    rw [hk]
  obtain ⟨v, hv, hsame, heq⟩ := ((foldl_each (R := Swept s) (g := State.stall) (fun u n h => h.trans (u.sampleBay_swept n))
    State.sampleBay_others bayNumbers (List.nodup_finRange 60) s (.refl s)).2 n).1 (mem_bayNumbers n)
  rw [hfold, heq, State.sampleBay_stall (hsame.trans (hs n)), hv.inCount, hv.settlingBay]

theorem State.startBays_warm (hs : s.untouched) (hk : s.resetKind = .warm) (n : BayNo) : s.startBays.stall n =
    if s.inCount n = true then
      (s.rediscoveredBay n (s.line n),
        { s.line n with sw5 := (rediscoveredState (s.line n)).powered, sw12 := (rediscoveredState (s.line n)).spinning
                        trip := (s.line n).trip && (rediscoveredState (s.line n)).powered },
        { BayFeed.cold with spinStart := if rediscoveredState (s.line n) = .ready then some s.time else none })
    else (.cold, { s.line n with trip := false, sw5 := false, sw12 := false }, .cold) := by
  have hfold : s.startBays = bayNumbers.foldl State.rediscover s := by
    unfold State.startBays
    rw [hk]
  obtain ⟨v, hv, hsame, heq⟩ := ((foldl_each (R := Swept s) (g := State.stall) (fun u n h => h.trans (u.rediscover_swept n))
    State.rediscover_others bayNumbers (List.nodup_finRange 60) s (.refl s)).2 n).1 (mem_bayNumbers n)
  rw [hfold, heq, State.rediscover_stall (hsame.trans (hs n)), hv.inCount, hv.rediscoveredBay, hv.time]

/-! ### Events and Attention Units through a handling -/

/-- No Attention Unit moves, and every event raised stands. -/
structure Heard (s t : State) : Prop where
  attention : t.attention = s.attention
  late      : ∀ e ∈ s.late, e ∈ t.late

theorem Heard.refl (s : State) : Heard s s := ⟨rfl, fun _ => id⟩
theorem Heard.trans (h : Heard s t) (k : Heard t u) : Heard s u := ⟨k.attention.trans h.attention, fun e he => k.late e (h.late e he)⟩

theorem State.accountUpdate_heard (s : State) : Heard s s.accountUpdate :=
  ⟨by rw [State.accountUpdate_eq], fun e he => by rw [State.accountUpdate_late]; exact List.mem_append_left _ he⟩

theorem Heard.bayChanged (h : Heard s t) (n : BayNo) (e : Option (Fin 8)) : Heard s (t.bayChanged n e) :=
  h.trans ⟨t.bayChanged_attention n e, t.bayChanged_late_subset n e⟩

theorem Heard.of_eq (attention : t.attention = s.attention) (late : t.late = s.late) : Heard s t := ⟨attention, fun _ he => late ▸ he⟩

theorem State.admitHead_heard (s : State) (n : BayNo) : Heard s (s.admitHead n) := by
  unfold State.admitHead
  dsimp only
  refine Heard.bayChanged ?_ n _
  exact .of_eq (by rw [State.pubQueue_eq]; rfl) (by rw [State.pubQueue_eq]; rfl)

theorem State.setHold_heard (s : State) (h : HoldReason) : Heard s (s.setHold h) := .of_eq (by rw [State.setHold_eq]) (by rw [State.setHold_eq])

theorem State.runPass_heard (s : State) : Heard s s.runPass :=
  State.runPass_keeps (P := Heard s) (fun u n h => h.trans (u.admitHead_heard n)) (fun u k h => h.trans (u.setHold_heard k))
    (fun _ _ h => h.trans (.of_eq rfl rfl)) s (.refl s)

theorem State.policyMove_heard (s : State) (n : BayNo) : Heard s (s.policyMove n) := by
  unfold State.policyMove
  split
  · split
    · exact .refl s
    · refine Heard.bayChanged ?_ n _
      exact .of_eq rfl rfl
    · refine Heard.bayChanged ?_ n _
      exact .of_eq (by rw [State.join_eq]; rfl) (by rw [State.join_eq]; rfl)
  · split
    · exact .refl s
    · refine Heard.bayChanged ?_ n _
      exact .of_eq rfl rfl

theorem State.wait5vWalk_heard (s : State) : Heard s s.wait5vWalk :=
  State.wait5vWalk_keeps (P := Heard s) (fun u n h => h.trans (u.policyMove_heard n)) (fun u h => h.trans u.runPass_heard)
    (fun _ _ h => h.trans (.of_eq rfl rfl)) s (.refl s)

theorem Heard.endOpSlip (h : Heard s t) (op : Option Operation) (o : SlipOutcome) (r : List Byte) : Heard s (t.endOpSlip op o r) := by
  obtain ⟨⟨l, hlate, -⟩, -⟩ := t.endOpSlip_late op o r
  exact h.trans ⟨by rw [State.endOpSlip_eq], fun e he => by rw [hlate]; exact List.mem_append_left _ he⟩

theorem State.shed12_heard (s : State) (k : ShedKind) (n : BayNo) : Heard s (s.shed12 k n) := by
  unfold State.shed12
  split
  · dsimp only
    split
    · refine (Heard.bayChanged ?_ n _).endOpSlip _ _ _
      exact .of_eq rfl rfl
    · refine (Heard.bayChanged ?_ n _).endOpSlip _ _ _
      exact .of_eq rfl rfl
  · exact .refl s

theorem State.shed5_heard (s : State) (n : BayNo) : Heard s (s.shed5 n) := by
  unfold State.shed5
  split
  · dsimp only
    refine (Heard.bayChanged ?_ n _).endOpSlip _ _ _
    exact .of_eq (by rw [State.leave_eq]; rfl) (by rw [State.leave_eq]; rfl)
  · exact .refl s

theorem State.shedStep_heard (s : State) : Heard s s.shedStep := by
  unfold State.shedStep
  split
  · exact .of_eq rfl rfl
  · split
    · unfold State.unresolvable
      split
      · exact .of_eq rfl rfl
      · dsimp only
        refine ⟨?_, fun e he => ?_⟩
        · rw [State.raiseBoth_attention, State.pubSummaryIfAccount_eq]
          rfl
        · rw [State.raiseBoth_late, State.pubSummaryIfAccount_eq]
          exact List.mem_append_left _ (List.mem_append_left _ he)
    · unfold State.shedBay
      split
      · exact s.shed5_heard _
      · exact s.shed12_heard _ _

/-- Acting on reports moves no Attention Unit and keeps every event raised. -/
theorem State.settle_heard (s : State) : Heard s s.settle :=
  State.settle_keeps (P := Heard s) (fun u h => h.trans u.runPass_heard) (fun u h => h.trans u.wait5vWalk_heard)
    (fun _ _ h => h.trans (.of_eq rfl rfl))
    (fun u n h => h.trans (by
      unfold State.thermalShed
      split
      · exact u.shed12_heard _ _
      · exact .refl u))
    (fun u h => h.trans u.shedStep_heard) s (.refl s)

/-! ### Reports that move nothing -/

/-- The queue is empty with its hold reason clear, no bay waits for 5 V, no shed run is under way and no thermal list waits. -/
structure State.calm (s : State) : Prop where
  queue   : s.scheduler.queue = []
  hold    : s.scheduler.hold = .none
  waits   : ∀ n, ¬ s.waitsFor5 n
  run     : s.reports.run = false
  thermal : s.reports.thermal = []

/-- The state with no pass and no walk asked for. -/
def State.unasked (s : State) : State := { s with reports := { s.reports with pass := false, walk := false } }

theorem State.runPass_calm (h : s.calm) : s.runPass = { s with reports := { s.reports with pass := false } } := by
  have hhead : headBay s.scheduler.queue = none := by rw [h.queue]; rfl
  unfold State.runPass
  split
  · rw [h.queue, List.length_nil, State.passLoop, hhead]
    dsimp only
    rw [State.setHold, if_pos h.hold]
  · rename_i hpass
    rw [← Bool.eq_false_iff.2 hpass]

theorem State.wait5vWalk_calm (h : s.calm) : s.wait5vWalk = { s with reports := { s.reports with walk := false } } := by
  let w : State := { s with reports := { s.reports with walk := false } }
  have hstep (n : BayNo) : w.walkBay n = w := State.walkBay_idle (h.waits n)
  show bayNumbers.foldl State.walkBay w = w
  exact foldl_keeps (P := fun u => u = w) (fun u n hu => by rw [hu]; exact hstep n) _ _ rfl

theorem State.unasked_eq (hp : s.reports.pass = false) (hw : s.reports.walk = false) : s.unasked = s := by
  have hreports : ({ s.reports with pass := false, walk := false } : Reports) = s.reports := by
    cases hr : s.reports with
    | mk pass walk run thermal held =>
      rw [hr] at hp hw
      subst hp hw
      rfl
  unfold State.unasked
  rw [hreports]

theorem State.settleLoop_calm (fuel : Nat) (h : s.calm) (hf : s.reports.pass.toNat + s.reports.walk.toNat ≤ fuel) :
    State.settleLoop fuel s = s.unasked := by
  induction fuel generalizing s with
  | zero =>
    obtain ⟨hp, hw⟩ := Nat.add_eq_zero_iff.1 (Nat.le_zero.1 hf)
    exact (State.unasked_eq (Bool.toNat_eq_zero.1 hp) (Bool.toNat_eq_zero.1 hw)).symm
  | succ k ih =>
    unfold State.settleLoop
    cases hp : s.reports.pass with
    | true =>
      rw [State.settleStep_pass hp, State.runPass_calm h]
      rw [hp, Bool.toNat_true] at hf
      exact ih (s := { s with reports := { s.reports with pass := false } }) ⟨h.queue, h.hold, h.waits, h.run, h.thermal⟩ (by
        show (false).toNat + s.reports.walk.toNat ≤ k
        rw [Bool.toNat_false]
        omega)
    | false =>
      cases hw : s.reports.walk with
      | true =>
        rw [State.settleStep_walk hp hw, State.wait5vWalk_calm h]
        rw [hp, hw, Bool.toNat_true, Bool.toNat_false] at hf
        exact ih (s := { s with reports := { s.reports with walk := false } }) ⟨h.queue, h.hold, h.waits, h.run, h.thermal⟩ (by
          show s.reports.pass.toNat + (false).toNat ≤ k
          rw [hp, Bool.toNat_false]
          omega)
      | false =>
        have hnone : s.settleStep = none := by
          unfold State.settleStep
          rw [if_neg (by simp [hp]), if_neg (by simp [hw]), h.thermal, h.run]
          rfl
        rw [hnone]
        exact (State.unasked_eq hp hw).symm

/-- Acting on the reports of a calm state only clears them. -/
theorem State.settle_calm (h : s.calm) : s.settle = s.unasked :=
  State.settleLoop_calm settleFuel h (by
    have hp := s.reports.pass.toNat_le
    have hw := s.reports.walk.toNat_le
    unfold settleFuel
    omega)

end Sys2Proof.Machine
end

