-- ==== Sys2Proof/Proofs/StartOpened.lean ====
section
/-! SUPPORT. Start-up's later steps: the policies bay by bay, the enclosure light, the publication and the readers' start (R30, R144, R165,
R166, R169, R179). -/

namespace Sys2Proof.Machine

variable {s t u x : State} {n : BayNo} {p : Port}

/-! ### Step 5 -/

/-- The state of start-up once the policies of the first k bays are applied. -/
def State.policied (s : State) (k : Nat) : State :=
  match s.resetKind with
  | .cold => s
  | .warm => (bayNumbers.take k).foldl State.startPolicy s

/-- A bay that rests in OFF as it was rediscovered there. -/
def State.rests (s : State) (n : BayNo) : Prop := s.resetKind = .warm ∧ (s.bay n).record.state = .off ∧ (s.bay n).record.reason = .rediscovered

theorem State.policied_zero (s : State) : s.policied 0 = s := by
  unfold State.policied
  cases s.resetKind <;> rfl

theorem State.policied_all (s : State) : s.policied 60 = s.startPolicies := by
  have hall : bayNumbers.take 60 = bayNumbers := List.take_of_length_le (by simp [bayNumbers])
  unfold State.policied State.startPolicies
  cases s.resetKind with
  | cold => rfl
  | warm => exact congrArg (fun l => l.foldl State.startPolicy s) hall

theorem State.startPolicy_outer (s : State) (n : BayNo) : (s.startPolicy n).outer = s.outer := by
  unfold State.startPolicy State.applyPolicy
  split
  · rw [State.settle_outer]
    split
    · rfl
    · split
      · rfl
      · exact s.policyMove_outer n
  · rfl

theorem State.startPolicy_heard (s : State) (n : BayNo) : Heard s (s.startPolicy n) := by
  unfold State.startPolicy State.applyPolicy
  split
  · refine Heard.trans ?_ (State.settle_heard _)
    split
    · exact .refl s
    · split
      · exact .refl s
      · exact s.policyMove_heard n
  · exact .refl s

theorem State.policied_still (s : State) (k : Nat) : (s.policied k).outer = s.outer ∧ Heard s (s.policied k) := by
  unfold State.policied
  split
  · exact ⟨rfl, .refl s⟩
  · exact foldl_keeps (P := fun u => u.outer = s.outer ∧ Heard s u)
      (fun u n hu => ⟨(u.startPolicy_outer n).trans hu.1, hu.2.trans (u.startPolicy_heard n)⟩) _ _ ⟨rfl, .refl s⟩

/-- The turn of one bay. -/
theorem State.policied_succ (s : State) (n : BayNo) : ((s.policied n.val).rests n → s.policied (n.val + 1) = ((s.policied n.val).applyPolicy n).settle) ∧
    (¬ (s.policied n.val).rests n → s.policied (n.val + 1) = s.policied n.val) := by
  have hkind : (s.policied n.val).resetKind = s.resetKind := congrArg Outer.resetKind (s.policied_still n.val).1
  have hget : bayNumbers[n.val]? = some n := by
    unfold bayNumbers
    rw [List.getElem?_eq_getElem (by simp)]
    simp
  cases hk : s.resetKind with
  | cold =>
    have hsame (k : Nat) : s.policied k = s := by unfold State.policied; rw [hk]
    refine ⟨fun h => ?_, fun _ => (hsame _).trans (hsame _).symm⟩
    have hwarm := hkind.symm.trans h.1
    rw [hk] at hwarm
    cases hwarm
  | warm =>
    have hfold (k : Nat) : s.policied k = (bayNumbers.take k).foldl State.startPolicy s := by unfold State.policied; rw [hk]
    have hstep : s.policied (n.val + 1) = (s.policied n.val).startPolicy n := by
      rw [hfold, hfold, List.take_add_one, hget, List.foldl_append]; rfl
    rw [hstep]
    exact ⟨fun h => if_pos h.2, fun h => if_neg fun hc => h ⟨hkind.trans hk, hc⟩⟩

/-- What the turn of a bay rediscovered in OFF makes of it (R9, R30). -/
structure PolicyTurned (n : BayNo) (x u : State) : Prop where
  handled   : BayHandled n x u
  feed      : u.feed n = x.feed n
  exchange  : u.exchange = x.exchange
  told      : u.told srcBayChange ∧ OnlyTold [srcBayChange, srcPower] x u
  noRoom    : ¬ x.account.committed5 + (x.profileOf n).i5 ≤ x.account.usable5 →
    (u.bay n).like { x.bay n with record := { (x.bay n).record with flags := { (x.bay n).record.flags with wait5v := true } } } ∧
      u.line n = x.line n ∧ u.scheduler.queue = x.scheduler.queue
  fits      : x.account.committed5 + (x.profileOf n).i5 ≤ x.account.usable5 → WaitMoved n x u

theorem State.applyPolicy_turned (hmoves : x.policyMoves n (x.bay n))
    (hroom : x.account.committed5 + (x.profileOf n).i5 ≤ x.account.usable5 ∨ (x.bay n).record.flags.wait5v = false) :
    PolicyTurned n x (x.applyPolicy n) := by
  rw [State.applyPolicy_moves hmoves.1 hmoves.2]
  by_cases hfits : x.fits5 n = true
  · have hfit : x.account.committed5 + (x.profileOf n).i5 ≤ x.account.usable5 := by simpa [State.fits5] using hfits
    have h := State.policyMove_waitMoved hfits hmoves.2
    exact ⟨h.handled, h.feed, h.exchange, h.told, fun hno => absurd hfit hno, fun _ => h⟩
  · have hfit : ¬ x.account.committed5 + (x.profileOf n).i5 ≤ x.account.usable5 := by simpa [State.fits5] using hfits
    obtain ⟨⟨handled, bay, line, feed, exchange, queue⟩, told, only, -⟩ := State.policyMove_noRoom hfits (hroom.resolve_left hfit)
    exact ⟨handled, feed, exchange, ⟨told, only⟩, fun _ => ⟨bay, line, queue⟩, fun h => absurd h hfit⟩

theorem State.applyPolicy_unturned (h : ¬ x.policyMoves n (x.bay n) ∨
    (¬ x.account.committed5 + (x.profileOf n).i5 ≤ x.account.usable5 ∧ (x.bay n).record.flags.wait5v = true)) : x.applyPolicy n = x := by
  by_cases hmoves : x.policyMoves n (x.bay n)
  · obtain ⟨hno, hwaits⟩ := h.resolve_left (not_not_intro hmoves)
    rw [State.applyPolicy_moves hmoves.1 hmoves.2]
    exact State.policyMove_waiting (by simpa [State.fits5] using hno) hwaits
  · refine State.applyPolicy_stays ?_
    by_contra hc
    simp only [not_or, Bool.not_eq_true] at hc
    exact hmoves hc

/-! ### Steps 6 and 7 -/

/-- The state with the enclosure light set, every record published, every event handed on, and the part running. -/
def State.opened (s : State) : State := { s.lightEnclosure.publishAll.deliver with phase := .running }

theorem State.opened_eq (s : State) : s.opened =
    { s with phase := .running, lights := s.opened.lights, attention := s.opened.attention, status := s.opened.status, late := [] } := by
  unfold State.opened
  rw [State.deliver_eq, (State.publishAll_full _).1, State.lightEnclosure_eq]

theorem State.opened_lights (s : State) : ∃ g, s.opened.lights =
    { s.lights with enclosure := { s.lights.enclosure with
        amber := { s.lights.enclosure.amber with system := s.enclosureAmber }, gen := g } } := by
  obtain ⟨g, hg⟩ := State.pubEnclosure_lights ({ s with lights := { s.lights with enclosure := { s.lights.enclosure with amber := { s.lights.enclosure.amber with system := s.enclosureAmber } } } } : State)
  refine ⟨g, Eq.trans ?_ hg⟩
  unfold State.opened
  rw [State.deliver_eq, (State.publishAll_full _).1]
  rfl

theorem State.opened_outer (s : State) : s.opened.outer = { s.outer with phase := .running } := by
  obtain ⟨g, hg⟩ := s.opened_lights
  have hchain : s.opened.lights.chain = s.lights.chain := by rw [hg]
  have houter : s.opened.outer = { s.outer with phase := .running, chain := s.opened.lights.chain } := by rw [s.opened_eq]; rfl
  rw [houter, hchain]; rfl

theorem State.opened_amber (s : State) : s.opened.lights.enclosure.amber.system = s.opened.enclosureAmber := by
  obtain ⟨g, hg⟩ := s.opened_lights
  have hsame : s.opened.enclosureAmber = s.enclosureAmber := by rw [s.opened_eq]; rfl
  rw [hg, hsame]

/-- Events handed on set the pending flags of enabled sources (R170). -/
theorem State.deliver_pending (s : State) (p : Port) (i : Fin 8) : (s.deliver.attention.get p).pending[i] = true ↔
    (s.attention.get p).pending[i] = true ∨ ((s.settings.attention.get p)[i].enable = true ∧ (p, i) ∈ s.late) :=
  (State.latchAll_fields s.late { s with late := [] } p).2 i

/-- The events of start-up reach the Attention Units at its end, and set the flags of enabled sources (R166, R170). -/
theorem State.opened_pending (s : State) (p : Port) (i : Fin 8) : (s.opened.attention.get p).pending[i] = true ↔
    (s.attention.get p).pending[i] = true ∨ ((s.settings.attention.get p)[i].enable = true ∧ (p, i) ∈ s.late) := by
  have hlit : s.lightEnclosure.publishAll.attention = s.attention ∧ s.lightEnclosure.publishAll.settings = s.settings ∧
      s.lightEnclosure.publishAll.late = s.late := by
    rw [(State.publishAll_full _).1, State.lightEnclosure_eq]
    exact ⟨rfl, rfl, rfl⟩
  obtain ⟨hattention, hsettings, hlate⟩ := hlit
  refine (s.lightEnclosure.publishAll.deliver_pending p i).trans ?_
  rw [hattention, hsettings, hlate]

theorem State.opened_stands (hp : s.phase = .starting) : s.opened.live ∧ ∀ y, s.opened.stands y := by
  have hlit : s.lightEnclosure.phase = .starting := by rw [State.lightEnclosure_eq]; exact hp
  obtain ⟨hlive, hstands⟩ := State.publishAll_stands s.lightEnclosure hlit
  have htold := State.deliver_tidy s.lightEnclosure.publishAll
  have hdlive : s.lightEnclosure.publishAll.deliver.live := htold.kempt.toTended.live hlive
  have hdstands := fun y => htold.stands hlive y List.not_mem_nil (hstands y)
  unfold State.opened
  generalize s.lightEnclosure.publishAll.deliver = v at hdlive hdstands
  exact ⟨⟨rfl, hdlive.summary, hdlive.enclosure, hdlive.lights⟩, fun y => by
    have hy := hdstands y
    cases y <;> exact hy⟩

/-- Every position of both change bitmaps is set. -/
def Status.allMarked (x : Status) : Prop := ∀ p k, k < 80 → (x.bitmaps.get p).getLsbD k = true

theorem Status.allMarked_iff (x : Status) : x.allMarked ↔ x.bitmaps = ⟨BitVec.allOnes 80, BitVec.allOnes 80⟩ := by
  refine ⟨fun h => ?_, fun h p k hk => ?_⟩
  · have hport (p : Port) : x.bitmaps.get p = BitVec.allOnes 80 := BitVec.eq_of_getLsbD_eq fun k hk => by
      rw [h p k hk, BitVec.getLsbD_allOnes, decide_eq_true hk]
    exact congrArg₂ PerPort.mk (hport .a) (hport .b)
  · rw [h]
    cases p
    all_goals
      show (BitVec.allOnes 80).getLsbD k = true
      rw [BitVec.getLsbD_allOnes, decide_eq_true hk]

theorem Status.carried_allMarked {x y : Status} (h : x.carried y) (hx : x.allMarked) : y.allMarked := fun p k hk => h.2 p k (hx p k hk)

theorem State.opened_allMarked (s : State) : s.opened.status.allMarked := by
  have hfull : s.lightEnclosure.publishAll.status.allMarked := (Status.allMarked_iff _).2 rfl
  exact Status.carried_allMarked (State.deliver_tidy s.lightEnclosure.publishAll).carried hfull

/-! ### Step 8 -/

/-- Start-up's last step for one port: the walk from its window's anchor, or no window (R165, R169). -/
theorem State.startReader_eq (s : State) (p : Port) : s.startReader p = (match s.windows.get p with
    | none => (s.putReader p { s.reader p with state := .disabled, watch := 0 }).pubReader p
    | some x => (s.walk p walkFuel (.link (BitVec.ofNat 16 (x.base + 0x1C)))).pubReader p) := by
  unfold State.startReader State.walkFrom State.rest
  cases s.windows.get p <;> rfl

/-- The state and the watched word in which a port's reader starts where its anchor's link word is 0. -/
def restingAt : Option Window → ReaderState × Half
  | none => (.disabled, 0)
  | some v => (.parked, BitVec.ofNat 16 (v.base + 0x1C))

/-- A window in force lies below 0x8000. -/
theorem windowOf_below {w : WindowSetting} {v : Window} (h : windowOf w = some v) : v.base + 0x1C < 0x8000 := by
  have hsize : ∀ size, windowSize w.code = some size → 2048 ≤ size := fun size hs => by
    unfold windowSize at hs
    split at hs <;> cases hs <;> decide
  unfold windowOf at h
  split at h
  · cases h
  · rename_i size hs
    have hlarge := hsize size hs
    split at h
    · rename_i hfits
      obtain rfl := Option.some.inj h
      show w.base.toNat + 0x1C < 0x8000
      omega
    · cases h

theorem State.startReader_rests (hlink : ∀ v, s.windows.get p = some v → v.base + 0x1C < 65536 ∧ Memory.read16 s.ram (v.base + 0x1C) = 0) :
    s.startReader p = (s.putReader p { s.reader p with state := (restingAt (s.windows.get p)).1, watch := (restingAt (s.windows.get p)).2 }).pubReader p := by
  rw [State.startReader_eq]
  cases hw : s.windows.get p with
  | none => rfl
  | some v =>
    obtain ⟨hbelow, hzero⟩ := hlink v hw
    have hword : (BitVec.ofNat 16 (v.base + 0x1C)).toNat = v.base + 0x1C := by
      rw [BitVec.toNat_ofNat]
      exact Nat.mod_eq_of_lt hbelow
    have hwalk : s.walk p walkFuel (.link (BitVec.ofNat 16 (v.base + 0x1C))) = s.rest p .parked (BitVec.ofNat 16 (v.base + 0x1C)) := by
      rw [show walkFuel = 4099 + 1 from rfl, State.walk, hword, hzero, if_pos rfl]
    dsimp only
    rw [hwalk]
    rfl

end Sys2Proof.Machine
end

