-- ==== Sys2Proof/Proofs/StartUp.lean ====
section
/-! SUPPORT. Start-up as a whole: its steps from a settings load, what they leave where nothing moves a bay, the events taken within it, and
the resets that abandon it (R179). -/

namespace Sys2Proof.Machine

variable {s t u x : State} {n : BayNo} {p : Port} {k : ResetKind} {w : Surroundings} {now : Time} {a : Bool} {o : Operation}

/-! ### The first three steps -/

/-- Start-up's state once LOAD_DONE is raised. -/
def State.announced (k : ResetKind) (w : Surroundings) (now : Time) (a : Bool) : State :=
  ((State.loadAt k w now).distribute a).raiseBoth srcLoadDone

/-- Start-up's state once the bays are found. -/
def State.found (k : ResetKind) (w : Surroundings) (now : Time) (a : Bool) : State := (State.announced k w now a).startBays

theorem State.found_swept (k : ResetKind) (w : Surroundings) (now : Time) (a : Bool) :
    Swept (State.announced k w now a) (State.found k w now a) := State.startBays_swept _

/-- What the first two steps leave of the load. -/
theorem State.announced_eq (k : ResetKind) (w : Surroundings) (now : Time) (a : Bool) : State.announced k w now a =
    { ((State.loadAt k w now).loadSettings a).startUnits with
      account := (State.announced k w now a).account, late := (State.announced k w now a).late
      windows := (State.announced k w now a).windows } := by
  unfold State.announced
  rw [State.distribute_eq]
  rfl

/-- The cause that the settings load finds. -/
def State.loadCause (k : ResetKind) (w : Surroundings) (now : Time) (a : Bool) : Cause := (State.loadAt k w now).imageCause a

/-- The settings that the settings load gives. -/
def State.loadSet (k : ResetKind) (w : Surroundings) (now : Time) (a : Bool) : Settings :=
  Settings.loaded w.settingsMem (State.loadCause k w now a)

/-- The window of port A that start-up puts in force, and the window of port B (R147). -/
def State.loadWindows (k : ResetKind) (w : Surroundings) (now : Time) (a : Bool) : PerPort (Option Window) :=
  ((State.loadAt k w now).distribute a).windows

/-- The outer state that start-up's first step sets. -/
theorem State.found_outer (k : ResetKind) (w : Surroundings) (now : Time) (a : Bool) : (State.found k w now a).outer =
    { ((State.loadAt k w now).loadSettings a).startUnits.outer with
      supplies := Vector.ofFn ((State.loadAt k w now).loadSettings a).sampledSupply
      fanRes := (State.loadSet k w now a).fans.count * (State.loadSet k w now a).fans.maxCur
      windows := State.loadWindows k w now a } := by
  rw [(State.found_swept k w now a).outer]
  show ((State.loadAt k w now).distribute a).outer = _
  have haccount := State.distribute_account a (State.loadAt k w now)
  have houter : ((State.loadAt k w now).distribute a).outer =
      { ((State.loadAt k w now).loadSettings a).startUnits.outer with
        supplies := ((State.loadAt k w now).distribute a).account.supplies
        fanRes := ((State.loadAt k w now).distribute a).account.fanRes
        windows := State.loadWindows k w now a } := by
    rw [State.distribute_eq]; rfl
  rw [houter, haccount]
  rfl

theorem State.found_account (k : ResetKind) (w : Surroundings) (now : Time) (a : Bool) : (State.found k w now a).account =
    { ((State.loadAt k w now).loadSettings a).sampleSupplies.figures with committed12 := 0, committed5 := 0 } := by
  rw [(State.found_swept k w now a).account, State.announced, State.raiseBoth_account, State.distribute_account]

/-- Supply slot i as its setting and its inputs give its state (R31). -/
theorem State.found_supply (k : ResetKind) (w : Surroundings) (now : Time) (a : Bool) (i : Fin 4) :
    (State.found k w now a).account.supplies[i].state =
      if (State.loadSet k w now a).supplies[i].cap12 = 0 ∧ (State.loadSet k w now a).supplies[i].cap5 = 0 ∨ w.supplyLines[i].present = false
      then .absent else if w.supplyLines[i].good then .good else .failed := by
  rw [State.found_account]
  refine Eq.trans (congrArg Supply.state ?_) (((State.loadAt k w now).loadSettings a).sampledSupply_state i)
  exact Vector.getElem_ofFn _

/-- In SPARE_ONE fewer than two fitted slots are GOOD once the load has ended (R33). -/
theorem State.found_spareGone (k : ResetKind) (w : Surroundings) (now : Time) (a : Bool) :
    (State.found k w now a).account.redundancyLost = true ↔ (State.found k w now a).spareGone := by
  have hset : (State.found k w now a).settings = State.loadSet k w now a := congrArg Outer.settings (State.found_outer k w now a)
  have hgone : (State.found k w now a).spareGone ↔ ((State.loadAt k w now).loadSettings a).sampleSupplies.spareGone := by
    unfold State.spareGone
    rw [hset, State.found_account]; rfl
  rw [hgone, ← State.redundancyLostNow_iff, State.found_account]; rfl

/-- The events that start-up has raised once the bays are found: POWER where REDUNDANCY_LOST is set, and LOAD_DONE (R33, R166). -/
theorem State.found_late (k : ResetKind) (w : Surroundings) (now : Time) (a : Bool) : (State.found k w now a).late =
    (if (State.found k w now a).account.redundancyLost then [(.a, srcPower), (.b, srcPower)] else []) ++
      [(.a, srcLoadDone), (.b, srcLoadDone)] := by
  have hcalm : (State.loadAt k w now).account.redundancyLost = false := rfl
  have hnone : (State.loadAt k w now).late = [] := rfl
  rw [(State.found_swept k w now a).late, (State.found_swept k w now a).account, State.announced, State.raiseBoth_late, State.raiseBoth_account,
    State.distribute_late a _ hcalm, hnone, List.append_assoc]
  split
  · rw [List.nil_append, List.singleton_append]
  · rw [List.nil_append, List.nil_append, List.singleton_append]

theorem State.announced_line (k : ResetKind) (w : Surroundings) (now : Time) (a : Bool) (n : BayNo) :
    (State.announced k w now a).line n = w.lines[n] := by rw [State.announced_eq]; rfl

theorem State.announced_untouched (k : ResetKind) (w : Surroundings) (now : Time) (a : Bool) : (State.announced k w now a).untouched := fun n => by
  have hbays : (State.announced k w now a).bay n = .cold := by
    rw [State.announced_eq]
    exact State.loading_bay k w n
  have hfeeds : (State.announced k w now a).feed n = .cold := by
    rw [State.announced_eq]
    exact Vector.getElem_replicate ..
  unfold State.stall
  rw [hbays, hfeeds]

/-- Bay n as start-up leaves it at the end of a cold reset's load, its lines and its feed (R29). -/
theorem State.found_cold (w : Surroundings) (now : Time) (a : Bool) (n : BayNo) : (State.found .cold w now a).stall n =
    if (State.loadAt .cold w now).inCount n = true ∧ w.lines[n].presence = true then
      ((State.announced .cold w now a).settlingBay, (w.lines[n] : BayLines).switched false false, .cold)
    else (.cold, w.lines[n], .cold) := by
  have hkind : (State.announced .cold w now a).resetKind = .cold := by rw [State.announced_eq]; rfl
  have hcount : (State.announced .cold w now a).inCount n = (State.loadAt .cold w now).inCount n := by rw [State.announced_eq]; rfl
  unfold State.found
  rw [State.startBays_cold (State.announced_untouched .cold w now a) hkind, State.announced_line, hcount]

/-- Bay n as start-up rediscovers it after a warm reset, its lines and its feed (R30, Table 1-9). -/
theorem State.found_warm (w : Surroundings) (now : Time) (a : Bool) (n : BayNo) : (State.found .warm w now a).stall n =
    if (State.loadAt .warm w now).inCount n = true then
      ((State.announced .warm w now a).rediscoveredBay n w.lines[n],
        { (w.lines[n] : BayLines) with
          sw5 := (rediscoveredState w.lines[n]).powered, sw12 := (rediscoveredState w.lines[n]).spinning
          trip := (w.lines[n] : BayLines).trip && (rediscoveredState w.lines[n]).powered },
        { BayFeed.cold with spinStart := if rediscoveredState w.lines[n] = .ready then some now else none })
    else (.cold, { (w.lines[n] : BayLines) with trip := false, sw5 := false, sw12 := false }, .cold) := by
  have hkind : (State.announced .warm w now a).resetKind = .warm := by rw [State.announced_eq]; rfl
  have hcount : (State.announced .warm w now a).inCount n = (State.loadAt .warm w now).inCount n := by rw [State.announced_eq]; rfl
  have htime : (State.announced .warm w now a).time = now := by rw [State.announced_eq]; rfl
  unfold State.found
  rw [State.startBays_warm (State.announced_untouched .warm w now a) hkind, State.announced_line, hcount, htime]

theorem State.loadWindows_eq (k : ResetKind) (w : Surroundings) (now : Time) (a : Bool) : State.loadWindows k w now a =
    ⟨windowOf (State.loadSet k w now a).windows.a,
      ({ State.loadAt k w now with
          settings := State.loadSet k w now a, windows := ⟨windowOf (State.loadSet k w now a).windows.a, none⟩ } : State).validWindow .b⟩ :=
  State.distribute_windows a (State.loadAt k w now) rfl

theorem State.announced_settlingBay (k : ResetKind) (w : Surroundings) (now : Time) (a : Bool) : (State.announced k w now a).settlingBay =
    { Bay.cold with
      record := { BayRecord.cold with
        state := .settling, reason := .presence, entered := now, op := some ((State.loadAt k w now).internalOp .settle) }
      settleAt := some (Time.plus now (State.loadSet k w now a).timing.settle) } := by
  rw [State.announced_eq]
  rfl

/-- What stands of the part beside its bays once they are found (R52, R79, R179). -/
theorem State.found_fields (k : ResetKind) (w : Surroundings) (now : Time) (a : Bool) :
    let d := State.found k w now a
    d.phase = .starting ∧ d.time = now ∧ d.straps = w.straps ∧ d.settings = State.loadSet k w now a ∧ d.cause = State.loadCause k w now a ∧
      d.ram = w.ram ∧ d.windows = State.loadWindows k w now a ∧ d.scheduler = .cold ∧
      d.account.fanRes = (State.loadSet k w now a).fans.count * (State.loadSet k w now a).fans.maxCur ∧ d.resetKind = k := by
  intro d
  have h := State.found_outer k w now a
  have hsched : d.scheduler = .cold := (State.found_swept k w now a).scheduler.trans (by rw [State.announced_eq]; rfl)
  have hram : d.ram = w.ram := (State.found_swept k w now a).ram.trans (by rw [State.announced_eq]; rfl)
  exact ⟨congrArg Outer.phase h, congrArg Outer.time h, congrArg Outer.straps h, congrArg Outer.settings h, congrArg Outer.cause h, hram,
    congrArg Outer.windows h, hsched, congrArg Outer.fanRes h, congrArg Outer.resetKind h⟩

/-- The state that rediscovery gives, as Table 1-9 reads its rows (R30). -/
theorem rediscoveredState_rows (l : BayLines) : rediscoveredState l =
    (if l.presence = false then .empty else if l.trip = true ∧ (l.sw5 = true ∨ l.sw12 = true) then .faulted
      else if l.sw5 = true then (if l.sw12 = true then .ready else .logic) else .off) := by
  unfold rediscoveredState
  cases l.sw5 <;> cases l.sw12 <;> simp

theorem PolicyTurned.statement (h : PolicyTurned n x u) (htime : x.time = now) (hop : x.internalOp .spinUp = o) :
    let b := x.bay n
    let f := b.record.flags
    let c5 := (x.profileOf n).i5
    let fits := x.account.committed5 + c5 ≤ x.account.usable5
    let inLogic : BayFlags :=
      { wait5v := false, latchOpen := f.latchOpen, removalReady := false, drawHigh := false, shedThermal := false, shedPower := false }
    BayHandled n x u ∧ u.feed n = x.feed n ∧ u.exchange = x.exchange ∧ u.told srcBayChange ∧ OnlyTold [srcBayChange, srcPower] x u ∧
      (¬ fits → (u.bay n).like { b with record := { b.record with flags := { f with wait5v := true } } } ∧
        u.line n = x.line n ∧ u.scheduler.queue = x.scheduler.queue) ∧
      (fits → u.line n = (x.line n).switched true false ∧
        ((x.baySet n).policy = .logicOnly →
          (u.bay n).like (b.stands .logic .policy now 0 c5 inLogic b.record.op) ∧ u.scheduler.queue = x.scheduler.queue) ∧
        ((x.baySet n).policy = .autoSpin →
          (u.bay n).like (b.stands .queued .policy now 0 c5 inLogic (some o)) ∧
            u.scheduler.queue = enqueue (x.entryOf n none none) x.scheduler.queue)) := by
  subst htime hop
  exact ⟨h.handled, h.feed, h.exchange, h.told.1, h.told.2, h.noRoom, fun hfits =>
    ⟨(h.fits hfits).line, (h.fits hfits).logicOnly, (h.fits hfits).autoSpin⟩⟩

/-! ### The steps of start-up, one after another -/

/-- Start-up's state once the account is handled (R179, step 4). -/
def State.accounted (k : ResetKind) (w : Surroundings) (now : Time) (a : Bool) : State := (State.found k w now a).accountUpdate.settle

theorem State.accounted_still (k : ResetKind) (w : Surroundings) (now : Time) (a : Bool) (i : Nat) :
    ((State.accounted k w now a).policied i).outer = (State.found k w now a).outer ∧
      Heard (State.found k w now a).accountUpdate ((State.accounted k w now a).policied i) ∧
      Heard (State.found k w now a) ((State.accounted k w now a).policied i) := by
  obtain ⟨houter, hheard⟩ := (State.accounted k w now a).policied_still i
  have hsettled : Heard (State.found k w now a).accountUpdate (State.accounted k w now a) := State.settle_heard _
  refine ⟨houter.trans ?_, hsettled.trans hheard, (State.accountUpdate_heard _).trans (hsettled.trans hheard)⟩
  unfold State.accounted
  rw [State.settle_outer, State.accountUpdate_outer]

end Sys2Proof.Machine
end

