-- ==== Sys2Proof/Proofs/StartWithin.lean ====
section
/-! SUPPORT. The transactions and the resets within start-up (R179). -/

namespace Sys2Proof.Machine

variable {s t u x : State} {n : BayNo} {p : Port} {k : ResetKind} {w : Surroundings} {now : Time} {a : Bool}

/-! ### An event between two steps -/

theorem exec_eventCommand (e : StartUpEvent) (x : State) : exec (eventCommand e) x = .next (x.takeEvent e) := by
  cases e <;> rfl

/-- An event between two steps of start-up is its own command, with start-up's events and reports left for their steps; a reset abandons
start-up (R179). -/
theorem State.takeWithin_command (e : StartUpEvent) (hx : x.phase = .starting) :
    ((x.hushed.takeEvent e).phase = .starting → x.takeWithin e = { x.hushed.takeEvent e with late := x.late, reports := x.reports }) ∧
      ((x.hushed.takeEvent e).phase ≠ .starting → x.takeWithin e = x.hushed.takeEvent e ∧ (x.hushed.takeEvent e).phase = .loading) := by
  have hwithin : x.takeWithin e = if (x.hushed.takeEvent e).phase = .starting
      then { x.hushed.takeEvent e with late := x.late, reports := x.reports } else x.hushed.takeEvent e := if_pos hx
  refine ⟨fun h => hwithin.trans (if_pos h), fun h => ⟨hwithin.trans (if_neg h), ?_⟩⟩
  obtain hc | ⟨straps, hl⟩ | ⟨straps, hl⟩ := State.takeEvent_cases e x.hushed
  · exact absurd (hc.phase.trans hx) h
  · rw [hl]; rfl
  · rw [hl]; rfl

/-! ### The steps with the events after each -/

/-- The events of one gap, taken in their order. -/
def State.takenIn (during : List (Fin 7 × StartUpEvent)) (k : Fin 7) (x : State) : State :=
  (during.filter fun e => e.1 = k).foldl (fun t e => t.takeWithin e.2) x

/-- A step of start-up and the events after it; nothing once start-up is abandoned. -/
def State.andThen (during : List (Fin 7 × StartUpEvent)) (k : Fin 7) (act : State → State) (x : State) : State :=
  if x.phase = .starting then State.takenIn during k (act x) else x

/-- A step that leaves start-up under way, as the statement counts it. -/
theorem State.stage_eq (during : List (Fin 7 × StartUpEvent)) (k : Fin 7) {act : State → State} (hact : ∀ u, (act u).phase = u.phase) (x : State) :
    x.stage during k act = State.andThen during k act x := by
  unfold State.stage State.andThen
  split
  · rename_i hx
    exact if_pos ((hact x).trans hx)
  · rfl

/-- Start-up as its seven steps with the events between them. -/
theorem State.startUp_steps (during : List (Fin 7 × StartUpEvent)) (s : State) :
    let t := State.andThen during 2 State.startBays (State.andThen during 1 (State.raiseBoth srcLoadDone) (State.takenIn during 0 (s.distribute a)))
    let u := State.andThen during 5 State.lightEnclosure (State.andThen during 4 State.startPolicies
      (State.andThen during 3 (fun x => x.accountUpdate.settle) t))
    let v := State.andThen during 6 (fun x => x.publishAll.deliver) u
    s.startUp a during = if v.phase = .starting then v.startReaders else v := by
  have hfirst : (s.distribute a).gap during 0 = State.takenIn during 0 (s.distribute a) := if_pos (State.distribute_phase a s)
  intro t u v
  have hv : v = ((((((s.distribute a).gap during 0).stage during 1 (State.raiseBoth srcLoadDone)).stage during 2 State.startBays).stage during 3
      fun x => x.accountUpdate.settle).stage during 4 State.startPolicies |>.stage during 5 State.lightEnclosure).stage during 6
        fun x => x.publishAll.deliver := by
    rw [State.stage_eq during 6 State.publishAll_phase, State.stage_eq during 5 fun u => u.lightEnclosure_tidy.phase,
      State.stage_eq during 4 fun u => u.startPolicies_tidy.phase,
      State.stage_eq during 3 fun u => (u.accountUpdate_tidy.trans (State.settle_tidy _)).phase, State.stage_eq during 2 State.startBays_phase,
      State.stage_eq during 1 (act := State.raiseBoth srcLoadDone) fun _ => rfl, hfirst]
  rw [hv]
  rfl

/-! ### A reset within start-up -/

/-- The commands, the settings memory and the store stand as the reset before start-up left them. -/
def State.outside (w : Surroundings) (s : State) : Prop := s.pending = w.pending ∧ s.settingsMem = w.settingsMem ∧ s.store = .none

theorem State.outside_of_outer (h : t.outer = s.outer) (hs : s.outside w) : t.outside w := by
  obtain ⟨hpending, hmem, hstore⟩ := hs
  exact ⟨(congrArg Outer.pending h).trans hpending, (congrArg Outer.settingsMem h).trans hmem, (congrArg Outer.store h).trans hstore⟩

/-- Start-up after its step i + 1 and the gap that follows, where the event e falls into gap k: still under way, or as e left it. -/
def Interrupted (w : Surroundings) (e : StartUpEvent) (k : Fin 7) (i : Nat) (s : State) : Prop :=
  (i < k.val ∧ s.phase = .starting ∧ s.outside w) ∨ (k.val ≤ i ∧ ∃ y : State, y.phase = .starting ∧ y.outside w ∧ s = y.takeWithin e)

theorem State.takenIn_single (e : StartUpEvent) (k i : Fin 7) (x : State) :
    State.takenIn [(k, e)] i x = if k = i then x.takeWithin e else x := by
  unfold State.takenIn
  by_cases h : k = i <;> simp [h]

theorem Interrupted.gap {e : StartUpEvent} {k : Fin 7} {i : Fin 7} (hp : x.phase = .starting) (hx : x.outside w) (hi : i.val ≤ k.val) :
    Interrupted w e k i.val (State.takenIn [(k, e)] i x) := by
  rw [State.takenIn_single]
  split
  · rename_i h
    exact .inr ⟨by rw [h], x, hp, hx, rfl⟩
  · rename_i h
    exact .inl ⟨lt_of_le_of_ne hi fun hv => h (Fin.ext hv.symm), hp, hx⟩

/-- A step of start-up goes on from where it stands; a start-up that the event has abandoned takes none. -/
theorem Interrupted.andThen {e : StartUpEvent} {k : Fin 7} {i : Fin 7} {j : Nat} {act : State → State} (hj : i.val = j + 1)
    (hact : ∀ u, (act u).outer = u.outer) (hreset : ∀ y : State, (y.takeWithin e).phase = .loading) (h : Interrupted w e k j s) :
    Interrupted w e k i.val (State.andThen [(k, e)] i act s) := by
  unfold State.andThen
  obtain ⟨hlt, hp, hs⟩ | ⟨hle, y, hyp, hy, rfl⟩ := h
  · rw [if_pos hp]
    exact Interrupted.gap ((congrArg Outer.phase (hact s)).trans hp) (State.outside_of_outer (hact s) hs) (by omega)
  · rw [if_neg (by rw [hreset]; exact nofun)]
    exact .inr ⟨by omega, y, hyp, hy, rfl⟩

theorem State.publishAll_outer (s : State) : s.publishAll.deliver.outer = s.outer := by
  rw [State.deliver_outer, (State.publishAll_full s).1]
  generalize s.publishAll.status = x
  rfl

/-- A reset in a gap of start-up ends it: what the reset leaves is the whole. -/
theorem State.startUp_interrupted {e : StartUpEvent} (hreset : ∀ y : State, (y.takeWithin e).phase = .loading) (k : Fin 7)
    (hs : s.outside w) : ∃ y : State, y.phase = .starting ∧ y.outside w ∧ s.startUp a [(k, e)] = y.takeWithin e := by
  have hfirst : (s.distribute a).outside w := by
    rw [State.distribute_eq]
    exact hs
  have h0 := Interrupted.gap (e := e) (k := k) (i := 0) (State.distribute_phase a s) hfirst (Nat.zero_le _)
  have h1 := h0.andThen (i := 1) (act := State.raiseBoth srcLoadDone) rfl (fun _ => rfl) hreset
  have h2 := h1.andThen (i := 2) (act := State.startBays) rfl (fun u => u.startBays_swept.outer) hreset
  have h3 := h2.andThen (i := 3) (act := fun x => x.accountUpdate.settle) rfl
    (fun u => by rw [State.settle_outer, State.accountUpdate_outer]) hreset
  have h4 := h3.andThen (i := 4) (act := State.startPolicies) rfl (fun u => by rw [← u.policied_all]; exact (u.policied_still 60).1) hreset
  have h5 := h4.andThen (i := 5) (act := State.lightEnclosure) rfl (fun u => u.lightEnclosure_outer) hreset
  have h6 := h5.andThen (i := 6) (act := fun x => x.publishAll.deliver) rfl State.publishAll_outer hreset
  have hsteps := State.startUp_steps (a := a) [(k, e)] s
  obtain ⟨hlt, -⟩ | ⟨-, y, hyp, hy, heq⟩ := h6
  · exact absurd hlt (by have := k.isLt; show ¬ (6 : Nat) < k.val; omega)
  · refine ⟨y, hyp, hy, hsteps.trans ?_⟩
    rw [heq, if_neg (by rw [hreset]; exact nofun)]

/-- The load of a reset that abandons start-up (R29, R30, R178). -/
theorem State.loading_again (kind : ResetKind) (v : Surroundings) : (State.loading kind v).phase = .loading ∧ (State.loading kind v).time = 0 ∧
    (State.loading kind v).late = [] ∧ (State.loading kind v).quiet ∧ (State.loading kind v).windows = ⟨none, none⟩ ∧
    (∀ p, ((State.loading kind v).reader p).state = .idleLoading ∧ ((State.loading kind v).reader p).table = []) ∧
    (∀ n, (State.loading kind v).bay n = .cold) ∧ ∀ a, (State.loading kind v).statusByte a = 0 :=
  ⟨rfl, rfl, rfl, ⟨rfl, rfl, rfl, rfl⟩, rfl, fun p => by rw [State.loading_reader]; exact ⟨rfl, rfl⟩, State.loading_bay kind v,
    State.statusByte_blank rfl⟩

end Sys2Proof.Machine
end

