-- ==== Sys2Proof/Proofs/StartCalm.lean ====
section
/-! SUPPORT. Start-up where nothing moves a bay: a cold reset, or every policy MANUAL and no shed at once; with the anchors' links 0 (R179). -/

namespace Sys2Proof.Machine

variable {s t u x v : State} {n : BayNo} {p : Port} {k : ResetKind} {w : Surroundings} {now : Time} {a : Bool}

/-! ### The account's step -/

theorem State.sums_zero (h : ∀ n, (s.bay n).contribution12 = 0 ∧ (s.bay n).contribution5 = 0) : s.sum12 = 0 ∧ s.sum5 = 0 := by
  have hmem : ∀ b ∈ s.bays.toList, b.contribution12 = 0 ∧ b.contribution5 = 0 := fun b hb => by
    obtain ⟨i, hi, rfl⟩ := Vector.getElem_of_mem (Vector.mem_toList_iff.1 hb)
    exact h ⟨i, hi⟩
  unfold State.sum12 State.sum5
  constructor <;> refine List.sum_eq_zero fun c hc => ?_ <;> obtain ⟨b, hb, rfl⟩ := List.mem_map.1 hc
  · exact (hmem b hb).1
  · exact (hmem b hb).2

/-- No bay that start-up finds waits for 5 V. -/
theorem State.found_waits (k : ResetKind) (w : Surroundings) (now : Time) (a : Bool) (n : BayNo) :
    ((State.found k w now a).bay n).record.flags.wait5v = false := by
  have hbay : (State.found k w now a).bay n = ((State.found k w now a).stall n).1 := rfl
  rw [hbay]
  cases k with
  | cold =>
    rw [State.found_cold]
    split <;> rfl
  | warm =>
    rw [State.found_warm]
    split <;> rfl

/-- Every policy is MANUAL, and the settings start no shed run at once. -/
def Settings.still (c : Settings) : Prop := (∀ n : BayNo, c.bays[n].policy = .manual) ∧ (c.account.shed = false ∨ c.account.delay ≠ 0)

theorem State.found_notOver (k : ResetKind) (w : Surroundings) (now : Time) (a : Bool) : (State.found k w now a).account.overCommitted = false := by
  rw [State.found_account]; rfl

/-- The account's step of start-up starts no shed run on a cold reset, or where the settings start none at once (R43, R44). -/
theorem State.found_noRun (h : k = .cold ∨ (State.loadSet k w now a).still) : (State.found k w now a).accountUpdate.reports.run = false := by
  obtain ⟨-, -, -, hset, -⟩ := State.found_fields k w now a
  have hover := State.found_notOver k w now a
  have hrun : (State.found k w now a).reports.run = false := by
    have hbefore : (State.announced k w now a).account.overCommitted = false := by
      rw [← (State.found_swept k w now a).account]; exact hover
    rw [(State.found_swept k w now a).run hbefore, State.announced_eq]; rfl
  have hexpired : ((State.found k w now a).evaluated (State.found k w now a).figures).delayExpired = false := by
    unfold State.evaluated
    rw [hover, hset, if_neg (by decide : ¬ (false = true))]
    obtain rfl | ⟨-, hshed⟩ := h
    · have hnot : ¬ (State.found .cold w now a).figures.exceeded = true := by
        have hsums := State.sums_zero (s := State.found .cold w now a) fun n => by
          have hbay : (State.found .cold w now a).bay n = ((State.found .cold w now a).stall n).1 := rfl
          rw [hbay, State.found_cold]
          split <;> exact ⟨rfl, rfl⟩
        rw [Account.exceeded_iff]
        show ¬ ((State.found .cold w now a).usableBudget12 < (State.found .cold w now a).sum12 ∨ _ < (State.found .cold w now a).sum5)
        rw [hsums.1, hsums.2]
        simp
      rw [if_neg hnot]
    · split
      · rcases hshed with hshed | hdelay
        · simp [hshed]
        · simp [hdelay]
      · rfl
  rw [State.accountUpdate_eq]
  simp [State.accountReports, State.rerunReady, hrun, hover, hexpired]

theorem State.found_calm (h : k = .cold ∨ (State.loadSet k w now a).still) : (State.found k w now a).accountUpdate.calm := by
  obtain ⟨-, -, -, -, -, -, -, hsched, -⟩ := State.found_fields k w now a
  have hsame : (State.found k w now a).accountUpdate.scheduler = .cold := by rw [State.accountUpdate_eq]; exact hsched
  have hbays : (State.found k w now a).accountUpdate.bays = (State.found k w now a).bays := by rw [State.accountUpdate_eq]
  refine ⟨by rw [hsame]; rfl, by rw [hsame]; rfl, fun n hwaits => ?_, State.found_noRun h, ?_⟩
  · have hflag := hwaits.2.1
    unfold State.bay at hflag
    rw [hbays] at hflag
    exact absurd (hflag.symm.trans (State.found_waits k w now a n)) (by decide)
  · have hthermal : (State.found k w now a).accountUpdate.reports.thermal = (State.found k w now a).reports.thermal := by
      rw [State.accountUpdate_eq]; rfl
    rw [hthermal, (State.found_swept k w now a).thermal, State.announced_eq]
    rfl

/-- Where nothing moves a bay, the account's step and the policies leave the account handled and no report waiting. -/
theorem State.accounted_calm (h : k = .cold ∨ (State.loadSet k w now a).still) (i : Nat) :
    (State.accounted k w now a).policied i = (State.found k w now a).accountUpdate.unasked := by
  have hcalm := State.found_calm h
  have hfirst : State.accounted k w now a = (State.found k w now a).accountUpdate.unasked := State.settle_calm hcalm
  have hkind : (State.accounted k w now a).resetKind = k := by
    have := congrArg Outer.resetKind (State.accounted_still k w now a 0).1
    rw [State.policied_zero] at this
    exact this.trans (State.found_fields k w now a).2.2.2.2.2.2.2.2.2
  unfold State.policied
  rw [hkind]
  cases k with
  | cold => exact hfirst
  | warm =>
    obtain hc | ⟨hmanual, -⟩ := h
    · cases hc
    · have hquiet : (State.found .warm w now a).accountUpdate.unasked.quiet := ⟨rfl, rfl, hcalm.run, hcalm.thermal⟩
      have hset : (State.found .warm w now a).accountUpdate.unasked.settings = State.loadSet .warm w now a := by
        have houter : (State.found .warm w now a).accountUpdate.unasked.outer = (State.found .warm w now a).outer := State.accountUpdate_outer _
        exact (congrArg Outer.settings houter).trans (State.found_fields .warm w now a).2.2.2.1
      rw [hfirst]
      dsimp only
      refine foldl_keeps (P := fun u => u = (State.found .warm w now a).accountUpdate.unasked) (fun u n hu => ?_) _ _ rfl
      subst hu
      unfold State.startPolicy
      split
      · rw [State.applyPolicy_stays (.inr (by unfold State.baySet; rw [hset]; exact hmanual n)), State.settle_quiet _ hquiet]
      · rfl

/-! ### The readers at rest -/

/-- Start-up with no event within it: its steps, and then both readers' start. -/
theorem State.startUp_nil (k : ResetKind) (w : Surroundings) (now : Time) (a : Bool) : (State.loadAt k w now).startUp a [] =
    ((((State.accounted k w now a).policied 60).opened.startReader .a).startReader .b).close := by
  have hfirst : ((State.loadAt k w now).distribute a).phase = .starting := State.distribute_phase a _
  have hannounced : (State.announced k w now a).phase = .starting := hfirst
  have hfound : (State.found k w now a).phase = .starting := (State.found_fields k w now a).1
  have hstill (i : Nat) : ((State.accounted k w now a).policied i).phase = .starting :=
    (congrArg Outer.phase (State.accounted_still k w now a i).1).trans hfound
  have haccounted : (State.accounted k w now a).phase = .starting := State.policied_zero (State.accounted k w now a) ▸ hstill 0
  have hpolicied : (State.accounted k w now a).startPolicies = (State.accounted k w now a).policied 60 := (State.policied_all _).symm
  have hlit : ((State.accounted k w now a).policied 60).lightEnclosure.phase = .starting :=
    (congrArg Outer.phase (State.lightEnclosure_outer _)).trans (hstill 60)
  have hended : ((State.accounted k w now a).policied 60).lightEnclosure.publishAll.deliver.phase = .starting :=
    (congrArg Outer.phase (State.publishAll_outer _)).trans hlit
  unfold State.startUp
  dsimp only
  rw [State.gap_nil, State.stage_nil _ _ hfirst, ← State.announced, State.stage_nil _ _ hannounced, ← State.found, State.stage_nil _ _ hfound,
    ← State.accounted, State.stage_nil _ _ haccounted, hpolicied, State.stage_nil _ _ (hstill 60), State.stage_nil _ _ hlit, if_pos hended]
  rfl

/-- Starting a reader whose anchor's link word is 0 moves its record and the status area (R160, R165). -/
theorem State.startReader_still (hlink : ∀ x, v.windows.get p = some x → x.base + 0x1C < 65536 ∧ Memory.read16 v.ram (x.base + 0x1C) = 0) :
    v.startReader p = { v with readers := (v.startReader p).readers, status := (v.startReader p).status } ∧
      (∃ g, (v.startReader p).reader p =
        { v.reader p with state := (restingAt (v.windows.get p)).1, watch := (restingAt (v.windows.get p)).2, gen := g }) ∧
      ∃ g, (v.startReader p).reader (Port.other p) = { v.reader (Port.other p) with gen := g } := by
  rw [State.startReader_rests hlink]
  refine ⟨by rw [State.pubReader_eq]; rfl, ?_, ?_⟩
  · obtain ⟨g, hg⟩ := State.pubReader_reader (v.putReader p _) p p
    exact ⟨g, by rw [hg, State.reader_putReader]⟩
  · obtain ⟨g, hg⟩ := State.pubReader_reader (v.putReader p _) p (Port.other p)
    exact ⟨g, by rw [hg, State.reader_putReader_other]⟩

/-- Both readers started at rest: each as its window gives, and nothing else of the part moves but the status area. -/
theorem State.startReaders_still (hlink : ∀ p x, v.windows.get p = some x → x.base + 0x1C < 65536 ∧ Memory.read16 v.ram (x.base + 0x1C) = 0)
    (hquiet : v.quiet) (hlate : v.late = []) :
    let t := ((v.startReader .a).startReader .b).close
    t = { v with readers := t.readers, status := t.status } ∧ Brief [] v t ∧
      ∀ p, ∃ g, t.reader p =
        { v.reader p with state := (restingAt (v.windows.get p)).1, watch := (restingAt (v.windows.get p)).2, gen := g } := by
  obtain ⟨heqA, ⟨ga, hga⟩, gb, hgb⟩ := State.startReader_still (hlink .a)
  have hbriefA := (v.startReader_brief .a).1
  have hbriefB := ((v.startReader .a).startReader_brief .b).1
  generalize v.startReader .a = u at heqA hga hgb hbriefA hbriefB
  have hwindows : u.windows = v.windows := by rw [heqA]
  have hram : u.ram = v.ram := by rw [heqA]
  obtain ⟨heqB, ⟨gb', hgb'⟩, ga', hga'⟩ := State.startReader_still (v := u) (p := .b) (by rw [hwindows, hram]; exact hlink .b)
  generalize u.startReader .b = t at heqB hgb' hga' hbriefB
  have htquiet : t.quiet := by
    have hreports : t.reports = v.reports := by rw [heqB, heqA]
    unfold State.quiet
    rw [hreports]
    exact hquiet
  have htlate : t.late = [] := by rw [heqB, heqA]; exact hlate
  intro r
  have hr : r = t := State.close_quiet t htquiet htlate
  rw [hr]
  refine ⟨by rw [heqB, heqA], hbriefA.trans hbriefB, fun p => ?_⟩
  cases p with
  | a => exact ⟨ga', by rw [show t.reader .a = _ from hga', show u.reader (Port.other .b) = _ from hga]⟩
  | b => exact ⟨gb', hgb'.trans (by rw [show u.reader .b = _ from hgb, hwindows]; rfl)⟩

/-! ### The whole of it -/

theorem State.validWindow_below {y : Window} (h : s.validWindow p = some y) : y.base + 0x1C < 0x8000 := by
  unfold State.validWindow at h
  split at h
  · split at h
    · cases h
    · rename_i hw _
      exact Option.some.inj h ▸ windowOf_below hw
    · rename_i hw _
      split at h
      · cases h
      · exact Option.some.inj h ▸ windowOf_below hw
  · cases h

theorem State.loadWindows_below {y : Window} (h : (State.loadWindows k w now a).get p = some y) : y.base + 0x1C < 0x8000 := by
  rw [State.loadWindows_eq] at h
  cases p with
  | a => exact windowOf_below h
  | b => exact State.validWindow_below h

/-- What start-up leaves where nothing moves a bay and the anchors' links are 0. -/
structure StartedCalm (k : ResetKind) (w : Surroundings) (now : Time) (a : Bool) (t : State) : Prop where
  outer    : t.outer = { (State.found k w now a).outer with phase := .running }
  late     : t.late = []
  quiet    : t.quiet
  account  : t.account = (State.found k w now a).accountUpdate.account
  bays     : t.bays = (State.found k w now a).bays
  lines    : t.lines = (State.found k w now a).lines
  queue    : t.scheduler.queue = []
  ram      : t.ram = w.ram
  balanced : t.balanced
  shown    : ∀ n, t.shown n
  marked   : t.status.bitmaps = ⟨BitVec.allOnes 80, BitVec.allOnes 80⟩
  readers  : ∀ p, ∃ g, t.reader p =
    { Reader.cold with state := (restingAt ((State.loadWindows k w now a).get p)).1, watch := (restingAt ((State.loadWindows k w now a).get p)).2, gen := g }
  pending  : ∀ (p : Port) (i : Fin 8), (t.attention.get p).pending[i] = true ↔
    ((State.loadSet k w now a).attention.get p)[i].enable = true ∧ (p, i) ∈ (State.found k w now a).accountUpdate.late

theorem coldUnits_pending (p : Port) (i : Fin 8) : ¬ ((⟨.cold, .cold⟩ : PerPort AttentionUnit).get p).pending[i] = true := by
  cases p
  all_goals
    show ¬ AttentionUnit.cold.pending[i] = true
    rw [AttentionUnit.cold_pending]
    decide

theorem State.startUp_calm (h : k = .cold ∨ (State.loadSet k w now a).still)
    (hlink : ∀ p y, (State.loadWindows k w now a).get p = some y → Memory.read16 w.ram (y.base + 0x1C) = 0) :
    StartedCalm k w now a ((State.loadAt k w now).startUp a []) := by
  obtain ⟨hphase, -, -, hset, -, hram, hwindows, hsched, -⟩ := State.found_fields k w now a
  have hcalm := State.found_calm h
  have hnil := State.startUp_nil k w now a
  rw [State.accounted_calm h 60] at hnil
  have heq := State.opened_eq (State.found k w now a).accountUpdate.unasked
  have houter := State.opened_outer (State.found k w now a).accountUpdate.unasked
  have hstarting : (State.found k w now a).accountUpdate.unasked.phase = .starting :=
    (congrArg Outer.phase (State.accountUpdate_outer (State.found k w now a))).trans hphase
  obtain ⟨hlive, hstands⟩ := State.opened_stands hstarting
  have hmarked := State.opened_allMarked (State.found k w now a).accountUpdate.unasked
  have hpending := State.opened_pending (State.found k w now a).accountUpdate.unasked
  have hupdate := State.accountUpdate_eq (State.found k w now a)
  have hbalanced := State.balanced_running hstarting (State.accountUpdate_balanced (s := State.found k w now a))
  have hattention : (State.found k w now a).accountUpdate.attention = ⟨.cold, .cold⟩ := by
    rw [(State.accountUpdate_heard _).attention, (State.found_swept k w now a).attention, State.announced_eq]; rfl
  have hunasked : (State.found k w now a).accountUpdate.unasked.outer = (State.found k w now a).outer := State.accountUpdate_outer _
  have hupset : (State.found k w now a).accountUpdate.settings = State.loadSet k w now a := (congrArg Outer.settings hunasked).trans hset
  have hvbalanced : (State.found k w now a).accountUpdate.unasked.opened.balanced := by rw [heq]; exact hbalanced
  have hvquiet : (State.found k w now a).accountUpdate.unasked.opened.quiet := by rw [heq]; exact ⟨rfl, rfl, hcalm.run, hcalm.thermal⟩
  have hvlate : (State.found k w now a).accountUpdate.unasked.opened.late = [] := by rw [heq]
  have hvaccount : (State.found k w now a).accountUpdate.unasked.opened.account = (State.found k w now a).accountUpdate.account := by rw [heq]; rfl
  have hvbays : (State.found k w now a).accountUpdate.unasked.opened.bays = (State.found k w now a).bays := by
    rw [heq]
    show (State.found k w now a).accountUpdate.bays = _
    rw [hupdate]
  have hvlines : (State.found k w now a).accountUpdate.unasked.opened.lines = (State.found k w now a).lines := by
    rw [heq]
    show (State.found k w now a).accountUpdate.lines = _
    rw [hupdate]
  have hvqueue : (State.found k w now a).accountUpdate.unasked.opened.scheduler.queue = [] := by rw [heq]; exact hcalm.queue
  have hvram : (State.found k w now a).accountUpdate.unasked.opened.ram = w.ram := by
    rw [heq]
    show (State.found k w now a).accountUpdate.ram = _
    rw [hupdate]
    exact hram
  have hvreaders : (State.found k w now a).accountUpdate.unasked.opened.readers = ⟨.cold, .cold⟩ := by
    rw [heq]
    show (State.found k w now a).accountUpdate.readers = _
    rw [hupdate]
    exact (State.found_swept k w now a).readers.trans (by rw [State.announced_eq]; rfl)
  generalize (State.found k w now a).accountUpdate.unasked.opened = v at *
  have hvouter : v.outer = { (State.found k w now a).outer with phase := .running } := houter.trans (by rw [hunasked])
  have hvwindows : v.windows = State.loadWindows k w now a := (congrArg Outer.windows hvouter).trans hwindows
  obtain ⟨ht, hbrief, hreader⟩ := State.startReaders_still (v := v) (fun p y hy => by
    rw [hvwindows] at hy
    rw [hvram]
    exact ⟨lt_trans (State.loadWindows_below hy) (by decide), hlink p y hy⟩) hvquiet hvlate
  rw [hnil]
  generalize ((v.startReader .a).startReader .b).close = t at ht hbrief hreader
  have hcold (p : Port) : v.reader p = .cold := by
    unfold State.reader
    rw [hvreaders]
    cases p <;> rfl
  constructor
  case outer => rw [ht]; exact hvouter
  case late => rw [ht]; exact hvlate
  case quiet => rw [ht]; exact hvquiet
  case account => rw [ht]; exact hvaccount
  case bays => rw [ht]; exact hvbays
  case lines => rw [ht]; exact hvlines
  case queue => rw [ht]; exact hvqueue
  case ram => rw [ht]; exact hvram
  case balanced => rw [ht]; exact hvbalanced
  case shown => exact fun n => hbrief.stands hlive (.bay n) List.not_mem_nil (hstands (.bay n))
  case marked => exact (Status.allMarked_iff _).1 (Status.carried_allMarked hbrief.carried hmarked)
  case readers =>
    intro p
    obtain ⟨g, hg⟩ := hreader p
    refine ⟨g, ?_⟩
    rw [hg, hcold, hvwindows]
  case pending =>
    intro p i
    have hsame : t.attention = v.attention := by rw [ht]
    rw [hsame, hpending p i]
    show ((State.found k w now a).accountUpdate.attention.get p).pending[i] = true ∨
      (((State.found k w now a).accountUpdate.settings.attention.get p)[i].enable = true ∧ (p, i) ∈ (State.found k w now a).accountUpdate.late) ↔ _
    rw [hattention, hupset]
    exact or_iff_right (coldUnits_pending p i)

end Sys2Proof.Machine
end

