-- ==== Sys2Proof/Proofs/StartUpRuns.lean ====
section
/-! Start-up runs as its rules say (R179, R9, R29, R30, R31, R33, R53, R80, R147, R165, R169). -/

namespace Sys2Proof.Machine

variable {s t u x v : State} {n : BayNo} {p : Port} {k : ResetKind} {w : Surroundings} {now : Time} {a : Bool}

theorem State.stall_eq {b : Bay} {l : BayLines} {f : BayFeed} (h : s.stall n = (b, l, f)) : s.bay n = b ∧ s.line n = l ∧ s.feed n = f := by
  obtain ⟨hb, hrest⟩ := Prod.mk.inj h
  obtain ⟨hl, hf⟩ := Prod.mk.inj hrest
  exact ⟨hb, hl, hf⟩

theorem Bay.like_of_eq {b c : Bay} (h : b = c) : b.like c := by subst h; rfl

theorem State.announced_rediscoveredBay (w : Surroundings) (now : Time) (a : Bool) (n : BayNo) (l : BayLines) :
    (State.announced .warm w now a).rediscoveredBay n l =
      (let st := rediscoveredState l
       let p := (State.loadSet .warm w now a).profiles[(State.loadSet .warm w now a).bays[n].profile]
       let waits := st = .faulted ∧ 0 < (State.loadSet .warm w now a).timing.retryLimit
       { Bay.cold with
         record := { BayRecord.cold with
           state := st, reason := .rediscovered, entered := now, c12 := if st = .ready then p.steady12 else 0
           c5 := if st = .ready ∨ st = .logic then p.i5 else 0, trips := if st = .faulted then 1 else 0
           flags := { BayFlags.clear with latchOpen := decide (st ≠ .empty) && l.latch }
           op := if waits then some ((State.loadAt .warm w now).internalOp .retryWait) else none }
         backoffAt := if waits then some (Time.plus now (min 300 (State.loadSet .warm w now a).timing.retryBase * 1000)) else none }) := by
  rw [State.announced_eq]
  rfl

/-- After the bays are found the account's step raises POWER exactly where it enters over-commit (R33, R42). -/
theorem State.found_powerDue (k : ResetKind) (w : Surroundings) (now : Time) (a : Bool) :
    (State.found k w now a).powerDue ((State.found k w now a).evaluated (State.found k w now a).figures) =
      (State.found k w now a).accountUpdate.account.overCommitted := by
  have hlost : ((State.found k w now a).evaluated (State.found k w now a).figures).redundancyLost = (State.found k w now a).account.redundancyLost := by
    rw [State.evaluated_redundancyLost]
    exact Bool.eq_iff_iff.2 ((State.redundancyLostNow_iff _).trans (State.found_spareGone k w now a).symm)
  have haccount : (State.found k w now a).accountUpdate.account = (State.found k w now a).evaluated (State.found k w now a).figures := by
    rw [State.accountUpdate_eq]
  unfold State.powerDue
  rw [hlost, State.found_notOver, haccount]
  simp

/-- A reset within start-up leaves the new load (R179). -/
theorem State.takeWithin_cold (y : State) (straps : Straps) (hy : y.phase = .starting) :
    y.takeWithin (.coldReset straps) = .loading .cold (y.coldSurroundings straps 0) := by
  unfold State.takeWithin
  rw [if_pos hy]
  exact if_neg nofun

theorem State.takeWithin_warm (y : State) (straps : Straps) (hy : y.phase = .starting) :
    y.takeWithin (.warmReset straps) = .loading .warm (y.warmSurroundings straps 0) := by
  unfold State.takeWithin
  rw [if_pos hy]
  exact if_neg nofun

/-- What the load of a reset within start-up begins with (R178, R179). -/
theorem State.interrupted_begun {y : State} {v : Surroundings} {straps : Straps} (hpending : y.pending = w.pending)
    (hmem : y.settingsMem = w.settingsMem) (hstore : y.store = .none) (kind : ResetKind) (hv : v.pending = y.pending) (hs : v.straps = straps)
    (hm : v.settingsMem = y.interruptedMemory 0) :
    let t := State.loading kind v
    t.phase = .loading ∧ t.time = 0 ∧ t.straps = straps ∧ t.pending = w.pending ∧ t.settingsMem = w.settingsMem ∧ t.late = [] ∧ t.quiet ∧
      t.windows = ⟨none, none⟩ ∧ (∀ p, (t.reader p).state = .idleLoading ∧ (t.reader p).table = []) ∧ (∀ n, t.bay n = .cold) ∧
      ∀ a, t.statusByte a = 0 := by
  intro t
  have hkept : y.interruptedMemory 0 = y.settingsMem := State.interruptedMemory_idle 0 fun _ _ _ h => by rw [hstore] at h; cases h
  obtain ⟨hphase, htime, hlate, hquiet, hwindows, hreaders, hbays, hstatus⟩ := State.loading_again kind v
  exact ⟨hphase, htime, hs, hv.trans hpending, hm.trans (hkept.trans hmem), hlate, hquiet, hwindows, hreaders, hbays, hstatus⟩

/-- A cold reset opens every switch (R29). -/
theorem State.loading_open (y : State) (straps : Straps) (writes : Nat) (n : BayNo) :
    let l := (State.loading .cold (y.coldSurroundings straps writes)).line n
    l.sw5 = false ∧ l.sw12 = false := by
  intro l
  have hl : l = { y.line n with trip := false, sw5 := false, sw12 := false } := y.coldSurroundings_line straps writes n
  rw [hl]
  exact ⟨rfl, rfl⟩

theorem State.found_gen (k : ResetKind) (w : Surroundings) (now : Time) (a : Bool) (n : BayNo) : ((State.found k w now a).stall n).1.record.gen = 0 := by
  cases k with
  | cold => rw [State.found_cold]; split <;> rfl
  | warm => rw [State.found_warm]; split <;> rfl

/-- LOAD_DONE is raised to both ports, and POWER where REDUNDANCY_LOST is set or the account over-committed (R33, R42, R166). -/
theorem State.found_loadDone (k : ResetKind) (w : Surroundings) (now : Time) (a : Bool) (p : Port) :
    (p, srcLoadDone) ∈ (State.found k w now a).accountUpdate.late := by
  rw [State.accountUpdate_late, State.found_late]
  cases p <;> simp

theorem State.found_power (k : ResetKind) (w : Surroundings) (now : Time) (a : Bool) (p : Port) :
    (p, srcPower) ∈ (State.found k w now a).accountUpdate.late ↔
      (State.found k w now a).account.redundancyLost = true ∨ (State.found k w now a).accountUpdate.account.overCommitted = true := by
  have hapart : srcPower ≠ srcLoadDone := by decide
  rw [State.accountUpdate_late, State.found_late, State.found_powerDue]
  cases (State.found k w now a).account.redundancyLost <;> cases (State.found k w now a).accountUpdate.account.overCommitted <;>
    cases p <;> simp [hapart]

/-- What stands beside the units (R178, R179). -/
theorem StartedCalm.plain (h : StartedCalm k w now a t) : t.phase = .running ∧ t.pending = w.pending ∧ t.time = now ∧ t.straps = w.straps ∧
    t.settings = State.loadSet k w now a ∧ t.cause = State.loadCause k w now a ∧ (t.origin = .image ↔ State.loadCause k w now a = .none) ∧
    t.store = .none ∧ t.settingsMem = w.settingsMem ∧ t.driving = true ∧ t.scanAt = some (Time.plus now 1000) ∧
    t.coolingAt = some (Time.plus now 1000) ∧ t.refreshAt = some (Time.plus now 10) ∧ t.fans.c = 1000 := by
  have hout := h.outer.trans (congrArg (fun o : Outer => { o with phase := .running }) (State.found_outer k w now a))
  have horigin : t.origin = if State.loadCause k w now a = .none then .image else .defaults := congrArg Outer.origin hout
  refine ⟨congrArg Outer.phase hout, congrArg Outer.pending hout, congrArg Outer.time hout, congrArg Outer.straps hout,
    congrArg Outer.settings hout, congrArg Outer.cause hout, ?_, congrArg Outer.store hout, congrArg Outer.settingsMem hout,
    congrArg Outer.driving hout, congrArg Outer.scanAt hout, congrArg Outer.coolingAt hout, congrArg Outer.refreshAt hout,
    (congrArg FanControl.c (congrArg Outer.fans hout))⟩
  rw [horigin]
  split
  · rename_i hnone
    exact ⟨fun _ => hnone, fun _ => rfl⟩
  · rename_i hsome
    exact ⟨nofun, fun hnone => absurd hnone hsome⟩

theorem StartedCalm.fan (h : StartedCalm k w now a t) (i : Fin 6) : t.fans.fans[i].record.state =
    if (State.loadSet k w now a).fans.count ≤ i.val then .unused else if w.fanPresence[i] then .starting else .absent := by
  have hout := h.outer.trans (congrArg (fun o : Outer => { o with phase := .running }) (State.found_outer k w now a))
  have hfan : t.fans.fans[i] = ((State.loadAt k w now).fans.fans[i] : Fan).started (State.loadSet k w now a).fans.count i.val now := by
    rw [show t.fans = _ from congrArg Outer.fans hout]
    exact Vector.getElem_ofFn _
  have hpresent : ((State.loadAt k w now).fans.fans[i] : Fan).present = w.fanPresence[i] := State.loading_present k w i
  rw [hfan, Fan.started, hpresent]
  split
  · rfl
  · split <;> rfl

theorem StartedCalm.sensor (h : StartedCalm k w now a t) (i : Fin 8) : t.sensors[i].state =
    if (State.loadSet k w now a).sensors[i].zone = none then .unused else .noData := by
  have hout := h.outer.trans (congrArg (fun o : Outer => { o with phase := .running }) (State.found_outer k w now a))
  have hsensor : t.sensors[i] = ((State.loadAt k w now).sensors[i] : Sensor).started (State.loadSet k w now a).sensors[i] := by
    rw [show t.sensors = _ from congrArg Outer.sensors hout]
    exact Vector.getElem_ofFn _
  rw [hsensor, Sensor.started]
  cases (State.loadSet k w now a).sensors[i].zone <;> rfl

theorem StartedCalm.zone (h : StartedCalm k w now a t) (z : Fin 4) : t.zones[z].state = .normal ∧
    t.zones[z].e = (State.loadSet k w now a).zones[z].curve.p1.t ∧ t.zones[z].timer = .stopped := by
  have hout := h.outer.trans (congrArg (fun o : Outer => { o with phase := .running }) (State.found_outer k w now a))
  have hzone : t.zones[z] = Zone.cold (State.loadSet k w now a).zones[z].curve := by
    rw [show t.zones = _ from congrArg Outer.zones hout]
    exact Vector.getElem_ofFn _
  rw [hzone]
  exact ⟨rfl, rfl, rfl⟩

/-- Settles O5: start-up's steps one by one from the load, the calm case to its end, and the transactions and resets within it. -/
theorem startUpRuns : Obligations.StartUpRuns := by
  intro kind w now answered s cause set inA inB manual found supply gone settling
  have hwin : State.loadWindows kind w now answered = ⟨inA, inB⟩ := by
    rw [State.loadWindows_eq, State.validWindow_b]
    refine congrArg (PerPort.mk _) ?_
    rfl
  obtain ⟨hphase, htime, hstraps, hset, hcause, hram, hwindows, hsched, hfanRes, hkind⟩ := State.found_fields kind w now answered
  have hsupply (i : Fin 4) : (State.found kind w now answered).account.supplies[i].state = supply i := State.found_supply kind w now answered i
  have hgone : (State.found kind w now answered).account.redundancyLost = true ↔ gone := by
    rw [State.found_spareGone]
    unfold State.spareGone
    rw [hset]
    simp only [hsupply]
    rfl
  have hop (x : State) (h : x.time = now) (o : OpKind) : x.internalOp o = s.internalOp o := by
    unfold State.internalOp
    rw [h]
  have hexec (during : List (Fin 7 × StartUpEvent)) : exec (.startUp ⟨answered, during⟩) s = .next (s.startUp answered during) :=
    congrArg Host.Outcome.next (if_pos (rfl : s.phase = .loading))
  refine ⟨?_, ?_, ?_, ?_, ?_⟩
  · intro hanchors
    have hlink (p : Port) (y : Window) (hy : (State.loadWindows kind w now answered).get p = some y) : Memory.read16 w.ram (y.base + 0x1C) = 0 := by
      rw [hwin] at hy
      cases p with
      | a => exact hanchors y (.inl hy)
      | b => exact hanchors y (.inr hy)
    have hcalm (h : kind = .cold ∨ manual) : StartedCalm kind w now answered (s.startUp answered []) := State.startUp_calm h hlink
    have hended := hexec []
    generalize s.startUp answered [] = t at hcalm hended
    have hbay (h : kind = .cold ∨ manual) (n : BayNo) : t.bay n = ((State.found kind w now answered).stall n).1 ∧
        t.line n = ((State.found kind w now answered).stall n).2.1 := by
      have hc := hcalm h
      unfold State.bay State.line
      rw [hc.bays, hc.lines]
      exact ⟨rfl, rfl⟩
    refine ⟨t, hended, fun h => ?_, fun hk n => ?_, fun hk hmanual n hin => ?_⟩
    · have hc := hcalm h
      obtain ⟨hphase, hpending, htime, hstraps, hset, hcause, horigin, hstore, hmem, hdriving, hscan, hcooling, hrefresh, hc1000⟩ := hc.plain
      refine ⟨hphase, hpending, htime, hstraps, hset, hcause, horigin, hstore, hmem, hc.ram, hc.late, hc.quiet, ?_, hdriving, fun p => ?_, hc1000, hscan,
        hcooling, hrefresh, hc.queue, hc.balanced, hc.fan, fun i => ?_, hc.sensor, hc.zone, fun n => ⟨hc.shown n, ?_⟩, hc.marked, fun p => ?_,
        fun p => ?_⟩
      · exact (congrArg Outer.windows hc.outer).trans (hwindows.trans hwin)
      · obtain ⟨g, hg⟩ := hc.readers p
        have htw : t.windows.get p = (State.loadWindows kind w now answered).get p := by
          rw [show t.windows = _ from (congrArg Outer.windows hc.outer).trans hwindows]
        rw [hg, htw]
        refine ⟨rfl, rfl, ?_⟩
        cases (State.loadWindows kind w now answered).get p <;> exact ⟨rfl, rfl⟩
      · rw [show t.account.supplies = _ from congrArg Outer.supplies hc.outer]
        exact hsupply i
      · rw [(hbay h n).1]
        exact State.found_gen kind w now answered n
      · exact Bool.eq_iff_iff.2 ((hc.pending p srcLoadDone).trans (and_iff_left (State.found_loadDone kind w now answered p)))
      · rw [hc.pending p srcPower, State.found_power, hgone, hc.account]
        exact Iff.rfl
    · subst hk
      obtain ⟨hb, -⟩ := hbay (.inl rfl) n
      rw [hb, State.found_cold]
      refine ⟨fun hin hpres => ?_, fun hout => ?_⟩
      · rw [if_pos ⟨hin, hpres⟩]
        exact Bay.like_of_eq (State.announced_settlingBay ..)
      · exact congrArg Prod.fst (if_neg fun h => hout.elim (fun hout => absurd (h.1.symm.trans hout) (by decide))
          fun hout => absurd (h.2.symm.trans hout) (by decide))
    · subst hk
      intro l r st p
      obtain ⟨hb, hl⟩ := hbay (.inr hmanual) n
      have hst : rediscoveredState w.lines[n] = st := rediscoveredState_rows _
      have hstall := (State.found_warm w now answered n).trans (if_pos hin)
      have hr : r = ((State.announced .warm w now answered).rediscoveredBay n w.lines[n]).record := by
        show (t.bay n).record = _
        rw [hb, hstall]
      rw [State.announced_rediscoveredBay, hst] at hr
      rw [hr]
      refine ⟨rfl, rfl, rfl, rfl, rfl, rfl, rfl, rfl, rfl, ?_⟩
      rw [hl, hstall, hst]
  · refine ⟨State.found kind w now answered, ((State.accounted kind w now answered).policied 60).opened, (State.accounted kind w now answered).policied,
      rfl, ?_, rfl, ?_, ?_, ?_, ?_, ?_, ?_, ?_, ?_, ?_, ?_, ?_⟩
    · rw [State.policied_zero, State.policied_all]
    · exact ⟨hphase, htime, hstraps, hset, hcause, hram, hwindows.trans hwin, by rw [hsched]; rfl, by rw [hsched]; rfl, hfanRes, hsupply, hgone⟩
    · rintro rfl n
      have hstall := State.found_cold w now answered n
      refine ⟨fun hin hpres => ?_, fun hout => ?_⟩
      · obtain ⟨hbay, hline, -⟩ := State.stall_eq (hstall.trans (if_pos ⟨hin, hpres⟩))
        exact ⟨Bay.like_of_eq (hbay.trans (State.announced_settlingBay ..)), hline⟩
      · obtain ⟨hbay, hline, -⟩ := State.stall_eq (hstall.trans (if_neg fun h => hout.elim
          (fun hout => absurd (h.1.symm.trans hout) (by decide)) fun hout => absurd (h.2.symm.trans hout) (by decide)))
        exact ⟨hbay, hline⟩
    · rintro rfl n l st p waits
      have hstall := State.found_warm w now answered n
      have hst : rediscoveredState w.lines[n] = st := rediscoveredState_rows _
      refine ⟨fun hout => ?_, fun hin => ?_⟩
      · obtain ⟨hbay, hline, -⟩ := State.stall_eq (hstall.trans (if_neg fun h => absurd (h.symm.trans hout) (by decide)))
        exact ⟨hbay, hline⟩
      · obtain ⟨hbay, hline, hfeed⟩ := State.stall_eq (hstall.trans (if_pos hin))
        rw [hst] at hline hfeed
        refine ⟨Bay.like_of_eq ?_, hline, hfeed⟩
        rw [hbay, State.announced_rediscoveredBay, hst]
        rfl
    · exact State.policied_zero _
    · intro n x y b f rests c5 fits inLogic
      have houter := (State.accounted_still kind w now answered n.val).1
      have hxtime : x.time = now := (congrArg Outer.time houter).trans htime
      have hxkind : x.resetKind = kind := (congrArg Outer.resetKind houter).trans hkind
      have hrests : rests ↔ x.rests n := by
        unfold State.rests
        rw [hxkind]
      obtain ⟨hturn, hskip⟩ := State.policied_succ (State.accounted kind w now answered) n
      refine ⟨fun h => hskip (mt hrests.2 h), fun h hstays => ?_, fun h hmoves hroom => ?_⟩
      · exact (hturn (hrests.1 h)).trans (congrArg State.settle (State.applyPolicy_unturned hstays))
      · exact ⟨x.applyPolicy n, hturn (hrests.1 h),
          (State.applyPolicy_turned hmoves hroom).statement hxtime (hop x hxtime .spinUp)⟩
    · exact (State.accounted_still kind w now answered 60).1
    · intro p
      refine (State.accounted_still kind w now answered 60).2.2.late _ ?_
      rw [State.found_late]
      cases p <;> simp
    · intro h p
      refine (State.accounted_still kind w now answered 60).2.2.late _ ?_
      rw [State.found_late, if_pos (hgone.2 h)]
      cases p <;> simp
    · intro h p
      refine (State.accounted_still kind w now answered 60).2.1.late _ ?_
      rw [State.accountUpdate_late, State.found_powerDue, if_pos h]
      cases p <;> simp
    · have hquietAttention : ((State.accounted kind w now answered).policied 60).attention = ⟨.cold, .cold⟩ := by
        rw [(State.accounted_still kind w now answered 60).2.2.attention, (State.found_swept kind w now answered).attention, State.announced_eq]
        rfl
      have hx := (State.accounted_still kind w now answered 60).1
      have hxphase := (congrArg Outer.phase hx).trans hphase
      have hxset : ((State.accounted kind w now answered).policied 60).settings = set := (congrArg Outer.settings hx).trans hset
      generalize (State.accounted kind w now answered).policied 60 = x at hquietAttention hxphase hxset
      obtain ⟨g, hlights⟩ := x.opened_lights
      have heq := x.opened_eq
      refine ⟨?_, ?_, x.opened_outer, ?_, ?_, ?_, ?_, ?_, ?_, ?_, ?_, ?_, x.opened_amber, fun n => (State.opened_stands hxphase).2 (.bay n),
        (Status.allMarked_iff _).1 x.opened_allMarked, fun p i => ?_⟩
      · rw [heq]
      · rw [heq]
      · rw [heq]
      · rw [heq]
      · rw [heq]
      · rw [heq]
      · rw [heq]
      · rw [heq]
      · rw [heq]
      · rw [heq]
      · rw [hlights]
      · rw [State.opened_pending, hquietAttention, hxset]
        exact or_iff_right (coldUnits_pending p i)
    · intro starts
      have hstarts (p : Port) (t : State) : starts p t = t.startReader p := (t.startReader_eq p).symm
      refine ⟨fun x => ?_, ?_⟩
      · rw [hstarts, hstarts]; rfl
      · rw [hstarts, hstarts, hexec]
        exact congrArg Host.Outcome.next (State.startUp_nil kind w now answered)
  · exact fun e x hx => ⟨x.hushed.takeEvent e, exec_eventCommand e _, State.takeWithin_command e hx⟩
  · intro during taken andThen t u v
    rw [hexec, State.startUp_steps]
    rfl
  · intro k straps begun
    have hsout : s.outside w := ⟨rfl, rfl, rfl⟩
    refine ⟨?_, ?_⟩
    · obtain ⟨y, hyp, ⟨hpending, hmem, hstore⟩, heq⟩ := State.startUp_interrupted (a := answered) (e := .coldReset straps)
        (fun y => (y.takeWithin_reset straps).1) k hsout
      refine ⟨_, (hexec _).trans (congrArg Host.Outcome.next (heq.trans (State.takeWithin_cold y straps hyp))), ?_, rfl, fun n => ?_, fun _ => rfl⟩
      · exact State.interrupted_begun hpending hmem hstore .cold rfl rfl rfl
      · exact State.loading_open _ _ _ n
    · obtain ⟨y, hyp, ⟨hpending, hmem, hstore⟩, heq⟩ := State.startUp_interrupted (a := answered) (e := .warmReset straps)
        (fun y => (y.takeWithin_reset straps).2.1) k hsout
      exact ⟨_, (hexec _).trans (congrArg Host.Outcome.next (heq.trans (State.takeWithin_warm y straps hyp))),
        State.interrupted_begun hpending hmem hstore .warm rfl rfl rfl, rfl, rfl⟩

end Sys2Proof.Machine
end

