-- ==== Sys2Proof/Proofs/ImageValues.lean ====
section
/-! SUPPORT. The values of a settings image: every section taken as its SET command takes it, whatever stood there before, and where a
value was clamped (R177, R181, Table 11-16). -/

namespace Sys2Proof.Machine

variable (m : Memory)

/-! ### One value -/

theorem Memory.read16_toNat (a : Nat) : (Memory.read16 m a).toNat = number16 m a := by
  have hlow := (Memory.read m a).isLt
  unfold Memory.read16 number16
  rw [BitVec.toNat_append, Nat.shiftLeft_eq, Nat.mul_comm, ← Nat.two_pow_add_eq_or_of_lt hlow]
  ring

/-! ### Each section, as its SET command takes it -/

theorem BaySettings.apply_imageBay (n : BayNo) (old : BaySettings) :
    let b (k : Nat) : Nat := (Memory.read m (0x10 + 6 * n.val + k)).toNat
    let new := (BaySettings.apply (imageBay m n) old).1
    (new.policy.code = min 2 (b 0) ∧ new.cls.val = min 3 (b 1) ∧ new.zone.val = min 3 (b 2) ∧ new.profile.val = min 7 (b 3) ∧
      (new.shedEligible = true ↔ b 4 ≠ 0) ∧ (new.latchStop = true ↔ b 5 ≠ 0)) ∧
    ((BaySettings.apply (imageBay m n) old).2 = true ↔ 2 < b 0 ∨ 3 < b 1 ∨ 3 < b 2 ∨ 7 < b 3 ∨ 1 < b 4 ∨ 1 < b 5) := by
  intro b new
  obtain ⟨hpolicy, hcls, hzone, hprofile, hshed, hlatch⟩ := BaySettings.apply_fields (imageBay m n) old
  refine ⟨⟨hpolicy, hcls, hzone, hprofile, hshed.trans ?_, hlatch.trans ?_⟩, ?_⟩
  · show min 1 (b 4) = 1 ↔ _
    omega
  · show min 1 (b 5) = 1 ↔ _
    omega
  · rw [BaySettings.apply_clamped]
    simp only [imageBay, Bool.or_eq_true, decide_eq_true_eq, or_assoc]
    rfl

theorem imageTiming_eq : (imageTiming m).1 =
    { settle := max 100 (min 2000 (number16 m 0x178)), debounce := max 5 (min 100 (Memory.read m 0x17A).toNat)
      retryLimit := min 7 (Memory.read m 0x17B).toNat, retryBase := max 1 (min 60 (Memory.read m 0x17C).toNat) } := by
  simp only [imageTiming, clampNat, Memory.read16_toNat, Nat.zero_max]

theorem imageTiming_clamped : (imageTiming m).2 = true ↔ number16 m 0x178 < 100 ∨ 2000 < number16 m 0x178 ∨
    (Memory.read m 0x17A).toNat < 5 ∨ 100 < (Memory.read m 0x17A).toNat ∨ 7 < (Memory.read m 0x17B).toNat ∨
    (Memory.read m 0x17C).toNat < 1 ∨ 60 < (Memory.read m 0x17C).toNat := by
  simp only [imageTiming, clampNat, Memory.read16_toNat, Bool.or_eq_true, decide_eq_true_eq, Nat.not_lt_zero, false_or, or_assoc]

theorem Profile.apply_imageProfile (i : Fin 8) (old : Profile) :
    let n (k : Nat) : Nat := number16 m (0x17E + 10 * i.val + k)
    (Profile.apply (imageProfile m i) old).1 = { peak12 := n 0, steady12 := min (n 2) (n 0), i5 := n 4, spin := max 1000 (min 30000 (n 6))
                                                 park := max 500 (min 10000 (n 8)) } ∧
    ((Profile.apply (imageProfile m i) old).2 = true ↔ n 0 < n 2 ∨ n 6 < 1000 ∨ 30000 < n 6 ∨ n 8 < 500 ∨ 10000 < n 8) := by
  intro n
  have happly := Profile.apply_eq (imageProfile m i) old
  simp only [imageProfile, Memory.read16_toNat] at happly
  refine ⟨congrArg Prod.fst happly, ?_⟩
  have hclamped := congrArg Prod.snd happly
  dsimp only at hclamped
  rw [show (Profile.apply (imageProfile m i) old).2 = _ from hclamped]
  simp only [Bool.or_eq_true, decide_eq_true_eq]
  show (((n 6 < 1000 ∨ 30000 < n 6) ∨ n 8 < 500 ∨ 10000 < n 8) ∨ n 0 < n 2) ↔ _
  omega

theorem SupplySetting.apply_imageSlot (i : Fin 4) (old : SupplySetting) : SupplySetting.apply (imageSlot m i) old =
    { cap12 := number16 m (0x1CE + 4 * i.val), cap5 := number16 m (0x1D0 + 4 * i.val) } := by
  rw [SupplySetting.apply_eq]
  simp only [imageSlot, Memory.read16_toNat]
  rw [show 0x1CE + 4 * i.val + 2 = 0x1D0 + 4 * i.val by omega]

theorem AccountSettings.apply_imageAccount (old : AccountSettings) : AccountSettings.apply (imageAccount m) old =
    ({ mode := if Memory.read m 0x1DE = 0 then .combined else .spareOne, reserve12 := number16 m 0x1DF, reserve5 := number16 m 0x1E1
       shed := decide (Memory.read m 0x1E3 ≠ 0), delay := min 10 (Memory.read m 0x1E4).toNat },
      decide (1 < (Memory.read m 0x1DE).toNat) || decide (1 < (Memory.read m 0x1E3).toNat) || decide (10 < (Memory.read m 0x1E4).toNat)) := by
  rw [AccountSettings.apply_eq]
  simp only [imageAccount, Memory.read16_toNat]

theorem Schedule.apply_imageSchedule (old : Schedule) : Schedule.apply (imageSchedule m) old =
    ({ limit := max 1 (min 16 (Memory.read m 0x1E6).toNat), stagger := min 10000 (number16 m 0x1E8) },
      decide ((Memory.read m 0x1E6).toNat < 1 ∨ 16 < (Memory.read m 0x1E6).toNat) || decide (10000 < number16 m 0x1E8)) := by
  rw [Schedule.apply_eq]
  simp only [imageSchedule, Memory.read16_toNat]

theorem CurvePoint.ofRaw_image (t d : Nat) : CurvePoint.ofRaw { t := Memory.read m t, d := Memory.read16 m d } =
    ({ t := codedTemp (Memory.read m t), d := min 1000 (number16 m d) },
      decide (190 < (Memory.read m t).toNat ∨ 1000 < number16 m d)) := by
  rw [CurvePoint.ofRaw_eq, Memory.read16_toNat, ← Bool.decide_or]
  rfl

theorem Curve.ofRaw_imageCurve (z : Fin 4) : (Curve.ofRaw (imageCurve m z)).1 = curveInImage m z ∧
    ((Curve.ofRaw (imageCurve m z)).2 = true ↔
      ∃ k, k < 4 ∧ (190 < (Memory.read m (0x1EA + 20 * z.val + 3 * k)).toNat ∨ 1000 < number16 m (0x1EA + 20 * z.val + 3 * k + 1))) := by
  simp only [Curve.ofRaw, imageCurve, CurvePoint.ofRaw_image, Bool.or_eq_true, decide_eq_true_eq]
  refine ⟨rfl, fun h => ?_, fun ⟨k, hk, h⟩ => ?_⟩
  · rcases h with ((h | h) | h) | h
    · exact ⟨0, by omega, h⟩
    · exact ⟨1, by omega, h⟩
    · exact ⟨2, by omega, h⟩
    · exact ⟨3, by omega, h⟩
  · match k, hk with
    | 0, _ => exact .inl (.inl (.inl h))
    | 1, _ => exact .inl (.inl (.inr h))
    | 2, _ => exact .inl (.inr h)
    | 3, _ => exact .inr h

theorem ZoneLimits.apply_imageLimits (z : Fin 4) (old : ZoneLimits) :
    let a := 0x1EA + 20 * z.val
    let b (k : Nat) : Nat := (Memory.read m (a + k)).toNat
    (ZoneLimits.apply (imageLimits m z) old).1 = limitsInImage m z ∧
    ((ZoneLimits.apply (imageLimits m z) old).2 = true ↔
      10 < b 12 ∨ 190 < b 13 ∨ 190 < b 14 ∨ 200 < b 15 ∨ 1000 < number16 m (a + 16) ∨ 600 < number16 m (a + 18)) := by
  intro a b
  have happly := ZoneLimits.apply_eq (imageLimits m z) old
  simp only [imageLimits, Memory.read16_toNat] at happly
  have hbase : 0x1EA + 20 * z.val + 12 = 0x1F6 + 20 * z.val := by omega
  refine ⟨(congrArg Prod.fst happly).trans ?_, ?_⟩
  · simp only [hbase]
    rfl
  · rw [show (ZoneLimits.apply (imageLimits m z) old).2 = _ from congrArg Prod.snd happly]
    simp only [Bool.or_eq_true, decide_eq_true_eq, or_assoc]
    rfl

theorem staleTimeOf_image : (staleTimeOf (imageStaleTime m)).1 = max 10 (min 600 (number16 m 0x23A)) ∧
    ((staleTimeOf (imageStaleTime m)).2 = true ↔ number16 m 0x23A < 10 ∨ 600 < number16 m 0x23A) := by
  unfold staleTimeOf clampNat imageStaleTime
  rw [Memory.read16_toNat]
  exact ⟨rfl, decide_eq_true_iff⟩

theorem SensorSettings.apply_imageSensor (i : Fin 8) (old : SensorSettings) :
    let b (k : Nat) : Byte := Memory.read m (0x23C + 2 * i.val + k)
    let new := (SensorSettings.apply (imageSensor m i) old).1
    ((new.zone = none ↔ b 0 = 0xFF) ∧ (∀ z, new.zone = some z → z.val = min 3 (b 0).toNat) ∧ new.offset = max (-10) (min 10 (b 1).toInt)) ∧
    ((SensorSettings.apply (imageSensor m i) old).2 = true ↔
      (4 ≤ (b 0).toNat ∧ (b 0).toNat ≠ 0xFF) ∨ (b 1).toInt < -10 ∨ 10 < (b 1).toInt) := by
  intro b new
  have happly := SensorSettings.apply_eq (imageSensor m i) old
  have hnew : new = _ := congrArg Prod.fst happly
  have hnone : b 0 = 0xFF ↔ (b 0).toNat = 0xFF := ⟨fun h => by rw [h]; rfl, fun h => BitVec.eq_of_toNat_eq h⟩
  have hzone : new.zone = if b 0 = 0xFF then none else if (b 0).toNat < 4 then some (Fin.ofNat 4 (b 0).toNat) else some 3 := by rw [hnew]; rfl
  refine ⟨⟨?_, fun z hz => ?_, by rw [hnew]; rfl⟩, ?_⟩
  · rw [hzone]
    by_cases h : b 0 = 0xFF
    · simp [h]
    · rw [if_neg h]
      split <;> exact ⟨nofun, fun hb => absurd hb h⟩
  · rw [hzone] at hz
    split at hz
    · cases hz
    · split at hz
      · cases hz
        show (b 0).toNat % 4 = _
        omega
      · cases hz
        show 3 = _
        omega
  · rw [show (SensorSettings.apply (imageSensor m i) old).2 = _ from congrArg Prod.snd happly]
    simp only [imageSensor, Bool.or_eq_true, decide_eq_true_eq]
    show ((b 0 ≠ 0xFF ∧ 4 ≤ (b 0).toNat) ∨ (b 1).toInt < -10 ∨ 10 < (b 1).toInt) ↔ _
    rw [Ne, hnone, and_comm]

theorem FanSettings.apply_imageFans (old : FanSettings) :
    (FanSettings.apply (imageFans m) old).1 =
      { count := max 1 (min 6 (Memory.read m 0x24C).toNat), maxRpm := max 1000 (min 30000 (number16 m 0x24E))
        idle := min (number16 m 0x250) (number16 m 0x252), maxCur := number16 m 0x252, dmin := max 100 (min 600 (number16 m 0x254))
        slewUp := max 10 (min 1000 (number16 m 0x256)), slewDown := max 10 (min 1000 (number16 m 0x258))
        reserve := min 1000 (number16 m 0x25A) } ∧
    ((FanSettings.apply (imageFans m) old).2 = true ↔
      (Memory.read m 0x24C).toNat < 1 ∨ 6 < (Memory.read m 0x24C).toNat ∨ number16 m 0x24E < 1000 ∨ 30000 < number16 m 0x24E ∨
      number16 m 0x252 < number16 m 0x250 ∨ number16 m 0x254 < 100 ∨ 600 < number16 m 0x254 ∨ number16 m 0x256 < 10 ∨
      1000 < number16 m 0x256 ∨ number16 m 0x258 < 10 ∨ 1000 < number16 m 0x258 ∨ 1000 < number16 m 0x25A) := by
  have hidle := (Memory.read16 m 0x250).isLt
  have hcur := (Memory.read16 m 0x252).isLt
  rw [Memory.read16_toNat] at hidle hcur
  have happly := FanSettings.apply_eq (imageFans m) old
  simp only [imageFans, Memory.read16_toNat, Nat.zero_max] at happly
  rw [Nat.min_eq_right (show number16 m 0x252 ≤ 65535 by omega), Nat.min_eq_right (show number16 m 0x250 ≤ 65535 by omega)] at happly
  refine ⟨congrArg Prod.fst happly, ?_⟩
  rw [show (FanSettings.apply (imageFans m) old).2 = _ from congrArg Prod.snd happly]
  simp only [Bool.or_eq_true, decide_eq_true_eq]
  omega

theorem SourceConfig.apply_imageSource (p : Port) (i : Fin 8) (old : SourceConfig) :
    let b (k : Nat) : Byte := Memory.read m ((match p with | .a => 0x268 | .b => 0x288) + 4 * i.val + k)
    (SourceConfig.apply (imageSource m p i) old).1 =
      { enable := decide (b 0 ≠ 0), level := max 1 (min 7 (b 1).toNat), auto := decide (b 2 ≠ 0), vector := if b 3 = 0xFF then 0xFE else b 3 } ∧
    ((SourceConfig.apply (imageSource m p i) old).2 = true ↔
      1 < (b 0).toNat ∨ (b 1).toNat < 1 ∨ 7 < (b 1).toNat ∨ 1 < (b 2).toNat ∨ (b 3).toNat = 0xFF) := by
  intro b
  have happly := SourceConfig.apply_eq (imageSource m p i) old
  refine ⟨(congrArg Prod.fst happly).trans rfl, ?_⟩
  have hzero : b 1 = 0 ↔ (b 1).toNat = 0 := ⟨fun h => by rw [h]; rfl, fun h => BitVec.eq_of_toNat_eq h⟩
  have hlt := (b 3).isLt
  rw [show (SourceConfig.apply (imageSource m p i) old).2 = _ from congrArg Prod.snd happly]
  simp only [imageSource, Bool.or_eq_true, decide_eq_true_eq, Option.some.injEq]
  show ((((1 < (b 0).toNat ∨ 7 < (b 1).toNat) ∨ b 1 = 0) ∨ 1 < (b 2).toNat) ∨ 0xFE < (b 3).toNat) ↔ _
  rw [hzero]
  omega

/-! ### What SET_ZONE and SET_WINDOWS refuse (R97, R98, R182) -/

theorem imageWindow_base (p : Port) : (imageWindow m p).base.toNat = number16 m (match p with | .a => 0x2AA | .b => 0x2AE) := by
  cases p <;> exact Memory.read16_toNat m _

theorem imageWindowsAccepted_iff : imageWindowsAccepted m = true ↔ WindowsPass (imageWindow m .a) (imageWindow m .b) := by
  unfold imageWindowsAccepted
  refine Bool.and_eq_true_iff.trans ((and_congr (windowAccepted_iff _ _) (windowAccepted_iff _ _)).trans ?_)
  constructor
  · rintro ⟨⟨hca, haa, hla, hba, hapart⟩, hcb, hab, hlb, hbb, -⟩
    exact ⟨⟨hca, haa, hla, hba⟩, ⟨hcb, hab, hlb, hbb⟩, hapart hcb⟩
  · rintro ⟨⟨hca, haa, hla, hba⟩, ⟨hcb, hab, hlb, hbb⟩, hapart⟩
    exact ⟨⟨hca, haa, hla, hba, fun _ => hapart⟩, hcb, hab, hlb, hbb, fun _ h => hapart h.symm⟩

/-! ### The live copy that an image gives (R177) -/

theorem Settings.ofImage_taken : (Settings.ofImage m).taken m where
  bays := fun n => by
    have hat : (Settings.ofImage m).bays[n] = (BaySettings.apply (imageBay m n) (.default n)).1 := by simp [Settings.ofImage]
    simp only [hat]
    exact (BaySettings.apply_imageBay m n (.default n)).1
  timing := imageTiming_eq m
  profiles := fun i => by
    have hat : (Settings.ofImage m).profiles[i] = (Profile.apply (imageProfile m i) .default0).1 := by simp [Settings.ofImage]
    rw [hat]
    exact (Profile.apply_imageProfile m i .default0).1
  supplies := fun i => by
    have hat : (Settings.ofImage m).supplies[i] = SupplySetting.apply (imageSlot m i) ⟨0, 0⟩ := by simp [Settings.ofImage]
    rw [hat]
    exact SupplySetting.apply_imageSlot m i _
  account := congrArg Prod.fst (AccountSettings.apply_imageAccount m _)
  schedule := congrArg Prod.fst (Schedule.apply_imageSchedule m _)
  staleTime := (staleTimeOf_image m).1
  sensors := fun i => by
    have hat : (Settings.ofImage m).sensors[i] = (SensorSettings.apply (imageSensor m i) ⟨none, 0⟩).1 := by simp [Settings.ofImage]
    rw [hat]
    exact (SensorSettings.apply_imageSensor m i _).1
  fans := (FanSettings.apply_imageFans m _).1
  patterns := fun i hi => by
    have hat : (Settings.ofImage m).patterns[i] = Pattern.apply (imagePattern m i) ⟨0, 0⟩ := by
      simp [Settings.ofImage, show ¬ i.val ≤ 1 by omega]
    rw [hat]
    show ({ on := _, off := _ } : Pattern) = _
    rw [show 0x25D + 2 * (i.val - 2) = 0x25C + 2 * (i.val - 2) + 1 by omega]
    rfl
  attention := fun p i => by
    have hat : ((Settings.ofImage m).attention.get p)[i] = (SourceConfig.apply (imageSource m p i) .default).1 := by
      cases p <;> simp [Settings.ofImage, PerPort.get]
    rw [hat]
    exact (SourceConfig.apply_imageSource m p i _).1

theorem Settings.ofImage_zone (z : Fin 4) : (Settings.ofImage m).zones[z] =
    { curve := if (curveInImage m z).accepted then curveInImage m z else .default
      limits := if (limitsInImage m z).accepted then limitsInImage m z else .default } := by
  have hat : (Settings.ofImage m).zones[z] = imageZone m z := by simp [Settings.ofImage]
  rw [hat]
  simp only [imageZone, (Curve.ofRaw_imageCurve m z).1, (ZoneLimits.apply_imageLimits m z .default).1]

/-! ### Where a value was clamped (R177, R181) -/

/-- The SET command of some section clamps a value of the image. -/
def SectionClamped : Prop :=
  (∃ n : BayNo, (BaySettings.apply (imageBay m n) (.default n)).2 = true) ∨ (imageTiming m).2 = true ∨
    (∃ i : Fin 8, (Profile.apply (imageProfile m i) .default0).2 = true) ∨
    (AccountSettings.apply (imageAccount m) Settings.default.account).2 = true ∨
    (Schedule.apply (imageSchedule m) Settings.default.schedule).2 = true ∨
    (∃ z : Fin 4, (Curve.ofRaw (imageCurve m z)).2 = true ∨ (ZoneLimits.apply (imageLimits m z) .default).2 = true) ∨
    (staleTimeOf (imageStaleTime m)).2 = true ∨
    (∃ i : Fin 8, (SensorSettings.apply (imageSensor m i) ⟨none, 0⟩).2 = true) ∨
    (FanSettings.apply (imageFans m) Settings.default.fans).2 = true ∨
    ∃ (p : Port) (i : Fin 8), (SourceConfig.apply (imageSource m p i) .default).2 = true

theorem sectionClamped_iff : SectionClamped m ↔ ClampedInImage m := by
  unfold SectionClamped ClampedInImage
  simp only [(BaySettings.apply_imageBay m _ _).2, imageTiming_clamped, (Profile.apply_imageProfile m _ _).2, AccountSettings.apply_imageAccount,
    Schedule.apply_imageSchedule, (Curve.ofRaw_imageCurve m _).2, (ZoneLimits.apply_imageLimits m _ _).2, (staleTimeOf_image m).2,
    (SensorSettings.apply_imageSensor m _ _).2, (FanSettings.apply_imageFans m _).2, (SourceConfig.apply_imageSource m _ _ _).2,
    Bool.or_eq_true, decide_eq_true_eq, or_assoc]
  rfl

end Sys2Proof.Machine
end

