-- ==== Sys2Proof/Proofs/SettingsMoved.lean ====
section
/-! SUPPORT. What taking an image's values does not do, however many reports it makes: no slip but those of the bays' own operations ends,
no reader moves, no level leaves service, and no event raised is lost (R181, R37, R46). -/

namespace Sys2Proof.Machine

variable {s t u : State}

/-! ### The slips of the bays' operations -/

/-- The port and the address of an operation's slip, if it is a slip's and has one. -/
def slipOwned : Option Operation → Option (Port × Half)
  | some { origin := .slip p, slip := some a, .. } => some (p, a)
  | _ => none

/-- The slip that bay n's operation owns. -/
def State.owned (s : State) (n : BayNo) : Option (Port × Half) := slipOwned (s.bay n).record.op

theorem slipOwned_some {op : Option Operation} {p : Port} {a : Half} (h : slipOwned op = some (p, a)) :
    ∃ o, op = some o ∧ o.origin = .slip p ∧ o.slip = some a := by
  obtain _ | ⟨k, _ | q, _ | b, x, d, m⟩ := op
  · cases h
  · cases h
  · cases h
  · cases h
  · cases h
    exact ⟨_, rfl, rfl, rfl⟩

theorem slipOwned_map_deadline (op : Option Operation) (d : Option Time) : slipOwned (op.map fun o => { o with deadline := d }) = slipOwned op := by
  obtain _ | ⟨k, _ | q, _ | b, x, d, m⟩ := op <;> rfl

theorem Exchange.opEnded_owned (op : Option Operation) (o : SlipOutcome) (r : List Byte) (now : Time) (x : Exchange) :
    x.opEnded op o r now = match slipOwned op with
      | none => x
      | some (p, a) => x.closed p a o false (some r) now := by
  obtain _ | ⟨k, _ | q, _ | b, y, d, m⟩ := op <;> rfl

/-- The end of one open slip leaves every other where it is found. -/
theorem Exchange.find_closed {p q : Port} {a b : Half} (h : ¬ (q = p ∧ b = a)) (o : SlipOutcome) (c : Bool) (r : Option (List Byte)) (now : Time)
    (x : Exchange) : ((x.closed q b o c r now).tables.get p).find? (fun e => e.addr == a) = (x.tables.get p).find? fun e => e.addr == a := by
  unfold Exchange.closed
  split
  · rfl
  · unfold Exchange.freed Exchange.ended
    rw [PerPort.get_put]
    split
    · rename_i hp
      subst hp
      rw [List.find?_filter]
      congr 1
      funext e
      by_cases he : e.addr = a
      · have hne : e.addr ≠ b := fun hb => h ⟨rfl, hb.symm.trans he⟩
        simp [he ▸ hne, he]
      · simp [he]
    · rfl

theorem State.owned_of_like {n : BayNo} (h : (s.bay n).like (t.bay n)) : t.owned n = s.owned n := by
  unfold State.owned
  rw [show (t.bay n).record.op = (s.bay n).record.op from (congrArg (fun b : Bay => b.record.op) h).symm]

variable (s)

theorem State.owned_bayChanged (n m : BayNo) (e : Option (Fin 8)) : (s.bayChanged n e).owned m = s.owned m := by
  refine State.owned_of_like ?_
  rw [State.bay_bayChanged]
  exact s.pubBay_like n m

theorem State.owned_join (e : QueueEntry) (m : BayNo) : (s.join e).owned m = s.owned m := by
  rw [State.join_eq]
  rfl

theorem State.owned_leave (n m : BayNo) : (s.leave n).owned m = s.owned m := by
  rw [State.leave_eq]
  rfl

theorem State.owned_enter (n m : BayNo) (st : BayState) (why : Reason) : (s.enter n st why).owned m = s.owned m := by
  unfold State.owned
  rw [State.bay_enter]
  split
  · rename_i h
    rw [h]
    rfl
  · rfl

theorem State.owned_setFlags (n m : BayNo) (f : BayFlags → BayFlags) : (s.setFlags n f).owned m = s.owned m := by
  unfold State.owned
  rw [State.bay_setFlags]
  split
  · rename_i h
    rw [h]
  · rfl

theorem State.owned_setOp (n m : BayNo) (o : Option Operation) : (s.setOp n o).owned m = if m = n then slipOwned o else s.owned m := by
  unfold State.owned
  rw [State.bay_setOp]
  split <;> rfl

variable {s}

/-- From s to t the bays' operations own no slip that they did not own, and no slip ended but such as they owned. -/
structure SlipsSpared (s t : State) : Prop where
  owned    : ∀ n, t.owned n = none ∨ t.owned n = s.owned n
  exchange : (∀ n, s.owned n = none) → t.exchange = s.exchange
  found    : ∀ p a, (∀ n, s.owned n ≠ some (p, a)) → t.findOpen p a = s.findOpen p a

theorem SlipsSpared.refl (s : State) : SlipsSpared s s := ⟨fun _ => .inr rfl, fun _ => rfl, fun _ _ _ => rfl⟩

theorem State.findOpen_of_exchange (h : t.exchange = s.exchange) (p : Port) (a : Half) : t.findOpen p a = s.findOpen p a := by
  have htables : (t.exchange.tables.get p).find? (fun e => e.addr == a) = (s.exchange.tables.get p).find? fun e => e.addr == a := by rw [h]
  cases p <;> exact htables

theorem SlipsSpared.of_exchange (owned : ∀ n, t.owned n = none ∨ t.owned n = s.owned n) (exchange : t.exchange = s.exchange) : SlipsSpared s t :=
  ⟨owned, fun _ => exchange, fun p a _ => State.findOpen_of_exchange exchange p a⟩

theorem SlipsSpared.of_bays (bays : t.bays = s.bays) (exchange : t.exchange = s.exchange) : SlipsSpared s t :=
  .of_exchange (fun n => .inr (by unfold State.owned State.bay; rw [bays])) exchange

theorem SlipsSpared.trans (h : SlipsSpared s t) (k : SlipsSpared t u) : SlipsSpared s u where
  owned := fun n => (k.owned n).elim .inl fun hk => (h.owned n).elim (fun hn => .inl (hk.trans hn)) fun hs => .inr (hk.trans hs)
  exchange := fun hs => (k.exchange fun n => (h.owned n).elim id fun hn => hn.trans (hs n)).trans (h.exchange hs)
  found := fun p a hs => (k.found p a fun n => (h.owned n).elim (fun hn => by rw [hn]; nofun) fun hn => by rw [hn]; exact hs n).trans (h.found p a hs)

/-- The slip of an operation that some bay had is ended, after that bay's operation is gone or left. -/
theorem SlipsSpared.endOpSlip {op : Option Operation} {n : BayNo} (h : SlipsSpared s t) (exchange : t.exchange = s.exchange)
    (hop : op = (s.bay n).record.op) (o : SlipOutcome) (r : List Byte) : SlipsSpared s (t.endOpSlip op o r) := by
  have howned : slipOwned op = s.owned n := by rw [hop]; rfl
  have hended := t.exchange_endOpSlip op o r
  rw [Exchange.opEnded_owned, howned, exchange] at hended
  refine ⟨fun m => ?_, fun hs => ?_, fun p a hs => ?_⟩
  · have hbay : (t.endOpSlip op o r).owned m = t.owned m := by unfold State.owned; rw [State.bay_endOpSlip]
    rw [hbay]
    exact h.owned m
  · rw [hended, hs n]
  · cases hn : s.owned n with
    | none =>
      rw [hn] at hended
      exact State.findOpen_of_exchange hended p a
    | some x =>
      obtain ⟨q, b⟩ := x
      rw [hn] at hended
      have hother : ¬ (q = p ∧ b = a) := fun ⟨hq, hb⟩ => hs n (by rw [hn, hq, hb])
      have hfound : ∀ v : State, v.findOpen p a = (v.exchange.tables.get p).find? fun e => e.addr == a := fun v => by cases p <;> rfl
      rw [hfound, hfound, hended]
      exact Exchange.find_closed hother _ _ _ _ _

theorem SlipsSpared.bayChanged (h : SlipsSpared s t) (exchange : t.exchange = s.exchange) (n : BayNo) (e : Option (Fin 8)) :
    SlipsSpared s (t.bayChanged n e) :=
  .of_exchange (fun m => by rw [State.owned_bayChanged]; exact h.owned m) (by rw [State.exchange_bayChanged, exchange])

/-! ### Acting on reports -/

theorem State.admitHead_spared (s : State) (n : BayNo) : SlipsSpared s (s.admitHead n) := by
  unfold State.admitHead
  dsimp only
  refine SlipsSpared.bayChanged ?_ (by rw [State.exchange_pubQueue]; rfl) n _
  refine .of_exchange (fun m => .inr ?_) (by rw [State.exchange_pubQueue]; rfl)
  rw [State.pubQueue_eq]
  refine (State.owned_setOp _ n m _).trans ?_
  split
  · rename_i h
    rw [slipOwned_map_deadline, h]
    exact State.owned_enter _ n n _ _
  · exact State.owned_enter _ n m _ _

theorem State.setHold_spared (s : State) (h : HoldReason) : SlipsSpared s (s.setHold h) := by
  rw [State.setHold_eq]
  exact .of_bays rfl rfl

theorem State.policyMove_spared (s : State) (n : BayNo) : SlipsSpared s (s.policyMove n) := by
  unfold State.policyMove
  split
  · split
    · exact .refl s
    · exact SlipsSpared.bayChanged (.of_exchange (fun m => .inr (s.owned_enter n m _ _)) rfl) rfl n _
    · refine SlipsSpared.bayChanged ?_ (by rw [State.exchange_join]; rfl) n _
      refine .of_exchange (fun m => ?_) (by rw [State.exchange_join]; rfl)
      rw [State.owned_join, State.owned_setOp, State.owned_enter, State.owned_enter]
      split
      · exact .inl rfl
      · exact .inr rfl
  · split
    · exact .refl s
    · exact SlipsSpared.bayChanged (.of_exchange (fun m => .inr (s.owned_setFlags n m _)) rfl) rfl n _

/-- A shed of bay n: its operation gone, its bay handled, its slip ended. -/
theorem SlipsSpared.shed {n : BayNo} (owned : ∀ m, t.owned m = if m = n then none else s.owned m) (exchange : t.exchange = s.exchange)
    (e : Option (Fin 8)) (o : SlipOutcome) (r : List Byte) : SlipsSpared s ((t.bayChanged n e).endOpSlip (s.bay n).record.op o r) := by
  have hleft : SlipsSpared s t := .of_exchange (fun m => by rw [owned]; split <;> simp) exchange
  exact (hleft.bayChanged exchange n e).endOpSlip ((State.exchange_bayChanged t n e).trans exchange) rfl o r

theorem State.shed12_spared (s : State) (k : ShedKind) (n : BayNo) : SlipsSpared s (s.shed12 k n) := by
  have hleft : ∀ m, ((s.enter n .logic k.reason).setOp n none).owned m = if m = n then none else s.owned m := fun m => by
    rw [State.owned_setOp, State.owned_enter]
    rfl
  have hexchange : ((s.enter n .logic k.reason).setOp n none).exchange = s.exchange := rfl
  unfold State.shed12
  dsimp only
  split
  · generalize (s.enter n .logic k.reason).setOp n none = t at hleft hexchange
    split
    · refine SlipsSpared.shed (fun m => ?_) ?_ _ _ _
      · rw [State.owned_setFlags, State.owned_enter]
        exact hleft m
      · rw [State.exchange_setFlags, State.exchange_enter]
        exact hexchange
    · exact .shed hleft hexchange _ _ _
  · exact .refl s

theorem State.shed5_spared (s : State) (n : BayNo) : SlipsSpared s (s.shed5 n) := by
  unfold State.shed5
  dsimp only
  split
  · refine SlipsSpared.shed (fun m => ?_) ?_ _ _ _
    · rw [State.owned_setFlags, State.owned_setOp, State.owned_enter, State.owned_leave]
      rfl
    · rw [State.exchange_setFlags, State.exchange_setOp, State.exchange_enter, State.exchange_leave]
  · exact .refl s

theorem State.unresolvable_spared (s : State) : SlipsSpared s s.unresolvable := by
  refine .of_bays (State.unresolvable_fields s).2.2.1 ?_
  unfold State.unresolvable
  split
  · rfl
  · dsimp only
    rw [State.exchange_raiseBoth, State.pubSummaryIfAccount_eq]
    rfl

theorem slipsSpared_settlesIn : SettlesIn SlipsSpared where
  refl := .refl
  trans := .trans
  reports := fun _ _ _ _ => .of_bays rfl rfl
  hold := State.setHold_spared
  head := fun s n _ => s.admitHead_spared n
  policy := State.policyMove_spared
  shed12 := State.shed12_spared
  shed5 := State.shed5_spared
  account := State.unresolvable_spared

theorem State.settle_spared (s : State) : SlipsSpared s s.settle := slipsSpared_settlesIn.settle s

/-! ### The classes of the waiting entries -/

/-- Every waiting entry carries its bay's class (R55, R58). -/
def State.classed (s : State) : Prop := ∀ e ∈ s.scheduler.queue, e.cls = (s.baySet e.bay).cls

/-- From s to t the bays' settings stand, and an entry that is new in the queue carries its bay's class. -/
structure Ranked (s t : State) : Prop where
  bays  : t.settings.bays = s.settings.bays
  queue : ∀ e ∈ t.scheduler.queue, e ∈ s.scheduler.queue ∨ e.cls = (s.baySet e.bay).cls

theorem Ranked.refl (s : State) : Ranked s s := ⟨rfl, fun _ => .inl⟩

theorem Ranked.trans (h : Ranked s t) (k : Ranked t u) : Ranked s u where
  bays := k.bays.trans h.bays
  queue := fun e he => (k.queue e he).elim (h.queue e) fun hc => .inr (hc.trans (by unfold State.baySet; rw [h.bays]))

theorem Ranked.of_queue (bays : t.settings.bays = s.settings.bays) (queue : ∀ e ∈ t.scheduler.queue, e ∈ s.scheduler.queue) : Ranked s t :=
  ⟨bays, fun e he => .inl (queue e he)⟩

theorem Ranked.of_eq (bays : t.settings.bays = s.settings.bays) (queue : t.scheduler.queue = s.scheduler.queue) : Ranked s t :=
  .of_queue bays fun _ he => queue ▸ he

theorem Ranked.classed (h : Ranked s t) (hs : s.classed) : t.classed := fun e he => by
  have hset : t.baySet e.bay = s.baySet e.bay := by unfold State.baySet; rw [h.bays]
  rw [hset]
  exact (h.queue e he).elim (hs e) id

theorem Ranked.bayChanged (h : Ranked s t) (n : BayNo) (e : Option (Fin 8)) : Ranked s (t.bayChanged n e) :=
  h.trans (.of_eq (by rw [State.bayChanged_settings]) (by rw [State.bayChanged_scheduler]))

/-- A shed's handling of its bay, and the end of its slip. -/
theorem Ranked.shed (h : Ranked s t) (n : BayNo) (e : Option (Fin 8)) (op : Option Operation) (o : SlipOutcome) (r : List Byte) :
    Ranked s ((t.bayChanged n e).endOpSlip op o r) :=
  (h.bayChanged n e).trans (.of_eq (by rw [State.endOpSlip_eq]) (by rw [State.endOpSlip_eq]))

theorem mem_of_mem_enqueue {d e : QueueEntry} {q : List QueueEntry} (h : d ∈ enqueue e q) : d = e ∨ d ∈ q :=
  List.mem_cons.1 ((enqueue_perm e q).mem_iff.1 h)

theorem State.policyMove_ranked (s : State) (n : BayNo) : Ranked s (s.policyMove n) := by
  unfold State.policyMove
  split
  · split
    · exact .refl s
    · refine Ranked.bayChanged ?_ n _
      exact .of_eq rfl rfl
    · refine Ranked.bayChanged ⟨by rw [State.join_eq]; rfl, fun e he => ?_⟩ n _
      rw [State.join_queue] at he
      exact (mem_of_mem_enqueue he).elim (fun h => .inr (by rw [h]; rfl)) .inl
  · split
    · exact .refl s
    · refine Ranked.bayChanged ?_ n _
      exact .of_eq rfl rfl

theorem State.leave_ranked (s : State) (n : BayNo) : Ranked s (s.leave n) :=
  .of_queue (by rw [State.leave_eq]) fun e he => by
    rw [State.leave_queue] at he
    exact List.mem_of_mem_filter he

theorem ranked_settlesIn : SettlesIn Ranked where
  refl := .refl
  trans := .trans
  reports := fun _ _ _ _ => .of_eq rfl rfl
  hold := fun s h => by
    unfold State.setHold
    split
    · exact .refl s
    · exact .of_eq (by rw [State.pubQueue_eq]) (State.pubQueue_queue _)
  head := fun s n _ => .of_queue (congrArg (fun o => o.settings.bays) (s.admit_outer n)) fun e he => by
    rw [State.admitHead_queue] at he
    exact List.mem_of_mem_tail he
  policy := State.policyMove_ranked
  shed12 := fun s k n => by
    unfold State.shed12
    dsimp only
    split
    · split
      · refine Ranked.shed ?_ n _ _ _ _
        exact .of_eq rfl rfl
      · refine Ranked.shed ?_ n _ _ _ _
        exact .of_eq rfl rfl
    · exact .refl s
  shed5 := fun s n => by
    unfold State.shed5
    dsimp only
    split
    · refine Ranked.shed (.trans (s.leave_ranked n) ?_) n _ _ _ _
      exact .of_eq rfl rfl
    · exact .refl s
  account := fun s => by
    unfold State.unresolvable
    split
    · exact .of_eq rfl rfl
    · dsimp only
      exact .of_eq (by rw [State.raiseBoth_settings, State.pubSummaryIfAccount_eq]; rfl) (by
        rw [State.raiseBoth_scheduler, State.pubSummaryIfAccount_scheduler]; rfl)

theorem State.settle_ranked (s : State) : Ranked s s.settle := ranked_settlesIn.settle s

/-! ### What an image's values leave -/

/-- The state beside bays and exchange with the units, their settings and the supplies as another has them. -/
def Outer.taking (o x : Outer) : Outer :=
  { o with settings := x.settings, supplies := x.supplies, fanRes := x.fanRes, sensors := x.sensors, scan := x.scan, zones := x.zones, fans := x.fans }

/-- What the taking of values leaves of the rest of the part: beside settings, units and supplies nothing of the outer state moves, no
reader, no level in service and no zone but for its record's generation; no event is lost, and no slip ends but the bays' own. -/
structure Borne (s t : State) : Prop where
  outer   : t.outer = s.outer.taking t.outer
  readers : ReadersStand s t
  late    : ∀ e ∈ s.late, e ∈ t.late
  serving : ∀ p, (t.attention.get p).inService = (s.attention.get p).inService
  zones   : ∀ z : Fin 4, s.zones[z].like t.zones[z]
  slips   : SlipsSpared s t

theorem Borne.refl (s : State) : Borne s s := ⟨rfl, .refl s, fun _ => id, fun _ => rfl, fun z => s.zones[z].like_refl, .refl s⟩

theorem Borne.trans (h : Borne s t) (k : Borne t u) : Borne s u where
  outer := by
    have houter := k.outer
    rw [h.outer] at houter
    exact houter
  readers := h.readers.trans k.readers
  late := fun e he => k.late e (h.late e he)
  serving := fun p => (k.serving p).trans (h.serving p)
  zones := fun z => Zone.like_trans (h.zones z) (k.zones z)
  slips := h.slips.trans k.slips

theorem Borne.told (h : Borne s t) {i : Fin 8} (ht : s.told i) : t.told i := fun p => h.late _ (ht p)
theorem Borne.time (h : Borne s t) : t.time = s.time := (congrArg Outer.time h.outer).trans rfl
theorem Borne.phase (h : Borne s t) : t.phase = s.phase := (congrArg Outer.phase h.outer).trans rfl
theorem Borne.supplyLines (h : Borne s t) : t.supplyLines = s.supplyLines := (congrArg Outer.supplyLines h.outer).trans rfl

/-- Acting on reports. -/
theorem State.settle_borne (s : State) : Borne s s.settle where
  outer := by rw [State.settle_outer]; rfl
  readers := s.settle_readersStand
  late := s.settle_heard.late
  serving := fun p => by rw [s.settle_heard.attention]
  zones := fun z => by
    rw [show s.settle.zones = s.zones from congrArg Outer.zones s.settle_outer]
    exact s.zones[z].like_refl
  slips := s.settle_spared

/-- A handling of units alone. -/
theorem Borne.of_units (units : UnitsOnly s t) (outer : t.outer = s.outer.taking t.outer) (late : t.late = s.late)
    (zones : ∀ z : Fin 4, s.zones[z].like t.zones[z]) : Borne s t where
  outer := outer
  readers := .of_eq units.readers
  late := fun _ he => late ▸ he
  serving := fun p => by rw [units.attention]
  zones := zones
  slips := .of_bays units.bays (by unfold State.exchange; rw [units.ram, units.readers])

theorem Borne.raiseBoth (h : Borne s t) (i : Fin 8) : Borne s (t.raiseBoth i) :=
  h.trans ⟨rfl, .of_eq rfl, fun e he => by rw [State.raiseBoth_late]; simp [he], fun _ => rfl, fun z => t.zones[z].like_refl, .of_bays rfl rfl⟩

theorem Borne.raisedIf (h : Borne s t) (b : Bool) (i : Fin 8) : Borne s (if b = true then t.raiseBoth i else t) := by
  split
  · exact h.raiseBoth i
  · exact h

theorem State.accountUpdate_borne (s : State) : Borne s s.accountUpdate where
  outer := by rw [State.accountUpdate_outer]; rfl
  readers := .of_eq s.accountUpdate_readers
  late := s.accountUpdate_heard.late
  serving := fun p => by rw [s.accountUpdate_heard.attention]
  zones := fun z => by
    rw [show s.accountUpdate.zones = s.zones from congrArg Outer.zones s.accountUpdate_outer]
    exact s.zones[z].like_refl
  slips := .of_bays (by rw [State.accountUpdate_eq]) s.exchange_accountUpdate

end Sys2Proof.Machine
end

