-- ==== Sys2Proof/Proofs/SettingStored.lean ====
section
/-! SUPPORT. What each SET command's work leaves, as an image's values need it: the settings it stores, the units it does not touch, and the
classes of the queue (R181). -/

namespace Sys2Proof.Machine

variable {s t u : State} {n : BayNo}

/-! ### The parts of the outer state that a section moves -/

/-- The supplies, the reservation, the sensors and their scan, and the fans. -/
def Outer.units (o : Outer) : Vector Supply 4 × Nat × Vector Sensor 8 × Scan × FanControl := (o.supplies, o.fanRes, o.sensors, o.scan, o.fans)

/-- The units but for the supplies. -/
def Outer.besideSupplies (o : Outer) : Nat × Vector Sensor 8 × Scan × FanControl := (o.fanRes, o.sensors, o.scan, o.fans)

/-- The units but for the sensors and their scan. -/
def Outer.besideSensors (o : Outer) : Vector Supply 4 × Nat × FanControl := (o.supplies, o.fanRes, o.fans)

/-- The units but for the fans and their reservation. -/
def Outer.besideFans (o : Outer) : Vector Supply 4 × Vector Sensor 8 × Scan := (o.supplies, o.sensors, o.scan)

/-- From s to t a value was stored: the settings stand as c, what `part` gives stands as it stood, entries keep their bays' classes. -/
structure Stores {β : Type} (part : Outer → β) (c : Settings) (s t : State) : Prop where
  borne    : Borne s t
  settings : t.settings = c
  kept     : part t.outer = part s.outer
  carried  : Carried s t
  classed  : s.queueSound → s.classed → t.classed

variable {β γ : Type} {part : Outer → β}

theorem Stores.refl (s : State) : Stores part s.settings s s := ⟨.refl s, rfl, rfl, .refl s, fun _ => id⟩

theorem Stores.queueSound {c : Settings} (h : Stores part c s t) (hs : s.queueSound) : t.queueSound := h.carried.queue hs

theorem Stores.trans {c d : Settings} (h : Stores part c s t) (k : Stores part d t u) : Stores part d s u where
  borne := h.borne.trans k.borne
  settings := k.settings
  kept := k.kept.trans h.kept
  carried := h.carried.trans k.carried
  classed := fun hq hc => k.classed (h.queueSound hq) (h.classed hq hc)

/-- What keeps a part keeps what is taken from it. -/
theorem Stores.weaken {c : Settings} (h : Stores part c s t) (f : β → γ) : Stores (fun o => f (part o)) c s t :=
  ⟨h.borne, h.settings, congrArg f h.kept, h.carried, h.classed⟩

/-- Acting on reports. -/
theorem Stores.settle {c : Settings} (h : Stores part c s t) (hp : t.phase ≠ .loading) : Stores part c s t.settle where
  borne := h.borne.trans t.settle_borne
  settings := (State.settle_settings t).trans h.settings
  kept := by rw [State.settle_outer]; exact h.kept
  carried := h.carried.settle (by rw [← h.carried.phase]; exact hp)
  classed := fun hq hc => t.settle_ranked.classed (h.classed hq hc)

/-- A value stored that moves no bay's class and no queue. -/
theorem Stores.of_ranked {c : Settings} (borne : Borne s t) (settings : t.settings = c) (kept : part t.outer = part s.outer)
    (carried : Carried s t) (ranked : Ranked s t) : Stores part c s t := ⟨borne, settings, kept, carried, fun _ => ranked.classed⟩

/-- A handling that moves no bay, no exchange, no reader, no Attention Unit and no event. -/
theorem Borne.of_fields (outer : t.outer = s.outer.taking t.outer) (bays : t.bays = s.bays) (exchange : t.exchange = s.exchange)
    (readers : t.readers = s.readers) (attention : t.attention = s.attention) (late : t.late = s.late) (zones : t.zones = s.zones) : Borne s t where
  outer := outer
  readers := .of_eq readers
  late := fun _ he => late ▸ he
  serving := fun p => by rw [attention]
  zones := fun z => by rw [zones]; exact s.zones[z].like_refl
  slips := .of_bays bays exchange

/-- A value stored, and an event that is raised unless b. -/
theorem Stores.withEvent {c : Settings} (b : Prop) [Decidable b] (i : Fin 8) (borne : Borne s t) (settings : t.settings = c)
    (kept : part t.outer = part s.outer) (carried : Carried s (if b then t else t.raiseBoth i)) (ranked : Ranked s t) :
    Stores part c s (if b then t else t.raiseBoth i) := by
  split
  · rename_i h
    rw [if_pos h] at carried
    exact .of_ranked borne settings kept carried ranked
  · rename_i h
    rw [if_neg h] at carried
    exact ⟨borne.raiseBoth i, settings, kept, carried, fun _ => ranked.classed⟩

theorem Stores.raisedIf {c : Settings} (h : Stores part c s t) (b : Bool) (i : Fin 8) : Stores part c s (if b = true then t.raiseBoth i else t) := by
  cases b with
  | false => exact h
  | true => exact ⟨h.borne.raiseBoth i, h.settings, h.kept, h.carried.raiseBoth i, h.classed⟩

/-! ### Bays, timing and profiles (R27, R51) -/

theorem State.bayStored_owned (s : State) (new : BaySettings) (m : BayNo) : (s.bayStored n new).owned m = s.owned m := by
  by_cases h : m = n
  · subst h
    exact (State.owned_of_like (s := s.putBay m { s.bay m with record := { (s.bay m).record with flags := { (s.bay m).record.flags with
      wait5v := waitAfter (s.baySet m) new (s.bay m).record.flags.wait5v } } }) (by
        rw [State.bay_putBay_same]; exact Bay.like_symm (State.bayStored_like new))).trans (by unfold State.owned; rw [State.bay_putBay_same])
  · unfold State.owned
    rw [State.bayStored_bay_of_ne new h]

theorem State.bayStored_borne (s : State) (new : BaySettings) : Borne s (s.bayStored n new) where
  outer := by rw [State.bayStored_eq]; rfl
  readers := .of_eq (by rw [State.bayStored_eq])
  late := fun _ he => (State.bayStored_late new).symm ▸ he
  serving := fun p => by rw [State.bayStored_eq]
  zones := fun z => by rw [State.bayStored_eq]; exact s.zones[z].like_refl
  slips := .of_exchange (fun m => .inr (s.bayStored_owned new m)) (by rw [State.bayStored_eq]; rfl)

/-- The entries keep their bays' classes where a bay's class is stored: its own entry takes the new class with it (R58). -/
theorem State.bayStored_classed (new : BaySettings) (hq : s.queueSound) (hc : s.classed) : (s.bayStored n new).classed := by
  have hset (m : BayNo) : (s.bayStored n new).baySet m = if m = n then new else s.baySet m := by
    rw [State.bayStored_eq]
    by_cases h : m = n
    · subst h
      rw [if_pos rfl]
      exact Vector.getElem_set_self ..
    · rw [if_neg h]
      exact Vector.getElem_set_ne (xs := s.settings.bays) n.isLt m.isLt (fun e => h (Fin.ext e.symm))
  generalize ht : (s.withBaySet n new).policySet n (s.baySet n) new = t
  have hqueue : t.scheduler.queue = s.scheduler.queue := by rw [← ht, State.policySet_scheduler]; rfl
  have hstate : (t.bay n).record.state = (s.bay n).record.state := by rw [← ht, State.policySet_bay]; rfl
  have hother {e : QueueEntry} (he : e ∈ s.scheduler.queue) (hne : e.bay ≠ n) : e.cls = ((s.bayStored n new).baySet e.bay).cls := by
    rw [hset, if_neg hne]
    exact hc e he
  have hscheduler : (s.bayStored n new).scheduler = (t.classSet n (s.baySet n) new).scheduler := by rw [State.bayStored_scheduler, ht]
  intro e he
  rw [hscheduler] at he
  by_cases hmoves : (t.bay n).record.state = .queued ∧ new.cls ≠ (s.baySet n).cls
  · obtain ⟨hst, hcls⟩ := hmoves
    obtain ⟨d, hd, hbay⟩ := List.mem_map.1 ((hq.1 n).1 (hstate ▸ hst))
    obtain ⟨f, hf⟩ : ∃ f, t.scheduler.queue.find? (fun x => x.bay == n) = some f :=
      Option.isSome_iff_exists.1 (List.find?_isSome.2 ⟨d, hqueue ▸ hd, by simp [hbay]⟩)
    rw [(State.classSet_moves hst hcls hf).1] at he
    rcases mem_of_mem_enqueue he with h | h
    · have hfn : f.bay = n := by simpa using List.find?_some hf
      rw [h, hset]
      dsimp only
      rw [if_pos hfn]
    · obtain ⟨hmem, hne⟩ := List.mem_filter.1 h
      exact hother (hqueue ▸ hmem) (by simpa using hne)
  · rw [State.classSet_stands (by rw [not_and_or, not_not] at hmoves; exact hmoves), hqueue] at he
    by_cases hn : e.bay = n
    · rw [hset, if_pos hn, hc e he, hn]
      rw [not_and_or, not_not] at hmoves
      refine (hmoves.resolve_left fun hst => hst ?_).symm
      rw [hstate]
      exact (hq.1 n).2 (List.mem_map.2 ⟨e, he, hn⟩)
    · exact hother he hn

theorem State.bayStored_carried (hp : s.phase ≠ .loading) (new : BaySettings) : Carried s (s.bayStored n new) := by
  have hset : Carried s (s.withBaySet n new) := .of_core_mems rfl rfl
  exact (hset.trans (State.bayFieldsChanged_carried (s := s.withBaySet n new) (n := n) hp (s.baySet n) new)).trans
    (.of_core_mems (State.pubBay_core _ n) (State.pubBay_mems _ n))

theorem State.setBay_stores (hp : s.phase ≠ .loading) (a : SetBayArgs) :
    Stores Outer.units { s.settings with bays := s.settings.bays.set n (BaySettings.apply a (s.baySet n)).1 } s (s.setBay n a).1 := by
  have hstored : Stores Outer.units { s.settings with bays := s.settings.bays.set n (BaySettings.apply a (s.baySet n)).1 } s
      (s.bayStored n (BaySettings.apply a (s.baySet n)).1) :=
    ⟨s.bayStored_borne _, by rw [State.bayStored_eq]; rfl, by rw [State.bayStored_eq]; rfl, State.bayStored_carried hp _, State.bayStored_classed _⟩
  obtain ⟨hkept, hcleared⟩ := State.setBay_cases (s := s) (n := n) a
  by_cases h : waitAfter (s.baySet n) (BaySettings.apply a (s.baySet n)).1 (s.bay n).record.flags.wait5v = (s.bay n).record.flags.wait5v
  · rw [hkept h]
    exact hstored
  · rw [hcleared h]
    exact hstored.raisedIf true _

theorem State.setTiming_stores (s : State) (m : Memory) : Stores Outer.units { s.settings with timing := (imageTiming m).1 } s (s.setTiming m).1 :=
  .of_ranked (.of_fields rfl rfl rfl rfl rfl rfl rfl) rfl rfl (.of_core_mems rfl rfl) (.of_eq rfl rfl)

theorem State.setProfile_stores (s : State) (i : Fin 8) (a : SetProfileArgs) :
    Stores Outer.units { s.settings with profiles := s.settings.profiles.set i (Profile.apply a s.settings.profiles[i]).1 } s (s.setProfile i a).1 :=
  .of_ranked (.of_fields rfl rfl rfl rfl rfl rfl rfl) rfl rfl (State.setProfile_carried i a) (.of_eq rfl rfl)

/-! ### Supplies, account and schedule (R50, R75) -/

theorem State.setSlot_stores (s : State) (i : Fin 4) (a : SetSlotArgs) :
    Stores Outer.besideSupplies { s.settings with supplies := s.settings.supplies.set i (SupplySetting.apply a s.settings.supplies[i]) } s
      (s.setSlot i a) := by
  have hcarried := State.setSlot_carried (s := s) i a
  by_cases h : SupplySetting.apply a s.settings.supplies[i] = s.settings.supplies[i]
  · rw [State.setSlot_same h, h]
    have hsame : s.settings.supplies.set i s.settings.supplies[i] = s.settings.supplies := Vector.set_getElem_self ..
    rw [hsame]
    exact .refl s
  · have hchanged := State.setSlot_changed h
    dsimp only at hchanged
    generalize ht : (s.withSlot i (SupplySetting.apply a s.settings.supplies[i])).slotSampled i = t at hchanged
    have hparts : t = { s.withSlot i (SupplySetting.apply a s.settings.supplies[i]) with account := t.account, status := t.status } := by
      rw [← ht]
      exact State.slotSampled_eq _ i
    have hres : t.account.fanRes = s.account.fanRes := by
      obtain ⟨g, hg⟩ := State.sampledPub_account (s.withSlot i (SupplySetting.apply a s.settings.supplies[i])) i
      rw [← ht, show ((s.withSlot i (SupplySetting.apply a s.settings.supplies[i])).slotSampled i).account = _ from hg]
      rfl
    have hsampled : Borne s t := .of_fields (by rw [hparts]; rfl) (by rw [hparts]; rfl) (by rw [hparts]; rfl) (by rw [hparts]; rfl) (by rw [hparts]; rfl)
      (by rw [hparts]; rfl) (by rw [hparts]; rfl)
    have hsettings : t.accountUpdate.settings = { s.settings with
        supplies := s.settings.supplies.set i (SupplySetting.apply a s.settings.supplies[i]) } :=
      (congrArg Outer.settings t.accountUpdate_outer).trans (by rw [hparts]; rfl)
    have hkept : Outer.besideSupplies t.outer = Outer.besideSupplies s.outer := by
      show (t.account.fanRes, t.sensors, t.scan, t.fans) = _
      rw [hres, hparts]
      rfl
    have hranked : Ranked s t.accountUpdate := .of_eq (by rw [hsettings]) (by rw [State.accountUpdate_eq, hparts]; rfl)
    rw [hchanged] at hcarried ⊢
    exact .withEvent _ _ (hsampled.trans t.accountUpdate_borne) hsettings (by rw [State.accountUpdate_outer]; exact hkept) hcarried hranked

theorem State.setAccount_stores (s : State) (a : SetAccountArgs) :
    Stores Outer.units { s.settings with account := (AccountSettings.apply a s.settings.account).1 } s (s.setAccount a).1 := by
  have hcarried := State.setAccount_carried (s := s) a
  rw [State.setAccount_fst] at hcarried ⊢
  by_cases h : (AccountSettings.apply a s.settings.account).1 = s.settings.account
  · rw [if_pos h, h]
    exact .refl s
  · rw [if_neg h] at hcarried ⊢
    generalize (AccountSettings.apply a s.settings.account).1 = new at hcarried ⊢
    unfold State.accountStored at hcarried ⊢
    have hparts := (s.withAccountSet new).shedSwitched_eq s.settings.account.shed new.shed
    obtain ⟨hsupplies, hres⟩ := (s.withAccountSet new).shedSwitched_parts s.settings.account.shed new.shed
    generalize (s.withAccountSet new).shedSwitched s.settings.account.shed new.shed = t at hparts hsupplies hres hcarried ⊢
    have hswitched : Borne s t := .of_fields (by rw [hparts]; rfl) (by rw [hparts]; rfl) (by rw [hparts]; rfl) (by rw [hparts]; rfl) (by rw [hparts]; rfl)
      (by rw [hparts]; rfl) (by rw [hparts]; rfl)
    have hsettings : t.accountUpdate.settings = { s.settings with account := new } :=
      (congrArg Outer.settings t.accountUpdate_outer).trans (by rw [hparts]; rfl)
    have hkept : Outer.units t.outer = Outer.units s.outer := by
      show (t.account.supplies, t.account.fanRes, t.sensors, t.scan, t.fans) = _
      rw [hsupplies, hres, hparts]
      rfl
    exact .of_ranked (hswitched.trans t.accountUpdate_borne) hsettings (by rw [State.accountUpdate_outer]; exact hkept) hcarried
      (.of_eq (by rw [hsettings]) (by rw [State.accountUpdate_eq, hparts]; rfl))

theorem State.setSchedule_stores (s : State) (a : SetScheduleArgs) :
    Stores Outer.units { s.settings with schedule := (Schedule.apply a s.settings.schedule).1 } s (s.setSchedule a).1 := by
  have hcarried := State.setSchedule_carried (s := s) a
  rw [State.setSchedule_fst] at hcarried ⊢
  by_cases h : (Schedule.apply a s.settings.schedule).1 = s.settings.schedule
  · rw [if_pos h, h]
    exact .refl s
  · rw [if_neg h] at hcarried ⊢
    generalize (Schedule.apply a s.settings.schedule).1 = new at hcarried ⊢
    have hqueue := (s.rescheduled new).pubQueue_queue
    have hparts := (s.rescheduled new).pubQueue_eq
    generalize (s.rescheduled new).pubQueue = t at hqueue hparts hcarried ⊢
    exact .of_ranked (.of_fields (by rw [hparts]; rfl) (by rw [hparts]; rfl) (by rw [hparts]; rfl) (by rw [hparts]; rfl) (by rw [hparts]; rfl)
      (by rw [hparts]; rfl) (by rw [hparts]; rfl)) (by rw [hparts]; rfl) (by rw [hparts]; rfl) hcarried (.of_eq (by rw [hparts]; rfl) hqueue)

/-! ### Zones and sensors (R97 to R99) -/

theorem State.withZone_stores (s : State) (z : Fin 4) (c : ZoneSettings) (hcarried : Carried s (s.withZone z c)) :
    Stores Outer.units { s.settings with zones := s.settings.zones.set z c } s (s.withZone z c) := by
  obtain ⟨hunits, hlate, hlike, houter⟩ := s.withZone_put z c
  have hzones : (s.withZone z c).zones = s.zones.set z (s.withZone z c).zones[z] := congrArg Outer.zones houter
  have hsettings : (s.withZone z c).settings = _ := congrArg Outer.settings houter
  refine .of_ranked (.of_units hunits (by rw [houter]; rfl) hlate fun y => ?_) hsettings (by rw [houter]; rfl) hcarried
    (.of_eq (by rw [hsettings]) (by rw [hunits.scheduler]))
  by_cases hy : y = z
  · rw [hy]
    exact hlike
  · rw [hzones, show (s.zones.set z (s.withZone z c).zones[z])[y] = s.zones[y] from
      Vector.getElem_set_ne (xs := s.zones) z.isLt y.isLt fun e => hy (Fin.ext e.symm)]
    exact s.zones[y].like_refl

theorem State.setStaleTime_stores (s : State) (v : Half) :
    Stores Outer.units { s.settings with staleTime := (staleTimeOf v).1 } s (s.setStaleTime v).1 := by
  have hset : Stores Outer.units { s.settings with staleTime := (staleTimeOf v).1 } s
      { s with settings := { s.settings with staleTime := (staleTimeOf v).1 } } :=
    .of_ranked (.of_fields rfl rfl rfl rfl rfl rfl rfl) rfl rfl (.of_core_mems rfl rfl) (.of_eq rfl rfl)
  refine hset.trans ?_
  unfold State.setStaleTime
  dsimp only
  generalize hw : ({ s with settings := { s.settings with staleTime := (staleTimeOf v).1 } } : State) = w
  have hpub := w.pubZones_published
  have hsettings : w.pubZones.settings = w.settings := congrArg Outer.settings hpub.outer
  exact .of_ranked (.of_units hpub.units (by rw [hpub.outer]; rfl) hpub.late hpub.like) (by rw [hsettings, ← hw]) (by rw [hpub.outer]; rfl)
    (.of_core_mems w.pubZones_core w.pubZones_mems) (.of_eq (by rw [hsettings]) (by rw [hpub.units.scheduler]))

theorem State.setSensor_stores (hrun : s.phase = .running) (i : Fin 8) (a : SetSensorArgs) :
    Stores Outer.besideSensors { s.settings with sensors := s.settings.sensors.set i (SensorSettings.apply a s.settings.sensors[i]).1 } s
      (s.setSensor i a).1 := by
  have hcarried := State.setSensor_carried (s := s) i a
  rw [State.setSensor_eq] at hcarried ⊢
  dsimp only at hcarried ⊢
  generalize (SensorSettings.apply a s.settings.sensors[i]).1 = new at hcarried ⊢
  have hstored := s.sensorStored_stored i new hrun
  have hsettings : (s.sensorStored i new).settings = _ := congrArg Outer.settings hstored.outer
  have hzones : (s.sensorStored i new).zones = s.zones := congrArg Outer.zones hstored.outer
  refine .of_ranked ⟨by rw [hstored.outer]; rfl, .of_eq hstored.units.readers, ?_, fun p => by rw [hstored.units.attention], fun z => ?_,
    .of_bays hstored.units.bays (by unfold State.exchange; rw [hstored.units.ram, hstored.units.readers])⟩ hsettings (by rw [hstored.outer]; rfl) hcarried
    (.of_eq (by rw [hsettings]) (by rw [hstored.units.scheduler]))
  · unfold State.sensorStored
    dsimp only
    split
    · exact fun e he => (Borne.refl _).raiseBoth srcThermal |>.late e (by rw [State.republishSensor_eq]; exact he)
    · exact fun e he => by rw [State.republishSensor_eq]; exact he
  · rw [hzones]
    exact s.zones[z].like_refl

/-! ### Fans (R122) -/

theorem State.evalEnclosure_borne (s : State) : Borne s s.evalEnclosure :=
  .of_fields (by rw [State.evalEnclosure_outer]; rfl) (by rw [State.evalEnclosure_eq]) (by rw [State.evalEnclosure_eq]; rfl)
    (by rw [State.evalEnclosure_eq]) (by rw [State.evalEnclosure_eq]) (by rw [State.evalEnclosure_eq]) (by rw [State.evalEnclosure_eq])

theorem State.evalEnclosure_ranked (s : State) : Ranked s s.evalEnclosure := .of_eq (by rw [State.evalEnclosure_eq]) (by rw [State.evalEnclosure_eq])

theorem State.holdSummary_borne (s : State) : Borne s s.holdSummary := .of_fields rfl rfl rfl rfl rfl rfl rfl

theorem State.releaseSummary_borne (s : State) (held : Bool) : Borne s (s.releaseSummary held) := by
  rw [State.releaseSummary_eq]
  exact .of_fields rfl rfl rfl rfl rfl rfl rfl

theorem State.releaseSummary_ranked (s : State) (held : Bool) : Ranked s (s.releaseSummary held) := by
  rw [State.releaseSummary_eq]
  exact .of_eq rfl rfl

theorem State.reportFans_borne (s : State) : Borne s s.reportFans := by
  unfold State.reportFans State.reportReservation
  split
  · exact s.settle_borne
  · have hset : Borne s { s with account := { s.account with fanRes := s.fanReservation } } := .of_fields rfl rfl rfl rfl rfl rfl rfl
    exact (hset.trans (State.accountUpdate_borne _)).trans (State.settle_borne _)

theorem State.reportFans_ranked (s : State) : Ranked s s.reportFans := by
  unfold State.reportFans State.reportReservation
  split
  · exact s.settle_ranked
  · refine Ranked.trans ?_ (State.settle_ranked _)
    exact .of_eq (by rw [State.accountUpdate_eq]) (by rw [State.accountUpdate_eq])

theorem State.refanned_borne (s : State) (f : FanSettings) (fans : Vector Fan 6) (c : Nat) :
    Borne s (s.refanned f fans c) ∧ Ranked s (s.refanned f fans c) := ⟨.of_fields rfl rfl rfl rfl rfl rfl rfl, .of_eq rfl rfl⟩

theorem State.pubFans_borne (s : State) : Borne s s.pubFans ∧ Ranked s s.pubFans := by
  have hpub := s.pubFans_published
  generalize s.pubFans = t at hpub ⊢
  have hzones : t.zones = s.zones := congrArg Outer.zones hpub.outer
  have hsettings : t.settings = s.settings := congrArg Outer.settings hpub.outer
  refine ⟨.of_units hpub.units (by rw [hpub.outer]; rfl) hpub.late fun z => ?_, .of_eq (by rw [hsettings]) (by rw [hpub.units.scheduler])⟩
  rw [hzones]
  exact s.zones[z].like_refl

theorem State.refanWork_borne (s : State) (f : FanSettings) (fans : Vector Fan 6) (c : Nat) (moved : Bool) :
    Borne s (s.refanWork f fans c moved) ∧ Ranked s (s.refanWork f fans c moved) := by
  obtain ⟨hset, hsetRanked⟩ := s.refanned_borne f fans c
  unfold State.refanWork
  generalize s.refanned f fans c = t at hset hsetRanked ⊢
  have hlit := (hset.trans t.pubFans_borne.1).trans t.pubFans.evalEnclosure_borne
  have hranked := (hsetRanked.trans t.pubFans_borne.2).trans t.pubFans.evalEnclosure_ranked
  split
  · exact ⟨hlit.trans (State.reportFans_borne _), hranked.trans (State.reportFans_ranked _)⟩
  · exact ⟨hlit, hranked⟩

theorem State.refanTo_borne (s : State) (new : FanSettings) : Borne s (s.refanTo new) ∧ Ranked s (s.refanTo new) := by
  obtain ⟨hborne, hranked⟩ := s.holdSummary.refanWork_borne new (s.recountedFans new) (max s.fans.c new.dmin)
    (reservationMoved s.settings.fans new s.fans.c (max s.fans.c new.dmin))
  have hreleased := (s.holdSummary_borne.trans hborne).trans (State.releaseSummary_borne _ s.reports.summaryHeld)
  have hkept := Ranked.trans (s := s) (Ranked.trans (t := s.holdSummary) (.of_eq rfl rfl) hranked) (State.releaseSummary_ranked _ s.reports.summaryHeld)
  unfold State.refanTo
  dsimp only
  split
  · exact ⟨hreleased.raiseBoth srcFan, hkept.trans (.of_eq rfl rfl)⟩
  · exact ⟨hreleased, hkept⟩

theorem State.setFans_stores (hp : s.phase ≠ .loading) (a : SetFansArgs) :
    Stores Outer.besideFans { s.settings with fans := (FanSettings.apply a s.settings.fans).1 } s (s.setFans a).1 := by
  have hcarried := State.setFans_carried hp a
  by_cases h : (FanSettings.apply a s.settings.fans).1 = s.settings.fans
  · rw [State.setFans_same s a h, h]
    exact .refl s
  · rw [State.setFans_changed s a h] at hcarried ⊢
    obtain ⟨houter, -⟩ := s.refanTo_fields (FanSettings.apply a s.settings.fans).1 rfl
    obtain ⟨hborne, hranked⟩ := s.refanTo_borne (FanSettings.apply a s.settings.fans).1
    exact .of_ranked hborne (congrArg Outer.settings houter) (by rw [houter]; rfl) hcarried hranked

/-! ### Patterns and attention (R141, R174) -/

theorem State.setPattern_stores (s : State) (i : Fin 8) (a : SetPatternArgs) :
    Stores Outer.units { s.settings with patterns := s.settings.patterns.set i (Pattern.apply a s.settings.patterns[i]) } s (s.setPattern i a) := by
  obtain ⟨hlights, houter, -⟩ := State.pubEnclosure_lightsOnly
    { s with settings := { s.settings with patterns := s.settings.patterns.set i (Pattern.apply a s.settings.patterns[i]) } }
  have hsettings : (s.setPattern i a).settings = { s.settings with patterns := s.settings.patterns.set i (Pattern.apply a s.settings.patterns[i]) } :=
    congrArg Outer.settings houter
  have hzones : (s.setPattern i a).zones = s.zones := congrArg Outer.zones houter
  exact .of_ranked (.of_fields (by rw [show (s.setPattern i a).outer = _ from houter]; rfl) hlights.bays
    (by unfold State.exchange; rw [show (s.setPattern i a).ram = _ from hlights.ram, show (s.setPattern i a).readers = _ from hlights.readers])
    hlights.readers hlights.attention hlights.late hzones) hsettings (by rw [show (s.setPattern i a).outer = _ from houter]; rfl)
    (State.setPattern_carried i a) (.of_eq (by rw [hsettings]) (by rw [show (s.setPattern i a).scheduler = _ from hlights.scheduler]))

theorem State.setSource_stores (s : State) (p : Port) (i : Fin 8) (a : SetAttentionArgs) :
    Stores Outer.units
      { s.settings with
        attention := s.settings.attention.put p ((s.settings.attention.get p).set i (SourceConfig.apply a (s.settings.attention.get p)[i]).1) }
      s (s.setSource p i a).1 := by
  obtain ⟨hparts, hsettings, hother, hserving, -⟩ := s.setSource_fields p i a rfl
  have hcarried := State.setSource_carried (s := s) p i a
  generalize (s.setSource p i a).1 = t at hparts hsettings hother hserving hcarried ⊢
  refine .of_ranked ⟨by rw [hparts]; rfl, .of_eq (by rw [hparts]), fun _ he => by rw [hparts]; exact he, fun q => ?_, fun z => ?_,
    .of_bays (by rw [hparts]) (by rw [hparts]; rfl)⟩ hsettings (by rw [hparts]; rfl) hcarried (.of_eq (by rw [hsettings]) (by rw [hparts]))
  · cases p <;> cases q
    · exact hserving
    · exact congrArg AttentionUnit.inService hother
    · exact congrArg AttentionUnit.inService hother
    · exact hserving
  · rw [hparts]
    exact s.zones[z].like_refl

end Sys2Proof.Machine
end

