-- ==== Sys2Proof/Proofs/ImageTaken.lean ====
section
/-! SUPPORT. The sections of an image taken one after another: the live copy they leave, whether a value was clamped, and how many zone parts
were refused (R181). -/

namespace Sys2Proof.Machine

variable {s t u : State} {β : Type} {part : Outer → β} {a b d : Applied}

/-! ### One value taken, and many -/

/-- From a to b values were taken: their state stores c, a clamp is noted where one was made, and n zone parts were refused. -/
structure Applied.Takes (part : Outer → β) (c : Settings) (clamps : Prop) (n : Nat) (a b : Applied) : Prop where
  stores  : Stores part c a.state b.state
  clamped : b.clamped = true ↔ a.clamped = true ∨ clamps
  refused : b.refused = a.refused + n

variable {c e : Settings} {p q : Prop} {n k : Nat}

theorem Applied.Takes.running (h : Applied.Takes part c p n a b) (hrun : a.state.phase = .running) : b.state.phase = .running :=
  h.stores.borne.phase.trans hrun

theorem Applied.Takes.trans (h : Applied.Takes part c p n a b) (g : Applied.Takes part e q k b d) : Applied.Takes part e (p ∨ q) (n + k) a d :=
  ⟨h.stores.trans g.stores, by rw [g.clamped, h.clamped, or_assoc], by rw [g.refused, h.refused, Nat.add_assoc]⟩

theorem Applied.Takes.weaken {γ : Type} (h : Applied.Takes part c p n a b) (f : β → γ) : Applied.Takes (fun o => f (part o)) c p n a b :=
  ⟨h.stores.weaken f, h.clamped, h.refused⟩

theorem not_loading_of_running (h : s.phase = .running) : s.phase ≠ .loading := by rw [h]; decide

theorem Applied.takes_andSet {f : State → State × Bool} (hrun : a.state.phase = .running) (h : Stores part c a.state (f a.state).1)
    (hc : (f a.state).2 = true ↔ p) : Applied.Takes part c p 0 a (a.andSet f) :=
  ⟨h.settle (not_loading_of_running (h.borne.phase.trans hrun)), by simp [Applied.andSet, hc], rfl⟩

/-- A zone part taken, or refused. -/
theorem Applied.takes_andPart {f : State → Option State × Bool} {ok : Bool} (hrun : a.state.phase = .running)
    (h : ok = true → ∃ t, (f a.state).1 = some t ∧ Stores part c a.state t) (hno : ok = false → (f a.state).1 = none ∧ c = a.state.settings)
    (hc : (f a.state).2 = true ↔ p) : Applied.Takes part c p (if ok then 0 else 1) a (a.andPart f) := by
  unfold Applied.andPart
  cases ok with
  | true =>
    obtain ⟨t, ht, hstores⟩ := h rfl
    have hf : f a.state = (some t, (f a.state).2) := Prod.ext ht rfl
    rw [hf]
    exact ⟨hstores.settle (not_loading_of_running (hstores.borne.phase.trans hrun)), by simp [hc], rfl⟩
  | false =>
    obtain ⟨hnone, rfl⟩ := hno rfl
    have hf : f a.state = (none, (f a.state).2) := Prod.ext hnone rfl
    rw [hf]
    exact ⟨.refl _, by simp [hc], rfl⟩

theorem Applied.takes_foldl {ι : Type} {step : Applied → ι → Applied} {put : ι → Settings → Settings} {p : ι → Prop} {n : ι → Nat}
    (h : ∀ (a : Applied) (i : ι), a.state.phase = .running → Applied.Takes part (put i a.state.settings) (p i) (n i) a (step a i))
    (l : List ι) (a : Applied) (hrun : a.state.phase = .running) :
    Applied.Takes part (l.foldl (fun c i => put i c) a.state.settings) (∃ i ∈ l, p i) (l.map n).sum a (l.foldl step a) := by
  induction l generalizing a with
  | nil => exact ⟨.refl _, by simp, rfl⟩
  | cons i l ih =>
    have hstep := h a i hrun
    have hrest := ih (step a i) (hstep.running hrun)
    rw [hstep.stores.settings] at hrest
    have hboth := hstep.trans hrest
    exact ⟨hboth.stores, by rw [List.foldl_cons, hboth.clamped]; simp, by rw [List.foldl_cons, hboth.refused]; simp⟩

/-! ### The items of a section -/

/-- A fold that replaces one field of a record is the record with that field folded. -/
theorem foldl_field {σ α ι : Type} (get : σ → α) (put : α → σ → σ) (hput : ∀ x, put (get x) x = x) (hget : ∀ v x, get (put v x) = v)
    (hset : ∀ v w x, put v (put w x) = put v x) (f : ι → α → α) (l : List ι) (x : σ) :
    l.foldl (fun x i => put (f i (get x)) x) x = put (l.foldl (fun v i => f i v) (get x)) x := by
  induction l generalizing x with
  | nil => exact (hput x).symm
  | cons i l ih => rw [List.foldl_cons, List.foldl_cons, ih, hget, hset]

/-- Items of a vector replaced one by one, each by what it gives. -/
theorem foldl_set_get {α : Type} {n : Nat} (g : Fin n → α → α) {l : List (Fin n)} (hl : l.Nodup) (v : Vector α n) (j : Fin n) :
    (l.foldl (fun v i => v.set i (g i v[i])) v)[j] = if j ∈ l then g j v[j] else v[j] := by
  induction l generalizing v with
  | nil => rfl
  | cons i l ih =>
    obtain ⟨hi, hl⟩ := List.nodup_cons.1 hl
    rw [List.foldl_cons, ih hl]
    by_cases hj : j = i
    · subst hj
      rw [if_neg hi, if_pos List.mem_cons_self]
      exact Vector.getElem_set_self ..
    · have hstands : (v.set i (g i v[i]))[j] = v[j] := Vector.getElem_set_ne (xs := v) i.isLt j.isLt fun h => hj (Fin.ext h.symm)
      rw [hstands]
      simp [hj]

/-- Every item of a vector replaced. -/
theorem foldl_set_ofFn {α : Type} {n : Nat} (f : Fin n → α) (v : Vector α n) : (List.finRange n).foldl (fun v i => v.set i (f i)) v = Vector.ofFn f := by
  refine Vector.ext fun j hj => ?_
  have hat := foldl_set_get (fun i _ => f i) (List.nodup_finRange n) v ⟨j, hj⟩
  rw [if_pos (List.mem_finRange _)] at hat
  exact hat.trans (Vector.getElem_ofFn ..).symm

/-- A section of one kind of item, each taken in its turn. -/
theorem Applied.takes_items {α : Type} {n : Nat} (get : Settings → Vector α n) (put : Vector α n → Settings → Settings)
    (hput : ∀ x, put (get x) x = x) (hget : ∀ v x, get (put v x) = v) (hset : ∀ v w x, put v (put w x) = put v x)
    (value : Fin n → α) {clamps : Fin n → Prop} {step : Applied → Fin n → Applied}
    (hone : ∀ (a : Applied) (i : Fin n), a.state.phase = .running →
      Applied.Takes part (put ((get a.state.settings).set i (value i)) a.state.settings) (clamps i) 0 a (step a i))
    (hrun : a.state.phase = .running) :
    Applied.Takes part (put (Vector.ofFn value) a.state.settings) (∃ i, clamps i) 0 a ((List.finRange n).foldl step a) := by
  have hall := Applied.takes_foldl (put := fun (i : Fin n) x => put ((get x).set i (value i)) x) hone (List.finRange n) a hrun
  rw [foldl_field get put hput hget hset (fun (i : Fin n) v => v.set i (value i)), foldl_set_ofFn] at hall
  exact ⟨hall.stores, hall.clamped.trans (by simp), hall.refused.trans (by simp)⟩

/-! ### The sections (Table 11-16) -/

variable (m : Memory)

theorem Applied.takes_bays (hrun : a.state.phase = .running) :
    Applied.Takes Outer.units { a.state.settings with bays := (Settings.ofImage m).bays }
      (∃ n : BayNo, (BaySettings.apply (imageBay m n) (.default n)).2 = true) 0 a
      (bayNumbers.foldl (fun a n => a.andSet (State.setBay n (imageBay m n))) a) :=
  Applied.takes_items (fun c => c.bays) (fun v c => { c with bays := v }) (fun _ => rfl) (fun _ _ => rfl) (fun _ _ _ => rfl)
    (fun n => (BaySettings.apply (imageBay m n) (.default n)).1)
    (fun _ n hrun => Applied.takes_andSet hrun (State.setBay_stores (n := n) (not_loading_of_running hrun) (imageBay m n)) Iff.rfl) hrun

theorem Applied.takes_timing (hrun : a.state.phase = .running) :
    Applied.Takes Outer.units { a.state.settings with timing := (Settings.ofImage m).timing } ((imageTiming m).2 = true) 0 a
      (a.andSet (State.setTiming m)) :=
  Applied.takes_andSet hrun (State.setTiming_stores _ m) Iff.rfl

theorem Applied.takes_profiles (hrun : a.state.phase = .running) :
    Applied.Takes Outer.units { a.state.settings with profiles := (Settings.ofImage m).profiles }
      (∃ i : Fin 8, (Profile.apply (imageProfile m i) .default0).2 = true) 0 a
      ((List.finRange 8).foldl (fun a i => a.andSet (State.setProfile i (imageProfile m i))) a) :=
  Applied.takes_items (fun c => c.profiles) (fun v c => { c with profiles := v }) (fun _ => rfl) (fun _ _ => rfl) (fun _ _ _ => rfl)
    (fun i => (Profile.apply (imageProfile m i) .default0).1)
    (fun _ i hrun => Applied.takes_andSet hrun (State.setProfile_stores _ i (imageProfile m i)) Iff.rfl) hrun

theorem Applied.takes_slots (hrun : a.state.phase = .running) :
    Applied.Takes Outer.besideSupplies { a.state.settings with supplies := (Settings.ofImage m).supplies } (∃ _ : Fin 4, False) 0 a
      ((List.finRange 4).foldl (fun a i => a.andSet fun s => (s.setSlot i (imageSlot m i), false)) a) :=
  Applied.takes_items (fun c => c.supplies) (fun v c => { c with supplies := v }) (fun _ => rfl) (fun _ _ => rfl) (fun _ _ _ => rfl)
    (fun i => SupplySetting.apply (imageSlot m i) ⟨0, 0⟩)
    (fun _ i hrun => Applied.takes_andSet hrun (State.setSlot_stores _ i (imageSlot m i)) (by simp)) hrun

theorem Applied.takes_account (hrun : a.state.phase = .running) :
    Applied.Takes Outer.units { a.state.settings with account := (Settings.ofImage m).account }
      ((AccountSettings.apply (imageAccount m) Settings.default.account).2 = true) 0 a (a.andSet (State.setAccount (imageAccount m))) :=
  Applied.takes_andSet hrun (State.setAccount_stores _ (imageAccount m)) (by rw [State.setAccount_snd]; rfl)

theorem Applied.takes_schedule (hrun : a.state.phase = .running) :
    Applied.Takes Outer.units { a.state.settings with schedule := (Settings.ofImage m).schedule }
      ((Schedule.apply (imageSchedule m) Settings.default.schedule).2 = true) 0 a (a.andSet (State.setSchedule (imageSchedule m))) :=
  Applied.takes_andSet hrun (State.setSchedule_stores _ (imageSchedule m)) (by rw [State.setSchedule_snd]; rfl)

theorem Applied.takes_staleTime (hrun : a.state.phase = .running) :
    Applied.Takes Outer.units { a.state.settings with staleTime := (Settings.ofImage m).staleTime } ((staleTimeOf (imageStaleTime m)).2 = true) 0 a
      (a.andSet (State.setStaleTime (imageStaleTime m))) :=
  Applied.takes_andSet hrun (State.setStaleTime_stores _ (imageStaleTime m)) Iff.rfl

theorem Applied.takes_sensors (hrun : a.state.phase = .running) :
    Applied.Takes Outer.besideSensors { a.state.settings with sensors := (Settings.ofImage m).sensors }
      (∃ i : Fin 8, (SensorSettings.apply (imageSensor m i) ⟨none, 0⟩).2 = true) 0 a
      ((List.finRange 8).foldl (fun a i => a.andSet (State.setSensor i (imageSensor m i))) a) :=
  Applied.takes_items (fun c => c.sensors) (fun v c => { c with sensors := v }) (fun _ => rfl) (fun _ _ => rfl) (fun _ _ _ => rfl)
    (fun i => (SensorSettings.apply (imageSensor m i) ⟨none, 0⟩).1)
    (fun _ i hrun => Applied.takes_andSet hrun (State.setSensor_stores hrun i (imageSensor m i)) Iff.rfl) hrun

theorem Applied.takes_fans (hrun : a.state.phase = .running) :
    Applied.Takes Outer.besideFans { a.state.settings with fans := (Settings.ofImage m).fans }
      ((FanSettings.apply (imageFans m) Settings.default.fans).2 = true) 0 a (a.andSet (State.setFans (imageFans m))) :=
  Applied.takes_andSet hrun (State.setFans_stores (not_loading_of_running hrun) (imageFans m)) (by rw [State.setFans_clamped]; rfl)

theorem Applied.takes_sources (p : Port) (hrun : a.state.phase = .running) :
    Applied.Takes Outer.units
      { a.state.settings with attention := a.state.settings.attention.put p ((Settings.ofImage m).attention.get p) }
      (∃ i : Fin 8, (SourceConfig.apply (imageSource m p i) .default).2 = true) 0 a
      ((List.finRange 8).foldl (fun a i => a.andSet (State.setSource p i (imageSource m p i))) a) := by
  have hall := Applied.takes_items (part := Outer.units) (a := a) (clamps := fun i => (SourceConfig.apply (imageSource m p i) .default).2 = true)
    (fun c => c.attention.get p) (fun v c => { c with attention := c.attention.put p v })
    (fun c => by cases p <;> rfl) (fun _ _ => by cases p <;> rfl) (fun _ _ _ => by cases p <;> rfl)
    (fun i => (SourceConfig.apply (imageSource m p i) .default).1)
    (fun _ i hrun => Applied.takes_andSet hrun (State.setSource_stores _ p i (imageSource m p i)) Iff.rfl) hrun
  cases p <;> exact hall

/-! ### Patterns and zones -/

/-- The patterns after an image's are taken: entries 0 and 1 stand (R141). -/
def patternsTaken (v : Vector Pattern 8) : Vector Pattern 8 := Vector.ofFn fun i => if i.val < 2 then v[i] else (Settings.ofImage m).patterns[i]

theorem Applied.takes_patterns (hrun : a.state.phase = .running) :
    Applied.Takes Outer.units { a.state.settings with patterns := patternsTaken m a.state.settings.patterns } (∃ _ : Fin 8, False) 0 a
      (((List.finRange 8).drop 2).foldl (fun a i => a.andSet fun s => (s.setPattern i (imagePattern m i), false)) a) := by
  have hall := Applied.takes_foldl (part := Outer.units)
    (put := fun (i : Fin 8) c => { c with patterns := c.patterns.set i (Pattern.apply (imagePattern m i) ⟨0, 0⟩) }) (p := fun _ => False)
    (n := fun _ => 0) (step := fun a i => a.andSet fun s => (s.setPattern i (imagePattern m i), false))
    (fun _ i hrun => Applied.takes_andSet hrun (State.setPattern_stores _ i (imagePattern m i)) (by simp)) ((List.finRange 8).drop 2) a hrun
  rw [foldl_field (fun c : Settings => c.patterns) (fun v c => { c with patterns := v }) (fun _ => rfl) (fun _ _ => rfl) (fun _ _ _ => rfl)
    (fun (i : Fin 8) v => v.set i (Pattern.apply (imagePattern m i) ⟨0, 0⟩))] at hall
  have hpatterns : ((List.finRange 8).drop 2).foldl (fun v (i : Fin 8) => v.set i (Pattern.apply (imagePattern m i) ⟨0, 0⟩)) a.state.settings.patterns =
      patternsTaken m a.state.settings.patterns := by
    refine Vector.ext fun j hj => ?_
    have hat := foldl_set_get (fun (i : Fin 8) _ => Pattern.apply (imagePattern m i) ⟨0, 0⟩) (l := (List.finRange 8).drop 2) (by decide)
      a.state.settings.patterns ⟨j, hj⟩
    have hmem : ∀ i : Fin 8, i ∈ (List.finRange 8).drop 2 ↔ ¬ i.val < 2 := by decide
    refine hat.trans ?_
    simp only [patternsTaken, Vector.getElem_ofFn, hmem, Settings.ofImage]
    split <;> simp_all
  rw [hpatterns] at hall
  exact ⟨hall.stores, hall.clamped.trans (by simp), hall.refused.trans (by simp)⟩

/-- A zone's settings after an image's are taken: a part that SET_ZONE refuses stands (R97, R98, R181). -/
def zoneTaken (z : Fin 4) (old : ZoneSettings) : ZoneSettings :=
  { curve := if (curveInImage m z).accepted then curveInImage m z else old.curve
    limits := if (limitsInImage m z).accepted then limitsInImage m z else old.limits }

/-- How many parts of a zone an image leaves as they were. -/
def zoneRefused (z : Fin 4) : Nat := (if (curveInImage m z).accepted then 0 else 1) + (if (limitsInImage m z).accepted then 0 else 1)

/-- The settings with a zone's own. -/
def Settings.withZone (z : Fin 4) (x : ZoneSettings) (c : Settings) : Settings := { c with zones := c.zones.set z x }

theorem Settings.withZone_self (z : Fin 4) (c : Settings) : c.withZone z c.zones[z] = c := by
  unfold Settings.withZone
  rw [show c.zones.set z c.zones[z] = c.zones from Vector.set_getElem_self ..]

theorem Settings.withZone_withZone (z : Fin 4) (x y : ZoneSettings) (c : Settings) : (c.withZone z x).withZone z y = c.withZone z y := by
  unfold Settings.withZone
  rw [set_set_same]

theorem Settings.withZone_at (z : Fin 4) (x : ZoneSettings) (c : Settings) : (c.withZone z x).zones[z] = x := set_self ..

theorem Applied.takes_curve (z : Fin 4) (hrun : a.state.phase = .running) :
    Applied.Takes Outer.units
      (a.state.settings.withZone z { a.state.settings.zones[z] with
        curve := if (curveInImage m z).accepted then curveInImage m z else a.state.settings.zones[z].curve })
      ((Curve.ofRaw (imageCurve m z)).2 = true) (if (curveInImage m z).accepted then 0 else 1) a
      (a.andPart (State.setCurve z (imageCurve m z))) := by
  have heq := a.state.setCurve_eq z (imageCurve m z)
  rw [(Curve.ofRaw_imageCurve m z).1] at heq
  refine Applied.takes_andPart hrun (fun hok => ?_) (fun hno => ⟨by rw [heq, hno]; rfl, ?_⟩) (by rw [heq])
  · rw [if_pos hok] at heq ⊢
    have hsome := congrArg Prod.fst heq
    exact ⟨_, hsome, State.withZone_stores _ z _ (State.setCurve_carried z _ _ hsome)⟩
  · rw [hno]
    exact Settings.withZone_self z _

theorem Applied.takes_limits (z : Fin 4) (hrun : a.state.phase = .running) :
    Applied.Takes Outer.units
      (a.state.settings.withZone z { a.state.settings.zones[z] with
        limits := if (limitsInImage m z).accepted then limitsInImage m z else a.state.settings.zones[z].limits })
      ((ZoneLimits.apply (imageLimits m z) .default).2 = true) (if (limitsInImage m z).accepted then 0 else 1) a
      (a.andPart (State.setLimits z (imageLimits m z))) := by
  have heq := a.state.setLimits_eq z (imageLimits m z)
  rw [(ZoneLimits.apply_imageLimits m z a.state.settings.zones[z].limits).1] at heq
  refine Applied.takes_andPart hrun (fun hok => ?_) (fun hno => ⟨by rw [heq, hno]; rfl, ?_⟩) (by rw [heq]; rfl)
  · rw [if_pos hok] at heq ⊢
    have hsome := congrArg Prod.fst heq
    exact ⟨_, hsome, State.withZone_stores _ z _ (State.setLimits_carried z _ _ hsome)⟩
  · rw [hno]
    exact Settings.withZone_self z _

theorem Applied.takes_zone (z : Fin 4) (hrun : a.state.phase = .running) :
    Applied.Takes Outer.units (a.state.settings.withZone z (zoneTaken m z a.state.settings.zones[z]))
      ((Curve.ofRaw (imageCurve m z)).2 = true ∨ (ZoneLimits.apply (imageLimits m z) .default).2 = true) (zoneRefused m z) a
      ((a.andPart (State.setCurve z (imageCurve m z))).andPart (State.setLimits z (imageLimits m z))) := by
  have hcurve := Applied.takes_curve m z hrun
  have hlimits := Applied.takes_limits m z (hcurve.running hrun)
  rw [hcurve.stores.settings, Settings.withZone_at, Settings.withZone_withZone] at hlimits
  exact hcurve.trans hlimits

theorem Applied.takes_zones (hrun : a.state.phase = .running) :
    Applied.Takes Outer.units { a.state.settings with zones := Vector.ofFn fun z => zoneTaken m z a.state.settings.zones[z] }
      (∃ z : Fin 4, (Curve.ofRaw (imageCurve m z)).2 = true ∨ (ZoneLimits.apply (imageLimits m z) .default).2 = true)
      ((List.finRange 4).map (zoneRefused m)).sum a
      ((List.finRange 4).foldl (fun a z => (a.andPart (State.setCurve z (imageCurve m z))).andPart (State.setLimits z (imageLimits m z))) a) := by
  have hall := Applied.takes_foldl (part := Outer.units) (put := fun (z : Fin 4) c => c.withZone z (zoneTaken m z c.zones[z]))
    (fun _ z hrun => Applied.takes_zone m z hrun) (List.finRange 4) a hrun
  rw [show (fun c (z : Fin 4) => Settings.withZone z (zoneTaken m z c.zones[z]) c) = fun c z =>
    { c with zones := c.zones.set z (zoneTaken m z c.zones[z]) } from rfl,
    foldl_field (fun c : Settings => c.zones) (fun v c => { c with zones := v }) (fun _ => rfl) (fun _ _ => rfl) (fun _ _ _ => rfl)
    (fun (z : Fin 4) v => v.set z (zoneTaken m z v[z]))] at hall
  have hzones : (List.finRange 4).foldl (fun v (z : Fin 4) => v.set z (zoneTaken m z v[z])) a.state.settings.zones =
      Vector.ofFn fun z => zoneTaken m z a.state.settings.zones[z] := by
    refine Vector.ext fun j hj => ?_
    have hat := foldl_set_get (fun z old => zoneTaken m z old) (List.nodup_finRange 4) a.state.settings.zones ⟨j, hj⟩
    rw [if_pos (List.mem_finRange _)] at hat
    rw [Vector.getElem_ofFn]
    exact hat
  rw [hzones] at hall
  exact ⟨hall.stores, hall.clamped.trans (by simp), hall.refused⟩

end Sys2Proof.Machine
end

