-- ==== Sys2Proof/Proofs/ImageUnits.lean ====
section
/-! SUPPORT. What an image's values do to the units, item by item: supplies, sensors and their scan, fans (R50, R83, R99, R122, R181). -/

namespace Sys2Proof.Machine

variable {s t u : State} {a b : Applied}

/-! ### One item of many -/

/-- What one step of a fold does to an item that every other step leaves. -/
theorem foldl_once {σ ι : Type} {step : σ → ι → σ} {ok : σ → Prop} {stands does : σ → σ → Prop} {i : ι}
    (hok : ∀ a j, ok a → ok (step a j)) (hrefl : ∀ a, stands a a) (htrans : ∀ a b c, stands a b → stands b c → stands a c)
    (hother : ∀ a j, ok a → j ≠ i → stands a (step a j)) (hone : ∀ a, ok a → does a (step a i))
    (hbefore : ∀ a b c, stands a b → does b c → does a c) (hafter : ∀ a b c, does a b → stands b c → does a c)
    {l : List ι} (hl : l.Nodup) (hi : i ∈ l) {a : σ} (ha : ok a) : does a (l.foldl step a) := by
  have hrest : ∀ (l : List ι) (a : σ), ok a → i ∉ l → stands a (l.foldl step a) := by
    intro l
    induction l with
    | nil => exact fun a _ _ => hrefl a
    | cons j l ih =>
      intro a ha hi
      obtain ⟨hj, hl⟩ := not_or.1 (fun h => hi (List.mem_cons.2 h))
      exact htrans _ _ _ (hother a j ha (Ne.symm hj)) (ih _ (hok a j ha) hl)
  induction l generalizing a with
  | nil => cases hi
  | cons j l ih =>
    obtain ⟨hj, hl⟩ := List.nodup_cons.1 hl
    rw [List.foldl_cons]
    rcases List.mem_cons.1 hi with rfl | hi
    · exact hafter _ _ _ (hone a ha) (hrest l _ (hok a i ha) hj)
    · exact hbefore _ _ _ (hother a j ha fun h => hj (h ▸ hi)) (ih hl hi (hok a j ha))

/-! ### Supplies (R31, R50) -/

theorem State.setSlot_supplies (s : State) (i : Fin 4) (x : SetSlotArgs) :
    (∀ j, j ≠ i → (s.setSlot i x).account.supplies[j] = s.account.supplies[j]) ∧
    (SupplySetting.apply x s.settings.supplies[i] = s.settings.supplies[i] → (s.setSlot i x).account.supplies[i] = s.account.supplies[i]) ∧
    (SupplySetting.apply x s.settings.supplies[i] ≠ s.settings.supplies[i] →
      (s.setSlot i x).account.supplies[i].state = ((s.withSlot i (SupplySetting.apply x s.settings.supplies[i])).sampledSupply i).state ∧
      ((s.setSlot i x).account.supplies[i].state ≠ s.account.supplies[i].state → (s.setSlot i x).told srcPower)) := by
  by_cases h : SupplySetting.apply x s.settings.supplies[i] = s.settings.supplies[i]
  · rw [State.setSlot_same h]
    exact ⟨fun _ _ => rfl, fun _ => rfl, fun hne => absurd h hne⟩
  · have hchanged := State.setSlot_changed h
    dsimp only at hchanged
    obtain ⟨g, hg⟩ := State.sampledPub_account (s.withSlot i (SupplySetting.apply x s.settings.supplies[i])) i
    have hsampled : ((s.withSlot i (SupplySetting.apply x s.settings.supplies[i])).slotSampled i).account.supplies =
        s.account.supplies.set i { (s.withSlot i (SupplySetting.apply x s.settings.supplies[i])).sampledSupply i with gen := g } :=
      congrArg Account.supplies hg
    generalize (s.withSlot i (SupplySetting.apply x s.settings.supplies[i])).slotSampled i = t at hchanged hsampled
    generalize (s.withSlot i (SupplySetting.apply x s.settings.supplies[i])).sampledSupply i = r at hchanged hsampled ⊢
    have hupdated : t.accountUpdate.account.supplies = s.account.supplies.set i { r with gen := g } :=
      (congrArg Outer.supplies t.accountUpdate_outer).trans hsampled
    have hsupplies : (s.setSlot i x).account.supplies = s.account.supplies.set i { r with gen := g } := by
      rw [hchanged]
      split
      · exact hupdated
      · exact hupdated
    have hat : (s.setSlot i x).account.supplies[i].state = r.state := by
      rw [hsupplies, set_self]
    refine ⟨fun j hj => ?_, fun hsame => absurd hsame h, fun _ => ⟨hat, fun hmoved => ?_⟩⟩
    · rw [hsupplies]
      exact Vector.getElem_set_ne (xs := s.account.supplies) i.isLt j.isLt fun e => hj (Fin.ext e.symm)
    · rw [hat] at hmoved
      rw [hchanged, if_neg (Ne.symm hmoved)]
      exact State.raiseBoth_told _ _

/-- The state that an image's capacities and a slot's inputs give the slot (R31). -/
def slotState (c : SupplySetting) (l : SupplyLines) : SupplyState :=
  if ¬ (c.cap12 = 0 ∧ c.cap5 = 0) ∧ l.present = true then (if l.good then .good else .failed) else .absent

theorem State.withSlot_sampled (s : State) (i : Fin 4) (c : SupplySetting) : ((s.withSlot i c).sampledSupply i).state = slotState c s.supplyLines[i] := by
  have hset : (s.withSlot i c).settings.supplies[i] = c := set_self ..
  rw [State.sampledSupply_state, hset]
  unfold slotState
  split
  · rename_i h
    refine (if_neg fun ⟨hfit, hpresent⟩ => h.elim hfit fun habsent => ?_).symm
    rw [show s.supplyLines[i].present = false from habsent] at hpresent
    cases hpresent
  · rename_i h
    obtain ⟨hfit, hpresent⟩ := not_or.1 h
    exact (if_pos ⟨hfit, Bool.eq_true_of_not_eq_false hpresent⟩).symm

/-- What taking a slot's capacities makes of the slot (R50). -/
structure SlotTaken (i : Fin 4) (new : SupplySetting) (s t : State) : Prop where
  same  : new = s.settings.supplies[i] → t.account.supplies[i] = s.account.supplies[i]
  moved : new ≠ s.settings.supplies[i] → t.account.supplies[i].state = slotState new s.supplyLines[i] ∧
    (t.account.supplies[i].state ≠ s.account.supplies[i].state → t.told srcPower)

/-- From s to t slot i stands, and no event is lost. -/
structure SlotStands (i : Fin 4) (s t : State) : Prop where
  supply : t.account.supplies[i] = s.account.supplies[i]
  set    : t.settings.supplies[i] = s.settings.supplies[i]
  lines  : t.supplyLines[i] = s.supplyLines[i]
  late   : ∀ e ∈ s.late, e ∈ t.late

theorem SlotTaken.before {i : Fin 4} {new : SupplySetting} (h : SlotStands i s t) (k : SlotTaken i new t u) : SlotTaken i new s u := by
  obtain ⟨same, moved⟩ := k
  rw [h.supply, h.set] at same moved
  rw [h.lines] at moved
  exact ⟨same, moved⟩

theorem SlotTaken.after {i : Fin 4} {new : SupplySetting} (h : SlotTaken i new s t) (supply : u.account.supplies[i] = t.account.supplies[i])
    (late : ∀ e ∈ t.late, e ∈ u.late) : SlotTaken i new s u := by
  obtain ⟨same, moved⟩ := h
  rw [← supply] at same moved
  exact ⟨same, fun hne => ⟨(moved hne).1, fun hstate p => late _ ((moved hne).2 hstate p)⟩⟩

theorem State.settle_supplies (s : State) : s.settle.account.supplies = s.account.supplies := congrArg Outer.supplies s.settle_outer

theorem Applied.slots_taken (m : Memory) (hrun : a.state.phase = .running) (i : Fin 4) :
    SlotTaken i (Settings.ofImage m).supplies[i] a.state
      ((List.finRange 4).foldl (fun a i => a.andSet fun s => (s.setSlot i (imageSlot m i), false)) a).state := by
  have hstep (a : Applied) (j : Fin 4) (ha : a.state.phase = .running) :=
    Applied.takes_andSet (p := False) (f := fun s => (s.setSlot j (imageSlot m j), false)) ha (State.setSlot_stores a.state j (imageSlot m j)) (by simp)
  have hvalue : SupplySetting.apply (imageSlot m i) = fun _ => (Settings.ofImage m).supplies[i] := by
    funext x
    rw [SupplySetting.apply_imageSlot, ← (Settings.ofImage_taken m).supplies i]
  refine foldl_once (step := fun a j => Applied.andSet a fun s => (s.setSlot j (imageSlot m j), false)) (ok := fun a => a.state.phase = .running)
    (stands := fun a b => SlotStands i a.state b.state) (does := fun a b => SlotTaken i (Settings.ofImage m).supplies[i] a.state b.state)
    (fun a j ha => (hstep a j ha).running ha) (fun _ => ⟨rfl, rfl, rfl, fun _ => id⟩)
    (fun _ _ _ h k => ⟨k.supply.trans h.supply, k.set.trans h.set, k.lines.trans h.lines, fun e he => k.late e (h.late e he)⟩)
    (fun a j ha hj => ?_) (fun a ha => ?_) (fun _ _ _ h k => k.before h) (fun _ _ _ h k => h.after k.supply k.late)
    (List.nodup_finRange 4) (List.mem_finRange i) hrun
  · have hborne := (hstep a j ha).stores.borne
    refine ⟨?_, ?_, ?_, hborne.late⟩
    · show (State.settle _).account.supplies[i] = _
      rw [State.settle_supplies]
      exact (a.state.setSlot_supplies j (imageSlot m j)).1 i (Ne.symm hj)
    · rw [(hstep a j ha).stores.settings]
      exact Vector.getElem_set_ne (xs := a.state.settings.supplies) j.isLt i.isLt fun e => hj (Fin.ext e)
    · rw [hborne.supplyLines]
  · obtain ⟨-, hsame, hmoved⟩ := a.state.setSlot_supplies i (imageSlot m i)
    rw [hvalue, State.withSlot_sampled] at hmoved
    rw [hvalue] at hsame
    exact SlotTaken.after ⟨hsame, hmoved⟩ (by show (State.settle _).account.supplies[i] = _; rw [State.settle_supplies]) (State.settle_borne _).late

/-! ### Sensors (R99) -/

/-- A sensor after an image gives its zone (R99). -/
def sensorTaken (old zone : Option (Fin 4)) (x : Sensor) : Sensor :=
  if zone = old then x
  else if zone = none then { x with state := .unused, raw := none, fails := 0, goodAt := none }
  else if old = none then { x with state := .noData, raw := none, fails := 0, goodAt := none }
  else x

theorem State.sensorAfter_taken (s : State) (i : Fin 8) (new : SensorSettings) :
    s.sensorAfter i new = sensorTaken s.settings.sensors[i].zone new.zone s.sensors[i] := s.sensorAfter_eq i new

/-- What taking a sensor's settings makes of the sensor (R99). -/
structure SensorTaken (i : Fin 8) (new : SensorSettings) (s t : State) : Prop where
  like : (sensorTaken s.settings.sensors[i].zone new.zone s.sensors[i]).like t.sensors[i]
  told : new.zone = none → s.settings.sensors[i].zone ≠ none → s.sensors[i].state = .failed → t.told srcThermal

/-- From s to t sensor i stands, and no event is lost. -/
structure SensorStands (i : Fin 8) (s t : State) : Prop where
  sensor : t.sensors[i] = s.sensors[i]
  set    : t.settings.sensors[i] = s.settings.sensors[i]
  late   : ∀ e ∈ s.late, e ∈ t.late

theorem SensorTaken.before {i : Fin 8} {new : SensorSettings} (h : SensorStands i s t) (k : SensorTaken i new t u) : SensorTaken i new s u := by
  obtain ⟨like, told⟩ := k
  rw [h.sensor, h.set] at like told
  exact ⟨like, told⟩

theorem SensorTaken.after {i : Fin 8} {new : SensorSettings} (h : SensorTaken i new s t) (sensor : u.sensors[i] = t.sensors[i])
    (late : ∀ e ∈ t.late, e ∈ u.late) : SensorTaken i new s u :=
  ⟨sensor ▸ h.like, fun hnone hold hfailed p => late _ (h.told hnone hold hfailed p)⟩

theorem State.settle_sensors (s : State) : s.settle.sensors = s.sensors := congrArg Outer.sensors s.settle_outer
theorem State.settle_scan (s : State) : s.settle.scan = s.scan := congrArg Outer.scan s.settle_outer

theorem State.sensorStored_taken (hrun : s.phase = .running) (i : Fin 8) (new : SensorSettings) : SensorTaken i new s (s.sensorStored i new) := by
  have hstored := s.sensorStored_stored i new hrun
  refine ⟨s.sensorAfter_taken i new ▸ hstored.like, fun hnone hold hfailed => State.sensorStored_told hfailed ?_⟩
  rw [State.sensorAfter_taken, sensorTaken, if_neg (hnone ▸ Ne.symm hold), if_pos hnone]
  exact nofun

theorem Settings.ofImage_sensor (m : Memory) (i : Fin 8) (old : SensorSettings) :
    (SensorSettings.apply (imageSensor m i) old).1 = (Settings.ofImage m).sensors[i] := by
  have hat : (Settings.ofImage m).sensors[i] = (SensorSettings.apply (imageSensor m i) ⟨none, 0⟩).1 := by simp [Settings.ofImage]
  rw [hat]
  rfl

theorem State.setSensor_image (s : State) (m : Memory) (i : Fin 8) :
    (s.setSensor i (imageSensor m i)).1 = s.sensorStored i (Settings.ofImage m).sensors[i] := by
  rw [State.setSensor_eq, Settings.ofImage_sensor]

theorem Applied.sensors_taken (m : Memory) (hrun : a.state.phase = .running) (i : Fin 8) :
    SensorTaken i (Settings.ofImage m).sensors[i] a.state
      ((List.finRange 8).foldl (fun a i => a.andSet (State.setSensor i (imageSensor m i))) a).state := by
  have hstep (a : Applied) (j : Fin 8) (ha : a.state.phase = .running) :=
    Applied.takes_andSet ha (State.setSensor_stores ha j (imageSensor m j)) Iff.rfl
  refine foldl_once (step := fun a j => Applied.andSet a (State.setSensor j (imageSensor m j))) (ok := fun a => a.state.phase = .running)
    (stands := fun a b => SensorStands i a.state b.state) (does := fun a b => SensorTaken i (Settings.ofImage m).sensors[i] a.state b.state)
    (fun a j ha => (hstep a j ha).running ha) (fun _ => ⟨rfl, rfl, fun _ => id⟩)
    (fun _ _ _ h k => ⟨k.sensor.trans h.sensor, k.set.trans h.set, fun e he => k.late e (h.late e he)⟩)
    (fun a j ha hj => ?_) (fun a ha => ?_) (fun _ _ _ h k => k.before h) (fun _ _ _ h k => h.after k.sensor k.late)
    (List.nodup_finRange 8) (List.mem_finRange i) hrun
  · refine ⟨?_, ?_, (hstep a j ha).stores.borne.late⟩
    · show (State.settle _).sensors[i] = _
      rw [State.settle_sensors, State.setSensor_image]
      have hsensors := congrArg Outer.sensors (a.state.sensorStored_stored j (Settings.ofImage m).sensors[j] ha).outer
      rw [show (a.state.sensorStored j (Settings.ofImage m).sensors[j]).sensors = _ from hsensors]
      exact Vector.getElem_set_ne (xs := a.state.sensors) j.isLt i.isLt fun e => hj (Fin.ext e)
    · rw [(hstep a j ha).stores.settings]
      exact Vector.getElem_set_ne (xs := a.state.settings.sensors) j.isLt i.isLt fun e => hj (Fin.ext e)
  · have htaken := State.sensorStored_taken ha i (Settings.ofImage m).sensors[i]
    rw [← State.setSensor_image] at htaken
    exact htaken.after (by show (State.settle _).sensors[i] = _; rw [State.settle_sensors]) (State.settle_borne _).late

/-! ### The scan under way (R83) -/

/-- The scan after some sensors are given zones: those of `moved` change, those of `dropped` go to NONE. -/
def scanTaken (moved dropped : Fin 8 → Bool) (l : List (Fin 8)) (c : Scan) : Scan :=
  l.foldl (fun c j => if moved j then c.reassigned j (dropped j) else c) c

theorem Applied.scan_taken (m : Memory) {l : List (Fin 8)} (hl : l.Nodup) (hrun : a.state.phase = .running) :
    (l.foldl (fun a i => a.andSet (State.setSensor i (imageSensor m i))) a).state.scan =
      scanTaken (fun j => decide ((Settings.ofImage m).sensors[j].zone ≠ a.state.settings.sensors[j].zone))
        (fun j => (Settings.ofImage m).sensors[j].zone.isNone) l a.state.scan := by
  induction l generalizing a with
  | nil => rfl
  | cons i l ih =>
    obtain ⟨hi, hl⟩ := List.nodup_cons.1 hl
    have hstep := Applied.takes_andSet hrun (State.setSensor_stores hrun i (imageSensor m i)) Iff.rfl
    have hscan : (a.andSet (State.setSensor i (imageSensor m i))).state.scan =
        if decide ((Settings.ofImage m).sensors[i].zone ≠ a.state.settings.sensors[i].zone) then
          a.state.scan.reassigned i (Settings.ofImage m).sensors[i].zone.isNone else a.state.scan := by
      show (State.settle _).scan = _
      rw [State.settle_scan, State.setSensor_image]
      have hstored := congrArg Outer.scan (a.state.sensorStored_stored i (Settings.ofImage m).sensors[i] hrun).outer
      rw [show (a.state.sensorStored i (Settings.ofImage m).sensors[i]).scan = _ from hstored]
      unfold State.scanAfter
      by_cases h : (Settings.ofImage m).sensors[i].zone = a.state.settings.sensors[i].zone
      · rw [if_pos h, if_neg fun hne => absurd h (of_decide_eq_true hne)]
      · rw [if_neg h, if_pos (decide_eq_true h)]
    rw [List.foldl_cons, ih hl (hstep.running hrun), hscan]
    unfold scanTaken
    rw [List.foldl_cons]
    refine List.foldl_ext _ _ _ fun c j hj => ?_
    have hset : (a.andSet (State.setSensor i (imageSensor m i))).state.settings.sensors[j] = a.state.settings.sensors[j] := by
      rw [hstep.stores.settings]
      exact Vector.getElem_set_ne (xs := a.state.settings.sensors) i.isLt j.isLt fun e => hi (Fin.ext e ▸ hj)
    exact congrArg (fun x : SensorSettings => if decide ((Settings.ofImage m).sensors[j].zone ≠ x.zone) then
      c.reassigned j (Settings.ofImage m).sensors[j].zone.isNone else c) hset

theorem scanTaken_idle (moved dropped : Fin 8 → Bool) (l : List (Fin 8)) {c : Scan} (hc : c.left = []) : scanTaken moved dropped l c = c := by
  unfold scanTaken
  induction l with
  | nil => rfl
  | cons i l ih =>
    have hone : (if moved i then c.reassigned i (dropped i) else c) = c := by
      unfold Scan.reassigned
      rw [hc]
      exact ite_self c
    rw [List.foldl_cons, hone, ih]

/-- What becomes of a scan under way: the sensor on the bus is read on, its read to be discarded where it moved; of the rest, a sensor made
UNUSED is no longer read (R83). -/
theorem scanTaken_running (moved dropped : Fin 8 → Bool) (l : List (Fin 8)) {c : Scan} {i : Fin 8} {rest : List (Fin 8)} (hc : c.left = i :: rest) :
    ((scanTaken moved dropped l c).discard = true ↔ c.discard = true ∨ i ∈ l ∧ moved i = true) ∧
      ∃ left, (scanTaken moved dropped l c).left = i :: left ∧ left.Sublist rest ∧
        ∀ j ∈ rest, j ∈ left ↔ j = i ∨ ¬ (j ∈ l ∧ moved j = true ∧ dropped j = true) := by
  induction l generalizing c rest with
  | nil => exact ⟨by simp [scanTaken], rest, hc, .refl _, by simp⟩
  | cons k l ih =>
    have hfold : scanTaken moved dropped (k :: l) c = scanTaken moved dropped l (if moved k then c.reassigned k (dropped k) else c) := rfl
    rw [hfold]
    by_cases hk : moved k = true
    · rw [if_pos hk]
      by_cases hi : i = k
      · subst hi
        have hread : c.reassigned i (dropped i) = { c with discard := true } := by
          unfold Scan.reassigned
          rw [hc]
          exact if_pos rfl
        rw [hread]
        obtain ⟨hdiscard, left, hleft, hsub, hmem⟩ := ih (c := { c with discard := true }) hc
        refine ⟨by rw [hdiscard]; simp [hk], left, hleft, hsub, fun j hj => (hmem j hj).trans ?_⟩
        by_cases hji : j = i
        · simp [hji]
        · simp [hji]
      · by_cases hd : dropped k = true
        · have hdrop : c.reassigned k (dropped k) = { c with left := i :: rest.filter fun x => x != k } := by
            unfold Scan.reassigned
            rw [hc]
            dsimp only
            rw [if_neg hi, if_pos hd]
          rw [hdrop]
          obtain ⟨hdiscard, left, hleft, hsub, hmem⟩ := ih (c := { c with left := i :: rest.filter fun x => x != k }) rfl
          refine ⟨by rw [hdiscard]; simp [hi], left, hleft, hsub.trans List.filter_sublist, fun j hj => ?_⟩
          by_cases hjk : j = k
          · subst hjk
            have hgone : j ∉ left := fun h => by simpa using (List.mem_filter.1 (hsub.subset h)).2
            simp [hgone, hk, hd, Ne.symm hi]
          · rw [hmem j (List.mem_filter.2 ⟨hj, by simpa using hjk⟩)]
            simp [hjk]
        · have hkeep : c.reassigned k (dropped k) = c := by
            unfold Scan.reassigned
            rw [hc]
            dsimp only
            rw [if_neg hi, if_neg hd]
          rw [hkeep]
          obtain ⟨hdiscard, left, hleft, hsub, hmem⟩ := ih hc
          refine ⟨by rw [hdiscard]; simp [hi], left, hleft, hsub, fun j hj => (hmem j hj).trans ?_⟩
          by_cases hjk : j = k
          · simp [hjk, hd]
          · simp [hjk]
    · rw [if_neg hk]
      obtain ⟨hdiscard, left, hleft, hsub, hmem⟩ := ih hc
      refine ⟨?_, left, hleft, hsub, fun j hj => (hmem j hj).trans ?_⟩
      · rw [hdiscard]
        by_cases hi : i = k
        · simp [hi, hk]
        · simp [hi]
      · by_cases hjk : j = k
        · simp [hjk, hk]
        · simp [hjk]

/-! ### Fans (R113, R118, R122) -/

/-- The current that a wall of fans may draw at a duty (R112). -/
def wallCurrent (new : FanSettings) (duty : Nat) (fans : Vector Fan 6) : Nat :=
  ((List.finRange 6).map fun i =>
    match fans[i].record.state with
    | .unused | .absent => 0
    | .failed => new.maxCur
    | .starting | .ok => new.idle + ((new.maxCur - new.idle) * duty + 999) / 1000).sum

/-- What taking the fan settings makes of the fans (R122). -/
structure FansTaken (new : FanSettings) (s t : State) : Prop where
  same  : new = s.settings.fans → t.fans = s.fans ∧ t.account.fanRes = s.account.fanRes
  whole : new ≠ s.settings.fans → t.fans = { s.fans with fans := t.fans.fans, c := max s.fans.c new.dmin }
  fans  : new ≠ s.settings.fans → ∀ i : Fin 6,
    (new.count ≤ i.val → i.val < s.settings.fans.count → t.fans.fans[i].record.state = .unused) ∧
    (s.settings.fans.count ≤ i.val → i.val < new.count →
      t.fans.fans[i].record.state = if s.fans.fans[i].present then .starting else .absent) ∧
    ((i.val < s.settings.fans.count ↔ i.val < new.count) → s.fans.fans[i].like t.fans.fans[i]) ∧
    (s.fans.fans[i].record.state ≠ t.fans.fans[i].record.state →
      (s.fans.fans[i].record.state = .absent ∨ s.fans.fans[i].record.state = .failed) ∨
        (t.fans.fans[i].record.state = .absent ∨ t.fans.fans[i].record.state = .failed) → t.told srcFan)
  drawn : new ≠ s.settings.fans →
    max s.fans.c new.dmin ≠ s.fans.c ∨ s.settings.fans.count ≠ new.count ∨ s.settings.fans.idle ≠ new.idle ∨
      s.settings.fans.maxCur ≠ new.maxCur ∨ s.settings.fans.reserve ≠ new.reserve →
    t.account.fanRes = wallCurrent new (max (max s.fans.c new.dmin) new.reserve) t.fans.fans

theorem FansTaken.after {new : FanSettings} (h : FansTaken new s t) (fans : u.fans = t.fans) (res : u.account.fanRes = t.account.fanRes)
    (late : ∀ e ∈ t.late, e ∈ u.late) : FansTaken new s u where
  same := fun hsame => by rw [fans, res]; exact h.same hsame
  whole := fun hne => by rw [fans]; exact h.whole hne
  fans := fun hne i => by
    obtain ⟨hdropped, hjoined, hlike, htold⟩ := h.fans hne i
    rw [fans]
    exact ⟨hdropped, hjoined, hlike, fun hstate hcause p => late _ (htold hstate hcause p)⟩
  drawn := fun hne hcause => by rw [fans, res]; exact h.drawn hne hcause

theorem FansTaken.of_before {new : FanSettings} (h : FansTaken new t u) (fans : t.fans = s.fans) (res : t.account.fanRes = s.account.fanRes)
    (set : t.settings.fans = s.settings.fans) : FansTaken new s u := by
  obtain ⟨same, whole, walls, drawn⟩ := h
  rw [fans, res, set] at same
  rw [fans, set] at whole walls drawn
  exact ⟨same, whole, walls, drawn⟩

theorem State.setFans_taken (s : State) (x : SetFansArgs) : FansTaken (FanSettings.apply x s.settings.fans).1 s (s.setFans x).1 := by
  by_cases h : (FanSettings.apply x s.settings.fans).1 = s.settings.fans
  · rw [State.setFans_same s x h]
    exact ⟨fun _ => ⟨rfl, rfl⟩, fun hne => absurd h hne, fun hne => absurd h hne, fun hne => absurd h hne⟩
  · rw [State.setFans_changed s x h]
    generalize (FanSettings.apply x s.settings.fans).1 = new at h ⊢
    obtain ⟨-, -, -, hfans, hlike, htold, hmoved, -⟩ := s.refanTo_fields new rfl
    generalize s.refanTo new = v at *
    have hat : ∀ i : Fin 6, ((s.fans.fans[i] : Fan).recounted s.settings.fans.count new.count i.val s.time).like v.fans.fans[i] := fun i =>
      State.recountedFans_at s new i ▸ hlike i
    refine ⟨fun hsame => absurd hsame h, fun _ => hfans, fun _ i => ⟨fun hn ho => ?_, fun ho hn => ?_, fun hsame => ?_, fun hstate hcause => ?_⟩, fun _ hcause => ?_⟩
    · rw [Fan.like_state (hat i), Fan.recounted_dropped _ _ hn ho]
    · rw [Fan.like_state (hat i), Fan.recounted_joined _ _ ho hn]
    · have hi := hat i
      rw [Fan.recounted_same _ _ hsame] at hi
      exact hi
    · refine htold (fansEvent_of i (fanEvent_iff.2 ?_))
      rw [← Fan.like_state (hlike i)]
      exact ⟨hstate, or_assoc.1 hcause⟩
    · rw [hmoved (reservationMoved_iff.2 (hcause.imp_left Ne.symm))]
      exact congrArg List.sum (List.map_congr_left fun i _ => fanCurrent_eq _ _ _)

theorem Applied.fans_taken (m : Memory) : FansTaken (Settings.ofImage m).fans a.state (a.andSet (State.setFans (imageFans m))).state :=
  FansTaken.after (t := (a.state.setFans (imageFans m)).1) (a.state.setFans_taken (imageFans m)) (congrArg Outer.fans (State.settle_outer _))
    (congrArg Outer.fanRes (State.settle_outer _)) (State.settle_borne _).late

end Sys2Proof.Machine
end

