-- ==== Sys2Proof/Proofs/ImageSections.lean ====
section
/-! SUPPORT. All the sections of an image taken (R181): the live copy, the units and the clamps they leave together. -/

namespace Sys2Proof.Machine

variable {s t u : State} {a b d : Applied} {c e : Settings} {p q : Prop} {n k : Nat} {β : Type} {part : Outer → β} (m : Memory)

theorem Applied.Takes.cast (h : Applied.Takes part c p n a b) (settings : c = e) (clamps : p ↔ q) (refused : n = k) :
    Applied.Takes part e q k a b := by
  subst settings refused
  exact ⟨h.stores, h.clamped.trans (or_congr_right clamps), h.refused⟩

/-! ### Bays, profiles, supplies and schedule -/

/-- A clamp of the sections that `powerSections` takes. -/
def PowerClamped : Prop :=
  (((((∃ n : BayNo, (BaySettings.apply (imageBay m n) (.default n)).2 = true) ∨ (imageTiming m).2 = true) ∨
    (∃ i : Fin 8, (Profile.apply (imageProfile m i) .default0).2 = true)) ∨ (∃ _ : Fin 4, False)) ∨
    (AccountSettings.apply (imageAccount m) Settings.default.account).2 = true) ∨
    (Schedule.apply (imageSchedule m) Settings.default.schedule).2 = true

/-- The settings with the sections that `powerSections` takes. -/
def Settings.powered (c : Settings) : Settings :=
  { c with
    bays := (Settings.ofImage m).bays, timing := (Settings.ofImage m).timing, profiles := (Settings.ofImage m).profiles
    supplies := (Settings.ofImage m).supplies, account := (Settings.ofImage m).account, schedule := (Settings.ofImage m).schedule }

theorem Applied.Takes.slotStands (h : Applied.Takes Outer.units c p n a b) (hset : c.supplies = a.state.settings.supplies) (i : Fin 4) :
    SlotStands i a.state b.state where
  supply := by rw [show b.state.account.supplies = a.state.account.supplies from congrArg Prod.fst h.stores.kept]
  set := by rw [h.stores.settings, hset]
  lines := by rw [h.stores.borne.supplyLines]
  late := h.stores.borne.late

theorem Applied.powerSections_taken (hrun : a.state.phase = .running) :
    Applied.Takes Outer.besideSupplies (a.state.settings.powered m) (PowerClamped m) 0 a (a.powerSections m) ∧
      ∀ i : Fin 4, SlotTaken i (Settings.ofImage m).supplies[i] a.state (a.powerSections m).state := by
  unfold Applied.powerSections
  dsimp only
  have hbays := Applied.takes_bays m hrun
  generalize bayNumbers.foldl (fun a n => a.andSet (State.setBay n (imageBay m n))) a = a1 at hbays ⊢
  have htimed := hbays.trans (Applied.takes_timing m (hbays.running hrun))
  generalize a1.andSet (State.setTiming m) = a2 at htimed ⊢
  have hprofiled := htimed.trans (Applied.takes_profiles m (htimed.running hrun))
  generalize (List.finRange 8).foldl (fun a i => a.andSet (State.setProfile i (imageProfile m i))) a2 = a3 at hprofiled ⊢
  have hslots := Applied.takes_slots m (hprofiled.running hrun)
  have hslot := Applied.slots_taken m (hprofiled.running hrun)
  generalize (List.finRange 4).foldl (fun a i => a.andSet fun s => (s.setSlot i (imageSlot m i), false)) a3 = a4 at hslots hslot ⊢
  have hsupplied := (hprofiled.weaken (fun x => (x.2.1, x.2.2))).trans hslots
  have haccount := Applied.takes_account m (hsupplied.running hrun)
  generalize a4.andSet (State.setAccount (imageAccount m)) = a5 at haccount ⊢
  have hscheduled := haccount.trans (Applied.takes_schedule m (haccount.running (hsupplied.running hrun)))
  generalize a5.andSet (State.setSchedule (imageSchedule m)) = a6 at hscheduled ⊢
  have hall := hsupplied.trans (hscheduled.weaken (fun x => (x.2.1, x.2.2)))
  refine ⟨hall.cast ?_ ?_ rfl, fun i => ?_⟩
  · rw [haccount.stores.settings, hslots.stores.settings, hprofiled.stores.settings, htimed.stores.settings, hbays.stores.settings]
    rfl
  · simp only [PowerClamped, or_assoc]
  · exact ((hslot i).before (hprofiled.slotStands (by rw [htimed.stores.settings, hbays.stores.settings]) i)).after
      (hscheduled.slotStands (by rw [haccount.stores.settings]) i).supply hscheduled.stores.borne.late

/-! ### Zones, sensors, fans, patterns and attention -/

/-- A clamp of the sections that `otherSections` takes. -/
def OtherClamped : Prop :=
  ((((((∃ z : Fin 4, (Curve.ofRaw (imageCurve m z)).2 = true ∨ (ZoneLimits.apply (imageLimits m z) .default).2 = true) ∨
    (staleTimeOf (imageStaleTime m)).2 = true) ∨ (∃ i : Fin 8, (SensorSettings.apply (imageSensor m i) ⟨none, 0⟩).2 = true)) ∨
    (FanSettings.apply (imageFans m) Settings.default.fans).2 = true) ∨ (∃ _ : Fin 8, False)) ∨
    (∃ i : Fin 8, (SourceConfig.apply (imageSource m .a i) .default).2 = true)) ∨
    (∃ i : Fin 8, (SourceConfig.apply (imageSource m .b i) .default).2 = true)

/-- The settings with the sections that `otherSections` takes. -/
def Settings.conditioned (c : Settings) : Settings :=
  { c with
    zones := Vector.ofFn fun z => zoneTaken m z c.zones[z], staleTime := (Settings.ofImage m).staleTime, sensors := (Settings.ofImage m).sensors
    fans := (Settings.ofImage m).fans, patterns := patternsTaken m c.patterns, attention := (Settings.ofImage m).attention }

/-- How many zone parts of an image are refused. -/
def zonesRefused : Nat := ((List.finRange 4).map (zoneRefused m)).sum

theorem Applied.Takes.sensorStands (h : Applied.Takes Outer.units c p n a b) (hset : c.sensors = a.state.settings.sensors) (i : Fin 8) :
    SensorStands i a.state b.state where
  sensor := by rw [show b.state.sensors = a.state.sensors from congrArg (fun x => x.2.2.1) h.stores.kept]
  set := by rw [h.stores.settings, hset]
  late := h.stores.borne.late

theorem Applied.otherSections_taken (hrun : a.state.phase = .running) :
    Applied.Takes (fun o => o.supplies) (a.state.settings.conditioned m) (OtherClamped m) (zonesRefused m) a (a.otherSections m) ∧
      (∀ i : Fin 8, SensorTaken i (Settings.ofImage m).sensors[i] a.state (a.otherSections m).state) ∧
      (a.otherSections m).state.scan = scanTaken (fun j => decide ((Settings.ofImage m).sensors[j].zone ≠ a.state.settings.sensors[j].zone))
        (fun j => (Settings.ofImage m).sensors[j].zone.isNone) (List.finRange 8) a.state.scan ∧
      FansTaken (Settings.ofImage m).fans a.state (a.otherSections m).state := by
  unfold Applied.otherSections
  dsimp only
  have hzones := Applied.takes_zones m hrun
  generalize (List.finRange 4).foldl (fun a z => (a.andPart (State.setCurve z (imageCurve m z))).andPart (State.setLimits z (imageLimits m z))) a =
    a1 at hzones ⊢
  have hstale := Applied.takes_staleTime m (hzones.running hrun)
  have hzoned := hzones.trans hstale
  generalize a1.andSet (State.setStaleTime (imageStaleTime m)) = a2 at hstale hzoned ⊢
  have hsensors := Applied.takes_sensors m (hzoned.running hrun)
  have hsensor := Applied.sensors_taken m (hzoned.running hrun)
  have hscan := Applied.scan_taken m (List.nodup_finRange 8) (hzoned.running hrun)
  generalize (List.finRange 8).foldl (fun a i => a.andSet (State.setSensor i (imageSensor m i))) a2 = a3 at hsensors hsensor hscan ⊢
  have hsensed := (hzoned.weaken (fun x => (x.1, x.2.1, x.2.2.2.2))).trans hsensors
  have hfans := Applied.takes_fans m (hsensed.running hrun)
  have hfan := Applied.fans_taken (a := a3) m
  generalize a3.andSet (State.setFans (imageFans m)) = a4 at hfans hfan ⊢
  have hcooled := (hsensed.weaken (fun x => x.1)).trans (hfans.weaken (fun x => x.1))
  have hpatterns := Applied.takes_patterns m (hcooled.running hrun)
  generalize ((List.finRange 8).drop 2).foldl (fun a i => a.andSet fun s => (s.setPattern i (imagePattern m i), false)) a4 = a5 at hpatterns ⊢
  have hfirst := Applied.takes_sources m .a (hpatterns.running (hcooled.running hrun))
  have hsourced := hpatterns.trans hfirst
  generalize (List.finRange 8).foldl (fun a i => a.andSet (State.setSource .a i (imageSource m .a i))) a5 = a6 at hfirst hsourced ⊢
  have hattended := hsourced.trans (Applied.takes_sources m .b (hsourced.running (hcooled.running hrun)))
  generalize (List.finRange 8).foldl (fun a i => a.andSet (State.setSource .b i (imageSource m .b i))) a6 = a7 at hattended ⊢
  have hall := hcooled.trans (hattended.weaken (fun x => x.1))
  have hrest := hfans.trans (hattended.weaken (fun x => (x.1, x.2.2.1, x.2.2.2.1)))
  have hset : a2.state.settings.sensors = a.state.settings.sensors := by rw [hstale.stores.settings, hzones.stores.settings]
  have hfanset : a3.state.settings.fans = a.state.settings.fans := by rw [hsensors.stores.settings, hstale.stores.settings, hzones.stores.settings]
  have hbefore : a2.state.scan = a.state.scan := congrArg (fun x => x.2.2.2.1) hzoned.stores.kept
  have hafter : a7.state.scan = a3.state.scan := congrArg (fun x => x.2.2) hrest.stores.kept
  have hsensorsAfter : a7.state.sensors = a3.state.sensors := congrArg (fun x => x.2.1) hrest.stores.kept
  have hfansBefore : a3.state.fans = a.state.fans := congrArg (fun x => x.2.2) hsensed.stores.kept
  have hresBefore : a3.state.account.fanRes = a.state.account.fanRes := congrArg (fun x => x.2.1) hsensed.stores.kept
  have hfansAfter : a7.state.fans = a4.state.fans := congrArg (fun x => x.2.2.2.2) hattended.stores.kept
  have hresAfter : a7.state.account.fanRes = a4.state.account.fanRes := congrArg (fun x => x.2.1) hattended.stores.kept
  refine ⟨hall.cast ?_ ?_ ?_, fun i => ?_, ?_, ?_⟩
  · rw [hfirst.stores.settings, hpatterns.stores.settings, hfans.stores.settings, hsensors.stores.settings, hstale.stores.settings,
      hzones.stores.settings]
    rfl
  · simp only [OtherClamped, or_assoc]
  · simp only [zonesRefused, Nat.add_zero]
  · exact ((hsensor i).before (hzoned.sensorStands (by rw [hzones.stores.settings]) i)).after (by rw [hsensorsAfter]) hrest.stores.borne.late
  · rw [hafter, hscan, hbefore, hset]
  · exact (hfan.of_before hfansBefore hresBefore hfanset).after hfansAfter hresAfter hattended.stores.borne.late

/-! ### The whole image -/

/-- The live copy that an image leaves, but for the windows. -/
def Settings.imaged (c : Settings) : Settings :=
  { Settings.ofImage m with
    zones := Vector.ofFn fun z => zoneTaken m z c.zones[z], patterns := patternsTaken m c.patterns, windows := c.windows }

theorem Settings.conditioned_powered (c : Settings) : (c.powered m).conditioned m = c.imaged m := by
  simp only [Settings.conditioned, Settings.powered, Settings.imaged]

theorem Settings.powered_sensors (c : Settings) : (c.powered m).sensors = c.sensors := by simp only [Settings.powered]

theorem Settings.powered_fans (c : Settings) : (c.powered m).fans = c.fans := by simp only [Settings.powered]

/-- What all the sections of an image, taken one after another, leave. -/
structure Applied.Imaged (a b : Applied) : Prop where
  takes   : Applied.Takes (fun _ => ()) (a.state.settings.imaged m) (SectionClamped m) (zonesRefused m) a b
  slots   : ∀ i : Fin 4, SlotTaken i (Settings.ofImage m).supplies[i] a.state b.state
  sensors : ∀ i : Fin 8, SensorTaken i (Settings.ofImage m).sensors[i] a.state b.state
  scan    : b.state.scan = scanTaken (fun j => decide ((Settings.ofImage m).sensors[j].zone ≠ a.state.settings.sensors[j].zone))
    (fun j => (Settings.ofImage m).sensors[j].zone.isNone) (List.finRange 8) a.state.scan
  fans    : FansTaken (Settings.ofImage m).fans a.state b.state

theorem sectionClamped_split : PowerClamped m ∨ OtherClamped m ↔ SectionClamped m := by
  have hports : (∃ (p : Port) (i : Fin 8), (SourceConfig.apply (imageSource m p i) .default).2 = true) ↔
      (∃ i : Fin 8, (SourceConfig.apply (imageSource m .a i) .default).2 = true) ∨
        ∃ i : Fin 8, (SourceConfig.apply (imageSource m .b i) .default).2 = true :=
    ⟨fun ⟨p, h⟩ => by cases p; exacts [.inl h, .inr h], fun h => h.elim (fun h => ⟨.a, h⟩) fun h => ⟨.b, h⟩⟩
  unfold PowerClamped OtherClamped SectionClamped
  rw [hports]
  simp only [or_assoc, exists_false, false_or]

theorem Applied.sections_imaged (hrun : a.state.phase = .running) : Applied.Imaged m a ((a.powerSections m).otherSections m) := by
  obtain ⟨hpower, hslots⟩ := Applied.powerSections_taken m hrun
  obtain ⟨hother, hsensors, hscan, hfans⟩ := Applied.otherSections_taken m (hpower.running hrun)
  generalize (a.powerSections m).otherSections m = z at hother hsensors hscan hfans ⊢
  generalize a.powerSections m = y at hpower hslots hother hsensors hscan hfans
  have hset : y.state.settings = a.state.settings.powered m := hpower.stores.settings
  have hsupplies : z.state.account.supplies = y.state.account.supplies := hother.stores.kept
  refine ⟨?_, fun i => (hslots i).after (by rw [hsupplies]) hother.stores.borne.late, fun i => ?_, ?_, ?_⟩
  · exact ((hpower.weaken fun _ => ()).trans (hother.weaken fun _ => ())).cast (by rw [hset, Settings.conditioned_powered]) (sectionClamped_split m) (Nat.zero_add _)
  · exact (hsensors i).before ⟨by rw [show y.state.sensors = a.state.sensors from congrArg (fun x => x.2.1) hpower.stores.kept], by rw [hset, Settings.powered_sensors],
      hpower.stores.borne.late⟩
  · rw [hscan, hset, Settings.powered_sensors, show y.state.scan = a.state.scan from congrArg (fun x => x.2.2.1) hpower.stores.kept]
  · exact hfans.of_before (congrArg (fun x => x.2.2.2) hpower.stores.kept) (congrArg (fun x => x.1) hpower.stores.kept) (by rw [hset, Settings.powered_fans])

end Sys2Proof.Machine
end

