-- ==== Sys2Proof/Proofs/ReloadAppliesImage.lean ====
section
/-! SUPPORT. RELOAD_SETTINGS and its ends (R177, R181), and the live copy that a load takes from an image. -/

namespace Sys2Proof.Machine

variable {s t u : State} {a b : Applied} (m : Memory)

/-! ### The command and a bad image -/

theorem exec_reloadSettings_taken {h : SlipHead} (ht : s.takeable h = true) (hi : h.target = 0xFE) (hstrap : s.straps.store = true) :
    exec (.reloadSettings h) s = .next ((if s.store ≠ .none then s.answered h .busy false false none
      else ({ s.markTaken h.addr with store := .reloading h.port (some h.addr) }).keepOpen h cmdReload false).finishSlip h.port) := by
  rw [exec_slip_taken _ h s rfl ht]
  show Host.Outcome.next ((State.reloadSlip h (s.markTaken h.addr)).finishSlip h.port) = _
  unfold State.reloadSlip
  rw [if_neg (State.storeCommand_target (s := s.markTaken h.addr) hi hstrap), State.refuse, State.endTaken_markTaken]
  rfl

theorem exec_reloadReadEnd_bad {p : Port} {slip : Option Half} (hrun : s.phase = .running) (hs : s.store = .reloading p slip) {answered : Bool}
    (hbad : s.imageCause answered ≠ .none) : exec (.reloadReadEnd answered) s =
      .next ((s.endStore p slip .badValue false [BitVec.ofNat 8 (s.imageCause answered).code]).close) := by
  show Host.Outcome.next _ = _
  rw [hs]
  dsimp only
  rw [if_pos ((State.running_iff s).2 hrun)]
  generalize s.imageCause answered = c at hbad ⊢
  cases c with
  | none => exact absurd rfl hbad
  | _ => rfl

theorem exec_reloadReadEnd_good {p : Port} {slip : Option Half} (hrun : s.phase = .running) (hs : s.store = .reloading p slip) {answered : Bool}
    (hgood : s.imageCause answered = .none) : exec (.reloadReadEnd answered) s = .next ((s.imageApplied p slip s.settingsMem).close) := by
  show Host.Outcome.next _ = _
  rw [hs]
  dsimp only
  rw [if_pos ((State.running_iff s).2 hrun)]
  generalize s.imageCause answered = c at hgood ⊢
  cases c with
  | none => rfl
  | _ => cases hgood

theorem State.endOpen_keepsLate (s : State) (p : Port) (addr : Half) (o : SlipOutcome) (c : Bool) (r : Option (List Byte)) :
    ∀ e ∈ s.late, e ∈ (s.endOpen p addr o c r).late := by
  unfold State.endOpen
  split
  · exact fun _ => id
  · intro e he
    have hdrop : ∀ v : State, (v.dropOpen p addr).late = v.late := fun v => by
      unfold State.dropOpen
      rw [State.pubReader_eq]
      rfl
    rw [hdrop, State.endAt_eq]
    exact List.mem_append_left _ he

theorem State.endStore_keepsLate (s : State) (p : Port) (slip : Option Half) (o : SlipOutcome) (c : Bool) (r : List Byte) :
    ∀ e ∈ s.late, e ∈ (s.endStore p slip o c r).late := by
  cases slip with
  | none => exact fun _ => id
  | some addr => exact State.endOpen_keepsLate { s with store := .none } p addr o c (some r)

/-- The slip of a reload that asked for its end's event gives it (R154). -/
theorem State.endStore_told (s : State) (p : Port) {addr : Half} {e : OpenSlip} (he : s.findOpen p addr = some e) (hattn : e.attn = true)
    (o : SlipOutcome) (c : Bool) (r : List Byte) : (p, srcSlipEnded) ∈ (s.endStore p (some addr) o c r).late :=
  (State.endOpen_late { s with store := .none } p addr o c (some r)).2 e he hattn

theorem State.enclosureAmber_endStore (s : State) (p : Port) (slip : Option Half) (o : SlipOutcome) (c : Bool) (r : List Byte) :
    (s.endStore p slip o c r).enclosureAmber = s.enclosureAmber := by
  cases slip with
  | none => rfl
  | some addr =>
    show (State.endOpen p addr o c (some r) { s with store := .none }).enclosureAmber = _
    rw [State.endOpen_eq]
    rfl

/-! ### The live copy after a reload -/

/-- The live copy that a reload leaves: an image's values, the zone parts and the windows that would be refused as they stood (R181). -/
def Settings.reloaded (c : Settings) : Settings :=
  { Settings.ofImage m with
    zones := Vector.ofFn fun z => zoneTaken m z c.zones[z], patterns := patternsTaken m c.patterns
    windows := if imageWindowsAccepted m then (Settings.ofImage m).windows else c.windows }

theorem State.setImageWindows_settings (hset : s.settings = Settings.imaged m t.settings) :
    (s.setImageWindows m).settings = Settings.reloaded m t.settings := by
  unfold State.setImageWindows Settings.reloaded
  split
  · simp only [State.putWindowSetting, hset, Settings.imaged, Settings.ofImage]
    rfl
  · rw [hset]
    simp only [Settings.imaged]

theorem zoneTaken_parts (z : Fin 4) (old : ZoneSettings) :
    ((curveInImage m z).passes → (zoneTaken m z old).curve = curveInImage m z) ∧ (¬ (curveInImage m z).passes → (zoneTaken m z old).curve = old.curve) ∧
      ((limitsInImage m z).ceiling < (limitsInImage m z).critical → (zoneTaken m z old).limits = limitsInImage m z) ∧
      (¬ (limitsInImage m z).ceiling < (limitsInImage m z).critical → (zoneTaken m z old).limits = old.limits) := by
  unfold zoneTaken
  rw [← Curve.accepted_iff_passes, ← ZoneLimits.accepted_iff]
  exact ⟨fun h => if_pos h, fun h => if_neg h, fun h => if_pos h, fun h => if_neg h⟩

theorem zonesRefused_eq : zonesRefused m = ((List.finRange 4).filter fun z => !(curveInImage m z).accepted).length +
    ((List.finRange 4).filter fun z => !(limitsInImage m z).accepted).length := by
  unfold zonesRefused
  induction List.finRange 4 with
  | nil => rfl
  | cons z l ih =>
    rw [List.map_cons, List.sum_cons, ih]
    unfold zoneRefused
    cases hc : (curveInImage m z).accepted <;> cases hl : (limitsInImage m z).accepted <;> simp [hc, hl] <;> omega

/-! ### The good image -/

/-- All the sections of an image taken, within the one handling of a reload. -/
def State.imageSections (s : State) : Applied := ((⟨s.holdSummary, false, 0⟩ : Applied).powerSections m).otherSections m

/-- The state that the reload's slip, if it still has one, is ended in. -/
def State.imageStood (s : State) : State :=
  (((s.imageSections m).state.setImageWindows m).fromImage.releaseSummary s.reports.summaryHeld).evalEnclosure

theorem State.imageApplied_eq (s : State) (p : Port) (slip : Option Half) : s.imageApplied p slip m =
    (s.imageStood m).endStore p slip .ok (s.imageSections m).clamped
      [0, BitVec.ofNat 8 (s.imageSections m).refused, flagByte (!imageWindowsAccepted m)] := rfl

theorem State.imageSections_imaged (hrun : s.phase = .running) : Applied.Imaged m ⟨s.holdSummary, false, 0⟩ (s.imageSections m) :=
  Applied.sections_imaged m hrun

theorem State.setImageWindows_eq (s : State) : s.setImageWindows m = { s with settings := (s.setImageWindows m).settings } := by
  unfold State.setImageWindows
  split <;> rfl

/-- Beside settings, origin and cause only reports, lights and the status area move after the last section. -/
theorem State.imageStood_eq (s : State) : s.imageStood m = { (s.imageSections m).state with
    settings := (s.imageStood m).settings, origin := .image, cause := .none
    reports := (s.imageStood m).reports, lights := (s.imageStood m).lights, status := (s.imageStood m).status } := by
  unfold State.imageStood
  generalize (s.imageSections m).state = z
  have hw := z.setImageWindows_eq m
  generalize z.setImageWindows m = w at hw ⊢
  have hr := State.releaseSummary_eq w.fromImage s.reports.summaryHeld
  generalize w.fromImage.releaseSummary s.reports.summaryHeld = r at hr ⊢
  have hv := r.evalEnclosure_eq
  generalize r.evalEnclosure = v at hv ⊢
  have hset : v.settings = w.settings := by rw [hv, hr]; rfl
  have hrep : v.reports = { w.reports with summaryHeld := s.reports.summaryHeld } := by rw [hv, hr]; rfl
  rw [hset, hrep]
  generalize w.settings = c at hw ⊢
  generalize r.status = status at hr
  generalize v.lights = lights at hv ⊢
  generalize v.status = status' at hv ⊢
  subst hw hr hv
  rfl

theorem State.imageStood_settings (hrun : s.phase = .running) : (s.imageStood m).settings = s.settings.reloaded m := by
  have himaged := (State.imageSections_imaged m hrun).takes.stores.settings
  have hset : ((s.imageSections m).state.setImageWindows m).settings = s.settings.reloaded m :=
    State.setImageWindows_settings (t := s) m himaged
  unfold State.imageStood
  rw [State.evalEnclosure_settings, State.releaseSummary_eq]
  exact hset

theorem State.fromImage_outer (w : State) (b : Bool) : (w.fromImage.releaseSummary b).evalEnclosure.outer =
    { w.outer with origin := .image, cause := .none } := by
  rw [State.evalEnclosure_outer, State.releaseSummary_outer]
  rfl

theorem State.imageStood_outer (s : State) : (s.imageStood m).outer =
    { (s.imageSections m).state.outer with settings := (s.imageStood m).settings, origin := .image, cause := .none } := by
  unfold State.imageStood
  generalize (s.imageSections m).state = z
  have hw := z.setImageWindows_eq m
  generalize z.setImageWindows m = w at hw ⊢
  have houter := w.fromImage_outer s.reports.summaryHeld
  generalize (w.fromImage.releaseSummary s.reports.summaryHeld).evalEnclosure = v at houter ⊢
  have hset : v.settings = w.settings := congrArg Outer.settings houter
  rw [houter, hset]
  clear houter hset
  generalize w.settings = c at hw ⊢
  subst hw
  rfl

/-- What the taking of a whole image does not do: up to the end of the slip (R181). -/
structure ImageBorne (s v : State) : Prop where
  readers : ReadersStand s v
  late    : ∀ e ∈ s.late, e ∈ v.late
  serving : ∀ p, (v.attention.get p).inService = (s.attention.get p).inService
  zones   : ∀ z : Fin 4, s.zones[z].like v.zones[z]
  slips   : SlipsSpared s v

theorem State.imageStood_borne (hrun : s.phase = .running) : ImageBorne s (s.imageStood m) := by
  have h := s.holdSummary_borne.trans (State.imageSections_imaged m hrun).takes.stores.borne
  have hparts := s.imageStood_eq m
  generalize s.imageStood m = v at hparts ⊢
  generalize (s.imageSections m).state = z at h hparts
  generalize v.settings = c at hparts
  generalize v.reports = reports at hparts
  generalize v.lights = lights at hparts
  generalize v.status = status at hparts
  subst hparts
  exact ⟨h.readers.trans (.of_eq rfl), h.late, h.serving, h.zones, h.slips.trans (.of_bays rfl rfl)⟩

theorem State.imageStood_outerWhole (hrun : s.phase = .running) : (s.imageStood m).outer =
    { s.outer.taking (s.imageStood m).outer with origin := .image, cause := .none } := by
  have hborne := (State.imageSections_imaged m hrun).takes.stores.borne.outer
  have houter := s.imageStood_outer m
  generalize (s.imageStood m).outer = o at houter ⊢
  generalize (s.imageSections m).state.outer = x at hborne houter
  generalize (s.imageStood m).settings = c at houter
  subst houter
  exact congrArg (fun o : Outer => { o with settings := c, origin := .image, cause := .none }) hborne

end Sys2Proof.Machine
end

