-- ==== Sys2Proof/Proofs/ReloadEnds.lean ====
section
/-! SUPPORT. What a reload of a good image leaves, and the reload and the load as a whole (R177, R181). -/

namespace Sys2Proof.Machine

variable {s : State} (m : Memory)

/-! ### The end of a reload of a good image -/

theorem State.imageStood_time (hrun : s.phase = .running) : (s.imageStood m).time = s.time :=
  congrArg Outer.time (State.imageStood_outerWhole m hrun)

/-- The reload's slip, if it still has one, ends in the state that the image's values left. -/
theorem State.imageApplied_closed (s : State) (p : Port) (slip : Option Half) :
    SlipClosed { s.imageStood m with store := .none } (s.imageApplied p slip m) ∧
      (s.imageApplied p slip m).exchange = (s.imageStood m).exchange.storeEnded p slip .ok (s.imageSections m).clamped
        [0, BitVec.ofNat 8 (s.imageSections m).refused, flagByte (!imageWindowsAccepted m)] (s.imageStood m).time :=
  State.endStore_closed ..

theorem State.imageApplied_outer (hrun : s.phase = .running) (p : Port) (slip : Option Half) : (s.imageApplied p slip m).outer =
    { s.outer.taking (s.imageApplied p slip m).outer with origin := .image, cause := .none, store := .none } := by
  have hend := (s.imageApplied_closed m p slip).1.outer
  have hstood := State.imageStood_outerWhole m hrun
  generalize (s.imageApplied p slip m).outer = x at hend ⊢
  generalize s.imageStood m = v at hend hstood
  rw [show State.outer { v with store := .none } = { v.outer with store := .none } from rfl] at hend
  generalize v.outer = y at hend hstood
  subst hend
  exact congrArg (fun o : Outer => { o with store := .none }) hstood

theorem State.imageApplied_settings (hrun : s.phase = .running) (p : Port) (slip : Option Half) :
    (s.imageApplied p slip m).settings = s.settings.reloaded m :=
  (congrArg Outer.settings (s.imageApplied_closed m p slip).1.outer).trans (State.imageStood_settings m hrun)

theorem State.imageStood_late (s : State) : (s.imageStood m).late = (s.imageSections m).state.late := by
  have hparts := s.imageStood_eq m
  generalize s.imageStood m = v at hparts ⊢
  generalize (s.imageSections m).state = z at hparts ⊢
  rw [hparts]

theorem State.imageStood_scheduler (s : State) : (s.imageStood m).scheduler = (s.imageSections m).state.scheduler := by
  have hparts := s.imageStood_eq m
  generalize s.imageStood m = v at hparts ⊢
  generalize (s.imageSections m).state = z at hparts ⊢
  rw [hparts]

/-- The units, the supplies and the reservation stand as the last section left them. -/
theorem State.imageApplied_units (s : State) (p : Port) (slip : Option Half) :
    (s.imageApplied p slip m).outer.units = (s.imageSections m).state.outer.units := by
  have hend := (s.imageApplied_closed m p slip).1.outer
  have hstood := s.imageStood_outer m
  generalize (s.imageApplied p slip m).outer = x at hend ⊢
  generalize s.imageStood m = v at hend hstood
  rw [show State.outer { v with store := .none } = { v.outer with store := .none } from rfl] at hend
  generalize v.outer = y at hend hstood
  generalize (s.imageSections m).state = z at hstood ⊢
  subst hend
  rw [show Outer.units { y with store := .none } = y.units from rfl, hstood]
  rfl

theorem State.imageApplied_late (s : State) (p : Port) (slip : Option Half) :
    ∀ e ∈ (s.imageSections m).state.late, e ∈ (s.imageApplied p slip m).late := by
  intro e he
  rw [State.imageApplied_eq]
  refine State.endStore_keepsLate _ _ _ _ _ _ e ?_
  rw [State.imageStood_late]
  exact he

/-- What a good image's values make of the units, by the settings they came to (R99, R122, R181). -/
structure ImageUnits (s u : State) : Prop where
  slots   : ∀ i : Fin 4, SlotTaken i (Settings.ofImage m).supplies[i] s u
  sensors : ∀ i : Fin 8, SensorTaken i (Settings.ofImage m).sensors[i] s u
  scan    : u.scan = scanTaken (fun j => decide ((Settings.ofImage m).sensors[j].zone ≠ s.settings.sensors[j].zone))
    (fun j => (Settings.ofImage m).sensors[j].zone.isNone) (List.finRange 8) s.scan
  fans    : FansTaken (Settings.ofImage m).fans s u

theorem State.imageApplied_taken (hrun : s.phase = .running) (p : Port) (slip : Option Half) : ImageUnits m s (s.imageApplied p slip m) := by
  obtain ⟨-, hslots, hsensors, hscan, hfans⟩ := State.imageSections_imaged m hrun
  have hunits := s.imageApplied_units m p slip
  have hlate := s.imageApplied_late m p slip
  dsimp only at hslots hsensors hscan hfans
  generalize s.imageApplied p slip m = u at hunits hlate ⊢
  generalize (s.imageSections m).state = z at *
  have hsupply : u.account.supplies = z.account.supplies := congrArg (fun x => x.1) hunits
  have hres : u.account.fanRes = z.account.fanRes := congrArg (fun x => x.2.1) hunits
  have hsensor : u.sensors = z.sensors := congrArg (fun x => x.2.2.1) hunits
  have hscanned : u.scan = z.scan := congrArg (fun x => x.2.2.2.1) hunits
  have hfan : u.fans = z.fans := congrArg (fun x => x.2.2.2.2) hunits
  exact ⟨fun i => (SlotTaken.before (s := s) (t := s.holdSummary) ⟨rfl, rfl, rfl, fun _ => id⟩ (hslots i)).after (by rw [hsupply]) hlate,
    fun i => (SensorTaken.before (s := s) (t := s.holdSummary) ⟨rfl, rfl, fun _ => id⟩ (hsensors i)).after (by rw [hsensor]) hlate,
    hscanned.trans hscan, (hfans.of_before (s := s) rfl rfl rfl).after hfan hres hlate⟩

/-- The queue stays sound, its entries of their bays' new classes (R56). -/
theorem State.imageApplied_queue (hrun : s.phase = .running) (p : Port) (slip : Option Half) (hs : s.queueSound)
    (hclassed : s.classed) : (s.imageApplied p slip m).queueSound ∧
      ∀ e ∈ (s.imageApplied p slip m).scheduler.queue, e.cls = ((Settings.ofImage m).bays[e.bay] : BaySettings).cls := by
  refine ⟨(State.imageApplied_carried (not_loading_of_running hrun) p slip m).queue hs, ?_⟩
  have hstores := (State.imageSections_imaged m hrun).takes.stores
  have hz := hstores.classed (show s.holdSummary.queueSound from hs) hclassed
  rw [(s.imageApplied_closed m p slip).1.scheduler, show State.scheduler { s.imageStood m with store := .none } = _ from s.imageStood_scheduler m]
  unfold State.classed State.baySet at hz
  rw [hstores.settings] at hz
  exact hz

theorem State.imageApplied_amber (hrun : s.phase = .running) (p : Port) (slip : Option Half) :
    (s.imageApplied p slip m).lights.enclosure.amber.system = (s.imageApplied p slip m).enclosureAmber := by
  have hphase : (s.imageSections m).state.phase = s.phase := (State.imageSections_imaged m hrun).takes.stores.borne.phase
  rw [(s.imageApplied_closed m p slip).1.lights, State.imageApplied_eq, State.enclosureAmber_endStore]
  unfold State.imageStood
  generalize (s.imageSections m).state = z at hphase ⊢
  refine State.evalEnclosure_amber ?_
  have hw := congrArg State.phase (z.setImageWindows_eq m)
  rw [State.releaseSummary_eq]
  show (z.setImageWindows m).phase ≠ _
  rw [hw, show State.phase { z with settings := _ } = z.phase from rfl, hphase, hrun]
  decide

/-- The zones whose curve an image's reload refuses. -/
def curvesRefused : List (Fin 4) := (List.finRange 4).filter fun z => !(curveInImage m z).accepted

/-- The zones whose limits an image's reload refuses. -/
def limitsRefused : List (Fin 4) := (List.finRange 4).filter fun z => !(limitsInImage m z).accepted

theorem mem_curvesRefused (z : Fin 4) : z ∈ curvesRefused m ↔ ¬ (curveInImage m z).passes := by
  rw [← Curve.accepted_iff_passes]
  simp [curvesRefused]

theorem mem_limitsRefused (z : Fin 4) : z ∈ limitsRefused m ↔ ¬ (limitsInImage m z).ceiling < (limitsInImage m z).critical := by
  rw [← ZoneLimits.accepted_iff]
  simp [limitsRefused]

theorem State.imageSections_refused (hrun : s.phase = .running) :
    (s.imageSections m).refused = (curvesRefused m).length + (limitsRefused m).length := by
  rw [(State.imageSections_imaged m hrun).takes.refused, zonesRefused_eq]
  exact Nat.zero_add _

theorem State.imageSections_clamped (hrun : s.phase = .running) : (s.imageSections m).clamped = true ↔ ClampedInImage m := by
  rw [(State.imageSections_imaged m hrun).takes.clamped, sectionClamped_iff]
  exact or_iff_right (by simp)

theorem windowsPass_ofImage : WindowsPass (Settings.ofImage m).windows.a (Settings.ofImage m).windows.b ↔ imageWindowsAccepted m = true :=
  (imageWindowsAccepted_iff m).symm

theorem State.imageApplied_exchange (hrun : s.phase = .running) (p : Port) (slip : Option Half) : (s.imageApplied p slip m).exchange =
    (s.imageStood m).exchange.storeEnded p slip .ok (s.imageSections m).clamped
      [0, BitVec.ofNat 8 ((curvesRefused m).length + (limitsRefused m).length), flagByte (!imageWindowsAccepted m)] s.time := by
  rw [(s.imageApplied_closed m p slip).2, State.imageStood_time m hrun, State.imageSections_refused m hrun]

/-- Where no bay's operation has a slip, no slip ends but the reload's own. -/
theorem State.imageStood_exchange (hrun : s.phase = .running)
    (hnone : ∀ (n : BayNo) (o : Operation), (s.bay n).record.op = some o → o.slip = none) : (s.imageStood m).exchange = s.exchange := by
  refine (State.imageStood_borne m hrun).slips.exchange fun n => ?_
  rcases howned : s.owned n with _ | ⟨p, a⟩
  · rfl
  · obtain ⟨o, hop, -, hslip⟩ := slipOwned_some howned
    rw [hnone n o hop] at hslip
    cases hslip

theorem State.imageStood_findOpen (hrun : s.phase = .running) {p : Port} {addr : Half}
    (hother : ∀ (n : BayNo) (o : Operation), (s.bay n).record.op = some o → o.origin = .slip p → o.slip ≠ some addr) :
    (s.imageStood m).findOpen p addr = s.findOpen p addr := by
  refine (State.imageStood_borne m hrun).slips.found p addr fun n howned => ?_
  obtain ⟨o, hop, horigin, hslip⟩ := slipOwned_some howned
  exact hother n o hop horigin hslip

theorem State.imageApplied_told {p : Port} {addr : Half} {e : OpenSlip}
    (he : (s.imageStood m).findOpen p addr = some e) (hattn : e.attn = true) : (p, srcSlipEnded) ∈ (s.imageApplied p (some addr) m).late :=
  State.endStore_told (s.imageStood m) p he hattn ..

/-- A bus that is idle stays so; on one that runs, the read of a sensor that moved is discarded and a sensor set to NONE leaves the scan (R99). -/
theorem ImageUnits.scanned {u : State} (h : ImageUnits m s u) : (s.scan.left = [] → u.scan = s.scan) ∧
    ∀ i rest, s.scan.left = i :: rest →
      (u.scan.discard = true ↔ s.scan.discard = true ∨ (Settings.ofImage m).sensors[i].zone ≠ s.settings.sensors[i].zone) ∧
        ∃ l, u.scan.left = i :: l ∧ l.Sublist rest ∧ ∀ j ∈ rest, j ∈ l ↔ j = i ∨
          ¬ ((Settings.ofImage m).sensors[j].zone ≠ s.settings.sensors[j].zone ∧ (Settings.ofImage m).sensors[j].zone = none) := by
  rw [h.scan]
  refine ⟨fun hidle => scanTaken_idle _ _ _ hidle, fun i rest hleft => ?_⟩
  simpa only [List.mem_finRange, true_and, decide_eq_true_eq, Option.isNone_iff_eq_none] using
    scanTaken_running (fun j => decide ((Settings.ofImage m).sensors[j].zone ≠ s.settings.sensors[j].zone))
      (fun j => (Settings.ofImage m).sensors[j].zone.isNone) (List.finRange 8) hleft

theorem Settings.reloaded_pattern (c : Settings) {i : Fin 8} (hi : 2 ≤ i.val) :
    (c.reloaded m).patterns[i] = (Settings.ofImage m).patterns[i] := by
  have hat : (c.reloaded m).patterns[i] = if i.val < 2 then c.patterns[i] else (Settings.ofImage m).patterns[i] := Vector.getElem_ofFn ..
  rw [hat, if_neg (Nat.not_lt.2 hi)]

theorem Settings.reloaded_zone (c : Settings) (z : Fin 4) :
    ((curveInImage m z).passes → (c.reloaded m).zones[z].curve = curveInImage m z) ∧
      (¬ (curveInImage m z).passes → (c.reloaded m).zones[z].curve = c.zones[z].curve) ∧
      ((limitsInImage m z).ceiling < (limitsInImage m z).critical → (c.reloaded m).zones[z].limits = limitsInImage m z) ∧
      (¬ (limitsInImage m z).ceiling < (limitsInImage m z).critical → (c.reloaded m).zones[z].limits = c.zones[z].limits) := by
  have hat : (c.reloaded m).zones[z] = zoneTaken m z c.zones[z] := Vector.getElem_ofFn ..
  rw [hat]
  exact zoneTaken_parts m z _

/-! ### The obligation -/

/-- Settles O59: the take, the reload of a bad and of a good image, and what a load takes. -/
theorem reloadAppliesImage : Obligations.ReloadAppliesImage := by
  unfold Obligations.ReloadAppliesImage
  refine ⟨?_, ?_, ?_⟩
  · intro s h ht hi hstrap
    have hexec := exec_reloadSettings_taken ht hi hstrap
    refine ⟨fun hbusy => by rw [hexec, if_pos hbusy], fun hidle => ?_⟩
    rw [hexec, if_neg (not_not.2 hidle)]
    exact ⟨_, rfl, State.keepOpen_eq _ h _ _, State.exchange_keepOpen _ h _ _,
      (ReadersStand.of_eq rfl).trans (State.keepOpen_readersStand _ h _ _)⟩
  · intro s p slip answered hrun hstore cause
    refine ⟨fun hbad => ?_, fun hgood => ?_⟩
    · obtain ⟨h, hx⟩ := State.endStore_closed s p slip .badValue false [BitVec.ofNat 8 (s.imageCause answered).code]
      exact ⟨_, exec_reloadReadEnd_bad hrun hstore hbad, h.outer, hx, h.readers, h.bays, h.lines, h.feeds, h.lights, h.account, h.scheduler,
        h.attention, h.reports, h.only⟩
    · intro m image
      have hexec := exec_reloadReadEnd_good hrun hstore hgood
      have hu := State.imageApplied_outer m hrun p slip
      have hclose := (s.imageApplied p slip m).close_outer
      have hset := State.imageApplied_settings m hrun p slip
      have hborne := State.imageStood_borne m hrun
      have hended := (s.imageApplied_closed m p slip).1
      have hunits := State.imageApplied_taken m hrun p slip
      have hx := State.imageApplied_exchange m hrun p slip
      have hamber := State.imageApplied_amber m hrun p slip
      have hqueue := State.imageApplied_queue m hrun p slip
      have ht : (s.imageApplied p slip m).close.outer =
        { s.outer.taking (s.imageApplied p slip m).outer with origin := .image, cause := .none, store := .none } := hclose.trans hu
      have hnew : (s.imageApplied p slip m).close.settings = s.settings.reloaded m := (congrArg Outer.settings hclose).trans hset
      refine ⟨_, hexec, (congrArg Outer.origin ht :), (congrArg Outer.cause ht :), (congrArg Outer.store ht :), (congrArg Outer.phase ht).trans hrun,
        (congrArg Outer.time ht :), (congrArg Outer.straps ht :), (congrArg Outer.settingsMem ht :), (congrArg Outer.windows ht :),
        (congrArg Settings.bays hnew :), (congrArg Settings.timing hnew :), (congrArg Settings.profiles hnew :), (congrArg Settings.supplies hnew :),
        (congrArg Settings.account hnew :), (congrArg Settings.schedule hnew :), (congrArg Settings.staleTime hnew :), (congrArg Settings.sensors hnew :),
        (congrArg Settings.fans hnew :), (congrArg Settings.attention hnew :), fun i hi => ?_, ?_, fun hpass => ?_, fun hfail => ?_,
        s.imageApplied p slip m, s.imageStood m, (s.imageSections m).clamped, curvesRefused m, limitsRefused m,
        flagByte (!imageWindowsAccepted m), rfl, hset.trans hnew.symm, State.imageSections_clamped m hrun,
        ⟨(List.nodup_finRange 4).filter _, mem_curvesRefused m⟩, ⟨(List.nodup_finRange 4).filter _, mem_limitsRefused m⟩, fun hpass => ?_,
        fun hfail => ?_, hx, hborne.readers.trans hended.readers, State.imageStood_exchange m hrun, fun addr e haddr he hother => ?_, ?_, ?_, ?_,
        hamber, fun z => ?_, fun i => ⟨(hunits.slots i).same, (hunits.slots i).moved⟩,
        ⟨hunits.fans.same, fun hne => ⟨hunits.fans.whole hne, hunits.fans.fans hne, hunits.fans.drawn hne⟩⟩,
        fun i => ⟨(hunits.sensors i).like, (hunits.sensors i).told⟩, hunits.scanned.1, hunits.scanned.2, hqueue⟩
      · rw [hnew]
        exact Settings.reloaded_pattern m s.settings hi
      · intro z c l
        rw [hnew]
        exact Settings.reloaded_zone m s.settings z
      · rw [hnew]
        exact if_pos ((windowsPass_ofImage m).1 hpass)
      · rw [hnew]
        exact if_neg fun h => hfail ((windowsPass_ofImage m).2 h)
      · rw [(windowsPass_ofImage m).1 hpass]
        rfl
      · rw [Bool.eq_false_iff.2 fun h => hfail ((windowsPass_ofImage m).2 h)]
        rfl
      · have hfound := State.imageStood_findOpen m hrun hother
        subst haddr
        exact ⟨hfound.trans he, State.imageApplied_told m (hfound.trans he)⟩
      · exact hu
      · exact (congrArg (fun x : PerPort AttentionUnit => x.a.inService) hended.attention).trans (hborne.serving .a)
      · exact (congrArg (fun x : PerPort AttentionUnit => x.b.inService) hended.attention).trans (hborne.serving .b)
      · rw [show (s.imageApplied p slip m).zones = (s.imageStood m).zones from congrArg Outer.zones hended.outer]
        exact hborne.zones z
  · intro m c
    refine ⟨Settings.ofImage_taken m, by simp [c, Settings.ofImage], by simp [c, Settings.ofImage], ?_, rfl, imageWindow_base m .a, rfl,
      imageWindow_base m .b⟩
    intro z x l
    simp only [c, Settings.ofImage_zone, x, l, ← Curve.accepted_iff_passes, ← ZoneLimits.accepted_iff]
    exact ⟨fun h => if_pos h, fun h => if_neg h, fun h => if_pos h, fun h => if_neg h⟩

end Sys2Proof.Machine
end
